-- ==== Sys2Proof/Word.lean ====
section
/-!
DEFINITION. The plain words of the model: bits that the spec treats as bits (spec/02_notation.md), and the plainest arithmetic on
them; the kinds of an access from another module, and what a sensor reads. A register, an address under computation and an encoded field are bit
vectors; a count, an index and a physical address are naturals.
-/
namespace Sys2Proof

/-- A byte. -/
abbrev Byte := BitVec 8
/-- A 64-bit word. -/
abbrev Word := BitVec 64
/-- The 8192 bits of a vector register or of a DRAM row (R123, R10). -/
abbrev VReg := BitVec 8192
/-- The 1024 bits of a mask register (R126) or of a nest register (R131). -/
abbrev Bits1024 := BitVec 1024

/-- Bits `hi:lo` of a natural number. -/
def natBits (n hi lo : Nat) : Nat := (n >>> lo) % 2 ^ (hi + 1 - lo)

/-- Bit `i` of a natural number. -/
def natBit (n i : Nat) : Bool := n.testBit i

/-- A natural number below `2^w` read as a two's-complement integer. -/
def natSigned (w n : Nat) : Int := if 2 * (n % 2 ^ w) < 2 ^ w then (n % 2 ^ w : Nat) else (n % 2 ^ w : Nat) - (2 ^ w : Nat)

/-- An integer reduced modulo `2^w`. -/
def intWrap (w : Nat) (z : Int) : Nat := (z % (2 ^ w : Nat)).toNat

/-- The little-endian value of a list of bytes. -/
def leNat : List Byte → Nat
  | [] => 0
  | b :: bs => b.toNat + 256 * leNat bs

/-- The `k` low bytes of `n`, little-endian. -/
def leBytes : Nat → Nat → List Byte
  | 0, _ => []
  | k + 1, n => BitVec.ofNat 8 n :: leBytes k (n / 256)

/-- Replace element `i` of a list; an index beyond the list changes nothing. -/
def setAt {α : Type} (l : List α) (i : Nat) (a : α) : List α := l.set i a

/-- Element `i` of a list of words, zero beyond its end. -/
def wordAt (l : List Word) (i : Nat) : Word := l.getD i 0

/-- What an access from another module is (R410): a read, a write, or an atomic with the number of its function, in the order of R255, and its type. -/
inductive RemoteKind where
  | read | write
  | atomic (fn ty : BitVec 3)
  deriving DecidableEq, Repr

/-- A reading of a die's sensor and of the package's power meter: °C and W (R445, R446). -/
structure Reading where
  temp : BitVec 8
  power : BitVec 12
  deriving DecidableEq, Repr

end Sys2Proof
end

