-- ==== Sys2Proof/Syntax.lean ====
section
/-!
DEFINITION. The ONE syntax of the model: one constructor for each row of the opcode table (spec/12_encoding.md R191-R203 and
spec/95_what_each_step_holds.md). A row that has an encoding carries its encoded fields, named by the table's letters and of the
table's widths; a row that has none (a host command, a register write, a device event) carries the operands that say which
object it acts on.
-/
namespace Sys2Proof

/-- The steps of the device: the 205 strand instructions, the 17 row-microcode ops, and the 138 host commands and device events. -/
inductive Instr where
  /-- ADD (R208): Integer add of a and b, fitted by R164. -/
  | add (d : BitVec 6) (a : BitVec 6) (b : BitVec 6) (s : BitVec 1) (x : BitVec 1)
  /-- SUB (R208): Integer subtract, fitted by R164. -/
  | sub (d : BitVec 6) (a : BitVec 6) (b : BitVec 6) (s : BitVec 1) (x : BitVec 1)
  /-- MUL (R208): Integer multiply, low bits fitted by R164. -/
  | mul (d : BitVec 6) (a : BitVec 6) (b : BitVec 6) (s : BitVec 1) (x : BitVec 1)
  /-- MULH (R208): High half of the integer product. -/
  | mulh (d : BitVec 6) (a : BitVec 6) (b : BitVec 6) (s : BitVec 1) (x : BitVec 1)
  /-- DIV (R209): Integer divide per lane under R183, with an optional divide trap after all lanes are written. -/
  | div (d : BitVec 6) (a : BitVec 6) (b : BitVec 6) (s : BitVec 1) (x : BitVec 1)
  /-- REM (R209): Integer remainder per lane under R183. -/
  | rem (d : BitVec 6) (a : BitVec 6) (b : BitVec 6) (s : BitVec 1) (x : BitVec 1)
  /-- MIN (R208): Smaller of a and b. -/
  | min (d : BitVec 6) (a : BitVec 6) (b : BitVec 6) (s : BitVec 1) (x : BitVec 1)
  /-- MAX (R208): Larger of a and b. -/
  | max (d : BitVec 6) (a : BitVec 6) (b : BitVec 6) (s : BitVec 1) (x : BitVec 1)
  /-- MAC (R208): Multiply-accumulate d + a x b. -/
  | mac (d : BitVec 6) (a : BitVec 6) (b : BitVec 6) (s : BitVec 1) (x : BitVec 1)
  /-- ABS (R208): Integer absolute value. -/
  | abs (d : BitVec 6) (a : BitVec 6) (s : BitVec 1)
  /-- NEG (R208): Integer negation. -/
  | neg (d : BitVec 6) (a : BitVec 6) (s : BitVec 1)
  /-- ABSD (R208): Absolute difference of a and b. -/
  | absd (d : BitVec 6) (a : BitVec 6) (b : BitVec 6) (s : BitVec 1) (x : BitVec 1)
  /-- AND (R210): Bitwise AND. -/
  | and (d : BitVec 6) (a : BitVec 6) (b : BitVec 6) (s : BitVec 1) (x : BitVec 1)
  /-- OR (R210): Bitwise OR. -/
  | or (d : BitVec 6) (a : BitVec 6) (b : BitVec 6) (s : BitVec 1) (x : BitVec 1)
  /-- XOR (R210): Bitwise XOR. -/
  | xor (d : BitVec 6) (a : BitVec 6) (b : BitVec 6) (s : BitVec 1) (x : BitVec 1)
  /-- ANDN (R210): a AND NOT b. -/
  | andn (d : BitVec 6) (a : BitVec 6) (b : BitVec 6) (s : BitVec 1) (x : BitVec 1)
  /-- NOT (R210): Bitwise NOT. -/
  | not (d : BitVec 6) (a : BitVec 6) (s : BitVec 1)
  /-- SHL (R210): Shift left by c. -/
  | shl (d : BitVec 6) (a : BitVec 6) (b : BitVec 6) (s : BitVec 1) (x : BitVec 1)
  /-- SHR (R210): Logical shift right by c. -/
  | shr (d : BitVec 6) (a : BitVec 6) (b : BitVec 6) (s : BitVec 1) (x : BitVec 1)
  /-- SHRA (R210): Arithmetic shift right by c. -/
  | shra (d : BitVec 6) (a : BitVec 6) (b : BitVec 6) (s : BitVec 1) (x : BitVec 1)
  /-- ROL (R210): Rotate left by c mod w. -/
  | rol (d : BitVec 6) (a : BitVec 6) (b : BitVec 6) (s : BitVec 1) (x : BitVec 1)
  /-- POPC (R210): Population count. -/
  | popc (d : BitVec 6) (a : BitVec 6) (s : BitVec 1)
  /-- CLZ (R210): Count of leading zeros. -/
  | clz (d : BitVec 6) (a : BitVec 6) (s : BitVec 1)
  /-- CEQ (R213): Integer compare equal into a mask or scalar. -/
  | ceq (d : BitVec 6) (a : BitVec 6) (b : BitVec 6) (s : BitVec 1) (x : BitVec 1)
  /-- CNE (R213): Integer compare not equal. -/
  | cne (d : BitVec 6) (a : BitVec 6) (b : BitVec 6) (s : BitVec 1) (x : BitVec 1)
  /-- CLT (R213): Integer compare less than. -/
  | clt (d : BitVec 6) (a : BitVec 6) (b : BitVec 6) (s : BitVec 1) (x : BitVec 1)
  /-- CLE (R213): Integer compare less or equal. -/
  | cle (d : BitVec 6) (a : BitVec 6) (b : BitVec 6) (s : BitVec 1) (x : BitVec 1)
  /-- CGT (R213): Integer compare greater than. -/
  | cgt (d : BitVec 6) (a : BitVec 6) (b : BitVec 6) (s : BitVec 1) (x : BitVec 1)
  /-- CGE (R213): Integer compare greater or equal. -/
  | cge (d : BitVec 6) (a : BitVec 6) (b : BitVec 6) (s : BitVec 1) (x : BitVec 1)
  /-- MAND (R214): Mask AND over all 1024 bits. -/
  | mand (d : BitVec 6) (a : BitVec 6) (b : BitVec 6)
  /-- MOR (R214): Mask OR. -/
  | mor (d : BitVec 6) (a : BitVec 6) (b : BitVec 6)
  /-- MXOR (R214): Mask XOR. -/
  | mxor (d : BitVec 6) (a : BitVec 6) (b : BitVec 6)
  /-- MANDN (R214): Mask a AND NOT b. -/
  | mandn (d : BitVec 6) (a : BitVec 6) (b : BitVec 6)
  /-- MNOT (R214): Mask NOT. -/
  | mnot (d : BitVec 6) (a : BitVec 6)
  /-- MSET (R214): Sets mask bits below EL and clears the rest. -/
  | mset (d : BitVec 6)
  /-- MCLR (R214): Clears every mask bit. -/
  | mclr (d : BitVec 6)
  /-- MPOPC (R214): Counts set mask bits below EL into xD. -/
  | mpopc (d : BitVec 6) (a : BitVec 6)
  /-- MFIRST (R214): Index of the lowest set mask bit below EL. -/
  | mfirst (d : BitVec 6) (a : BitVec 6)
  /-- MTOX (R214): Moves mask bits 63:0 to xD. -/
  | mtox (d : BitVec 6) (a : BitVec 6)
  /-- XTOM (R214): Moves xA into mask bits 63:0, clearing the rest. -/
  | xtom (d : BitVec 6) (a : BitVec 6)
  /-- SEL (R215): Selects A or B per element by the guard. -/
  | sel (d : BitVec 6) (a : BitVec 6) (b : BitVec 6)
  /-- SLUP (R215): Slides elements up by xB. -/
  | slup (d : BitVec 6) (a : BitVec 6) (b : BitVec 6)
  /-- SLDN (R215): Slides elements down by xB. -/
  | sldn (d : BitVec 6) (a : BitVec 6) (b : BitVec 6)
  /-- VPERM (R215): Permutes A by the indices in B. -/
  | vperm (d : BitVec 6) (a : BitVec 6) (b : BitVec 6)
  /-- COMPR (R215): Compresses guarded elements downwards. -/
  | compr (d : BitVec 6) (a : BitVec 6)
  /-- EXPND (R215): Expands consecutive elements into guarded positions. -/
  | expnd (d : BitVec 6) (a : BitVec 6)
  /-- BCAST (R215): Broadcasts xB into every guarded element. -/
  | bcast (d : BitVec 6) (b : BitVec 6)
  /-- IOTA (R215): Writes each element index. -/
  | iota (d : BitVec 6)
  /-- ZIP (R215): Interleaves A and B. -/
  | zip (d : BitVec 6) (a : BitVec 6) (b : BitVec 6)
  /-- UNZIP (R215): De-interleaves the concatenation of A and B. -/
  | unzip (d : BitVec 6) (a : BitVec 6) (b : BitVec 6)
  /-- RSUM (R217): Integer tree sum reduction into xD. -/
  | rsum (d : BitVec 6) (a : BitVec 6)
  /-- RMIN (R217): Integer minimum reduction. -/
  | rmin (d : BitVec 6) (a : BitVec 6)
  /-- RMAX (R217): Integer maximum reduction. -/
  | rmax (d : BitVec 6) (a : BitVec 6)
  /-- RAND (R217): AND reduction. -/
  | rand (d : BitVec 6) (a : BitVec 6)
  /-- ROR (R217): OR reduction. -/
  | ror (d : BitVec 6) (a : BitVec 6)
  /-- RXOR (R217): XOR reduction. -/
  | rxor (d : BitVec 6) (a : BitVec 6)
  /-- VSTRIP (R218): Sets SC and VL for a strip loop. -/
  | vstrip (d : BitVec 6) (a : BitVec 6)
  /-- VNEXT (R218): Advances the strip loop to the next VL. -/
  | vnext (d : BitVec 6)
  /-- SHAPE (R218): Sets VROWS, VCOLS and VL, or raises the shape trap. -/
  | shape (d : BitVec 6) (a : BitVec 6) (b : BitVec 6)
  /-- VLQ (R218): Returns the spill-frame size for a selection. -/
  | vlq (d : BitVec 6) (a : BitVec 6)
  /-- DCOL (R218): Splits a linear index into row and column in VS layout. -/
  | dcol (d : BitVec 6) (a : BitVec 6)
  /-- SETMODE (R219): Register form: sets MD from xA and clears selected ST bits. -/
  | setmode (a : BitVec 6)
  /-- GETMODE (R218): Reads MD and ST into xD. -/
  | getmode (d : BitVec 6)
  /-- SETMODE_IMM (R219): Immediate form: sets MD from IMM, ST unchanged. -/
  | setmodeImm (i : BitVec 20)
  /-- ADDI (R211): Adds a signed immediate. -/
  | addi (d : BitVec 6) (a : BitVec 6) (s : BitVec 1) (i : BitVec 13)
  /-- ANDI (R211): ANDs a sign-extended immediate. -/
  | andi (d : BitVec 6) (a : BitVec 6) (s : BitVec 1) (i : BitVec 13)
  /-- ORI (R211): ORs a sign-extended immediate. -/
  | ori (d : BitVec 6) (a : BitVec 6) (s : BitVec 1) (i : BitVec 13)
  /-- XORI (R211): XORs a sign-extended immediate. -/
  | xori (d : BitVec 6) (a : BitVec 6) (s : BitVec 1) (i : BitVec 13)
  /-- SHLI (R211): Shift left by an immediate count. -/
  | shli (d : BitVec 6) (a : BitVec 6) (s : BitVec 1) (c : BitVec 6)
  /-- SHRI (R211): Logical shift right by an immediate count. -/
  | shri (d : BitVec 6) (a : BitVec 6) (s : BitVec 1) (c : BitVec 6)
  /-- SHRAI (R211): Arithmetic shift right by an immediate count. -/
  | shrai (d : BitVec 6) (a : BitVec 6) (s : BitVec 1) (c : BitVec 6)
  /-- ROLI (R211): Rotate left by an immediate count. -/
  | roli (d : BitVec 6) (a : BitVec 6) (s : BitVec 1) (c : BitVec 6)
  /-- LUI (R212): Loads a sign-extended immediate shifted left by 12. -/
  | lui (d : BitVec 6) (i : BitVec 20)
  /-- ADPC (R212): Adds a shifted immediate to PC into xD. -/
  | adpc (d : BitVec 6) (i : BitVec 20)
  /-- BEQ (R220): Branch if xA equals xB. -/
  | beq (a : BitVec 6) (b : BitVec 6) (o : BitVec 10)
  /-- BNE (R220): Branch if xA differs from xB. -/
  | bne (a : BitVec 6) (b : BitVec 6) (o : BitVec 10)
  /-- BLT (R220): Branch if signed less than. -/
  | blt (a : BitVec 6) (b : BitVec 6) (o : BitVec 10)
  /-- BGE (R220): Branch if signed greater or equal. -/
  | bge (a : BitVec 6) (b : BitVec 6) (o : BitVec 10)
  /-- BLTU (R220): Branch if unsigned less than. -/
  | bltu (a : BitVec 6) (b : BitVec 6) (o : BitVec 10)
  /-- BGEU (R220): Branch if unsigned greater or equal. -/
  | bgeu (a : BitVec 6) (b : BitVec 6) (o : BitVec 10)
  /-- BMANY (R220): Branch if some mask bit below EL is set. -/
  | bmany (a : BitVec 6) (o : BitVec 10)
  /-- BMNONE (R220): Branch if no mask bit below EL is set. -/
  | bmnone (a : BitVec 6) (o : BitVec 10)
  /-- J (R221): PC-relative jump. -/
  | j (o : BitVec 26)
  /-- JAL (R221): Jump and link into x47. -/
  | jal (o : BitVec 26)
  /-- JR (R221): Jump to xA, or the jump-target trap. -/
  | jr (a : BitVec 6)
  /-- JALR (R221): Jump to xA and link into xD. -/
  | jalr (d : BitVec 6) (a : BitVec 6)
  /-- LOOP (R223): Counts a nest level down and branches while nonzero. -/
  | loop (l : BitVec 4) (a : BitVec 6) (o : BitVec 10)
  /-- REP (R225): Repeats the next word with stepped register fields, iteration by iteration. -/
  | rep (c : BitVec 6) (s : BitVec 3) (i : BitVec 3)
  /-- FADD (R228): Correctly rounded floating add. -/
  | fadd (d : BitVec 6) (a : BitVec 6) (b : BitVec 6) (s : BitVec 1) (x : BitVec 1)
  /-- FSUB (R228): Floating subtract. -/
  | fsub (d : BitVec 6) (a : BitVec 6) (b : BitVec 6) (s : BitVec 1) (x : BitVec 1)
  /-- FMUL (R228): Floating multiply; log product under l6. -/
  | fmul (d : BitVec 6) (a : BitVec 6) (b : BitVec 6) (s : BitVec 1) (x : BitVec 1)
  /-- FDIV (R228): Floating divide. -/
  | fdiv (d : BitVec 6) (a : BitVec 6) (b : BitVec 6) (s : BitVec 1) (x : BitVec 1)
  /-- FSQRT (R228): Floating square root. -/
  | fsqrt (d : BitVec 6) (a : BitVec 6) (s : BitVec 1)
  /-- FMIN (R230): Floating minimum. -/
  | fmin (d : BitVec 6) (a : BitVec 6) (b : BitVec 6) (s : BitVec 1) (x : BitVec 1)
  /-- FMAX (R230): Floating maximum. -/
  | fmax (d : BitVec 6) (a : BitVec 6) (b : BitVec 6) (s : BitVec 1) (x : BitVec 1)
  /-- FABS (R231): Clears the sign bit. -/
  | fabs (d : BitVec 6) (a : BitVec 6) (s : BitVec 1)
  /-- FNEG (R231): Inverts the sign bit. -/
  | fneg (d : BitVec 6) (a : BitVec 6) (s : BitVec 1)
  /-- FRCP (R233): Approximate reciprocal. -/
  | frcp (d : BitVec 6) (a : BitVec 6) (s : BitVec 1)
  /-- FRSQ (R233): Approximate reciprocal square root. -/
  | frsq (d : BitVec 6) (a : BitVec 6) (s : BitVec 1)
  /-- FEXP2 (R233): Approximate 2 to the power a. -/
  | fexp2 (d : BitVec 6) (a : BitVec 6) (s : BitVec 1)
  /-- FLOG2 (R233): Approximate base-2 logarithm. -/
  | flog2 (d : BitVec 6) (a : BitVec 6) (s : BitVec 1)
  /-- FTANH (R233): Approximate hyperbolic tangent. -/
  | ftanh (d : BitVec 6) (a : BitVec 6) (s : BitVec 1)
  /-- FMA (R232): Fused p + d, rounded once. -/
  | fma (d : BitVec 6) (a : BitVec 6) (b : BitVec 6) (s : BitVec 1) (x : BitVec 1)
  /-- FMS (R232): Fused p - d. -/
  | fms (d : BitVec 6) (a : BitVec 6) (b : BitVec 6) (s : BitVec 1) (x : BitVec 1)
  /-- FNMA (R232): Fused -p + d. -/
  | fnma (d : BitVec 6) (a : BitVec 6) (b : BitVec 6) (s : BitVec 1) (x : BitVec 1)
  /-- FNMS (R232): Fused -p - d. -/
  | fnms (d : BitVec 6) (a : BitVec 6) (b : BitVec 6) (s : BitVec 1) (x : BitVec 1)
  /-- FCEQ (R235): Floating compare equal. -/
  | fceq (d : BitVec 6) (a : BitVec 6) (b : BitVec 6) (s : BitVec 1) (x : BitVec 1)
  /-- FCNE (R235): Floating compare not equal or unordered. -/
  | fcne (d : BitVec 6) (a : BitVec 6) (b : BitVec 6) (s : BitVec 1) (x : BitVec 1)
  /-- FCLT (R235): Floating compare less than. -/
  | fclt (d : BitVec 6) (a : BitVec 6) (b : BitVec 6) (s : BitVec 1) (x : BitVec 1)
  /-- FCLE (R235): Floating compare less or equal. -/
  | fcle (d : BitVec 6) (a : BitVec 6) (b : BitVec 6) (s : BitVec 1) (x : BitVec 1)
  /-- FCUN (R235): Floating compare unordered. -/
  | fcun (d : BitVec 6) (a : BitVec 6) (b : BitVec 6) (s : BitVec 1) (x : BitVec 1)
  /-- FCLASS (R236): Writes the class code of each element. -/
  | fclass (d : BitVec 6) (a : BitVec 6) (s : BitVec 1)
  /-- CVT (R237): Converts from MD.Type to the encoded destination type. -/
  | cvt (d : BitVec 6) (a : BitVec 6) (y : BitVec 5) (s : BitVec 1)
  /-- RINT (R238): Rounds each element to an integral value in its own format. -/
  | rint (d : BitVec 6) (a : BitVec 6) (s : BitVec 1)
  /-- FRSUM (R239): Floating tree sum reduction into xD. -/
  | frsum (d : BitVec 6) (a : BitVec 6)
  /-- FRMIN (R239): Floating minimum reduction. -/
  | frmin (d : BitVec 6) (a : BitVec 6)
  /-- FRMAX (R239): Floating maximum reduction. -/
  | frmax (d : BitVec 6) (a : BitVec 6)
  /-- QSCALE (R241): Chooses block exponents by the quantiser and writes a scale register. -/
  | qscale (d : BitVec 6) (a : BitVec 6) (b : BitVec 6)
  /-- QPACK (R242): Quantises elements into narrow codes under block scales. -/
  | qpack (d : BitVec 6) (a : BitVec 6) (b : BitVec 6)
  /-- QUNPK (R243): Decodes narrow codes under block scales into MD.Type. -/
  | qunpk (d : BitVec 6) (a : BitVec 6) (b : BitVec 6)
  /-- VLD (R249): Unit-stride vector load with precise faults and VS replay. -/
  | vld (d : BitVec 6) (a : BitVec 6) (k : BitVec 3) (r : BitVec 1) (p : BitVec 2) (o : BitVec 8)
  /-- VST (R249): Unit-stride vector store. -/
  | vst (d : BitVec 6) (a : BitVec 6) (k : BitVec 3) (p : BitVec 2) (o : BitVec 8)
  /-- LD (R247): Scalar load into xD. -/
  | ld (d : BitVec 6) (a : BitVec 6) (k : BitVec 3) (r : BitVec 1) (p : BitVec 2) (o : BitVec 8)
  /-- ST (R247): Scalar store of xD. -/
  | st (d : BitVec 6) (a : BitVec 6) (k : BitVec 3) (p : BitVec 2) (o : BitVec 8)
  /-- VLDS (R249): Strided vector load. -/
  | vlds (d : BitVec 6) (a : BitVec 6) (k : BitVec 3) (r : BitVec 1) (p : BitVec 2) (b : BitVec 6)
  /-- VLDI (R249): Indexed vector load. -/
  | vldi (d : BitVec 6) (a : BitVec 6) (k : BitVec 3) (r : BitVec 1) (p : BitVec 2) (b : BitVec 6)
  /-- VSTS (R249): Strided vector store. -/
  | vsts (d : BitVec 6) (a : BitVec 6) (k : BitVec 3) (p : BitVec 2) (b : BitVec 6)
  /-- VSTI (R249): Indexed vector store. -/
  | vsti (d : BitVec 6) (a : BitVec 6) (k : BitVec 3) (p : BitVec 2) (b : BitVec 6)
  /-- AADD (R255): Atomic add at the home. -/
  | aadd (d : BitVec 6) (a : BitVec 6) (k : BitVec 3) (p : BitVec 2) (b : BitVec 6)
  /-- AMIN (R255): Atomic minimum. -/
  | amin (d : BitVec 6) (a : BitVec 6) (k : BitVec 3) (p : BitVec 2) (b : BitVec 6)
  /-- AMAX (R255): Atomic maximum. -/
  | amax (d : BitVec 6) (a : BitVec 6) (k : BitVec 3) (p : BitVec 2) (b : BitVec 6)
  /-- AAND (R255): Atomic AND. -/
  | aand (d : BitVec 6) (a : BitVec 6) (k : BitVec 3) (p : BitVec 2) (b : BitVec 6)
  /-- AOR (R255): Atomic OR. -/
  | aor (d : BitVec 6) (a : BitVec 6) (k : BitVec 3) (p : BitVec 2) (b : BitVec 6)
  /-- AXOR (R255): Atomic XOR. -/
  | axor (d : BitVec 6) (a : BitVec 6) (k : BitVec 3) (p : BitVec 2) (b : BitVec 6)
  /-- ASWP (R255): Atomic swap. -/
  | aswp (d : BitVec 6) (a : BitVec 6) (k : BitVec 3) (p : BitVec 2) (b : BitVec 6)
  /-- ACAS (R255): Atomic compare and swap. -/
  | acas (d : BitVec 6) (a : BitVec 6) (k : BitVec 3) (p : BitVec 2) (b : BitVec 6)
  /-- PREF (R248): Asks the L2 to install a line; never faults. -/
  | pref (a : BitVec 6) (k : BitVec 3) (p : BitVec 2) (o : BitVec 8)
  /-- TLD (R252): Tile load from a tensor into a vector register. -/
  | tld (d : BitVec 6) (a : BitVec 6) (t : BitVec 6)
  /-- TST (R252): Tile store from a vector register into a tensor. -/
  | tst (d : BitVec 6) (a : BitVec 6) (t : BitVec 6)
  /-- BLD (R253): Typed-buffer load into a vector register. -/
  | bld (d : BitVec 6) (a : BitVec 6) (u : BitVec 2)
  /-- BST (R253): Typed-buffer store from a vector register. -/
  | bst (d : BitVec 6) (a : BitVec 6) (u : BitVec 2)
  /-- VSPILL (R254): Spills the selected dirty vector registers to a spill frame. -/
  | vspill (d : BitVec 6) (a : BitVec 6)
  /-- VFILL (R254): Fills vector registers from a spill frame. -/
  | vfill (a : BitVec 6)
  /-- WAIT (R256): Closes named channel batches and waits until the named counters read zero. -/
  | wait (k : BitVec 8)
  /-- DRAIN (R256): As WAIT, then waits for system-scope performance and home-order entry of writes. -/
  | drain (k : BitVec 8)
  /-- BINIT (R101): Initialises a named barrier's EXP and TMO. -/
  | binit (a : BitVec 6) (n : BitVec 10)
  /-- BEXP (R101): Sets a named barrier's EXP, completing it if CNT reaches it. -/
  | bexp (a : BitVec 6) (n : BitVec 10)
  /-- BARV (R100): Issues an arrival at a named barrier. -/
  | barv (d : BitVec 6) (n : BitVec 10)
  /-- BGEN (R257): Returns a named barrier's record. -/
  | bgen (d : BitVec 6) (n : BitVec 10)
  /-- BWAIT (R101): Waits on a named barrier under the generation test. -/
  | bwait (d : BitVec 6) (a : BitVec 6) (n : BitVec 10)
  /-- BWAIT_P (R101): Waits on a named barrier under the phase test. -/
  | bwaitP (d : BitVec 6) (a : BitVec 6) (n : BitVec 10)
  /-- SSTEP (R107): Issues a pending arrival at a superstep barrier. -/
  | sstep (d : BitVec 6) (n : BitVec 6)
  /-- BWAIT_S (R107): Waits on a superstep barrier under the generation test. -/
  | bwaitS (d : BitVec 6) (a : BitVec 6) (n : BitVec 6)
  /-- BWAIT_S_P (R107): Waits on a superstep barrier under the phase test. -/
  | bwaitSP (d : BitVec 6) (a : BitVec 6) (n : BitVec 6)
  /-- BGEN_S (R106): Returns a superstep barrier's GEN and XERR. -/
  | bgenS (d : BitVec 6) (n : BitVec 6)
  /-- TSHAPE (R259): Grants matrix tile sizes for a request. -/
  | tshape (d : BitVec 6) (a : BitVec 6)
  /-- MMA (R262): Queues a matrix multiply-accumulate over a nest into an accumulator tile. -/
  | mma (d : BitVec 6) (a : BitVec 6) (k : BitVec 2) (t : BitVec 2) (n : BitVec 3) (e : BitVec 1) (f : BitVec 1) (c : BitVec 1)
  /-- CRD (R267): Reads an accumulator row into a vector register. -/
  | crd (d : BitVec 6) (a : BitVec 6) (t : BitVec 2)
  /-- CWR (R267): Writes a vector register into an accumulator row. -/
  | cwr (d : BitVec 6) (a : BitVec 6) (t : BitVec 2)
  /-- CCLR (R268): Clears an accumulator tile to +0. -/
  | cclr (t : BitVec 2)
  /-- CCVT (R270): Queues conversion of a tile region into the A partition. -/
  | ccvt (d : BitVec 6) (a : BitVec 6) (t : BitVec 2) (y : BitVec 5)
  /-- COPY (R276): Issues a plain copy command into a channel's open batch. -/
  | copy (t : BitVec 6) (n : BitVec 6) (q : BitVec 2) (g : BitVec 3)
  /-- COPY_TR (R276): Issues a transposing copy command. -/
  | copyTr (t : BitVec 6) (n : BitVec 6) (q : BitVec 2) (g : BitVec 3)
  /-- COPY_DI (R276): Issues a de-interleaving copy command. -/
  | copyDi (t : BitVec 6) (n : BitVec 6) (q : BitVec 2) (g : BitVec 3) (f : BitVec 3)
  /-- COPY_PM (R276): Issues a permuting copy command. -/
  | copyPm (t : BitVec 6) (n : BitVec 6) (q : BitVec 2) (g : BitVec 3) (v : BitVec 6)
  /-- COPY_CV (R278): Issues a quantising copy command with a scale stream. -/
  | copyCv (t : BitVec 6) (n : BitVec 6) (q : BitVec 2) (g : BitVec 3) (c : BitVec 5)
  /-- CLOSE (R281): Closes a channel's open batch, or restarts a halted channel. -/
  | close (q : BitVec 2)
  /-- NLD (R272): Loads a nest register image. -/
  | nld (d : BitVec 6) (a : BitVec 6)
  /-- NST (R272): Stores a nest register image. -/
  | nst (d : BitVec 6) (a : BitVec 6)
  /-- NCNT (R271): Sets a nest level's count. -/
  | ncnt (d : BitVec 6) (a : BitVec 6) (l : BitVec 3)
  /-- NSTR (R271): Sets a nest level's stride. -/
  | nstr (d : BitVec 6) (a : BitVec 6) (l : BitVec 3) (s : BitVec 2)
  /-- ROWLD (R293): Issues a conversion between a bit-plane and a linear tensor. -/
  | rowld (d : BitVec 6) (a : BitVec 6) (t : BitVec 6)
  /-- ROWRUN (R160): Issues a microprogram on a bit-plane tensor. -/
  | rowrun (d : BitVec 6) (a : BitVec 6) (t : BitVec 6)
  /-- ROWSEAL (R294): Issues sealing of every row of a tensor. -/
  | rowseal (a : BitVec 6) (t : BitVec 6)
  /-- ROWQ (R297): Reads the row status word of an entry. -/
  | rowq (d : BitVec 6) (t : BitVec 6)
  /-- CATRUN (R317): Issues a catalogue product run. -/
  | catrun (d : BitVec 6) (a : BitVec 6) (t : BitVec 6)
  /-- CATCHK (R325): Issues a check of catalogue rows. -/
  | catchk (d : BitVec 6) (a : BitVec 6) (t : BitVec 6)
  /-- CATQ (R323): Reads the catalogue status word of an entry. -/
  | catq (d : BitVec 6) (t : BitVec 6)
  /-- ARCIN (R327): Issues an accession of a weight block. -/
  | arcin (d : BitVec 6) (a : BitVec 6) (t : BitVec 6)
  /-- ARCOUT (R327): Issues a deaccession of a weight block. -/
  | arcout (d : BitVec 6) (a : BitVec 6) (t : BitVec 6)
  /-- ARCSTAT (R329): Returns the block state word for an address. -/
  | arcstat (d : BitVec 6) (a : BitVec 6)
  /-- STAGE (R328): Sets hints and stages every page of a block into the reading room. -/
  | stage (a : BitVec 6) (t : BitVec 6)
  /-- HINT (R328): Sets lifetime hints of a block's pages. -/
  | hint (a : BitVec 6) (t : BitVec 6)
  /-- TSETW (R115): Writes a word of a shelf-list entry, leaving it described. -/
  | tsetw (a : BitVec 6) (w : BitVec 4) (t : BitVec 6)
  /-- TGETW (R115): Reads a word of a shelf-list entry. -/
  | tgetw (d : BitVec 6) (w : BitVec 4) (t : BitVec 6)
  /-- TSTAT (R116): Reads the state of a shelf-list entry. -/
  | tstat (d : BitVec 6) (t : BitVec 6)
  /-- TBIND (R112): Checks and binds a shelf-list entry. -/
  | tbind (d : BitVec 6) (t : BitVec 6)
  /-- TRET_TN (R113): Returns a shelf-list entry to empty. -/
  | tretTn (t : BitVec 6)
  /-- TVER (R115): Sets the version number of a bound entry. -/
  | tver (a : BitVec 6) (t : BitVec 6)
  /-- TRAP (R341): Raises the software trap with a code. -/
  | trap (c : BitVec 10)
  /-- TRET (R342): Returns from handler mode to TPC. -/
  | tret
  /-- SRD (R339): Reads a system register. -/
  | srd (d : BitVec 6) (n : BitVec 10)
  /-- SWR (R339): Writes a system register, subject to access and mode. -/
  | swr (a : BitVec 6) (n : BitVec 10)
  /-- ENQ (R343): Copies a launch record into a device-fed queue's ring. -/
  | enq (d : BitVec 6) (a : BitVec 6)
  /-- DMRD (R344): Reads the dirty map. -/
  | dmrd (d : BitVec 6)
  /-- DMCLR (R344): Clears selected dirty-map bits. -/
  | dmclr (a : BitVec 6)
  /-- BRK (R341): Raises the breakpoint trap. -/
  | brk (c : BitVec 9)
  /-- BRK_DBG (R341): Halts the group for the debugger as GHALT does. -/
  | brkDbg (c : BitVec 9)
  /-- IDLE (R345): Holds the strand until a counter falls, a barrier completes or 1 us passes. -/
  | idle
  /-- IDLE_END (R345): Ends the strand. -/
  | idleEnd
  /-- TINV (R347): Drops the context's translations of a page or all pages on every die. -/
  | tinv (a : BitVec 6)
  /-- PGSHARE (R348): Maps a page to another page's frame as copy-on-write. -/
  | pgshare (d : BitVec 6) (a : BitVec 6)
  /-- PGDROP (R349): Invalidates a leaf and adjusts the frame count. -/
  | pgdrop (a : BitVec 6)
  /-- MIGR (R350): Starts migration of a page to another tier. -/
  | migr (d : BitVec 6) (a : BitVec 6)
  /-- LLCFL (R351): Writes back and invalidates the context's last-level-cache lines. -/
  | llcfl (a : BitVec 6)
  /-- AAP (R301): Microcode step copying one row to another. -/
  | aap (p : BitVec 9) (q : BitVec 9)
  /-- TRA (R301): Microcode step writing the triple-row majority. -/
  | tra (p : BitVec 9) (q : BitVec 9) (r : BitVec 9)
  /-- DNOT (R301): Microcode step writing the negation of a row. -/
  | dnot (p : BitVec 9) (q : BitVec 9)
  /-- ZERO (R301): Microcode step clearing a row. -/
  | zero (p : BitVec 9)
  /-- ONES (R301): Microcode step setting a row to ones. -/
  | ones (p : BitVec 9)
  /-- LSHL (R301): Microcode step shifting lanes up. -/
  | lshl (p : BitVec 9) (q : BitVec 9)
  /-- LSHR (R301): Microcode step shifting lanes down. -/
  | lshr (p : BitVec 9) (q : BitVec 9)
  /-- RDL (R301): Microcode step appending a row image to the output record. -/
  | rdl (q : BitVec 9)
  /-- WRL (R301): Microcode step writing a window slot into a row. -/
  | wrl (p : BitVec 9) (s : BitVec 9)
  /-- CNT (R301): Microcode step counting set lanes of a row into CR. -/
  | cnt (q : BitVec 9)
  /-- WACC (R301): Adds CR shifted into ACC, taking no step. -/
  | wacc (i : BitVec 2) (f : BitVec 6)
  /-- WACC_NEG (R301): Subtracts CR shifted from ACC, taking no step. -/
  | waccNeg (i : BitVec 2) (f : BitVec 6)
  /-- BIT (R301): Microcode step filling a row from a constant bit. -/
  | bit (k : BitVec 9) (q : BitVec 9)
  /-- NEXT (R302): Loop control of a microprogram, taking no step. -/
  | next (b : BitVec 9) (n : BitVec 9)
  /-- SEAL (R301): Microcode step re-encoding a row's ECC. -/
  | seal (p : BitVec 9)
  /-- YIELD (R305): Marks a YIELD point, recording a snapshot and possibly switching. -/
  | yield
  /-- STOP (R301): Ends the wave. -/
  | stop
  /-- CLAIM (R47): Claims a context slot for the owner. -/
  | claim (port : BitVec 3) (word : BitVec 64)
  /-- LOADDESC (R41): Latches a context descriptor into a claimed slot. -/
  | loaddesc (port : BitVec 3) (word : BitVec 64)
  /-- LOADKEY (R43): Unwraps and installs a context's tenant key. -/
  | loadkey (port : BitVec 3) (word : BitVec 64)
  /-- ACTIVATE (R51): Starts the context scrub. -/
  | activate (port : BitVec 3) (word : BitVec 64)
  /-- SUSPEND (R53): Pre-empts and saves every group of a context and holds its dispatch. -/
  | suspend (port : BitVec 3) (word : BitVec 64)
  /-- RESUME (R51): Makes a suspended context's groups and records eligible again. -/
  | resume (port : BitVec 3) (word : BitVec 64)
  /-- RETIRE_ABORT (R54): Retires a context in abort mode. -/
  | retireAbort (port : BitVec 3) (word : BitVec 64)
  /-- RETIRE_FINISH (R54): Retires a context in finish mode. -/
  | retireFinish (port : BitVec 3) (word : BitVec 64)
  /-- RELEASE (R51): Frees a claimed or retired context slot. -/
  | release (port : BitVec 3) (word : BitVec 64)
  /-- ADDQUOTA (R46): Adds pages to a context's wear quota. -/
  | addquota (port : BitVec 3) (word : BitVec 64)
  /-- ADDFRAMES (R42): Appends a page to a context's free-frame list. -/
  | addframes (port : BitVec 3) (word : BitVec 64)
  /-- SETCEIL (R44): Sets a context's priority ceiling. -/
  | setceil (port : BitVec 3) (word : BitVec 64)
  /-- QUERY (R50): Returns a context's state and latched descriptor. -/
  | query (port : BitVec 3) (word : BitVec 64)
  /-- QBIND (R59): Binds a queue to a context, ring, level and feed. -/
  | qbind (port : BitVec 3) (word : BitVec 64)
  /-- QSTART (R72): Starts admission from a queue. -/
  | qstart (port : BitVec 3) (word : BitVec 64)
  /-- QSTOP (R72): Stops admission from a queue. -/
  | qstop (port : BitVec 3) (word : BitVec 64)
  /-- QDRAIN (R72): Discards a queue's records and enters draining. -/
  | qdrain (port : BitVec 3) (word : BitVec 64)
  /-- QUNBIND (R72): Unbinds a stopped queue. -/
  | qunbind (port : BitVec 3) (word : BitVec 64)
  /-- QQUERY (R60): Returns a queue's state, head, tail and binding. -/
  | qquery (port : BitVec 3) (word : BitVec 64)
  /-- QTAIL (R62): A host write to a queue's tail register. -/
  | qtail (port : BitVec 3) (qid : BitVec 8) (word : BitVec 64)
  /-- KABORT (R82): Aborts a kernel. -/
  | kabort (port : BitVec 3) (word : BitVec 64)
  /-- KHOLD (R79): Holds a kernel and saves its resident groups. -/
  | khold (port : BitVec 3) (word : BitVec 64)
  /-- KRESUME (R79): Releases a held kernel. -/
  | kresume (port : BitVec 3) (word : BitVec 64)
  /-- GHALT (R95): Halts and saves a single group for debugging. -/
  | ghalt (port : BitVec 3) (word : BitVec 64)
  /-- GRESUME (R95): Resumes a halted group, optionally stepping one instruction. -/
  | gresume (port : BitVec 3) (word : BitVec 64)
  /-- RESOLVE (R370): Frees a pending-fault entry so its waiters replay. -/
  | resolve (port : BitVec 3) (word : BitVec 64)
  /-- FAILPG (R370): Frees a pending-fault entry with the nonexistent-memory fault. -/
  | failpg (port : BitVec 3) (word : BitVec 64)
  /-- INVAL (R370): Invalidates one page of a context on every die. -/
  | inval (port : BitVec 3) (word : BitVec 64)
  /-- INVALL (R370): Invalidates every translation of a context. -/
  | invall (port : BitVec 3) (word : BitVec 64)
  /-- RSALLOC (R377): Allocates a row set, zeroing and sealing its subarrays. -/
  | rsalloc (port : BitVec 3) (word : BitVec 64)
  /-- RSFREE (R377): Zeroes and frees a row set. -/
  | rsfree (port : BitVec 3) (word : BitVec 64)
  /-- RSQUERY (R376): Returns the state of a row set. -/
  | rsquery (port : BitVec 3) (word : BitVec 64)
  /-- RSCFG (R376): Write of the row-region size, taking effect only when allowed. -/
  | rscfg (port : BitVec 3) (word : BitVec 64)
  /-- RRCFG (R399): Write of the reading-room size, taking effect only when allowed. -/
  | rrcfg (port : BitVec 3) (word : BitVec 64)
  /-- ARADOPT (R403): Adopts an unowned weight block into a context. -/
  | aradopt (port : BitVec 3) (word : BitVec 64)
  /-- ARPURGE (R403): Supersedes an unowned weight block. -/
  | arpurge (port : BitVec 3) (word : BitVec 64)
  /-- ARQUERY (R403): Returns a block-table entry. -/
  | arquery (port : BitVec 3) (word : BitVec 64)
  /-- MODID (R408): Write of the module id, taking effect only when every slot is free. -/
  | modid (port : BitVec 3) (word : BitVec 64)
  /-- LINK_ENABLE (R411): LKCTL EN set to 1 starts link training. -/
  | linkEnable (port : BitVec 3) (link : BitVec 4)
  /-- LINK_DISABLE (R411): LKCTL EN cleared takes the link down. -/
  | linkDisable (port : BitVec 3) (link : BitVec 4)
  /-- RTR (R411): Requests a link retraining, subject to deferral. -/
  | rtr (port : BitVec 3) (link : BitVec 4)
  /-- OWN_CLAIM (R437): OWNCTL CLAIM makes the writing port the owner. -/
  | ownClaim (port : BitVec 3) (word : BitVec 64)
  /-- OWN_GIVE (R437): OWNCTL GIVE offers ownership to a target port. -/
  | ownGive (port : BitVec 3) (word : BitVec 64)
  /-- OWN_TAKE (R437): OWNCTL TAKE completes a handover. -/
  | ownTake (port : BitVec 3) (word : BitVec 64)
  /-- OWN_RELEASE (R437): OWNCTL RELEASE clears the owner. -/
  | ownRelease (port : BitVec 3) (word : BitVec 64)
  /-- GIVE_EXPIRY (R437): A GIVE with no TAKE within 1 ms clears PEND. -/
  | giveExpiry
  /-- OWNER_PORT_LOSS (R437): The owner's port failing or going down clears OWNER. -/
  | ownerPortLoss
  /-- REPORT (R442): Writes a signed attestation report to the host buffer. -/
  | report (port : BitVec 3) (word : BitVec 64)
  /-- SESSION (R442): Decapsulates an ML-KEM ciphertext into a session wrap key. -/
  | session (port : BitVec 3) (word : BitVec 64)
  /-- PWR_ON (R448): Setting ON enables the rails and starts bring-up. -/
  | pwrOn
  /-- PWR_OFF (R447): Clearing ON discards all volatile state. -/
  | pwrOff
  /-- RST (R447): Resets the package, discarding all volatile state. -/
  | rst
  /-- OWNREL (R446): Acts as RELEASE by the owner from the board management controller. -/
  | ownrel
  /-- REGISTER_WRITE (R5): A write to any register that has no row of its own. -/
  | registerWrite (port : BitVec 4) (offset : BitVec 19) (word : BitVec 64)
  /-- BOOT_PHASE (R448): Firmware verification ends and measurements are extended. -/
  | bootPhase (ok : Bool)
  /-- MEMORY_PHASE (R448): DRAM training and zeroing end. -/
  | memoryPhase (ok : Bool)
  /-- ARCHIVE_PHASE (R448): The block table rebuild ends. -/
  | archivePhase (ok : Bool)
  /-- LINKS_PHASE (R448): Port training ends and the device becomes ready. -/
  | linksPhase (ok : Bool)
  /-- THROTTLE_CHANGE (R445): A temperature or power threshold changes a die's clock or stack pacing. The operands are the sensor and what it and the power
  meter read. -/
  | throttleChange (sensor : BitVec 5) (reading : Reading)
  /-- SCRUB_COMPLETE (R52): The context scrub ends and the context becomes ready. -/
  | scrubComplete (cid : BitVec 6)
  /-- DRAIN_COMPLETE (R54): Write-back of a draining context ends and it enters retired. -/
  | drainComplete (cid : BitVec 6)
  /-- RECORD_FETCH (R78): The record at HEAD is fetched and checked. -/
  | recordFetch (qid : BitVec 8)
  /-- ADMISSION (R69): The dispatcher admits the chosen queue's head record in its slot. -/
  | admission
  /-- WAIT_CLAUSE_RECHECK (R67): Unsatisfied wait clauses are re-evaluated at least every 2 us. -/
  | waitClauseRecheck (qid : BitVec 8)
  /-- ENQ_COMMIT (R343): After the ring write is performed, ENQ advances TAIL. -/
  | enqCommit (op : Nat)
  /-- SNAPSHOTS_HELD (R79): The kernel's snapshots arrive and the stage table is checked. -/
  | snapshotsHeld (kernel : Nat)
  /-- GROUP_PLACE (R85): A group is placed on a core with its resources and initial state. -/
  | groupPlace (kernel : Nat)
  /-- GROUP_RESTORE (R93): A saved group is restored from its save frame. -/
  | groupRestore (group : Nat)
  /-- PREEMPTION (R90): The device requests pre-emption of a group. -/
  | preemption (group : Nat)
  /-- GROUP_SAVE (R91): A group's save frame is complete and its resources are released. -/
  | groupSave (group : Nat)
  /-- SUPERSTEP_YIELD (R94): A group waiting on a superstep barrier is saved to make room. -/
  | superstepYield (group : Nat)
  /-- GROUP_END (R88): A group whose strands, counters and matrix work are done ends. -/
  | groupEnd (group : Nat)
  /-- KERNEL_END (R80): Kernel-end actions run once outstanding work is done. -/
  | kernelEnd (kernel : Nat)
  /-- STRAND_WAKE (R87): A waiting strand becomes ready when its condition is met. -/
  | strandWake (group : Nat) (strand : BitVec 3)
  /-- IDLE_TIMEOUT (R345): 1 us passes after plain IDLE and the strand becomes ready. -/
  | idleTimeout (group : Nat) (strand : BitVec 3)
  /-- BWAIT_TIMEOUT (R104): A barrier wait reaches TMO and ends with bit 0 set. -/
  | bwaitTimeout (group : Nat) (strand : BitVec 3)
  /-- BARV_ARRIVAL (R100): A strand's arrival takes effect once its writes are visible. -/
  | barvArrival (op : Nat)
  /-- SSTEP_ARRIVAL (R107): A pending superstep arrival takes effect. -/
  | sstepArrival (op : Nat)
  /-- COPY_FAULT_TRAP (R285): The asynchronous copy-fault trap is taken at an instruction boundary. -/
  | copyFaultTrap (group : Nat) (strand : BitVec 3)
  /-- CATALOGUE_FAULT_TRAP (R320): The asynchronous catalogue-fault trap is taken at an instruction boundary. -/
  | catalogueFaultTrap (group : Nat) (strand : BitVec 3)
  /-- LOAD_COMPLETE (R144): A load's data are written and KL falls. -/
  | loadComplete (op : Nat)
  /-- STORE_COMPLETE (R144): A store is performed at its scope and KS falls. -/
  | storeComplete (op : Nat)
  /-- ATOMIC_COMPLETE (R155): An atomic is performed at its home and its counters fall. -/
  | atomicComplete (op : Nat)
  /-- BATCH_CLOSE_TIMEOUT (R281): An open batch closes 512 cycles after its first command. -/
  | batchCloseTimeout (group : Nat) (strand : BitVec 3) (channel : BitVec 2)
  /-- NEST_BATCH (R282): The copy engine runs one nest batch of a command. -/
  | nestBatch (group : Nat) (strand : BitVec 3) (channel : BitVec 2)
  /-- COPY_COMPLETE (R144): A copy command completes, KEk falls and flags are ORed. -/
  | copyComplete (group : Nat) (strand : BitVec 3) (channel : BitVec 2)
  /-- MATRIX_OP_START (R263): The head MMA or CCVT begins once R159 allows. -/
  | matrixOpStart (core : BitVec 8)
  /-- MATRIX_OP_RETIRE (R263): A matrix operation retires, releasing its entry and ORing flags. -/
  | matrixOpRetire (core : BitVec 8)
  /-- TABLE_WALK (R355): A translation walk reads the tables and returns a leaf or a fault. -/
  | tableWalk (die : BitVec 5) (cid : BitVec 6) (va : BitVec 64) (kind : BitVec 2)
  /-- HELD_RECORD_WRITE (R369): A held page-service or event record is written when the ring has room. -/
  | heldRecordWrite (ring : BitVec 4)
  /-- COW_RESOLUTION (R366): A copy-on-write fault is resolved under the frame lock. -/
  | cowResolution (die : BitVec 5) (entry : BitVec 12)
  /-- FRAME_COPY (R367): A frame copy for copy-on-write completes. -/
  | frameCopy (die : BitVec 5) (entry : BitVec 12)
  /-- MIGRATION_COPY (R363): After the drain, the migrating frame is copied. -/
  | migrationCopy (op : Nat)
  /-- MIGRATION_SWITCH (R363): The leaf is switched to the new frame and waiters replay. -/
  | migrationSwitch (op : Nat)
  /-- DEMAND_STAGING (R401): A staging request chooses a slot, evicting or refusing. -/
  | demandStaging (page : BitVec 45)
  /-- STAGING_COMPLETE (R362): An archive page is staged and its waiters are released. -/
  | stagingComplete (page : BitVec 45)
  /-- ACCESSION_CHECK (R392): The archive controller accepts or refuses an accession. -/
  | accessionCheck (op : Nat)
  /-- PAGE_PROGRAM (R393): An archive page is programmed and verified. -/
  | pageProgram (op : Nat) (verified : Bool)
  /-- INSTALL_POINT (R393): The new version's leaves are written and the accession completes. -/
  | installPoint (op : Nat)
  /-- DEACCESSION (R396): The controller removes a block's leaves and supersedes it. -/
  | deaccession (op : Nat)
  /-- WEEDING (R398): Weeding chooses a victim erase block when free blocks fall short. -/
  | weeding (stack : BitVec 3)
  /-- WEEDING_COPY (R398): A live page is copied to the log head and its leaves rewritten. -/
  | weedingCopy (stack : BitVec 3)
  /-- ERASE (R390): An erase block is erased and its count advanced. -/
  | erase (stack : BitVec 3) (block : BitVec 19)
  /-- CAT_START_PHASE (R319): The activation span and directory words are read. -/
  | catStartPhase (op : Nat)
  /-- CAT_ROW (R318): A catalogue row is decoded and its result formed. -/
  | catRow (op : Nat)
  /-- CAT_ROW_COMMIT (R319): A row's output is written once every lower row has committed. -/
  | catRowCommit (op : Nat)
  /-- CAT_RUN_COMPLETE (R319): A run or check writes its status, releases its entry and lowers KC. -/
  | catRunComplete (op : Nat)
  /-- ROW_PREPARATION (R298): A row instruction fetches, checks and translates before its hold. -/
  | rowPreparation (op : Nat)
  /-- ROW_HOLD (R160): The homes hold the row range and caches write back. -/
  | rowHold (op : Nat)
  /-- WAVE_START (R288): A wave begins with its registers reset. -/
  | waveStart (op : Nat) (stack : BitVec 4)
  /-- ROWLD_PLANE_STEP (R293): One plane of one wave is converted by ROWLD. -/
  | rowldPlaneStep (op : Nat) (stack : BitVec 4)
  /-- ROWSEAL_STEP (R294): One slice row position is sealed in every subarray of a wave. -/
  | rowsealStep (op : Nat) (stack : BitVec 4)
  /-- ASEAL_STEP (R295): A written row position is sealed at the end of a wave. -/
  | asealStep (op : Nat) (stack : BitVec 4)
  /-- FORCED_SWITCH (R306): After 4096 steps without a YIELD point the instruction is rewound and requeued. -/
  | forcedSwitch (stack : BitVec 4)
  /-- ROW_PREEMPT_STOP (R307): A pre-empted row instruction stops at the 4.096 us bound and is rewound. -/
  | rowPreemptStop (op : Nat) (stack : BitVec 4)
  /-- ROW_RETIRE (R298): Outputs, status and flags are written and the range released. -/
  | rowRetire (op : Nat)
  /-- REFRESH_DUE (R383): A per-bank refresh falls due and runs or is postponed. -/
  | refreshDue (stack : BitVec 4) (pch : BitVec 8) (bank : BitVec 4)
  /-- POSTPONED_REFRESH (R383): A postponed refresh runs when its bank stops being busy. -/
  | postponedRefresh (stack : BitVec 4) (pch : BitVec 8) (bank : BitVec 4)
  /-- ALL_BANK_REFRESH (R384): A forced all-bank refresh runs after the ninth due. -/
  | allBankRefresh (stack : BitVec 4) (pch : BitVec 8)
  /-- REFRESH_END (R382): A refresh ends and its banks reopen. -/
  | refreshEnd (stack : BitVec 4) (pch : BitVec 8) (bank : BitVec 4)
  /-- SERVICE_GAP (R385): A service gap at a step boundary serves waiting ordinary accesses. -/
  | serviceGap (stack : BitVec 4)
  /-- HOST_CXL_MEM_ACCESS (R449): A host CXL.mem request through a context alias. -/
  | hostCxlMemAccess (port : BitVec 3) (addr : BitVec 46) (write : Bool) (size : BitVec 6) (data : BitVec 512)
  /-- HELD_CXL_TIMEOUT (R161): A host request held 1 ms completes with poison or is discarded. -/
  | heldCxlTimeout (op : Nat)
  /-- REMOTE_ACCESS (R410): An access from another module arrives at its target. -/
  | remoteAccess (link : BitVec 4) (scid : BitVec 6) (addr : BitVec 40) (ver : BitVec 32) (kind : RemoteKind) (size : BitVec 6) (data : BitVec 256)
  /-- TRAINING_END (R411): Link training ends up or degraded. -/
  | trainingEnd (unit : BitVec 6) (width : BitVec 2) (peer : BitVec 8) (peerLink : BitVec 4)
  /-- TRAINING_TIMEOUT (R411): Training fails after three attempts or 600 us. -/
  | trainingTimeout (unit : BitVec 6)
  /-- REALIGNMENT_DUE (R411): A realignment falls due and retrains or is deferred. -/
  | realignmentDue (unit : BitVec 6)
  /-- DEFERRAL_EXPIRY (R109): 64 us of deferral pass and the link pauses to retrain. -/
  | deferralExpiry (unit : BitVec 6)
  /-- CHECK_FAILURE_LIMIT (R411): 1024 check failures within 1 ms force a retraining. -/
  | checkFailureLimit (unit : BitVec 6)
  /-- RETRAINING_END (R411): Retraining ends within 3 us and traffic resumes. -/
  | retrainingEnd (unit : BitVec 6) (width : BitVec 2)
  /-- RETRAINING_TIMEOUT (R412): Retraining exceeds 3 us and the link fails. -/
  | retrainingTimeout (unit : BitVec 6)
  /-- VERTICAL_BUS_FAILURE (R411): A failed vertical bus makes every context take a fatal error. -/
  | verticalBusFailure (die : BitVec 5)
  /-- ILLEGAL_INSTRUCTION (R199): A word reaches issue with an unallocated opcode, function code, reserved field or register number, or as a misused REP pair, and raises the illegal-instruction trap. -/
  | illegalInstruction (detail : BitVec 4) (tval : BitVec 64)
  /-- ROW_SET_ZEROING_END (R377): The zeroing of a row set's subarrays for RSALLOC, RSFREE or drain complete ends, and the status is written or the subarrays are freed. -/
  | rowSetZeroingEnd (rsid : BitVec 10)
  /-- INVALIDATION_COMPLETE (R370): A translation invalidation by TINV, INVAL or INVALL finishes on every die within 2 us, and the waiting strand is released or PSSTAT is written. -/
  | invalidationComplete (op : Nat)
  /-- ATTESTATION_COMMAND_END (R442): A REPORT finishes writing its signed report (within 2 s), or a SESSION finishes decapsulation, and ATSTAT is written with BUSY clear. -/
  | attestationCommandEnd (port : BitVec 3)
  /-- FLIT_CHECK_FAILURE (R408): A received flit fails its check on an Acondut link, CRCE rises by one and the flit is sent again. -/
  | flitCheckFailure (link : BitVec 4)
  /-- SOFT_ERROR (R380): A stored DRAM bit flips in a sealed or unsealed row. -/
  | softError (addr : BitVec 40) (bit : BitVec 3)
  deriving DecidableEq, Repr

end Sys2Proof
end

