-- ==== Sys2Proof/Decode.lean ====
section
/-!
DEFINITION. From bits to instructions and back (spec/12_encoding.md R184 to R204). A strand's word is decoded by its major opcode, its
function code and its fields; a word that does not decode is rejected by the detail of R199. The encoder is written from the same
encoding tables. A microcode word has a decoder of its own (R202, R203).
-/
namespace Sys2Proof

/-- `n` bits of a word from bit `lo` upwards. -/
abbrev fld (w : BitVec 32) (lo n : Nat) : BitVec n := w.extractLsb' lo n

/-! ## Register fields -/

/-- The kinds of a register field (R186). -/
inductive RegKind where
  | v | x | m | n
  deriving DecidableEq, Repr

/-- How many registers a kind has (R186). -/
def RegKind.count : RegKind → Nat
  | .v => 48
  | .x => 48
  | .m => 12
  | .n => 8

/-- The register fields of a form; `dst` says whether field D is written. -/
structure Fields where
  d : Option (RegKind × BitVec 6)
  a : Option (RegKind × BitVec 6)
  b : Option (RegKind × BitVec 6)
  dst : Bool
  deriving DecidableEq, Repr

/-- The kind v/x as S selects (R187). -/
def vx (s : BitVec 1) : RegKind := if s == 1#1 then .x else .v

/-- The register fields of every strand instruction (R193 to R197). -/
def Instr.fields : Instr → Fields
  | .add d a b s x => ⟨some (vx s, d), some (vx s, a), some (if x == 1#1 then RegKind.x else vx s, b), true⟩
  | .sub d a b s x => ⟨some (vx s, d), some (vx s, a), some (if x == 1#1 then RegKind.x else vx s, b), true⟩
  | .mul d a b s x => ⟨some (vx s, d), some (vx s, a), some (if x == 1#1 then RegKind.x else vx s, b), true⟩
  | .mulh d a b s x => ⟨some (vx s, d), some (vx s, a), some (if x == 1#1 then RegKind.x else vx s, b), true⟩
  | .div d a b s x => ⟨some (vx s, d), some (vx s, a), some (if x == 1#1 then RegKind.x else vx s, b), true⟩
  | .rem d a b s x => ⟨some (vx s, d), some (vx s, a), some (if x == 1#1 then RegKind.x else vx s, b), true⟩
  | .min d a b s x => ⟨some (vx s, d), some (vx s, a), some (if x == 1#1 then RegKind.x else vx s, b), true⟩
  | .max d a b s x => ⟨some (vx s, d), some (vx s, a), some (if x == 1#1 then RegKind.x else vx s, b), true⟩
  | .mac d a b s x => ⟨some (vx s, d), some (vx s, a), some (if x == 1#1 then RegKind.x else vx s, b), true⟩
  | .abs d a s => ⟨some (vx s, d), some (vx s, a), none, true⟩
  | .neg d a s => ⟨some (vx s, d), some (vx s, a), none, true⟩
  | .absd d a b s x => ⟨some (vx s, d), some (vx s, a), some (if x == 1#1 then RegKind.x else vx s, b), true⟩
  | .and d a b s x => ⟨some (vx s, d), some (vx s, a), some (if x == 1#1 then RegKind.x else vx s, b), true⟩
  | .or d a b s x => ⟨some (vx s, d), some (vx s, a), some (if x == 1#1 then RegKind.x else vx s, b), true⟩
  | .xor d a b s x => ⟨some (vx s, d), some (vx s, a), some (if x == 1#1 then RegKind.x else vx s, b), true⟩
  | .andn d a b s x => ⟨some (vx s, d), some (vx s, a), some (if x == 1#1 then RegKind.x else vx s, b), true⟩
  | .not d a s => ⟨some (vx s, d), some (vx s, a), none, true⟩
  | .shl d a b s x => ⟨some (vx s, d), some (vx s, a), some (if x == 1#1 then RegKind.x else vx s, b), true⟩
  | .shr d a b s x => ⟨some (vx s, d), some (vx s, a), some (if x == 1#1 then RegKind.x else vx s, b), true⟩
  | .shra d a b s x => ⟨some (vx s, d), some (vx s, a), some (if x == 1#1 then RegKind.x else vx s, b), true⟩
  | .rol d a b s x => ⟨some (vx s, d), some (vx s, a), some (if x == 1#1 then RegKind.x else vx s, b), true⟩
  | .popc d a s => ⟨some (vx s, d), some (vx s, a), none, true⟩
  | .clz d a s => ⟨some (vx s, d), some (vx s, a), none, true⟩
  | .ceq d a b s x => ⟨some (if s == 1#1 then RegKind.x else RegKind.m, d), some (vx s, a), some (if x == 1#1 then RegKind.x else vx s, b), true⟩
  | .cne d a b s x => ⟨some (if s == 1#1 then RegKind.x else RegKind.m, d), some (vx s, a), some (if x == 1#1 then RegKind.x else vx s, b), true⟩
  | .clt d a b s x => ⟨some (if s == 1#1 then RegKind.x else RegKind.m, d), some (vx s, a), some (if x == 1#1 then RegKind.x else vx s, b), true⟩
  | .cle d a b s x => ⟨some (if s == 1#1 then RegKind.x else RegKind.m, d), some (vx s, a), some (if x == 1#1 then RegKind.x else vx s, b), true⟩
  | .cgt d a b s x => ⟨some (if s == 1#1 then RegKind.x else RegKind.m, d), some (vx s, a), some (if x == 1#1 then RegKind.x else vx s, b), true⟩
  | .cge d a b s x => ⟨some (if s == 1#1 then RegKind.x else RegKind.m, d), some (vx s, a), some (if x == 1#1 then RegKind.x else vx s, b), true⟩
  | .mand d a b => ⟨some (RegKind.m, d), some (RegKind.m, a), some (RegKind.m, b), true⟩
  | .mor d a b => ⟨some (RegKind.m, d), some (RegKind.m, a), some (RegKind.m, b), true⟩
  | .mxor d a b => ⟨some (RegKind.m, d), some (RegKind.m, a), some (RegKind.m, b), true⟩
  | .mandn d a b => ⟨some (RegKind.m, d), some (RegKind.m, a), some (RegKind.m, b), true⟩
  | .mnot d a => ⟨some (RegKind.m, d), some (RegKind.m, a), none, true⟩
  | .mset d => ⟨some (RegKind.m, d), none, none, true⟩
  | .mclr d => ⟨some (RegKind.m, d), none, none, true⟩
  | .mpopc d a => ⟨some (RegKind.x, d), some (RegKind.m, a), none, true⟩
  | .mfirst d a => ⟨some (RegKind.x, d), some (RegKind.m, a), none, true⟩
  | .mtox d a => ⟨some (RegKind.x, d), some (RegKind.m, a), none, true⟩
  | .xtom d a => ⟨some (RegKind.m, d), some (RegKind.x, a), none, true⟩
  | .sel d a b => ⟨some (RegKind.v, d), some (RegKind.v, a), some (RegKind.v, b), true⟩
  | .slup d a b => ⟨some (RegKind.v, d), some (RegKind.v, a), some (RegKind.x, b), true⟩
  | .sldn d a b => ⟨some (RegKind.v, d), some (RegKind.v, a), some (RegKind.x, b), true⟩
  | .vperm d a b => ⟨some (RegKind.v, d), some (RegKind.v, a), some (RegKind.v, b), true⟩
  | .compr d a => ⟨some (RegKind.v, d), some (RegKind.v, a), none, true⟩
  | .expnd d a => ⟨some (RegKind.v, d), some (RegKind.v, a), none, true⟩
  | .bcast d b => ⟨some (RegKind.v, d), none, some (RegKind.x, b), true⟩
  | .iota d => ⟨some (RegKind.v, d), none, none, true⟩
  | .zip d a b => ⟨some (RegKind.v, d), some (RegKind.v, a), some (RegKind.v, b), true⟩
  | .unzip d a b => ⟨some (RegKind.v, d), some (RegKind.v, a), some (RegKind.v, b), true⟩
  | .rsum d a => ⟨some (RegKind.v, d), some (RegKind.v, a), none, true⟩
  | .rmin d a => ⟨some (RegKind.v, d), some (RegKind.v, a), none, true⟩
  | .rmax d a => ⟨some (RegKind.v, d), some (RegKind.v, a), none, true⟩
  | .rand d a => ⟨some (RegKind.v, d), some (RegKind.v, a), none, true⟩
  | .ror d a => ⟨some (RegKind.v, d), some (RegKind.v, a), none, true⟩
  | .rxor d a => ⟨some (RegKind.v, d), some (RegKind.v, a), none, true⟩
  | .vstrip d a => ⟨some (RegKind.x, d), some (RegKind.x, a), none, true⟩
  | .vnext d => ⟨some (RegKind.x, d), none, none, true⟩
  | .shape d a b => ⟨some (RegKind.x, d), some (RegKind.x, a), some (RegKind.x, b), true⟩
  | .vlq d a => ⟨some (RegKind.x, d), some (RegKind.x, a), none, true⟩
  | .dcol d a => ⟨some (RegKind.x, d), some (RegKind.x, a), none, true⟩
  | .setmode a => ⟨none, some (RegKind.x, a), none, false⟩
  | .getmode d => ⟨some (RegKind.x, d), none, none, true⟩
  | .setmodeImm _ => ⟨none, none, none, false⟩
  | .addi d a s _ => ⟨some (vx s, d), some (vx s, a), none, true⟩
  | .andi d a s _ => ⟨some (vx s, d), some (vx s, a), none, true⟩
  | .ori d a s _ => ⟨some (vx s, d), some (vx s, a), none, true⟩
  | .xori d a s _ => ⟨some (vx s, d), some (vx s, a), none, true⟩
  | .shli d a s _ => ⟨some (vx s, d), some (vx s, a), none, true⟩
  | .shri d a s _ => ⟨some (vx s, d), some (vx s, a), none, true⟩
  | .shrai d a s _ => ⟨some (vx s, d), some (vx s, a), none, true⟩
  | .roli d a s _ => ⟨some (vx s, d), some (vx s, a), none, true⟩
  | .lui d _ => ⟨some (RegKind.x, d), none, none, true⟩
  | .adpc d _ => ⟨some (RegKind.x, d), none, none, true⟩
  | .beq a b _ => ⟨none, some (RegKind.x, a), some (RegKind.x, b), false⟩
  | .bne a b _ => ⟨none, some (RegKind.x, a), some (RegKind.x, b), false⟩
  | .blt a b _ => ⟨none, some (RegKind.x, a), some (RegKind.x, b), false⟩
  | .bge a b _ => ⟨none, some (RegKind.x, a), some (RegKind.x, b), false⟩
  | .bltu a b _ => ⟨none, some (RegKind.x, a), some (RegKind.x, b), false⟩
  | .bgeu a b _ => ⟨none, some (RegKind.x, a), some (RegKind.x, b), false⟩
  | .bmany a _ => ⟨none, some (RegKind.m, a), none, false⟩
  | .bmnone a _ => ⟨none, some (RegKind.m, a), none, false⟩
  | .j _ => ⟨none, none, none, false⟩
  | .jal _ => ⟨none, none, none, false⟩
  | .jr a => ⟨none, some (RegKind.x, a), none, false⟩
  | .jalr d a => ⟨some (RegKind.x, d), some (RegKind.x, a), none, true⟩
  | .loop _ a _ => ⟨none, some (RegKind.n, a), none, false⟩
  | .rep _ _ _ => ⟨none, none, none, false⟩
  | .fadd d a b s x => ⟨some (vx s, d), some (vx s, a), some (if x == 1#1 then RegKind.x else vx s, b), true⟩
  | .fsub d a b s x => ⟨some (vx s, d), some (vx s, a), some (if x == 1#1 then RegKind.x else vx s, b), true⟩
  | .fmul d a b s x => ⟨some (vx s, d), some (vx s, a), some (if x == 1#1 then RegKind.x else vx s, b), true⟩
  | .fdiv d a b s x => ⟨some (vx s, d), some (vx s, a), some (if x == 1#1 then RegKind.x else vx s, b), true⟩
  | .fsqrt d a s => ⟨some (vx s, d), some (vx s, a), none, true⟩
  | .fmin d a b s x => ⟨some (vx s, d), some (vx s, a), some (if x == 1#1 then RegKind.x else vx s, b), true⟩
  | .fmax d a b s x => ⟨some (vx s, d), some (vx s, a), some (if x == 1#1 then RegKind.x else vx s, b), true⟩
  | .fabs d a s => ⟨some (vx s, d), some (vx s, a), none, true⟩
  | .fneg d a s => ⟨some (vx s, d), some (vx s, a), none, true⟩
  | .frcp d a s => ⟨some (vx s, d), some (vx s, a), none, true⟩
  | .frsq d a s => ⟨some (vx s, d), some (vx s, a), none, true⟩
  | .fexp2 d a s => ⟨some (vx s, d), some (vx s, a), none, true⟩
  | .flog2 d a s => ⟨some (vx s, d), some (vx s, a), none, true⟩
  | .ftanh d a s => ⟨some (vx s, d), some (vx s, a), none, true⟩
  | .fma d a b s x => ⟨some (vx s, d), some (vx s, a), some (if x == 1#1 then RegKind.x else vx s, b), true⟩
  | .fms d a b s x => ⟨some (vx s, d), some (vx s, a), some (if x == 1#1 then RegKind.x else vx s, b), true⟩
  | .fnma d a b s x => ⟨some (vx s, d), some (vx s, a), some (if x == 1#1 then RegKind.x else vx s, b), true⟩
  | .fnms d a b s x => ⟨some (vx s, d), some (vx s, a), some (if x == 1#1 then RegKind.x else vx s, b), true⟩
  | .fceq d a b s x => ⟨some (if s == 1#1 then RegKind.x else RegKind.m, d), some (vx s, a), some (if x == 1#1 then RegKind.x else vx s, b), true⟩
  | .fcne d a b s x => ⟨some (if s == 1#1 then RegKind.x else RegKind.m, d), some (vx s, a), some (if x == 1#1 then RegKind.x else vx s, b), true⟩
  | .fclt d a b s x => ⟨some (if s == 1#1 then RegKind.x else RegKind.m, d), some (vx s, a), some (if x == 1#1 then RegKind.x else vx s, b), true⟩
  | .fcle d a b s x => ⟨some (if s == 1#1 then RegKind.x else RegKind.m, d), some (vx s, a), some (if x == 1#1 then RegKind.x else vx s, b), true⟩
  | .fcun d a b s x => ⟨some (if s == 1#1 then RegKind.x else RegKind.m, d), some (vx s, a), some (if x == 1#1 then RegKind.x else vx s, b), true⟩
  | .fclass d a s => ⟨some (vx s, d), some (vx s, a), none, true⟩
  | .cvt d a _ s => ⟨some (vx s, d), some (vx s, a), none, true⟩
  | .rint d a s => ⟨some (vx s, d), some (vx s, a), none, true⟩
  | .frsum d a => ⟨some (RegKind.v, d), some (RegKind.v, a), none, true⟩
  | .frmin d a => ⟨some (RegKind.v, d), some (RegKind.v, a), none, true⟩
  | .frmax d a => ⟨some (RegKind.v, d), some (RegKind.v, a), none, true⟩
  | .qscale d a b => ⟨some (RegKind.v, d), some (RegKind.v, a), some (RegKind.v, b), true⟩
  | .qpack d a b => ⟨some (RegKind.v, d), some (RegKind.v, a), some (RegKind.v, b), true⟩
  | .qunpk d a b => ⟨some (RegKind.v, d), some (RegKind.v, a), some (RegKind.v, b), true⟩
  | .vld d a _ _ _ _ => ⟨some (RegKind.v, d), some (RegKind.x, a), none, true⟩
  | .vst d a _ _ _ => ⟨some (RegKind.v, d), some (RegKind.x, a), none, false⟩
  | .ld d a _ _ _ _ => ⟨some (RegKind.x, d), some (RegKind.x, a), none, true⟩
  | .st d a _ _ _ => ⟨some (RegKind.x, d), some (RegKind.x, a), none, false⟩
  | .vlds d a _ _ _ b => ⟨some (RegKind.v, d), some (RegKind.x, a), some (RegKind.x, b), true⟩
  | .vldi d a _ _ _ b => ⟨some (RegKind.v, d), some (RegKind.x, a), some (RegKind.v, b), true⟩
  | .vsts d a _ _ b => ⟨some (RegKind.v, d), some (RegKind.x, a), some (RegKind.x, b), false⟩
  | .vsti d a _ _ b => ⟨some (RegKind.v, d), some (RegKind.x, a), some (RegKind.v, b), false⟩
  | .aadd d a _ _ b => ⟨some (RegKind.x, d), some (RegKind.x, a), some (RegKind.x, b), true⟩
  | .amin d a _ _ b => ⟨some (RegKind.x, d), some (RegKind.x, a), some (RegKind.x, b), true⟩
  | .amax d a _ _ b => ⟨some (RegKind.x, d), some (RegKind.x, a), some (RegKind.x, b), true⟩
  | .aand d a _ _ b => ⟨some (RegKind.x, d), some (RegKind.x, a), some (RegKind.x, b), true⟩
  | .aor d a _ _ b => ⟨some (RegKind.x, d), some (RegKind.x, a), some (RegKind.x, b), true⟩
  | .axor d a _ _ b => ⟨some (RegKind.x, d), some (RegKind.x, a), some (RegKind.x, b), true⟩
  | .aswp d a _ _ b => ⟨some (RegKind.x, d), some (RegKind.x, a), some (RegKind.x, b), true⟩
  | .acas d a _ _ b => ⟨some (RegKind.x, d), some (RegKind.x, a), some (RegKind.x, b), true⟩
  | .pref a _ _ _ => ⟨none, some (RegKind.x, a), none, false⟩
  | .tld d a _ => ⟨some (RegKind.v, d), some (RegKind.x, a), none, true⟩
  | .tst d a _ => ⟨some (RegKind.v, d), some (RegKind.x, a), none, false⟩
  | .bld d a _ => ⟨some (RegKind.v, d), some (RegKind.x, a), none, true⟩
  | .bst d a _ => ⟨some (RegKind.v, d), some (RegKind.x, a), none, false⟩
  | .vspill d a => ⟨some (RegKind.x, d), some (RegKind.x, a), none, false⟩
  | .vfill a => ⟨none, some (RegKind.x, a), none, false⟩
  | .wait _ => ⟨none, none, none, false⟩
  | .drain _ => ⟨none, none, none, false⟩
  | .binit a _ => ⟨none, some (RegKind.x, a), none, false⟩
  | .bexp a _ => ⟨none, some (RegKind.x, a), none, false⟩
  | .barv d _ => ⟨some (RegKind.x, d), none, none, true⟩
  | .bgen d _ => ⟨some (RegKind.x, d), none, none, true⟩
  | .bwait d a _ => ⟨some (RegKind.x, d), some (RegKind.x, a), none, true⟩
  | .bwaitP d a _ => ⟨some (RegKind.x, d), some (RegKind.x, a), none, true⟩
  | .sstep d _ => ⟨some (RegKind.x, d), none, none, true⟩
  | .bwaitS d a _ => ⟨some (RegKind.x, d), some (RegKind.x, a), none, true⟩
  | .bwaitSP d a _ => ⟨some (RegKind.x, d), some (RegKind.x, a), none, true⟩
  | .bgenS d _ => ⟨some (RegKind.x, d), none, none, true⟩
  | .tshape d a => ⟨some (RegKind.x, d), some (RegKind.x, a), none, true⟩
  | .mma d a _ _ _ _ _ _ => ⟨some (RegKind.x, d), some (RegKind.x, a), none, false⟩
  | .crd d a _ => ⟨some (RegKind.v, d), some (RegKind.x, a), none, true⟩
  | .cwr d a _ => ⟨some (RegKind.v, d), some (RegKind.x, a), none, false⟩
  | .cclr _ => ⟨none, none, none, false⟩
  | .ccvt d a _ _ => ⟨some (RegKind.x, d), some (RegKind.x, a), none, true⟩
  | .copy _ _ _ _ => ⟨none, none, none, false⟩
  | .copyTr _ _ _ _ => ⟨none, none, none, false⟩
  | .copyDi _ _ _ _ _ => ⟨none, none, none, false⟩
  | .copyPm _ _ _ _ v => ⟨none, none, some (RegKind.v, v), false⟩
  | .copyCv _ _ _ _ _ => ⟨none, none, none, false⟩
  | .close _ => ⟨none, none, none, false⟩
  | .nld d a => ⟨some (RegKind.n, d), some (RegKind.x, a), none, true⟩
  | .nst d a => ⟨some (RegKind.n, d), some (RegKind.x, a), none, false⟩
  | .ncnt d a _ => ⟨some (RegKind.n, d), some (RegKind.x, a), none, true⟩
  | .nstr d a _ _ => ⟨some (RegKind.n, d), some (RegKind.x, a), none, true⟩
  | .rowld d a _ => ⟨some (RegKind.x, d), some (RegKind.x, a), none, false⟩
  | .rowrun d a _ => ⟨some (RegKind.x, d), some (RegKind.x, a), none, false⟩
  | .rowseal a _ => ⟨none, some (RegKind.x, a), none, false⟩
  | .rowq d _ => ⟨some (RegKind.x, d), none, none, true⟩
  | .catrun d a _ => ⟨some (RegKind.x, d), some (RegKind.x, a), none, false⟩
  | .catchk d a _ => ⟨some (RegKind.x, d), some (RegKind.x, a), none, false⟩
  | .catq d _ => ⟨some (RegKind.x, d), none, none, true⟩
  | .arcin d a _ => ⟨some (RegKind.x, d), some (RegKind.x, a), none, false⟩
  | .arcout d a _ => ⟨some (RegKind.x, d), some (RegKind.x, a), none, false⟩
  | .arcstat d a => ⟨some (RegKind.x, d), some (RegKind.x, a), none, true⟩
  | .stage a _ => ⟨none, some (RegKind.x, a), none, false⟩
  | .hint a _ => ⟨none, some (RegKind.x, a), none, false⟩
  | .tsetw a _ _ => ⟨none, some (RegKind.x, a), none, false⟩
  | .tgetw d _ _ => ⟨some (RegKind.x, d), none, none, true⟩
  | .tstat d _ => ⟨some (RegKind.x, d), none, none, true⟩
  | .tbind d _ => ⟨some (RegKind.x, d), none, none, true⟩
  | .tretTn _ => ⟨none, none, none, false⟩
  | .tver a _ => ⟨none, some (RegKind.x, a), none, false⟩
  | .trap _ => ⟨none, none, none, false⟩
  | .tret => ⟨none, none, none, false⟩
  | .srd d _ => ⟨some (RegKind.x, d), none, none, true⟩
  | .swr a _ => ⟨none, some (RegKind.x, a), none, false⟩
  | .enq d a => ⟨some (RegKind.x, d), some (RegKind.x, a), none, true⟩
  | .dmrd d => ⟨some (RegKind.x, d), none, none, true⟩
  | .dmclr a => ⟨none, some (RegKind.x, a), none, false⟩
  | .brk _ => ⟨none, none, none, false⟩
  | .brkDbg _ => ⟨none, none, none, false⟩
  | .idle => ⟨none, none, none, false⟩
  | .idleEnd => ⟨none, none, none, false⟩
  | .tinv a => ⟨none, some (RegKind.x, a), none, false⟩
  | .pgshare d a => ⟨some (RegKind.x, d), some (RegKind.x, a), none, true⟩
  | .pgdrop a => ⟨none, some (RegKind.x, a), none, false⟩
  | .migr d a => ⟨some (RegKind.x, d), some (RegKind.x, a), none, true⟩
  | .llcfl a => ⟨none, some (RegKind.x, a), none, false⟩
  | _ => ⟨none, none, none, false⟩

/-- A register number lies in the range of its kind (R186). -/
def regOk : Option (RegKind × BitVec 6) → Bool
  | none => true
  | some (k, r) => decide (r.toNat < k.count)

/-- Every register field lies in its range (detail 3 of R199). -/
def Instr.regsOk (i : Instr) : Bool := regOk i.fields.d && regOk i.fields.a && regOk i.fields.b

/-- The numbers of the system registers (R338). -/
def sysregOk (n : BitVec 10) : Bool :=
  decide (n.toNat ≤ 0x005 ∨ (0x010 ≤ n.toNat ∧ n.toNat ≤ 0x012) ∨ (0x018 ≤ n.toNat ∧ n.toNat ≤ 0x01A) ∨
    (0x020 ≤ n.toNat ∧ n.toNat ≤ 0x023) ∨ n.toNat = 0x030 ∨ n.toNat = 0x040 ∨ n.toNat = 0x041)

/-- S, X, SCOPE and the sub-fields hold no reserved value (detail 4 of R199; R187, R189, R193 to R197, R339). -/
def Instr.reservedOk : Instr → Bool
  | .add _ _ _ s x => !(s == 1#1 && x == 1#1)
  | .sub _ _ _ s x => !(s == 1#1 && x == 1#1)
  | .mul _ _ _ s x => !(s == 1#1 && x == 1#1)
  | .mulh _ _ _ s x => !(s == 1#1 && x == 1#1)
  | .div _ _ _ s x => !(s == 1#1 && x == 1#1)
  | .rem _ _ _ s x => !(s == 1#1 && x == 1#1)
  | .min _ _ _ s x => !(s == 1#1 && x == 1#1)
  | .max _ _ _ s x => !(s == 1#1 && x == 1#1)
  | .mac _ _ _ s x => !(s == 1#1 && x == 1#1)
  | .absd _ _ _ s x => !(s == 1#1 && x == 1#1)
  | .and _ _ _ s x => !(s == 1#1 && x == 1#1)
  | .or _ _ _ s x => !(s == 1#1 && x == 1#1)
  | .xor _ _ _ s x => !(s == 1#1 && x == 1#1)
  | .andn _ _ _ s x => !(s == 1#1 && x == 1#1)
  | .shl _ _ _ s x => !(s == 1#1 && x == 1#1)
  | .shr _ _ _ s x => !(s == 1#1 && x == 1#1)
  | .shra _ _ _ s x => !(s == 1#1 && x == 1#1)
  | .rol _ _ _ s x => !(s == 1#1 && x == 1#1)
  | .ceq _ _ _ s x => !(s == 1#1 && x == 1#1)
  | .cne _ _ _ s x => !(s == 1#1 && x == 1#1)
  | .clt _ _ _ s x => !(s == 1#1 && x == 1#1)
  | .cle _ _ _ s x => !(s == 1#1 && x == 1#1)
  | .cgt _ _ _ s x => !(s == 1#1 && x == 1#1)
  | .cge _ _ _ s x => !(s == 1#1 && x == 1#1)
  | .fadd _ _ _ s x => !(s == 1#1 && x == 1#1)
  | .fsub _ _ _ s x => !(s == 1#1 && x == 1#1)
  | .fmul _ _ _ s x => !(s == 1#1 && x == 1#1)
  | .fdiv _ _ _ s x => !(s == 1#1 && x == 1#1)
  | .fmin _ _ _ s x => !(s == 1#1 && x == 1#1)
  | .fmax _ _ _ s x => !(s == 1#1 && x == 1#1)
  | .fma _ _ _ s x => !(s == 1#1 && x == 1#1)
  | .fms _ _ _ s x => !(s == 1#1 && x == 1#1)
  | .fnma _ _ _ s x => !(s == 1#1 && x == 1#1)
  | .fnms _ _ _ s x => !(s == 1#1 && x == 1#1)
  | .fceq _ _ _ s x => !(s == 1#1 && x == 1#1)
  | .fcne _ _ _ s x => !(s == 1#1 && x == 1#1)
  | .fclt _ _ _ s x => !(s == 1#1 && x == 1#1)
  | .fcle _ _ _ s x => !(s == 1#1 && x == 1#1)
  | .fcun _ _ _ s x => !(s == 1#1 && x == 1#1)
  | .ld _ _ _ _ p _ => p != 3#2
  | .vld _ _ _ _ p _ => p != 3#2
  | .st _ _ _ p _ => p != 3#2
  | .vst _ _ _ p _ => p != 3#2
  | .vlds _ _ _ _ p _ => p != 3#2
  | .vldi _ _ _ _ p _ => p != 3#2
  | .vsts _ _ _ p _ => p != 3#2
  | .vsti _ _ _ p _ => p != 3#2
  | .aadd _ _ _ p _ => p != 3#2
  | .amin _ _ _ p _ => p != 3#2
  | .amax _ _ _ p _ => p != 3#2
  | .aand _ _ _ p _ => p != 3#2
  | .aor _ _ _ p _ => p != 3#2
  | .axor _ _ _ p _ => p != 3#2
  | .aswp _ _ _ p _ => p != 3#2
  | .acas _ _ _ p _ => p != 3#2
  | .pref _ _ p _ => p != 3#2
  | .cvt _ _ y _ => !y.getLsbD 4
  | .ccvt _ _ _ y => !y.getLsbD 4
  | .copyCv _ _ _ _ c => !c.getLsbD 4
  | .copyDi _ _ _ _ f => f != 0#3
  | .bld _ _ u => u != 3#2
  | .bst _ _ u => u != 3#2
  | .wait k => k != 0#8
  | .drain k => k != 0#8
  | .mma _ _ k _ _ e f _ => k == 0#2 || (e == 0#1 && f == 0#1)
  | .ncnt _ _ l => decide (l.toNat < 6)
  | .nstr _ _ l s => decide (l.toNat < 6) && s != 0#2
  | .srd _ n => sysregOk n
  | .swr _ n => sysregOk n
  | _ => true

/-! ## Decoding a strand's word -/

/-- A candidate instruction, with the check of its fixed bits, its reserved values and its registers, in the order of R200. -/
def form (i : Instr) (fixed : Bool) : Except (BitVec 4) Instr :=
  if fixed && i.reservedOk then (if i.regsOk then .ok i else .error 3) else .error 4

/-- The forms of opcode 0x01. -/
def decodeIarith (w : BitVec 32) : Except (BitVec 4) Instr :=
  match (fld w 0 6).toNat with
  | 0 => form (.add (fld w 20 6) (fld w 14 6) (fld w 8 6) (fld w 7 1) (fld w 6 1)) (true)
  | 1 => form (.sub (fld w 20 6) (fld w 14 6) (fld w 8 6) (fld w 7 1) (fld w 6 1)) (true)
  | 2 => form (.mul (fld w 20 6) (fld w 14 6) (fld w 8 6) (fld w 7 1) (fld w 6 1)) (true)
  | 3 => form (.mulh (fld w 20 6) (fld w 14 6) (fld w 8 6) (fld w 7 1) (fld w 6 1)) (true)
  | 4 => form (.div (fld w 20 6) (fld w 14 6) (fld w 8 6) (fld w 7 1) (fld w 6 1)) (true)
  | 5 => form (.rem (fld w 20 6) (fld w 14 6) (fld w 8 6) (fld w 7 1) (fld w 6 1)) (true)
  | 6 => form (.min (fld w 20 6) (fld w 14 6) (fld w 8 6) (fld w 7 1) (fld w 6 1)) (true)
  | 7 => form (.max (fld w 20 6) (fld w 14 6) (fld w 8 6) (fld w 7 1) (fld w 6 1)) (true)
  | 8 => form (.mac (fld w 20 6) (fld w 14 6) (fld w 8 6) (fld w 7 1) (fld w 6 1)) (true)
  | 9 => form (.abs (fld w 20 6) (fld w 14 6) (fld w 7 1)) (fld w 8 6 == 0#6 && fld w 6 1 == 0#1)
  | 10 => form (.neg (fld w 20 6) (fld w 14 6) (fld w 7 1)) (fld w 8 6 == 0#6 && fld w 6 1 == 0#1)
  | 11 => form (.absd (fld w 20 6) (fld w 14 6) (fld w 8 6) (fld w 7 1) (fld w 6 1)) (true)
  | _ => .error 2

/-- The forms of opcode 0x02. -/
def decodeLogic (w : BitVec 32) : Except (BitVec 4) Instr :=
  match (fld w 0 6).toNat with
  | 0 => form (.and (fld w 20 6) (fld w 14 6) (fld w 8 6) (fld w 7 1) (fld w 6 1)) (true)
  | 1 => form (.or (fld w 20 6) (fld w 14 6) (fld w 8 6) (fld w 7 1) (fld w 6 1)) (true)
  | 2 => form (.xor (fld w 20 6) (fld w 14 6) (fld w 8 6) (fld w 7 1) (fld w 6 1)) (true)
  | 3 => form (.andn (fld w 20 6) (fld w 14 6) (fld w 8 6) (fld w 7 1) (fld w 6 1)) (true)
  | 4 => form (.not (fld w 20 6) (fld w 14 6) (fld w 7 1)) (fld w 8 6 == 0#6 && fld w 6 1 == 0#1)
  | 5 => form (.shl (fld w 20 6) (fld w 14 6) (fld w 8 6) (fld w 7 1) (fld w 6 1)) (true)
  | 6 => form (.shr (fld w 20 6) (fld w 14 6) (fld w 8 6) (fld w 7 1) (fld w 6 1)) (true)
  | 7 => form (.shra (fld w 20 6) (fld w 14 6) (fld w 8 6) (fld w 7 1) (fld w 6 1)) (true)
  | 8 => form (.rol (fld w 20 6) (fld w 14 6) (fld w 8 6) (fld w 7 1) (fld w 6 1)) (true)
  | 9 => form (.popc (fld w 20 6) (fld w 14 6) (fld w 7 1)) (fld w 8 6 == 0#6 && fld w 6 1 == 0#1)
  | 10 => form (.clz (fld w 20 6) (fld w 14 6) (fld w 7 1)) (fld w 8 6 == 0#6 && fld w 6 1 == 0#1)
  | _ => .error 2

/-- The forms of opcode 0x03. -/
def decodeIcmp (w : BitVec 32) : Except (BitVec 4) Instr :=
  match (fld w 0 6).toNat with
  | 0 => form (.ceq (fld w 20 6) (fld w 14 6) (fld w 8 6) (fld w 7 1) (fld w 6 1)) (true)
  | 1 => form (.cne (fld w 20 6) (fld w 14 6) (fld w 8 6) (fld w 7 1) (fld w 6 1)) (true)
  | 2 => form (.clt (fld w 20 6) (fld w 14 6) (fld w 8 6) (fld w 7 1) (fld w 6 1)) (true)
  | 3 => form (.cle (fld w 20 6) (fld w 14 6) (fld w 8 6) (fld w 7 1) (fld w 6 1)) (true)
  | 4 => form (.cgt (fld w 20 6) (fld w 14 6) (fld w 8 6) (fld w 7 1) (fld w 6 1)) (true)
  | 5 => form (.cge (fld w 20 6) (fld w 14 6) (fld w 8 6) (fld w 7 1) (fld w 6 1)) (true)
  | _ => .error 2

/-- The forms of opcode 0x04. -/
def decodeMask (w : BitVec 32) : Except (BitVec 4) Instr :=
  match (fld w 0 6).toNat with
  | 0 => form (.mand (fld w 20 6) (fld w 14 6) (fld w 8 6)) (fld w 6 2 == 0#2)
  | 1 => form (.mor (fld w 20 6) (fld w 14 6) (fld w 8 6)) (fld w 6 2 == 0#2)
  | 2 => form (.mxor (fld w 20 6) (fld w 14 6) (fld w 8 6)) (fld w 6 2 == 0#2)
  | 3 => form (.mandn (fld w 20 6) (fld w 14 6) (fld w 8 6)) (fld w 6 2 == 0#2)
  | 4 => form (.mnot (fld w 20 6) (fld w 14 6)) (fld w 6 8 == 0#8)
  | 5 => form (.mset (fld w 20 6)) (fld w 6 14 == 0#14)
  | 6 => form (.mclr (fld w 20 6)) (fld w 6 14 == 0#14)
  | 7 => form (.mpopc (fld w 20 6) (fld w 14 6)) (fld w 6 8 == 0#8)
  | 8 => form (.mfirst (fld w 20 6) (fld w 14 6)) (fld w 6 8 == 0#8)
  | 9 => form (.mtox (fld w 20 6) (fld w 14 6)) (fld w 6 8 == 0#8)
  | 10 => form (.xtom (fld w 20 6) (fld w 14 6)) (fld w 6 8 == 0#8)
  | _ => .error 2

/-- The forms of opcode 0x05. -/
def decodePerm (w : BitVec 32) : Except (BitVec 4) Instr :=
  match (fld w 0 6).toNat with
  | 0 => form (.sel (fld w 20 6) (fld w 14 6) (fld w 8 6)) (fld w 6 2 == 0#2)
  | 1 => form (.slup (fld w 20 6) (fld w 14 6) (fld w 8 6)) (fld w 6 2 == 1#2)
  | 2 => form (.sldn (fld w 20 6) (fld w 14 6) (fld w 8 6)) (fld w 6 2 == 1#2)
  | 3 => form (.vperm (fld w 20 6) (fld w 14 6) (fld w 8 6)) (fld w 6 2 == 0#2)
  | 4 => form (.compr (fld w 20 6) (fld w 14 6)) (fld w 6 8 == 0#8)
  | 5 => form (.expnd (fld w 20 6) (fld w 14 6)) (fld w 6 8 == 0#8)
  | 6 => form (.bcast (fld w 20 6) (fld w 8 6)) (fld w 14 6 == 0#6 && fld w 6 2 == 1#2)
  | 7 => form (.iota (fld w 20 6)) (fld w 6 14 == 0#14)
  | 8 => form (.zip (fld w 20 6) (fld w 14 6) (fld w 8 6)) (fld w 6 2 == 0#2)
  | 9 => form (.unzip (fld w 20 6) (fld w 14 6) (fld w 8 6)) (fld w 6 2 == 0#2)
  | _ => .error 2

/-- The forms of opcode 0x06. -/
def decodeIred (w : BitVec 32) : Except (BitVec 4) Instr :=
  match (fld w 0 6).toNat with
  | 0 => form (.rsum (fld w 20 6) (fld w 14 6)) (fld w 6 8 == 0#8)
  | 1 => form (.rmin (fld w 20 6) (fld w 14 6)) (fld w 6 8 == 0#8)
  | 2 => form (.rmax (fld w 20 6) (fld w 14 6)) (fld w 6 8 == 0#8)
  | 3 => form (.rand (fld w 20 6) (fld w 14 6)) (fld w 6 8 == 0#8)
  | 4 => form (.ror (fld w 20 6) (fld w 14 6)) (fld w 6 8 == 0#8)
  | 5 => form (.rxor (fld w 20 6) (fld w 14 6)) (fld w 6 8 == 0#8)
  | _ => .error 2

/-- The forms of opcode 0x07. -/
def decodeVctl (w : BitVec 32) : Except (BitVec 4) Instr :=
  match (fld w 0 6).toNat with
  | 0 => form (.vstrip (fld w 20 6) (fld w 14 6)) (fld w 6 8 == 2#8)
  | 1 => form (.vnext (fld w 20 6)) (fld w 6 14 == 2#14)
  | 2 => form (.shape (fld w 20 6) (fld w 14 6) (fld w 8 6)) (fld w 6 2 == 2#2)
  | 3 => form (.vlq (fld w 20 6) (fld w 14 6)) (fld w 6 8 == 2#8)
  | 4 => form (.dcol (fld w 20 6) (fld w 14 6)) (fld w 6 8 == 2#8)
  | 5 => form (.setmode (fld w 14 6)) (fld w 20 6 == 0#6 && fld w 6 8 == 2#8)
  | 6 => form (.getmode (fld w 20 6)) (fld w 6 14 == 2#14)
  | _ => .error 2

/-- The forms of opcode 0x0C. -/
def decodeShi (w : BitVec 32) : Except (BitVec 4) Instr :=
  match (fld w 11 2).toNat with
  | 0 => form (.shli (fld w 20 6) (fld w 14 6) (fld w 13 1) (fld w 0 6)) (fld w 6 5 == 0#5)
  | 1 => form (.shri (fld w 20 6) (fld w 14 6) (fld w 13 1) (fld w 0 6)) (fld w 6 5 == 0#5)
  | 2 => form (.shrai (fld w 20 6) (fld w 14 6) (fld w 13 1) (fld w 0 6)) (fld w 6 5 == 0#5)
  | _ => form (.roli (fld w 20 6) (fld w 14 6) (fld w 13 1) (fld w 0 6)) (fld w 6 5 == 0#5)

/-- The forms of opcode 0x10. -/
def decodeBr (w : BitVec 32) : Except (BitVec 4) Instr :=
  match (fld w 22 4).toNat with
  | 0 => form (.beq (fld w 16 6) (fld w 10 6) (fld w 0 10)) (true)
  | 1 => form (.bne (fld w 16 6) (fld w 10 6) (fld w 0 10)) (true)
  | 2 => form (.blt (fld w 16 6) (fld w 10 6) (fld w 0 10)) (true)
  | 3 => form (.bge (fld w 16 6) (fld w 10 6) (fld w 0 10)) (true)
  | 4 => form (.bltu (fld w 16 6) (fld w 10 6) (fld w 0 10)) (true)
  | 5 => form (.bgeu (fld w 16 6) (fld w 10 6) (fld w 0 10)) (true)
  | 6 => form (.bmany (fld w 16 6) (fld w 0 10)) (fld w 10 6 == 0#6)
  | 7 => form (.bmnone (fld w 16 6) (fld w 0 10)) (fld w 10 6 == 0#6)
  | _ => .error 2

/-- The forms of opcode 0x13. -/
def decodeJr (w : BitVec 32) : Except (BitVec 4) Instr :=
  match (fld w 0 6).toNat with
  | 0 => form (.jr (fld w 14 6)) (fld w 20 6 == 0#6 && fld w 6 8 == 2#8)
  | 1 => form (.jalr (fld w 20 6) (fld w 14 6)) (fld w 6 8 == 2#8)
  | _ => .error 2

/-- The forms of opcode 0x18. -/
def decodeFarith (w : BitVec 32) : Except (BitVec 4) Instr :=
  match (fld w 0 6).toNat with
  | 0 => form (.fadd (fld w 20 6) (fld w 14 6) (fld w 8 6) (fld w 7 1) (fld w 6 1)) (true)
  | 1 => form (.fsub (fld w 20 6) (fld w 14 6) (fld w 8 6) (fld w 7 1) (fld w 6 1)) (true)
  | 2 => form (.fmul (fld w 20 6) (fld w 14 6) (fld w 8 6) (fld w 7 1) (fld w 6 1)) (true)
  | 3 => form (.fdiv (fld w 20 6) (fld w 14 6) (fld w 8 6) (fld w 7 1) (fld w 6 1)) (true)
  | 4 => form (.fsqrt (fld w 20 6) (fld w 14 6) (fld w 7 1)) (fld w 8 6 == 0#6 && fld w 6 1 == 0#1)
  | 5 => form (.fmin (fld w 20 6) (fld w 14 6) (fld w 8 6) (fld w 7 1) (fld w 6 1)) (true)
  | 6 => form (.fmax (fld w 20 6) (fld w 14 6) (fld w 8 6) (fld w 7 1) (fld w 6 1)) (true)
  | 7 => form (.fabs (fld w 20 6) (fld w 14 6) (fld w 7 1)) (fld w 8 6 == 0#6 && fld w 6 1 == 0#1)
  | 8 => form (.fneg (fld w 20 6) (fld w 14 6) (fld w 7 1)) (fld w 8 6 == 0#6 && fld w 6 1 == 0#1)
  | 9 => form (.frcp (fld w 20 6) (fld w 14 6) (fld w 7 1)) (fld w 8 6 == 0#6 && fld w 6 1 == 0#1)
  | 10 => form (.frsq (fld w 20 6) (fld w 14 6) (fld w 7 1)) (fld w 8 6 == 0#6 && fld w 6 1 == 0#1)
  | 11 => form (.fexp2 (fld w 20 6) (fld w 14 6) (fld w 7 1)) (fld w 8 6 == 0#6 && fld w 6 1 == 0#1)
  | 12 => form (.flog2 (fld w 20 6) (fld w 14 6) (fld w 7 1)) (fld w 8 6 == 0#6 && fld w 6 1 == 0#1)
  | 13 => form (.ftanh (fld w 20 6) (fld w 14 6) (fld w 7 1)) (fld w 8 6 == 0#6 && fld w 6 1 == 0#1)
  | _ => .error 2

/-- The forms of opcode 0x19. -/
def decodeFma (w : BitVec 32) : Except (BitVec 4) Instr :=
  match (fld w 0 6).toNat with
  | 0 => form (.fma (fld w 20 6) (fld w 14 6) (fld w 8 6) (fld w 7 1) (fld w 6 1)) (true)
  | 1 => form (.fms (fld w 20 6) (fld w 14 6) (fld w 8 6) (fld w 7 1) (fld w 6 1)) (true)
  | 2 => form (.fnma (fld w 20 6) (fld w 14 6) (fld w 8 6) (fld w 7 1) (fld w 6 1)) (true)
  | 3 => form (.fnms (fld w 20 6) (fld w 14 6) (fld w 8 6) (fld w 7 1) (fld w 6 1)) (true)
  | _ => .error 2

/-- The forms of opcode 0x1A. -/
def decodeFcmp (w : BitVec 32) : Except (BitVec 4) Instr :=
  match (fld w 0 6).toNat with
  | 0 => form (.fceq (fld w 20 6) (fld w 14 6) (fld w 8 6) (fld w 7 1) (fld w 6 1)) (true)
  | 1 => form (.fcne (fld w 20 6) (fld w 14 6) (fld w 8 6) (fld w 7 1) (fld w 6 1)) (true)
  | 2 => form (.fclt (fld w 20 6) (fld w 14 6) (fld w 8 6) (fld w 7 1) (fld w 6 1)) (true)
  | 3 => form (.fcle (fld w 20 6) (fld w 14 6) (fld w 8 6) (fld w 7 1) (fld w 6 1)) (true)
  | 4 => form (.fcun (fld w 20 6) (fld w 14 6) (fld w 8 6) (fld w 7 1) (fld w 6 1)) (true)
  | 5 => form (.fclass (fld w 20 6) (fld w 14 6) (fld w 7 1)) (fld w 8 6 == 0#6 && fld w 6 1 == 0#1)
  | _ => .error 2

/-- The forms of opcode 0x1B. -/
def decodeFcvt (w : BitVec 32) : Except (BitVec 4) Instr :=
  match (fld w 0 6).toNat with
  | 0 => form (.cvt (fld w 20 6) (fld w 14 6) (fld w 8 5) (fld w 7 1)) (fld w 13 1 == 0#1 && fld w 6 1 == 0#1)
  | 1 => form (.rint (fld w 20 6) (fld w 14 6) (fld w 7 1)) (fld w 8 6 == 0#6 && fld w 6 1 == 0#1)
  | _ => .error 2

/-- The forms of opcode 0x1C. -/
def decodeFred (w : BitVec 32) : Except (BitVec 4) Instr :=
  match (fld w 0 6).toNat with
  | 0 => form (.frsum (fld w 20 6) (fld w 14 6)) (fld w 6 8 == 0#8)
  | 1 => form (.frmin (fld w 20 6) (fld w 14 6)) (fld w 6 8 == 0#8)
  | 2 => form (.frmax (fld w 20 6) (fld w 14 6)) (fld w 6 8 == 0#8)
  | _ => .error 2

/-- The forms of opcode 0x1D. -/
def decodeQuant (w : BitVec 32) : Except (BitVec 4) Instr :=
  match (fld w 0 6).toNat with
  | 0 => form (.qscale (fld w 20 6) (fld w 14 6) (fld w 8 6)) (fld w 6 2 == 0#2)
  | 1 => form (.qpack (fld w 20 6) (fld w 14 6) (fld w 8 6)) (fld w 6 2 == 0#2)
  | 2 => form (.qunpk (fld w 20 6) (fld w 14 6) (fld w 8 6)) (fld w 6 2 == 0#2)
  | _ => .error 2

/-- The forms of opcode 0x24. -/
def decodeVldx (w : BitVec 32) : Except (BitVec 4) Instr :=
  match (fld w 0 2).toNat with
  | 0 => form (.vlds (fld w 20 6) (fld w 14 6) (fld w 11 3) (fld w 10 1) (fld w 8 2) (fld w 2 6)) (true)
  | 1 => form (.vldi (fld w 20 6) (fld w 14 6) (fld w 11 3) (fld w 10 1) (fld w 8 2) (fld w 2 6)) (true)
  | _ => .error 2

/-- The forms of opcode 0x25. -/
def decodeVstx (w : BitVec 32) : Except (BitVec 4) Instr :=
  match (fld w 0 2).toNat with
  | 0 => form (.vsts (fld w 20 6) (fld w 14 6) (fld w 11 3) (fld w 8 2) (fld w 2 6)) (fld w 10 1 == 0#1)
  | 1 => form (.vsti (fld w 20 6) (fld w 14 6) (fld w 11 3) (fld w 8 2) (fld w 2 6)) (fld w 10 1 == 0#1)
  | _ => .error 2

/-- The forms of opcode 0x26. -/
def decodeAtoma (w : BitVec 32) : Except (BitVec 4) Instr :=
  match (fld w 0 2).toNat with
  | 0 => form (.aadd (fld w 20 6) (fld w 14 6) (fld w 11 3) (fld w 8 2) (fld w 2 6)) (fld w 10 1 == 0#1)
  | 1 => form (.amin (fld w 20 6) (fld w 14 6) (fld w 11 3) (fld w 8 2) (fld w 2 6)) (fld w 10 1 == 0#1)
  | 2 => form (.amax (fld w 20 6) (fld w 14 6) (fld w 11 3) (fld w 8 2) (fld w 2 6)) (fld w 10 1 == 0#1)
  | _ => form (.aand (fld w 20 6) (fld w 14 6) (fld w 11 3) (fld w 8 2) (fld w 2 6)) (fld w 10 1 == 0#1)

/-- The forms of opcode 0x27. -/
def decodeAtomb (w : BitVec 32) : Except (BitVec 4) Instr :=
  match (fld w 0 2).toNat with
  | 0 => form (.aor (fld w 20 6) (fld w 14 6) (fld w 11 3) (fld w 8 2) (fld w 2 6)) (fld w 10 1 == 0#1)
  | 1 => form (.axor (fld w 20 6) (fld w 14 6) (fld w 11 3) (fld w 8 2) (fld w 2 6)) (fld w 10 1 == 0#1)
  | 2 => form (.aswp (fld w 20 6) (fld w 14 6) (fld w 11 3) (fld w 8 2) (fld w 2 6)) (fld w 10 1 == 0#1)
  | _ => form (.acas (fld w 20 6) (fld w 14 6) (fld w 11 3) (fld w 8 2) (fld w 2 6)) (fld w 10 1 == 0#1)

/-- The forms of opcode 0x28. -/
def decodeTile (w : BitVec 32) : Except (BitVec 4) Instr :=
  match (fld w 10 4).toNat with
  | 0 => form (.tld (fld w 20 6) (fld w 14 6) (fld w 0 6)) (fld w 6 4 == 0#4)
  | 1 => form (.tst (fld w 20 6) (fld w 14 6) (fld w 0 6)) (fld w 6 4 == 0#4)
  | 2 => form (.bld (fld w 20 6) (fld w 14 6) (fld w 8 2)) (fld w 0 8 == 0#8)
  | 3 => form (.bst (fld w 20 6) (fld w 14 6) (fld w 8 2)) (fld w 0 8 == 0#8)
  | 4 => form (.vspill (fld w 20 6) (fld w 14 6)) (fld w 0 10 == 0#10)
  | 5 => form (.vfill (fld w 14 6)) (fld w 20 6 == 0#6 && fld w 0 10 == 0#10)
  | _ => .error 2

/-- The forms of opcode 0x29. -/
def decodeSync (w : BitVec 32) : Except (BitVec 4) Instr :=
  match (fld w 10 4).toNat with
  | 0 => form (.wait (fld w 0 8)) (fld w 14 12 == 0#12 && fld w 8 2 == 0#2)
  | 1 => form (.drain (fld w 0 8)) (fld w 14 12 == 0#12 && fld w 8 2 == 0#2)
  | _ => .error 2

/-- The forms of opcode 0x2B. -/
def decodeBar (w : BitVec 32) : Except (BitVec 4) Instr :=
  match (fld w 10 4).toNat with
  | 0 => form (.binit (fld w 14 6) (fld w 0 10)) (fld w 20 6 == 0#6)
  | 1 => form (.bexp (fld w 14 6) (fld w 0 10)) (fld w 20 6 == 0#6)
  | 2 => form (.barv (fld w 20 6) (fld w 0 10)) (fld w 14 6 == 0#6)
  | 3 => form (.bgen (fld w 20 6) (fld w 0 10)) (fld w 14 6 == 0#6)
  | 4 => form (.bwait (fld w 20 6) (fld w 14 6) (fld w 0 10)) (true)
  | 5 => form (.bwaitP (fld w 20 6) (fld w 14 6) (fld w 0 10)) (true)
  | 6 => form (.sstep (fld w 20 6) (fld w 0 6)) (fld w 14 6 == 0#6 && fld w 6 4 == 0#4)
  | 7 => form (.bwaitS (fld w 20 6) (fld w 14 6) (fld w 0 6)) (fld w 6 4 == 0#4)
  | 8 => form (.bwaitSP (fld w 20 6) (fld w 14 6) (fld w 0 6)) (fld w 6 4 == 0#4)
  | 9 => form (.bgenS (fld w 20 6) (fld w 0 6)) (fld w 14 6 == 0#6 && fld w 6 4 == 0#4)
  | _ => .error 2

/-- The forms of opcode 0x2C. -/
def decodeMatx (w : BitVec 32) : Except (BitVec 4) Instr :=
  match (fld w 10 4).toNat with
  | 0 => form (.tshape (fld w 20 6) (fld w 14 6)) (fld w 0 10 == 0#10)
  | 1 => if fld w 8 2 == 3#2 then .error 2 else form (.mma (fld w 20 6) (fld w 14 6) (fld w 8 2) (fld w 6 2) (fld w 3 3) (fld w 2 1) (fld w 1 1) (fld w 0 1)) (true)
  | 2 => form (.crd (fld w 20 6) (fld w 14 6) (fld w 6 2)) (fld w 8 2 == 0#2 && fld w 0 6 == 0#6)
  | 3 => form (.cwr (fld w 20 6) (fld w 14 6) (fld w 6 2)) (fld w 8 2 == 0#2 && fld w 0 6 == 0#6)
  | 4 => form (.cclr (fld w 6 2)) (fld w 14 12 == 0#12 && fld w 8 2 == 0#2 && fld w 0 6 == 0#6)
  | 5 => form (.ccvt (fld w 20 6) (fld w 14 6) (fld w 6 2) (fld w 0 5)) (fld w 8 2 == 0#2 && fld w 5 1 == 0#1)
  | _ => .error 2

/-- The forms of opcode 0x2D. -/
def decodeCopy (w : BitVec 32) : Except (BitVec 4) Instr :=
  match (fld w 6 3).toNat with
  | 0 => form (.copy (fld w 20 6) (fld w 14 6) (fld w 12 2) (fld w 9 3)) (fld w 0 6 == 0#6)
  | 1 => form (.copyTr (fld w 20 6) (fld w 14 6) (fld w 12 2) (fld w 9 3)) (fld w 0 6 == 0#6)
  | 2 => form (.copyDi (fld w 20 6) (fld w 14 6) (fld w 12 2) (fld w 9 3) (fld w 0 3)) (fld w 3 3 == 0#3)
  | 3 => form (.copyPm (fld w 20 6) (fld w 14 6) (fld w 12 2) (fld w 9 3) (fld w 0 6)) (true)
  | 4 => form (.copyCv (fld w 20 6) (fld w 14 6) (fld w 12 2) (fld w 9 3) (fld w 0 5)) (fld w 5 1 == 0#1)
  | _ => .error 2

/-- The forms of opcode 0x2E. -/
def decodeNest (w : BitVec 32) : Except (BitVec 4) Instr :=
  match (fld w 10 4).toNat with
  | 0 => form (.nld (fld w 20 6) (fld w 14 6)) (fld w 0 10 == 0#10)
  | 1 => form (.nst (fld w 20 6) (fld w 14 6)) (fld w 0 10 == 0#10)
  | 2 => form (.ncnt (fld w 20 6) (fld w 14 6) (fld w 7 3)) (fld w 0 7 == 0#7)
  | 3 => form (.nstr (fld w 20 6) (fld w 14 6) (fld w 7 3) (fld w 5 2)) (fld w 0 5 == 0#5)
  | _ => .error 2

/-- The forms of opcode 0x30. -/
def decodeRow (w : BitVec 32) : Except (BitVec 4) Instr :=
  match (fld w 10 4).toNat with
  | 0 => form (.rowld (fld w 20 6) (fld w 14 6) (fld w 0 6)) (fld w 6 4 == 0#4)
  | 1 => form (.rowrun (fld w 20 6) (fld w 14 6) (fld w 0 6)) (fld w 6 4 == 0#4)
  | 2 => form (.rowseal (fld w 14 6) (fld w 0 6)) (fld w 20 6 == 0#6 && fld w 6 4 == 0#4)
  | 3 => form (.rowq (fld w 20 6) (fld w 0 6)) (fld w 14 6 == 0#6 && fld w 6 4 == 0#4)
  | _ => .error 2

/-- The forms of opcode 0x31. -/
def decodeCat (w : BitVec 32) : Except (BitVec 4) Instr :=
  match (fld w 10 4).toNat with
  | 0 => form (.catrun (fld w 20 6) (fld w 14 6) (fld w 0 6)) (fld w 6 4 == 0#4)
  | 1 => form (.catchk (fld w 20 6) (fld w 14 6) (fld w 0 6)) (fld w 6 4 == 0#4)
  | 2 => form (.catq (fld w 20 6) (fld w 0 6)) (fld w 14 6 == 0#6 && fld w 6 4 == 0#4)
  | 3 => form (.arcin (fld w 20 6) (fld w 14 6) (fld w 0 6)) (fld w 6 4 == 0#4)
  | 4 => form (.arcout (fld w 20 6) (fld w 14 6) (fld w 0 6)) (fld w 6 4 == 0#4)
  | 5 => form (.arcstat (fld w 20 6) (fld w 14 6)) (fld w 0 10 == 0#10)
  | 6 => form (.stage (fld w 14 6) (fld w 0 6)) (fld w 20 6 == 0#6 && fld w 6 4 == 0#4)
  | 7 => form (.hint (fld w 14 6) (fld w 0 6)) (fld w 20 6 == 0#6 && fld w 6 4 == 0#4)
  | _ => .error 2

/-- The forms of opcode 0x36. -/
def decodeTbl (w : BitVec 32) : Except (BitVec 4) Instr :=
  match (fld w 10 4).toNat with
  | 0 => form (.tsetw (fld w 14 6) (fld w 6 4) (fld w 0 6)) (fld w 20 6 == 0#6)
  | 1 => form (.tgetw (fld w 20 6) (fld w 6 4) (fld w 0 6)) (fld w 14 6 == 0#6)
  | 2 => form (.tstat (fld w 20 6) (fld w 0 6)) (fld w 14 6 == 0#6 && fld w 6 4 == 0#4)
  | 3 => form (.tbind (fld w 20 6) (fld w 0 6)) (fld w 14 6 == 0#6 && fld w 6 4 == 0#4)
  | 4 => form (.tretTn (fld w 0 6)) (fld w 14 12 == 0#12 && fld w 6 4 == 0#4)
  | 5 => form (.tver (fld w 14 6) (fld w 0 6)) (fld w 20 6 == 0#6 && fld w 6 4 == 0#4)
  | _ => .error 2

/-- The forms of opcode 0x38. -/
def decodeSys (w : BitVec 32) : Except (BitVec 4) Instr :=
  match (fld w 10 4).toNat with
  | 0 => form (.trap (fld w 0 10)) (fld w 14 12 == 0#12)
  | 1 => form (.tret) (fld w 14 12 == 0#12 && fld w 0 10 == 0#10)
  | 2 => form (.srd (fld w 20 6) (fld w 0 10)) (fld w 14 6 == 0#6)
  | 3 => form (.swr (fld w 14 6) (fld w 0 10)) (fld w 20 6 == 0#6)
  | 4 => form (.enq (fld w 20 6) (fld w 14 6)) (fld w 0 10 == 0#10)
  | 5 => form (.dmrd (fld w 20 6)) (fld w 14 6 == 0#6 && fld w 0 10 == 0#10)
  | 6 => form (.dmclr (fld w 14 6)) (fld w 20 6 == 0#6 && fld w 0 10 == 0#10)
  | 7 => if fld w 9 1 == 0#1 then form (.brk (fld w 0 9)) (fld w 14 12 == 0#12) else form (.brkDbg (fld w 0 9)) (fld w 14 12 == 0#12)
  | 8 => if fld w 0 1 == 0#1 then form (.idle) (fld w 14 12 == 0#12 && fld w 1 9 == 0#9) else form (.idleEnd) (fld w 14 12 == 0#12 && fld w 1 9 == 0#9)
  | _ => .error 2

/-- The forms of opcode 0x39. -/
def decodeMmu (w : BitVec 32) : Except (BitVec 4) Instr :=
  match (fld w 10 4).toNat with
  | 0 => form (.tinv (fld w 14 6)) (fld w 20 6 == 0#6 && fld w 0 10 == 0#10)
  | 1 => form (.pgshare (fld w 20 6) (fld w 14 6)) (fld w 0 10 == 0#10)
  | 2 => form (.pgdrop (fld w 14 6)) (fld w 20 6 == 0#6 && fld w 0 10 == 0#10)
  | 3 => form (.migr (fld w 20 6) (fld w 14 6)) (fld w 0 10 == 0#10)
  | 4 => form (.llcfl (fld w 14 6)) (fld w 20 6 == 0#6 && fld w 0 10 == 0#10)
  | _ => .error 2

/-- The form that a word of a strand names, with the checks of details 1, 2 and 4 on its opcode, its function code and its fixed bits
(R191 to R197, R199). -/
def decodeForm (w : BitVec 32) : Except (BitVec 4) Instr :=
  match (fld w 26 6).toNat with
  | 0x01 => decodeIarith w
  | 0x02 => decodeLogic w
  | 0x03 => decodeIcmp w
  | 0x04 => decodeMask w
  | 0x05 => decodePerm w
  | 0x06 => decodeIred w
  | 0x07 => decodeVctl w
  | 0x08 => form (.addi (fld w 20 6) (fld w 14 6) (fld w 13 1) (fld w 0 13)) (true)
  | 0x09 => form (.andi (fld w 20 6) (fld w 14 6) (fld w 13 1) (fld w 0 13)) (true)
  | 0x0A => form (.ori (fld w 20 6) (fld w 14 6) (fld w 13 1) (fld w 0 13)) (true)
  | 0x0B => form (.xori (fld w 20 6) (fld w 14 6) (fld w 13 1) (fld w 0 13)) (true)
  | 0x0C => decodeShi w
  | 0x0D => form (.setmodeImm (fld w 0 20)) (fld w 20 6 == 0#6)
  | 0x0E => form (.lui (fld w 20 6) (fld w 0 20)) (true)
  | 0x0F => form (.adpc (fld w 20 6) (fld w 0 20)) (true)
  | 0x10 => decodeBr w
  | 0x11 => form (.j (fld w 0 26)) (true)
  | 0x12 => form (.jal (fld w 0 26)) (true)
  | 0x13 => decodeJr w
  | 0x14 => if 6 ≤ (fld w 22 4).toNat then .error 2 else form (.loop (fld w 22 4) (fld w 16 6) (fld w 0 10)) (fld w 10 6 == 0#6)
  | 0x15 => form (.rep (fld w 20 6) (fld w 17 3) (fld w 14 3)) (fld w 0 14 == 0#14)
  | 0x18 => decodeFarith w
  | 0x19 => decodeFma w
  | 0x1A => decodeFcmp w
  | 0x1B => decodeFcvt w
  | 0x1C => decodeFred w
  | 0x1D => decodeQuant w
  | 0x20 => form (.vld (fld w 20 6) (fld w 14 6) (fld w 11 3) (fld w 10 1) (fld w 8 2) (fld w 0 8)) (true)
  | 0x21 => form (.vst (fld w 20 6) (fld w 14 6) (fld w 11 3) (fld w 8 2) (fld w 0 8)) (fld w 10 1 == 0#1)
  | 0x22 => form (.ld (fld w 20 6) (fld w 14 6) (fld w 11 3) (fld w 10 1) (fld w 8 2) (fld w 0 8)) (true)
  | 0x23 => form (.st (fld w 20 6) (fld w 14 6) (fld w 11 3) (fld w 8 2) (fld w 0 8)) (fld w 10 1 == 0#1)
  | 0x24 => decodeVldx w
  | 0x25 => decodeVstx w
  | 0x26 => decodeAtoma w
  | 0x27 => decodeAtomb w
  | 0x28 => decodeTile w
  | 0x29 => decodeSync w
  | 0x2A => form (.pref (fld w 14 6) (fld w 11 3) (fld w 8 2) (fld w 0 8)) (fld w 20 6 == 0#6 && fld w 10 1 == 0#1)
  | 0x2B => decodeBar w
  | 0x2C => decodeMatx w
  | 0x2D => decodeCopy w
  | 0x2E => decodeNest w
  | 0x2F => form (.close (fld w 12 2)) (fld w 14 12 == 0#12 && fld w 0 12 == 0#12)
  | 0x30 => decodeRow w
  | 0x31 => decodeCat w
  | 0x36 => decodeTbl w
  | 0x38 => decodeSys w
  | 0x39 => decodeMmu w
  | _ => .error 1

/-- The instruction of a word, or the detail of R199 that it raises. -/
def decode (w : BitVec 32) : Except (BitVec 4) Instr := decodeForm w

/-! ## Microcode words -/

/-- A row specifier whose class and index are allocated (R202, R204). -/
def specOk (r : BitVec 9) : Bool :=
  decide (r.toNat / 64 ≤ 2) || (decide (r.toNat / 64 = 3) && decide (r.toNat % 32 < 16))

/-- Every row specifier of a microcode op is allocated (R204). -/
def Instr.specsOk : Instr → Bool
  | .aap p q => specOk p && specOk q
  | .tra p q r => specOk p && specOk q && specOk r
  | .dnot p q => specOk p && specOk q
  | .zero p => specOk p
  | .ones p => specOk p
  | .lshl p q => specOk p && specOk q
  | .lshr p q => specOk p && specOk q
  | .rdl q => specOk q
  | .wrl p _ => specOk p
  | .cnt q => specOk q
  | .bit _ q => specOk q
  | .seal p => specOk p
  | _ => true

/-- A microcode op whose fixed bits and specifiers pass (R204). -/
def micro (i : Instr) (fixed : Bool) : Option Instr := if fixed && i.specsOk then some i else none

/-- The microcode op of a word (R202 to R204); `none` where the word fails its check. -/
def decodeMicroForm (w : BitVec 32) : Option Instr :=
  match (fld w 27 5).toNat with
  | 1 => micro (.aap (fld w 18 9) (fld w 9 9)) (fld w 0 9 == 0#9)
  | 2 => micro (.tra (fld w 18 9) (fld w 9 9) (fld w 0 9)) (true)
  | 3 => micro (.dnot (fld w 18 9) (fld w 9 9)) (fld w 0 9 == 0#9)
  | 4 => micro (.zero (fld w 18 9)) (fld w 0 18 == 0#18)
  | 5 => micro (.ones (fld w 18 9)) (fld w 0 18 == 0#18)
  | 6 => micro (.lshl (fld w 18 9) (fld w 9 9)) (fld w 0 9 == 0#9)
  | 7 => micro (.lshr (fld w 18 9) (fld w 9 9)) (fld w 0 9 == 0#9)
  | 8 => micro (.rdl (fld w 9 9)) (fld w 18 9 == 0#9 && fld w 0 9 == 0#9)
  | 9 => micro (.wrl (fld w 18 9) (fld w 9 9)) (fld w 0 9 == 0#9)
  | 10 => micro (.cnt (fld w 9 9)) (fld w 18 9 == 0#9 && fld w 0 9 == 0#9)
  | 11 => if fld w 26 1 == 0#1 then micro (.wacc (fld w 24 2) (fld w 18 6)) (fld w 0 18 == 0#18) else micro (.waccNeg (fld w 24 2) (fld w 18 6)) (fld w 0 18 == 0#18)
  | 12 => micro (.bit (fld w 18 9) (fld w 9 9)) (fld w 0 9 == 0#9)
  | 13 => micro (.next (fld w 18 9) (fld w 9 9)) (fld w 0 9 == 0#9)
  | 14 => micro (.seal (fld w 18 9)) (fld w 0 18 == 0#18)
  | 15 => micro (.yield) (fld w 0 27 == 0#27)
  | 16 => micro (.stop) (fld w 0 27 == 0#27)
  | _ => none

/-- The microcode op of a word. -/
def decodeMicro (w : BitVec 32) : Option Instr := decodeMicroForm w

/-! ## Encoding -/

/-- A 32-bit word of a number. -/
abbrev word (n : Nat) : BitVec 32 := BitVec.ofNat 32 n

/-- Field value `x` placed at bit `lo`. -/
abbrev at' {n : Nat} (x : BitVec n) (lo : Nat) : Nat := x.toNat * 2 ^ lo

set_option maxHeartbeats 1000000 in
/-- The word of an instruction that has one; zero for a host command or a device event. -/
def encode : Instr → BitVec 32
  | .add d a b s x => word (0x04000000 + at' d 20 + at' a 14 + at' b 8 + at' s 7 + at' x 6)
  | .sub d a b s x => word (0x04000001 + at' d 20 + at' a 14 + at' b 8 + at' s 7 + at' x 6)
  | .mul d a b s x => word (0x04000002 + at' d 20 + at' a 14 + at' b 8 + at' s 7 + at' x 6)
  | .mulh d a b s x => word (0x04000003 + at' d 20 + at' a 14 + at' b 8 + at' s 7 + at' x 6)
  | .div d a b s x => word (0x04000004 + at' d 20 + at' a 14 + at' b 8 + at' s 7 + at' x 6)
  | .rem d a b s x => word (0x04000005 + at' d 20 + at' a 14 + at' b 8 + at' s 7 + at' x 6)
  | .min d a b s x => word (0x04000006 + at' d 20 + at' a 14 + at' b 8 + at' s 7 + at' x 6)
  | .max d a b s x => word (0x04000007 + at' d 20 + at' a 14 + at' b 8 + at' s 7 + at' x 6)
  | .mac d a b s x => word (0x04000008 + at' d 20 + at' a 14 + at' b 8 + at' s 7 + at' x 6)
  | .abs d a s => word (0x04000009 + at' d 20 + at' a 14 + at' s 7)
  | .neg d a s => word (0x0400000A + at' d 20 + at' a 14 + at' s 7)
  | .absd d a b s x => word (0x0400000B + at' d 20 + at' a 14 + at' b 8 + at' s 7 + at' x 6)
  | .and d a b s x => word (0x08000000 + at' d 20 + at' a 14 + at' b 8 + at' s 7 + at' x 6)
  | .or d a b s x => word (0x08000001 + at' d 20 + at' a 14 + at' b 8 + at' s 7 + at' x 6)
  | .xor d a b s x => word (0x08000002 + at' d 20 + at' a 14 + at' b 8 + at' s 7 + at' x 6)
  | .andn d a b s x => word (0x08000003 + at' d 20 + at' a 14 + at' b 8 + at' s 7 + at' x 6)
  | .not d a s => word (0x08000004 + at' d 20 + at' a 14 + at' s 7)
  | .shl d a b s x => word (0x08000005 + at' d 20 + at' a 14 + at' b 8 + at' s 7 + at' x 6)
  | .shr d a b s x => word (0x08000006 + at' d 20 + at' a 14 + at' b 8 + at' s 7 + at' x 6)
  | .shra d a b s x => word (0x08000007 + at' d 20 + at' a 14 + at' b 8 + at' s 7 + at' x 6)
  | .rol d a b s x => word (0x08000008 + at' d 20 + at' a 14 + at' b 8 + at' s 7 + at' x 6)
  | .popc d a s => word (0x08000009 + at' d 20 + at' a 14 + at' s 7)
  | .clz d a s => word (0x0800000A + at' d 20 + at' a 14 + at' s 7)
  | .ceq d a b s x => word (0x0C000000 + at' d 20 + at' a 14 + at' b 8 + at' s 7 + at' x 6)
  | .cne d a b s x => word (0x0C000001 + at' d 20 + at' a 14 + at' b 8 + at' s 7 + at' x 6)
  | .clt d a b s x => word (0x0C000002 + at' d 20 + at' a 14 + at' b 8 + at' s 7 + at' x 6)
  | .cle d a b s x => word (0x0C000003 + at' d 20 + at' a 14 + at' b 8 + at' s 7 + at' x 6)
  | .cgt d a b s x => word (0x0C000004 + at' d 20 + at' a 14 + at' b 8 + at' s 7 + at' x 6)
  | .cge d a b s x => word (0x0C000005 + at' d 20 + at' a 14 + at' b 8 + at' s 7 + at' x 6)
  | .mand d a b => word (0x10000000 + at' d 20 + at' a 14 + at' b 8)
  | .mor d a b => word (0x10000001 + at' d 20 + at' a 14 + at' b 8)
  | .mxor d a b => word (0x10000002 + at' d 20 + at' a 14 + at' b 8)
  | .mandn d a b => word (0x10000003 + at' d 20 + at' a 14 + at' b 8)
  | .mnot d a => word (0x10000004 + at' d 20 + at' a 14)
  | .mset d => word (0x10000005 + at' d 20)
  | .mclr d => word (0x10000006 + at' d 20)
  | .mpopc d a => word (0x10000007 + at' d 20 + at' a 14)
  | .mfirst d a => word (0x10000008 + at' d 20 + at' a 14)
  | .mtox d a => word (0x10000009 + at' d 20 + at' a 14)
  | .xtom d a => word (0x1000000A + at' d 20 + at' a 14)
  | .sel d a b => word (0x14000000 + at' d 20 + at' a 14 + at' b 8)
  | .slup d a b => word (0x14000041 + at' d 20 + at' a 14 + at' b 8)
  | .sldn d a b => word (0x14000042 + at' d 20 + at' a 14 + at' b 8)
  | .vperm d a b => word (0x14000003 + at' d 20 + at' a 14 + at' b 8)
  | .compr d a => word (0x14000004 + at' d 20 + at' a 14)
  | .expnd d a => word (0x14000005 + at' d 20 + at' a 14)
  | .bcast d b => word (0x14000046 + at' d 20 + at' b 8)
  | .iota d => word (0x14000007 + at' d 20)
  | .zip d a b => word (0x14000008 + at' d 20 + at' a 14 + at' b 8)
  | .unzip d a b => word (0x14000009 + at' d 20 + at' a 14 + at' b 8)
  | .rsum d a => word (0x18000000 + at' d 20 + at' a 14)
  | .rmin d a => word (0x18000001 + at' d 20 + at' a 14)
  | .rmax d a => word (0x18000002 + at' d 20 + at' a 14)
  | .rand d a => word (0x18000003 + at' d 20 + at' a 14)
  | .ror d a => word (0x18000004 + at' d 20 + at' a 14)
  | .rxor d a => word (0x18000005 + at' d 20 + at' a 14)
  | .vstrip d a => word (0x1C000080 + at' d 20 + at' a 14)
  | .vnext d => word (0x1C000081 + at' d 20)
  | .shape d a b => word (0x1C000082 + at' d 20 + at' a 14 + at' b 8)
  | .vlq d a => word (0x1C000083 + at' d 20 + at' a 14)
  | .dcol d a => word (0x1C000084 + at' d 20 + at' a 14)
  | .setmode a => word (0x1C000085 + at' a 14)
  | .getmode d => word (0x1C000086 + at' d 20)
  | .setmodeImm i => word (0x34000000 + at' i 0)
  | .addi d a s i => word (0x20000000 + at' d 20 + at' a 14 + at' s 13 + at' i 0)
  | .andi d a s i => word (0x24000000 + at' d 20 + at' a 14 + at' s 13 + at' i 0)
  | .ori d a s i => word (0x28000000 + at' d 20 + at' a 14 + at' s 13 + at' i 0)
  | .xori d a s i => word (0x2C000000 + at' d 20 + at' a 14 + at' s 13 + at' i 0)
  | .shli d a s c => word (0x30000000 + at' d 20 + at' a 14 + at' s 13 + at' c 0)
  | .shri d a s c => word (0x30000800 + at' d 20 + at' a 14 + at' s 13 + at' c 0)
  | .shrai d a s c => word (0x30001000 + at' d 20 + at' a 14 + at' s 13 + at' c 0)
  | .roli d a s c => word (0x30001800 + at' d 20 + at' a 14 + at' s 13 + at' c 0)
  | .lui d i => word (0x38000000 + at' d 20 + at' i 0)
  | .adpc d i => word (0x3C000000 + at' d 20 + at' i 0)
  | .beq a b o => word (0x40000000 + at' a 16 + at' b 10 + at' o 0)
  | .bne a b o => word (0x40400000 + at' a 16 + at' b 10 + at' o 0)
  | .blt a b o => word (0x40800000 + at' a 16 + at' b 10 + at' o 0)
  | .bge a b o => word (0x40C00000 + at' a 16 + at' b 10 + at' o 0)
  | .bltu a b o => word (0x41000000 + at' a 16 + at' b 10 + at' o 0)
  | .bgeu a b o => word (0x41400000 + at' a 16 + at' b 10 + at' o 0)
  | .bmany a o => word (0x41800000 + at' a 16 + at' o 0)
  | .bmnone a o => word (0x41C00000 + at' a 16 + at' o 0)
  | .j o => word (0x44000000 + at' o 0)
  | .jal o => word (0x48000000 + at' o 0)
  | .jr a => word (0x4C000080 + at' a 14)
  | .jalr d a => word (0x4C000081 + at' d 20 + at' a 14)
  | .loop l a o => word (0x50000000 + at' l 22 + at' a 16 + at' o 0)
  | .rep c s i => word (0x54000000 + at' c 20 + at' s 17 + at' i 14)
  | .fadd d a b s x => word (0x60000000 + at' d 20 + at' a 14 + at' b 8 + at' s 7 + at' x 6)
  | .fsub d a b s x => word (0x60000001 + at' d 20 + at' a 14 + at' b 8 + at' s 7 + at' x 6)
  | .fmul d a b s x => word (0x60000002 + at' d 20 + at' a 14 + at' b 8 + at' s 7 + at' x 6)
  | .fdiv d a b s x => word (0x60000003 + at' d 20 + at' a 14 + at' b 8 + at' s 7 + at' x 6)
  | .fsqrt d a s => word (0x60000004 + at' d 20 + at' a 14 + at' s 7)
  | .fmin d a b s x => word (0x60000005 + at' d 20 + at' a 14 + at' b 8 + at' s 7 + at' x 6)
  | .fmax d a b s x => word (0x60000006 + at' d 20 + at' a 14 + at' b 8 + at' s 7 + at' x 6)
  | .fabs d a s => word (0x60000007 + at' d 20 + at' a 14 + at' s 7)
  | .fneg d a s => word (0x60000008 + at' d 20 + at' a 14 + at' s 7)
  | .frcp d a s => word (0x60000009 + at' d 20 + at' a 14 + at' s 7)
  | .frsq d a s => word (0x6000000A + at' d 20 + at' a 14 + at' s 7)
  | .fexp2 d a s => word (0x6000000B + at' d 20 + at' a 14 + at' s 7)
  | .flog2 d a s => word (0x6000000C + at' d 20 + at' a 14 + at' s 7)
  | .ftanh d a s => word (0x6000000D + at' d 20 + at' a 14 + at' s 7)
  | .fma d a b s x => word (0x64000000 + at' d 20 + at' a 14 + at' b 8 + at' s 7 + at' x 6)
  | .fms d a b s x => word (0x64000001 + at' d 20 + at' a 14 + at' b 8 + at' s 7 + at' x 6)
  | .fnma d a b s x => word (0x64000002 + at' d 20 + at' a 14 + at' b 8 + at' s 7 + at' x 6)
  | .fnms d a b s x => word (0x64000003 + at' d 20 + at' a 14 + at' b 8 + at' s 7 + at' x 6)
  | .fceq d a b s x => word (0x68000000 + at' d 20 + at' a 14 + at' b 8 + at' s 7 + at' x 6)
  | .fcne d a b s x => word (0x68000001 + at' d 20 + at' a 14 + at' b 8 + at' s 7 + at' x 6)
  | .fclt d a b s x => word (0x68000002 + at' d 20 + at' a 14 + at' b 8 + at' s 7 + at' x 6)
  | .fcle d a b s x => word (0x68000003 + at' d 20 + at' a 14 + at' b 8 + at' s 7 + at' x 6)
  | .fcun d a b s x => word (0x68000004 + at' d 20 + at' a 14 + at' b 8 + at' s 7 + at' x 6)
  | .fclass d a s => word (0x68000005 + at' d 20 + at' a 14 + at' s 7)
  | .cvt d a y s => word (0x6C000000 + at' d 20 + at' a 14 + at' y 8 + at' s 7)
  | .rint d a s => word (0x6C000001 + at' d 20 + at' a 14 + at' s 7)
  | .frsum d a => word (0x70000000 + at' d 20 + at' a 14)
  | .frmin d a => word (0x70000001 + at' d 20 + at' a 14)
  | .frmax d a => word (0x70000002 + at' d 20 + at' a 14)
  | .qscale d a b => word (0x74000000 + at' d 20 + at' a 14 + at' b 8)
  | .qpack d a b => word (0x74000001 + at' d 20 + at' a 14 + at' b 8)
  | .qunpk d a b => word (0x74000002 + at' d 20 + at' a 14 + at' b 8)
  | .vld d a k r p o => word (0x80000000 + at' d 20 + at' a 14 + at' k 11 + at' r 10 + at' p 8 + at' o 0)
  | .vst d a k p o => word (0x84000000 + at' d 20 + at' a 14 + at' k 11 + at' p 8 + at' o 0)
  | .ld d a k r p o => word (0x88000000 + at' d 20 + at' a 14 + at' k 11 + at' r 10 + at' p 8 + at' o 0)
  | .st d a k p o => word (0x8C000000 + at' d 20 + at' a 14 + at' k 11 + at' p 8 + at' o 0)
  | .vlds d a k r p b => word (0x90000000 + at' d 20 + at' a 14 + at' k 11 + at' r 10 + at' p 8 + at' b 2)
  | .vldi d a k r p b => word (0x90000001 + at' d 20 + at' a 14 + at' k 11 + at' r 10 + at' p 8 + at' b 2)
  | .vsts d a k p b => word (0x94000000 + at' d 20 + at' a 14 + at' k 11 + at' p 8 + at' b 2)
  | .vsti d a k p b => word (0x94000001 + at' d 20 + at' a 14 + at' k 11 + at' p 8 + at' b 2)
  | .aadd d a k p b => word (0x98000000 + at' d 20 + at' a 14 + at' k 11 + at' p 8 + at' b 2)
  | .amin d a k p b => word (0x98000001 + at' d 20 + at' a 14 + at' k 11 + at' p 8 + at' b 2)
  | .amax d a k p b => word (0x98000002 + at' d 20 + at' a 14 + at' k 11 + at' p 8 + at' b 2)
  | .aand d a k p b => word (0x98000003 + at' d 20 + at' a 14 + at' k 11 + at' p 8 + at' b 2)
  | .aor d a k p b => word (0x9C000000 + at' d 20 + at' a 14 + at' k 11 + at' p 8 + at' b 2)
  | .axor d a k p b => word (0x9C000001 + at' d 20 + at' a 14 + at' k 11 + at' p 8 + at' b 2)
  | .aswp d a k p b => word (0x9C000002 + at' d 20 + at' a 14 + at' k 11 + at' p 8 + at' b 2)
  | .acas d a k p b => word (0x9C000003 + at' d 20 + at' a 14 + at' k 11 + at' p 8 + at' b 2)
  | .pref a k p o => word (0xA8000000 + at' a 14 + at' k 11 + at' p 8 + at' o 0)
  | .tld d a t => word (0xA0000000 + at' d 20 + at' a 14 + at' t 0)
  | .tst d a t => word (0xA0000400 + at' d 20 + at' a 14 + at' t 0)
  | .bld d a u => word (0xA0000800 + at' d 20 + at' a 14 + at' u 8)
  | .bst d a u => word (0xA0000C00 + at' d 20 + at' a 14 + at' u 8)
  | .vspill d a => word (0xA0001000 + at' d 20 + at' a 14)
  | .vfill a => word (0xA0001400 + at' a 14)
  | .wait k => word (0xA4000000 + at' k 0)
  | .drain k => word (0xA4000400 + at' k 0)
  | .binit a n => word (0xAC000000 + at' a 14 + at' n 0)
  | .bexp a n => word (0xAC000400 + at' a 14 + at' n 0)
  | .barv d n => word (0xAC000800 + at' d 20 + at' n 0)
  | .bgen d n => word (0xAC000C00 + at' d 20 + at' n 0)
  | .bwait d a n => word (0xAC001000 + at' d 20 + at' a 14 + at' n 0)
  | .bwaitP d a n => word (0xAC001400 + at' d 20 + at' a 14 + at' n 0)
  | .sstep d n => word (0xAC001800 + at' d 20 + at' n 0)
  | .bwaitS d a n => word (0xAC001C00 + at' d 20 + at' a 14 + at' n 0)
  | .bwaitSP d a n => word (0xAC002000 + at' d 20 + at' a 14 + at' n 0)
  | .bgenS d n => word (0xAC002400 + at' d 20 + at' n 0)
  | .tshape d a => word (0xB0000000 + at' d 20 + at' a 14)
  | .mma d a k t n e f c => word (0xB0000400 + at' d 20 + at' a 14 + at' k 8 + at' t 6 + at' n 3 + at' e 2 + at' f 1 + at' c 0)
  | .crd d a t => word (0xB0000800 + at' d 20 + at' a 14 + at' t 6)
  | .cwr d a t => word (0xB0000C00 + at' d 20 + at' a 14 + at' t 6)
  | .cclr t => word (0xB0001000 + at' t 6)
  | .ccvt d a t y => word (0xB0001400 + at' d 20 + at' a 14 + at' t 6 + at' y 0)
  | .copy t n q g => word (0xB4000000 + at' t 20 + at' n 14 + at' q 12 + at' g 9)
  | .copyTr t n q g => word (0xB4000040 + at' t 20 + at' n 14 + at' q 12 + at' g 9)
  | .copyDi t n q g f => word (0xB4000080 + at' t 20 + at' n 14 + at' q 12 + at' g 9 + at' f 0)
  | .copyPm t n q g v => word (0xB40000C0 + at' t 20 + at' n 14 + at' q 12 + at' g 9 + at' v 0)
  | .copyCv t n q g c => word (0xB4000100 + at' t 20 + at' n 14 + at' q 12 + at' g 9 + at' c 0)
  | .close q => word (0xBC000000 + at' q 12)
  | .nld d a => word (0xB8000000 + at' d 20 + at' a 14)
  | .nst d a => word (0xB8000400 + at' d 20 + at' a 14)
  | .ncnt d a l => word (0xB8000800 + at' d 20 + at' a 14 + at' l 7)
  | .nstr d a l s => word (0xB8000C00 + at' d 20 + at' a 14 + at' l 7 + at' s 5)
  | .rowld d a t => word (0xC0000000 + at' d 20 + at' a 14 + at' t 0)
  | .rowrun d a t => word (0xC0000400 + at' d 20 + at' a 14 + at' t 0)
  | .rowseal a t => word (0xC0000800 + at' a 14 + at' t 0)
  | .rowq d t => word (0xC0000C00 + at' d 20 + at' t 0)
  | .catrun d a t => word (0xC4000000 + at' d 20 + at' a 14 + at' t 0)
  | .catchk d a t => word (0xC4000400 + at' d 20 + at' a 14 + at' t 0)
  | .catq d t => word (0xC4000800 + at' d 20 + at' t 0)
  | .arcin d a t => word (0xC4000C00 + at' d 20 + at' a 14 + at' t 0)
  | .arcout d a t => word (0xC4001000 + at' d 20 + at' a 14 + at' t 0)
  | .arcstat d a => word (0xC4001400 + at' d 20 + at' a 14)
  | .stage a t => word (0xC4001800 + at' a 14 + at' t 0)
  | .hint a t => word (0xC4001C00 + at' a 14 + at' t 0)
  | .tsetw a w t => word (0xD8000000 + at' a 14 + at' w 6 + at' t 0)
  | .tgetw d w t => word (0xD8000400 + at' d 20 + at' w 6 + at' t 0)
  | .tstat d t => word (0xD8000800 + at' d 20 + at' t 0)
  | .tbind d t => word (0xD8000C00 + at' d 20 + at' t 0)
  | .tretTn t => word (0xD8001000 + at' t 0)
  | .tver a t => word (0xD8001400 + at' a 14 + at' t 0)
  | .trap c => word (0xE0000000 + at' c 0)
  | .tret => word (0xE0000400)
  | .srd d n => word (0xE0000800 + at' d 20 + at' n 0)
  | .swr a n => word (0xE0000C00 + at' a 14 + at' n 0)
  | .enq d a => word (0xE0001000 + at' d 20 + at' a 14)
  | .dmrd d => word (0xE0001400 + at' d 20)
  | .dmclr a => word (0xE0001800 + at' a 14)
  | .brk c => word (0xE0001C00 + at' c 0)
  | .brkDbg c => word (0xE0001E00 + at' c 0)
  | .idle => word (0xE0002000)
  | .idleEnd => word (0xE0002001)
  | .tinv a => word (0xE4000000 + at' a 14)
  | .pgshare d a => word (0xE4000400 + at' d 20 + at' a 14)
  | .pgdrop a => word (0xE4000800 + at' a 14)
  | .migr d a => word (0xE4000C00 + at' d 20 + at' a 14)
  | .llcfl a => word (0xE4001000 + at' a 14)
  | .aap p q => word (0x08000000 + at' p 18 + at' q 9)
  | .tra p q r => word (0x10000000 + at' p 18 + at' q 9 + at' r 0)
  | .dnot p q => word (0x18000000 + at' p 18 + at' q 9)
  | .zero p => word (0x20000000 + at' p 18)
  | .ones p => word (0x28000000 + at' p 18)
  | .lshl p q => word (0x30000000 + at' p 18 + at' q 9)
  | .lshr p q => word (0x38000000 + at' p 18 + at' q 9)
  | .rdl q => word (0x40000000 + at' q 9)
  | .wrl p s => word (0x48000000 + at' p 18 + at' s 9)
  | .cnt q => word (0x50000000 + at' q 9)
  | .wacc i f => word (0x58000000 + at' i 24 + at' f 18)
  | .waccNeg i f => word (0x5C000000 + at' i 24 + at' f 18)
  | .bit k q => word (0x60000000 + at' k 18 + at' q 9)
  | .next b n => word (0x68000000 + at' b 18 + at' n 9)
  | .seal p => word (0x70000000 + at' p 18)
  | .yield => word (0x78000000)
  | .stop => word (0x80000000)
  | _ => 0#32

/-! ## The rows of the opcode table -/

/-- The instruction that the decoders read from the word `w` of a table row: the strand decoder first, then the microcode decoder. -/
def decodeTableWord (nbits w : Nat) : Option Instr :=
  if nbits = 32 then
    match decode (BitVec.ofNat 32 w) with
    | .ok i => some i
    | .error _ => decodeMicro (BitVec.ofNat 32 w)
  else none

end Sys2Proof
end

