-- ==== Sys2Proof/Machine/Crypto.lean ====
section
/-!
DEFINITION. The published algorithms that the spec names and does not define, computed: AES-256 (FIPS 197) in XTS mode (IEEE 1619, R117), its key
unwrap (NIST SP 800-38F, R443), and SHAKE256 (FIPS 202, R402, R441, R442). PRESUMED, notes/assumptions/109.md.
-/
namespace Sys2Proof.Machine

open Sys2Proof

/-! ## AES-256 -/

/-- The S-box of AES, byte 0 lowest. -/
def sboxTable : Nat :=
  0x76abd7fe2b670130c56f6bf27b777c63 +
  0xc072a49cafa2d4adf04759fa7dc982ca * 2 ^ 128 +
  0x1531d871f1e5a534ccf73f362693fdb7 * 2 ^ 256 +
  0x75b227ebe28012079a059618c323c704 * 2 ^ 384 +
  0x842fe329b3d63b52a05a6e1b1a2c8309 * 2 ^ 512 +
  0xcf584c4a39becb6a5bb1fc20ed00d153 * 2 ^ 640 +
  0xa89f3c507f02f94585334d43fbaaefd0 * 2 ^ 768 +
  0xd2f3ff1021dab6bcf5389d928f40a351 * 2 ^ 896 +
  0x73195d643d7ea7c41744975fec130ccd * 2 ^ 1024 +
  0xdb0b5ede14b8ee4688902a22dc4f8160 * 2 ^ 1152 +
  0x79e4959162acd3c25c2406490a3a32e0 * 2 ^ 1280 +
  0x8ae7a65eaf4566ca94ed58d6d37c8e7 * 2 ^ 1408 +
  0x8a8bbd4b1f74dde8c6b4a61c2e2578ba * 2 ^ 1536 +
  0x9e1dc186b95735610ef6034866b53e70 * 2 ^ 1664 +
  0xdf2855cee9871e9b948ed9691198f8e1 * 2 ^ 1792 +
  0x16bb54b00f2d99416842e6bf0d89a18c * 2 ^ 1920
/-- The inverse S-box. -/
def sboxInvTable : Nat :=
  0xfbd7f3819ea340bf38a53630d56a0952 +
  0xcbe9dec444438e3487ff2f9b8239e37c * 2 ^ 128 +
  0x4ec3fa420b954cee3d23c2a632947b54 * 2 ^ 256 +
  0x25d18b6d49a25b76b224d92866a12e08 * 2 ^ 384 +
  0x92b6655dcc5ca4d41698688664f6f872 * 2 ^ 512 +
  0x849d8da75746155edab9edfd5048706c * 2 ^ 640 +
  0x645b3b80558e4f70ad3bc8c00abd890 * 2 ^ 768 +
  0x6b8a130103bdafc1020f3fca8f1e2cd0 * 2 ^ 896 +
  0x73e6b4f0cecff297eadc674f4111913a * 2 ^ 1024 +
  0x6edf751ce837f9e28535ade72274ac96 * 2 ^ 1152 +
  0x1bbe18aa0e62b76f89c5291d711af147 * 2 ^ 1280 +
  0xf45acd78fec0db9a2079d2c64b3e56fc * 2 ^ 1408 +
  0x5fec8027591012b131c7078833a8dd1f * 2 ^ 1536 +
  0xef9cc9939f7ae52d0d4ab519a97f5160 * 2 ^ 1664 +
  0x619953833cbbebc8b0f52aae4d3be0a0 * 2 ^ 1792 +
  0x7d0c2155631469e126d677ba7e042b17 * 2 ^ 1920

/-- Look a byte up in a table of 256 bytes. -/
def byteIn (table : Nat) (b : Byte) : Byte := BitVec.ofNat 8 (table >>> (8 * b.toNat))
/-- XOR of two byte strings. -/
def xorBytes : List Byte → List Byte → List Byte
  | a :: as, b :: bs => (a ^^^ b) :: xorBytes as bs
  | _, _ => []
/-- The product of a byte with x in the field of AES. -/
def timesX (b : Byte) : Byte := (b <<< 1) ^^^ (if b.getLsbD 7 then 0x1B else 0)
/-- The product of a byte with a factor below 16. -/
def timesSmall (n : Nat) (b : Byte) : Byte :=
  let b2 := timesX b
  let b4 := timesX b2
  (if n.testBit 0 then b else 0) ^^^ (if n.testBit 1 then b2 else 0) ^^^ (if n.testBit 2 then b4 else 0) ^^^ (if n.testBit 3 then timesX b4 else 0)

/-- The product of a column of four bytes with the circulant matrix whose first row is given. -/
def mixColumn (row : List Nat) (col : List Byte) : List Byte :=
  (List.range 4).map fun i => (List.range 4).foldl (fun x j => x ^^^ timesSmall (row.getD ((j + 4 - i) % 4) 0) (col.getD j 0)) 0
/-- That product for each of the four columns of a block. -/
def mixColumns (row : List Nat) (b : List Byte) : List Byte := (List.range 4).flatMap fun c => mixColumn row ((b.drop (4 * c)).take 4)
/-- Row r of a block turns by r columns, times `k`: 1 for the cipher, 3 for its inverse. -/
def shiftRows (k : Nat) (b : List Byte) : List Byte := (List.range 16).map fun i => b.getD (i % 4 + 4 * ((i / 4 + k * (i % 4)) % 4)) 0

/-- Word `i` of the key schedule from the words before it, the latest first. -/
def nextKeyWord (i : Nat) (ws : List (List Byte)) : List Byte :=
  let last := ws.getD 0 []
  let turned := (last.drop 1 ++ last.take 1).map (byteIn sboxTable)
  let mixed :=
    if i % 8 = 0 then xorBytes turned [BitVec.ofNat 8 (2 ^ (i / 8 - 1)), 0, 0, 0]
    else if i % 8 = 4 then last.map (byteIn sboxTable)
    else last
  xorBytes (ws.getD 7 []) mixed
/-- `n` more words of the key schedule from word `i` on. -/
def keyWords : Nat → Nat → List (List Byte) → List (List Byte)
  | 0, _, ws => ws
  | n + 1, i, ws => keyWords n (i + 1) (nextKeyWord i ws :: ws)
/-- The 15 round keys of a 32-byte key. -/
def roundKeys (key : List Byte) : List (List Byte) :=
  let bytes := (keyWords 52 8 ((List.range 8).map fun i => (key.drop (4 * (7 - i))).take 4)).reverse.flatten
  (List.range 15).map fun r => (bytes.drop (16 * r)).take 16

/-- The rounds of the cipher but the first key addition; the last round mixes no columns. -/
def aesRounds (b : List Byte) : List (List Byte) → List Byte
  | [] => b
  | [k] => xorBytes (shiftRows 1 (b.map (byteIn sboxTable))) k
  | k :: l :: ks => aesRounds (xorBytes (mixColumns [2, 3, 1, 1] (shiftRows 1 (b.map (byteIn sboxTable)))) k) (l :: ks)
/-- The rounds of the inverse cipher, from the last round key on. -/
def aesUnrounds (b : List Byte) : List (List Byte) → List Byte
  | [] => b
  | [k] => xorBytes ((shiftRows 3 b).map (byteIn sboxInvTable)) k
  | k :: l :: ks => aesUnrounds (mixColumns [14, 11, 13, 9] (xorBytes ((shiftRows 3 b).map (byteIn sboxInvTable)) k)) (l :: ks)
/-- AES-256 encryption of a block. -/
def aesEncrypt (key block : List Byte) : List Byte :=
  match roundKeys key with
  | [] => block
  | k :: ks => aesRounds (xorBytes block k) ks
/-- AES-256 decryption of a block. -/
def aesDecrypt (key block : List Byte) : List Byte :=
  match (roundKeys key).reverse with
  | [] => block
  | k :: ks => aesUnrounds (xorBytes block k) ks

/-! ## XTS (R117) -/

/-- The product of a mask with x in the field of XTS. -/
def xtsTimesX (t : BitVec 128) : BitVec 128 := (t <<< 1) ^^^ (if t.getLsbD 127 then 0x87 else 0)
/-- The mask of block `j` of a data unit: the tweak under the second half of the key, times x to the power `j`. -/
def xtsMask (key : BitVec 512) (tweak : BitVec 128) : Nat → BitVec 128
  | 0 => BitVec.ofNat 128 (leNat (aesEncrypt (leBytes 32 (key.extractLsb' 256 256).toNat) (leBytes 16 tweak.toNat)))
  | j + 1 => xtsTimesX (xtsMask key tweak j)
/-- A block function between two additions of the mask. -/
def xtsBlock (f : List Byte → List Byte → List Byte) (key : BitVec 512) (tweak : BitVec 128) (j : Nat) (block : List Byte) : List Byte :=
  let m := leBytes 16 (xtsMask key tweak j).toNat
  xorBytes (f (leBytes 32 (key.extractLsb' 0 256).toNat) (xorBytes block m)) m
/-- Block `j` of a data unit, encrypted under a key and a tweak. -/
def xtsEncrypt : BitVec 512 → BitVec 128 → Nat → List Byte → List Byte := xtsBlock aesEncrypt
/-- Block `j` of a data unit, decrypted. -/
def xtsDecrypt : BitVec 512 → BitVec 128 → Nat → List Byte → List Byte := xtsBlock aesDecrypt

/-! ## Key unwrap (R443) -/

/-- One step of the unwrap: the integrity register and the blocks, at step `t` for block `i`. -/
def unwrapStep (kek : List Byte) (a : List Byte) (r : List (List Byte)) (t i : Nat) : List Byte × List (List Byte) :=
  let b := aesDecrypt kek (xorBytes a (leBytes 8 t).reverse ++ r.getD i [])
  (b.take 8, r.set i (b.drop 8))
/-- The steps `n` down to 1 over `m` blocks. -/
def unwrapSteps (kek : List Byte) (m : Nat) : Nat → List Byte → List (List Byte) → List Byte × List (List Byte)
  | 0, a, r => (a, r)
  | n + 1, a, r =>
    let x := unwrapStep kek a r (n + 1) (n % m)
    unwrapSteps kek m n x.1 x.2
/-- AES-256 key unwrap of 72 bytes: the 64-byte key, or none where the integrity check fails. -/
def keyUnwrap (kek wrapped : List Byte) : Option (BitVec 512) :=
  let x := unwrapSteps kek 8 48 (wrapped.take 8) ((List.range 8).map fun i => (wrapped.drop (8 * i + 8)).take 8)
  if x.1 = List.replicate 8 0xA6 then some (BitVec.ofNat 512 (leNat x.2.flatten)) else none

/-! ## SHAKE256 -/

/-- The round constants of Keccak. -/
def keccakConstants : List Word :=
  [0x1, 0x8082, 0x800000000000808a, 0x8000000080008000, 0x808b, 0x80000001, 0x8000000080008081, 0x8000000000008009, 0x8a, 0x88, 0x80008009, 0x8000000a] ++
  [0x8000808b, 0x800000000000008b, 0x8000000000008089, 0x8000000000008003, 0x8000000000008002, 0x8000000000000080, 0x800a, 0x800000008000000a, 0x8000000080008081, 0x8000000000008080, 0x80000001, 0x8000000080008008]
/-- The rotation of lane x + 5 y. -/
def keccakRotations : List Nat := [0, 1, 62, 28, 27, 36, 44, 6, 55, 20, 3, 10, 43, 25, 39, 41, 45, 15, 21, 8, 18, 2, 61, 56, 14]
/-- One round on 25 lanes. -/
def keccakRound (rc : Word) (a : List Word) : List Word :=
  let c := (List.range 5).map fun x => (List.range 5).foldl (fun w y => w ^^^ wordAt a (x + 5 * y)) 0
  let d := (List.range 5).map fun x => wordAt c ((x + 4) % 5) ^^^ (wordAt c ((x + 1) % 5)).rotateLeft 1
  let t := (List.range 25).map fun i => (wordAt a i ^^^ wordAt d (i % 5)).rotateLeft (keccakRotations.getD i 0)
  -- Lane (y, 2 x + 3 y) takes lane (x, y): lane (X, Y) takes the lane with x = X + 3 Y and y = X.
  let b := (List.range 25).map fun i => wordAt t ((i % 5 + 3 * (i / 5)) % 5 + 5 * (i % 5))
  (List.range 25).map fun i =>
    let x := i % 5
    let row := i / 5 * 5
    wordAt b i ^^^ (~~~ (wordAt b (row + (x + 1) % 5)) &&& wordAt b (row + (x + 2) % 5)) ^^^ (if i = 0 then rc else 0)
/-- The permutation of Keccak. -/
def keccakF (a : List Word) : List Word := keccakConstants.foldl (fun a rc => keccakRound rc a) a
/-- Add a block of 136 bytes to the state and permute it. -/
def absorbBlock (a : List Word) (block : List Byte) : List Word :=
  keccakF ((List.range 25).map fun i => wordAt a i ^^^ (if i < 17 then BitVec.ofNat 64 (leNat ((block.drop (8 * i)).take 8)) else 0))
/-- Absorb `n` blocks. -/
def absorb : Nat → List Word → List Byte → List Word
  | 0, a, _ => a
  | n + 1, a, bs => absorb n (absorbBlock a (bs.take 136)) (bs.drop 136)
/-- `n` output blocks. -/
def squeeze : Nat → List Word → List Byte
  | 0, _ => []
  | n + 1, a => ((List.range 17).flatMap fun i => leBytes 8 (wordAt a i).toNat) ++ squeeze n (keccakF a)
/-- The message with its padding: 0x1F, zeros, and 0x80 in the last byte of the last block of 136 bytes. -/
def shakePad (msg : List Byte) : List Byte :=
  let k := 136 - msg.length % 136
  msg ++ (if k = 1 then [0x9F] else [0x1F] ++ List.replicate (k - 2) 0 ++ [0x80])
/-- SHAKE256 of a byte string: `len` bytes. -/
def shake256 (msg : List Byte) (len : Nat) : List Byte :=
  (squeeze (len / 136 + 1) (absorb (msg.length / 136 + 1) (List.replicate 25 0) (shakePad msg))).take len

end Sys2Proof.Machine
end

