-- ==== Sys2Proof/Config.lean ====
section
/-!
DEFINITION. What the spec leaves to the implementation, and the free values: constants with no body, so that nothing can evaluate
them and a statement about them holds for every value (notes/assumptions/3.md). The argument `n` of a free value is the counter
`fresh` of the state, which every use advances.
-/
namespace Sys2Proof.Config

/-- A choice between two behaviours that the spec allows alike (R153, R201, R358, R397). -/
opaque freeBool (n : Nat) : Bool
/-- A byte of no stated value. -/
opaque freeByte (n i : Nat) : BitVec 8
/-- A 64-bit word of no stated value. -/
opaque freeWord (n : Nat) : BitVec 64
/-- A number of no stated value: how many cycles pass, which of several things the device picks. -/
opaque freeNat (n : Nat) : Nat
/-- The lanes of a reserved compute row that no step has written since its last YIELD point or wave start (R289). -/
opaque deadRow (n : Nat) : BitVec 8192
/-- A byte of a block whose bytes were not all written under one key and tweak, read under another: fixed by both keys and tweaks, by the bytes so
written (`mask` of the block) and by the place of the block in its sector and of the byte in the block (R117). -/
opaque mixedByte (key : BitVec 512) (tweak : BitVec 128) (wkey : BitVec 512) (wtweak : BitVec 128) (mask : BitVec 16) (bytes : List (BitVec 8))
    (block off : Nat) : BitVec 8
/-- The set of its die's L2 that a line belongs to, of 384 slices of 128 sets (R139). -/
opaque l2Set (line : Nat) : Fin 49152
/-- The result of an approximate floating instruction: among the results the spec's bound allows, which one (R233, R234). -/
opaque approxPick (op : Nat) (ty : Nat) (x : BitVec 64) : Nat
/-- The generation of an ML-KEM-1024 key pair from fresh randomness: encapsulation key and decapsulation key (R441). -/
opaque mlkemPair (n : Nat) : BitVec 12544 × BitVec 25344
/-- ML-KEM-1024 decapsulation: the shared secret (R442). -/
opaque mlkemSecret (dk : BitVec 25344) (ct : List (BitVec 8)) : BitVec 256
/-- The SLH-DSA signature of a message under a secret key (R442). -/
opaque slhdsaSignature (sk : BitVec 1024) (msg : List (BitVec 8)) (n : Nat) : BitVec 238336
/-- The SLH-DSA key pair of a seed: public key and secret key (R441). -/
opaque slhdsaPair (seed : List (BitVec 8)) : BitVec 512 × BitVec 1024
/-- Whether an SLH-DSA signature of a message verifies under a public key (R441). -/
opaque slhdsaVerify (pk msg signature : List (BitVec 8)) : Bool
/-- The device secret that the identity key derives from (R441). -/
opaque deviceSecret : BitVec 512
/-- The text of the X.509 certificate of the identity key, in DER (R440, R441). -/
opaque certText : List (BitVec 8)
/-- The certificate: it fits into half of the list area. -/
def certificate : List (BitVec 8) := certText.take 0x8000
/-- The SHAKE256 digest, fused at manufacture, of the public key that verifies the firmware (R441). -/
opaque fusedDigest : BitVec 512
/-- The public key that comes with the firmware image. -/
opaque firmwareKey : BitVec 512
/-- The signature of the firmware image. -/
opaque firmwareSignature : BitVec 238336
/-- The firmware image that the boot ROM loads (R441, R448). -/
opaque firmwareImage : List (BitVec 8)
/-- The firmware configuration block (R441). -/
opaque firmwareConfig : List (BitVec 8)
/-- The serial number (R440, R446). -/
opaque serial : BitVec 64
/-- The stepping of the device, counted from the first one. -/
opaque steppingIndex : Fin 65535
/-- The stepping code of the capability header: 0x0001 or higher (R2, R440). -/
def stepping : BitVec 16 := BitVec.ofNat 16 (steppingIndex.val + 1)
/-- The words that the device leaves free before entry `i` of its capability list (R440). -/
opaque capGap (i : Nat) : Fin 16
/-- The bytes that it leaves free before the certificate, which follows the entries (R440). -/
opaque certGap : Fin 128
/-- Whether the module at the far end of a remote window accepts an access (R410). -/
opaque remoteAccepts (n addr : Nat) : Bool

end Sys2Proof.Config
end

