-- ==== Sys2Proof/Machine/State.lean ====
section
/-!
DEFINITION. The state of the device as plain data: every register and every piece of state that the spec names, under the spec's
own names, and the state right after reset. INVENTORY.md lists each field with its rule and its reset value.
-/
namespace Sys2Proof.Machine

open Sys2Proof

/-! ## Ranges and locations -/

/-- The three typed buffers of a group (R139). -/
inductive Buf where
  | w | a | c
  deriving DecidableEq, Repr

/-- A space that a range lies in: the virtual memory of a context, or one typed buffer of a group (R158). -/
inductive RSpace where
  | virt (cid : Nat)
  | buf (guid : Nat) (b : Buf)
  deriving DecidableEq, Repr

/-- The bytes `lo` to `hi - 1` of a space (R158). -/
structure Range where
  sp : RSpace
  lo : Nat
  hi : Nat
  deriving DecidableEq, Repr

/-- Where an element lies once its address is translated: a physical address, or an offset of a typed buffer. -/
inductive Place where
  | phys (pa : Nat)
  | buf (b : Buf) (off : Nat)
  deriving DecidableEq, Repr

/-! ## Shelf list, barriers -/

/-- A shelf-list entry: its 16 words, its STATE and its BCODE (R111, R116). -/
structure Shelf where
  words : List Word
  state : BitVec 2
  bcode : BitVec 4
  deriving DecidableEq, Repr

/-- A named barrier (R98). `fail` is set while an arrival of the current generation came from a failed transfer (R102, R110). -/
structure Bar where
  gen : BitVec 16
  exp : BitVec 10
  cnt : BitVec 10
  xerr : Bool
  tmo : BitVec 11
  fail : Bool
  deriving DecidableEq, Repr

/-- A superstep barrier (R106). -/
structure SBar where
  gen : BitVec 16
  xerr : Bool
  exp : Nat
  cnt : Nat
  fail : Bool
  deriving DecidableEq, Repr

/-! ## Strands -/

/-- What a waiting strand waits for (R87). -/
inductive WaitFor where
  /-- WAIT or DRAIN on a set of counters (R256). -/
  | counters (set : BitVec 8) (drain : Bool)
  /-- BWAIT or BWAIT.p: barrier, value, phase test, result register; `tmo`: a timeout runs (R104); `passed` holds XERR once the test has
  passed (R101). -/
  | barrier (b : Nat) (g : BitVec 16) (phase : Bool) (d : BitVec 6) (tmo : Bool) (passed : Option Bool)
  /-- BWAIT.s or BWAIT.s.p (R107). -/
  | superstep (j : Nat) (g : BitVec 16) (phase : Bool) (d : BitVec 6) (passed : Option Bool)
  /-- Plain IDLE; `woken` once an event of R345 has come. -/
  | idle (woken : Bool)
  /-- TINV or LLCFL in progress (R347, R351). -/
  | inval (op : Nat)
  deriving DecidableEq, Repr

/-- The state of a strand (R87). -/
inductive StrandStatus where
  | ready
  | waiting (w : WaitFor)
  /-- A precise fault is being served (R87, R368): the faulting address and its access kind; `out` is how the service ended: replay, or
  the nonexistent-memory fault (R370). -/
  | swapped (va : Word) (acc : BitVec 2) (out : Option Bool)
  | ended
  deriving DecidableEq, Repr

/-- A copy command (R274): what it captured at issue and how far it has come. -/
structure CopyCmd where
  id : Nat
  src : List Word
  dst : List Word
  nest : Bits1024
  round : BitVec 3
  xf : Nat
  arg : Nat
  idx : VReg
  /-- Iterations committed so far. -/
  pos : Nat
  /-- The block codes of the current row so far (R278). -/
  codes : List Byte
  flags : BitVec 6
  /-- A sector went to a link that failed (R412). -/
  failed : Bool
  deriving DecidableEq, Repr

/-- A closed batch: its commands in issue order and the CQB it captured (R281, R283). -/
structure CopyBatch where
  cmds : List CopyCmd
  cqb : Word
  failed : Bool
  deriving DecidableEq, Repr

/-- The record of a halted channel (R285). -/
structure CopyHalt where
  va : Word
  cause : BitVec 8
  detail : BitVec 4
  acc : BitVec 2
  /-- Iteration of the faulting element. -/
  pos : Nat
  /-- The copy-fault trap of this halt has been taken. -/
  taken : Bool
  deriving DecidableEq, Repr

/-- A copy channel (R281). -/
structure Channel where
  opened : List CopyCmd
  closed : List CopyBatch
  halt : Option CopyHalt
  /-- A served fault holds the channel (R284): the fault, as it is recorded where the service fails. -/
  held : Option CopyHalt
  deriving DecidableEq, Repr

/-- A strand's registers (R121, R122) and what it has in progress. -/
structure Strand where
  v : List VReg
  m : List Bits1024
  n : List Bits1024
  pc : Word
  vl : BitVec 11
  vrows : BitVec 11
  vcols : BitVec 11
  vs : BitVec 32
  sc : BitVec 48
  md : BitVec 20
  dm : BitVec 48
  st : BitVec 6
  ri : BitVec 6
  kl : BitVec 12
  ks : BitVec 12
  ke : List (BitVec 7)
  kr : BitVec 5
  kc : BitVec 5
  tvec : Word
  tpc : Word
  tcause : Word
  tval : Word
  tscr : Word
  /-- SMODE bit H (R330). -/
  h : Bool
  /-- The hidden trap origin (R331). -/
  torg : Word
  /-- The 32 lane generators and the 4 channel generators of SR (R174). -/
  gens : List (BitVec 32)
  status : StrandStatus
  /-- Instruction words that the buffer may hold since its last refill (R201). -/
  ibuf : List (Nat × BitVec 32)
  chans : List Channel
  /-- The channel whose turn was last (R282). -/
  lastChan : Nat
  /-- Catalogue faults not yet taken, oldest first: the tensor id (R320, R333). -/
  catFaults : List (Nat × BitVec 6)
  /-- A strand that GRESUME steps: instructions it may still issue; `none` outside a step (R95). -/
  stepLeft : Option Nat
  /-- The generation of each superstep barrier at the strand's last arrival there; none before the first (R94). -/
  arrived : List (Option (BitVec 16))
  deriving DecidableEq, Repr

/-! ## Operations in flight -/

/-- Where a loaded element goes. -/
inductive Dst where
  | vec (r lo width : Nat)
  | scalar (r : Nat)
  | nest (r lo : Nat)
  deriving DecidableEq, Repr

/-- One element of a load: `bytes` bytes at `at`, shifted right, cut to `width` bits, extended to `out` bits (R165, R247). -/
structure LoadItem where
  loc : Place
  /-- Its virtual address or buffer offset. -/
  va : Nat
  bytes : Nat
  shift : Nat
  width : Nat
  out : Nat
  sx : Bool
  dst : Dst
  deriving DecidableEq, Repr

/-- One run of bytes of a store. `mask` has a 0 bit for each bit of the run that keeps its old value (sub-byte formats, R165). -/
structure StoreItem where
  loc : Place
  va : Nat
  data : List Byte
  mask : List Byte
  deriving DecidableEq, Repr

/-- The operation of an atomic (R255). -/
inductive AtomicFn where
  | add | min | max | and | or | xor | swp | cas
  deriving DecidableEq, Repr

/-- What an operation still has to do. -/
inductive OpWork where
  | load (items : List LoadItem) (ro : Bool)
  | store (items : List StoreItem)
  | atomic (fn : AtomicFn) (type : BitVec 5) (loc : Place) (size : Nat) (operand compare : Word) (d : BitVec 6)
  /-- ENQ: the record, the ring slot number and its place (R343). -/
  | enq (qid : Nat) (loc : Place) (slot : BitVec 32) (ring : Place) (d : BitVec 6)
  | barv (b : Nat) (d : BitVec 6)
  | sstep (j : Nat)
  /-- TINV, INVAL or LLCFL: the page, or every page; `llc` for LLCFL (R347, R351, R370). -/
  | inval (page : Option Nat) (llc : Bool)
  deriving DecidableEq, Repr

/-- An ordinary memory operation, a pending arrival or an invalidation of a strand (R144, R100, R107, R347). -/
structure Op where
  id : Nat
  guid : Nat
  strand : Nat
  cid : Nat
  ver : BitVec 32
  /-- SCOPE of the access (R143). -/
  scope : BitVec 2
  /-- The re-reference value that it installs lines with; 7 installs none (R141, R418). -/
  dist : BitVec 3
  work : OpWork
  rd : List Range
  wr : List Range
  /-- Identities that must have completed before this operation takes effect. -/
  after : List Nat
  /-- A link failure is carried by a transfer that this operation awaited (R110). -/
  failed : Bool
  /-- PC and RI of its instruction, for a fault found when it is performed (R343, R412). -/
  pc : Word
  ri : BitVec 6
  /-- Its items are the elements of a vector form, so that such a fault names one in VS (R250). -/
  elems : Bool
  deriving DecidableEq, Repr

/-- An entry of the range interlock table of the core that its group stands on (R158). -/
structure Lock where
  id : Nat
  guid : Nat
  strand : Nat
  rd : List Range
  wr : List Range
  deriving DecidableEq, Repr

/-- An operation of the matrix queue (R263): MMA, or CCVT when `ccvt`. -/
structure MatOp where
  id : Nat
  guid : Nat
  strand : Nat
  ccvt : Bool
  xd : Word
  xa : Word
  d : BitVec 6
  f : BitVec 10
  nest : Bits1024
  md : BitVec 20
  /-- The unit works on it: begun by MATRIX_OP_START, not stopped since. -/
  started : Bool
  /-- The bytes it reads, in reading order, as they stood at moments since the start of the current iteration (R264). -/
  panels : List (List Byte)
  /-- The lane generators of its draws (R174): CCVT under SR draws in the order of issue. -/
  gens : List (BitVec 32)
  /-- The matrix progress record (R266): iterations or rows done, the next chunk, the flags so far, the saturation count so far. -/
  pos : Nat
  chunk : Nat
  flags : BitVec 6
  count : Nat
  deriving DecidableEq, Repr

/-- A read-only replica of a 128-byte line (R162). -/
structure Replica where
  line : Nat
  cid : Nat
  ver : BitVec 32
  kuid : Nat
  data : List Byte
  deriving DecidableEq, Repr

/-- A line that a last-level cache holds: compute die, line number (physical address div 128), context and version (R139, R142). It is always
current, so it holds no data of its own. -/
structure LlcLine where
  die : Nat
  line : Nat
  cid : Nat
  ver : BitVec 32
  deriving DecidableEq, Repr

/-- A line that the L2 of a compute die holds: its way in its set, its context and version, its re-reference value (R139, R141). It holds no data of
its own, as a line of a last-level cache. -/
structure L2Line where
  die : Nat
  line : Nat
  way : Nat
  cid : Nat
  ver : BitVec 32
  rrv : BitVec 3
  deriving DecidableEq, Repr

/-- A core (R8, R56, R89, R158). -/
structure Core where
  /-- The slot that issued last. -/
  last : Nat
  ctx : Option Nat
  replicas : List Replica
  deriving DecidableEq, Repr

/-! ## Groups and kernels -/

/-- Where a group stands (R87, R90, R92, R94, R96). -/
inductive GroupStage where
  | resident
  /-- Pre-emption requested: no strand issues again; the save follows once every activity is at its point. -/
  | stopping
  /-- Stopped on its core for want of a save-area run. -/
  | stuck
  | saved
  /-- Its kernel aborts: it stops without being saved. -/
  | aborting
  deriving DecidableEq, Repr

/-- A group (R84 to R97, R111, R283, R297, R323). -/
structure Group where
  uid : Nat
  kuid : Nat
  cid : Nat
  l : Nat
  stage : GroupStage
  /-- Entry of the placement sequence of R85. -/
  core : Nat
  /-- Slots of the strands, in strand-number order. -/
  slots : List Nat
  /-- First granule of each partition (R86). -/
  wb : Nat
  ab : Nat
  cb : Nat
  restores : Nat
  /-- The effective priority of its kernel when the group was placed or restored: a lower ceiling does not lower it (R44). -/
  prio : Nat
  /-- CYCLE: cycles of the core's clock since placement (R338, R416). -/
  cycle : Word
  halt : Bool
  step : Bool
  mask : BitVec 8
  /-- 0 pre-emption, 1 superstep yield, 2 debug halt, 3 SUSPEND or KHOLD (R92). -/
  reason : BitVec 2
  /-- First frame of the save frame while saved. -/
  frame : Nat
  /-- The superstep barriers and generations that a reason-1 save waits for (R94). -/
  yieldOn : List (Nat × BitVec 16)
  shelf : List Shelf
  bars : List Bar
  cqb : List Word
  rowStat : List Word
  catStat : List Word
  bufW : List Host.Cell
  bufA : List Host.Cell
  bufC : List Host.Cell
  /-- Engine arrivals that came while the group was saved, for its restore: barrier, failure (R100, R105, R323). -/
  late : List (Nat × Bool)
  /-- Written 128-byte lines: W lines from 0, A lines from 16384, C lines from 24576 (R55, R92). -/
  lines : List Nat
  strands : List Strand
  deriving DecidableEq, Repr

/-- The state of a kernel (R79). -/
inductive KernelStage where
  | admitted | placing | resident | draining
  deriving DecidableEq, Repr

/-- What the device read at admission (R73). -/
structure Snapshot where
  table : List (BitVec 32)
  image : List Word
  params : List Byte
  deriving DecidableEq, Repr

/-- A kernel (R73 to R83, R106). -/
structure Kernel where
  uid : Nat
  qid : Nat
  cid : Nat
  record : List Word
  stage : KernelStage
  held : Bool
  status : Option Byte
  snap : Option Snapshot
  nextL : Nat
  ended : Nat
  /-- Entry where this kernel last placed or restored a group (R85). -/
  place : Option Nat
  /-- A served fault of the snapshot reads is pending; one that could not be resolved has failed. -/
  wait : Bool
  failed : Bool
  ssb : List SBar
  deriving DecidableEq, Repr

/-! ## Contexts, queues, host windows -/

/-- The state of a context slot (R50, R51), with the codes of QUERY in this order. -/
inductive CtxState where
  | free | claimed | scrubbing | ready | running | suspended | draining | retired
  deriving DecidableEq, Repr

/-- A command in progress: the issuing port and its command word. -/
structure Cmd where
  port : Nat
  word : Word
  op1 : Word
  deriving DecidableEq, Repr

/-- A context slot (R41 to R54). -/
structure Context where
  state : CtxState
  pceil : BitVec 3
  root : BitVec 40
  fflh : BitVec 40
  ffln : BitVec 32
  flow : BitVec 32
  wq : BitVec 41
  ba : BitVec 7
  saveb : BitVec 40
  saven : BitVec 32
  desc : Bool
  key : Option (BitVec 512)
  armed : Bool
  /-- The step count CUR (R364). -/
  cur : BitVec 32
  cmd : Option Cmd
  /-- Retired or retiring in abort mode (R54). -/
  aborting : Bool
  /-- The descriptor words as LOADDESC latched them (R50). -/
  latched : List Word
  unsrd : Word
  /-- LLHIT and LLMISS: hits and misses in the last-level cache of each compute die (R338, R435). -/
  llhit : List Word
  llmiss : List Word
  /-- The port that owned the device at CLAIM (R51). -/
  owner : BitVec 4
  deriving DecidableEq, Repr

/-- The state of a queue (R61, R72), with the codes of QSTAT in this order. -/
inductive QueueState where
  | unbound | stopped | active | draining | faulted
  deriving DecidableEq, Repr

/-- A record held at the head of a queue: its words, and which of its wait clauses have been found satisfied (R67). -/
structure Held where
  words : List Word
  met : List Bool
  deriving DecidableEq, Repr

/-- A queue (R58 to R63, R83). -/
structure Queue where
  state : QueueState
  cid : Nat
  level : BitVec 3
  feed : Nat
  log2n : Nat
  base : Word
  head : BitVec 32
  tail : BitVec 32
  drop : Bool
  fcause : BitVec 4
  held : Option Held
  /-- TAG of its last retired kernel (R67). -/
  lastTag : Option (BitVec 48)
  /-- Status with which a draining queue discards its records (R72). -/
  dstatus : Byte
  cmd : Option Cmd
  deriving DecidableEq, Repr

/-- A record ring that the device writes: page service or events (R369, R439). -/
structure Ring where
  base : BitVec 46
  log2n : BitVec 4
  en : Bool
  head : BitVec 32
  tail : BitVec 32
  /-- Records not yet written, oldest first: four words each. -/
  held : List (List Word)
  deriving DecidableEq, Repr

/-- The window of one port: mailboxes, status words, event ring, attestation registers (R435, R442). -/
structure Window where
  ctxBox : List Word
  qBox : List Word
  ctxStat : List Word
  qStat : List Word
  ring : Ring
  nonce : List Word
  atAddr : Word
  atStat : Byte
  atCmd : Option Word
  deriving DecidableEq, Repr

/-! ## Memory -/

/-- The bytes of a sector that were last written under one key, one version and one physical address (R117). -/
structure Layer where
  /-- None: bytes of no stated value. -/
  key : Option (BitVec 512)
  ver : BitVec 32
  /-- The physical address of the sector div 32, as the tweak takes it. -/
  sector : Nat
  mask : BitVec 32
  /-- Where `key` is none, the name of their free values; else 0. -/
  name : Nat
  deriving DecidableEq, Repr

/-- A 32-byte sector that some write has reached since bring-up: under what its bytes were written, no byte in two layers (R117). -/
structure SectorTag where
  idx : Nat
  layers : List Layer
  deriving DecidableEq, Repr

/-- A reserved compute row that a step has written: subarray number, index 0 to 15, seal bit, lanes (R289, R301). -/
structure ResRow where
  sub : Nat
  idx : Nat
  sealed : Bool
  lanes : VReg
  /-- Written since the last YIELD point or wave start: its value may be relied on (R289). -/
  live : Bool
  deriving DecidableEq, Repr

/-- DRAM, POOL and host memory: bytes by physical address in canonical form (addresses strictly rising, no zero byte; an unlisted
byte is zero), sector tags strictly rising, and what the row stacks hold beside the bytes. -/
structure Memory where
  cells : List Host.Cell
  tags : List SectorTag
  /-- Memory of the hosts: a physical address in no region of R405. -/
  host : List Host.Cell
  /-- Unsealed rows, by physical address div 1024, strictly rising (R379). -/
  unsealed : List Nat
  /-- Wrong stored bits of sealed rows: address and bit (R380). -/
  flips : List (Nat × Nat)
  /-- Reserved compute rows that a step has written since their row set was zeroed (R289). -/
  reserved : List ResRow
  deriving DecidableEq, Repr

/-! ## Translation -/

/-- A cached translation of a die, in the TLB of a core or in the shared TLB: level 1 or 2, the virtual address bits above the page, the leaf
entry and where it lies (R358). A merged entry of R357 is numbered by its contiguous group and holds the leaf of its first page. -/
structure TlbEntry where
  die : Nat
  /-- The core whose TLB it lies in; none for the shared TLB of the die. -/
  core : Option Nat
  cid : Nat
  page : Nat
  level : Nat
  leaf : Word
  addr : Nat
  /-- A merged entry: the accessed and the written bit of each of its 16 pages (R357). -/
  merged : Option (BitVec 16 × BitVec 16)
  deriving DecidableEq, Repr

/-- A cached non-leaf entry of a die: level, virtual address bits above that level's index, entry (R358). -/
structure WalkEntry where
  die : Nat
  cid : Nat
  level : Nat
  vpn : Nat
  entry : Word
  deriving DecidableEq, Repr

/-- A party that waits for a pending fault (R368). -/
inductive Waiter where
  | strand (guid strand : Nat)
  | chan (guid strand chan : Nat)
  | cat (op : Nat)
  | row (op : Nat)
  | arc (op : Nat)
  | snap (kernel : Nat)
  deriving DecidableEq, Repr

/-- A served fault as it asks for an entry of the pending-fault table of a die (R336, R368). -/
structure FaultReq where
  die : Nat
  cid : Nat
  page : Nat
  code : Byte
  acc : BitVec 2
  /-- TIER and PRIO of the tensor that the access names (R119). -/
  hint : Option (BitVec 2 × BitVec 4)
  waiter : Waiter
  deriving DecidableEq, Repr

/-- A copy-on-write resolution (R366). -/
structure CowLock where
  /-- The frame F that the faulting page mapped. -/
  frame : Nat
  /-- When the resolution reached the lock of F, if it has. -/
  since : Option Nat
  /-- The leaf that it read under the lock, and where that lies. -/
  leaf : Word
  addr : Nat
  /-- The frame G that it copies to, once taken. -/
  target : Option Nat
  deriving DecidableEq, Repr

/-- An entry of a die's pending-fault table (R368), with its number. -/
structure Pend where
  die : Nat
  idx : Nat
  cid : Nat
  page : Nat
  code : Byte
  acc : BitVec 2
  hint : Option (BitVec 2 × BitVec 4)
  waiters : List Waiter
  /-- The resolution of a 0x43 fault. -/
  cow : Option CowLock
  /-- The archive page that a 0x41 fault asks for, by archive address div 16 KiB (R362). -/
  arc : Option Nat
  deriving DecidableEq, Repr

/-- The count of a frame, tagged with a context (R365). -/
structure FrameCount where
  frame : Nat
  count : BitVec 16
  cid : Nat
  deriving DecidableEq, Repr

/-- A migration in progress (R363). -/
structure Migration where
  id : Nat
  guid : Nat
  strand : Nat
  cid : Nat
  page : Nat
  oldLeaf : Word
  tier : BitVec 2
  /-- The new frame once copied. -/
  target : Option Nat
  d : BitVec 6
  deriving DecidableEq, Repr

/-! ## Row instructions -/

/-- The slice of a subarray: its number q, the subarray, and the rows of `a`, `b` and `c` in it (R288). -/
structure Slice where
  q : Nat
  sub : Nat
  a : List Nat
  b : List Nat
  c : List Nat
  deriving DecidableEq, Repr

/-- The registers that the sequencer holds for a slice: CR, ACC and the output images (R296). -/
structure SliceReg where
  cr : BitVec 14
  acc : BitVec 64
  out : List VReg
  deriving DecidableEq, Repr

/-- What a YIELD point records (R305). -/
structure RowSnap where
  wave : Nat
  pc : Nat
  lp : Nat
  la : Option Nat
  regs : List SliceReg
  outs : List (Nat × SliceReg)
  deriving DecidableEq, Repr

/-- What a row stack does for a row instruction. -/
inductive RunPhase where
  | wave      -- the next wave is to start
  | steps     -- inside a wave
  | aseal     -- sealing at the end of a wave (R295)
  | finished
  deriving DecidableEq, Repr

/-- The run of a row instruction on one row stack (R298, R305, R306). -/
structure StackRun where
  stk : Nat
  waves : List (List Slice)
  wave : Nat
  phase : RunPhase
  pc : Nat
  lp : Nat
  la : Option Nat
  regs : List SliceReg
  /-- Finished slices: q and its registers. -/
  outs : List (Nat × SliceReg)
  snap : RowSnap
  since : Nat
  noForce : Bool
  /-- Rows that a step of this wave wrote (R295). -/
  wrote : List Nat
  pos : Nat
  stop : Option (Byte × Nat)
  /-- Stopped for a pre-emption until its group is restored (R307). -/
  paused : Bool
  /-- Steps run since its group began to stop or to abort (R90, R307). -/
  late : Nat
  /-- The first of the two steps of a word in duplicate-compare mode has run (R303). -/
  half : Bool := false
  deriving DecidableEq, Repr

/-- The phase of a row instruction (R298). -/
inductive RowPhase where
  | prep | prepared | holding | running | retiring
  deriving DecidableEq, Repr

/-- A page that an engine has translated for an operation: its number, whether for writing, its first physical byte. -/
structure OpPage where
  page : Nat
  write : Bool
  pa : Nat
  deriving DecidableEq, Repr

/-- A row instruction in flight (R291 to R298). -/
structure RowOp where
  id : Nat
  guid : Nat
  strand : Nat
  cid : Nat
  kind : Nat
  tid : Nat
  xd : Word
  xa : Word
  ea : List Word
  eb : Option (List Word)
  ec : Option (List Word)
  ew : Option (List Word)
  eo : Option (List Word)
  sat : Bool
  phase : RowPhase
  prog : List (BitVec 32)
  window : List Byte
  code : Byte
  widx : Nat
  uns : Bool
  ce : Bool
  flags : BitVec 6
  steps : Nat
  runs : List StackRun
  /-- Rows held at their homes from step 2 of R160. -/
  held : List Nat
  /-- Pages translated by the preparation (R298). -/
  pages : List OpPage
  /-- A served fault of the preparation is pending. -/
  wait : Option Nat
  failed : Bool
  /-- A tensor that it reads was lost with its link (R110). -/
  lost : Bool := false
  deriving DecidableEq, Repr

/-! ## Catalogue and archive -/

/-- What an operand decodes to, or what an operation gives before it is rounded: `(-1)^neg * num * 2^exp`, an infinity, or a NaN
(signalling or not). -/
inductive Val where
  | fin (neg : Bool) (num : Nat) (exp : Int)
  | inf (neg : Bool)
  | nan (sig : Bool)
  deriving DecidableEq, Repr

/-- The phase of a catalogue run (R319). -/
inductive CatPhase where
  | start | rows | completing
  deriving DecidableEq, Repr

/-- A catalogue run or check (R316 to R325). -/
structure CatOp where
  id : Nat
  guid : Nat
  strand : Nat
  cid : Nat
  kind : Nat
  engine : Nat
  tid : Nat
  entry : List Word
  xd : Word
  xa : Word
  md : BitVec 20
  phase : CatPhase
  /-- The activation span as the start phase has read it. -/
  acts : List Byte
  /-- The directory words read in the start phase; a word whose page faulted or was held is read with its row. -/
  dirs : List (Option Word)
  /-- Rows committed. -/
  next : Nat
  /-- The decoded row that waits for its commit: its exact value, its flags. -/
  row : Option (Val × BitVec 6)
  /-- Sectors read ahead for rows that hold a lane: row, sector number, bytes (R319, R322). -/
  seen : List (Nat × Nat × List Byte)
  /-- Output elements as they stood at moments since the issue, under ACC (R318): number and bytes. -/
  olds : List (Nat × List Byte)
  code : Byte
  grp : Nat
  col : Nat
  flags : BitVec 6
  wait : Option Nat
  stopped : Bool
  failed : Bool
  deriving DecidableEq, Repr

/-- The state of a version of a weight block (R391). -/
inductive VerState where
  | installing | installed | old | superseded | discarded | unowned
  deriving DecidableEq, Repr

/-- A version of a weight block (R389, R391, R402). -/
structure Version where
  id : Nat
  cid : Nat
  baddr : Nat
  npg : Nat
  ver : BitVec 32
  key : BitVec 512
  kfp : Word
  seq : Nat
  state : VerState
  /-- X of each 4 KiB source page, and PRIO of the source tensor (R362, R393). -/
  xbits : List Bool
  prio : BitVec 4
  /-- The hint that STAGE or HINT gave: PRIO and step (R328). -/
  hint : Option (BitVec 4 × BitVec 32)
  /-- Index of its block-table entry. -/
  index : Nat
  deriving DecidableEq, Repr

/-- A programmed archive page: stack, log position, version and page index, contents (R389, R390). -/
structure ArcPage where
  ast : Nat
  lpg : Nat
  vid : Nat
  page : Nat
  data : List Byte
  deriving DecidableEq, Repr

/-- The condition of an erase block that is not free and unerased (R390). -/
inductive BlockCond where
  | free | opened | full | retired
  deriving DecidableEq, Repr

/-- An erase block: stack, position, condition, erase count; a block not listed is free with count 0. -/
structure EraseBlock where
  ast : Nat
  pos : Nat
  cond : BlockCond
  count : Nat
  deriving DecidableEq, Repr

/-- An archive operation in progress: ARCIN, ARCOUT, STAGE (R326 to R328, R392 to R401). -/
structure ArcOp where
  id : Nat
  guid : Nat
  strand : Nat
  cid : Nat
  kind : Nat
  tid : Nat
  entry : List Word
  xd : Word
  xa : Word
  /-- The version it installs, once accepted. -/
  vid : Option Nat
  /-- The source bytes of the page being programmed, once read. -/
  data : List Byte
  /-- Pages programmed or staged. -/
  count : Nat
  /-- Failed verifications of the page being programmed (R394). -/
  tries : Nat
  code : Option Byte
  wait : Option Nat
  abort : Bool
  /-- The kernel whose strand issued it (R80). -/
  kuid : Nat
  deriving DecidableEq, Repr

/-- A staged archive page: its archive page number, row stack, first frame, hint (R364, R400); `ready` once its copy is written. -/
structure Staged where
  page : Nat
  stk : Nat
  frame : Nat
  prio : BitVec 4
  step : BitVec 32
  cid : Nat
  ready : Bool
  deriving DecidableEq, Repr

/-! ## Row sets, refresh, links, platform -/

/-- The stored part of a row set's state (R378); computing and unsealed follow from the holds and the seal bits. -/
inductive SetMark where
  | allocated | loaded | sealed
  deriving DecidableEq, Repr

/-- A row set (R376, R377). -/
structure RowSet where
  id : Nat
  cid : Nat
  stk : Nat
  pcbase : Nat
  log2pc : Nat
  nsub : Nat
  /-- Subarray numbers, bank by bank. -/
  subs : List Nat
  mark : SetMark
  /-- Zeroing before it is granted, or before it is freed (R377). -/
  zeroing : Bool
  freeing : Bool
  deriving DecidableEq, Repr

/-- The refresh state of a pseudo-channel (R382, R383). -/
structure Refresh where
  stk : Nat
  pch : Nat
  /-- Postponed refreshes, oldest first: the banks. -/
  postponed : List Nat
  /-- Banks being refreshed. -/
  banks : List Nat
  /-- An all-bank refresh is due, or runs. -/
  due : Bool
  all : Bool
  /-- The bank that falls due next (R382). -/
  next : Nat
  /-- The counter `fresh` when the all-bank refresh fell due: an access that began before may be in progress still (R383). -/
  since : Nat
  deriving DecidableEq, Repr

/-- The state of a link (R411). -/
inductive LinkSt where
  | down | training | up | retraining | degraded | failed
  deriving DecidableEq, Repr

/-- A link: Acondut 0 to 15, vertical buses 16 to 39, CXL ports 40 to 47 (R408, R411). -/
structure Link where
  en : Bool
  state : LinkSt
  prev : LinkSt
  defer : Bool
  peer : Byte
  peerlk : BitVec 4
  wid : BitVec 2
  retr : BitVec 16
  crce : BitVec 16
  /-- A port whose host could not train 256-byte flit mode: CXL.io only (R406). -/
  io : Bool
  deriving DecidableEq, Repr

/-- A CXL.mem access held at a held range (R161). -/
structure HeldCxl where
  id : Nat
  port : BitVec 3
  addr : BitVec 46
  write : Bool
  size : BitVec 6
  data : BitVec 512
  deriving DecidableEq, Repr

/-- An access of another module that waits at its home for a held row or for a bank (R160, R386, R410). -/
structure HeldRemote where
  id : Nat
  /-- The link it came over. -/
  link : BitVec 4
  cid : Nat
  addr : BitVec 40
  ver : BitVec 32
  kind : RemoteKind
  size : BitVec 6
  data : BitVec 256
  deriving DecidableEq, Repr

/-- The last answer of a CXL.mem or remote access, as the requester sees it (R449, R410). -/
structure Answer where
  poison : Bool
  data : List Byte
  deriving DecidableEq, Repr

/-- Translation: caches, pending faults, frame counts, migrations (R358 to R368). -/
structure Mmu where
  tlb : List TlbEntry
  walk : List WalkEntry
  pend : List Pend
  /-- Served faults that wait for a free entry, oldest first (R368). -/
  queue : List FaultReq
  counts : List FrameCount
  migs : List Migration
  ring : Ring
  psStat : Byte
  psCmd : Option Nat
  deriving DecidableEq, Repr

/-- A party other than an operation in flight whose access waits in the queue of a bank (R385, R386). -/
inductive Asker where
  | chan (guid strand chan : Nat)
  | cat (op : Nat)
  | arc (op : Nat)
  | row (op : Nat)
  | snap (kernel : Nat)
  | queue (qid : Nat)
  | cxl (id : Nat)
  | remote (id : Nat)
  /-- A strand of the group, by the address of the instruction word or of the spill header that it needs. -/
  | code (guid va : Nat)
  deriving DecidableEq, Repr

/-- Its place in the queue of a bank of a row stack, by the counter `fresh`; `served` once a service gap has served it. -/
structure Ask where
  who : Asker
  stk : Nat
  bank : Nat
  id : Nat
  served : Bool
  deriving DecidableEq, Repr

/-- The row stacks' machinery (R306, R376 to R384). -/
structure Rows where
  /-- Retired subarrays (R19, R373). -/
  retired : List Nat
  nr : BitVec 6
  cmd1 : BitVec 46
  stat : Byte
  rsid : BitVec 10
  rsState : BitVec 3
  nuns : BitVec 32
  /-- The set whose zeroing the busy command waits for (R376). -/
  busy : Option Nat
  sets : List RowSet
  ops : List RowOp
  /-- Per row stack, the row instructions in the sequencer's queue, the running one first (R306). -/
  seq : List (List Nat)
  refresh : List Refresh
  /-- Per row stack, steps since the last service gap (R385). -/
  gap : List Nat
  /-- Accesses that wait in the queues of banks of the running waves, beside the operations in flight, in the order of their arrival (R385, R386). -/
  asked : List Ask
  /-- Banks that count as busy after an access (R383), with the number of refreshes of their pseudo-channel that have fallen due since: for stack,
  pseudo-channel and bank, 0 or 1. -/
  tails : List ((Nat × Nat × Nat) × Nat)
  deriving DecidableEq, Repr

/-- The archive and the reading room (R389 to R403). -/
structure Archive where
  ops : List ArcOp
  versions : List Version
  pages : List ArcPage
  blocks : List EraseBlock
  /-- Per archive stack, the next log position (R389). -/
  heads : List Nat
  /-- Per archive stack, the erase block that weeding empties. -/
  victims : List (Option Nat)
  seq : Nat
  units : BitVec 4
  staged : List Staged
  status : Byte
  data0 : Word
  data1 : Word
  data2 : Word
  /-- An owner's command in progress (ARSTS.BUSY): the status that its end writes (R403). -/
  busy : Option Byte
  deriving DecidableEq, Repr

/-- Links and remote windows (R407 to R411). -/
structure Links where
  modid : Byte
  units : List Link
  rtbl : List (BitVec 16)
  rwin : List Word
  rbind : List Word
  pwbase : List Word
  pwcfg : List Word
  /-- Viral is signalled on every CXL port (R406). -/
  viral : Bool
  deriving DecidableEq, Repr

/-- Ownership, identity, power and bring-up (R436 to R448). -/
structure Platform where
  owner : BitVec 4
  pend : BitVec 4
  /-- CLAIM is refused until 10 ms after the loss of the owner's port (R437). -/
  lockout : Bool
  phase : BitVec 3
  on : Bool
  plim : BitVec 12
  clocks : List (BitVec 12)
  /-- The sensors: the junctions of compute dies 0 to 7, the cases of the row stacks from 8 and of the archive stacks from 24, in degrees (R444, R446). -/
  temps : List Byte
  /-- The package power in watts (R446). -/
  power : BitVec 12
  measures : List (List Byte)
  /-- Events for the owner that came while there was none (notes/assumptions/11.md). -/
  heldEvents : List (List Word)
  mlkem : Option (BitVec 12544 × BitVec 25344)
  sessions : List (Option (List Byte))
  /-- The capability list has been written (R448). -/
  listed : Bool
  deriving DecidableEq, Repr

/-- The whole device. -/
structure State where
  /-- Inputs and events to come, the first first (notes/assumptions/1.md). -/
  agenda : List Instr
  /-- The counter that every free value reads and advances (notes/assumptions/3.md). -/
  fresh : Nat
  /-- The strand that acts: group identity and strand number (notes/assumptions/2.md). -/
  focus : Option (Nat × Nat)
  /-- The row run that acts: row instruction and row stack. -/
  rowFocus : Option (Nat × Nat)
  /-- The second word of a pair, as the issue in progress has fetched it (R225); none between steps. -/
  latch : Option (BitVec 32)
  /-- The core that issued last (notes/assumptions/6.md). -/
  turn : Nat
  contexts : List Context
  queues : List Queue
  /-- Queue last served at each effective priority (R69). -/
  served : List Nat
  /-- The device's placement pointer (R85). -/
  place : Nat
  kernels : List Kernel
  groups : List Group
  cores : List Core
  ops : List Op
  /-- Entries of the range interlock tables, in issue order. -/
  locks : List Lock
  /-- The matrix queues of the cores that the groups stand on, in issue order (R263). -/
  mats : List MatOp
  cats : List CatOp
  mem : Memory
  /-- The lines of the last-level caches (R9, R142). -/
  llc : List LlcLine
  /-- The lines of the L2s of the compute dies (R139, R141). -/
  l2 : List L2Line
  mmu : Mmu
  rows : Rows
  arc : Archive
  links : Links
  plat : Platform
  windows : List Window
  heldCxl : List HeldCxl
  heldRemote : List HeldRemote
  answer : Option Answer
  deriving DecidableEq, Repr

/-! ## The reasons a step can stop -/

/-- Why the machine stops. -/
inductive Fault where
  /-- A strand instruction executed while no strand acts: raised by every meaning of a strand instruction. A step raises it only where
  `agenda` wrongly lists a strand instruction as an input. Safe: the spec gives an instruction no meaning without a strand. -/
  | noStrand
  /-- A microcode op executed while no row run acts: raised by every meaning of a microcode op. A step raises it only where `agenda`
  wrongly lists a microcode op as an input. Safe. -/
  | noRun
  deriving DecidableEq, Repr

/-- Why an instruction has no meaning. -/
inductive Refusal where
  /-- The instruction is not modelled yet. Raised by Dispatch only. Safe. -/
  | notModelled (mnemonic : String)
  deriving DecidableEq, Repr

/-! ## Reset -/

/-- A free context slot (R41, R51). -/
def Context.reset : Context :=
  { state := .free, pceil := 0, root := 0, fflh := 0, ffln := 0, flow := 0, wq := 0, ba := 0, saveb := 0, saven := 0,
    desc := false, key := none, armed := false, cur := 0, cmd := none, aborting := false, latched := List.replicate 8 0, unsrd := 0,
    llhit := List.replicate 8 0, llmiss := List.replicate 8 0, owner := 0xF }

/-- An unbound queue (R61). -/
def Queue.reset : Queue :=
  { state := .unbound, cid := 0, level := 0, feed := 0, log2n := 0, base := 0, head := 0, tail := 0, drop := false,
    fcause := 0, held := none, lastTag := none, dstatus := 0, cmd := none }

/-- A ring that is not enabled (R369). -/
def Ring.reset : Ring := { base := 0, log2n := 0, en := false, head := 0, tail := 0, held := [] }

/-- The registers of a window at reset (R435, R439, R442). -/
def Window.reset : Window :=
  { ctxBox := List.replicate 8 0, qBox := List.replicate 8 0, ctxStat := List.replicate 64 0, qStat := List.replicate 256 0,
    ring := Ring.reset, nonce := List.replicate 4 0, atAddr := 0, atStat := 0, atCmd := none }

/-- An empty core. Its rotation starts at slot 0 (notes/assumptions/6.md). -/
def Core.reset (slots : Nat) : Core := { last := slots - 1, ctx := none, replicas := [] }

/-- A link that is down (R408). -/
def Link.reset : Link :=
  { en := false, state := .down, prev := .down, defer := false, peer := 0, peerlk := 0, wid := 0, retr := 0, crce := 0, io := false }

/-- The device right after reset: no power, PHASE 0, no owner (R436, R446, R448). -/
def State.reset : State :=
  { agenda := [], fresh := 0, focus := none, rowFocus := none, latch := none, turn := 159,
    contexts := List.replicate 64 Context.reset, queues := List.replicate 256 Queue.reset,
    served := List.replicate 8 255, place := 159, kernels := [], groups := [],
    cores := List.replicate 96 (Core.reset 8) ++ List.replicate 64 (Core.reset 4), ops := [], locks := [], mats := [], cats := [],
    mem := { cells := [], tags := [], host := [], unsealed := [], flips := [], reserved := [] },
    llc := [], l2 := [],
    mmu := { tlb := [], walk := [], pend := [], queue := [], counts := [], migs := [], ring := Ring.reset, psStat := 0, psCmd := none },
    rows := { retired := [], nr := 0, cmd1 := 0, stat := 0, rsid := 0, rsState := 0, nuns := 0, busy := none, sets := [],
              ops := [], seq := List.replicate 16 [], refresh := [], gap := List.replicate 16 0, asked := [], tails := [] },
    arc := { ops := [], versions := [], pages := [], blocks := [], heads := List.replicate 8 0, victims := List.replicate 8 none, seq := 0, units := 1,
             staged := [], status := 0, data0 := 0, data1 := 0, data2 := 0, busy := none },
    links := { modid := 0, units := List.replicate 48 Link.reset, rtbl := List.replicate 256 0, rwin := List.replicate 16 0,
               rbind := List.replicate 16 0, pwbase := List.replicate 32 0, pwcfg := List.replicate 32 0, viral := false },
    plat := { owner := 0xF, pend := 0xF, lockout := false, phase := 0, on := false, plim := 4000,
              clocks := List.replicate 8 2000, temps := List.replicate 32 0, power := 0,
              measures := List.replicate 8 (List.replicate 64 0), heldEvents := [], mlkem := none, sessions := List.replicate 16 none, listed := false },
    windows := List.replicate 8 Window.reset, heldCxl := [], heldRemote := [], answer := none }

end Sys2Proof.Machine
end

