-- ==== Sys2Proof/Machine/Ops.lean ====
section
/-!
DEFINITION. The named operations that every meaning is built from: reading and writing the objects of the state, memory bytes under
a key and a version (R117), events, the two kinds of barrier (R97 to R108), taking a trap (R331) and ending a kernel early (R82).
-/
namespace Sys2Proof.Machine

open Sys2Proof

/-- The outcome of a step. -/
abbrev Res := Host.Outcome State Fault Refusal

/-! ## Objects of the state -/

/-- Change element `i` of a list; an index beyond the list changes nothing. -/
def modAt {α : Type} (l : List α) (i : Nat) (f : α → α) : List α :=
  match l, i with
  | [], _ => []
  | a :: as, 0 => f a :: as
  | a :: as, i + 1 => a :: modAt as i f

/-- Change the first element that `p` accepts. -/
def modFirst {α : Type} (p : α → Bool) (f : α → α) : List α → List α
  | [] => []
  | a :: as => if p a then f a :: as else a :: modFirst p f as

def State.ctx (s : State) (c : Nat) : Context := s.contexts.getD c Context.reset
def State.modCtx (s : State) (c : Nat) (f : Context → Context) : State := { s with contexts := modAt s.contexts c f }
def State.queue (s : State) (q : Nat) : Queue := s.queues.getD q Queue.reset
def State.modQueue (s : State) (q : Nat) (f : Queue → Queue) : State := { s with queues := modAt s.queues q f }
def State.core (s : State) (c : Nat) : Core := s.cores.getD c (Core.reset 0)
def State.modCore (s : State) (c : Nat) (f : Core → Core) : State := { s with cores := modAt s.cores c f }
def State.window (s : State) (p : Nat) : Window := s.windows.getD p Window.reset
def State.modWindow (s : State) (p : Nat) (f : Window → Window) : State := { s with windows := modAt s.windows p f }

/-- The group of an identity. -/
def State.group? (s : State) (uid : Nat) : Option Group := s.groups.find? fun g => g.uid == uid
/-- Change the group of an identity. -/
def State.modGroup (s : State) (uid : Nat) (f : Group → Group) : State :=
  { s with groups := modFirst (fun g => g.uid == uid) f s.groups }
/-- The kernel of an identity. -/
def State.kernel? (s : State) (uid : Nat) : Option Kernel := s.kernels.find? fun k => k.uid == uid
def State.modKernel (s : State) (uid : Nat) (f : Kernel → Kernel) : State :=
  { s with kernels := modFirst (fun k => k.uid == uid) f s.kernels }
/-- Strand `k` of a group. -/
def State.strand? (s : State) (uid k : Nat) : Option Strand := (s.group? uid).bind fun g => g.strands[k]?
/-- Change strand `k` of a group. -/
def State.modStrand (s : State) (uid k : Nat) (f : Strand → Strand) : State :=
  s.modGroup uid fun g => { g with strands := modAt g.strands k f }
/-- The strand that acts, with its group. -/
def State.cur? (s : State) : Option (Nat × Nat × Group × Strand) :=
  s.focus.bind fun (uid, k) => (s.group? uid).bind fun g => (g.strands[k]?).map fun t => (uid, k, g, t)

/-- Advance the counter of free values. -/
def State.tick (s : State) : State := { s with fresh := s.fresh + 1 }

/-- Fields of a launch record (R64). -/
def recBits (r : List Word) (w hi lo : Nat) : Nat := natBits (wordAt r w).toNat hi lo
def Kernel.spgm1 (k : Kernel) : Nat := recBits k.record 0 15 13
def Kernel.cls (k : Kernel) : Nat := recBits k.record 0 12 11
def Kernel.stgm1 (k : Kernel) : Nat := recBits k.record 0 19 16
def Kernel.tag (k : Kernel) : BitVec 48 := BitVec.ofNat 48 (recBits k.record 6 63 16)
def Kernel.gx (k : Kernel) : Nat := recBits k.record 2 15 0
def Kernel.gy (k : Kernel) : Nat := recBits k.record 2 31 16
def Kernel.gz (k : Kernel) : Nat := recBits k.record 2 47 32
def Kernel.wneed (k : Kernel) : Nat := recBits k.record 3 9 0
def Kernel.aneed (k : Kernel) : Nat := recBits k.record 3 24 16
def Kernel.cneed (k : Kernel) : Nat := recBits k.record 3 39 32
/-- The number of groups (R75). -/
def Kernel.groupCount (k : Kernel) : Nat := k.gx * k.gy * k.gz * (k.stgm1 + 1)

/-! ## Numbers of units (R12, R85) -/

/-- Entries 96 and up of the placement sequence are stack cores. -/
def isStackCore (entry : Nat) : Bool := decide (96 ≤ entry)
/-- The logic die of a core: compute die 0 to 7, or 8 + s for the base die of row stack s. -/
def dieOf (entry : Nat) : Nat := if entry < 96 then entry / 12 else 8 + (entry - 96) / 4
/-- Strand slots of a core (R86). -/
def slotsOf (entry : Nat) : Nat := if entry < 96 then 8 else 4

/-! ## The physical map (R372, R405) -/

def stkOf (pa : Nat) : Nat := natBits pa 39 36
def pchOf (pa : Nat) : Nat := natBits pa 23 16
def bankOf (pa : Nat) : Nat := natBits pa 15 12
def subIdxOf (pa : Nat) : Nat := natBits pa 35 31
/-- The number of the subarray of a DRAM address: stack, subarray index, pseudo-channel, bank. -/
def subOf (pa : Nat) : Nat := natBits pa 39 31 * 4096 + natBits pa 23 12
/-- The first address of row `r` (0 to 511) of a subarray: the inverse of R372. -/
def rowAddr (sub r : Nat) : Nat := (sub / 4096) * 2^31 + (r / 4) * 2^24 + (sub % 4096) * 2^12 + (r % 4) * 2^10
/-- The subarray index SUB of a subarray number. -/
def subIdx (sub : Nat) : Nat := sub / 4096 % 32
def subStk (sub : Nat) : Nat := sub / 4096 / 32

/-- A region of the physical map (R405). -/
inductive Region where
  | dram | pool (port win : Nat) (off : Nat) | remote (win : Nat) (off : Nat) | none
  deriving DecidableEq, Repr

def regionOf (s : State) (pa : Nat) : Region :=
  if pa < 2^40 then .dram
  else if 2^51 ≤ pa ∧ pa < 2^51 + 16 * 2^40 then
    if (wordAt s.links.rwin ((pa - 2^51) / 2^40)).getLsbD 63 then .remote ((pa - 2^51) / 2^40) (pa % 2^40) else .none
  else if 2^48 ≤ pa ∧ pa < 2^48 + 32 * 2^43 then
    let w := (pa - 2^48) / 2^43
    let cfg := wordAt s.links.pwcfg w
    if cfg.getLsbD 63 && decide ((pa - 2^48) % 2^43 < natBits cfg.toNat 22 0 * 2^21) then .pool (w / 4) (w % 4) ((pa - 2^48) % 2^43) else .none
  else .none

/-- A subarray that the retirement map names (R19, R373). -/
def State.retiredSub (s : State) (sub : Nat) : Bool := s.rows.retired.contains sub
/-- SUB lies in the row region (R374). -/
def State.inRowRegion (s : State) (sub : Nat) : Bool := decide (32 - s.rows.nr.toNat ≤ subIdx sub)
/-- SUB lies in the reading room (R399). -/
def State.inReadingRoom (s : State) (sub : Nat) : Bool :=
  decide (32 - s.rows.nr.toNat - 2 * s.arc.units.toNat ≤ subIdx sub) && !s.inRowRegion sub
/-- The row set that holds a subarray and is granted (R377). -/
def State.setOf (s : State) (sub : Nat) : Option RowSet := s.rows.sets.find? fun r => !r.zeroing && r.subs.contains sub
/-- Plaintext rows: those of an allocated row set (R375). -/
def State.plainRow (s : State) (pa : Nat) : Bool := decide (pa < 2^40) && (s.setOf (subOf pa)).isSome
/-- A frame that free lists, tables, save areas and LOADDESC may use: DRAM, not retired, neither in the row region nor in the
reading room (R41, R352, R374, R399). -/
def State.goodFrame (s : State) (pa : Nat) : Bool :=
  decide (pa < 2^40) && !s.retiredSub (subOf pa) && !s.inRowRegion (subOf pa) && !s.inReadingRoom (subOf pa)

/-! ## Bytes in canonical form -/

/-- The byte at an address: zero where none is listed. -/
def cellGet (cs : List Host.Cell) (a : Nat) : Byte :=
  match cs with
  | [] => 0
  | (b, x) :: t => if b = a then x else if a < b then 0 else cellGet t a

/-- Write a byte, keeping addresses strictly rising and zero bytes unlisted. -/
def cellPut (cs : List Host.Cell) (a : Nat) (x : Byte) : List Host.Cell :=
  match cs with
  | [] => if x = 0 then [] else [(a, x)]
  | (b, y) :: t =>
    if a < b then (if x = 0 then (b, y) :: t else (a, x) :: (b, y) :: t)
    else if a = b then (if x = 0 then t else (a, x) :: t)
    else (b, y) :: cellPut t a x

/-- Write consecutive bytes. -/
def cellsPut (cs : List Host.Cell) (a : Nat) : List Byte → List Host.Cell
  | [] => cs
  | x :: xs => cellsPut (cellPut cs a x) (a + 1) xs

/-- Read `n` consecutive bytes. -/
def cellsGet (cs : List Host.Cell) (a : Nat) : Nat → List Byte
  | 0 => []
  | n + 1 => cellGet cs a :: cellsGet cs (a + 1) n

/-- Drop every byte of a range. -/
def cellsDrop (cs : List Host.Cell) (lo hi : Nat) : List Host.Cell := cs.filter fun c => decide (c.1 < lo ∨ hi ≤ c.1)

/-- The canonical form: addresses strictly rising, no zero byte. -/
def cellsWf : List Host.Cell → Bool
  | [] => true
  | [c] => c.2 != 0
  | c :: d :: t => c.2 != 0 && decide (c.1 < d.1) && cellsWf (d :: t)

/-- Insert a number into a strictly rising list. -/
def insertNat (l : List Nat) (n : Nat) : List Nat :=
  match l with
  | [] => [n]
  | x :: t => if n < x then n :: x :: t else if n = x then x :: t else x :: insertNat t n

/-! ## Sectors under a key and a version (R117) -/

def tagGet (ts : List SectorTag) (idx : Nat) : Option SectorTag :=
  match ts with
  | [] => none
  | t :: r => if t.idx = idx then some t else if idx < t.idx then none else tagGet r idx

def tagPut (ts : List SectorTag) (n : SectorTag) : List SectorTag :=
  match ts with
  | [] => [n]
  | t :: r => if n.idx < t.idx then n :: t :: r else if n.idx = t.idx then n :: r else t :: tagPut r n

/-- Layers of one sector: no two of one key, version and address, and no byte in two. -/
def layersWf : List Layer → Bool
  | [] => true
  | l :: ls => ls.all (fun m => !(m.key == l.key && m.ver == l.ver && m.sector == l.sector) && m.mask &&& l.mask == 0) && layersWf ls
/-- Tags strictly rising, each with a layer and with layers that lie apart. -/
def tagsWf : List SectorTag → Bool
  | [] => true
  | [t] => !t.layers.isEmpty && layersWf t.layers
  | t :: u :: r => !t.layers.isEmpty && layersWf t.layers && decide (t.idx < u.idx) && tagsWf (u :: r)

/-- The canonical form of memory. -/
def Memory.wf (m : Memory) : Bool := cellsWf m.cells && cellsWf m.host && tagsWf m.tags

/-- Where a physical address leads: through a POOL window to fabric address FBASE * 2^21 + x on its port (R407), numbered above every physical
address; elsewhere to itself. -/
def State.homeOf (s : State) (pa : Nat) : Nat :=
  match regionOf s pa with
  | .pool p w off => 2 ^ 80 + p * 2 ^ 64 + (natBits (wordAt s.links.pwbase (4 * p + w)).toNat 63 21 * 2 ^ 21 + off) % 2 ^ 64
  | _ => pa

/-- The tweak of a sector: physical address bits 51:5 and the version (R117). -/
def tweakOf (pa : Nat) (ver : BitVec 32) : BitVec 128 := BitVec.ofNat 128 (natBits pa 51 5 + 2 ^ 64 * ver.toNat)

/-- The layer of a key, a version and a physical address. -/
def Layer.is (l : Layer) (key : BitVec 512) (ver : BitVec 32) (pa : Nat) : Bool := l.key == some key && l.ver == ver && l.sector == pa / 32

/-- A byte of a sector read under a key and a tweak other than those of its layer (R117): the ciphertext of its 16-byte block is decrypted under them.
`bytes` are the bytes of the sector that hold. Where the layer does not cover the block, the spec gives no ciphertext of a part of a block, and the
byte is a free value of all that fixes it (notes/assumptions/12.md). -/
def Layer.wrongByte (l : Layer) (key : BitVec 512) (tweak : BitVec 128) (bytes : List Byte) (off : Nat) : Byte :=
  match l.key with
  | none => Config.freeByte l.name off
  | some k =>
    let j := off / 16
    let wtweak := tweakOf (32 * l.sector) l.ver
    let mask := l.mask.extractLsb' (16 * j) 16
    if mask = 0xFFFF#16 then (xtsDecrypt key tweak j (xtsEncrypt k wtweak j ((bytes.drop (16 * j)).take 16))).getD (off % 16) 0
    else Config.mixedByte key tweak k wtweak mask ((List.range 16).map fun i => if mask.getLsbD i then bytes.getD (16 * j + i) 0 else 0) j (off % 16)

/-- The layer that holds a byte of memory, if anything has been written there. -/
def State.layerOf (s : State) (pa : Nat) : Option Layer := (tagGet s.mem.tags (s.homeOf pa / 32)).bind fun t => t.layers.find? fun l => l.mask.getLsbD (pa % 32)

/-- A byte read under a key and a version (R117, R375, R448): the byte as it was written under them, else the decryption of its ciphertext, which is
zero where nothing has been written. -/
def State.readByte (s : State) (key : BitVec 512) (ver : BitVec 32) (pa : Nat) : Byte :=
  if s.plainRow pa then cellGet s.mem.cells pa
  else
    match s.layerOf pa with
    | none => (xtsDecrypt key (tweakOf pa ver) (pa % 32 / 16) (List.replicate 16 0)).getD (pa % 16) 0
    | some l =>
      if l.is key ver pa then cellGet s.mem.cells (s.homeOf pa)
      else l.wrongByte key (tweakOf pa ver) (cellsGet s.mem.cells (s.homeOf pa / 32 * 32) 32) (pa % 32)

/-- Bytes read under a key and a version. -/
def State.readBytes (s : State) (key : BitVec 512) (ver : BitVec 32) (pa : Nat) : Nat → List Byte
  | 0 => []
  | n + 1 => s.readByte key ver pa :: s.readBytes key ver (pa + 1) n

/-- The bits of `mask` for `n` bytes from offset `o` of a sector. -/
def maskBits (o n : Nat) : BitVec 32 := BitVec.ofNat 32 ((2 ^ n - 1) * 2 ^ o)

/-- Drop the wrong bits of a sector (R380: the stored bit stays wrong until the sector is written). -/
def dropFlips (fs : List (Nat × Nat)) (sector : Nat) : List (Nat × Nat) := fs.filter fun f => f.1 / 32 != sector

/-- Write bytes that lie within one sector (R156). Rows of a row set stay plaintext and their set becomes loaded (R375, R378). -/
def State.writeSector (s : State) (key : BitVec 512) (ver : BitVec 32) (pa : Nat) (xs : List Byte) : State :=
  if s.plainRow pa then
    { s with
      mem := { s.mem with cells := cellsPut s.mem.cells pa xs, flips := dropFlips s.mem.flips (pa / 32) },
      rows := { s.rows with sets := s.rows.sets.map fun r => if r.subs.contains (subOf pa) then { r with mark := .loaded } else r } }
  else
    { s with
      mem := { s.mem with
        cells := cellsPut s.mem.cells (s.homeOf pa) xs,
        tags := tagPut s.mem.tags (coverTag s.mem.tags (some key) ver (pa / 32) (s.homeOf pa / 32) (maskBits (pa % 32) xs.length) 0),
        flips := dropFlips s.mem.flips (pa / 32) } }
where
  /-- The layers of a sector once the bytes of `new` are written: they leave the other layers and join that of their key and version. -/
  coverTag (ts : List SectorTag) (key : Option (BitVec 512)) (ver : BitVec 32) (sector idx : Nat) (new : BitVec 32) (name : Nat) : SectorTag :=
    let ls := match tagGet ts idx with | some t => t.layers | none => []
    let mine (l : Layer) : Bool := l.key == key && l.ver == ver && l.sector == sector
    let old := match ls.find? mine with | some l => l.mask | none => 0
    { idx := idx, layers := { key := key, ver := ver, sector := sector, mask := old ||| new, name := name } ::
        (((ls.filter fun l => !mine l).map fun l => { l with mask := l.mask &&& ~~~new }).filter fun l => l.mask != 0) }

/-- Write bytes sector by sector, in ascending address; `fuel` bounds the number of sectors. -/
def State.writeBytesF (s : State) (key : BitVec 512) (ver : BitVec 32) (pa : Nat) (xs : List Byte) : Nat → State
  | 0 => s
  | fuel + 1 =>
    match xs with
    | [] => s
    | _ => (s.writeSector key ver pa (xs.take (32 - pa % 32))).writeBytesF key ver (pa + (32 - pa % 32)) (xs.drop (32 - pa % 32)) fuel

/-- Write bytes under a key and a version. -/
def State.writeBytes (s : State) (key : BitVec 512) (ver : BitVec 32) (pa : Nat) (xs : List Byte) : State :=
  s.writeBytesF key ver pa xs (xs.length + 1)

/-- Bytes of no stated value: `n` sectors lose what was known of them (notes/assumptions/12.md). -/
def State.scramble (s : State) (pa : Nat) : Nat → State
  | 0 => s
  | n + 1 =>
    let h := s.homeOf pa / 32
    State.scramble { s with fresh := s.fresh + 1, mem := { s.mem with
      cells := cellsDrop s.mem.cells (h * 32) (h * 32 + 32),
      tags := tagPut s.mem.tags { idx := h, layers := [{ key := none, ver := 0, sector := pa / 32, mask := maskBits 0 32, name := s.fresh + 1 }] } } } (pa + 32) n

/-- The tenant key of a context; a slot without a key has none to use, and the zero key stands for it. -/
def State.keyOf (s : State) (c : Nat) : BitVec 512 := (s.ctx c).key.getD 0

/-- The key of what the device writes and reads on no context's behalf in its own DRAM (notes/assumptions/13.md). -/
def deviceKey : BitVec 512 := 0

/-- Bytes that the device reads at a physical address of a host or of its own memory, on no context's behalf (R41, R369). -/
def State.sysRead (s : State) (pa n : Nat) : List Byte :=
  if regionOf s pa = .none then cellsGet s.mem.host pa n else s.readBytes deviceKey 0 pa n

/-- Bytes that the device writes there. -/
def State.sysWrite (s : State) (pa : Nat) (xs : List Byte) : State :=
  if regionOf s pa = .none then { s with mem := { s.mem with host := cellsPut s.mem.host pa xs } } else s.writeBytes deviceKey 0 pa xs

/-- The little-endian 64-bit words of a list of bytes. -/
def wordsOf : Nat → List Byte → List Word
  | 0, _ => []
  | n + 1, bs => BitVec.ofNat 64 (leNat (bs.take 8)) :: wordsOf n (bs.drop 8)

/-- The bytes of a list of words, little-endian. -/
def bytesOf (ws : List Word) : List Byte := ws.flatMap fun w => leBytes 8 w.toNat

/-- Two wrong bits in one sealed sector: an uncorrectable error (R379, R380). -/
def State.uncorrectable (s : State) (pa : Nat) : Bool :=
  !s.mem.unsealed.contains (pa / 1024) && decide (2 ≤ (s.mem.flips.filter fun f => f.1 / 32 == pa / 32).length)

/-! ## Typed buffers (R86, R139) -/

def Group.cells (g : Group) : Buf → List Host.Cell
  | .w => g.bufW
  | .a => g.bufA
  | .c => g.bufC

/-- The number of the written-line bit of a byte (R55). -/
def lineOf (b : Buf) (off : Nat) : Nat :=
  match b with
  | .w => off / 128
  | .a => 16384 + off / 128
  | .c => 24576 + off / 128

/-- Mark the lines of a run of bytes as written. -/
def markLines (ls : List Nat) (b : Buf) (off : Nat) : Nat → List Nat
  | 0 => ls
  | n + 1 => markLines (insertNat ls (lineOf b off)) b (off + 1) n

/-- Mark the lines of a run of `n` bytes, line by line. -/
def markRun (ls : List Nat) (b : Buf) (off n : Nat) : List Nat :=
  if n = 0 then ls else (List.range ((off + n - 1) / 128 - off / 128 + 1)).foldl (fun l i => insertNat l (lineOf b (off / 128 * 128 + 128 * i))) ls

/-- Write bytes of a typed buffer; their lines count as written. -/
def Group.bufWrite (g : Group) (b : Buf) (off : Nat) (xs : List Byte) : Group :=
  let ls := markRun g.lines b off xs.length
  match b with
  | .w => { g with bufW := cellsPut g.bufW off xs, lines := ls }
  | .a => { g with bufA := cellsPut g.bufA off xs, lines := ls }
  | .c => { g with bufC := cellsPut g.bufC off xs, lines := ls }

def Group.bufRead (g : Group) (b : Buf) (off n : Nat) : List Byte := cellsGet (g.cells b) off n

/-- The size of a partition in bytes (R86). -/
def State.partSize (s : State) (g : Group) (b : Buf) : Nat :=
  match s.kernel? g.kuid with
  | none => 0
  | some k => 4096 * (match b with | .w => k.wneed | .a => k.aneed | .c => k.cneed)

/-! ## Ranges (R158, R159) -/

def Range.meets (r q : Range) : Bool := decide (r.sp = q.sp) && decide (r.lo < q.hi) && decide (q.lo < r.hi)
def anyMeet (rs qs : List Range) : Bool := rs.any fun r => qs.any fun q => r.meets q

/-- Entry `i` is released. -/
def State.dropLock (s : State) (i : Nat) : State := { s with locks := s.locks.filter fun l => l.id != i }
/-- The entries held in a core's table. -/
def State.coreLocks (s : State) (c : Nat) : List Lock :=
  s.locks.filter fun l => s.groups.any fun g => g.uid == l.guid && g.core == c && decide (g.stage ≠ .saved)

/-! ## Events and rings (R369, R439) -/

/-- Write the held records that the ring has room for. -/
def State.flushRing (s : State) (r : Ring) : Nat → State × Ring
  | 0 => (s, r)
  | n + 1 =>
    match r.held with
    | [] => (s, r)
    | x :: xs =>
      if r.en && decide ((r.tail - r.head).toNat < 2 ^ r.log2n.toNat) then
        let pa := r.base.toNat * 64 + 32 * (r.tail.toNat % 2 ^ r.log2n.toNat)
        State.flushRing (s.sysWrite pa (bytesOf x)) { r with held := xs, tail := r.tail + 1 } n
      else (s, r)

/-- Post a record to the event ring of a port, and write what can be written. -/
def State.postTo (s : State) (p : Nat) (rec : List Word) : State :=
  let r := (s.window p).ring
  if !r.en && decide ((s.plat.owner.toNat) ≠ p) then s
  else
    let r1 := { r with held := r.held ++ [rec] }
    let (s1, r2) := s.flushRing r1 (r1.held.length)
    s1.modWindow p fun w => { w with ring := r2 }

/-- Post an event to the owner's ring (R439); with no owner it is kept for the next one. -/
def State.postOwner (s : State) (rec : List Word) : State :=
  if s.plat.owner.toNat < 8 then s.postTo s.plat.owner.toNat rec
  else { s with plat := { s.plat with heldEvents := s.plat.heldEvents ++ [rec] } }

/-- An event record: KIND, CID and words 1 to 3 (R439). -/
def eventRec (kind cid : Nat) (w1 w2 w3 : Word) : List Word := [BitVec.ofNat 64 (kind + 256 * cid), w1, w2, w3]

/-- Post a record to the page service (R369). -/
def State.postPage (s : State) (rec : List Word) : State :=
  let r := s.mmu.ring
  let r1 := { r with held := r.held ++ [rec] }
  let (s1, r2) := s.flushRing r1 r1.held.length
  { s1 with mmu := { s1.mmu with ring := r2 } }

/-- A page-service record (R369). -/
def pageRec (kind cid acc die entry : Nat) (w1 w2 : Word) : List Word :=
  [BitVec.ofNat 64 (kind + 2^8 * cid + 2^14 * acc + 2^16 * die + 2^32 * entry), w1, w2, 0]

/-! ## Barriers (R97 to R108) -/

/-- The generation test and the phase test (R99). After 2^15 or more completions that the waiter did not observe the rule lets the test pass or
fail; the model takes what the 16-bit formula gives there: DESIGN CHOICE, notes/assumptions/92.md. -/
def genTest (gen g : BitVec 16) (phase : Bool) : Bool :=
  if phase then gen.getLsbD 0 != g.getLsbD 0 else decide ((gen - g).toNat < 2 ^ 15)

/-- A strand in plain IDLE is woken (R345). -/
def Strand.wakeIdle (t : Strand) : Strand :=
  match t.status with
  | .waiting (.idle _) => { t with status := .waiting (.idle true) }
  | _ => t

/-- What a completion of named barrier `b` does to a waiting strand of the group (R102). -/
def Strand.onBarrier (t : Strand) (b : Nat) (bar : Bar) : Strand :=
  match t.status with
  | .waiting (.barrier b' g ph d tmo none) =>
    if b' = b ∧ genTest bar.gen g ph = true then { t with status := .waiting (.barrier b' g ph d tmo (some bar.xerr)) } else t
  | _ => t.wakeIdle

def Bar.complete (b : Bar) : Bar := { b with gen := b.gen + 1, cnt := 0, xerr := b.fail, fail := false }

/-- Record `b` of the group changes to `bar`; on a completion the waiting strands are told. -/
def Group.setBar (g : Group) (b : Nat) (bar : Bar) (completed : Bool) : Group :=
  { g with bars := g.bars.set b bar, strands := if completed then g.strands.map fun t => t.onBarrier b bar else g.strands }

def Bar.zero : Bar := { gen := 0, exp := 0, cnt := 0, xerr := false, tmo := 0, fail := false }

/-- One arrival at named barrier `b` (R101, R102). -/
def Group.arrive (g : Group) (b : Nat) (failed : Bool) : Group :=
  match g.bars[b]? with
  | none => g
  | some r =>
    let r1 := { r with fail := r.fail || failed }
    if r.cnt.toNat + 1 = r.exp.toNat then g.setBar b r1.complete true
    else g.setBar b { r1 with cnt := r1.cnt + 1 } false

/-- An engine arrival at a barrier of a group that may be gone (R100); at a saved group it waits for the restore (R105). -/
def State.engineArrive (s : State) (uid b : Nat) (failed : Bool) : State :=
  s.modGroup uid fun g => if g.stage = .saved then { g with late := g.late ++ [(b, failed)] } else g.arrive b failed

/-- The record of R98. -/
def Bar.record (b : Bar) : Word :=
  BitVec.ofNat 64 (b.gen.toNat + 2^16 * b.exp.toNat + 2^26 * b.cnt.toNat + 2^36 * b.xerr.toNat + 2^37 * b.tmo.toNat)

/-- The record read back from a save frame (R105): reserved bits are ignored, EXP 0 counts as 1. `failed`: an arrival that it counts came from
a failed transfer (R110). A full count completes. -/
def Bar.ofRecord (w : Word) (failed : Bool) : Bar :=
  let n := w.toNat
  let e := natBits n 25 16
  let b : Bar :=
    { gen := BitVec.ofNat 16 n, exp := BitVec.ofNat 10 (if e = 0 then 1 else e), cnt := BitVec.ofNat 10 (natBits n 35 26),
      xerr := natBit n 36, tmo := BitVec.ofNat 11 (natBits n 47 37), fail := failed && decide (natBits n 35 26 ≠ 0) }
  if b.exp.toNat ≤ b.cnt.toNat then b.complete else b

def SBar.complete (b : SBar) : SBar := { b with gen := b.gen + 1, cnt := 0, xerr := b.fail, fail := false }

/-- What a completion of superstep barrier `j` does to a strand of the kernel (R107). -/
def Strand.onSuperstep (t : Strand) (j : Nat) (bar : SBar) : Strand :=
  match t.status with
  | .waiting (.superstep j' g ph d none) =>
    if j' = j ∧ genTest bar.gen g ph = true then { t with status := .waiting (.superstep j' g ph d (some bar.xerr)) } else t
  | _ => t.wakeIdle

/-! ## Counters (R132) -/

/-- A counter of a strand falls; a strand in plain IDLE is woken (R345). -/
def Strand.fallL (t : Strand) : Strand := { t with kl := t.kl - 1 }.wakeIdle
def Strand.fallS (t : Strand) : Strand := { t with ks := t.ks - 1 }.wakeIdle
def Strand.fallE (t : Strand) (q : Nat) : Strand := { t with ke := modAt t.ke q fun k => k - 1 }.wakeIdle
def Strand.fallR (t : Strand) : Strand := { t with kr := t.kr - 1 }.wakeIdle
def Strand.fallC (t : Strand) : Strand := { t with kc := t.kc - 1 }.wakeIdle

/-- Every counter of the strand reads zero. -/
def Strand.quiet (t : Strand) : Bool :=
  t.kl == 0 && t.ks == 0 && t.ke.all (fun k => k == 0) && t.kr == 0 && t.kc == 0

/-! ## Ending kernels and contexts early (R82, R51, R337) -/

/-- The kernel aborts: draining with the first status set; its groups stop without being saved, saved groups are discarded (R79, R82). Entering
draining discards its pending superstep arrivals (R107). -/
def State.abortKernel (s : State) (kuid : Nat) (status : Byte) : State :=
  match s.kernel? kuid with
  | none => s
  | some k =>
    if k.stage = .draining then s
    else
      let s1 := s.modKernel kuid fun k => { k with stage := .draining, status := some (k.status.getD status) }
      let own := (s1.groups.filter fun g => g.kuid == kuid).map fun g => g.uid
      let gone := (s1.groups.filter fun g => g.kuid == kuid && decide (g.stage = .saved)).map fun g => g.uid
      { s1 with
        groups := s1.groups.map fun g => if g.kuid == kuid then { g with stage := .aborting } else g,
        ops := s1.ops.filter fun o => match o.work with
          | .barv .. => !gone.contains o.guid
          | .sstep .. => !own.contains o.guid
          | _ => true,
        arc := { s1.arc with ops := s1.arc.ops.map fun o =>
          if (s1.groups.any fun g => g.uid == o.guid && g.kuid == kuid) then { o with abort := true } else o } }

/-! ## Taking a trap (R331, R332) -/

/-- What a trap records (R334, R335). -/
structure Trap where
  cause : BitVec 8
  detail : BitVec 4
  acc : BitVec 2
  async : Bool
  tval : Word
  deriving DecidableEq, Repr

/-- TCAUSE of a trap (R335). -/
def Trap.word (t : Trap) : Word :=
  BitVec.ofNat 64 (t.cause.toNat + 2^8 * t.detail.toNat + 2^12 * t.acc.toNat + 2^14 * t.async.toNat)

/-- A synchronous trap without a memory access. -/
def trapOf (cause : BitVec 8) (detail : BitVec 4) (tval : Word) : Trap :=
  { cause := cause, detail := detail, acc := 0, async := false, tval := tval }

/-- Trap entry of R331 where it is not fatal: the saved registers, H, and PC; the instruction buffer is refilled (R201). -/
def Strand.enter (t : Strand) (c : Trap) (resume : Word) : Strand :=
  { t with tpc := resume, tcause := c.word, tval := c.tval, torg := resume, h := true, pc := t.tvec, ibuf := [], status := .ready }

/-- The trap is fatal (R331). -/
def Strand.fatal (t : Strand) : Bool := t.h || (t.tvec.extractLsb' 2 55 == 0#55)

/-- A fatal strand trap (R332): the strand ends, its kernel aborts with status 0x04, and the owner hears of it. R439 gives the event no word for the
strand's P and TAG, which R332 also names: they are not in it (DESIGN CHOICE, notes/assumptions/105.md). -/
def State.fatalTrap (s : State) (uid k : Nat) (c : Trap) : State :=
  match s.group? uid with
  | none => s
  | some g =>
    let s1 := s.modStrand uid k fun t => { t with status := .ended }
    let qt := match s.kernel? g.kuid with | some kr => kr.qid | none => 0
    (s1.postOwner (eventRec 0x04 g.cid c.word c.tval (BitVec.ofNat 64 (g.l % 2^52 + 2^56 * qt)))).abortKernel g.kuid 0x04

/-- A trap raised in strand `k` of a group, with the resume address of R334: entry into the handler, or the end of the strand. -/
def State.takeTrap (s : State) (uid k : Nat) (c : Trap) (resume : Word) : State :=
  match s.strand? uid k with
  | none => s
  | some t => if t.fatal then s.fatalTrap uid k c else s.modStrand uid k fun t => t.enter c resume

/-- Return from the handler (R342): TRET with H = 1. A bad target raises the jump-target trap at once, with H = 0. -/
def Strand.leave (t : Strand) : Strand :=
  let t1 := if t.tpc ≠ t.torg then { t with vs := 0, ri := 0 } else t
  { t1 with h := false, pc := t1.tpc, ibuf := [] }

/-- Bits 1:0 or 63:57 of an instruction address are nonzero (R221, R342). -/
def badTarget (a : Word) : Bool := a.extractLsb' 0 2 != 0#2 || a.extractLsb' 57 7 != 0#7

/-! ## Running an instruction of a strand -/

/-- How an instruction of a strand ends. -/
inductive Eff (σ : Type) where
  /-- It completes; the next instruction follows. -/
  | done (s : σ)
  /-- It completes and the next instruction lies at `pc`: a refill event (R201). -/
  | jump (s : σ) (pc : Word)
  /-- It completes and another event decided where the strand goes on. -/
  | settled (s : σ)
  /-- A trap with the instruction's own address as resume address. -/
  | trap (s : σ) (c : Trap)
  /-- A trap with the address of the next instruction as resume address. -/
  | trapNext (s : σ) (c : Trap)

def Eff.map {σ τ : Type} (f : σ → τ) : Eff σ → Eff τ
  | .done s => .done (f s)
  | .jump s pc => .jump (f s) pc
  | .settled s => .settled (f s)
  | .trap s c => .trap (f s) c
  | .trapNext s c => .trapNext (f s) c

/-- The bits of an address that PC holds, 56:2; the others are read-only and read as zero (R5, R122). -/
def pcMask : Word := 0x01FFFFFFFFFFFFFC
/-- The address `len` bytes on, as PC holds it (notes/assumptions/94.md). -/
def nextPc (pc len : Word) : Word := (pc + len) &&& pcMask

/-- The instruction of strand `k` ends: PC moves, or a trap is taken. `len` is the length of the instruction, `pc` its address. -/
def State.finish (uid k : Nat) (pc : Word) (len : Word) : Eff State → State
  | .done s => s.modStrand uid k fun t => { t with pc := nextPc pc len }
  | .jump s a => s.modStrand uid k fun t => { t with pc := a &&& pcMask, ibuf := [] }
  | .settled s => s
  | .trap s c => s.takeTrap uid k c pc
  | .trapNext s c => s.takeTrap uid k c (nextPc pc len)

/-- The meaning of an instruction of the strand that acts, from its effect on the device. -/
def runM (f : Nat → Nat → Group → Strand → State → Eff State) (s : State) : Res :=
  match s.cur? with
  | none => .fault .noStrand
  | some (uid, k, g, t) => .next (State.finish uid k t.pc 4 (f uid k g t s))

/-- The effect on the device of an effect on the strand alone. -/
def liftS (f : Strand → Eff Strand) (uid k : Nat) (_ : Group) (t : Strand) (s : State) : Eff State :=
  (f t).map fun t' => s.modStrand uid k fun _ => t'

/-- The meaning of an instruction that reads and writes only the registers of the strand that acts. -/
def runS (f : Strand → Eff Strand) (s : State) : Res := runM (liftS f) s

/-! ## Scalar and vector registers (R123, R125) -/

/-- The whole of vN. -/
def Strand.vreg (t : Strand) (r : BitVec 6) : VReg := t.v.getD r.toNat 0
/-- xN: bits 63:0 of vN. -/
def Strand.x (t : Strand) (r : BitVec 6) : Word := (t.vreg r).extractLsb' 0 64
/-- Write vN and set its DM bit (R133). -/
def Strand.setV (t : Strand) (r : BitVec 6) (val : VReg) : Strand :=
  { t with v := t.v.set r.toNat val, dm := t.dm ||| BitVec.ofNat 48 (2 ^ r.toNat) }
/-- Write xN: bits 8191:64 of vN stay, and its DM bit is set (R125, R133). -/
def Strand.setX (t : Strand) (r : BitVec 6) (val : Word) : Strand :=
  t.setV r ((t.vreg r).extractLsb' 64 8128 ++ val)
/-- Write xN as the result of an instruction whose DM bit was set at its issue (R133, R257). -/
def Strand.landX (t : Strand) (r : BitVec 6) (val : Word) : Strand :=
  { t with v := t.v.set r.toNat ((t.vreg r).extractLsb' 64 8128 ++ val) }
/-- Mask mN. -/
def Strand.mask (t : Strand) (r : BitVec 6) : Bits1024 := t.m.getD r.toNat 0
def Strand.setM (t : Strand) (r : BitVec 6) (val : Bits1024) : Strand := { t with m := t.m.set r.toNat val }
/-- Nest register nN. -/
def Strand.nest (t : Strand) (r : Nat) : Bits1024 := t.n.getD r 0
def Strand.setN (t : Strand) (r : Nat) (val : Bits1024) : Strand := { t with n := t.n.set r val }
/-- OR flags into ST (R130). -/
def Strand.flag (t : Strand) (f : BitVec 6) : Strand := { t with st := t.st ||| f }

/-- Fields of MD (R128). -/
def mdGuard (md : BitVec 20) : Nat := natBits md.toNat 3 0
def mdSense (md : BitVec 20) : Bool := md.getLsbD 4
def mdType (md : BitVec 20) : Nat := natBits md.toNat 9 5
def mdRound (md : BitVec 20) : Nat := natBits md.toNat 12 10
def mdSat (md : BitVec 20) : Bool := md.getLsbD 13
def mdDzt (md : BitVec 20) : Bool := md.getLsbD 14
def mdSh (md : BitVec 20) : Bool := md.getLsbD 15
/-- Every field of a mode word holds an allocated value (R128, R129). -/
def mdOk (md : BitVec 20) : Bool :=
  decide (mdGuard md ≤ 12) && decide (mdType md < 16) && decide (mdRound md ≤ 5) && decide (natBits md.toNat 19 16 = 0)

end Sys2Proof.Machine
end

