-- ==== Sys2Proof/Machine/Operands.lean ====
section
/-!
DEFINITION. The operand forms: element types (R124, R164), elements of vector registers (R123), active elements (R126), the typed
scalar alias (R125), the class checks of R207, and the element loop of R205.
-/
namespace Sys2Proof.Machine

open Sys2Proof

/-! ## Element types -/

/-- The width w of an element type code (R124). -/
def tyWidth (ty : Nat) : Nat :=
  match ty with
  | 0 => 8 | 1 => 16 | 2 => 32 | 3 => 64
  | 4 => 8 | 5 => 16 | 6 => 32 | 7 => 64
  | 8 => 16 | 9 => 16 | 10 => 32 | 11 => 64
  | _ => 8
/-- The element capacity CAP (R124). -/
def tyCap (ty : Nat) : Nat := 8192 / tyWidth ty
/-- The s types (R164). -/
def tySigned (ty : Nat) : Bool := decide (ty < 4)
/-- The integer types (R164). -/
def tyInt (ty : Nat) : Bool := decide (ty < 8)
/-- The Bits class of R207: every type except l6 and t2. -/
def tyBits (ty : Nat) : Bool := decide (ty < 14)
/-- The floating formats of R166. -/
def tyFloat (ty : Nat) : Bool := decide (8 ≤ ty ∧ ty ≤ 13)
/-- The bits of an element that its format uses: l6 and t2 stand in byte containers (R124). -/
def tyCode (ty : Nat) : Nat := if ty = 14 then 6 else if ty = 15 then 2 else tyWidth ty
def tyMin (ty : Nat) : Int := if tySigned ty then -(2 ^ (tyWidth ty - 1) : Nat) else 0
def tyMax (ty : Nat) : Int := if tySigned ty then (2 ^ (tyWidth ty - 1) : Nat) - 1 else (2 ^ tyWidth ty : Nat) - 1
/-- The integer that w raw bits hold under an integer type. -/
def tyRead (ty n : Nat) : Int := if tySigned ty then natSigned (tyWidth ty) n else (n % 2 ^ tyWidth ty : Nat)

/-- w raw bits as a typed scalar result (R125). -/
def extScalar (ty n : Nat) : Word :=
  if tySigned ty then BitVec.ofNat 64 (intWrap 64 (natSigned (tyWidth ty) n)) else BitVec.ofNat 64 (n % 2 ^ tyWidth ty)

/-! ## Elements -/

/-- Element `i` of width `w` (R123). -/
def elem (w : Nat) (r : VReg) (i : Nat) : Nat := (r.toNat >>> (w * i)) % 2 ^ w

/-- Replace element `i` of width `w`; an element beyond the register changes nothing. -/
def setElem (w : Nat) (r : VReg) (i : Nat) (x : Nat) : VReg :=
  BitVec.ofNat 8192 (r.toNat - (elem w r i) * 2 ^ (w * i) + (x % 2 ^ w) * 2 ^ (w * i))

/-- Replace one bit of a mask register. -/
def setBit (m : Bits1024) (i : Nat) (b : Bool) : Bits1024 :=
  if b then m ||| BitVec.ofNat 1024 (2 ^ i) else m &&& ~~~ (BitVec.ofNat 1024 (2 ^ i))

/-! ## Length, shape and guard (R126) -/

def Strand.ty (t : Strand) : Nat := mdType t.md
def Strand.w (t : Strand) : Nat := tyWidth t.ty
def Strand.cap (t : Strand) : Nat := tyCap t.ty
def Strand.area (t : Strand) : Nat := t.vrows.toNat * t.vcols.toNat
/-- The shape trap of R126 falls due. -/
def Strand.shapeBad (t : Strand) : Bool := mdSh t.md && decide (t.cap < t.area)
/-- EL as R126 forms it, after the shape trap. -/
def Strand.el (t : Strand) : Nat := if mdSh t.md then t.area else Nat.min t.vl.toNat t.cap
/-- EL as R214 forms it, without the shape trap. -/
def Strand.elM (t : Strand) : Nat := Nat.min (if mdSh t.md then t.area else t.vl.toNat) t.cap
/-- The guard selects index `i`. -/
def Strand.guard (t : Strand) (i : Nat) : Bool :=
  mdGuard t.md == 0 || ((t.m.getD (mdGuard t.md - 1) 0).getLsbD i != mdSense t.md)
/-- Element `i` is active (R126). -/
def Strand.active (t : Strand) (i : Nat) : Bool := decide (i < t.el) && t.guard i

/-! ## Checks before the effect -/

def modeTrap (t : Strand) (detail : BitVec 4) : Trap := trapOf 0x02 detail (t.md.setWidth 64)
def shapeTrap (t : Strand) : Trap := trapOf 0x04 0 (BitVec.ofNat 64 t.area)

/-- Step 8 of R200 for an instruction that reads MD: a restored reserved value (R129), then a type that its class does not accept
(R207). -/
def withType (ok : Nat → Bool) (t : Strand) (f : Eff Strand) : Eff Strand :=
  if !mdOk t.md then .trap t (modeTrap t 5) else if !ok t.ty then .trap t (modeTrap t 2) else f

/-- The shape trap of a vector form (R126). -/
def withShape (t : Strand) (f : Eff Strand) : Eff Strand := if t.shapeBad then .trap t (shapeTrap t) else f

/-! ## The element loop (R205) -/

/-- What the elements of one instruction share: the flags raised so far, and the generators of SR (R174). -/
structure Lanes where
  flags : BitVec 6
  gens : List (BitVec 32)
  deriving DecidableEq, Repr

/-- Run `n` elements from index `i`; an active element takes the bits that `f` gives, the others keep theirs. -/
def elemLoop (w : Nat) (act : Nat → Bool) (f : Nat → Lanes → Nat × Lanes) : Nat → Nat → VReg → Lanes → VReg × Lanes
  | 0, _, d, l => (d, l)
  | n + 1, i, d, l =>
    if act i then
      let (x, l') := f i l
      elemLoop w act f n (i + 1) (setElem w d i x) l'
    else elemLoop w act f n (i + 1) d l

/-- A vector form: D's active elements take what `f` gives; flags are ORed into ST. -/
def vecForm (t : Strand) (d : BitVec 6) (f : Nat → Lanes → Nat × Lanes) : Strand :=
  let (v, l) := elemLoop t.w t.active f t.el 0 (t.vreg d) { flags := 0, gens := t.gens }
  { (t.setV d v).flag l.flags with gens := l.gens }

/-- A typed scalar form (R206): w bits in, a typed scalar result out. -/
def scalarForm (t : Strand) (d : BitVec 6) (f : Lanes → Nat × Lanes) : Strand :=
  let (x, l) := f { flags := 0, gens := t.gens }
  { (t.setX d (extScalar t.ty x)).flag l.flags with gens := l.gens }

/-- Operand B of element `i`: a broadcast scalar when X = 1 (R205). -/
def Strand.opB (t : Strand) (b : BitVec 6) (x : BitVec 1) (i : Nat) : Nat :=
  if x == 1#1 then (t.x b).toNat % 2 ^ t.w else elem t.w (t.vreg b) i

/-- The two forms of a typed three-operand instruction: `op old a b` on w raw bits. -/
def typed3 (ok : Nat → Bool) (d a b : BitVec 6) (s x : BitVec 1) (op : Strand → Nat → Nat → Nat → Nat → Lanes → Nat × Lanes)
    (t : Strand) : Eff Strand :=
  withType ok t <|
    if s == 1#1 then
      .done (scalarForm t d fun l => op t 0 ((t.x d).toNat % 2 ^ t.w) ((t.x a).toNat % 2 ^ t.w) ((t.x b).toNat % 2 ^ t.w) l)
    else
      withShape t <| .done (vecForm t d fun i l => op t i (elem t.w (t.vreg d) i) (elem t.w (t.vreg a) i) (t.opB b x i) l)

/-- The two forms of a typed two-operand instruction (no B). -/
def typed2 (ok : Nat → Bool) (d a : BitVec 6) (s : BitVec 1) (op : Strand → Nat → Nat → Lanes → Nat × Lanes) (t : Strand) : Eff Strand :=
  typed3 ok d a a s 0#1 (fun t i _ x _ l => op t i x l) t

/-- The lane that element `i` of width `w` draws from (R174). -/
def laneOf (w i : Nat) : Nat := i * w % 2048 / 64

end Sys2Proof.Machine
end

