-- ==== Sys2Proof/Machine/Flags.lean ====
section
/-!
DEFINITION. The ST flags (R175) and the arithmetic that raises them: fitting an integer (R164), integer division (R183), and the draw
of stochastic rounding (R174).
-/
namespace Sys2Proof.Machine

open Sys2Proof

/-- The flags of ST by bit (R122). -/
def fDZ : BitVec 6 := 1
def fNV : BitVec 6 := 2
def fOF : BitVec 6 := 4
def fUF : BitVec 6 := 8
def fNX : BitVec 6 := 16
def fSAT : BitVec 6 := 32

def Lanes.raise (l : Lanes) (f : BitVec 6) : Lanes := { l with flags := l.flags ||| f }
def Lanes.raiseIf (l : Lanes) (c : Bool) (f : BitVec 6) : Lanes := if c then l.raise f else l

/-- Fit an exact integer to an integer type (R164): wrap, or clamp with SAT. -/
def fitInt (sat : Bool) (ty : Nat) (z : Int) (l : Lanes) : Nat × Lanes :=
  if sat && (decide (z < tyMin ty) || decide (tyMax ty < z)) then
    (intWrap (tyWidth ty) (if z < tyMin ty then tyMin ty else tyMax ty), l.raise fSAT)
  else (intWrap (tyWidth ty) z, l)

/-- The quotient and remainder of R183. -/
def divRem (ty : Nat) (a b : Int) : Int × Int :=
  if b = 0 then ((if tySigned ty then -1 else tyMax ty), a)
  else if tySigned ty ∧ a = tyMin ty ∧ b = -1 then (tyMin ty, 0)
  else (Int.tdiv a b, Int.tmod a b)

/-- One draw of a generator (R174): the new state. -/
def srNext (g : BitVec 32) : BitVec 32 :=
  let g1 := g ^^^ (g <<< 13)
  let g2 := g1 ^^^ (g1 >>> 17)
  g2 ^^^ (g2 <<< 5)

/-- Draw 16 bits from generator `k`. -/
def Lanes.draw (l : Lanes) (k : Nat) : Nat × Lanes :=
  let g := srNext (l.gens.getD k 1)
  (g.toNat % 2 ^ 16, { l with gens := l.gens.set k g })

/-- The seed of generator `k` of a strand (R174). -/
def srSeed (lidx snum k restores : Nat) : BitVec 32 :=
  let g := (BitVec.ofNat 32 lidx * 0x9E3779B9#32) ^^^ (BitVec.ofNat 32 snum <<< 24) ^^^ (BitVec.ofNat 32 k <<< 16) ^^^
    (BitVec.ofNat 32 restores * 0x85EBCA6B#32)
  if g = 0 then 1 else g

/-- The 36 generators of a strand at a placement or a restore. -/
def srSeeds (lidx snum restores : Nat) : List (BitVec 32) := (List.range 36).map fun k => srSeed lidx snum k restores

end Sys2Proof.Machine
end

