-- ==== Sys2Proof/Machine/Cache.lean ====
section
/-!
DEFINITION. The caches of the compute dies: the L2s with their re-reference values (R139, R141) and the last-level caches with their counters
(R9, R142, R338, R418). They hold lines and no data, since no value depends on them; and the banks that an access past them keeps busy (R383).
-/
namespace Sys2Proof.Machine

open Sys2Proof

/-- The lowest number below `n` that is not in a list. -/
def lowestFree (used : List Nat) (n : Nat) : Option Nat := (List.range n).find? fun i => !used.contains i

/-! ## The L2s (R141) -/

/-- The compute die whose L2 the accesses of a core pass through: a stack core uses that of die s div 2 (R139). -/
def l2DieOf (core : Nat) : Nat := if core < 96 then core / 12 else (core - 96) / 4 / 2

/-- The line of a context and a version, in the L2 of a die. -/
def L2Line.is (x : L2Line) (die cid : Nat) (ver : BitVec 32) (line : Nat) : Bool := x.die == die && x.line == line && x.cid == cid && x.ver == ver
/-- A line of one set of the L2 of a die. -/
def L2Line.inSet (x : L2Line) (die : Nat) (set : Fin 49152) : Bool := x.die == die && Config.l2Set x.line == set

/-- Make room for a line in a set that is full: where no way has RRV 7 every line of the set gains as much as brings the greatest to 7, and the
lowest-numbered way with 7 is the victim (R141). The way that is free, and the lines that stay. -/
def l2Evict (die : Nat) (set : Fin 49152) (ls : List L2Line) : Nat × List L2Line :=
  let top := (ls.filter fun x => x.inSet die set).foldl (fun m x => Nat.max m x.rrv.toNat) 0
  let aged := ls.map fun x => if x.inSet die set then { x with rrv := x.rrv + BitVec.ofNat 3 (7 - top) } else x
  let way := ((List.range 16).find? fun w => aged.any fun x => x.inSet die set && x.way == w && x.rrv == 7).getD 0
  (way, aged.filter fun x => !(x.inSet die set && x.way == way))

/-- Install a line with an RRV: in the lowest free way of its set (DESIGN CHOICE, notes/assumptions/110.md), else in the victim's. -/
def l2Install (die line cid : Nat) (ver : BitVec 32) (dist : BitVec 3) (ls : List L2Line) : List L2Line :=
  let set := Config.l2Set line
  match lowestFree ((ls.filter fun x => x.inSet die set).map fun x => x.way) 16 with
  | some w => { die := die, line := line, way := w, cid := cid, ver := ver, rrv := dist } :: ls
  | none =>
    let (w, rest) := l2Evict die set ls
    { die := die, line := line, way := w, cid := cid, ver := ver, rrv := dist } :: rest

/-- What an access does to the L2s (R117, R141): a hit takes the lesser RRV, a miss installs the line, DIST 7 does neither; a line of another context or
version is written back and dropped. -/
def l2Touch (die line cid : Nat) (ver : BitVec 32) (dist : BitVec 3) (ls : List L2Line) : List L2Line :=
  let mine := ls.filter fun x => x.line != line || (x.cid == cid && x.ver == ver)
  if mine.any fun x => x.is die cid ver line then
    mine.map fun x => if x.is die cid ver line && decide (dist ≠ 7) && decide (dist.toNat < x.rrv.toNat) then { x with rrv := dist } else x
  else if dist = 7 then mine
  else l2Install die line cid ver dist mine

/-! ## The last-level caches (R9, R142, R418) -/

/-- Put a line in the last-level cache of its die. Which line a miss evicts, and whether it does before the cache is full, is not stated. -/
def llcInstall (n : Nat) (l : LlcLine) (ls : List LlcLine) : List LlcLine :=
  let mine := ls.filter fun x => x.die == l.die && x.line != l.line
  let rest := ls.filter fun x => x.die != l.die
  let v := Config.freeNat n
  l :: ((if v < mine.length ∨ 2 ^ 22 ≤ mine.length + 1 then mine.eraseIdx (v % mine.length) else mine) ++ rest)

/-- How an access goes through the caches: the compute die whose L2 it passes, if any; whether that may serve it, and whether it does so at once; the
re-reference value that it installs the line with, 7 for none. -/
structure CacheWay where
  l2 : Option Nat
  may : Bool
  must : Bool
  dist : BitVec 3
  deriving DecidableEq, Repr

/-- A load or another access that returns data, by scope and DIST (R143): its die's L2 serves it at group scope where it holds the line, may do so at
device scope, and passes it on at system scope. -/
def CacheWay.load (core : Nat) (scope : BitVec 2) (dist : BitVec 3) : CacheWay :=
  { l2 := some (l2DieOf core), may := decide (scope ≠ 2), must := decide (scope = 0), dist := dist }
/-- A store: it goes through to the home (R144). -/
def CacheWay.store (core : Nat) (dist : BitVec 3) : CacheWay := { l2 := some (l2DieOf core), may := false, must := false, dist := dist }
/-- An access of a unit that passes no L2 and installs no line (R141). -/
def CacheWay.unit : CacheWay := { l2 := none, may := false, must := false, dist := 7 }
/-- An access of a host, of another module or of the dispatcher, for which R141 gives no rule: whether it installs a line in the last-level cache is
free (notes/assumptions/110.md). -/
def CacheWay.other (n : Nat) : CacheWay := { l2 := none, may := false, must := false, dist := (Config.freeWord n).setWidth 3 }
/-- A fetch or a walk read, for which R141 gives no rule: the RRV is free. -/
def CacheWay.code (die n : Nat) : CacheWay := { l2 := some die, may := true, must := false, dist := (Config.freeWord n).setWidth 3 }

/-- What the caches make of an access to a line. -/
structure CacheFate where
  /-- It reaches the last-level cache of this compute die. -/
  reaches : Bool
  hit : Bool
  deriving DecidableEq, Repr

/-- Where an access to a line is served: by the L2, by the last-level cache of compute die STK div 2, or past it. -/
def State.cacheFate (s : State) (w : CacheWay) (cid : Nat) (ver : BitVec 32) (line : Nat) : CacheFate :=
  let held := match w.l2 with | some d => s.l2.any fun x => x.is d cid ver line | none => false
  { reaches := decide (line < 2 ^ 33) && !(held && w.may && (w.must || Config.freeBool s.fresh)),
    hit := s.llc.contains { die := stkOf (128 * line) / 2, line := line, cid := cid, ver := ver } }

/-- The last-level caches after an access. -/
def State.llcAfter (s : State) (w : CacheWay) (cid : Nat) (ver : BitVec 32) (line : Nat) : List LlcLine :=
  let f := s.cacheFate w cid ver line
  if f.reaches then
    (if f.hit then s.llc
     else if w.dist = 7 then s.llc.filter fun x => x.line != line
     else llcInstall (s.fresh + 1) { die := stkOf (128 * line) / 2, line := line, cid := cid, ver := ver } s.llc)
  else s.llc

/-- Add one to a word of a list if `b`. -/
def countIf (b : Bool) (d : Nat) (l : List Word) : List Word := modAt l d fun n => if b then n + 1 else n

/-- The bank counts as busy for a while (R383). -/
def addTail (b : Nat × Nat × Nat) (ts : List ((Nat × Nat × Nat) × Nat)) : List ((Nat × Nat × Nat) × Nat) :=
  (b, 0) :: ts.filter fun t => decide (t.1 ≠ b)
/-- An access to a bank of a row stack has ended. -/
def State.bankUsed (s : State) (pa : Nat) : State :=
  if pa < 2 ^ 40 then { s with rows := { s.rows with tails := addTail (stkOf pa, pchOf pa, bankOf pa) s.rows.tails } } else s

/-- An access to a line: what the L2 does, what the last-level cache does, the counts of the context on that die, and the bank that a miss uses. -/
def State.cacheLine (s : State) (w : CacheWay) (cid : Nat) (ver : BitVec 32) (line : Nat) : State :=
  let f := s.cacheFate w cid ver line
  let d := stkOf (128 * line) / 2
  { s with
    fresh := s.fresh + 2,
    l2 := match w.l2 with
      | some die => l2Touch die line cid ver w.dist s.l2
      | none => s.l2.filter fun x => x.line != line || (x.cid == cid && x.ver == ver),
    llc := s.llcAfter w cid ver line,
    contexts := modAt s.contexts cid fun c => { c with llhit := countIf (f.reaches && f.hit) d c.llhit, llmiss := countIf (f.reaches && !f.hit) d c.llmiss },
    rows := { s.rows with tails := if f.reaches && !f.hit then addTail (stkOf (128 * line), pchOf (128 * line), bankOf (128 * line)) s.rows.tails else s.rows.tails } }

/-- Accesses to consecutive lines. -/
def State.cacheLines (s : State) (w : CacheWay) (cid : Nat) (ver : BitVec 32) (line : Nat) : Nat → State
  | 0 => s
  | n + 1 => (s.cacheLine w cid ver line).cacheLines w cid ver (line + 1) n
/-- An access to `n` bytes at a physical address. No cache of the issuing module holds a line of another module (R410). -/
def State.cacheSpan (s : State) (w : CacheWay) (cid : Nat) (ver : BitVec 32) (pa n : Nat) : State :=
  if n = 0 then s
  else match regionOf s pa with
    | .remote .. => s
    | _ => s.cacheLines w cid ver (pa / 128) ((pa + n - 1) / 128 - pa / 128 + 1)

/-- The lines of `n` bytes. -/
def lineCount (pa n : Nat) : Nat := (pa + n + 127) / 128 - pa / 128
/-- The transfers of a save or a restore, as DIST 7 at system scope and version 0 (R141, R143): they install nothing. -/
def State.cacheBulk (s : State) (cid : Nat) (spans : List (Nat × Nat)) : State :=
  let within (line : Nat) : Bool := spans.any fun (pa, n) => decide (pa / 128 ≤ line) && decide (line < (pa + n + 127) / 128)
  let hits := (s.llc.filter fun l => l.cid == cid && l.ver == 0 && within l.line).length
  let all := spans.foldl (fun m (pa, n) => m + lineCount pa n) 0
  let d := match spans.head? with | some (pa, _) => stkOf pa / 2 | none => 0
  { s with
    l2 := s.l2.filter fun x => !within x.line || (x.cid == cid && x.ver == 0),
    llc := s.llc.filter fun x => !within x.line || (x.cid == cid && x.ver == 0),
    contexts := modAt s.contexts cid fun c => { c with
      llhit := modAt c.llhit d fun n => n + BitVec.ofNat 64 hits, llmiss := modAt c.llmiss d fun n => n + BitVec.ofNat 64 (all - hits) } }

/-- The last-level caches lose the lines that `p` names. -/
def State.dropLines (s : State) (p : LlcLine → Bool) : State := { s with llc := s.llc.filter fun l => !p l }
/-- Every L2 loses the lines that `p` names, by line and context. -/
def State.dropL2 (s : State) (p : Nat → Nat → Bool) : State := { s with l2 := s.l2.filter fun x => !p x.line x.cid }
/-- Every cache does. -/
def State.dropCached (s : State) (p : Nat → Nat → Bool) : State := (s.dropLines fun l => p l.line l.cid).dropL2 p

end Sys2Proof.Machine
end

