-- ==== Sys2Proof/Machine/Mmu.lean ====
section
/-!
DEFINITION. The page (spec/21_page.md R352 to R370): page-table entries, the walk and the caches of translations, served faults,
frame counts and free-frame lists, and the remote windows of R410.
-/
namespace Sys2Proof.Machine

open Sys2Proof

/-! ## Page-table entries (R353, R354) -/

def pteV (e : Word) : Bool := e.getLsbD 0
def pteLeaf (e : Word) : Bool := e.getLsbD 1
def pteW (e : Word) : Bool := e.getLsbD 2
def pteX (e : Word) : Bool := e.getLsbD 3
def pteA (e : Word) : Bool := e.getLsbD 4
def pteD (e : Word) : Bool := e.getLsbD 5
def pteCont (e : Word) : Bool := e.getLsbD 6
def pteCow (e : Word) : Bool := e.getLsbD 7
def pteTier (e : Word) : Nat := natBits e.toNat 9 8
/-- FRAME as a physical address. -/
def pteAddr (e : Word) : Nat := natBits e.toNat 51 12 * 4096
def ptePrio (e : Word) : Nat := natBits e.toNat 55 52
/-- Replace bits `hi:lo` of a word. -/
def putBits (e : Word) (hi lo v : Nat) : Word :=
  BitVec.ofNat 64 (e.toNat - natBits e.toNat hi lo * 2 ^ lo + v % 2 ^ (hi + 1 - lo) * 2 ^ lo)
def pteSetFrame (e : Word) (pa : Nat) : Word := putBits e 51 12 (pa / 4096)
def pteSetTier (e : Word) (t : Nat) : Word := putBits e 9 8 t
def pteSetA (e : Word) : Word := e ||| 0x10
def pteSetD (e : Word) : Word := e ||| 0x20
def pteClrD (e : Word) : Word := e &&& ~~~0x20
def pteClrCont (e : Word) : Word := e &&& ~~~0x40
def pteSetCow (e : Word) : Word := e ||| 0x80
def pteClrCow (e : Word) : Word := e &&& ~~~0x80

/-- The checks of R354 at a level fail. -/
def reservedBad (e : Word) (lv : Nat) : Bool :=
  decide (natBits e.toNat 63 56 ≠ 0) || decide (natBits e.toNat 11 10 ≠ 0) ||
  (if pteLeaf e then
    decide (3 ≤ lv) ||
    (decide (lv = 2) && (pteCont e || pteCow e || decide (pteTier e = 3) || decide (natBits e.toNat 20 12 ≠ 0))) ||
    (decide (pteTier e = 2) && (pteCow e || decide (natBits e.toNat 51 45 ≠ 0)))
  else decide (lv = 1) || decide (natBits e.toNat 9 2 ≠ 0) || decide (natBits e.toNat 55 52 ≠ 0))

/-! ## The archive's side of a leaf (R362, R389) -/

/-- The programmed page at an archive address. -/
def State.arcPage? (s : State) (a : Nat) : Option ArcPage :=
  s.arc.pages.find? fun p => decide (natBits a 51 44 = 0) && decide (p.ast = natBits a 43 41) && decide (p.lpg = natBits a 40 14)
def State.version? (s : State) (vid : Nat) : Option Version := s.arc.versions.find? fun v => v.id == vid
/-- The archive address lies in a block that the context installed. -/
def State.archiveOwned (s : State) (cid a : Nat) : Bool :=
  match (s.arcPage? a).bind fun p => s.version? p.vid with
  | some v => v.cid == cid && (decide (v.state = .installed) || decide (v.state = .old))
  | none => false
/-- The staged copy of an archive page, once it is written. -/
def State.staged? (s : State) (a : Nat) : Option Staged := s.arc.staged.find? fun t => t.ready && decide (t.page = a / 16384)
/-- The physical address of a byte of a staged copy: the four frames of a slot are consecutive frames of one subarray (R399). -/
def Staged.pa (t : Staged) (a : Nat) : Nat := t.frame + a % 16384 / 4096 * 2 ^ 24 + a % 4096

/-! ## Leaves (R355, R374, R399, R405) -/

/-- The kind of an access: fetch, read or write, numbered as ACC of R335. -/
inductive Acc where
  | fetch | read | write
  deriving DecidableEq, Repr

def Acc.code : Acc → BitVec 2
  | .fetch => 1
  | .read => 2
  | .write => 3

/-- What a translation gives. -/
inductive Xlat where
  | ok (pa : Nat)
  /-- A trapping fault: cause and detail (R334). -/
  | trap (cause : BitVec 8) (detail : BitVec 4)
  /-- A served fault (R336). -/
  | served (code : Byte)
  /-- The walk met an error that is fatal to the context (R337): reason, detail, physical address. -/
  | dead (reason detail pa : Nat)
  deriving DecidableEq, Repr

/-- A DRAM address that the context may use: not retired, not in the reading room, in the row region only within its own row sets. -/
def State.dramOk (s : State) (cid pa : Nat) : Bool :=
  decide (pa < 2 ^ 40) && !s.retiredSub (subOf pa) && !s.inReadingRoom (subOf pa) &&
  (!s.inRowRegion (subOf pa) || (match s.setOf (subOf pa) with | some r => r.cid == cid && !r.freeing | none => false))

/-- The frame check of R355 for a byte at a leaf's own address. -/
def State.frameOk (s : State) (cid tier pa : Nat) : Bool :=
  match tier with
  | 0 => s.dramOk cid pa
  | 1 => match regionOf s pa with | .pool .. => true | .remote .. => true | _ => false
  | _ => s.archiveOwned cid pa

/-- The function Leaf of R355, without the setting of A and D. -/
def State.leafOutcome (s : State) (cid : Nat) (e : Word) (lv : Nat) (va : Nat) (kind : Acc) : Xlat :=
  let a := pteAddr e + va % (if lv = 2 then 2 ^ 21 else 2 ^ 12)
  if pteTier e = 3 then .served 0x42
  else if !s.frameOk cid (pteTier e) a then .trap 0x0B 0
  else if kind = .fetch ∧ pteX e = false then .trap 0x09 0
  else if kind = .write ∧ (pteW e = false ∨ pteTier e = 2) then .trap 0x09 0
  else if pteTier e = 2 then
    match s.staged? a with
    | none => .served 0x41
    | some t => .ok (t.pa a)
  else if kind = .write ∧ pteCow e = true then .served 0x43
  else .ok a

/-! ## The walk (R352, R355) -/

/-- A trapping fault. -/
def Xlat.traps : Xlat → Bool
  | .trap _ _ => true
  | _ => false

/-- What the tables hold for an address. -/
inductive Walk where
  | leaf (e : Word) (lv addr : Nat)
  | absent
  | resv (lv : Nat)
  | dead (reason detail pa : Nat)
  deriving DecidableEq, Repr

/-- The table index of an address at a level. -/
def vaIndex (va lv : Nat) : Nat := natBits va (11 + 9 * lv) (3 + 9 * lv)
/-- The address bits above the index of a level and that index: what an entry of the level translates. -/
def vaTag (va lv : Nat) : Nat := va / 2 ^ (3 + 9 * lv)

/-- An entry read under the context's key, version 0. -/
def State.pte (s : State) (cid addr : Nat) : Word := BitVec.ofNat 64 (leNat (s.readBytes (s.keyOf cid) 0 addr 8))

/-- Write an entry. -/
def State.setPte (s : State) (cid addr : Nat) (e : Word) : State := s.writeBytes (s.keyOf cid) 0 addr (leBytes 8 e.toNat)

/-- The tables of a level and those below it, from the table at `t`; with the non-leaf entries that the walk accepts. -/
def State.walkFrom (s : State) (cid va : Nat) : Nat → Nat → List (Nat × Word) → Walk × List (Nat × Word)
  | 0, _, path => (.absent, path)
  | lv + 1, t, path =>
    if !s.goodFrame t then (.dead 2 (lv + 1) t, path)
    else
      let addr := t + 8 * vaIndex va (lv + 1)
      if s.uncorrectable addr then (.dead 1 0 addr, path)
      else
        let e := s.pte cid addr
        if !pteV e then (.absent, path)
        else if reservedBad e (lv + 1) then (.resv (lv + 1), path)
        else if pteLeaf e then (.leaf e (lv + 1) addr, path)
        else s.walkFrom cid va lv (pteAddr e) (path ++ [(lv + 1, e)])

/-- The walk of memory from the L5 table. -/
def State.walkAll (s : State) (cid va : Nat) : Walk × List (Nat × Word) := s.walkFrom cid va 5 ((s.ctx cid).root.toNat * 4096) []
/-- What the tables in memory hold for an address. -/
def State.walk (s : State) (cid va : Nat) : Walk := (s.walkAll cid va).1

/-! ## Pending faults (R368) -/

/-- A device migration holds the page (R363). -/
def State.migrating (s : State) (cid page : Nat) : Bool := s.mmu.migs.any fun m => m.cid == cid && m.page == page

/-- The frame that the leaf of a page names, and where the leaf lies. -/
def State.leafNow (s : State) (cid page : Nat) : Option (Word × Nat) :=
  match s.walk cid (page * 4096) with
  | .leaf e _ addr => some (e, addr)
  | _ => none

/-- No archive page has this number (R389): the leaf that asked for a staging stands no more. -/
def noArcPage : Nat := 2 ^ 31

/-- The entry that a served fault takes, under a number. A 0x42 fault that meets no device migration is served as absent. -/
def State.pendOf (s : State) (r : FaultReq) (i : Nat) : Pend :=
  let leaf := s.leafNow r.cid r.page
  { die := r.die, idx := i, cid := r.cid, page := r.page, code := if r.code = 0x42 ∧ s.migrating r.cid r.page = false then 0x40 else r.code,
    acc := r.acc, hint := r.hint, waiters := [r.waiter],
    cow := if r.code = 0x43 then leaf.map fun (e, addr) => { frame := pteAddr e, since := none, leaf := e, addr := addr, target := none } else none,
    arc := if r.code = 0x41 then some (match leaf with | some (e, _) => if pteTier e = 2 then pteAddr e / 16384 else noArcPage | none => noArcPage) else none }

/-- How a waiter hears that its service has ended: replay, or the nonexistent-memory fault. -/
def State.tellWaiter (s : State) (replay : Bool) : Waiter → State
  | .strand g k => s.modStrand g k fun t => match t.status with
    | .swapped va acc none => { t with status := .swapped va acc (some replay) }
    | _ => t
  | .chan g k c => s.modStrand g k fun t => { t with chans := modAt t.chans c fun ch =>
      { ch with held := none, halt := if replay then ch.halt else ch.held.map fun h => { h with cause := 0x0B, detail := 0 } } }
  | .cat i => { s with cats := s.cats.map fun o => if o.id == i then { o with wait := none, stopped := o.stopped || !replay } else o }
  | .row i => { s with rows := { s.rows with ops := s.rows.ops.map fun o => if o.id == i then { o with wait := none, failed := o.failed || !replay } else o } }
  | .snap u => s.modKernel u fun k => { k with wait := false, failed := k.failed || !replay }
  | .arc i => { s with arc := { s.arc with ops := s.arc.ops.map fun o => if o.id == i then { o with wait := none, code := if replay then o.code else some 0x24 } else o } }

/-- A 0x42 fault whose migration has ended by the time its request is served: the page is not in TIER 3 any more, and the access replays. -/
def State.migrationOver (s : State) (r : FaultReq) : Bool :=
  decide (r.code = 0x42) && !s.migrating r.cid r.page && (match s.leafNow r.cid r.page with | some (e, _) => decide (pteTier e ≠ 3) | none => true)

/-- The request joins an entry or takes a free one, where it can; the record of an absent page is posted. DESIGN CHOICE
(notes/assumptions/113.md): an access that joins an entry leaves its own TIER and PRIO out. -/
def State.takePend (s : State) (r : FaultReq) : Option State :=
  let mine (p : Pend) : Bool := p.die == r.die && p.cid == r.cid && p.page == r.page
  if s.migrationOver r then some (s.tellWaiter true r.waiter)
  else if s.mmu.pend.any mine then
    some { s with mmu := { s.mmu with pend := s.mmu.pend.map fun p => if mine p then { p with waiters := p.waiters ++ [r.waiter] } else p } }
  else
    (lowestFree ((s.mmu.pend.filter fun p => p.die == r.die).map fun p => p.idx) 4096).map fun i =>
      let p := s.pendOf r i
      let s1 := { s with mmu := { s.mmu with pend := s.mmu.pend ++ [p] } }
      if p.code = 0x40 then s1.postPage (pageRec 0x40 r.cid r.acc.toNat r.die i (BitVec.ofNat 64 (r.page * 4096)) 0) else s1

/-- A served fault takes or joins an entry; where the table is full it waits for one, behind those that came before (R368). -/
def State.pendFault (s : State) (die cid : Nat) (va : Word) (code : Byte) (acc : BitVec 2) (hint : Option (BitVec 2 × BitVec 4)) (w : Waiter) : State :=
  let r : FaultReq := { die := die, cid := cid, page := va.toNat / 4096, code := code, acc := acc, hint := hint, waiter := w }
  (s.takePend r).getD { s with mmu := { s.mmu with queue := s.mmu.queue ++ [r] } }

/-- The waiting requests that can now join or take an entry do so, in order of arrival. -/
def State.serveQueue (s : State) : State :=
  s.mmu.queue.foldl (fun s r => (s.takePend r).getD { s with mmu := { s.mmu with queue := s.mmu.queue ++ [r] } })
    { s with mmu := { s.mmu with queue := [] } }

/-- An entry is freed and its waiters are released together. -/
def State.freePend (s : State) (die idx : Nat) (replay : Bool) : State :=
  match s.mmu.pend.find? fun p => p.die == die && p.idx == idx with
  | none => s
  | some p =>
    let s1 := { s with mmu := { s.mmu with pend := s.mmu.pend.filter fun q => !(q.die == die && q.idx == idx) } }
    (p.waiters.foldl (fun s w => s.tellWaiter replay w) s1).serveQueue

/-- Every entry of a page of a context, of the given codes, is freed on every die. -/
def State.freePage (s : State) (cid page : Nat) (code : Byte) (replay : Bool) : State :=
  (s.mmu.pend.filter fun p => p.cid == cid && p.page == page && p.code == code).foldl (fun s p => s.freePend p.die p.idx replay) s

/-- The entries and requests of a context are freed: those that wait on them are discarded with their groups (R371). -/
def State.freeFaults (s : State) (c : Nat) : State :=
  ({ s with mmu := { s.mmu with pend := s.mmu.pend.filter fun (p : Pend) => p.cid != c, queue := s.mmu.queue.filter fun (r : FaultReq) => r.cid != c } } : State).serveQueue

/-! ## Draining a context (R51, R54, R337) -/

/-- The context enters draining in abort mode (R51, R54): every kernel of it aborts; its queues drain with status 0x40. DESIGN CHOICE
(notes/assumptions/91.md): a SUSPEND in progress that a fatal context error overtakes stays in progress and ends with status 0 once no group
of the context is left on a core. -/
def State.drainContext (s : State) (c : Nat) (abort : Bool) (status : Byte) : State :=
  let s1 := s.modCtx c fun x => { x with state := .draining, aborting := abort }
  let s2 := { s1 with queues := s1.queues.map fun q =>
    if q.cid == c && decide (q.state ≠ .unbound) then { q with state := .draining, dstatus := 0x40 } else q }
  if abort then ((s2.kernels.filter fun k => k.cid == c).foldl (fun s k => s.abortKernel k.uid status) s2).freeFaults c else s2

/-- A fatal context error (R51, R337): the event, then as RETIRE in abort mode. A context that is not ready, running or suspended is
past it. -/
def State.contextError (s : State) (c reason detail pa : Nat) : State :=
  if (s.ctx c).state = .ready ∨ (s.ctx c).state = .running ∨ (s.ctx c).state = .suspended then
    (s.postOwner (eventRec 0x01 c (BitVec.ofNat 64 (0x0B + 256 * detail + 4096 * reason)) (BitVec.ofNat 64 pa) 0)).drainContext c true 0x03
  else s

/-! ## Translation caches (R357, R358, R359) -/

/-- A party that translates: a core, with its TLB, or another unit of a logic die (R358). -/
inductive Party where
  | core (entry : Nat)
  | unit (die : Nat)
  deriving DecidableEq, Repr

/-- The logic die of a party. -/
def Party.dieOf : Party → Nat
  | .core c => Machine.dieOf c
  | .unit d => d
/-- The core of a party. -/
def Party.coreOf : Party → Option Nat
  | .core c => some c
  | .unit _ => none

/-- The entry translates an address. -/
def TlbEntry.covers (t : TlbEntry) (cid va : Nat) : Bool :=
  t.cid == cid && (match t.merged with | some _ => t.page == vaTag va 1 / 16 | none => t.page == vaTag va t.level)
/-- The leaf that the entry gives for an address: that of its page, in a merged entry with the page's own accessed and written bit (R357). -/
def TlbEntry.leafAt (t : TlbEntry) (va : Nat) : Word :=
  match t.merged with
  | none => t.leaf
  | some (acc, wrt) =>
    let k := vaTag va 1 % 16
    pteSetFrame ((t.leaf &&& ~~~0x30) ||| (if acc.getLsbD k then 0x10 else 0) ||| (if wrt.getLsbD k then 0x20 else 0)) (pteAddr t.leaf + 4096 * k)
/-- Where that leaf lies. -/
def TlbEntry.addrAt (t : TlbEntry) (va : Nat) : Nat :=
  match t.merged with
  | none => t.addr
  | some _ => t.addr + 8 * (vaTag va 1 % 16)
/-- The entry once A and D of the leaf of an address have been set. -/
def TlbEntry.touch (t : TlbEntry) (va : Nat) (e : Word) : TlbEntry :=
  match t.merged with
  | none => { t with leaf := e }
  | some (acc, wrt) =>
    let bit := BitVec.ofNat 16 (2 ^ (vaTag va 1 % 16))
    { t with merged := some (if pteA e then acc ||| bit else acc, if pteD e then wrt ||| bit else wrt) }

/-- The entries of a party that translate an address, those of its core first. -/
def State.tlbFind (s : State) (p : Party) (cid va : Nat) : List TlbEntry :=
  let mine := s.mmu.tlb.filter fun t => t.die == p.dieOf && t.covers cid va
  (mine.filter fun t => t.core.isSome && t.core == p.coreOf) ++ mine.filter fun t => t.core.isNone

def State.setTlb (s : State) (ts : List TlbEntry) : State := { s with mmu := { s.mmu with tlb := ts } }

/-- Two entries of one cache for one page that differ in accessed and written bits alone. -/
def TlbEntry.same (t u : TlbEntry) : Bool :=
  t.die == u.die && t.core == u.core && t.cid == u.cid && t.page == u.page && t.level == u.level && t.merged.isSome == u.merged.isSome &&
  t.addr == u.addr && (t.leaf &&& ~~~0x30) == (u.leaf &&& ~~~0x30)

/-- Put an entry in its cache. One that an entry in memory has left behind stays beside it until it is invalidated, so that an access can still
use it (R358, notes/assumptions/95.md). -/
def State.tlbPut (s : State) (e : TlbEntry) : State := s.setTlb (e :: s.mmu.tlb.filter fun t => !t.same e)
/-- Put an entry in the shared TLB of a party's die and in the TLB of its core (R423). -/
def State.tlbFill (s : State) (p : Party) (e : TlbEntry) : State :=
  match p with
  | .core c => (s.tlbPut { e with core := none }).tlbPut { e with core := some c }
  | .unit _ => s.tlbPut { e with core := none }

/-- Drop the translations of a page of a context on the dies that `p` names, walk-cache entries of its path included. -/
def State.invalPage (s : State) (cid va : Nat) (p : Nat → Bool) : State :=
  { s with mmu := { s.mmu with
      tlb := s.mmu.tlb.filter fun t => !(p t.die && t.covers cid va),
      walk := s.mmu.walk.filter fun w => !(p w.die && w.cid == cid && w.vpn == vaTag va w.level) } }
/-- Drop what a die holds of a page, its walk-cache entries included, as a served fault does (R358). -/
def State.dropPage (s : State) (cid va die : Nat) : State := s.invalPage cid va fun d => d == die

/-- Drop every translation of a context. -/
def State.invalAll (s : State) (cid : Nat) : State :=
  { s with mmu := { s.mmu with tlb := s.mmu.tlb.filter fun t => t.cid != cid, walk := s.mmu.walk.filter fun w => w.cid != cid } }

/-- Every die. -/
def everyDie (_ : Nat) : Bool := true

/-- The entry of a list at the lowest level. -/
def deepest : List WalkEntry → Option WalkEntry
  | [] => none
  | w :: ws => match deepest ws with
    | some v => if v.level < w.level then some v else some w
    | none => some w

/-- Where a walk begins: below the deepest entry for the address that the walk cache of the die holds, else at the L5 table (R423). Where software
has changed an entry that the cache holds, the walk may begin below any of them or at the L5 table (R358). -/
def State.walkStart (s : State) (die cid va : Nat) : Option WalkEntry :=
  let held := s.mmu.walk.filter fun w => w.die == die && w.cid == cid && w.vpn == vaTag va w.level
  let now := (s.walkAll cid va).2
  if held.all fun w => now.contains (w.level, w.entry) then deepest held else held[Config.freeNat s.fresh % (held.length + 1)]?

/-- The 16 entries of the contiguous group of an L1 leaf may fill one merged entry (R357). No cache holds an entry that fails a check of R354, so
none of them may (R358). -/
def mergeable (es : List Word) : Bool :=
  match es with
  | [] => false
  | e0 :: _ =>
    decide (pteAddr e0 / 4096 % 16 = 0) &&
    (List.range 16).all fun k =>
      let e := es.getD k 0
      pteV e && pteLeaf e && pteCont e && !reservedBad e 1 && pteW e == pteW e0 && pteX e == pteX e0 && pteCow e == pteCow e0 &&
      pteTier e == pteTier e0 && ptePrio e == ptePrio e0 && pteAddr e == pteAddr e0 + 4096 * k

/-- Put the non-leaf entries of a walk into a die's walk cache (R358, R423), beside those that memory has left behind. -/
def State.walkPut (s : State) (die cid va : Nat) (path : List (Nat × Word)) : State :=
  let es : List WalkEntry := path.map fun (l, w) => { die := die, cid := cid, level := l, vpn := vaTag va l, entry := w }
  { s with mmu := { s.mmu with walk := es ++ s.mmu.walk.filter fun w => !es.contains w } }

/-- The entry that a walk to a usable leaf fills: a merged one where the 16 entries of its line allow it (R357). -/
def State.entryFor (s : State) (die cid va : Nat) (e : Word) (lv addr : Nat) : TlbEntry :=
  let line := addr / 128 * 128
  let es := (List.range 16).map fun k => s.pte cid (line + 8 * k)
  if lv = 1 ∧ pteCont e = true ∧ mergeable es = true then
    let bits (f : Word → Bool) : BitVec 16 := BitVec.ofNat 16 ((List.range 16).foldl (fun n k => n + (if f (es.getD k 0) then 2 ^ k else 0)) 0)
    { die := die, core := none, cid := cid, page := vaTag va 1 / 16, level := 1, leaf := es.getD 0 0, addr := line, merged := some (bits pteA, bits pteD) }
  else { die := die, core := none, cid := cid, page := vaTag va lv, level := lv, leaf := e, addr := addr, merged := none }

/-- A and D for an access of a kind (R359). -/
def accessedLeaf (e : Word) (kind : Acc) : Word := if kind = .write then pteSetD (pteSetA e) else pteSetA e

/-- The way of a walk read through the caches: the L2 of the die, for a base die that of its neighbour (R139), as a fetch. -/
def Party.cacheWay (p : Party) (n : Nat) : CacheWay :=
  .code (if p.dieOf < 8 then p.dieOf else (p.dieOf - 8) / 2) n

/-- Set A and D of a leaf at its home (R359). -/
def State.markLeaf (s : State) (p : Party) (cid addr : Nat) (e e1 : Word) : State :=
  if e1 = e then s else (s.cacheSpan { p.cacheWay s.fresh with may := false } cid 0 addr 8).setPte cid addr e1

/-- A sector of the line that a walk to an L1 leaf with CONT reads whole cannot be corrected (R337, R357). -/
def State.badLine (s : State) (e : Word) (lv addr : Nat) : Option Nat :=
  if lv = 1 ∧ pteCont e = true then ((List.range 4).map fun i => addr / 128 * 128 + 32 * i).find? fun a => s.uncorrectable a else none

/-- Serve an access from a leaf that a walk has just read: check it, set A and D at its home, fill the caches. The walk reads the entry
in the same step, so the compare-and-swap cannot fail. -/
def State.useWalk (s : State) (p : Party) (cid va : Nat) (kind : Acc) (e : Word) (lv addr : Nat) : Xlat × State :=
  match s.badLine e lv addr with
  | some a => (.dead 1 0 a, s)
  | none =>
    match s.leafOutcome cid e lv va kind with
    | .ok pa =>
      let s1 := s.markLeaf p cid addr e (accessedLeaf e kind)
      (.ok pa, s1.tlbFill p (s1.entryFor p.dieOf cid va (accessedLeaf e kind) lv addr))
    | r => (r, s)

/-- The addresses of the entries that a walk reads, from the table at `t` of level `lv`, along the entries that it accepts. -/
def walkReads (va t lv : Nat) : List (Nat × Word) → List Nat
  | [] => [t + 8 * vaIndex va lv]
  | (_, e) :: path => (t + 8 * vaIndex va lv) :: walkReads va (pteAddr e) (lv - 1) path
/-- The reads of a walk pass the caches (R142). -/
def State.walkTouch (s : State) (p : Party) (cid : Nat) (reads : List Nat) : State :=
  reads.foldl (fun s a => s.cacheSpan (p.cacheWay s.fresh) cid 0 a 8) s

/-- Translate by a walk (R423). -/
def State.translateWalk (s : State) (p : Party) (cid va : Nat) (kind : Acc) : Xlat × State :=
  let (t, lv) := match s.walkStart p.dieOf cid va with
    | some e => (pteAddr e.entry, e.level - 1)
    | none => ((s.ctx cid).root.toNat * 4096, 5)
  let (w, path) := s.walkFrom cid va lv t []
  let s1 := (s.tick.walkTouch p cid (walkReads va t lv path)).walkPut p.dieOf cid va path
  match w with
  | .leaf e lv addr => s1.useWalk p cid va kind e lv addr
  | .absent => (.served 0x40, s1)
  | .resv lv => (.trap 0x0A (BitVec.ofNat 4 lv), s1)
  | .dead r d pa => (.dead r d pa, s1)

/-- The entry of a party's caches that an access uses, if it uses one. Where software has changed a leaf that they hold, the access uses either the
old leaf or the new one (R358). -/
def State.tlbPick (s : State) (p : Party) (cid va : Nat) : Option TlbEntry :=
  let held := s.tlbFind p cid va
  if held.all fun t => s.walk cid va == .leaf (t.leafAt va) t.level (t.addrAt va) then held.head?
  else held[Config.freeNat s.fresh % (held.length + 1)]?

/-- Translate one address for a party (R355). A and D of a cached leaf are set by a compare-and-swap against it, and a walk follows where that
fails (R359). -/
def State.translate (s : State) (p : Party) (cid : Nat) (va : Word) (kind : Acc) : Xlat × State :=
  let a := va.toNat
  let s0 := s.tick
  let (r, s1) :=
    if va.extractLsb' 57 7 ≠ 0#7 then (Xlat.trap 0x08 0, s0)
    else
      match s.tlbPick p cid a with
      | none => s0.translateWalk p cid a kind
      | some t =>
        let e := t.leafAt a
        match s0.leafOutcome cid e t.level a kind with
        | .ok pa =>
          let e1 := accessedLeaf e kind
          if e1 = e then (.ok pa, s0)
          else if s.walk cid a == .leaf e t.level (t.addrAt a) then (.ok pa, (s0.markLeaf p cid (t.addrAt a) e e1).tlbFill p (t.touch a e1))
          else s0.translateWalk p cid a kind
        | x => (x, s0)
  match r with
  | .served c => (.served c, s1.dropPage cid a p.dieOf)
  | .dead reason d pa => (r, s1.contextError cid reason d pa)
  | x => (x, s1)

/-! ## Remote windows (R410, R412) -/

/-- The links of some states that join this module to the target of remote window `w`, by the route table (R410). -/
def State.windowLinks (s : State) (w : Nat) (p : LinkSt → Bool) : List Nat :=
  let m := natBits (wordAt s.links.rwin w).toNat 7 0
  (List.range 16).filter fun k =>
    let l := s.links.units.getD k Link.reset
    p l.state && (s.links.rtbl.getD m 0).getLsbD k && l.peer.toNat == m
/-- The links that an access to remote window `w` may use (R410). -/
def State.usableLinks (s : State) (w : Nat) : List Nat := s.windowLinks w fun x => decide (x = .up) || decide (x = .degraded)
/-- No link to the target is usable, and one of them retrains: its traffic is paused, and nothing of it is lost (R411). -/
def State.linkPaused (s : State) (w : Nat) : Bool := (s.usableLinks w).isEmpty && !(s.windowLinks w fun x => decide (x = .retraining)).isEmpty
/-- No link to the target is usable or will be (R412). -/
def State.linkLost (s : State) (w : Nat) : Bool := (s.usableLinks w).isEmpty && !s.linkPaused w

/-- A remote window lies at a physical address. -/
def remoteOf (s : State) (pa : Nat) : Option (Nat × Nat) :=
  match regionOf s pa with
  | .remote w off => some (w, off)
  | _ => none

/-- A place whose remote window satisfies `p`. -/
def State.remoteIs (s : State) (pa : Nat) (p : Nat → Bool) : Bool := match remoteOf s pa with | some (w, _) => p w | none => false

/-- What another module holds of `n` sectors from a physical address, as this module knows it (R410): what nothing here has read or written is free, and
before a read any party there may have written it anew. -/
def State.remoteSectors (s : State) (read : Bool) (pa : Nat) : Nat → State
  | 0 => s
  | n + 1 =>
    let t := s.scramble pa 1
    let anew := (tagGet s.mem.tags (s.homeOf pa / 32)).isNone || (read && Config.freeBool s.fresh)
    State.remoteSectors { s with fresh := s.fresh + 2, mem := if anew then t.mem else s.mem } read (pa + 32) n
/-- The same for the sectors of `n` bytes. -/
def State.remoteSync (s : State) (read : Bool) (pa n : Nat) : State := s.remoteSectors read (pa / 32 * 32) ((pa + n - 1) / 32 - pa / 32 + 1)

/-- A byte of another module as an engine reads it: what this module knows of it, or what a party there has written since. -/
def State.remoteByte (s : State) (key : BitVec 512) (ver : BitVec 32) (pa : Nat) : Byte :=
  if (tagGet s.mem.tags (s.homeOf pa / 32)).isNone || Config.freeBool s.fresh then Config.freeByte s.fresh pa else s.readByte key ver pa

/-- The CXL port of a POOL address retrains: its traffic is paused, and nothing of it is lost (R411). -/
def State.portPaused (s : State) (pa : Nat) : Bool :=
  match regionOf s pa with
  | .pool p _ _ => decide ((s.links.units.getD (40 + p) Link.reset).state = .retraining)
  | _ => false

/-- Write bytes at a physical address, in this module or, where a link carries them, in another (R410, R412). -/
def State.writeHome (s : State) (key : BitVec 512) (ver : BitVec 32) (pa : Nat) (data : List Byte) : State :=
  if s.remoteIs pa s.linkLost then s
  else if (remoteOf s pa).isSome then (s.remoteSync false pa data.length).writeBytes key ver pa data
  else s.writeBytes key ver pa data

/-- The leaf of a page names a remote window that no link reaches: what is to be moved there or read there is lost (R110, R412). -/
def State.pageLost (s : State) (cid va : Nat) : Bool :=
  match s.walk cid va with
  | .leaf e lv _ => s.remoteIs (pteAddr e + va % (if lv = 2 then 2 ^ 21 else 2 ^ 12)) s.linkLost
  | _ => false

/-- The faults of a remote access at its issue: no link for one that returns a value (R412), or a refusal by the target (R410). -/
def State.remoteCheck (s : State) (returns : Bool) (pa : Nat) : Xlat × State :=
  match remoteOf s pa with
  | none => (.ok pa, s)
  | some (w, _) =>
    if s.linkLost w then (if returns then (.trap 0x0B 0, s) else (.ok pa, s))
    else if Config.remoteAccepts s.fresh pa then (.ok pa, s.tick) else (.trap 0x0B 0, s.tick)

/-- Translate, with the remote checks: a store alone returns no value. -/
def State.locate (s : State) (p : Party) (cid : Nat) (va : Word) (kind : Acc) (returns : Bool := decide (kind ≠ .write)) : Xlat × State :=
  match s.translate p cid va kind with
  | (.ok pa, s1) => s1.remoteCheck returns pa
  | r => r

/-! ## Frame counts (R365) -/

/-- The count of a frame as a context reads it. -/
def State.frameCount (s : State) (cid pa : Nat) : BitVec 16 :=
  match s.mmu.counts.find? fun f => f.frame == pa with
  | some f => if f.cid = cid then f.count else 0
  | none => 0
/-- Set the count of a frame, tagged with a context. -/
def State.setCount (s : State) (cid pa : Nat) (n : BitVec 16) : State :=
  { s with mmu := { s.mmu with counts := { frame := pa, count := n, cid := cid } :: s.mmu.counts.filter fun f => f.frame != pa } }
/-- The tag of a frame. -/
def State.frameTag (s : State) (pa : Nat) : Option Nat := (s.mmu.counts.find? fun f => f.frame == pa).map fun f => f.cid

/-! ## Free-frame lists (R42, R369) -/

/-- A free-frame word may be given out: row-stack DRAM outside the retired, row-region and reading-room frames, or a POOL window. -/
def State.frameUsable (s : State) (pa : Nat) : Bool :=
  s.goodFrame pa || (match regionOf s pa with | .pool .. => true | .remote .. => true | _ => false)

/-- The frame-low event, once while it is armed (R42). -/
def State.frameLow (s : State) (c die : Nat) (w1 : Word) : State :=
  let x := s.ctx c
  if x.armed && decide (x.ffln.toNat < x.flow.toNat) then
    (s.modCtx c fun x => { x with armed := false }).postPage (pageRec 0x52 c 0 die 0 w1 (BitVec.ofNat 64 x.ffln.toNat))
  else s

/-- One frame leaves the count of the list. -/
def State.lowerFfln (s : State) (c : Nat) : State := s.modCtx c fun x => { x with ffln := if x.ffln = 0 then 0 else x.ffln - 1 }

/-- Some sector of a list page cannot be read (R337). -/
def State.badList (s : State) (page : Nat) : Bool := (List.range 128).any fun i => s.uncorrectable (page + 32 * i)

/-- The device passes over a frame that it may not give out (R369). FFLN may fall below the low-water mark so, with no frame taken: the frame-low event
waits then for the next LOADDESC or frame given out (DESIGN CHOICE, notes/assumptions/111.md). -/
def State.skipFrame (s : State) (c die pa : Nat) : State :=
  (s.lowerFfln c).postPage (pageRec 0x51 c 0 die 0 (BitVec.ofNat 64 pa) 0)

/-- Look through `n` words of a list page from word `i` for the first frame that `p` accepts; a word met on the way that names no usable frame is
cleared and reported (R42, R369). -/
def State.scanList (s : State) (c die page : Nat) (p : Nat → Bool) : Nat → Nat → State × Option Nat
  | 0, _ => (s, none)
  | n + 1, i =>
    let addr := page + 8 * i
    let f := pteAddr (s.pte c addr)
    if f = 0 then s.scanList c die page p n (i + 1)
    else if s.frameUsable f = false then ((s.setPte c addr 0).skipFrame c die f).scanList c die page p n (i + 1)
    else if p f then (s, some addr)
    else s.scanList c die page p n (i + 1)

/-- The page names no frame. -/
def State.listEmpty (s : State) (c page : Nat) : Bool := (List.range 511).all fun i => decide (pteAddr (s.pte c (page + 8 * (i + 1))) = 0)

/-- Give out a frame: its count is cleared and tagged, FFLN falls, the low-water mark is watched. -/
def State.giveFrame (s : State) (c die pa : Nat) : State × Option Nat :=
  let s1 := (s.lowerFfln c).setCount c pa 0
  (s1.frameLow c die (BitVec.ofNat 64 pa), some pa)

/-- A DRAM address. -/
def inDram (pa : Nat) : Bool := decide (pa < 2 ^ 40)

/-- Look for a DRAM frame in one page of the list (R42): what comes of it and, where the page has none to give, the page after it. An empty head
page is itself the next frame, unless the device may not give it out (R19, R369). -/
def State.lookDram (s : State) (c die page : Nat) (head : Bool) : (State × Option Nat) × Option (Nat × Bool) :=
  if page = 0 ∨ (s.ctx c).ffln = 0 then ((s, none), none)
  else if s.badList page then ((s.contextError c 1 0 page, none), none)
  else
    match s.scanList c die page inDram 511 1 with
    | (s1, some addr) => ((s1.setPte c addr 0).giveFrame c die (pteAddr (s1.pte c addr)), none)
    | (s1, none) =>
      let nxt := pteAddr (s1.pte c page)
      if head && s1.listEmpty c page then
        let s2 := s1.modCtx c fun x => { x with fflh := BitVec.ofNat 40 (nxt / 4096) }
        if s1.goodFrame page then (s2.giveFrame c die page, none) else ((s2.skipFrame c die page, none), some (nxt, true))
      else ((s1, none), some (nxt, false))

/-- Take the next DRAM frame of the list (R42, R366), looking at `n` list pages at most. -/
def State.takeDram (s : State) (c die : Nat) (page : Nat) (head : Bool) : Nat → State × Option Nat
  | 0 => (s, none)
  | n + 1 =>
    match s.lookDram c die page head with
    | (r, none) => r
    | (r, some (nxt, h)) => r.1.takeDram c die nxt h n

/-- The next DRAM frame of a context's list. -/
def State.nextDram (s : State) (c die : Nat) : State × Option Nat :=
  s.takeDram c die ((s.ctx c).fflh.toNat * 4096) true 1024

/-- The first frame of a tier in the head page (R363); none where it holds none. -/
def State.headFrame (s : State) (c die tier : Nat) : State × Option Nat :=
  let page := (s.ctx c).fflh.toNat * 4096
  if page = 0 ∨ (s.ctx c).ffln = 0 then (s, none)
  else if s.badList page then (s.contextError c 1 0 page, none)
  else
    match s.scanList c die page (fun a => if tier = 0 then inDram a else !inDram a) 511 1 with
    | (s1, some addr) => (s1.setPte c addr 0).giveFrame c die (pteAddr (s1.pte c addr))
    | (s1, none) => (s1, none)

/-! ## Copying a frame (R367) -/

/-- The bytes of a layer of a sector, copied with the key and the version that they were written under. -/
def copyLayer (src dst : Nat) (s : State) (l : Layer) : State :=
  { s with
    mem := { s.mem with
      cells := (List.range 32).foldl (fun cs i => if l.mask.getLsbD i then cellPut cs (s.homeOf dst + i) (cellGet s.mem.cells (s.homeOf src + i)) else cs) s.mem.cells,
      tags := tagPut s.mem.tags (State.writeSector.coverTag s.mem.tags l.key l.ver (dst / 32) (s.homeOf dst / 32) l.mask l.name) } }

/-- Copy a sector: its plaintext, with the versions that its bytes were written under; a byte that nothing has written counts as the context's,
version 0. A frame of another module is read and written there (R410). -/
def copySector (s : State) (cid src dst : Nat) : State :=
  let key := s.keyOf cid
  let r := if (remoteOf s src).isSome then s.remoteSync true src 32 else s
  let s1 := r.writeHome key 0 dst (r.readBytes key 0 src 32)
  if r.remoteIs dst r.linkLost then r
  else match tagGet r.mem.tags (r.homeOf src / 32) with
    | none => s1
    | some t => (t.layers.filter fun l => !l.is key 0 src).foldl (copyLayer src dst) s1

/-- Copy `n` sectors. -/
def copySectors (s : State) (cid src dst : Nat) : Nat → State
  | 0 => s
  | n + 1 => copySectors (copySector s cid src dst) cid (src + 32) (dst + 32) n

/-- Copy a frame of 4 KiB. -/
def State.copyFrame (s : State) (cid src dst : Nat) : State := copySectors s cid src dst 128

end Sys2Proof.Machine
end

