-- ==== Sys2Proof/Machine/Access.lean ====
section
/-!
DEFINITION. Ordinary memory operations in flight (R143 to R162): how an access is located and faults, the operation that stands for
it, the order it keeps (R147, R159, R160), and what happens when it is performed.
-/
namespace Sys2Proof.Machine

open Sys2Proof

/-! ## Faults of an access (R246, R250, R334) -/

/-- A fault of one access: not an address. -/
structure AccFault where
  va : Word
  kind : Acc
  what : Xlat
  deriving DecidableEq, Repr

/-- The trap of a trapping fault. -/
def AccFault.trap (f : AccFault) : Trap :=
  match f.what with
  | .trap c d => { cause := c, detail := d, acc := f.kind.code, async := false, tval := f.va }
  | _ => { cause := 0x0B, detail := 0, acc := f.kind.code, async := false, tval := f.va }

/-- A strand meets a fault with its registers as they stand: it traps, or it is swapped until the service ends (R87, R246). `hint`: TIER and PRIO
of the tensor that its instruction names (R119). -/
def State.strandFault (s : State) (uid k : Nat) (g : Group) (f : AccFault) (hint : Option (BitVec 2 × BitVec 4)) : Eff State :=
  match f.what with
  | .trap _ _ => .trap s f.trap
  | .served code =>
    .settled ((s.modStrand uid k fun t => { t with status := .swapped f.va f.kind.code none }).pendFault (dieOf g.core) g.cid f.va code f.kind.code hint
      (.strand uid k))
  | _ => .settled s

/-- Find the address of one element for a party: the alignment rule, then the translation. -/
def State.locateEl (s : State) (p : Party) (cid : Nat) (kind : Acc) (align : Nat) (va : Word) (returns : Bool := decide (kind ≠ .write)) :
    Except AccFault Nat × State :=
  if va.toNat % align ≠ 0 then (.error { va := va, kind := kind, what := .trap 0x07 0 }, s)
  else
    match s.locate p cid va kind returns with
    | (.ok pa, s1) => (.ok pa, s1)
    | (x, s1) => (.error { va := va, kind := kind, what := x }, s1)

/-- Locate the active elements from index `i`, in ascending order, up to the first fault: index, virtual and physical address. -/
def locateLoop (p : Party) (cid : Nat) (kind : Acc) (align : Nat) (act : Nat → Bool) (addr : Nat → Word) :
    Nat → Nat → State → List (Nat × Nat × Nat) → State × List (Nat × Nat × Nat) × Option (Nat × AccFault)
  | 0, _, s, acc => (s, acc.reverse, none)
  | n + 1, i, s, acc =>
    if act i then
      match s.locateEl p cid kind align (addr i) with
      | (.ok pa, s1) => locateLoop p cid kind align act addr n (i + 1) s1 ((i, (addr i).toNat, pa) :: acc)
      | (.error f, s1) => (s1, acc.reverse, some (i, f))
    else locateLoop p cid kind align act addr n (i + 1) s acc

/-! ## Operations -/

/-- How an access goes to memory: version (R117), scope (R143), and the re-reference value of DIST (R141). -/
structure Way where
  ver : BitVec 32
  scope : BitVec 2
  dist : BitVec 3
  /-- Its elements are those of a vector form (R250). -/
  elems : Bool
  deriving DecidableEq, Repr

/-- An access of format M or M2, by its SCOPE and DIST. -/
def Way.mem (scope : BitVec 2) (dist : BitVec 3) : Way := { ver := 0, scope := scope, dist := dist, elems := false }
/-- The same access by a vector form. -/
def Way.vec (scope : BitVec 2) (dist : BitVec 3) : Way := { Way.mem scope dist with elems := true }
/-- A tile transfer: device scope, RRV 4 (R141, R252). -/
def Way.tile (ver : BitVec 32) : Way := { ver := ver, scope := 1, dist := 4, elems := true }
/-- An access at group scope that no SCOPE or DIST governs: typed buffers, arrivals. -/
def Way.group : Way := { ver := 0, scope := 0, dist := 7, elems := false }
/-- A nest image: device scope, RRV 2 (R272). -/
def Way.nest : Way := { ver := 0, scope := 1, dist := 2, elems := false }
/-- A spill or fill: group scope, RRV 6 (R254). -/
def Way.spill : Way := { ver := 0, scope := 0, dist := 6, elems := false }
/-- ENQ and its ring slot: system scope (R343). The spec gives it no DIST, and it installs no line: DESIGN CHOICE, notes/assumptions/96.md. -/
def Way.enq : Way := { ver := 0, scope := 2, dist := 7, elems := false }

/-- Add an operation in flight; its identity is the counter `fresh`. -/
def State.pushOp (s : State) (uid k cid : Nat) (w : Way) (work : OpWork) (rd wr : List Range) (after : List Nat) : State :=
  let t := s.strand? uid k
  { s with fresh := s.fresh + 1,
           ops := s.ops ++ [{ id := s.fresh, guid := uid, strand := k, cid := cid, ver := w.ver, scope := w.scope, dist := w.dist, work := work, rd := rd, wr := wr,
                              after := after, failed := false, pc := (t.map fun t => t.pc).getD 0, ri := (t.map fun t => t.ri).getD 0, elems := w.elems }] }

def State.op? (s : State) (i : Nat) : Option Op := s.ops.find? fun o => o.id == i
def State.dropOp (s : State) (i : Nat) : State := { s with ops := s.ops.filter fun o => o.id != i }
/-- Take an entry of the range interlock with the identity `i`. -/
def State.pushLock (s : State) (i uid k : Nat) (rd wr : List Range) : State :=
  { s with locks := s.locks ++ [{ id := i, guid := uid, strand := k, rd := rd, wr := wr }] }

/-- Put the bytes `a` to `a + n - 1` of a space into a list of ranges, joining them to the last one where they follow it. -/
def joinRange (sp : RSpace) (rs : List Range) (a n : Nat) : List Range :=
  match rs with
  | r :: t => if r.sp = sp ∧ r.lo ≤ a ∧ a ≤ r.hi then { r with hi := if r.hi < a + n then a + n else r.hi } :: t else { sp := sp, lo := a, hi := a + n } :: rs
  | [] => [{ sp := sp, lo := a, hi := a + n }]
/-- The ranges of elements of `n` bytes at the given addresses. -/
def rangesOf (sp : RSpace) (n : Nat) (as : List Nat) : List Range := as.foldl (fun rs a => joinRange sp rs a n) []
/-- The one span from the lowest to the highest byte (R158). -/
def spanOf (sp : RSpace) (n : Nat) (as : List Nat) : List Range :=
  match as with
  | [] => []
  | a :: t => [{ sp := sp, lo := t.foldl Nat.min a, hi := t.foldl Nat.max a + n }]

/-! ## Which operations stand in each other's way -/

/-- The places an operation touches: place, length, whether it writes. -/
def OpWork.places : OpWork → List (Place × Nat × Bool)
  | .load items _ => (items.filter fun i => decide (i.bytes ≠ 0)).map fun i => (i.loc, i.bytes, false)
  | .store items => items.map fun i => (i.loc, i.data.length, true)
  | .atomic _ _ loc n _ _ _ => [(loc, n, true)]
  | .enq _ loc _ ring _ => (loc, 128, false) :: (match ring with | .phys _ => [(ring, 128, true)] | .buf _ _ => [])
  | _ => []

/-- Two places meet: bytes of one space in common, or for two writes a sector in common (R147). -/
def placeMeet (a b : Place × Nat × Bool) : Bool :=
  (a.2.2 || b.2.2) &&
  match a.1, b.1 with
  | .phys p, .phys q =>
    if a.2.2 && b.2.2 then decide (p / 32 ≤ (q + b.2.1 - 1) / 32) && decide (q / 32 ≤ (p + a.2.1 - 1) / 32)
    else decide (p < q + b.2.1) && decide (q < p + a.2.1)
  | .buf u o, .buf v r => decide (u = v) && decide (o < r + b.2.1) && decide (r < o + a.2.1)
  | _, _ => false

/-- An earlier operation of the same strand touches the same bytes (R147, R159). -/
def Op.before (o n : Op) : Bool :=
  decide (o.id < n.id) && o.guid == n.guid && o.strand == n.strand &&
  (o.work.places.any fun a => n.work.places.any fun b => placeMeet a b)

/-- A row that a row instruction holds at its home (R160). -/
def State.rowHeld (s : State) (pa : Nat) : Bool := decide (pa < 2 ^ 40) && s.rows.ops.any fun o => o.held.contains (pa / 1024)
/-- Some row of `n` bytes at a physical address is held (R160): every party waits for it. -/
def State.spanHeld (s : State) (pa n : Nat) : Bool := (List.range ((pa + n - 1) / 1024 - pa / 1024 + 1)).any fun j => s.rowHeld (pa + 1024 * j)
def OpWork.heldBy (s : State) (w : OpWork) : Bool :=
  w.places.any fun (l, n, _) => match l with | .phys pa => s.spanHeld pa n | .buf _ _ => false

/-- The banks of the wave that a row stack runs, as pseudo-channel and bank of their addresses (R384, R385). -/
def State.waveBanks (s : State) (stk : Nat) : List Nat :=
  match ((s.rows.seq.getD stk []).head?).bind fun i => s.rows.ops.find? fun o => o.id == i with
  | none => []
  | some o =>
    match s.group? o.guid, o.runs.find? fun r => r.stk == stk with
    | some g, some r =>
      if g.stage ≠ .saved ∧ (r.phase = .steps ∨ r.phase = .aseal) then (r.waves.getD r.wave []).map fun x => x.sub % 4096 else []
    | _, _ => []

/-- An access waits for its bank: the bank is in the running wave (R385) or is being refreshed, or its pseudo-channel starts no new access (R383),
itself or with the others of the wave (R384). `id` is the counter `fresh` when the access came: one that came before the ninth due may be in progress. -/
def State.bankWaits (s : State) (id pa : Nat) : Bool :=
  let wave := s.waveBanks (stkOf pa)
  let mine (p : Nat) : Bool := p == pchOf pa || (wave.any (fun b => b / 16 == p) && wave.any fun b => b / 16 == pchOf pa)
  decide (pa < 2 ^ 40) &&
  (wave.contains (subOf pa % 4096) ||
   s.rows.refresh.any fun f => f.stk == stkOf pa && ((f.due && decide (f.since ≤ id) && mine f.pch) || (f.pch == pchOf pa && (f.all || f.banks.contains (bankOf pa)))))
/-- Some bank of `n` bytes at a physical address waits so. -/
def State.spanWaits (s : State) (id pa n : Nat) : Bool :=
  s.bankWaits id pa || (decide (pa / 1024 ≠ (pa + n - 1) / 1024) && s.bankWaits id (pa + n - 1))
/-- The traffic of a physical address is paused: its link or its CXL port retrains (R411). -/
def State.trafficPaused (s : State) (pa : Nat) : Bool := s.remoteIs pa s.linkPaused || s.portPaused pa
/-- An operation waits for a bank, or for a link that retrains (R411). -/
def OpWork.waitsFor (s : State) (id : Nat) (w : OpWork) : Bool :=
  w.places.any fun (l, n, _) => match l with | .phys pa => s.spanWaits id pa n || s.trafficPaused pa | .buf _ _ => false
/-- An access of an engine waits: for a held row, for a bank or for a link (R160, R386, R411). -/
def State.placeWaits (s : State) (pa n : Nat) : Bool := s.spanHeld pa n || s.spanWaits s.fresh pa n || s.trafficPaused pa

/-- An access of an engine or a host that waits for a bank of the running wave takes its place in the queue of that bank (R385, R386). -/
def State.askGap (s : State) (who : Asker) (pa : Nat) : State :=
  let b := subOf pa % 4096
  if pa < 2 ^ 40 ∧ (s.waveBanks (stkOf pa)).contains b = true ∧ (s.rows.asked.any fun a => a.who == who && a.stk == stkOf pa && a.bank == b) = false then
    { s with fresh := s.fresh + 1, rows := { s.rows with asked := s.rows.asked ++ [{ who := who, stk := stkOf pa, bank := b, id := s.fresh, served := false }] } }
  else s
/-- It has been served: it leaves the queues. -/
def State.dropAsk (s : State) (who : Asker) : State := { s with rows := { s.rows with asked := s.rows.asked.filter fun a => a.who != who } }
/-- A service gap has served the access: its word is there although the bank is in the wave again. -/
def State.askServed (s : State) (who : Asker) : Bool := s.rows.asked.any fun a => a.who == who && a.served

/-- The whole sectors of a range of memory (R147, R156). -/
def Range.sectors (r : Range) : Range :=
  match r.sp with
  | .virt _ => { r with lo := r.lo / 32 * 32, hi := (r.hi + 31) / 32 * 32 }
  | .buf _ _ => r

/-- Accesses of one strand must keep their order (R147, R159): one writes a byte that the other touches, or both write to one sector. -/
def rangesConflict (rd wr rd' wr' : List Range) : Bool :=
  anyMeet wr (rd' ++ wr') || anyMeet rd wr' || anyMeet (wr.map Range.sectors) (wr'.map Range.sectors)

/-- The entry of a long operation stands in the way of another access of its strand. -/
def Lock.conflicts (l : Lock) (rd wr : List Range) : Bool := rangesConflict l.rd l.wr rd wr

/-- A group aborts: its long memory instructions stop, and nothing waits for their entries any more (R82). An entry of an ordinary operation stands until
that is done, that of a matrix operation until it has stopped. -/
def State.lockLive (s : State) (l : Lock) : Bool :=
  (s.ops.any fun o => o.id == l.id) || (s.mats.any fun m => m.id == l.id && m.started) ||
  !(s.groups.any fun g => g.uid == l.guid && decide (g.stage = .aborting))

/-- An ordinary access of the core that issued before entry `i` of group `uid` still touches a byte that the entry writes. The accesses that issue
after it wait for its release (R159); those before it are done before it writes, so that no strand of the core sees part of its work (the row
"Same core" of the litmus tables). -/
def State.coreBusy (s : State) (i uid : Nat) (wr : List Range) : Bool :=
  match s.group? uid with
  | none => false
  | some g => s.ops.any fun o => decide (o.id < i) && !(s.locks.any fun l => l.id == o.id) &&
      (s.groups.any fun h => h.uid == o.guid && h.core == g.core && decide (h.stage ≠ .saved)) && anyMeet wr (o.rd ++ o.wr)

/-- A long memory instruction or tile transfer of identity `i` may begin its work (R159). -/
def State.longReady (s : State) (i uid k : Nat) (rd wr : List Range) : Bool :=
  !(s.locks.any fun l => decide (l.id < i) && l.guid == uid && l.strand == k && l.conflicts rd wr && s.lockLive l) &&
  !(s.ops.any fun o => decide (o.id < i) && o.guid == uid && o.strand == k && rangesConflict o.rd o.wr rd wr) && !s.coreBusy i uid wr

/-- An entry of the core stands before an ordinary operation: one that writes a byte it touches, or one of its own strand whose order it must keep
(R147, R159). -/
def State.lockedOut (s : State) (o : Op) : Bool :=
  match s.group? o.guid with
  | none => false
  | some g => (s.coreLocks g.core).any fun l => decide (l.id < o.id) && s.lockLive l &&
      (anyMeet l.wr (o.rd ++ o.wr) || (l.guid == o.guid && l.strand == o.strand && l.conflicts o.rd o.wr))

/-- A long memory instruction of the group goes on although the group stops: an ordinary access of the group cannot complete before it, and a save
waits for that access (R79, R90). -/
def State.mustGoOn (s : State) (g : Group) : Bool :=
  decide (g.stage = .stopping) && s.ops.any fun o => o.guid == g.uid && (s.lockedOut o || o.work.heldBy s)

/-- An operation may take effect (R147, R159, R160): no earlier one of its strand touches its bytes, no entry of its core holds them for
writing (for an ordinary access), its own entry may begin (for a tile transfer), no home holds its rows, and no wave or refresh closes its bank (R383, R385). -/
def State.opReady (s : State) (o : Op) : Bool :=
  !(s.ops.any fun p => p.before o) && !o.work.heldBy s && !o.work.waitsFor s o.id &&
  (if s.locks.any fun l => l.id == o.id then s.longReady o.id o.guid o.strand o.rd o.wr
   else !s.lockedOut o)

/-! ## Loads -/

/-- The replica of a line for a group's core, if one stands (R162). -/
def State.replica? (s : State) (core : Nat) (line cid kuid : Nat) (ver : BitVec 32) : Option Replica :=
  (s.core core).replicas.find? fun r => r.line == line && r.cid == cid && r.kuid == kuid && r.ver == ver

/-- The bytes of a read through the read-only path: the replica of each line, kept or made anew (R162, R163). -/
def State.replicaRead (s : State) (g : Group) (key : BitVec 512) (ver : BitVec 32) (pa n : Nat) : List Byte × State :=
  let line := pa / 128
  let fresh := s.readBytes key ver (line * 128) 128
  let old := s.replica? g.core line g.cid g.kuid ver
  let (data, s1) := match old with
    | none => (fresh, s)
    | some r => if r.data = fresh then (fresh, s) else (if Config.freeBool s.fresh then r.data else fresh, s.tick)
  ((data.drop (pa % 128)).take n,
    (s1.modCore g.core fun c => { c with replicas := keepReplica s1.fresh g line ver data c.replicas }).tick)
where
  /-- Put the replica of a line in place of the old one. The store has 512 lines (R139); which one a full store evicts is not stated. -/
  keepReplica (n : Nat) (g : Group) (line : Nat) (ver : BitVec 32) (data : List Byte) (rs : List Replica) : List Replica :=
    let others := rs.filter fun r => !(r.line == line && r.cid == g.cid && r.kuid == g.kuid && r.ver == ver)
    { line := line, cid := g.cid, ver := ver, kuid := g.kuid, data := data } ::
      (if others.length < 512 then others else others.eraseIdx (Config.freeNat n % 512))

/-! ## The caches (R141, R142) -/

/-- The accesses of an operation to `n` bytes at a place, on the way of its core. -/
def State.cacheTouch (s : State) (w : CacheWay) (cid : Nat) (ver : BitVec 32) (loc : Place) (n : Nat) : State :=
  match loc with
  | .phys pa => s.cacheSpan w cid ver pa n
  | .buf _ _ => s
/-- The accesses of every place of an operation. -/
def State.cacheWork (s : State) (o : Op) : State :=
  match s.group? o.guid with
  | none => s
  | some g => o.work.places.foldl (fun s (loc, n, wr) =>
      s.cacheTouch (if wr then .store g.core o.dist else .load g.core o.scope o.dist) o.cid o.ver loc n) s

/-- The bytes at a place for a group. -/
def State.readPlace (s : State) (g : Group) (ver : BitVec 32) (ro : Bool) (loc : Place) (n : Nat) : List Byte × State :=
  match loc with
  | .buf b off => (g.bufRead b off n, s)
  | .phys pa =>
    if (remoteOf s pa).isSome then
      let s1 := s.remoteSync true pa n
      (s1.readBytes (s.keyOf g.cid) ver pa n, s1)
    else if ro then s.replicaRead g (s.keyOf g.cid) ver pa n
    else (s.readBytes (s.keyOf g.cid) ver pa n, s)

/-- An unsealed row is read (R380). -/
def State.countUnsealed (s : State) (cid : Nat) (loc : Place) : State :=
  match loc with
  | .phys pa => if s.mem.unsealed.contains (pa / 1024) then s.modCtx cid fun c => { c with unsrd := c.unsrd + 1 } else s
  | .buf _ _ => s

/-- The unsealed rows of `n` bytes at a physical address are counted, one by one (R380). -/
def State.countSpan (s : State) (cid pa n : Nat) : State :=
  (List.range ((pa + n - 1) / 1024 - pa / 1024 + 1)).foldl (fun s j => s.countUnsealed cid (.phys (pa + 1024 * j))) s

/-- A read of `n` bytes at a physical address for a context, by a unit that no strand stands behind: it passes the caches and counts its unsealed rows
(R142, R380). -/
def State.unitRead (s : State) (w : CacheWay) (cid : Nat) (ver : BitVec 32) (pa n : Nat) : List Byte × State :=
  let s0 := (s.cacheSpan w cid ver pa n).countSpan cid pa n
  let s1 := if (remoteOf s pa).isSome then s0.remoteSync true pa n else s0
  (s1.readBytes (s1.keyOf cid) ver pa n, s1)
/-- Such a write. -/
def State.unitWrite (s : State) (w : CacheWay) (cid : Nat) (ver : BitVec 32) (pa : Nat) (data : List Byte) : State :=
  (s.cacheSpan w cid ver pa data.length).writeHome (s.keyOf cid) ver pa data

/-- Replace `width` bits of a register from bit `lo`. -/
def putField (v : VReg) (lo width x : Nat) : VReg :=
  BitVec.ofNat 8192 (v.toNat - (v.toNat >>> lo) % 2 ^ width * 2 ^ lo + x % 2 ^ width * 2 ^ lo)

/-- The value of a loaded element. -/
def LoadItem.value (i : LoadItem) (bs : List Byte) : Nat :=
  let v := leNat bs / 2 ^ i.shift % 2 ^ i.width
  if i.sx then intWrap i.out (natSigned i.width v) else v % 2 ^ i.out

/-- The bits of a nest image that are not reserved (R131). -/
def nestMask : Bits1024 := BitVec.ofNat 1024 ((List.range 6).foldl (fun m k => m + (2 ^ 144 - 1) * 2 ^ (160 * k)) 0)

/-- Write a loaded element into its destination. -/
def Strand.put (t : Strand) (i : LoadItem) (x : Nat) : Strand :=
  match i.dst with
  | .vec r lo width => { t with v := t.v.set r (putField (t.v.getD r 0) lo width x) }
  | .scalar r => { t with v := t.v.set r ((t.v.getD r 0).extractLsb' 64 8128 ++ BitVec.ofNat 64 x) }
  | .nest r lo => { t with n := t.n.set r (nestField (t.n.getD r 0) lo i.width x) }
where
  /-- Replace bits of a nest image; the reserved bits read as zero (R272). -/
  nestField (v : Bits1024) (lo width x : Nat) : Bits1024 :=
    BitVec.ofNat 1024 (v.toNat - (v.toNat >>> lo) % 2 ^ width * 2 ^ lo + x % 2 ^ width * 2 ^ lo) &&& nestMask

/-- Some of `n` bytes at a place lies in a sealed sector with two wrong bits (R380). -/
def State.badPlace (s : State) (loc : Place) (n : Nat) : Bool :=
  match loc with
  | .phys pa => !s.mem.flips.isEmpty && (List.range ((pa + n - 1) / 32 - pa / 32 + 1)).any fun i => s.uncorrectable (pa + 32 * i)
  | .buf _ _ => false

/-- Perform the elements of a load, one after another. -/
def State.loadItems (s : State) (o : Op) (ro : Bool) : List LoadItem → State
  | [] => s
  | i :: is =>
    match s.group? o.guid with
    | none => s
    | some g =>
      let (bs, s1) := s.readPlace g o.ver ro i.loc i.bytes
      ((if i.bytes = 0 then s1 else s1.countUnsealed g.cid i.loc).modStrand o.guid o.strand fun t => t.put i (i.value bs)).loadItems o ro is

/-- The element that cannot be read, if there is one (R380). -/
def badItem (s : State) (items : List LoadItem) : Option LoadItem := items.find? fun i => decide (i.bytes ≠ 0) && s.badPlace i.loc i.bytes

/-- The fatal trap of a strand that receives an uncorrectable sector (R380). -/
def errorTrap (va : Word) : Trap := { cause := 0x0B, detail := 0, acc := 2, async := false, tval := va }

/-! ## Faults found when an operation is performed (R250, R343, R412) -/

/-- An operation meets a precise fault only when it is performed: its strand is back at the instruction, which takes the fault there and is issued
again by its replay. Where the strand has gone on meanwhile, what it did since stands: notes/assumptions/97.md. -/
def State.lateFault (s : State) (o : Op) (f : AccFault) (vs : Strand → BitVec 32) : State :=
  match s.group? o.guid, s.strand? o.guid o.strand with
  | some g, some t =>
    if t.status = .ended then s.fatalTrap o.guid o.strand f.trap
    else
      let s1 := s.modStrand o.guid o.strand fun t => { t with pc := o.pc, ri := o.ri, ibuf := [], status := .ready, vs := vs t }
      State.finish o.guid o.strand o.pc 4 (s1.strandFault o.guid o.strand g f none)
  | _, _ => s

/-- VS naming element `i` (R250). -/
def Strand.vsAt (t : Strand) (i : Nat) : BitVec 32 :=
  if mdSh t.md then BitVec.ofNat 32 (i / t.vcols.toNat * 2 ^ 16 + i % t.vcols.toNat + 2 ^ 31) else BitVec.ofNat 32 (i + 2 ^ 31)

/-- The element of a vector register that a loaded item is. -/
def LoadItem.index (i : LoadItem) : Nat :=
  match i.dst with
  | .vec _ lo width => lo / width
  | _ => 0

/-- The place lies in a remote window that no link reaches (R412). -/
def State.placeLost (s : State) (loc : Place) : Bool :=
  match loc with
  | .phys pa => s.remoteIs pa s.linkLost
  | .buf _ _ => false

/-- The nonexistent-memory fault of an access in flight. -/
def lostFault (va : Nat) (kind : Acc) : AccFault := { va := BitVec.ofNat 64 va, kind := kind, what := .trap 0x0B 0 }

/-! ## Stores -/

/-- The bytes that a masked write leaves. -/
def mergeBytes : List Byte → List Byte → List Byte → List Byte
  | o :: os, d :: ds, m :: ms => ((o &&& ~~~m) ||| (d &&& m)) :: mergeBytes os ds ms
  | _, _, _ => []

/-- A store to a remote window with no usable link is lost; the owner hears of it (R412, R439). -/
def State.lostStore (s : State) (cid va : Nat) : State := s.postOwner (eventRec 0x08 cid (BitVec.ofNat 64 (va / 4096 * 4096)) 0 0)

/-- Write bytes at a place for a group; a place that no link reaches keeps what it has. -/
def State.writePlace (s : State) (g : Group) (ver : BitVec 32) (loc : Place) (data : List Byte) : State :=
  match loc with
  | .buf b off => s.modGroup g.uid fun g => g.bufWrite b off data
  | .phys pa => s.writeHome (s.keyOf g.cid) ver pa data

/-- Perform the runs of a store, one after another. -/
def State.storeItems (s : State) (o : Op) : List StoreItem → State
  | [] => s
  | i :: is =>
    match s.group? o.guid with
    | none => s
    | some g =>
      let data := if i.mask.all fun m => m = 0xFF then i.data else mergeBytes (s.readPlace g o.ver false i.loc i.data.length).1 i.data i.mask
      (s.writePlace g o.ver i.loc data).storeItems o is

/-- The pages of the runs of a store that no link reaches, each once (R412). -/
def State.lostPages (s : State) (items : List StoreItem) : List Nat :=
  ((items.filter fun i => s.placeLost i.loc).map fun i => i.va / 4096).eraseDups

/-- A lost transfer makes every arrival that awaits it carry the failure (R110). -/
def State.markLost (s : State) (i : Nat) : State :=
  { s with ops := s.ops.map fun o => if o.after.contains i then { o with failed := true } else o }

/-! ## Completion events (R144) -/

/-- A step of an operation in flight, if it is there and may take effect; otherwise nothing happens. -/
def opStep (i : Nat) (f : State → Op → Option State) (s : State) : Res :=
  match s.op? i with
  | none => .next s
  | some o => if s.opReady o then .next ((f s o).getD s) else .next s

/-- LOAD_COMPLETE: every element is read and written, KL falls; an uncorrectable sector is a fatal trap (R380). Where no link reaches an element any
more, those below it are committed and it faults (R412). -/
def execLoadComplete (i : Nat) (s : State) : Res :=
  opStep i (fun s o =>
    match o.work with
    | .load items ro =>
      match badItem s items with
      | some b => some (((s.dropOp i).dropLock i).fatalTrap o.guid o.strand (errorTrap (BitVec.ofNat 64 b.va)))
      | none =>
        let done := items.takeWhile fun j => !s.placeLost j.loc
        let s1 := ((((s.cacheWork o).loadItems o ro done).modStrand o.guid o.strand Strand.fallL).dropOp i).dropLock i
        some (match items.find? fun j => s.placeLost j.loc with
          | none => s1
          | some j => s1.lateFault o (lostFault j.va .read) fun t => if o.elems then t.vsAt j.index else t.vs)
    | _ => none) s

/-- STORE_COMPLETE: every run is written, KS falls; a run that no link reaches is lost, and the owner hears of its page (R412). -/
def execStoreComplete (i : Nat) (s : State) : Res :=
  opStep i (fun s o =>
    match o.work with
    | .store items =>
      let lost := s.lostPages items
      let s1 := (s.cacheWork o).storeItems o items
      let s2 := lost.foldl (fun s p => s.lostStore o.cid (4096 * p)) (if lost.isEmpty then s1 else s1.markLost i)
      some (((s2.modStrand o.guid o.strand Strand.fallS).dropOp i).dropLock i)
    | _ => none) s

/-- The new value of an atomic; `none` where ACAS writes nothing (R255). -/
def atomicNew (fn : AtomicFn) (ty old b cmp : Nat) : Option Nat :=
  let w := tyWidth' ty
  match fn with
  | .add => some ((old + b) % 2 ^ w)
  | .min => some (if less ty w b old then b else old)
  | .max => some (if less ty w old b then b else old)
  | .and => some (old &&& b)
  | .or => some (old ||| b)
  | .xor => some (old ^^^ b)
  | .swp => some b
  | .cas => if old = cmp then some b else none
where
  /-- The width of an integer type. -/
  tyWidth' (ty : Nat) : Nat := 8 * 2 ^ (ty % 4)
  /-- Signed under s types, else unsigned. -/
  less (ty w a b : Nat) : Bool := if ty < 4 then decide (natSigned w a < natSigned w b) else decide (a < b)

/-- ATOMIC_COMPLETE: one read and one write at the home (R155); the old value goes to xD, KL and KS fall. One that
no link carries any more faults, with no read and no write (R412). -/
def execAtomicComplete (i : Nat) (s : State) : Res :=
  opStep i (fun s o =>
    match o.work, s.group? o.guid with
    | .atomic fn ty loc n b cmp d, some g =>
      let va := o.wr.foldl (fun (_ : Nat) (r : Range) => r.lo) 0
      if s.badPlace loc n then some ((s.dropOp i).fatalTrap o.guid o.strand (errorTrap (BitVec.ofNat 64 va)))
      else if s.placeLost loc then
        some (((s.modStrand o.guid o.strand fun t => t.fallL.fallS).dropOp i).lateFault o (lostFault va .write) fun t => t.vs)
      else
        let (bs, s1) := (s.cacheWork o).readPlace g o.ver false loc n
        let old := leNat bs
        let s2 := match atomicNew fn ty.toNat old (b.toNat % 2 ^ (8 * n)) (cmp.toNat % 2 ^ (8 * n)) with
          | some x => s1.writePlace g o.ver loc (leBytes n x)
          | none => s1
        let val := if ty.toNat < 4 then intWrap 64 (natSigned (8 * n) old) else old
        some (((s2.countUnsealed g.cid loc).modStrand o.guid o.strand fun t =>
          (t.put { loc := loc, va := va, bytes := n, shift := 0, width := 64, out := 64, sx := false, dst := .scalar d.toNat } val).fallL.fallS).dropOp i)
    | _, _ => none) s

end Sys2Proof.Machine
end

