-- ==== Sys2Proof/Machine/Frame.lean ====
section
/-!
DEFINITION. Where the parts of a group's save frame lie (R92), and the words of it that the device reads and writes while the group is
saved (R87, R323).
-/
namespace Sys2Proof.Machine

open Sys2Proof

/-- The first byte of a group's save frame. -/
def Group.frameAt (g : Group) : Nat := g.frame * 4096
/-- The first byte of the area of strand `k`. -/
def Group.areaAt (g : Group) (k : Nat) : Nat := g.frameAt + (3 + 16 * k) * 4096
/-- The frames that a group occupies while saved. -/
def Kernel.frameCount (k : Kernel) : Nat := 3 + 16 * (k.spgm1 + 1) + k.wneed + k.aneed + k.cneed

/-- The words of a strand's area from byte 0xC600, in the order of the frame. -/
def slotOfKc : Nat := 0xC600 + 8 * 17

/-- Read and write a word of a save frame: context memory under the context's key, version 0. -/
def State.frameWord (s : State) (cid a : Nat) : Word := BitVec.ofNat 64 (leNat (s.readBytes (s.keyOf cid) 0 a 8))
def State.putFrameWord (s : State) (cid a : Nat) (w : Word) : State := s.writeBytes (s.keyOf cid) 0 a (leBytes 8 w.toNat)

end Sys2Proof.Machine
end

