-- ==== Sys2Proof/Machine/Integer.lean ====
section
/-!
DEFINITION. Integer, logic, compare, mask, permute and reduction instructions, and the immediate forms (spec/13_integer_control.md
R205 to R217). Every instruction has an effect on its strand (`…E`), which REP shares, and a meaning (`exec…`).
-/
namespace Sys2Proof.Machine

open Sys2Proof

/-! ## Integer arithmetic (R208, R209) -/

/-- An exact integer result fitted by R164. -/
def intOp (f : Int → Int → Int → Int) (t : Strand) (_ old a b : Nat) (l : Lanes) : Nat × Lanes :=
  fitInt (mdSat t.md) t.ty (f (tyRead t.ty old) (tyRead t.ty a) (tyRead t.ty b)) l

/-- An exact integer result that always fits. -/
def intExact (f : Nat → Int → Int → Int) (t : Strand) (_ _ a b : Nat) (l : Lanes) : Nat × Lanes :=
  (intWrap t.w (f t.w (tyRead t.ty a) (tyRead t.ty b)), l)

/-- A result of R183: DZ for a zero divisor. -/
def divOp (f : Int × Int → Int) (t : Strand) (_ _ a b : Nat) (l : Lanes) : Nat × Lanes :=
  (intWrap t.w (f (divRem t.ty (tyRead t.ty a) (tyRead t.ty b))), l.raiseIf (decide (tyRead t.ty b = 0)) fDZ)

/-- The divide trap (R209): after every active element is written, when MD.DZT = 1 and this instruction divided by zero. -/
def withDivTrap (f : Strand → Eff Strand) (t : Strand) : Eff Strand :=
  match f { t with st := 0 } with
  | .done t' =>
    let t'' := { t' with st := t'.st ||| t.st }
    if mdDzt t.md && t'.st.getLsbD 0 then .trapNext t'' (trapOf 0x05 0 0) else .done t''
  | .trap _ c => .trap t c
  | e => e

/-- ADD (R208): a + b, fitted by R164. -/
def addE (d a b : BitVec 6) (s x : BitVec 1) : Strand → Eff Strand := typed3 tyInt d a b s x (intOp (fun _ a b => a + b))
def execAdd (d a b : BitVec 6) (s x : BitVec 1) (st : State) : Res := runS (addE d a b s x) st

/-- SUB (R208): a - b, fitted by R164. -/
def subE (d a b : BitVec 6) (s x : BitVec 1) : Strand → Eff Strand := typed3 tyInt d a b s x (intOp (fun _ a b => a - b))
def execSub (d a b : BitVec 6) (s x : BitVec 1) (st : State) : Res := runS (subE d a b s x) st

/-- MUL (R208): a * b, fitted by R164. -/
def mulE (d a b : BitVec 6) (s x : BitVec 1) : Strand → Eff Strand := typed3 tyInt d a b s x (intOp (fun _ a b => a * b))
def execMul (d a b : BitVec 6) (s x : BitVec 1) (st : State) : Res := runS (mulE d a b s x) st

/-- MULH (R208): floor(a * b / 2^w). -/
def mulhE (d a b : BitVec 6) (s x : BitVec 1) : Strand → Eff Strand := typed3 tyInt d a b s x (intExact fun w a b => a * b / (2 ^ w : Nat))
def execMulh (d a b : BitVec 6) (s x : BitVec 1) (st : State) : Res := runS (mulhE d a b s x) st

/-- DIV (R209): the quotient of R183. -/
def divE (d a b : BitVec 6) (s x : BitVec 1) : Strand → Eff Strand := withDivTrap (typed3 tyInt d a b s x (divOp Prod.fst))
def execDiv (d a b : BitVec 6) (s x : BitVec 1) (st : State) : Res := runS (divE d a b s x) st

/-- REM (R209): the remainder of R183. -/
def remE (d a b : BitVec 6) (s x : BitVec 1) : Strand → Eff Strand := withDivTrap (typed3 tyInt d a b s x (divOp Prod.snd))
def execRem (d a b : BitVec 6) (s x : BitVec 1) (st : State) : Res := runS (remE d a b s x) st

/-- MIN (R208): the smaller of a and b. -/
def minE (d a b : BitVec 6) (s x : BitVec 1) : Strand → Eff Strand := typed3 tyInt d a b s x (intExact fun _ a b => if a ≤ b then a else b)
def execMin (d a b : BitVec 6) (s x : BitVec 1) (st : State) : Res := runS (minE d a b s x) st

/-- MAX (R208): the larger of a and b. -/
def maxE (d a b : BitVec 6) (s x : BitVec 1) : Strand → Eff Strand := typed3 tyInt d a b s x (intExact fun _ a b => if a ≤ b then b else a)
def execMax (d a b : BitVec 6) (s x : BitVec 1) (st : State) : Res := runS (maxE d a b s x) st

/-- MAC (R208): d + a * b, where d is the old element of D. -/
def macE (d a b : BitVec 6) (s x : BitVec 1) : Strand → Eff Strand := typed3 tyInt d a b s x (intOp (fun d a b => d + a * b))
def execMac (d a b : BitVec 6) (s x : BitVec 1) (st : State) : Res := runS (macE d a b s x) st

/-- ABS (R208): the absolute value, fitted by R164. -/
def absE (d a : BitVec 6) (s : BitVec 1) : Strand → Eff Strand := typed2 tyInt d a s (fun t i a l => intOp (fun _ a _ => if a < 0 then -a else a) t i 0 a 0 l)
def execAbs (d a : BitVec 6) (s : BitVec 1) (st : State) : Res := runS (absE d a s) st

/-- NEG (R208): -a, fitted by R164. -/
def negE (d a : BitVec 6) (s : BitVec 1) : Strand → Eff Strand := typed2 tyInt d a s (fun t i a l => intOp (fun _ a _ => -a) t i 0 a 0 l)
def execNeg (d a : BitVec 6) (s : BitVec 1) (st : State) : Res := runS (negE d a s) st

/-- ABSD (R208): the absolute difference, fitted by R164. -/
def absdE (d a b : BitVec 6) (s x : BitVec 1) : Strand → Eff Strand := typed3 tyInt d a b s x (intOp (fun _ a b => if a < b then b - a else a - b))
def execAbsd (d a b : BitVec 6) (s x : BitVec 1) (st : State) : Res := runS (absdE d a b s x) st

/-! ## Logic and shifts (R210) -/

/-- A result over w raw bits. -/
def bitOp (f : Nat → Nat → Nat → Nat) (t : Strand) (_ _ a b : Nat) (l : Lanes) : Nat × Lanes := (f t.w a b % 2 ^ t.w, l)

def shlN (w a c : Nat) : Nat := if w ≤ c then 0 else a * 2 ^ c % 2 ^ w
def shrN (w a c : Nat) : Nat := if w ≤ c then 0 else a % 2 ^ w / 2 ^ c
/-- Arithmetic shift right; a count of w or more copies bit w - 1 (R210). -/
def shraN (w a c : Nat) : Nat := intWrap w (natSigned w a / (2 ^ (if w ≤ c then w else c) : Nat))
def rolN (w a c : Nat) : Nat := (a * 2 ^ (c % w) + a % 2 ^ w / 2 ^ (w - c % w)) % 2 ^ w
/-- The number of 1 bits among the low `w`. -/
def popN : Nat → Nat → Nat
  | 0, _ => 0
  | w + 1, a => a % 2 + popN w (a / 2)
def clzN (w a : Nat) : Nat := if a = 0 then w else w - 1 - Nat.log2 a

/-- AND (R210). -/
def andE (d a b : BitVec 6) (s x : BitVec 1) : Strand → Eff Strand := typed3 tyBits d a b s x (bitOp (fun _ a b => a &&& b))
def execAnd (d a b : BitVec 6) (s x : BitVec 1) (st : State) : Res := runS (andE d a b s x) st

/-- OR (R210). -/
def orE (d a b : BitVec 6) (s x : BitVec 1) : Strand → Eff Strand := typed3 tyBits d a b s x (bitOp (fun _ a b => a ||| b))
def execOr (d a b : BitVec 6) (s x : BitVec 1) (st : State) : Res := runS (orE d a b s x) st

/-- XOR (R210). -/
def xorE (d a b : BitVec 6) (s x : BitVec 1) : Strand → Eff Strand := typed3 tyBits d a b s x (bitOp (fun _ a b => a ^^^ b))
def execXor (d a b : BitVec 6) (s x : BitVec 1) (st : State) : Res := runS (xorE d a b s x) st

/-- ANDN: a AND NOT b (R210). -/
def andnE (d a b : BitVec 6) (s x : BitVec 1) : Strand → Eff Strand := typed3 tyBits d a b s x (bitOp (fun w a b => a &&& (2 ^ w - 1 - b)))
def execAndn (d a b : BitVec 6) (s x : BitVec 1) (st : State) : Res := runS (andnE d a b s x) st

/-- SHL (R210). -/
def shlE (d a b : BitVec 6) (s x : BitVec 1) : Strand → Eff Strand := typed3 tyBits d a b s x (bitOp shlN)
def execShl (d a b : BitVec 6) (s x : BitVec 1) (st : State) : Res := runS (shlE d a b s x) st

/-- SHR (R210). -/
def shrE (d a b : BitVec 6) (s x : BitVec 1) : Strand → Eff Strand := typed3 tyBits d a b s x (bitOp shrN)
def execShr (d a b : BitVec 6) (s x : BitVec 1) (st : State) : Res := runS (shrE d a b s x) st

/-- SHRA (R210). -/
def shraE (d a b : BitVec 6) (s x : BitVec 1) : Strand → Eff Strand := typed3 tyBits d a b s x (bitOp shraN)
def execShra (d a b : BitVec 6) (s x : BitVec 1) (st : State) : Res := runS (shraE d a b s x) st

/-- ROL (R210). -/
def rolE (d a b : BitVec 6) (s x : BitVec 1) : Strand → Eff Strand := typed3 tyBits d a b s x (bitOp rolN)
def execRol (d a b : BitVec 6) (s x : BitVec 1) (st : State) : Res := runS (rolE d a b s x) st

/-- NOT (R210). -/
def notE (d a : BitVec 6) (s : BitVec 1) : Strand → Eff Strand := typed2 tyBits d a s (fun t i a l => bitOp (fun w a _ => 2 ^ w - 1 - a) t i 0 a 0 l)
def execNot (d a : BitVec 6) (s : BitVec 1) (st : State) : Res := runS (notE d a s) st

/-- POPC (R210). -/
def popcE (d a : BitVec 6) (s : BitVec 1) : Strand → Eff Strand := typed2 tyBits d a s (fun t i a l => bitOp (fun w a _ => popN w a) t i 0 a 0 l)
def execPopc (d a : BitVec 6) (s : BitVec 1) (st : State) : Res := runS (popcE d a s) st

/-- CLZ (R210). -/
def clzE (d a : BitVec 6) (s : BitVec 1) : Strand → Eff Strand := typed2 tyBits d a s (fun t i a l => bitOp (fun w a _ => clzN w a) t i 0 a 0 l)
def execClz (d a : BitVec 6) (s : BitVec 1) (st : State) : Res := runS (clzE d a s) st

/-! ## Immediate forms (R211) -/

/-- A 13-bit immediate as an integer. -/
def immI (i : BitVec 13) : Int := i.toInt
/-- SignExt(IMM, 13) over 64 bits. -/
def immW (i : BitVec 13) : Word := i.signExtend 64

/-- The two forms of an I-format instruction: a vector form of the given class over elements, or 64 bits. -/
def immForm (ok : Nat → Bool) (d a : BitVec 6) (s : BitVec 1) (vec : Strand → Nat → Lanes → Nat × Lanes) (sca : Word → Word)
    (t : Strand) : Eff Strand :=
  if s == 1#1 then .done (t.setX d (sca (t.x a)))
  else withType ok t <| withShape t <| .done (vecForm t d fun i l => vec t (elem t.w (t.vreg a) i) l)

/-- A logic immediate over w raw bits. -/
def immBits (f : Nat → Nat → Nat → Nat) (i : BitVec 13) (t : Strand) (a : Nat) (l : Lanes) : Nat × Lanes :=
  (f t.w a ((immW i).toNat % 2 ^ t.w) % 2 ^ t.w, l)

/-- ADDI (R211): a + Signed(IMM). -/
def addiE (d a : BitVec 6) (s : BitVec 1) (i : BitVec 13) : Strand → Eff Strand := immForm tyInt d a s (fun t a l => fitInt (mdSat t.md) t.ty (tyRead t.ty a + immI i) l) (fun x => x + immW i)
def execAddi (d a : BitVec 6) (s : BitVec 1) (i : BitVec 13) (st : State) : Res := runS (addiE d a s i) st

/-- ANDI (R211). -/
def andiE (d a : BitVec 6) (s : BitVec 1) (i : BitVec 13) : Strand → Eff Strand := immForm tyBits d a s (immBits (fun _ a b => a &&& b) i) (fun x => x &&& immW i)
def execAndi (d a : BitVec 6) (s : BitVec 1) (i : BitVec 13) (st : State) : Res := runS (andiE d a s i) st

/-- ORI (R211). -/
def oriE (d a : BitVec 6) (s : BitVec 1) (i : BitVec 13) : Strand → Eff Strand := immForm tyBits d a s (immBits (fun _ a b => a ||| b) i) (fun x => x ||| immW i)
def execOri (d a : BitVec 6) (s : BitVec 1) (i : BitVec 13) (st : State) : Res := runS (oriE d a s i) st

/-- XORI (R211). -/
def xoriE (d a : BitVec 6) (s : BitVec 1) (i : BitVec 13) : Strand → Eff Strand := immForm tyBits d a s (immBits (fun _ a b => a ^^^ b) i) (fun x => x ^^^ immW i)
def execXori (d a : BitVec 6) (s : BitVec 1) (i : BitVec 13) (st : State) : Res := runS (xoriE d a s i) st

/-- SHLI (R211): as R210 with c = IMM<5:0>. -/
def shliE (d a : BitVec 6) (s : BitVec 1) (c : BitVec 6) : Strand → Eff Strand := immForm tyBits d a s (fun t a l => (shlN t.w a c.toNat % 2 ^ t.w, l)) (fun x => BitVec.ofNat 64 (shlN 64 x.toNat c.toNat))
def execShli (d a : BitVec 6) (s : BitVec 1) (c : BitVec 6) (st : State) : Res := runS (shliE d a s c) st

/-- SHRI (R211): as R210 with c = IMM<5:0>. -/
def shriE (d a : BitVec 6) (s : BitVec 1) (c : BitVec 6) : Strand → Eff Strand := immForm tyBits d a s (fun t a l => (shrN t.w a c.toNat % 2 ^ t.w, l)) (fun x => BitVec.ofNat 64 (shrN 64 x.toNat c.toNat))
def execShri (d a : BitVec 6) (s : BitVec 1) (c : BitVec 6) (st : State) : Res := runS (shriE d a s c) st

/-- SHRAI (R211): as R210 with c = IMM<5:0>. -/
def shraiE (d a : BitVec 6) (s : BitVec 1) (c : BitVec 6) : Strand → Eff Strand := immForm tyBits d a s (fun t a l => (shraN t.w a c.toNat % 2 ^ t.w, l)) (fun x => BitVec.ofNat 64 (shraN 64 x.toNat c.toNat))
def execShrai (d a : BitVec 6) (s : BitVec 1) (c : BitVec 6) (st : State) : Res := runS (shraiE d a s c) st

/-- ROLI (R211): as R210 with c = IMM<5:0>. -/
def roliE (d a : BitVec 6) (s : BitVec 1) (c : BitVec 6) : Strand → Eff Strand := immForm tyBits d a s (fun t a l => (rolN t.w a c.toNat % 2 ^ t.w, l)) (fun x => BitVec.ofNat 64 (rolN 64 x.toNat c.toNat))
def execRoli (d a : BitVec 6) (s : BitVec 1) (c : BitVec 6) (st : State) : Res := runS (roliE d a s c) st

/-- LUI (R212): SignExt(IMM, 20) * 2^12. -/
def luiE (d : BitVec 6) (i : BitVec 20) (t : Strand) : Eff Strand := .done (t.setX d (i.signExtend 64 <<< 12))
def execLui (d : BitVec 6) (i : BitVec 20) (st : State) : Res := runS (luiE d i) st

/-- ADPC (R212): PC + SignExt(IMM, 20) * 2^12. -/
def adpcE (d : BitVec 6) (i : BitVec 20) (t : Strand) : Eff Strand := .done (t.setX d (t.pc + (i.signExtend 64 <<< 12)))
def execAdpc (d : BitVec 6) (i : BitVec 20) (st : State) : Res := runS (adpcE d i) st

/-! ## Compares (R213) -/

/-- Bits of a mask from index `i` for `n` elements: an active element takes `p`. -/
def maskLoop (act : Nat → Bool) (p : Nat → Lanes → Bool × Lanes) : Nat → Nat → Bits1024 → Lanes → Bits1024 × Lanes
  | 0, _, m, l => (m, l)
  | n + 1, i, m, l =>
    if act i then
      let (b, l') := p i l
      maskLoop act p n (i + 1) (setBit m i b) l'
    else maskLoop act p n (i + 1) m l

/-- The two forms of a compare: a mask of the active elements, or 0 or 1 in an x register. -/
def cmpForm (ok : Nat → Bool) (d a b : BitVec 6) (s x : BitVec 1) (p : Strand → Nat → Nat → Lanes → Bool × Lanes) (t : Strand) : Eff Strand :=
  withType ok t <|
    if s == 1#1 then
      let (r, l) := p t ((t.x a).toNat % 2 ^ t.w) ((t.x b).toNat % 2 ^ t.w) { flags := 0, gens := t.gens }
      .done ((t.setX d (if r then 1 else 0)).flag l.flags)
    else withShape t <|
      let (m, l) := maskLoop t.active (fun i l => p t (elem t.w (t.vreg a) i) (t.opB b x i) l) t.el 0 (t.mask d) { flags := 0, gens := t.gens }
      .done ((t.setM d m).flag l.flags)

/-- An integer predicate, signed or unsigned by type. -/
def intPred (p : Int → Int → Bool) (t : Strand) (a b : Nat) (l : Lanes) : Bool × Lanes := (p (tyRead t.ty a) (tyRead t.ty b), l)

/-- CEQ (R213). -/
def ceqE (d a b : BitVec 6) (s x : BitVec 1) : Strand → Eff Strand := cmpForm tyInt d a b s x (intPred fun a b => decide (a = b))
def execCeq (d a b : BitVec 6) (s x : BitVec 1) (st : State) : Res := runS (ceqE d a b s x) st

/-- CNE (R213). -/
def cneE (d a b : BitVec 6) (s x : BitVec 1) : Strand → Eff Strand := cmpForm tyInt d a b s x (intPred fun a b => decide (a ≠ b))
def execCne (d a b : BitVec 6) (s x : BitVec 1) (st : State) : Res := runS (cneE d a b s x) st

/-- CLT (R213). -/
def cltE (d a b : BitVec 6) (s x : BitVec 1) : Strand → Eff Strand := cmpForm tyInt d a b s x (intPred fun a b => decide (a < b))
def execClt (d a b : BitVec 6) (s x : BitVec 1) (st : State) : Res := runS (cltE d a b s x) st

/-- CLE (R213). -/
def cleE (d a b : BitVec 6) (s x : BitVec 1) : Strand → Eff Strand := cmpForm tyInt d a b s x (intPred fun a b => decide (a ≤ b))
def execCle (d a b : BitVec 6) (s x : BitVec 1) (st : State) : Res := runS (cleE d a b s x) st

/-- CGT (R213). -/
def cgtE (d a b : BitVec 6) (s x : BitVec 1) : Strand → Eff Strand := cmpForm tyInt d a b s x (intPred fun a b => decide (b < a))
def execCgt (d a b : BitVec 6) (s x : BitVec 1) (st : State) : Res := runS (cgtE d a b s x) st

/-- CGE (R213). -/
def cgeE (d a b : BitVec 6) (s x : BitVec 1) : Strand → Eff Strand := cmpForm tyInt d a b s x (intPred fun a b => decide (b ≤ a))
def execCge (d a b : BitVec 6) (s x : BitVec 1) (st : State) : Res := runS (cgeE d a b s x) st

/-! ## Mask operations (R214) -/

/-- A mask of the bits below `n`. -/
def lowMask (n : Nat) : Bits1024 := BitVec.ofNat 1024 (2 ^ n - 1)

/-- Step 8 of R200 for an instruction that reads MD and accepts every type. -/
def withMd (t : Strand) (f : Eff Strand) : Eff Strand := if !mdOk t.md then .trap t (modeTrap t 5) else f

/-- The lowest `i < n` with bit `i` set; `n` if there is none. -/
def firstBit (m : Bits1024) (n : Nat) : Nat := ((List.range n).find? fun i => m.getLsbD i).getD n

/-- MAND (R214). -/
def mandE (d a b : BitVec 6) (t : Strand) : Eff Strand := .done (t.setM d (t.mask a &&& t.mask b))
def execMand (d a b : BitVec 6) (st : State) : Res := runS (mandE d a b) st

/-- MOR (R214). -/
def morE (d a b : BitVec 6) (t : Strand) : Eff Strand := .done (t.setM d (t.mask a ||| t.mask b))
def execMor (d a b : BitVec 6) (st : State) : Res := runS (morE d a b) st

/-- MXOR (R214). -/
def mxorE (d a b : BitVec 6) (t : Strand) : Eff Strand := .done (t.setM d (t.mask a ^^^ t.mask b))
def execMxor (d a b : BitVec 6) (st : State) : Res := runS (mxorE d a b) st

/-- MANDN (R214). -/
def mandnE (d a b : BitVec 6) (t : Strand) : Eff Strand := .done (t.setM d (t.mask a &&& ~~~t.mask b))
def execMandn (d a b : BitVec 6) (st : State) : Res := runS (mandnE d a b) st

/-- MNOT (R214). -/
def mnotE (d a : BitVec 6) (t : Strand) : Eff Strand := .done (t.setM d (~~~(t.mask a)))
def execMnot (d a : BitVec 6) (st : State) : Res := runS (mnotE d a) st

/-- MSET (R214): bits 0 to EL - 1. -/
def msetE (d : BitVec 6) (t : Strand) : Eff Strand := withMd t <| .done (t.setM d (lowMask t.elM))
def execMset (d : BitVec 6) (st : State) : Res := runS (msetE d) st

/-- MCLR (R214). -/
def mclrE (d : BitVec 6) (t : Strand) : Eff Strand := .done (t.setM d 0)
def execMclr (d : BitVec 6) (st : State) : Res := runS (mclrE d) st

/-- MPOPC (R214). -/
def mpopcE (d a : BitVec 6) (t : Strand) : Eff Strand := withMd t <| .done (t.setX d (BitVec.ofNat 64 (popN t.elM (t.mask a).toNat)))
def execMpopc (d a : BitVec 6) (st : State) : Res := runS (mpopcE d a) st

/-- MFIRST (R214). -/
def mfirstE (d a : BitVec 6) (t : Strand) : Eff Strand := withMd t <| .done (t.setX d (BitVec.ofNat 64 (firstBit (t.mask a) t.elM)))
def execMfirst (d a : BitVec 6) (st : State) : Res := runS (mfirstE d a) st

/-- MTOX (R214). -/
def mtoxE (d a : BitVec 6) (t : Strand) : Eff Strand := .done (t.setX d ((t.mask a).extractLsb' 0 64))
def execMtox (d a : BitVec 6) (st : State) : Res := runS (mtoxE d a) st

/-- XTOM (R214). -/
def xtomE (d a : BitVec 6) (t : Strand) : Eff Strand := .done (t.setM d ((t.x a).setWidth 1024))
def execXtom (d a : BitVec 6) (st : State) : Res := runS (xtomE d a) st

/-! ## Permutes, slides and broadcast (R215) -/

/-- A PERM form: `f i` gives the new bits of element `i`, or `none` where it keeps its bits. -/
def permForm (ok : Nat → Bool) (d : BitVec 6) (f : Strand → Nat → Option Nat) (t : Strand) : Eff Strand :=
  withType ok t <| withShape t <|
    .done (t.setV d (elemLoop t.w (fun i => (f t i).isSome) (fun i l => ((f t i).getD 0, l)) t.el 0 (t.vreg d) { flags := 0, gens := [] }).1)

/-- Every type (R207). -/
def tyAny (_ : Nat) : Bool := true

/-- The guarded indices below EL, ascending. -/
def Strand.picked (t : Strand) : List Nat := (List.range t.el).filter fun i => t.guard i
/-- How many guarded indices lie below `i`. -/
def Strand.rank (t : Strand) (i : Nat) : Nat := ((List.range i).filter fun j => t.guard j).length

/-- SEL (R215): every i < EL is written. -/
def selE (d a b : BitVec 6) (t : Strand) : Eff Strand := permForm tyAny d (fun t i => some (if t.guard i then elem t.w (t.vreg a) i else elem t.w (t.vreg b) i)) t
def execSel (d a b : BitVec 6) (st : State) : Res := runS (selE d a b) st

/-- SLUP (R215). -/
def slupE (d a b : BitVec 6) (t : Strand) : Eff Strand := permForm tyAny d (fun t i => if t.guard i && decide ((t.x b).toNat ≤ i) then some (elem t.w (t.vreg a) (i - (t.x b).toNat)) else none) t
def execSlup (d a b : BitVec 6) (st : State) : Res := runS (slupE d a b) st

/-- SLDN (R215). -/
def sldnE (d a b : BitVec 6) (t : Strand) : Eff Strand := permForm tyAny d (fun t i => if t.guard i then some (if i + (t.x b).toNat < t.el then elem t.w (t.vreg a) (i + (t.x b).toNat) else 0) else none) t
def execSldn (d a b : BitVec 6) (st : State) : Res := runS (sldnE d a b) st

/-- VPERM (R215). -/
def vpermE (d a b : BitVec 6) (t : Strand) : Eff Strand := permForm tyAny d (fun t i => if t.guard i then some (if elem t.w (t.vreg b) i < t.el then elem t.w (t.vreg a) (elem t.w (t.vreg b) i) else 0) else none) t
def execVperm (d a b : BitVec 6) (st : State) : Res := runS (vpermE d a b) st

/-- COMPR (R215): the k-th guarded index writes element k. -/
def comprE (d a : BitVec 6) (t : Strand) : Eff Strand := permForm tyAny d (fun t k => (t.picked[k]?).map fun i => elem t.w (t.vreg a) i) t
def execCompr (d a : BitVec 6) (st : State) : Res := runS (comprE d a) st

/-- EXPND (R215): the k-th guarded index takes element k. -/
def expndE (d a : BitVec 6) (t : Strand) : Eff Strand := permForm tyAny d (fun t i => if t.guard i then some (elem t.w (t.vreg a) (t.rank i)) else none) t
def execExpnd (d a : BitVec 6) (st : State) : Res := runS (expndE d a) st

/-- BCAST (R215). -/
def bcastE (d b : BitVec 6) (t : Strand) : Eff Strand := permForm tyAny d (fun t i => if t.guard i then some ((t.x b).toNat % 2 ^ t.w) else none) t
def execBcast (d b : BitVec 6) (st : State) : Res := runS (bcastE d b) st

/-- IOTA (R215). -/
def iotaE (d : BitVec 6) (t : Strand) : Eff Strand := permForm tyInt d (fun t i => if t.guard i then some (i % 2 ^ t.w) else none) t
def execIota (d : BitVec 6) (st : State) : Res := runS (iotaE d) st

/-- ZIP (R215). -/
def zipE (d a b : BitVec 6) (t : Strand) : Eff Strand := permForm tyAny d (fun t i => if t.guard i then some (if i % 2 = 0 then elem t.w (t.vreg a) (i / 2) else elem t.w (t.vreg b) ((i - 1) / 2)) else none) t
def execZip (d a b : BitVec 6) (st : State) : Res := runS (zipE d a b) st

/-- UNZIP (R215): C(2i), where C is A followed by B. -/
def unzipE (d a b : BitVec 6) (t : Strand) : Eff Strand := permForm tyAny d (fun t i => if t.guard i then some (if 2 * i < t.el then elem t.w (t.vreg a) (2 * i) else elem t.w (t.vreg b) (2 * i - t.el)) else none) t
def execUnzip (d a b : BitVec 6) (st : State) : Res := runS (unzipE d a b) st

/-! ## Integer reductions (R182, R217) -/

/-- One level of the fixed tree, from node `i`: neighbours combine, an absent partner leaves the present one. -/
def treeLevel {α β : Type} (f : Nat → α → α → β → α × β) : Nat → List (Option α) → β → List (Option α) × β
  | i, some a :: some b :: r, l =>
    let (c, l1) := f i a b l
    let (cs, l2) := treeLevel f (i + 1) r l1
    (some c :: cs, l2)
  | i, some a :: none :: r, l => let (cs, l2) := treeLevel f (i + 1) r l; (some a :: cs, l2)
  | i, none :: o :: r, l => let (cs, l2) := treeLevel f (i + 1) r l; (o :: cs, l2)
  | _, [o], l => ([o], l)
  | _, [], l => ([], l)

/-- The fixed tree of R182 over at most 1,024 positions; `none` where every position is absent. `f` takes the node's index. -/
def treeReduce {α β : Type} (f : Nat → α → α → β → α × β) : Nat → List (Option α) → β → Option α × β
  | 0, ns, l => ((ns.head?).join, l)
  | n + 1, ns, l =>
    let (ms, l1) := treeLevel f 0 ns l
    treeReduce f n ms l1

/-- The elements of vA as the leaves of the tree: an inactive one is absent. -/
def Strand.leaves (t : Strand) (a : BitVec 6) : List (Option Nat) :=
  (List.range t.el).map fun i => if t.active i then some (elem t.w (t.vreg a) i) else none

/-- An integer reduction: combine exact integers, fit the root by R164 when `fit`. -/
def redForm (d a : BitVec 6) (f : Strand → Int → Int → Int) (ident : Nat → Int) (t : Strand) : Eff Strand :=
  withType tyInt t <| withShape t <|
    let leaves := (t.leaves a).map fun o => o.map fun n => tyRead t.ty n
    let root := (treeReduce (fun _ x y (u : Unit) => (f t x y, u)) 10 leaves ()).1.getD (ident t.ty)
    let (r, l) := fitInt (mdSat t.md) t.ty root { flags := 0, gens := t.gens }
    .done ((t.setX d (extScalar t.ty r)).flag l.flags)

/-- A bitwise combination of two typed values, back as a typed value. -/
def bitComb (f : Nat → Nat → Nat) (t : Strand) (a b : Int) : Int := tyRead t.ty (f (intWrap t.w a) (intWrap t.w b))

/-- RSUM (R217): the exact sum, its root fitted by R164. -/
def rsumE (d a : BitVec 6) (t : Strand) : Eff Strand := redForm d a (fun _ a b => a + b) (fun _ => 0) t
def execRsum (d a : BitVec 6) (st : State) : Res := runS (rsumE d a) st

/-- RMIN (R217): the smaller. -/
def rminE (d a : BitVec 6) (t : Strand) : Eff Strand := redForm d a (fun _ a b => if a ≤ b then a else b) (tyMax) t
def execRmin (d a : BitVec 6) (st : State) : Res := runS (rminE d a) st

/-- RMAX (R217): the larger. -/
def rmaxE (d a : BitVec 6) (t : Strand) : Eff Strand := redForm d a (fun _ a b => if a ≤ b then b else a) (tyMin) t
def execRmax (d a : BitVec 6) (st : State) : Res := runS (rmaxE d a) st

/-- RAND (R217): AND of w bits. -/
def randE (d a : BitVec 6) (t : Strand) : Eff Strand := redForm d a (bitComb fun a b => a &&& b) (fun ty => tyRead ty (2 ^ tyWidth ty - 1)) t
def execRand (d a : BitVec 6) (st : State) : Res := runS (randE d a) st

/-- ROR (R217): OR of w bits. -/
def rorE (d a : BitVec 6) (t : Strand) : Eff Strand := redForm d a (bitComb fun a b => a ||| b) (fun _ => 0) t
def execRor (d a : BitVec 6) (st : State) : Res := runS (rorE d a) st

/-- RXOR (R217): XOR of w bits. -/
def rxorE (d a : BitVec 6) (t : Strand) : Eff Strand := redForm d a (bitComb fun a b => a ^^^ b) (fun _ => 0) t
def execRxor (d a : BitVec 6) (st : State) : Res := runS (rxorE d a) st

end Sys2Proof.Machine
end

