-- ==== Sys2Proof/Machine/Control.lean ====
section
/-!
DEFINITION. Vector length, shape and mode (R218, R219), branches and jumps (R220, R221), and LOOP (R223).
-/
namespace Sys2Proof.Machine

open Sys2Proof

/-! ## Vector length, shape and mode (R218) -/

/-- VSTRIP: SC := min(xA, 2^48 - 1); VL := min(SC, CAP); xD := VL. -/
def vstripE (d a : BitVec 6) (t : Strand) : Eff Strand :=
  withMd t <|
    let sc := Nat.min (t.x a).toNat (2 ^ 48 - 1)
    let vl := Nat.min sc t.cap
    .done ({ t with sc := BitVec.ofNat 48 sc, vl := BitVec.ofNat 11 vl }.setX d (BitVec.ofNat 64 vl))
def execVstrip (d a : BitVec 6) (st : State) : Res := runS (vstripE d a) st

/-- VNEXT: SC falls by VL, not below 0; VL := min(SC, CAP); xD := VL. -/
def vnextE (d : BitVec 6) (t : Strand) : Eff Strand :=
  withMd t <|
    let sc := t.sc.toNat - t.vl.toNat
    let vl := Nat.min sc t.cap
    .done ({ t with sc := BitVec.ofNat 48 sc, vl := BitVec.ofNat 11 vl }.setX d (BitVec.ofNat 64 vl))
def execVnext (d : BitVec 6) (st : State) : Res := runS (vnextE d) st

/-- SHAPE: the shape trap on a side above 1024; else VROWS, VCOLS, VL and xD. It reads no field of MD. -/
def shapeE (d a b : BitVec 6) (t : Strand) : Eff Strand :=
  if 1024 < (t.x a).toNat ∨ 1024 < (t.x b).toNat then .trap t (trapOf 0x04 0 (t.x a * t.x b))
  else
    let n := (t.x a).toNat * (t.x b).toNat
    .done ({ t with vrows := BitVec.ofNat 11 (t.x a).toNat, vcols := BitVec.ofNat 11 (t.x b).toNat,
                    vl := BitVec.ofNat 11 (Nat.min n 1024) }.setX d (BitVec.ofNat 64 n))
def execShape (d a b : BitVec 6) (st : State) : Res := runS (shapeE d a b) st

/-- VLQ: the size of the spill frame of a selection. -/
def vlqE (d a : BitVec 6) (t : Strand) : Eff Strand :=
  .done (t.setX d (BitVec.ofNat 64 (64 + 1024 * popN 48 (t.dm.toNat &&& (t.x a).toNat))))
def execVlq (d a : BitVec 6) (st : State) : Res := runS (vlqE d a) st

/-- DCOL: the row and column of a linear index, in the layout of VS. -/
def dcolE (d a : BitVec 6) (t : Strand) : Eff Strand :=
  let c := t.vcols.toNat
  let n := (t.x a).toNat
  .done (t.setX d (if c ≠ 0 ∧ n < t.vrows.toNat * c then BitVec.ofNat 64 (n % c + 2 ^ 16 * (n / c) + 2 ^ 31) else 0))
def execDcol (d a : BitVec 6) (st : State) : Res := runS (dcolE d a) st

/-- GETMODE: MD and ST. It reads MD, so a restored reserved value traps (R129). -/
def getmodeE (d : BitVec 6) (t : Strand) : Eff Strand :=
  withMd t <| .done (t.setX d (BitVec.ofNat 64 (t.md.toNat + 2 ^ 32 * t.st.toNat)))
def execGetmode (d : BitVec 6) (st : State) : Res := runS (getmodeE d) st

/-! ## SETMODE (R219) -/

/-- A new MD; a reserved value in it raises the illegal-mode trap and changes nothing (notes/assumptions/14.md for TVAL). -/
def newMode (md : BitVec 20) (clear : BitVec 6) (t : Strand) : Eff Strand :=
  if !mdOk md then .trap t (trapOf 0x02 1 (md.setWidth 64)) else .done { t with md := md, st := t.st &&& ~~~clear }

/-- SETMODE, register form: xA<19:0> and the ST bits of xA<37:32> that it clears. -/
def setmodeE (a : BitVec 6) (t : Strand) : Eff Strand := newMode ((t.x a).extractLsb' 0 20) ((t.x a).extractLsb' 32 6) t
def execSetmode (a : BitVec 6) (st : State) : Res := runS (setmodeE a) st

/-- SETMODE, immediate form. -/
def setmodeImmE (i : BitVec 20) (t : Strand) : Eff Strand := newMode i 0 t
def execSetmodeImm (i : BitVec 20) (st : State) : Res := runS (setmodeImmE i) st

/-! ## Branches (R220) -/

/-- PC + 4 * Signed(OFF). -/
def relPc {n : Nat} (pc : Word) (o : BitVec n) : Word := (pc + (o.signExtend 64 <<< 2)) &&& pcMask

/-- A branch: taken to the offset, or on to the next instruction. -/
def brE (taken : Strand → Bool) (o : BitVec 10) (t : Strand) : Eff Strand := if taken t then .jump t (relPc t.pc o) else .done t

/-- Some bit below EL of a mask is 1. -/
def Strand.anyMask (t : Strand) (a : BitVec 6) : Bool := (t.mask a &&& lowMask t.elM) != 0

/-- BEQ: xA = xB. -/
def beqE (a b : BitVec 6) (o : BitVec 10) : Strand → Eff Strand := brE (fun t => t.x a == t.x b) o
def execBeq (a b : BitVec 6) (o : BitVec 10) (st : State) : Res := runS (beqE a b o) st

/-- BNE: xA differs from xB. -/
def bneE (a b : BitVec 6) (o : BitVec 10) : Strand → Eff Strand := brE (fun t => t.x a != t.x b) o
def execBne (a b : BitVec 6) (o : BitVec 10) (st : State) : Res := runS (bneE a b o) st

/-- BLT: signed less than. -/
def bltE (a b : BitVec 6) (o : BitVec 10) : Strand → Eff Strand := brE (fun t => (t.x a).slt (t.x b)) o
def execBlt (a b : BitVec 6) (o : BitVec 10) (st : State) : Res := runS (bltE a b o) st

/-- BGE: signed greater or equal. -/
def bgeE (a b : BitVec 6) (o : BitVec 10) : Strand → Eff Strand := brE (fun t => !(t.x a).slt (t.x b)) o
def execBge (a b : BitVec 6) (o : BitVec 10) (st : State) : Res := runS (bgeE a b o) st

/-- BLTU: unsigned less than. -/
def bltuE (a b : BitVec 6) (o : BitVec 10) : Strand → Eff Strand := brE (fun t => (t.x a).ult (t.x b)) o
def execBltu (a b : BitVec 6) (o : BitVec 10) (st : State) : Res := runS (bltuE a b o) st

/-- BGEU: unsigned greater or equal. -/
def bgeuE (a b : BitVec 6) (o : BitVec 10) : Strand → Eff Strand := brE (fun t => !(t.x a).ult (t.x b)) o
def execBgeu (a b : BitVec 6) (o : BitVec 10) (st : State) : Res := runS (bgeuE a b o) st

/-- BMANY: some bit below EL of mA is 1. -/
def bmanyE (a : BitVec 6) (o : BitVec 10) (t : Strand) : Eff Strand := withMd t <| brE (fun t => t.anyMask a) o t
def execBmany (a : BitVec 6) (o : BitVec 10) (st : State) : Res := runS (bmanyE a o) st

/-- BMNONE: no bit below EL of mA is 1. -/
def bmnoneE (a : BitVec 6) (o : BitVec 10) (t : Strand) : Eff Strand := withMd t <| brE (fun t => !t.anyMask a) o t
def execBmnone (a : BitVec 6) (o : BitVec 10) (st : State) : Res := runS (bmnoneE a o) st

/-! ## Jumps (R221) -/

/-- A jump to a register value, or the jump-target trap. -/
def jumpReg (target : Word) (link : Strand → Strand) (t : Strand) : Eff Strand :=
  if badTarget target then .trap t (trapOf 0x06 0 target) else .jump (link t) target

/-- J. -/
def jE (o : BitVec 26) (t : Strand) : Eff Strand := .jump t (relPc t.pc o)
def execJ (o : BitVec 26) (st : State) : Res := runS (jE o) st

/-- JAL: x47 := PC + 4. -/
def jalE (o : BitVec 26) (t : Strand) : Eff Strand := .jump (t.setX 47 (t.pc + 4)) (relPc t.pc o)
def execJal (o : BitVec 26) (st : State) : Res := runS (jalE o) st

/-- JR. -/
def jrE (a : BitVec 6) (t : Strand) : Eff Strand := jumpReg (t.x a) id t
def execJr (a : BitVec 6) (st : State) : Res := runS (jrE a) st

/-- JALR: xD := PC + 4; xA is read first. -/
def jalrE (d a : BitVec 6) (t : Strand) : Eff Strand := jumpReg (t.x a) (fun t => t.setX d (t.pc + 4)) t
def execJalr (d a : BitVec 6) (st : State) : Res := runS (jalrE d a) st

/-! ## Nest fields (R131) and LOOP (R223) -/

/-- CNTM1 of level `k` of a nest image. -/
def nestCnt (n : Bits1024) (k : Nat) : Nat := natBits n.toNat (160 * k + 23) (160 * k)
/-- Stride `s` (1 to 3) of level `k`, signed 40 bits. -/
def nestStr (n : Bits1024) (k s : Nat) : Int := natSigned 40 (n.toNat >>> (160 * k + 40 * s - 16))
/-- Replace `len` bits from bit `lo` of a nest image. -/
def nestPut (n : Bits1024) (lo len v : Nat) : Bits1024 :=
  BitVec.ofNat 1024 (n.toNat - (n.toNat >>> lo) % 2 ^ len * 2 ^ lo + v % 2 ^ len * 2 ^ lo)
def nestSetCnt (n : Bits1024) (k v : Nat) : Bits1024 := nestPut n (160 * k) 24 v
def nestSetStr (n : Bits1024) (k s v : Nat) : Bits1024 := nestPut n (160 * k + 40 * s - 16) 40 v

/-- LOOP: count a level down and branch while it was nonzero. -/
def loopE (l : BitVec 4) (a : BitVec 6) (o : BitVec 10) (t : Strand) : Eff Strand :=
  let n := t.nest a.toNat
  if nestCnt n l.toNat = 0 then .done t
  else .jump (t.setN a.toNat (nestSetCnt n l.toNat (nestCnt n l.toNat - 1))) (relPc t.pc o)
def execLoop (l : BitVec 4) (a : BitVec 6) (o : BitVec 10) (st : State) : Res := runS (loopE l a o) st

end Sys2Proof.Machine
end

