-- ==== Sys2Proof/Machine/Number.lean ====
section
/-!
DEFINITION. Number formats and arithmetic (spec/11_number_formats.md R164 to R182): exact values, decoding, rounding to a format,
conversion, block scales, the quantiser's search, and the approximate functions of R233.
-/
namespace Sys2Proof.Machine

open Sys2Proof

/-! ## Exact values -/

def Val.zero : Val := .fin false 0 0
def Val.isNan : Val → Bool
  | .nan _ => true
  | _ => false
def Val.isSig : Val → Bool
  | .nan s => s
  | _ => false
def Val.neg : Val → Val
  | .fin s n e => .fin (!s) n e
  | .inf s => .inf (!s)
  | .nan g => .nan g
/-- Multiply by `2^k`, exactly. -/
def Val.scale (k : Int) : Val → Val
  | .fin s n e => .fin s n (e + k)
  | v => v
def Val.ofInt (z : Int) : Val := .fin (decide (z < 0)) z.natAbs 0
/-- `n * 2^(e - f)` where `f ≤ e`. -/
def liftExp (n : Nat) (e f : Int) : Nat := n * 2 ^ (e - f).toNat
/-- A finite value as an integer multiple of `2^f`, `f` at most its exponent. -/
def signedAt (neg : Bool) (n : Nat) (e f : Int) : Int := if neg then -(liftExp n e f : Int) else liftExp n e f
/-- Compare two magnitudes. -/
def cmpMag (n : Nat) (e : Int) (m : Nat) (f : Int) : Ordering :=
  let g := if e ≤ f then e else f
  compare (liftExp n e g) (liftExp m f g)

/-- Exact sum with the specials of R229 and the zero signs of R167; the flags it raises. -/
def Val.add (rm : Nat) (a b : Val) : Val × BitVec 6 :=
  match a, b with
  | .nan g, y => (.nan false, if g || y.isSig then fNV else 0)
  | x, .nan g => (.nan false, if g || x.isSig then fNV else 0)
  | .inf s, .inf t => if s = t then (.inf s, 0) else (.nan false, fNV)
  | .inf s, .fin _ _ _ => (.inf s, 0)
  | .fin _ _ _, .inf t => (.inf t, 0)
  | .fin s n e, .fin t m f =>
    let g := if e ≤ f then e else f
    let z := signedAt s n e g + signedAt t m f g
    if z = 0 then (.fin (if s = t then s else decide (rm = 3)) 0 g, 0) else (.fin (decide (z < 0)) z.natAbs g, 0)

/-- Exact product with the specials of R229. -/
def Val.mul (a b : Val) : Val × BitVec 6 :=
  match a, b with
  | .nan g, y => (.nan false, if g || y.isSig then fNV else 0)
  | x, .nan g => (.nan false, if g || x.isSig then fNV else 0)
  | .inf s, .inf t => (.inf (s != t), 0)
  | .inf s, .fin t m _ => if m = 0 then (.nan false, fNV) else (.inf (s != t), 0)
  | .fin s n _, .inf t => if n = 0 then (.nan false, fNV) else (.inf (s != t), 0)
  | .fin s n e, .fin t m f => (.fin (s != t) (n * m) (e + f), 0)

/-- `n / m * 2^e` as a dyadic number with a last bit that stands for everything below it: every rounding of R172, SR included, treats
it as the quotient, because no format has so many bits. -/
def stickyDiv (s : Bool) (n m : Nat) (e : Int) : Val :=
  let q := n * 2 ^ 256 / m
  .fin s (2 * q + (if n * 2 ^ 256 % m = 0 then 0 else 1)) (e - 257)

/-- The quotient with the specials of R229. -/
def Val.div (a b : Val) : Val × BitVec 6 :=
  match a, b with
  | .nan g, y => (.nan false, if g || y.isSig then fNV else 0)
  | x, .nan g => (.nan false, if g || x.isSig then fNV else 0)
  | .inf _, .inf _ => (.nan false, fNV)
  | .inf s, .fin t _ _ => (.inf (s != t), 0)
  | .fin s _ _, .inf t => (.fin (s != t) 0 0, 0)
  | .fin s n e, .fin t m f =>
    if m = 0 then (if n = 0 then (.nan false, fNV) else (.inf (s != t), fDZ)) else (stickyDiv (s != t) n m (e - f), 0)

/-- The integer square root, bit by bit. -/
def isqrt (n : Nat) : Nat → Nat → Nat
  | 0, r => r
  | k + 1, r => isqrt n k (if (r + 2 ^ k) * (r + 2 ^ k) ≤ n then r + 2 ^ k else r)

/-- The square root of `n * 2^e` with a sticky last bit. -/
def stickySqrt (n : Nat) (e : Int) : Val :=
  let (m, f) := if e % 2 = 0 then (n, e) else (2 * n, e - 1)
  let r := isqrt (m * 2 ^ 256) 200 0
  .fin false (2 * r + (if r * r = m * 2 ^ 256 then 0 else 1)) (f / 2 - 129)

/-- The square root with the specials of R229. -/
def Val.sqrt : Val → Val × BitVec 6
  | .nan g => (.nan false, if g then fNV else 0)
  | .inf s => if s then (.nan false, fNV) else (.inf false, 0)
  | .fin s n e => if n = 0 then (.fin s n e, 0) else if s then (.nan false, fNV) else (stickySqrt n e, 0)

/-- Numeric order, -0 equal to +0; `none` where one is a NaN. -/
def Val.cmp (a b : Val) : Option Ordering :=
  match a, b with
  | .nan _, _ => none
  | _, .nan _ => none
  | .inf s, .inf t => some (if s = t then .eq else if s then .lt else .gt)
  | .inf s, .fin _ _ _ => some (if s then .lt else .gt)
  | .fin _ _ _, .inf t => some (if t then .gt else .lt)
  | .fin s n e, .fin t m f =>
    let g := if e ≤ f then e else f
    some (compare (signedAt s n e g) (signedAt t m f g))

/-! ## Formats (R166, R168, R170) -/

/-- Mantissa bits of a floating format. -/
def mBits (ty : Nat) : Nat :=
  match ty with
  | 8 => 10 | 9 => 7 | 10 => 23 | 11 => 52 | 12 => 3 | _ => 2
/-- Exponent bits. -/
def eBits (ty : Nat) : Nat :=
  match ty with
  | 8 => 5 | 9 => 8 | 10 => 8 | 11 => 11 | 12 => 4 | _ => 5
def bias (ty : Nat) : Nat := 2 ^ (eBits ty - 1) - 1
/-- The exponent of the spacing of subnormals. -/
def minQ (ty : Nat) : Int := 1 - (bias ty : Int) - mBits ty
/-- The code of the largest finite magnitude; the next code is infinity, or the NaN of e4m3. -/
def maxCode (ty : Nat) : Nat := if ty = 12 then 0x7E else (2 ^ eBits ty - 1) * 2 ^ mBits ty - 1
/-- The magnitude that a code would have with no upper exponent limit: multiple of a power of two. -/
def codeMag (ty c : Nat) : Nat × Int :=
  let ef := c / 2 ^ mBits ty
  let m := c % 2 ^ mBits ty
  if ef = 0 then (m, minQ ty) else (2 ^ mBits ty + m, minQ ty + ef - 1)
/-- The canonical NaN of R167. -/
def canonicalNan (ty : Nat) : Nat :=
  match ty with
  | 8 => 0x7E00 | 9 => 0x7FC0 | 10 => 0x7FC00000 | 11 => 0x7FF8000000000000 | 12 => 0x7F | 13 => 0x7E | _ => 0

/-- The mantissa table T of R168. -/
def l6T (f : Nat) : Nat :=
  match f with
  | 0 => 0x8000 | 1 => 0x9838 | 2 => 0xB505 | _ => 0xD745
/-- The magnitude of l6 code `m`, as a multiple of 2^-19. -/
def l6Mag (m : Nat) : Nat := if m = 0 then 0 else l6T (m % 4) * 2 ^ (m / 4)

/-- Decode an element of w raw bits (R164, R166, R168, R170). The reserved t2 code reads as 0. -/
def decodeVal (ty n : Nat) : Val :=
  if ty < 8 then Val.ofInt (tyRead ty n)
  else if ty = 14 then .fin (natBit n 5 && decide (n % 32 ≠ 0)) (l6Mag (n % 32)) (-19)
  else if ty = 15 then (if n % 4 = 1 then .fin false 1 0 else if n % 4 = 3 then .fin true 1 0 else .zero)
  else
    let s := natBit n (tyWidth ty - 1)
    let c := n % 2 ^ (tyWidth ty - 1)
    if c ≤ maxCode ty then .fin s (codeMag ty c).1 (codeMag ty c).2
    else if ty = 12 then .nan false
    else if c = maxCode ty + 1 then .inf s
    else .nan (!natBit c (mBits ty - 1))

/-- The flag that reading an operand raises: the reserved t2 code (R170). -/
def readFlag (ty n : Nat) : BitVec 6 := if ty = 15 ∧ n % 4 = 2 then fNV else 0

/-- LogProduct of two l6 codes (R169). -/
def logProduct (a b : Nat) : Val :=
  if a % 32 = 0 ∨ b % 32 = 0 then .zero
  else
    let p := a % 32 + b % 32
    .fin (natBit a 5 != natBit b 5) (l6T (p % 4)) (((p / 4 : Nat) : Int) - 8 - 15)

/-! ## Rounding (R172, R173, R176) -/

/-- Whether a magnitude that lies `r / q` of the way between its neighbours goes to the larger one: `neg` is the sign, `odd` the last
bit of the smaller neighbour's code, `u` the draw of SR. Modes 6 and 7 are the model's own: toward and away from zero. -/
def goesUp (rm : Nat) (neg odd : Bool) (r q u : Nat) : Bool :=
  match rm with
  | 0 => decide (q < 2 * r) || (decide (2 * r = q) && odd)
  | 1 => false
  | 2 => !neg
  | 3 => neg
  | 4 => decide (q ≤ 2 * r)
  | 5 => if neg then !decide (u < 2 ^ 16 * (q - r) / q) else decide (u < 2 ^ 16 * r / q)
  | 6 => false
  | _ => true

/-- Round `n * 2^e` to a multiple of `2^k`: the multiple, and whether it is inexact. -/
def roundAt (rm : Nat) (neg : Bool) (n : Nat) (e k : Int) (u : Nat) : Nat × Bool :=
  if k ≤ e then (liftExp n e k, false)
  else
    let q := 2 ^ (k - e).toNat
    let lo := n / q
    let r := n % q
    if r = 0 then (lo, false) else (if goesUp rm neg (lo % 2 == 1) r q u then lo + 1 else lo, true)

/-- The result of a floating overflow (R176): its code and its flags. -/
def overflow (ty : Nat) (neg : Bool) (rm : Nat) (sat : Bool) : Nat × BitVec 6 :=
  let sign := if neg then 2 ^ (tyWidth ty - 1) else 0
  if sat then (sign + maxCode ty, fSAT ||| fNX)
  else
    let toInf := match rm with
      | 0 => true | 4 => true | 2 => !neg | 3 => neg | _ => false
    if toInf then (if ty = 12 then canonicalNan 12 else sign + maxCode ty + 1, fOF ||| fNX)
    else (sign + maxCode ty, fOF ||| fNX)

/-- The last l6 magnitude code whose value is at most `n * 2^e`. -/
def l6Below (n : Nat) (e : Int) : Nat := ((List.range 32).filter fun m => cmpMag (l6Mag m) (-19) n e != .gt).length - 1

/-- Round a finite value to l6. -/
def roundL6 (rm : Nat) (neg : Bool) (n : Nat) (e : Int) (u : Nat) : Nat × BitVec 6 :=
  let sign := if neg then 32 else 0
  let lo := l6Below n e
  if cmpMag (l6Mag lo) (-19) n e = .eq then (if lo = 0 then 0 else sign + lo, 0)
  else if lo = 31 then (sign + 31, fSAT ||| fNX)
  else
    let g := if e ≤ -19 then e else -19
    let a := liftExp (l6Mag lo) (-19) g
    let b := liftExp (l6Mag (lo + 1)) (-19) g
    let m := if goesUp rm neg (lo % 2 == 1) (liftExp n e g - a) (b - a) u then lo + 1 else lo
    (if m = 0 then 0 else sign + m, fNX)

/-- Round a finite value to t2 (R177): an integer in `rm`, then the clamp. A magnitude above 1 sets SAT. -/
def roundT2 (rm : Nat) (neg : Bool) (n : Nat) (e : Int) (u : Nat) : Nat × BitVec 6 :=
  let (k, nx) := roundAt rm neg n e 0 u
  let sat := cmpMag n e 1 0 == .gt
  (if k = 0 then 0 else if neg then 3 else 1, (if nx then fNX else 0) ||| (if sat then fSAT else 0))

/-- Round a finite value to a floating format of R166. `orm` is the mode that an overflow sees. Under SR the draw decides whether a value between the
largest finite one and the next one counts as an overflow, as R173 judges the rounded value; R172 says that no draw decides it (DESIGN CHOICE,
notes/assumptions/119.md). -/
def roundFloat (sat : Bool) (rm orm ty : Nat) (neg : Bool) (n : Nat) (e : Int) (u : Nat) : Nat × BitVec 6 :=
  let sign := if neg then 2 ^ (tyWidth ty - 1) else 0
  if n = 0 then (sign, 0)
  else
    let top : Int := e + Nat.log2 n - mBits ty
    let k := if top ≤ minQ ty then minQ ty else top
    let (y, nx) := roundAt rm neg n e k u
    let c := (k - minQ ty).toNat * 2 ^ mBits ty + y
    if maxCode ty < c then overflow ty neg orm sat
    else
      (sign + c, (if nx then fNX else 0) ||| (if nx && decide (0 < c) && decide (c < 2 ^ mBits ty) then fUF else 0))

/-- RoundTo for the floating formats, l6 and t2 (R173), with the specials of R167 and R176 and a signalling NaN operand (R167). -/
def roundToF (sat : Bool) (rm orm ty : Nat) (v : Val) (u : Nat) : Nat × BitVec 6 :=
  match v with
  | .nan g => (canonicalNan ty, if g || decide (ty = 14) || decide (ty = 15) then fNV else 0)
  | .inf s =>
    if ty = 14 then (if s then 63 else 31, fSAT)
    else if ty = 15 then (if s then 3 else 1, fSAT)
    else if ty = 12 then (if sat then (if s then 0xFE else 0x7E, fSAT) else (0x7F, fNV))
    else ((if s then 2 ^ (tyWidth ty - 1) else 0) + maxCode ty + 1, 0)
  | .fin s n e =>
    if ty = 14 then roundL6 rm s n e u else if ty = 15 then roundT2 rm s n e u else roundFloat sat rm orm ty s n e u

/-- A floating or narrow value to an integer type (R178). -/
def roundToInt (rm ty : Nat) (v : Val) (u : Nat) : Nat × BitVec 6 :=
  match v with
  | .nan _ => (0, fNV)
  | .inf s => (intWrap (tyWidth ty) (if s then tyMin ty else tyMax ty), fNV)
  | .fin s n e =>
    let (k, nx) := roundAt rm s n e 0 u
    let z : Int := if s then -(k : Int) else k
    if z < tyMin ty then (intWrap (tyWidth ty) (tyMin ty), fNV)
    else if tyMax ty < z then (intWrap (tyWidth ty) (tyMax ty), fNV)
    else (intWrap (tyWidth ty) z, if nx then fNX else 0)

/-- RoundTo in one mode, which an overflow sees as well. -/
def roundTo (sat : Bool) (rm ty : Nat) (v : Val) (u : Nat) : Nat × BitVec 6 := roundToF sat rm rm ty v u

/-- The draw that an active element makes under SR, used or not (R174). -/
def Lanes.drawIf (l : Lanes) (rm k : Nat) : Nat × Lanes := if rm = 5 then l.draw k else (0, l)

/-! ## Conversion (R177) -/

/-- Convert w raw bits from one type to another with the draw `u`. -/
def convert (sat : Bool) (rm src dst n u : Nat) : Nat × BitVec 6 :=
  if src = dst then
    if dst = 15 then (if n % 4 = 2 then 0 else n % 4, readFlag 15 n)
    else if dst = 14 then (if n % 32 = 0 then 0 else n % 64, 0)
    else (n % 2 ^ tyWidth dst, 0)
  else if src < 8 ∧ dst < 8 then
    let (r, l) := fitInt sat dst (tyRead src n) { flags := 0, gens := [] }
    (r, l.flags)
  else
    let (r, f) := if dst < 8 then roundToInt rm dst (decodeVal src n) u else roundTo sat rm dst (decodeVal src n) u
    (r, f ||| readFlag src n)

/-! ## Block scales and the quantiser (R179, R180) -/

/-- The block exponent of a scale byte below 0xFF. -/
def blockExp (e : Nat) (sbase : BitVec 8) : Int := (e : Int) - 127 + sbase.toInt
/-- The quantising conversion: it always saturates. A finite value that rounds down to the largest one sets NX alone, as R173 and R176 judge the rounded
value, where the list of R180 says SAT as well (DEDUCED, notes/assumptions/87.md). -/
def quantise (rm fq : Nat) (v : Val) (u : Nat) : Nat × BitVec 6 := roundTo true rm fq v u
/-- The code that a quantising conversion writes for an element of a NaN block. -/
def nanBlockCode (fq : Nat) : Nat × BitVec 6 := if fq = 12 ∨ fq = 13 then (canonicalNan fq, 0) else (0, fNV)

/-- MAXF of R180 as a dyadic number. -/
def maxF (fq : Nat) : Nat × Int :=
  match fq with
  | 12 => (448, 0) | 13 => (57344, 0) | 14 => (55109, -12) | _ => (1, 0)

/-- The smallest e with `n * 2^x * 2^-e ≤ MAXF`. -/
def firstExp (fq n : Nat) (x : Int) : Int :=
  let (m, f) := maxF fq
  let g : Int := x + Nat.log2 n - (f + Nat.log2 m)
  if cmpMag n (x - g) m f = .gt then g + 1 else g

/-- The squared error of one value under an exponent, as a dyadic number. -/
def quantErr (fq : Nat) (e : Int) (v : Val) : Nat × Int :=
  match (v.add 0 ((decodeVal fq (quantise 0 fq (v.scale (-e)) 0).1).scale e).neg).1 with
  | .fin _ n x => (n * n, x + x)
  | _ => (0, 0)

/-- The sum of dyadic numbers. -/
def dySum : List (Nat × Int) → Nat × Int
  | [] => (0, 0)
  | (n, e) :: r =>
    let (m, f) := dySum r
    let g := if e ≤ f then e else f
    (liftExp n e g + liftExp m f g, g)

/-- The block code that the quantiser chooses (R180). -/
def quantSearch (fq : Nat) (sbase : BitVec 8) (xs : List Val) : Nat :=
  if xs.any (fun v => match v with | .fin _ _ _ => false | _ => true) then 0xFF
  else
    let big := xs.foldl (fun (a : Nat × Int) v => match v with
      | .fin _ n e => if cmpMag a.1 a.2 n e = .lt then (n, e) else a
      | _ => a) (0, 0)
    let e0 : Int := if big.1 = 0 then -127 - sbase.toInt + 1 else firstExp fq big.1 big.2
    let code (e : Int) : Nat := (if e + 127 - sbase.toInt < 0 then (0 : Int) else if 254 < e + 127 - sbase.toInt then 254 else e + 127 - sbase.toInt).toNat
    let cands := [code (e0 - 1), code e0, code (e0 + 1)]
    let err (c : Nat) : Nat × Int := dySum (xs.map (quantErr fq (blockExp c sbase)))
    cands.foldl (fun best c =>
      let a := err best
      let b := err c
      if cmpMag b.1 b.2 a.1 a.2 = .gt then best else if best ≤ c ∨ cmpMag b.1 b.2 a.1 a.2 = .lt then c else best) (code (e0 - 1))

/-! ## Approximate functions (R233) -/

/-- Working precision of the transcendental functions, in bits after the point. -/
def fxP : Nat := 700
/-- A fixed-point number of `fxP` bits. -/
def fxOne : Nat := 2 ^ fxP
def fxMul (a b : Nat) : Nat := a * b / fxOne

/-- `exp x` for `x < 1` by its series, from the term `t` of index `i`. -/
def fxExpSeries (x : Nat) : Nat → Nat → Nat → Nat
  | 0, _, _ => 0
  | n + 1, i, t => t + fxExpSeries x n (i + 1) (fxMul t x / (i + 1))
/-- Square `k` times. -/
def fxSquares : Nat → Nat → Nat
  | 0, a => a
  | k + 1, a => fxSquares k (fxMul a a)
/-- `exp x`. -/
def fxExp (x : Nat) : Nat := fxSquares 8 (fxExpSeries (x / 256) 220 0 fxOne)
/-- The atanh series `y + y^3/3 + …`. -/
def fxAtanh (y2 : Nat) : Nat → Nat → Nat → Nat
  | 0, _, _ => 0
  | n + 1, i, t => t / (2 * i + 1) + fxAtanh y2 n (i + 1) (fxMul t y2)
/-- The natural logarithm of 2. -/
def fxLn2 : Nat := 2 * fxAtanh (fxOne / 9) 240 0 (fxOne / 3)
/-- Binary digits of log2 of `x` in [1, 2), by repeated squaring. -/
def fxLog2 : Nat → Nat → Nat → Nat
  | 0, _, acc => acc
  | k + 1, x, acc =>
    let y := fxMul x x
    if 2 * fxOne ≤ y then fxLog2 k (y / 2) (2 * acc + 1) else fxLog2 k y (2 * acc)

/-- `n * 2^e` as a fixed-point number, cut below. -/
def fxOf (n : Nat) (e : Int) : Nat := if 0 ≤ e + fxP then n * 2 ^ (e + fxP).toNat else n / 2 ^ (-(e + fxP)).toNat

/-- 2^a: to within 2^-600, relative; an exponent beyond 2^12 stands for every larger one. -/
def exactExp2 (neg : Bool) (n : Nat) (e : Int) : Val :=
  let a := if 12 < e + Nat.log2 n then fxOf 1 12 else fxOf n e
  let k := a / fxOne
  let f := a % fxOne
  let m := 2 * fxExp (fxMul f fxLn2) + 1
  if neg then
    let d := if f = 0 then Val.fin false 1 0 else stickyDiv false (2 ^ 1400) m ((fxP : Int) - 1399)
    d.scale (-(k : Int))
  else (if f = 0 then Val.fin false 1 0 else Val.fin false m (-(fxP : Int) - 1)).scale k

/-- log2 of a positive number that is no power of two. -/
def exactLog2 (n : Nat) (e : Int) : Val :=
  let t := Nat.log2 n
  let l := fxLog2 300 (n * 2 ^ (fxP - t)) 0
  let z : Int := (e + t) * (2 ^ 300 : Nat) + l
  .fin (decide (z < 0)) (2 * z + 1).natAbs (-301)

/-- tanh of a positive number: beyond 64 it is that of 64, which no format tells from the rest. -/
def exactTanh (neg : Bool) (n : Nat) (e : Int) : Val :=
  let a := if 6 ≤ e + Nat.log2 n then fxOf 64 0 else fxOf n e
  let ex := fxExp (2 * a)
  .fin neg (2 * ((ex - fxOne) * fxOne / (ex + fxOne)) + 1) (-(fxP : Int) - 1)

/-- The exact value is a power of two: its exponent. -/
def powerOfTwo (n : Nat) (e : Int) : Option Int := if n = 2 ^ Nat.log2 n ∧ n ≠ 0 then some (e + Nat.log2 n) else none
/-- A finite value is representable in a format. -/
def representable (ty : Nat) (v : Val) : Bool := (roundTo false 0 ty v 0).2 == 0

/-- The magnitude of a code that stands, for the overflow of an approximate result, with no upper exponent limit. -/
def codeUnbounded (ty c : Nat) : Option Val :=
  if ty = 14 then some (decodeVal 14 c)
  else
    let a := c % 2 ^ (tyWidth ty - 1)
    if a ≤ maxCode ty + 1 then some (.fin (natBit c (tyWidth ty - 1)) (codeMag ty a).1 (codeMag ty a).2) else none

/-- A result of R233: `x` is the exact value, `bound` the greatest distance allowed (none: faithful), `pick` the free value. One beyond the largest finite
value overflows as under RNE, since these forms ignore MD.Round (DESIGN CHOICE, notes/assumptions/20.md). -/
def approxResult (sat : Bool) (ty : Nat) (x : Val) (bound : Option (Nat × Int)) (pick : Nat) : Nat × BitVec 6 :=
  let faithful := roundToF sat (if pick / 2 ^ tyWidth ty % 2 = 0 then 6 else 7) 0 ty x 0
  match bound, codeUnbounded ty (pick % 2 ^ tyWidth ty) with
  | some (bn, be), some v =>
    match (v.add 0 x.neg).1 with
    | .fin _ n e =>
      if cmpMag n e bn be = .gt then faithful
      else
        let (c, f) := roundTo sat 0 ty v 0
        let tiny := match v with
          | .fin _ m g => decide (m ≠ 0) && cmpMag m g (2 ^ mBits ty) (minQ ty) == .lt && decide (ty ≠ 14)
          | _ => false
        (c, f ||| (if n = 0 then 0 else fNX) ||| (if n ≠ 0 ∧ tiny = true then fUF else 0))
    | _ => faithful
  | _, _ => faithful

/-- Two units in the last place of a finite value in f32. -/
def twoUlp (v : Val) : Nat × Int :=
  match v with
  | .fin _ n e =>
    let top : Int := e + Nat.log2 n - mBits 10
    (2, if top ≤ minQ 10 then minQ 10 else top)
  | _ => (0, 0)

def largerOf (a b : Nat × Int) : Nat × Int := if cmpMag a.1 a.2 b.1 b.2 = .lt then b else a

/-- FRCP, FRSQ, FEXP2, FLOG2 and FTANH, op 0 to 4 (R233, R234). The result is a function of the operand's code: the bits of its container that a read
ignores (R124) have no part in it. FLOG2 of 2^k where MD.Type does not represent k gives a result within the bound, with NX (DESIGN CHOICE,
notes/assumptions/20.md). -/
def approxOp (op : Nat) (sat : Bool) (ty n : Nat) : Nat × BitVec 6 :=
  let pick := Config.approxPick op ty (BitVec.ofNat 64 (n % 2 ^ tyCode ty))
  let put (v : Val) (f : BitVec 6) : Nat × BitVec 6 := let r := roundTo sat 0 ty v 0; (r.1, r.2 ||| f)
  let near (x : Val) (b : Option (Nat × Int)) : Nat × BitVec 6 := approxResult sat ty x b pick
  match op, decodeVal ty n with
  | _, .nan g => put (.nan g) 0
  | 0, .inf s => put (.fin s 0 0) 0
  | 0, .fin s m e => if m = 0 then put (.inf s) fDZ else near (stickyDiv s 1 m (-e)) none
  | 1, .inf s => if s then put (.nan false) fNV else put .zero 0
  | 1, .fin s m e =>
    if m = 0 then put (.inf s) fDZ
    else if s then put (.nan false) fNV
    else
      let (q, f) := if e % 2 = 0 then (m, e) else (2 * m, e - 1)
      let r := isqrt (2 ^ 512 / q) 260 0
      near (.fin false (2 * r + (if r * r * q = 2 ^ 512 then 0 else 1)) (-(f / 2) - 257)) none
  | 2, .inf s => if s then put .zero 0 else put (.inf false) 0
  | 2, .fin s m e =>
    let x := if m = 0 then Val.fin false 1 0 else exactExp2 s m e
    if representable ty x then put x 0 else near x (if ty = 10 then some (twoUlp x) else none)
  | 3, .inf s => if s then put (.nan false) fNV else put (.inf false) 0
  | 3, .fin s m e =>
    if m = 0 then put (.inf true) fDZ
    else if s then put (.nan false) fNV
    else
      let x := match powerOfTwo m e with
        | some k => Val.ofInt k
        | none => exactLog2 m e
      if representable ty x then put x 0
      else near x (some (if ty = 10 then largerOf (twoUlp x) (1, -21) else (1, -9)))
  | _, .inf s => put (.fin s 1 0) 0
  | _, .fin s m e =>
    if m = 0 then put (.fin s 0 0) 0
    else
      let x := exactTanh s m e
      near x (if ty = 10 then some (twoUlp x) else none)

end Sys2Proof.Machine
end

