-- ==== Sys2Proof/Machine/Clause.lean ====
section
/-!
DEFINITION. What the dispatcher does with a record that waits (R65, R67): its accesses to memory, the wait clauses and their evaluation, a
rejection; and the superstep barriers (R106 to R108), whose completions evaluate the clauses again.
-/
namespace Sys2Proof.Machine

open Sys2Proof

/-- A page that the dispatcher may use: a DRAM or POOL leaf, translated on compute die 0 for an access; it is neither faulted in nor migrated
on the queue's behalf (R65, R72). A page with COW set, for a write, and a page behind a remote window are none: DESIGN CHOICE,
notes/assumptions/89.md. -/
def State.dispatchAt (s : State) (cid va : Nat) (kind : Acc) : Option Nat × State :=
  match s.walk cid va with
  | .leaf e _ _ =>
    if pteTier e < 2 then
      match s.translate (.unit 0) cid (BitVec.ofNat 64 va) kind with
      | (.ok pa, s1) => if (remoteOf s1 pa).isSome then (none, s1) else (some pa, s1)
      | (_, s1) => (none, s1)
    else (none, s)
  | .dead r d pa => (none, s.contextError cid r d pa)
  | _ => (none, s)

/-- The completion word of a record with a status (R65). -/
def completionWord (rec : List Word) (status : Byte) : Word := BitVec.ofNat 64 (natBits (wordAt rec 6).toNat 63 16 + 2 ^ 56 * status.toNat)

/-- The physical address that memory's tables give an access of the dispatcher, with no effect. -/
def State.dispatchPa (s : State) (cid va : Nat) (kind : Acc) : Option Nat :=
  match s.walk cid va with
  | .leaf e lv _ => (match s.leafOutcome cid e lv va kind with | .ok pa => some pa | _ => none)
  | _ => none
/-- A row, a bank or a link holds some of `n` bytes at an address: the dispatcher's access there waits (R160, R383, R385). -/
def State.dispatchHeld (s : State) (cid va n : Nat) (kind : Acc) : Bool := match s.dispatchPa cid va kind with | some pa => s.placeWaits pa n | none => false
/-- An access of the dispatcher for a queue takes its place in the queue of its bank (R385). -/
def State.dispatchAsk (s : State) (n cid va : Nat) (kind : Acc) : State := match s.dispatchPa cid va kind with | some pa => s.askGap (.queue n) pa | none => s
/-- The address of the completion word of a record; zero for none. -/
def cwOf (rec : List Word) : Nat := natBits (wordAt rec 7).toNat 56 3 * 8
/-- The completion word of a record is held. -/
def State.cwHeld (s : State) (cid : Nat) (rec : List Word) : Bool := decide (cwOf rec ≠ 0) && s.dispatchHeld cid (cwOf rec) 8 .write

/-- The completion word is written where CW names a writable DRAM or POOL page. -/
def State.writeCw (s : State) (cid : Nat) (rec : List Word) (status : Byte) : State :=
  if cwOf rec = 0 then s
  else
    match s.dispatchAt cid (cwOf rec) .write with
    | (some pa, s1) => s1.unitWrite (.other s1.fresh) cid 0 pa (leBytes 8 (completionWord rec status).toNat)
    | (none, s1) => s1

/-- Reserved bits of the wait clauses in use. -/
def clauseClear (a b : Word) : Bool :=
  match natBits a.toNat 1 0 with
  | 0 => decide (natBits a.toNat 2 2 = 0) && decide (natBits a.toNat 63 57 = 0)
  | 1 => decide (natBits a.toNat 2 2 = 0) && decide (natBits a.toNat 63 57 = 0)
  | 2 => decide (natBits b.toNat 63 16 = 0)
  | _ => true

/-- What a wait clause gives (R67). -/
inductive ClauseEnd where
  | met | unmet | malformed
  deriving DecidableEq, Repr

/-- A wait clause of a queue of a context (R67). DESIGN CHOICE (notes/assumptions/90.md): a word that cannot be corrected makes a clause of kind
0 or 1 malformed, and a clause of kind 2 is satisfied by any of several admitted kernels with its TAG. A
clause whose word a row, a bank or a link holds is not met yet (R160, R385, R411). -/
def State.clause (s : State) (cid : Nat) (a b : Word) : ClauseEnd × State :=
  let n := a.toNat
  match natBits n 1 0 with
  | 3 => (.malformed, s)
  | 2 =>
    let q := s.queue (natBits n 9 2)
    if q.state = .unbound ∨ q.cid ≠ cid then (.malformed, s)
    else
      let tag := natBits n 63 16
      let j := natBits n 15 10
      let live := s.kernels.any fun k => k.qid == natBits n 9 2 && k.tag.toNat == tag && (match k.ssb[j]? with | some x => genTest x.gen (b.extractLsb' 0 16) false | none => false)
      (if live || (match q.lastTag with | some t => decide (tag ≤ t.toNat) | none => false) then .met else .unmet, s)
  | kd =>
    match s.locate (.unit 0) cid (BitVec.ofNat 64 (natBits n 56 3 * 8)) .read with
    | (.ok pa, s1) =>
      if s1.placeWaits pa 8 then (.unmet, s1) else
      let (bs, s2) := s1.unitRead (.other s1.fresh) cid 0 pa 8
      let v := leNat bs
      (if s1.uncorrectable pa then .malformed else if (if kd = 0 then decide (b.toNat ≤ v) else decide (v = b.toNat)) then .met else .unmet, s2)
    | (_, s1) => (.malformed, s1)

/-- Evaluate the clauses that have not been met, in order; none where one is malformed. -/
def State.evalClauses (s : State) (cid : Nat) (r : List Word) : List Bool → Nat → Option (List Bool) × State
  | [], _ => (some [], s)
  | true :: ms, i =>
    match s.evalClauses cid r ms (i + 1) with
    | (some l, s1) => (some (true :: l), s1)
    | (none, s1) => (none, s1)
  | false :: ms, i =>
    match s.clause cid (wordAt r (8 + 2 * i)) (wordAt r (9 + 2 * i)) with
    | (.malformed, s1) => (none, s1)
    | (x, s1) => match s1.evalClauses cid r ms (i + 1) with
      | (some l, s2) => (some (decide (x = .met) :: l), s2)
      | (none, s2) => (none, s2)

/-- HEAD passes a record. -/
def State.passHead (s : State) (n : Nat) : State := s.modQueue n fun q => { q with head := q.head + 1, held := none }

/-- A record is rejected: HEAD advances, its completion word, a record-error event to the owner. -/
def State.reject (s : State) (n : Nat) (r : List Word) (status : Byte) : State :=
  let cid := (s.queue n).cid
  ((s.writeCw cid r status).passHead n).postOwner (eventRec 0x03 cid (completionWord r status) (BitVec.ofNat 64 n) 0)

/-- The context admits records. -/
def State.admits (s : State) (cid : Nat) : Bool := decide ((s.ctx cid).state = .ready) || decide ((s.ctx cid).state = .running)

/-- The words that the unsatisfied clauses of a held record wait for take their places in the queues of their banks. -/
def State.askClauses (s : State) (n cid : Nat) (r : List Word) (met : List Bool) : State :=
  (List.range met.length).foldl (fun s i =>
    if met.getD i true = false ∧ natBits (wordAt r (8 + 2 * i)).toNat 1 0 < 2 then s.dispatchAsk n cid (natBits (wordAt r (8 + 2 * i)).toNat 56 3 * 8) .read else s) s

/-- The record that a queue holds has its unsatisfied clauses evaluated again (R67). R67 names no state of the queue or of its context: a record whose
queue is not active, or whose context does not admit, is passed over (DESIGN CHOICE, notes/assumptions/112.md). -/
def State.recheckQueue (s : State) (n : Nat) : State :=
  match (s.queue n).held with
  | some h =>
    if (s.queue n).state = .active ∧ s.admits (s.queue n).cid = true ∧ h.met.all id = false then
      match s.evalClauses (s.queue n).cid h.words h.met 0 with
      | (none, s1) => if s1.cwHeld (s.queue n).cid h.words then s1 else s1.reject n h.words 0x43
      | (some l, s1) =>
        let s2 := s1.modQueue n fun q => { q with held := some { h with met := l } }
        if l.all id then s2.dropAsk (.queue n) else s2.askClauses n (s.queue n).cid h.words l
    else s
  | none => s

/-- Every queue of a context does so: at each kernel end and superstep completion in the context (R67). -/
def State.recheckAll (s : State) (cid : Nat) : State :=
  ((List.range 256).filter fun n => (s.queue n).cid == cid && (s.queue n).held.isSome).foldl State.recheckQueue s

/-! ## Superstep barriers (R106, R107) -/

/-- Superstep barrier `j` of a kernel completes: its waiters are told, and the unsatisfied wait clauses of the context's queues are evaluated
again (R67, R107). -/
def State.sstepDone (s : State) (kuid j : Nat) (bar : SBar) : State :=
  let s1 := s.modKernel kuid fun k => { k with ssb := k.ssb.set j bar }
  let s2 := { s1 with groups := s1.groups.map fun g => if g.kuid == kuid then { g with strands := g.strands.map fun t => t.onSuperstep j bar } else g }
  match s.kernel? kuid with
  | some k => s2.recheckAll k.cid
  | none => s2

/-- A pending arrival at superstep barrier `j` takes effect (R107). A barrier whose EXP is 0 counts no arrival. -/
def State.sstepArrive (s : State) (kuid j : Nat) (failed : Bool) : State :=
  match (s.kernel? kuid).bind fun k => k.ssb[j]? with
  | none => s
  | some b =>
    if b.exp = 0 then s
    else
      let b1 := { b with fail := b.fail || failed }
      if b.cnt + 1 = b.exp then s.sstepDone kuid j b1.complete
      else s.modKernel kuid fun k => { k with ssb := k.ssb.set j { b1 with cnt := b1.cnt + 1 } }

/-- A strand of the kernel ends: EXP of barrier `j` falls by one (R107). -/
def State.sstepLeave (s : State) (kuid j : Nat) : State :=
  match (s.kernel? kuid).bind fun k => k.ssb[j]? with
  | none => s
  | some b =>
    let b1 := { b with exp := b.exp - 1 }
    if 2 ≤ b.exp ∧ b.exp - 1 ≤ b.cnt then s.sstepDone kuid j b1.complete
    else s.modKernel kuid fun k => { k with ssb := k.ssb.set j b1 }

end Sys2Proof.Machine
end

