-- ==== Sys2Proof/Machine/Shelf.lean ====
section
/-!
DEFINITION. The shelf list (spec/08_tensor.md R111 to R118): the fields of an entry, binding, the states of an entry, and the
instructions of opcode 0x36.
-/
namespace Sys2Proof.Machine

open Sys2Proof

/-! ## Fields of an entry (R111) -/

def entBits (w : List Word) (i hi lo : Nat) : Nat := natBits (wordAt w i).toNat hi lo
def entBase (w : List Word) : Nat := entBits w 0 56 0
def entFmt (w : List Word) : Nat := entBits w 1 4 0
def entLayout (w : List Word) : Nat := entBits w 1 6 5
def entWidth (w : List Word) : Nat := entBits w 1 11 7
def entNdim (w : List Word) : Nat := entBits w 1 14 12
def entTier (w : List Word) : Nat := entBits w 1 16 15
def entPrio (w : List Word) : Nat := entBits w 1 20 17
def entVer (w : List Word) : BitVec 32 := (wordAt w 1).extractLsb' 32 32
def entSbase (w : List Word) : BitVec 8 := (wordAt w 2).extractLsb' 0 8
def entSaddr (w : List Word) : Nat := entBits w 3 56 0
/-- EXTk. -/
def entExt (w : List Word) (k : Nat) : Nat := entBits w (4 + k) 24 0
/-- STRk, signed. -/
def entStr (w : List Word) (k : Nat) : Int := natSigned 40 (entBits w (10 + k) 39 0)
/-- Dimensions as written: extent and stride. -/
def entDims (w : List Word) : List (Nat × Int) := (List.range (entNdim w)).map fun k => (entExt w k, entStr w k)
/-- The number of elements. -/
def entCount (w : List Word) : Nat := (entDims w).foldl (fun n d => n * d.1) 1
/-- Bytes of a quad of l6 or t2 (R165). -/
def quadBytes (fmt : Nat) : Nat := if fmt = 14 then 3 else 1
def packed (fmt : Nat) : Bool := decide (fmt = 14) || decide (fmt = 15)

/-! ## Binding (R112) -/

/-- The bytes from the lowest to beyond the highest that dimensions reach, relative to BASE. -/
def reach : List (Nat × Int) → Int × Int
  | [] => (0, 0)
  | (n, s) :: ds =>
    let (lo, hi) := reach ds
    let d := ((n : Int) - 1) * s
    if d < 0 then (lo + d, hi) else (lo, hi + d)

/-- The byte span of an entry without its scale array: first byte, and one past the last. -/
def entSpan (w : List Word) : Int × Int :=
  let b : Int := entBase w
  match entLayout w with
  | 0 =>
    if packed (entFmt w) then
      let r := reach ((entDims w).drop 1)
      (b + r.1, b + r.2 + (entExt w 0 / 4 * quadBytes (entFmt w) : Nat))
    else
      let r := reach (entDims w)
      (b + r.1, b + r.2 + (tyWidth (entFmt w) / 8 : Nat))
  | 1 =>
    let r := reach ((entDims w).drop 1)
    (b + r.1, b + r.2 + (1024 * entWidth w : Nat))
  | _ => (b, b + (8 * entExt w 1 : Nat))

/-- The first check that fails, or 0. -/
def bindCode (w : List Word) : Nat :=
  let fmt := entFmt w
  let lay := entLayout w
  let nd := entNdim w
  let dims := List.range 6
  let badRes := decide (entBits w 0 63 57 ≠ 0) || decide (entBits w 1 30 21 ≠ 0) || decide (entBits w 2 63 8 ≠ 0) ||
    decide (entBits w 3 63 57 ≠ 0) || (dims.any fun k => decide (entBits w (4 + k) 63 25 ≠ 0)) || (dims.any fun k => decide (entBits w (10 + k) 63 40 ≠ 0))
  let badDim := decide (nd = 0) || decide (nd = 7) || (dims.any fun k =>
    if k < nd then decide (entExt w k = 0) || decide (2 ^ 24 < entExt w k) else decide (entExt w k ≠ 1) || decide (entStr w k ≠ 0))
  let badWidth :=
    if lay = 1 then
      decide (entWidth w < 2) || decide (16 < entWidth w) || decide (tyWidth fmt < entWidth w) ||
      !(decide (fmt = 0) || decide (fmt = 1) || decide (fmt = 4) || decide (fmt = 5) || decide (fmt = 15)) ||
      (decide (fmt = 15) && decide (entWidth w ≠ 2))
    else decide (entWidth w ≠ 0)
  let z := tyWidth fmt / 8
  let badLin := decide (lay = 0) &&
    (if packed fmt then
      decide (entStr w 0 ≠ 0) || decide (entExt w 0 % 4 ≠ 0) || ((List.range 5).any fun k => decide (entStr w (k + 1) % (quadBytes fmt : Int) ≠ 0))
     else decide (entBase w % z ≠ 0) || (dims.any fun k => decide (entStr w k % (z : Int) ≠ 0)))
  let badPlane := decide (lay = 1) &&
    (decide (entBase w % 1024 ≠ 0) || ((List.range 5).any fun k => decide (entStr w (k + 1) % 1024 ≠ 0)) || decide (entStr w 0 ≠ 0) || decide (8192 < entExt w 0))
  let badCat := decide (lay = 2) && (decide (nd ≠ 2) || decide (entBase w % 64 ≠ 0) || decide (65535 < entExt w 0) || decide (entStr w 1 ≠ 0))
  let badScale := decide (entSaddr w ≠ 0) && (!(decide (12 ≤ fmt)) || decide (entSaddr w % 32 ≠ 0))
  let sp := entSpan w
  let badSpan := decide (sp.1 < 0) || decide ((2 ^ 57 : Nat) < sp.2) ||
    (decide (entSaddr w ≠ 0) && decide (2 ^ 57 < entSaddr w + (entCount w - 1) / 32 + 1))
  if badRes then 1
  else if 16 ≤ fmt ∨ lay = 3 then 2
  else if badDim then 3
  else if badWidth then 4
  else if badLin then 5
  else if badPlane || badCat then 6
  else if badScale then 7
  else if badSpan then 8
  else 0

/-- Merge dimensions from the first upwards (R118). -/
def collapse : Nat × Int → List (Nat × Int) → List (Nat × Int)
  | d, [] => [d]
  | d, e :: r => if e.2 = d.1 * d.2 ∧ d.1 * e.1 ≤ 2 ^ 32 then collapse (d.1 * e.1, d.2) r else d :: collapse e r

/-- Dimensions after collapse. -/
def entCdim (w : List Word) : Nat :=
  match entDims w with
  | [] => 0
  | d :: r => if entLayout w = 0 then (collapse d r).length else match r with
    | [] => 1
    | e :: r' => 1 + (collapse e r').length

/-! ## States of an entry (R113) -/

def Shelf.empty : Shelf := { words := List.replicate 16 0, state := 0, bcode := 0 }
def Group.entry (g : Group) (tid : Nat) : Shelf := g.shelf.getD tid Shelf.empty
def Group.setEntry (g : Group) (tid : Nat) (e : Shelf) : Group := { g with shelf := g.shelf.set tid e }
def Shelf.bound (e : Shelf) : Bool := e.state == 2#2
/-- Bit V of word 1 reads 1 when the entry is bound (R111). -/
def Shelf.word (e : Shelf) (i : Nat) : Word :=
  if i = 1 then (if e.bound then wordAt e.words 1 ||| 0x80000000 else wordAt e.words 1 &&& ~~~0x80000000) else wordAt e.words i

/-- An entry at a placement (R113): bound, described with its code, or empty. -/
def Shelf.place (ws : List Word) : Shelf :=
  if (wordAt ws 1).getLsbD 31 then
    if bindCode ws = 0 then { words := ws, state := 2, bcode := 0 } else { words := ws, state := 1, bcode := BitVec.ofNat 4 (bindCode ws) }
  else { words := ws, state := 0, bcode := 0 }

/-- An entry restored from a save frame (R120): a bound one is checked again. A frame byte whose STATE a debugger set to 3, a state that never reads
(R116), makes the entry described with the BCODE of the frame: DESIGN CHOICE, notes/assumptions/99.md. -/
def Shelf.restore (ws : List Word) (st : BitVec 2) (bc : BitVec 4) : Shelf :=
  if st = 2 then (if bindCode ws = 0 then { words := ws, state := 2, bcode := bc } else { words := ws, state := 1, bcode := BitVec.ofNat 4 (bindCode ws) })
  else if st = 3 then { words := ws, state := 1, bcode := bc }
  else { words := ws, state := st, bcode := bc }

/-- The tensor-state trap (R114). -/
def stateTrap (tid : Nat) : Trap := trapOf 0x0E 0 (BitVec.ofNat 64 tid)
/-- The tensor-format trap. -/
def formatTrap (tid : Nat) : Trap := trapOf 0x0F 0 (BitVec.ofNat 64 tid)

/-- The words of a bound entry, or the tensor-state trap. -/
def withBound (g : Group) (tid : Nat) (s : State) (f : List Word → Eff State) : Eff State :=
  if (g.entry tid).bound then f (g.entry tid).words else .trap s (stateTrap tid)

/-! ## Instructions (R115, R116) -/

/-- A register result and a change of an entry. -/
def entryResult (uid k : Nat) (s : State) (d : BitVec 6) (x : Word) (tid : Nat) (f : Shelf → Shelf) : Eff State :=
  .done ((s.modGroup uid fun g => g.setEntry tid (f (g.entry tid))).modStrand uid k fun t => t.setX d x)

/-- TSETW: word WORD of entry N := xA; the entry is then described. -/
def execTsetw (a : BitVec 6) (w : BitVec 4) (tid : BitVec 6) (st : State) : Res :=
  runM (fun uid _ _ t s => .done (s.modGroup uid fun g => g.setEntry tid.toNat
    { words := (g.entry tid.toNat).words.set w.toNat (t.x a), state := 1, bcode := 0 })) st

/-- TGETW: xD := word WORD of entry N. -/
def execTgetw (d : BitVec 6) (w : BitVec 4) (tid : BitVec 6) (st : State) : Res :=
  runM (fun uid k g _ s => .done (s.modStrand uid k fun t => t.setX d ((g.entry tid.toNat).word w.toNat))) st

/-- The word of TSTAT. -/
def Shelf.status (e : Shelf) : Word :=
  BitVec.ofNat 64 (e.state.toNat + 2 ^ 4 * e.bcode.toNat + 2 ^ 8 * (if e.bound then entCdim e.words else 0))

/-- TSTAT. -/
def execTstat (d tid : BitVec 6) (st : State) : Res :=
  runM (fun uid k g _ s => .done (s.modStrand uid k fun t => t.setX d (g.entry tid.toNat).status)) st

/-- TBIND: the bind code, 9 for an empty entry, 0 for a bound one. An entry that becomes bound clears its status words (R297, R323). -/
def execTbind (d tid : BitVec 6) (st : State) : Res :=
  runM (fun uid k g _ s =>
    let e := g.entry tid.toNat
    if e.state = 0 then .done (s.modStrand uid k fun t => t.setX d 9)
    else if e.bound then .done (s.modStrand uid k fun t => t.setX d 0)
    else
      let c := bindCode e.words
      let s1 := if c = 0 then s.modGroup uid fun g => { g with rowStat := g.rowStat.set tid.toNat 0, catStat := g.catStat.set tid.toNat 0 } else s
      entryResult uid k s1 d (BitVec.ofNat 64 c) tid.toNat fun e =>
        if c = 0 then { e with words := e.words.set 1 (wordAt e.words 1 ||| 0x80000000), state := 2, bcode := 0 } else { e with bcode := BitVec.ofNat 4 c }) st

/-- TRET tN: the entry becomes empty, its other fields kept. -/
def execTretTn (tid : BitVec 6) (st : State) : Res :=
  runM (fun uid _ _ _ s => .done (s.modGroup uid fun g => g.setEntry tid.toNat
    (let e := g.entry tid.toNat
     if e.state = 0 then e else { e with words := e.words.set 1 (wordAt e.words 1 &&& ~~~0x80000000), state := 0 }))) st

/-- TVER: VER := xA<31:0> of a bound entry. -/
def execTver (a tid : BitVec 6) (st : State) : Res :=
  runM (fun uid _ g t s => withBound g tid.toNat s fun _ =>
    .done (s.modGroup uid fun g => g.setEntry tid.toNat
      (let e := g.entry tid.toNat
       { e with words := e.words.set 1 ((t.x a).extractLsb' 0 32 ++ (wordAt e.words 1).extractLsb' 0 32) }))) st

end Sys2Proof.Machine
end

