-- ==== Sys2Proof/Machine/Memory.lean ====
section
/-!
DEFINITION. Loads, stores, tile and typed-buffer transfers, spills and atomics (spec/15_memory_instructions.md R244 to R255).
-/
namespace Sys2Proof.Machine

open Sys2Proof

/-! ## Checks and issue -/

/-- Step 8 of R200 for an instruction that acts beyond its strand. -/
def withTypeM (ok : Nat → Bool) (t : Strand) (s : State) (f : Eff State) : Eff State :=
  if !mdOk t.md then .trap s (modeTrap t 5) else if !ok t.ty then .trap s (modeTrap t 2) else f
/-- The shape trap of a vector form. -/
def withShapeM (t : Strand) (s : State) (f : Eff State) : Eff State := if t.shapeBad then .trap s (shapeTrap t) else f

def tyNotL6 (ty : Nat) : Bool := decide (ty ≠ 14)

/-- The strand issues a load to a register: KL rises, and the DM bit of a vector or scalar destination is set (R132, R133). -/
def Strand.issueLoad (t : Strand) (d : BitVec 6) : Strand := { t with kl := t.kl + 1, dm := t.dm ||| BitVec.ofNat 48 (2 ^ d.toNat) }
/-- The strand issues a store: KS rises. -/
def Strand.issueStore (t : Strand) : Strand := { t with ks := t.ks + 1 }

/-- Signed offset times a scale. -/
def scaled {n : Nat} (o : BitVec n) (z : Nat) : Word := BitVec.ofInt 64 (o.toInt * z)

/-! ## Scalar loads and stores (R247) -/

/-- LD: the element size comes from MD.Type. -/
def ldE (y : Way) (d a : BitVec 6) (r : BitVec 1) (o : BitVec 8) (uid k : Nat) (g : Group) (t : Strand) (s : State) : Eff State :=
  withTypeM tyBits t s <|
    let z := t.w / 8
    let va := t.x a + scaled o z
    match s.locateEl (.core g.core) g.cid .read z va with
    | (.error f, s1) => s1.strandFault uid k g f none
    | (.ok pa, s1) =>
      .done ((s1.pushOp uid k g.cid y (.load [{ loc := .phys pa, va := va.toNat, bytes := z, shift := 0, width := t.w, out := 64, sx := tySigned t.ty, dst := .scalar d.toNat }] (r == 1#1))
        (rangesOf (.virt g.cid) z [va.toNat]) [] []).modStrand uid k fun t => t.issueLoad d)
def execLd (d a : BitVec 6) (k : BitVec 3) (r : BitVec 1) (p : BitVec 2) (o : BitVec 8) (st : State) : Res := runM (ldE (Way.mem p k) d a r o) st

/-- ST: bits w - 1:0 of xD. -/
def stE (y : Way) (d a : BitVec 6) (o : BitVec 8) (uid k : Nat) (g : Group) (t : Strand) (s : State) : Eff State :=
  withTypeM tyBits t s <|
    let z := t.w / 8
    let va := t.x a + scaled o z
    match s.locateEl (.core g.core) g.cid .write z va with
    | (.error f, s1) => s1.strandFault uid k g f none
    | (.ok pa, s1) =>
      let rs := rangesOf (.virt g.cid) z [va.toNat]
      .done ((s1.pushOp uid k g.cid y (.store [{ loc := .phys pa, va := va.toNat, data := leBytes z (t.x d).toNat, mask := List.replicate z 0xFF }])
        rs rs []).modStrand uid k Strand.issueStore)
def execSt (d a : BitVec 6) (k : BitVec 3) (p : BitVec 2) (o : BitVec 8) (st : State) : Res := runM (stE (Way.mem p k) d a o) st

/-! ## Vector loads and stores (R249 to R251) -/

/-- The element at which a memory instruction starts (R127, R249). -/
def Strand.vsStart (t : Strand) : Nat :=
  if t.vs.getLsbD 31 then
    (if mdSh t.md then natBits t.vs.toNat 26 16 * t.vcols.toNat + natBits t.vs.toNat 10 0 else natBits t.vs.toNat 10 0)
  else 0
/-- The end of a vector transfer: VS is cleared, or names the element that faulted and the fault is taken. -/
def endVector (uid k : Nat) (g : Group) (t : Strand) (flt : Option (Nat × AccFault)) (hint : Option (BitVec 2 × BitVec 4)) (s : State) : Eff State :=
  match flt with
  | none => .done (s.modStrand uid k fun t => { t with vs := 0 })
  | some (i, f) => (s.modStrand uid k fun u => { u with vs := t.vsAt i }).strandFault uid k g f hint

/-- A vector load of elements of `z` bytes; `shift` and `width` cut a packed element out of its byte. -/
def vecLoad (y : Way) (d : BitVec 6) (ro : Bool) (z align width : Nat) (addr : Nat → Word) (shift : Nat → Nat)
    (uid k : Nat) (g : Group) (t : Strand) (s : State) : Eff State :=
  withShapeM t s <|
    let (s1, els, flt) := locateLoop (.core g.core) g.cid .read align t.active addr (t.el - t.vsStart) t.vsStart s []
    let items := els.map fun (i, va, pa) => ({ loc := .phys pa, va := va, bytes := z, shift := shift i, width := width, out := t.w, sx := false,
                                               dst := .vec d.toNat (t.w * i) t.w } : LoadItem)
    endVector uid k g t flt none
      ((s1.pushOp uid k g.cid y (.load items ro) (rangesOf (.virt g.cid) z (els.map fun e => e.2.1)) [] []).modStrand uid k fun t => t.issueLoad d)

/-- A vector store of elements of `z` bytes. -/
def vecStore (y : Way) (d : BitVec 6) (z align : Nat) (addr : Nat → Word) (shift : Nat → Nat) (uid k : Nat) (g : Group) (t : Strand) (s : State) : Eff State :=
  withShapeM t s <|
    let (s1, els, flt) := locateLoop (.core g.core) g.cid .write align t.active addr (t.el - t.vsStart) t.vsStart s []
    let items := els.map fun (i, va, pa) => storeItem t d z (shift i) i va (.phys pa)
    let rs := rangesOf (.virt g.cid) z (els.map fun e => e.2.1)
    endVector uid k g t flt none ((s1.pushOp uid k g.cid y (.store items) rs rs []).modStrand uid k Strand.issueStore)
where
  /-- One element of a store; a packed one writes its own bits of the byte alone. -/
  storeItem (t : Strand) (d : BitVec 6) (z shift i va : Nat) (loc : Place) : StoreItem :=
    if t.ty = 15 then { loc := loc, va := va, data := [BitVec.ofNat 8 (elem 8 (t.vreg d) i % 4 * 2 ^ shift)], mask := [BitVec.ofNat 8 (3 * 2 ^ shift)] }
    else { loc := loc, va := va, data := leBytes z (elem t.w (t.vreg d) i), mask := List.replicate z 0xFF }

/-- The unit-stride address of element `i`, with its bit offset under t2. -/
def unitAddr (t : Strand) (a : BitVec 6) (o : BitVec 8) (i : Nat) : Word :=
  if t.ty = 15 then t.x a + scaled o 1 + BitVec.ofNat 64 (i / 4) else t.x a + scaled o (t.w / 8) + BitVec.ofNat 64 (i * (t.w / 8))
/-- The bit offset of a packed t2 element. -/
def unitShift (t : Strand) (i : Nat) : Nat := if t.ty = 15 then 2 * (i % 4) else 0
def strideAddr (t : Strand) (a b : BitVec 6) (i : Nat) : Word := t.x a + BitVec.ofNat 64 i * t.x b
def indexAddr (t : Strand) (a b : BitVec 6) (i : Nat) : Word :=
  t.x a + BitVec.ofInt 64 (natSigned t.w (elem t.w (t.vreg b) i) * (t.w / 8 : Nat))

/-- VLD. -/
def vldE (y : Way) (d a : BitVec 6) (r : BitVec 1) (o : BitVec 8) (uid k : Nat) (g : Group) (t : Strand) (s : State) : Eff State :=
  withTypeM tyNotL6 t s <| vecLoad y d (r == 1#1) (t.w / 8) (t.w / 8) (if t.ty = 15 then 2 else t.w) (unitAddr t a o) (unitShift t) uid k g t s
def execVld (d a : BitVec 6) (k : BitVec 3) (r : BitVec 1) (p : BitVec 2) (o : BitVec 8) (st : State) : Res := runM (vldE (Way.vec p k) d a r o) st

/-- VST. -/
def vstE (y : Way) (d a : BitVec 6) (o : BitVec 8) (uid k : Nat) (g : Group) (t : Strand) (s : State) : Eff State :=
  withTypeM tyNotL6 t s <| vecStore y d (t.w / 8) (t.w / 8) (unitAddr t a o) (unitShift t) uid k g t s
def execVst (d a : BitVec 6) (k : BitVec 3) (p : BitVec 2) (o : BitVec 8) (st : State) : Res := runM (vstE (Way.vec p k) d a o) st

/-- VLDS. -/
def vldsE (y : Way) (d a : BitVec 6) (r : BitVec 1) (b : BitVec 6) (uid k : Nat) (g : Group) (t : Strand) (s : State) : Eff State :=
  withTypeM tyBits t s <| vecLoad y d (r == 1#1) (t.w / 8) (t.w / 8) t.w (strideAddr t a b) (fun _ => 0) uid k g t s
def execVlds (d a : BitVec 6) (k : BitVec 3) (r : BitVec 1) (p : BitVec 2) (b : BitVec 6) (st : State) : Res := runM (vldsE (Way.vec p k) d a r b) st

/-- VLDI. -/
def vldiE (y : Way) (d a : BitVec 6) (r : BitVec 1) (b : BitVec 6) (uid k : Nat) (g : Group) (t : Strand) (s : State) : Eff State :=
  withTypeM tyBits t s <| vecLoad y d (r == 1#1) (t.w / 8) (t.w / 8) t.w (indexAddr t a b) (fun _ => 0) uid k g t s
def execVldi (d a : BitVec 6) (k : BitVec 3) (r : BitVec 1) (p : BitVec 2) (b : BitVec 6) (st : State) : Res := runM (vldiE (Way.vec p k) d a r b) st

/-- VSTS. -/
def vstsE (y : Way) (d a b : BitVec 6) (uid k : Nat) (g : Group) (t : Strand) (s : State) : Eff State :=
  withTypeM tyBits t s <| vecStore y d (t.w / 8) (t.w / 8) (strideAddr t a b) (fun _ => 0) uid k g t s
def execVsts (d a : BitVec 6) (k : BitVec 3) (p : BitVec 2) (b : BitVec 6) (st : State) : Res := runM (vstsE (Way.vec p k) d a b) st

/-- VSTI. -/
def vstiE (y : Way) (d a b : BitVec 6) (uid k : Nat) (g : Group) (t : Strand) (s : State) : Eff State :=
  withTypeM tyBits t s <| vecStore y d (t.w / 8) (t.w / 8) (indexAddr t a b) (fun _ => 0) uid k g t s
def execVsti (d a : BitVec 6) (k : BitVec 3) (p : BitVec 2) (b : BitVec 6) (st : State) : Res := runM (vstiE (Way.vec p k) d a b) st

/-! ## Atomics (R255) -/

/-- An atomic: the address is translated for writing; the operation is performed at its completion. -/
def atomicE (y : Way) (fn : AtomicFn) (d a b : BitVec 6) (uid k : Nat) (g : Group) (t : Strand) (s : State) : Eff State :=
  withTypeM tyInt t s <|
    let z := t.w / 8
    let va := t.x a
    match s.locateEl (.core g.core) g.cid .write z va true with
    | (.error f, s1) => s1.strandFault uid k g f none
    | (.ok pa, s1) =>
      let rs := rangesOf (.virt g.cid) z [va.toNat]
      .done ((s1.pushOp uid k g.cid y (.atomic fn (BitVec.ofNat 5 t.ty) (.phys pa) z (t.x b) (t.x d) d) rs rs []).modStrand uid k
        fun t => (t.issueLoad d).issueStore)

/-- AADD. -/
def execAadd (d a : BitVec 6) (k : BitVec 3) (p : BitVec 2) (b : BitVec 6) (st : State) : Res := runM (atomicE (Way.mem p k) .add d a b) st
/-- AMIN. -/
def execAmin (d a : BitVec 6) (k : BitVec 3) (p : BitVec 2) (b : BitVec 6) (st : State) : Res := runM (atomicE (Way.mem p k) .min d a b) st
/-- AMAX. -/
def execAmax (d a : BitVec 6) (k : BitVec 3) (p : BitVec 2) (b : BitVec 6) (st : State) : Res := runM (atomicE (Way.mem p k) .max d a b) st
/-- AAND. -/
def execAand (d a : BitVec 6) (k : BitVec 3) (p : BitVec 2) (b : BitVec 6) (st : State) : Res := runM (atomicE (Way.mem p k) .and d a b) st
/-- AOR. -/
def execAor (d a : BitVec 6) (k : BitVec 3) (p : BitVec 2) (b : BitVec 6) (st : State) : Res := runM (atomicE (Way.mem p k) .or d a b) st
/-- AXOR. -/
def execAxor (d a : BitVec 6) (k : BitVec 3) (p : BitVec 2) (b : BitVec 6) (st : State) : Res := runM (atomicE (Way.mem p k) .xor d a b) st
/-- ASWP. -/
def execAswp (d a : BitVec 6) (k : BitVec 3) (p : BitVec 2) (b : BitVec 6) (st : State) : Res := runM (atomicE (Way.mem p k) .swp d a b) st
/-- ACAS: xD is the compare value. -/
def execAcas (d a : BitVec 6) (k : BitVec 3) (p : BitVec 2) (b : BitVec 6) (st : State) : Res := runM (atomicE (Way.mem p k) .cas d a b) st

/-! ## Prefetch (R248) -/

/-- PREF: a translation that succeeds in DRAM or POOL may set A and fill the caches, and the L2 of the strand's die installs the line. Nothing else
changes. -/
def execPref (a : BitVec 6) (k : BitVec 3) (_p : BitVec 2) (o : BitVec 8) (st : State) : Res :=
  runM (fun _ _ g t s =>
    let va := t.x a + scaled o 128
    if k = 7 then .done s
    else
      match s.translate (.core g.core) g.cid va .read with
      | (.ok pa, s1) => if s.rowHeld pa || inArchive s1 g.cid va.toNat then .done s else .done (s1.cacheSpan (.load g.core 0 k) g.cid 0 pa 1)
      | _ => .done s) st
where
  /-- The page lies in the archive tier, whether or not it is staged. -/
  inArchive (s : State) (cid va : Nat) : Bool :=
    match s.walk cid va with
    | .leaf e _ _ => decide (pteTier e = 2)
    | _ => false

/-! ## Tile transfers (R252) -/

/-- The columns of the tile. -/
def Strand.tileCols (t : Strand) : Nat := if mdSh t.md then t.vcols.toNat else t.el

/-- The byte address and bit offset of element `i` of a tile, or none out of range. -/
def tileAddr (t : Strand) (w : List Word) (xa : Word) (i : Nat) : Option (Word × Nat) :=
  let n := xa.toNat
  let tc := t.tileCols
  let c0 := natBits n 23 0 + i % tc
  let c1 := natBits n 47 24 + i / tc
  let (rest, off2) := (List.range 4).foldl (fun (acc : Nat × Int) j =>
    let e := entExt w (j + 2)
    if j + 2 < entNdim w then (acc.1 / e, acc.2 + (acc.1 % e : Nat) * entStr w (j + 2)) else acc) (natBits n 63 48, 0)
  let e1 := if 2 ≤ entNdim w then entExt w 1 else 1
  if rest ≠ 0 ∨ entExt w 0 ≤ c0 ∨ e1 ≤ c1 then none
  else
    let base : Int := entBase w + off2 + (c1 : Int) * (if 2 ≤ entNdim w then entStr w 1 else 0)
    if t.ty = 15 then some (BitVec.ofInt 64 (base + (c0 / 4 : Nat)), 2 * (c0 % 4))
    else some (BitVec.ofInt 64 (base + (c0 : Int) * entStr w 0), 0)

/-- The checks of TLD and TST: the entry, its layout and format, the shape. -/
def withTile (tid : BitVec 6) (g : Group) (t : Strand) (s : State) (f : List Word → Eff State) : Eff State :=
  withTypeM tyAny' t s <| withBound g tid.toNat s fun w =>
    if entLayout w ≠ 0 ∨ entFmt w ≠ t.ty ∨ t.ty = 14 then .trap s (formatTrap tid.toNat)
    else withShapeM t s (f w)
where
  /-- Every type. -/
  tyAny' (_ : Nat) : Bool := true

/-- TIER and PRIO that an access through an entry hands to a service (R119). -/
def entHint (w : List Word) : Option (BitVec 2 × BitVec 4) := some (BitVec.ofNat 2 (entTier w), BitVec.ofNat 4 (entPrio w))

/-- The elements of a tile that are in range. -/
def tileAct (t : Strand) (w : List Word) (xa : Word) (i : Nat) : Bool := t.active i && (tileAddr t w xa i).isSome

/-- TLD: an active element out of range is written as zero. -/
def tldE (d a tid : BitVec 6) (uid k : Nat) (g : Group) (t : Strand) (s : State) : Eff State :=
  withTile tid g t s fun w =>
    let xa := t.x a
    let z := t.w / 8
    let addr (i : Nat) : Word := match tileAddr t w xa i with | some p => p.1 | none => 0
    let shift (i : Nat) : Nat := match tileAddr t w xa i with | some p => p.2 | none => 0
    let (s1, els, flt) := locateLoop (.core g.core) g.cid .read z (tileAct t w xa) addr (t.el - t.vsStart) t.vsStart s []
    let stop := match flt with | some (i, _) => i | none => t.el
    let zero (i : Nat) : LoadItem := { loc := .phys 0, va := 0, bytes := 0, shift := 0, width := t.w, out := t.w, sx := false, dst := .vec d.toNat (t.w * i) t.w }
    let item : Nat × Nat × Nat → LoadItem := fun (i, va, pa) =>
      { loc := .phys pa, va := va, bytes := z, shift := shift i, width := if t.ty = 15 then 2 else t.w, out := t.w, sx := false, dst := .vec d.toNat (t.w * i) t.w }
    let items := ((List.range stop).filter fun i => decide (t.vsStart ≤ i) && t.active i).map fun i =>
      if (tileAddr t w xa i).isSome then ((els.find? fun e => e.1 == i).map item).getD (zero i) else zero i
    let rs := spanOf (.virt g.cid) z (els.map fun e => e.2.1)
    endVector uid k g t flt (entHint w)
      (((s1.pushLock s1.fresh uid k rs []).pushOp uid k g.cid (Way.tile (entVer w)) (.load items false) rs [] []).modStrand uid k fun t => t.issueLoad d)
def execTld (d a t : BitVec 6) (st : State) : Res := runM (tldE d a t) st

/-- Put store runs in ascending address (R157); runs of one address keep their order. -/
def insertRun (r : StoreItem) : List StoreItem → List StoreItem
  | [] => [r]
  | x :: xs => if r.va < x.va then r :: x :: xs else x :: insertRun r xs
def sortRuns (rs : List StoreItem) : List StoreItem := rs.foldl (fun acc r => insertRun r acc) []

/-- TST: an active element out of range writes nothing. -/
def tstE (d a tid : BitVec 6) (uid k : Nat) (g : Group) (t : Strand) (s : State) : Eff State :=
  withTile tid g t s fun w =>
    let xa := t.x a
    let z := t.w / 8
    let addr (i : Nat) : Word := match tileAddr t w xa i with | some p => p.1 | none => 0
    let shift (i : Nat) : Nat := match tileAddr t w xa i with | some p => p.2 | none => 0
    let (s1, els, flt) := locateLoop (.core g.core) g.cid .write z (tileAct t w xa) addr (t.el - t.vsStart) t.vsStart s []
    let items := els.map fun (i, va, pa) => vecStore.storeItem t d z (shift i) i va (.phys pa)
    let rs := spanOf (.virt g.cid) z (els.map fun e => e.2.1)
    endVector uid k g t flt (entHint w)
      (((s1.pushLock s1.fresh uid k [] rs).pushOp uid k g.cid (Way.tile (entVer w)) (.store (sortRuns items)) rs rs []).modStrand uid k Strand.issueStore)
def execTst (d a t : BitVec 6) (st : State) : Res := runM (tstE d a t) st

/-! ## Typed-buffer transfers (R253) -/

def bufOf (u : BitVec 2) : Buf := if u = 0 then .w else if u = 1 then .a else .c
def Buf.code : Buf → BitVec 4
  | .w => 0
  | .a => 1
  | .c => 2

/-- The active elements of a buffer transfer up to the first fault. -/
def bufLoop (kind : Acc) (b : Buf) (z size : Nat) (act : Nat → Bool) (xa : Word) : Nat → Nat → List (Nat × Nat) → List (Nat × Nat) × Option (Nat × AccFault)
  | 0, _, acc => (acc.reverse, none)
  | n + 1, i, acc =>
    let off := xa + BitVec.ofNat 64 (i * z)
    if act i then
      if off.toNat % z ≠ 0 then (acc.reverse, some (i, { va := off, kind := kind, what := .trap 0x07 0 }))
      else if size < off.toNat + z then (acc.reverse, some (i, { va := off, kind := kind, what := .trap 0x0C b.code }))
      else bufLoop kind b z size act xa n (i + 1) ((i, off.toNat) :: acc)
    else bufLoop kind b z size act xa n (i + 1) acc

/-- The checks of BLD and BST: the typed-buffer trap on a stack core, and the shape. -/
def withBuf (u : BitVec 2) (g : Group) (t : Strand) (s : State) (f : Eff State) : Eff State :=
  withTypeM (fun _ => true) t s <| if isStackCore g.core ∧ u = 0 then .trap s (trapOf 0x0D 0 0) else withShapeM t s f

/-- BLD. -/
def bldE (d a : BitVec 6) (u : BitVec 2) (uid k : Nat) (g : Group) (t : Strand) (s : State) : Eff State :=
  withBuf u g t s <|
    let z := t.w / 8
    let b := bufOf u
    let (els, flt) := bufLoop .read b z (s.partSize g b) t.active (t.x a) (t.el - t.vsStart) t.vsStart []
    let items := els.map fun (i, off) => ({ loc := .buf b off, va := off, bytes := z, shift := 0, width := tyCode t.ty, out := t.w, sx := false,
                                            dst := .vec d.toNat (t.w * i) t.w } : LoadItem)
    endVector uid k g t flt none
      ((s.pushOp uid k g.cid Way.group (.load items false) (rangesOf (.buf uid b) z (els.map fun e => e.2)) [] []).modStrand uid k fun t => t.issueLoad d)
def execBld (d a : BitVec 6) (u : BitVec 2) (st : State) : Res := runM (bldE d a u) st

/-- BST. -/
def bstE (d a : BitVec 6) (u : BitVec 2) (uid k : Nat) (g : Group) (t : Strand) (s : State) : Eff State :=
  withBuf u g t s <|
    let z := t.w / 8
    let b := bufOf u
    let (els, flt) := bufLoop .write b z (s.partSize g b) t.active (t.x a) (t.el - t.vsStart) t.vsStart []
    let items := els.map fun (i, off) => ({ loc := .buf b off, va := off, data := leBytes z (elem t.w (t.vreg d) i % 2 ^ tyCode t.ty), mask := List.replicate z 0xFF } : StoreItem)
    let rs := rangesOf (.buf uid b) z (els.map fun e => e.2)
    endVector uid k g t flt none ((s.pushOp uid k g.cid Way.group (.store items) rs rs []).modStrand uid k Strand.issueStore)
def execBst (d a : BitVec 6) (u : BitVec 2) (st : State) : Res := runM (bstE d a u) st

/-! ## Spills (R254, R134) -/

/-- Translate the pages of `n` bytes at an address, page by page: the physical address of each run. -/
def probeLoop (p : Party) (cid : Nat) (kind : Acc) : Nat → Nat → Nat → State → List (Nat × Nat × Nat) → Except AccFault (List (Nat × Nat × Nat)) × State
  | 0, _, _, s, acc => (.ok acc.reverse, s)
  | fuel + 1, va, n, s, acc =>
    if n = 0 then (.ok acc.reverse, s)
    else
      let len := Nat.min n (4096 - va % 4096)
      match s.locate p cid (BitVec.ofNat 64 va) kind with
      | (.ok pa, s1) => probeLoop p cid kind fuel (va + len) (n - len) s1 ((va, pa, len) :: acc)
      | (x, s1) => (.error { va := BitVec.ofNat 64 va, kind := kind, what := x }, s1)

/-- The registers of a map, in ascending number. -/
def mapRegs (m : Nat) : List Nat := (List.range 48).filter fun i => natBit m i

/-- The runs of an address space cut to the run of `len` bytes at offset `off` of a frame that starts at `va`. -/
def runsAt (runs : List (Nat × Nat × Nat)) (va n : Nat) : List (Nat × Nat × Nat) :=
  (runs.filter fun (v, _, l) => decide (v < va + n) && decide (va < v + l)).map fun (v, pa, l) =>
    let lo := if v ≤ va then va else v
    let hi := if va + n ≤ v + l then va + n else v + l
    (lo, pa + (lo - v), hi - lo)

/-- VSPILL: the header and the selected registers, in ascending order. -/
def vspillE (d a : BitVec 6) (uid k : Nat) (g : Group) (t : Strand) (s : State) : Eff State :=
  let va := (t.x a).toNat
  let map := t.dm.toNat &&& (t.x d).toNat
  let regs := mapRegs map
  if va % 64 ≠ 0 then .trap s { cause := 0x07, detail := 0, acc := 3, async := false, tval := t.x a }
  else
    match probeLoop (.core g.core) g.cid .write 16 va (64 + 1024 * regs.length) s [] with
    | (.error f, s1) => s1.strandFault uid k g f none
    | (.ok runs, s1) =>
      let bytes := leBytes 64 (map % 2 ^ 48) ++ regs.flatMap fun r => leBytes 1024 (t.v.getD r 0).toNat
      let items := runs.map fun (v, pa, l) => ({ loc := .phys pa, va := v, data := (bytes.drop (v - va)).take l, mask := List.replicate l 0xFF } : StoreItem)
      let rs := [({ sp := .virt g.cid, lo := va, hi := va + bytes.length } : Range)]
      .done ((s1.pushOp uid k g.cid Way.spill (.store items) rs rs []).modStrand uid k Strand.issueStore)
def execVspill (d a : BitVec 6) (st : State) : Res := runM (vspillE d a) st

/-- VFILL: MAP from the header, then each register of it. -/
def vfillE (a : BitVec 6) (uid k : Nat) (g : Group) (t : Strand) (s : State) : Eff State :=
  let va := (t.x a).toNat
  if va % 64 ≠ 0 then .trap s { cause := 0x07, detail := 0, acc := 2, async := false, tval := t.x a }
  else
    match s.locate (.core g.core) g.cid (t.x a) .read with
    | (.ok pa, s1) =>
      if s1.uncorrectable pa then .settled (s1.fatalTrap uid k (errorTrap (t.x a)))
      else
        let (bs, s1) := (s1.cacheSpan (.load g.core 0 6) g.cid 0 pa 6).readPlace g 0 false (.phys pa) 6
        let map := leNat bs
        let regs := mapRegs map
        match probeLoop (.core g.core) g.cid .read 16 va (64 + 1024 * regs.length) (s1.countUnsealed g.cid (.phys pa)) [] with
        | (.error f, s2) => s2.strandFault uid k g f none
        | (.ok runs, s2) =>
          let items := ((List.range regs.length).map fun j =>
            (runsAt runs (va + 64 + 1024 * j) 1024).map fun (v, pa, l) =>
              ({ loc := .phys pa, va := v, bytes := l, shift := 0, width := 8 * l, out := 8 * l, sx := false,
                 dst := .vec (regs.getD j 0) (8 * (v - (va + 64 + 1024 * j))) (8 * l) } : LoadItem)).flatten
          .done ((s2.pushOp uid k g.cid Way.spill (.load items false) [{ sp := .virt g.cid, lo := va, hi := va + 64 + 1024 * regs.length }] [] []).modStrand uid k
            fun t => { t with kl := t.kl + 1, dm := t.dm ||| BitVec.ofNat 48 map })
    | (x, s1) => s1.strandFault uid k g { va := t.x a, kind := .read, what := x } none
def execVfill (a : BitVec 6) (st : State) : Res := runM (vfillE a) st

end Sys2Proof.Machine
end

