-- ==== Sys2Proof/Machine/Wait.lean ====
section
/-!
DEFINITION. Counter waits and barriers (R97 to R110, R256, R257), and how a waiting strand goes on (R87).
-/
namespace Sys2Proof.Machine

open Sys2Proof

/-! ## What a strand has in flight -/

/-- Identities of everything of a strand that a counter or the matrix queue counts (R107). -/
def State.liveIds (s : State) (uid k : Nat) : List Nat :=
  ((s.ops.filter fun o => o.guid == uid && o.strand == k && counted o.work).map fun o => o.id) ++
  ((s.mats.filter fun m => m.guid == uid && m.strand == k).map fun m => m.id) ++
  (match s.strand? uid k with
   | some t => t.chans.flatMap fun c => (c.opened ++ c.closed.flatMap fun b => b.cmds).map fun m => m.id
   | none => []) ++
  ((s.rows.ops.filter fun o => o.guid == uid && o.strand == k).map fun o => o.id) ++
  ((s.cats.filter fun o => o.guid == uid && o.strand == k).map fun o => o.id) ++
  ((s.arc.ops.filter fun o => o.guid == uid && o.strand == k).map fun o => o.id) ++
  ((s.mmu.migs.filter fun m => m.guid == uid && m.strand == k).map fun m => m.id)
where
  /-- Operations that raise a counter. -/
  counted : OpWork → Bool
    | .load .. => true
    | .store .. => true
    | .atomic .. => true
    | .enq .. => true
    | _ => false

/-- Identities of the writes that an arrival of a strand covers (R100): its stores, atomics and matrix operations. -/
def State.writeIds (s : State) (uid k : Nat) : List Nat :=
  ((s.ops.filter fun o => o.guid == uid && o.strand == k && writes o.work).map fun o => o.id) ++
  ((s.mats.filter fun m => m.guid == uid && m.strand == k).map fun m => m.id)
where
  /-- Operations that write. -/
  writes : OpWork → Bool
    | .store .. => true
    | .atomic .. => true
    | _ => false

/-- None of the operations that a pending arrival waits for is in flight. -/
def State.arrivalDue (s : State) (o : Op) : Bool := o.after.all fun i => !(s.liveIds o.guid o.strand).contains i

/-! ## Ending a strand (R87, R107) -/

/-- A pending arrival of a strand at superstep barrier `j`. -/
def State.pendingStep (s : State) (uid k j : Nat) : Bool :=
  s.ops.any fun o => o.guid == uid && o.strand == k && (match o.work with | .sstep i => i == j | _ => false)

/-- A strand ends: every superstep barrier without a pending arrival of it loses it. -/
def State.endStrand (s : State) (uid k : Nat) : State :=
  match s.group? uid with
  | none => s
  | some g =>
    let s1 := s.modStrand uid k fun t => { t with status := .ended }
    (List.range 64).foldl (fun s j => if s.pendingStep uid k j then s else s.sstepLeave g.kuid j) s1

/-! ## Counter waits (R256) -/

/-- The open batch of a channel closes: it captures its CQB (R281, R283). -/
def Channel.close (c : Channel) (cqb : Word) : Channel :=
  if c.opened.isEmpty then c else { c with opened := [], closed := c.closed ++ [{ cmds := c.opened, cqb := cqb, failed := false }] }

/-- Every open batch closes, as a save of the group makes it do (R281). -/
def Strand.closeAll (t : Strand) (cqb : List Word) : Strand :=
  { t with chans := (List.range t.chans.length).map fun q => (t.chans.getD q { opened := [], closed := [], halt := none, held := none }).close (wordAt cqb q) }

/-- Close the open batches of the channels that a wait names. -/
def Strand.closeNamed (t : Strand) (cqb : List Word) (set : BitVec 8) : Strand :=
  { t with chans := (List.range 4).map fun q =>
      let c := t.chans.getD q { opened := [], closed := [], halt := none, held := none }
      if set.getLsbD (q + 2) then c.close (wordAt cqb q) else c }

/-- The named counters read zero. -/
def Strand.countersZero (t : Strand) (set : BitVec 8) : Bool :=
  (!(set.getLsbD 0) || t.kl == 0) && (!(set.getLsbD 1) || t.ks == 0) &&
  ((List.range 4).all fun q => !(set.getLsbD (q + 2)) || t.ke.getD q 0 == 0) &&
  (!(set.getLsbD 6) || t.kr == 0) && (!(set.getLsbD 7) || t.kc == 0)

/-- An operation writes memory at group scope. A write is performed for every observer when it completes (notes/assumptions/4.md), so that is when it
has entered the home order. A group-scope write to another module acts at device scope (R410). -/
def Op.groupWrite (s : State) (o : Op) : Bool :=
  decide (o.scope = 0) && o.work.places.any fun (l, _, w) => w && (match l with | .phys pa => (remoteOf s pa).isNone | .buf _ _ => false)

/-- WAIT or DRAIN of a strand is over: the named counters read zero; for DRAIN no group-scope write of the strand is outstanding either. -/
def State.waitOver (s : State) (uid k : Nat) (t : Strand) (set : BitVec 8) (drain : Bool) : Bool :=
  t.countersZero set && (!drain || !(s.ops.any fun o => o.guid == uid && o.strand == k && o.groupWrite s))

/-- WAIT and DRAIN. -/
def waitE (set : BitVec 8) (drain : Bool) (uid k : Nat) (g : Group) (t : Strand) (s : State) : Eff State :=
  let s1 := s.modStrand uid k fun t => t.closeNamed g.cqb set
  if s.waitOver uid k t set drain then .done s1
  else .settled (s1.modStrand uid k fun t => { t with status := .waiting (.counters set drain) })

/-- WAIT. -/
def execWait (k : BitVec 8) (st : State) : Res := runM (waitE k false) st
/-- DRAIN. -/
def execDrain (k : BitVec 8) (st : State) : Res := runM (waitE k true) st

/-! ## Named barriers (R97 to R105, R257) -/

/-- The barrier-allotment check (R45). -/
def withBarrier (n : BitVec 10) (g : Group) (s : State) (f : Bar → Eff State) : Eff State :=
  if 16 * (s.ctx g.cid).ba.toNat ≤ n.toNat then .trap s (trapOf 0x10 0 (BitVec.ofNat 64 n.toNat))
  else f (g.bars.getD n.toNat Bar.zero)

/-- The barrier-count check. -/
def withCount (v : Word) (s : State) (f : Eff State) : Eff State := if v.extractLsb' 0 10 = 0#10 then .trap s (trapOf 0x11 0 v) else f

/-- BINIT: EXP, TMO; CNT and XERR cleared, GEN unchanged. -/
def execBinit (a : BitVec 6) (n : BitVec 10) (st : State) : Res :=
  runM (fun uid _ g t s => withBarrier n g s fun b => withCount (t.x a) s <|
    .done (s.modGroup uid fun g => g.setBar n.toNat
      { b with exp := (t.x a).extractLsb' 0 10, tmo := (t.x a).extractLsb' 10 11, cnt := 0, xerr := false, fail := false } false)) st

/-- BEXP: EXP; a count that reaches it completes the barrier. -/
def execBexp (a : BitVec 6) (n : BitVec 10) (st : State) : Res :=
  runM (fun uid _ g t s => withBarrier n g s fun b => withCount (t.x a) s <|
    let b1 := { b with exp := (t.x a).extractLsb' 0 10 }
    .done (s.modGroup uid fun g => if b1.exp.toNat ≤ b1.cnt.toNat then g.setBar n.toNat b1.complete true else g.setBar n.toNat b1 false)) st

/-- The DM bit of a destination register set at issue (R133, R257). -/
def Strand.mark (t : Strand) (d : BitVec 6) : Strand := { t with dm := t.dm ||| BitVec.ofNat 48 (2 ^ d.toNat) }

/-- BARV: a pending arrival. -/
def execBarv (d : BitVec 6) (n : BitVec 10) (st : State) : Res :=
  runM (fun uid k g _ s => withBarrier n g s fun _ =>
    .done ((s.pushOp uid k g.cid Way.group (.barv n.toNat d) [] [] (s.writeIds uid k)).modStrand uid k fun t => t.mark d)) st

/-- BGEN: the record of R98. -/
def execBgen (d : BitVec 6) (n : BitVec 10) (st : State) : Res :=
  runM (fun uid k g _ s => withBarrier n g s fun b => .done (s.modStrand uid k fun t => t.setX d b.record)) st

/-- The result of a wait: the timeout bit and XERR. -/
def waitResult (timeout xerr : Bool) : Word := BitVec.ofNat 64 (timeout.toNat + 2 * xerr.toNat)

/-- BWAIT and BWAIT.p. Whether a timeout runs is settled by TMO as the wait begins; a BINIT that changes TMO during the wait changes nothing for it:
DESIGN CHOICE, notes/assumptions/98.md. -/
def bwaitE (phase : Bool) (d a : BitVec 6) (n : BitVec 10) (uid k : Nat) (g : Group) (t : Strand) (s : State) : Eff State :=
  withBarrier n g s fun b =>
    let v := (t.x a).extractLsb' 0 16
    if genTest b.gen v phase then .done (s.modStrand uid k fun t => t.setX d (waitResult false b.xerr))
    else .settled (s.modStrand uid k fun t => { t.mark d with status := .waiting (.barrier n.toNat v phase d (decide (b.tmo ≠ 0)) none) })
def execBwait (d a : BitVec 6) (n : BitVec 10) (st : State) : Res := runM (bwaitE false d a n) st
def execBwaitP (d a : BitVec 6) (n : BitVec 10) (st : State) : Res := runM (bwaitE true d a n) st

/-! ## Superstep barriers (R106, R107) -/

/-- Superstep barrier `j` of a group's kernel. -/
def State.ssb (s : State) (g : Group) (j : Nat) : SBar :=
  match (s.kernel? g.kuid).bind fun q => q.ssb[j]? with
  | some b => b
  | none => { gen := 0, xerr := false, exp := 0, cnt := 0, fail := false }

/-- SSTEP: GEN at issue; the arrival is pending. -/
def execSstep (d : BitVec 6) (n : BitVec 6) (st : State) : Res :=
  runM (fun uid k g _ s =>
    .done ((s.pushOp uid k g.cid Way.group (.sstep n.toNat) [] [] (s.liveIds uid k)).modStrand uid k
      fun t => t.setX d ((s.ssb g n.toNat).gen.setWidth 64))) st

/-- BWAIT.s and BWAIT.s.p. -/
def bwaitSE (phase : Bool) (d a n : BitVec 6) (uid k : Nat) (g : Group) (t : Strand) (s : State) : Eff State :=
  let b := s.ssb g n.toNat
  let v := (t.x a).extractLsb' 0 16
  if genTest b.gen v phase then .done (s.modStrand uid k fun t => t.setX d (waitResult false b.xerr))
  else .settled (s.modStrand uid k fun t => { t.mark d with status := .waiting (.superstep n.toNat v phase d none) })
def execBwaitS (d a n : BitVec 6) (st : State) : Res := runM (bwaitSE false d a n) st
def execBwaitSP (d a n : BitVec 6) (st : State) : Res := runM (bwaitSE true d a n) st

/-- BGEN.s: GEN and XERR. -/
def execBgenS (d : BitVec 6) (n : BitVec 6) (st : State) : Res :=
  runM (fun uid k g _ s =>
    let b := s.ssb g n.toNat
    .done (s.modStrand uid k fun t => t.setX d (BitVec.ofNat 64 (b.gen.toNat + 2 ^ 36 * b.xerr.toNat)))) st

/-! ## Events -/

/-- The strand is ready again at the instruction after its wait. -/
def Strand.resume (t : Strand) : Strand := { t with status := .ready, pc := nextPc t.pc 4 }

/-- A strand whose barrier wait has passed takes the result and is ready (R101, R102). -/
def Strand.passWait (t : Strand) : Strand :=
  match t.status with
  | .waiting (.barrier _ _ _ d _ (some x)) => (t.landX d (waitResult false x)).resume
  | .waiting (.superstep _ _ _ d (some x)) => (t.landX d (waitResult false x)).resume
  | _ => t

/-- What a waiting or swapped strand does once its condition is met; none before. -/
def State.wake (s : State) (uid k : Nat) (t : Strand) : Option State :=
  match t.status with
  | .waiting (.counters set drain) => if s.waitOver uid k t set drain then some (s.modStrand uid k Strand.resume) else none
  | .waiting (.barrier _ _ _ _ _ (some _)) => some (s.modStrand uid k Strand.passWait)
  | .waiting (.superstep _ _ _ _ (some _)) => some (s.modStrand uid k Strand.passWait)
  | .waiting (.idle true) => some (s.modStrand uid k Strand.resume)
  | .swapped _ _ (some true) => some (s.modStrand uid k fun t => { t with status := .ready })
  | .swapped va acc (some false) =>
    some ((s.modStrand uid k fun t => { t with status := .ready }).takeTrap uid k
      { cause := 0x0B, detail := 0, acc := acc, async := false, tval := va } t.pc)
  | _ => none

/-- An event of a strand of a resident group. -/
def strandEvent (uid k : Nat) (f : Strand → Option State) (s : State) : Res :=
  match s.group? uid with
  | none => .next s
  | some g =>
    match g.strands[k]? with
    | none => .next s
    | some t => if g.stage = .resident then .next ((f t).getD s) else .next s

/-- STRAND_WAKE (R87). -/
def execStrandWake (uid : Nat) (k : BitVec 3) (s : State) : Res := strandEvent uid k.toNat (fun t => s.wake uid k.toNat t) s

/-- IDLE_TIMEOUT: 1 us has passed (R345). -/
def execIdleTimeout (uid : Nat) (k : BitVec 3) (s : State) : Res :=
  strandEvent uid k.toNat (fun t => match t.status with
    | .waiting (.idle _) => some (s.modStrand uid k.toNat Strand.resume)
    | _ => none) s

/-- BWAIT_TIMEOUT: result bit 0 set; bit 1 has no stated value there (notes/assumptions/15.md). -/
def execBwaitTimeout (uid : Nat) (k : BitVec 3) (s : State) : Res :=
  strandEvent uid k.toNat (fun t => match t.status with
    | .waiting (.barrier _ _ _ d true none) =>
      some (s.tick.modStrand uid k.toNat fun t => (t.landX d (waitResult true (Config.freeBool s.fresh))).resume)
    | _ => none) s

/-- BARV_ARRIVAL: the arrival takes effect and xD takes GEN as it stood (R100). -/
def execBarvArrival (i : Nat) (s : State) : Res :=
  match s.op? i with
  | none => .next s
  | some o =>
    match o.work, s.group? o.guid with
    | .barv b d, some g =>
      if s.arrivalDue o then
        let gen := (g.bars.getD b Bar.zero).gen
        .next (((s.modGroup o.guid fun g => g.arrive b o.failed).modStrand o.guid o.strand fun t => t.landX d (gen.setWidth 64)).dropOp i)
      else .next s
    | _, _ => .next s

/-- SSTEP_ARRIVAL: the arrival takes effect; a strand that has ended leaves the barrier after its last one (R107). -/
def execSstepArrival (i : Nat) (s : State) : Res :=
  match s.op? i with
  | none => .next s
  | some o =>
    match o.work, s.group? o.guid with
    | .sstep j, some g =>
      if s.arrivalDue o then
        let s1 := ((s.modStrand o.guid o.strand fun t => { t with arrived := t.arrived.set j (some (s.ssb g j).gen) }).sstepArrive g.kuid j o.failed).dropOp i
        match s1.strand? o.guid o.strand with
        | some t => if t.status = .ended ∧ s1.pendingStep o.guid o.strand j = false then .next (s1.sstepLeave g.kuid j) else .next s1
        | none => .next s1
      else .next s
    | _, _ => .next s

end Sys2Proof.Machine
end

