-- ==== Sys2Proof/Machine/Copy.lean ====
section
/-!
DEFINITION. Nest registers and the copy engine (spec/17_copy_nests.md R271 to R286): the nest instructions, the copy command with its
checks and its walk, channels and batches, nest batches, and the copy-fault trap.
-/
namespace Sys2Proof.Machine

open Sys2Proof

/-! ## Nest registers (R271, R272) -/

/-- The nest-value trap. -/
def nestTrap (v : Word) : Trap := trapOf 0x13 0 v

/-- NLD: the image at xA, sector by sector. -/
def nldE (d a : BitVec 6) (uid k : Nat) (g : Group) (t : Strand) (s : State) : Eff State :=
  match s.locateEl (.core g.core) g.cid .read 128 (t.x a) with
  | (.error f, s1) => s1.strandFault uid k g f none
  | (.ok pa, s1) =>
    let items := (List.range 4).map fun i => ({ loc := .phys (pa + 32 * i), va := (t.x a).toNat + 32 * i, bytes := 32, shift := 0, width := 256, out := 256, sx := false, dst := .nest d.toNat (256 * i) } : LoadItem)
    .done ((s1.pushOp uid k g.cid Way.nest (.load items false) (rangesOf (.virt g.cid) 128 [(t.x a).toNat]) [] []).modStrand uid k
      fun t => { t with kl := t.kl + 1 })
def execNld (d a : BitVec 6) (st : State) : Res := runM (nldE d a) st

/-- NST: the image of nD to xA, reserved bits zero. -/
def nstE (d a : BitVec 6) (uid k : Nat) (g : Group) (t : Strand) (s : State) : Eff State :=
  match s.locateEl (.core g.core) g.cid .write 128 (t.x a) with
  | (.error f, s1) => s1.strandFault uid k g f none
  | (.ok pa, s1) =>
    let rs := rangesOf (.virt g.cid) 128 [(t.x a).toNat]
    .done ((s1.pushOp uid k g.cid Way.nest (.store [{ loc := .phys pa, va := (t.x a).toNat, data := leBytes 128 (t.nest d.toNat &&& nestMask).toNat, mask := List.replicate 128 0xFF }]) rs rs []).modStrand uid k Strand.issueStore)
def execNst (d a : BitVec 6) (st : State) : Res := runM (nstE d a) st

/-- NCNT: CNTM1 of a level := xA - 1. -/
def ncntE (d a : BitVec 6) (l : BitVec 3) (t : Strand) : Eff Strand :=
  let v := (t.x a).toNat
  if v = 0 ∨ 2 ^ 24 < v then .trap t (nestTrap (t.x a))
  else .done (t.setN d.toNat (nestSetCnt (t.nest d.toNat) l.toNat (v - 1)))
def execNcnt (d a : BitVec 6) (l : BitVec 3) (st : State) : Res := runS (ncntE d a l) st

/-- NSTR: stride `s` of a level := xA<39:0>. -/
def nstrE (d a : BitVec 6) (l : BitVec 3) (s : BitVec 2) (t : Strand) : Eff Strand :=
  let v := (t.x a).toInt
  if v < -(2 ^ 39 : Int) ∨ (2 ^ 39 : Int) ≤ v then .trap t (nestTrap (t.x a))
  else .done (t.setN d.toNat (nestPut (t.nest d.toNat) (160 * l.toNat + 40 * s.toNat - 16) 40 (t.x a).toNat))
def execNstr (d a : BitVec 6) (l : BitVec 3) (s : BitVec 2) (st : State) : Res := runS (nstrE d a l s) st

/-! ## The operands of a copy (R273, R276) -/

/-- The entry names a buffer tensor. -/
def isBufTensor (w : List Word) : Bool := decide (entTier w = 3)
/-- The code of the buffer that it names. -/
def bufSel (w : List Word) : Nat := entBits w 0 22 21
def bufOfSel (w : List Word) : Buf := bufOf (BitVec.ofNat 2 (bufSel w))
/-- BASE, or the offset in the partition. -/
def sideBase (w : List Word) : Nat := if isBufTensor w then entBits w 0 20 0 else entBase w
/-- SADDR; that of a buffer tensor is read as 0. -/
def sideSaddr (w : List Word) : Nat := if isBufTensor w then 0 else entSaddr w
/-- A packed tensor in memory. -/
def sidePacked (w : List Word) : Bool := packed (entFmt w) && !isBufTensor w
/-- The byte stride of dimension `k`; packed codes of a buffer tensor stand one byte apart. -/
def sideStr (w : List Word) (k : Nat) : Int :=
  if k < entNdim w then (if k = 0 ∧ packed (entFmt w) = true then 1 else entStr w k) else 0
/-- The space that a side lies in. -/
def sideSpace (w : List Word) (g : Group) : RSpace := if isBufTensor w then .buf g.uid (bufOfSel w) else .virt g.cid

/-- An element of a tensor: first byte, number of bytes, bit offset and width. -/
structure ElemAt where
  lo : Int
  n : Nat
  shift : Nat
  width : Nat
  deriving DecidableEq, Repr

/-- The element at coordinates `c` (R165, R276). -/
def elemAt (w : List Word) (c : List Nat) : ElemAt :=
  let hi : Int := (List.range 5).foldl (fun (a : Int) k => a + ((c.getD (k + 1) 0 : Nat) : Int) * sideStr w (k + 1)) (sideBase w)
  let c0 := c.getD 0 0
  if sidePacked w then
    if entFmt w = 14 then { lo := hi + (3 * (c0 / 4) : Nat), n := 3, shift := 6 * (c0 % 4), width := 6 }
    else { lo := hi + (c0 / 4 : Nat), n := 1, shift := 2 * (c0 % 4), width := 2 }
  else { lo := hi + (c0 : Int) * sideStr w 0, n := tyWidth (entFmt w) / 8, shift := 0, width := tyCode (entFmt w) }

/-- The linear number of an element (R179). -/
def linearOf (w : List Word) (c : List Nat) : Nat :=
  ((List.range (entNdim w)).foldl (fun (a : Nat × Nat) k => (a.1 + c.getD k 0 * a.2, a.2 * entExt w k)) (0, 1)).1

/-- The address of the scale byte of an element. -/
def scaleAt (w : List Word) (c : List Nat) : Nat := sideSaddr w + linearOf w c / 32


def CopyCmd.cnt (c : CopyCmd) (k : Nat) : Nat := nestCnt c.nest k + 1
/-- The start coordinate of level `k`. -/
def CopyCmd.start (c : CopyCmd) (k : Nat) : Int := nestStr c.nest k 1
/-- The destination stride of level `k`. -/
def CopyCmd.s2 (c : CopyCmd) (k : Nat) : Int := nestStr c.nest k 2
def CopyCmd.total (c : CopyCmd) : Nat := (List.range 6).foldl (fun n k => n * c.cnt k) 1
/-- Dim(k), counted as written; none for the field level. -/
def CopyCmd.dim (c : CopyCmd) (k : Nat) : Option Nat :=
  if c.xf = 1 then some (if k = 0 then 1 else if k = 1 then 0 else k)
  else if c.xf = 2 then (if k = 0 then some 0 else if k = 1 then none else some (k - 1))
  else some k
/-- Level `k` moves the source. -/
def CopyCmd.moves (c : CopyCmd) (k : Nat) : Bool := match c.dim k with
  | some d => decide (d < entNdim c.src)
  | none => false
/-- The fields of COPY.di. -/
def CopyCmd.fields (c : CopyCmd) : Nat := c.arg + 1
/-- Index `i` of COPY.pm. -/
def CopyCmd.index (c : CopyCmd) (i : Nat) : Int := natSigned 32 (c.idx.toNat >>> (32 * i))
/-- A scale stream is written (R278). -/
def CopyCmd.stream (c : CopyCmd) : Bool := decide (c.xf = 4) || (decide (c.xf = 0) && decide (entFmt c.src = entFmt c.dst) && decide (sideSaddr c.src ≠ 0))
/-- The destination element size. -/
def CopyCmd.eb (c : CopyCmd) : Nat := tyWidth (entFmt c.dst) / 8
/-- Scale bytes per row. -/
def CopyCmd.rowScale (c : CopyCmd) : Nat := if c.stream then (c.cnt 0 + 31) / 32 else 0
/-- Count `k` of iteration `p`, i0 fastest. -/
def CopyCmd.iAt (c : CopyCmd) (p : Nat) (k : Nat) : Nat := (List.range k).foldl (fun p j => p / c.cnt j) p % c.cnt k

/-- The coordinates of an iteration, if they lie in range. -/
def CopyCmd.coords (c : CopyCmd) (p : Nat) : Option (List Nat) :=
  let at6 : List Int := (List.range 6).foldl (fun l k => match c.dim k with
    | some d => if c.moves k then l.set d (c.start k + c.iAt p k) else l
    | none => l) (List.replicate 6 0)
  let zs : List Int :=
    if c.xf = 3 then at6.set 0 (c.start 0 + c.index (c.iAt p 0))
    else if c.xf = 2 then at6.set 0 ((c.fields : Int) * (c.start 0 + c.iAt p 0) + c.iAt p 1)
    else at6
  if (List.range (entNdim c.src)).all fun d => decide (0 ≤ zs.getD d 0) && decide (zs.getD d 0 < entExt c.src d) then some (zs.map Int.toNat) else none

/-- The destination base of the row of an iteration. -/
def CopyCmd.rowBase (c : CopyCmd) (p : Nat) : Int := (List.range 5).foldl (fun (a : Int) k => a + (c.iAt p (k + 1) : Int) * c.s2 (k + 1)) (sideBase c.dst)
/-- Where an iteration writes. -/
def CopyCmd.dstAt (c : CopyCmd) (p : Nat) : Nat := (c.rowBase p + (c.iAt p 0 : Int) * c.s2 0).toNat
/-- Where the scale byte of block `j` of the row goes. -/
def CopyCmd.scaleDst (c : CopyCmd) (p j : Nat) : Nat := (c.rowBase p + (c.cnt 0 : Int) * c.s2 0 + j).toNat
/-- An iteration ends its row. -/
def CopyCmd.rowEnd (c : CopyCmd) (p : Nat) : Bool := decide (c.iAt p 0 + 1 = c.cnt 0)
/-- The first iteration of block `j` of the row of iteration `p`. -/
def CopyCmd.blockStart (c : CopyCmd) (p j : Nat) : Nat := p - c.iAt p 0 + 32 * j

/-- E0 to E5 of R279: the size, or none where a condition fails. -/
def CopyCmd.extent (c : CopyCmd) : Option Int :=
  let e0 : Option Int :=
    if c.stream then (if c.s2 0 = c.eb then some ((c.cnt 0 * c.eb + c.rowScale : Nat) : Int) else none)
    else if 1 < c.cnt 0 ∧ c.s2 0 < c.eb then none
    else some (((c.cnt 0 : Int) - 1) * c.s2 0 + c.eb)
  (List.range 5).foldl (fun e k => e.bind fun (e : Int) =>
    if c.cnt (k + 1) = 1 then some e
    else if c.s2 (k + 1) < e then none else some (((c.cnt (k + 1) : Int) - 1) * c.s2 (k + 1) + e)) e0

/-- The lowest and highest coordinate of dimension `d` that the walk reaches in range; none where no element is in range. -/
def CopyCmd.box (c : CopyCmd) (d : Nat) : Option (Nat × Nat) :=
  let cut (lo hi : Int) : Option (Nat × Nat) :=
    let l := if lo < 0 then 0 else lo
    let h := if (entExt c.src d : Int) - 1 < hi then (entExt c.src d : Int) - 1 else hi
    if l ≤ h then some (l.toNat, h.toNat) else none
  if d = 0 ∧ c.xf = 3 then
    let zs : List Int := ((List.range (c.cnt 0)).map fun i => c.start 0 + c.index i).filter fun z => decide ((0 : Int) ≤ z) && decide (z < (entExt c.src 0 : Int))
    match zs with
    | [] => none
    | z :: r => some ((r.foldl (fun a b => if b < a then b else a) z).toNat, (r.foldl (fun a b => if a < b then b else a) z).toNat)
  else if d = 0 ∧ c.xf = 2 then cut ((c.fields : Int) * c.start 0) ((c.fields : Int) * (c.start 0 + c.cnt 0 - 1) + c.cnt 1 - 1)
  else
    match (List.range 6).find? fun k => c.moves k && c.dim k == some d with
    | some k => cut (c.start k) (c.start k + c.cnt k - 1)
    | none => cut 0 0

/-- The boxes of the source dimensions. -/
def CopyCmd.boxes (c : CopyCmd) : Option (List (Nat × Nat)) :=
  (List.range (entNdim c.src)).foldr (fun d l => (c.box d).bind fun b => l.map fun r => b :: r) (some [])

/-- The bytes from the lowest to beyond the highest of the in-range source elements. -/
def CopyCmd.srcSpan (c : CopyCmd) (bs : List (Nat × Nat)) : Int × Int :=
  let pick (low : Bool) : List Nat := (List.range 6).map fun d =>
    let b := bs.getD d (0, 0)
    if (decide (0 ≤ (if d = 0 ∧ packed (entFmt c.src) = true then 1 else sideStr c.src d))) == low then b.1 else b.2
  let h := elemAt c.src (pick false)
  ((elemAt c.src (pick true)).lo, h.lo + h.n)


/-! ## The checks (R275) -/

/-- The tensor-format check: the tensor it names. -/
def copyFormat (c : CopyCmd) (tid nid : Nat) : Option Nat :=
  let ft := entFmt c.src
  let fn := entFmt c.dst
  let bad (w : List Word) : Bool := isBufTensor w && (decide (bufSel w = 3) || decide (entBits w 0 56 23 ≠ 0))
  if entLayout c.src ≠ 0 then some tid
  else if entLayout c.dst ≠ 0 then some nid
  else if bad c.src then some tid
  else if bad c.dst || (packed fn && !isBufTensor c.dst) || (decide (c.xf = 4) && (decide (c.arg ≠ fn) || decide (fn < 12))) then some nid
  else if 1 ≤ c.xf ∧ c.xf ≤ 3 ∧ sideSaddr c.src ≠ 0 ∧ ft = fn then some tid
  else if c.xf = 0 ∧ c.stream = true ∧ (c.cnt 0 % 32 ≠ 0 ∨ c.start 0 % 32 ≠ 0 ∨ entExt c.src 0 % 32 ≠ 0) then some tid
  else none

/-- The nest-range check, without the destination's extent. -/
def copyRange (c : CopyCmd) : Bool :=
  ((List.range 6).any fun k =>
    if c.moves k then decide (c.start k < -(2 ^ 24 : Int)) || decide ((2 ^ 24 : Int) < c.start k) else decide (c.start k ≠ 0)) ||
  (decide (c.xf = 1) && decide (entNdim c.src < 2)) || (decide (c.xf = 2) && decide (c.cnt 1 ≠ c.fields)) ||
  (decide (c.xf = 3) && decide (256 < c.cnt 0)) || decide (sideBase c.dst % c.eb ≠ 0) || ((List.range 6).any fun k => decide (c.s2 k % c.eb ≠ 0))

/-- The buffer-bounds fault of a copy: the first offset outside the partition. -/
def boundsTrap (w : List Word) (kind : Acc) (lo : Int) (size : Nat) : Trap :=
  { cause := 0x0C, detail := BitVec.ofNat 4 (bufSel w), acc := kind.code, async := false,
    tval := if lo < 0 then BitVec.ofInt 64 lo else if lo < size then BitVec.ofNat 64 size else BitVec.ofInt 64 lo }

/-- The first check that fails. -/
def copyCheck (s : State) (g : Group) (c : CopyCmd) (tid nid : Nat) : Option Trap :=
  match copyFormat c tid nid with
  | some i => some (formatTrap i)
  | none =>
    if isStackCore g.core && ((isBufTensor c.src && decide (bufSel c.src = 0)) || (isBufTensor c.dst && decide (bufSel c.dst = 0))) then some (trapOf 0x0D 0 0)
    else if copyRange c then some (trapOf 0x14 0 0)
    else
      match c.extent with
      | none => some (trapOf 0x14 0 0)
      | some e =>
        let b : Int := sideBase c.dst
        if !isBufTensor c.dst ∧ (2 ^ 57 : Int) < b + e then some (trapOf 0x14 0 0)
        else if isBufTensor c.dst ∧ (s.partSize g (bufOfSel c.dst) : Int) < b + e then some (boundsTrap c.dst .write b (s.partSize g (bufOfSel c.dst)))
        else if isBufTensor c.src then
          match c.boxes with
          | none => none
          | some bs =>
            let sp := c.srcSpan bs
            if sp.1 < 0 ∨ (s.partSize g (bufOfSel c.src) : Int) < sp.2 then some (boundsTrap c.src .read sp.1 (s.partSize g (bufOfSel c.src))) else none
        else none

/-- The read range of the interlock entry: one span over the source elements and the scale bytes read (R158, R280). -/
def copyReads (g : Group) (c : CopyCmd) : List Range :=
  match c.boxes with
  | none => []
  | some bs =>
    let sp := c.srcSpan bs
    let lo := scaleAt c.src (bs.map fun b => b.1)
    let hi := scaleAt c.src (bs.map fun b => b.2) + 1
    [{ sp := sideSpace c.src g,
       lo := if sideSaddr c.src = 0 then sp.1.toNat else Nat.min sp.1.toNat lo,
       hi := if sideSaddr c.src = 0 then sp.2.toNat else Nat.max sp.2.toNat hi }]
/-- The destination span. -/
def copyWrites (g : Group) (c : CopyCmd) : List Range :=
  [{ sp := sideSpace c.dst g, lo := sideBase c.dst, hi := ((sideBase c.dst : Int) + c.extent.getD 0).toNat }]

/-! ## Issue (R274, R281) -/

def Channel.empty : Channel := { opened := [], closed := [], halt := none, held := none }
def Strand.chan (t : Strand) (q : Nat) : Channel := t.chans.getD q Channel.empty
def Strand.modChan (t : Strand) (q : Nat) (f : Channel → Channel) : Strand := { t with chans := modAt t.chans q f }

/-- A command joins the open batch; the eighth closes it. -/
def Channel.add (ch : Channel) (c : CopyCmd) (cqb : Word) : Channel :=
  let ch1 := { ch with opened := ch.opened ++ [c] }
  if 8 ≤ ch1.opened.length then ch1.close cqb else ch1

/-- COPY in each of its forms. -/
def copyE (xf : Nat) (tid nid : BitVec 6) (q : BitVec 2) (n : BitVec 3) (arg : Nat) (uid k : Nat) (g : Group) (t : Strand) (s : State) : Eff State :=
  if !mdOk t.md then .trap s (modeTrap t 5)
  else withBound g tid.toNat s fun src => withBound g nid.toNat s fun dst =>
    let c : CopyCmd := { id := s.fresh, src := src, dst := dst, nest := t.nest n.toNat, round := BitVec.ofNat 3 (mdRound t.md), xf := xf, arg := arg,
                         idx := if xf = 3 then t.v.getD arg 0 else 0, pos := 0, codes := [], flags := 0, failed := false }
    match copyCheck s g c tid.toNat nid.toNat with
    | some tr => .trap s tr
    | none =>
      .done ((({ s with fresh := s.fresh + 1 }).pushLock s.fresh uid k (copyReads g c) (copyWrites g c)).modStrand uid k fun t =>
        { t.modChan q.toNat (fun ch => ch.add c (wordAt g.cqb q.toNat)) with ke := modAt t.ke q.toNat fun e => e + 1 })

/-- COPY. -/
def execCopy (t n : BitVec 6) (q : BitVec 2) (g : BitVec 3) (st : State) : Res := runM (copyE 0 t n q g 0) st
/-- COPY.tr. -/
def execCopyTr (t n : BitVec 6) (q : BitVec 2) (g : BitVec 3) (st : State) : Res := runM (copyE 1 t n q g 0) st
/-- COPY.di. -/
def execCopyDi (t n : BitVec 6) (q : BitVec 2) (g : BitVec 3) (f : BitVec 3) (st : State) : Res := runM (copyE 2 t n q g f.toNat) st
/-- COPY.pm. -/
def execCopyPm (t n : BitVec 6) (q : BitVec 2) (g : BitVec 3) (v : BitVec 6) (st : State) : Res := runM (copyE 3 t n q g v.toNat) st
/-- COPY.cv. -/
def execCopyCv (t n : BitVec 6) (q : BitVec 2) (g : BitVec 3) (c : BitVec 5) (st : State) : Res := runM (copyE 4 t n q g c.toNat) st

/-- CLOSE: a halted channel starts again; an open batch closes. -/
def execClose (q : BitVec 2) (st : State) : Res :=
  runM (fun uid k g _ s => .done (s.modStrand uid k fun t =>
    t.modChan q.toNat fun ch => { ch.close (wordAt g.cqb q.toNat) with halt := none })) st

/-! ## A nest batch (R282, R284, R285) -/

/-- What a batch reads or writes in memory: address, bytes, kind, tier and prio of its tensor. -/
structure Touch where
  va : Nat
  n : Nat
  kind : Acc
  w : List Word
  pos : Nat
  deriving DecidableEq, Repr

/-- The source bytes of an iteration. -/
def srcTouch (c : CopyCmd) (p : Nat) : List Touch :=
  match c.coords p with
  | none => []
  | some x =>
    if isBufTensor c.src then []
    else
      let e := elemAt c.src x
      { va := e.lo.toNat, n := e.n, kind := .read, w := c.src, pos := p } ::
        (if sideSaddr c.src = 0 then [] else [{ va := scaleAt c.src x, n := 1, kind := .read, w := c.src, pos := p }])

/-- Everything that iteration `p` touches. -/
def iterTouch (c : CopyCmd) (p : Nat) : List Touch :=
  (if c.xf = 4 ∧ c.iAt p 0 % 32 = 0 then (List.range (Nat.min 32 (c.cnt 0 - c.iAt p 0))).flatMap fun j => srcTouch c (p + j) else srcTouch c p) ++
  (if isBufTensor c.dst then [] else
    { va := c.dstAt p, n := c.eb, kind := .write, w := c.dst, pos := p } ::
      (if c.stream && c.rowEnd p then (List.range c.rowScale).map fun j => { va := c.scaleDst p j, n := 1, kind := .write, w := c.dst, pos := p } else [])) ++
  (if c.xf = 0 ∧ c.stream = true ∧ c.rowEnd p = true then (List.range c.rowScale).flatMap fun j => srcTouch c (c.blockStart p j) else [])

/-- A translated page: its number, the kind of access, and its first physical byte; `cut` marks a remote page that no link reaches. -/
structure PageAt where
  page : Nat
  kind : Acc
  pa : Nat
  cut : Bool
  deriving DecidableEq, Repr

/-- Translate for an engine: a remote page that no link reaches is marked (R412), not refused. -/
def State.engineLocate (s : State) (p : Party) (cid : Nat) (va : Nat) (kind : Acc) : Xlat × Bool × State :=
  match s.translate p cid (BitVec.ofNat 64 va) kind with
  | (.ok pa, s1) =>
    if s1.remoteIs pa s1.linkLost then (.ok pa, true, s1)
    else
      let (x, s2) := s1.remoteCheck false pa
      (x, false, s2)
  | (x, s1) => (x, false, s1)

/-- Translate one page unless it stands translated. Where `strict` holds, a read of a remote page that no link reaches faults. -/
def pageOnce (strict : Bool) (who : Party) (cid : Nat) (t : Touch) (va : Nat) (acc : Except (Touch × Nat × Xlat) (List PageAt) × State) :
    Except (Touch × Nat × Xlat) (List PageAt) × State :=
  match acc with
  | (.error e, s) => (.error e, s)
  | (.ok ps, s) =>
    if ps.any fun p => p.page == va / 4096 && p.kind == t.kind then (.ok ps, s)
    else
      match s.engineLocate who cid va t.kind with
      | (.ok pa, cut, s1) =>
        if strict && cut && t.kind != .write then (.error (t, va, .trap 0x0B 0), s1)
        else (.ok ({ page := va / 4096, kind := t.kind, pa := pa / 4096 * 4096, cut := cut } :: ps), s1)
      | (x, _, s1) => (.error (t, va, x), s1)

/-- Translate every page of a list of touches, in order, up to the first fault: the touch, the address, and what it met. -/
def pagesOf (strict : Bool) (who : Party) (cid : Nat) (ts : List Touch) (s : State) : Except (Touch × Nat × Xlat) (List PageAt) × State :=
  ts.foldl (fun acc t =>
    let acc1 := pageOnce strict who cid t t.va acc
    if t.va / 4096 = (t.va + t.n - 1) / 4096 then acc1 else pageOnce strict who cid t ((t.va + t.n - 1) / 4096 * 4096) acc1) (.ok [], s)

/-- The physical address of a virtual byte whose page is translated. -/
def paOf (ps : List PageAt) (kind : Acc) (va : Nat) : Nat :=
  match ps.find? fun p => p.page == va / 4096 && p.kind == kind with
  | some p => p.pa + va % 4096
  | none => 0

/-- Bytes of a side of a copy. -/
def sideRead (g : Group) (w : List Word) (ps : List PageAt) (lo n : Nat) (s : State) : List Byte × State :=
  if isBufTensor w then (g.bufRead (bufOfSel w) lo n, s)
  else
    let head := Nat.min n (4096 - lo % 4096)
    let (a, s1) := (s.countUnsealed g.cid (.phys (paOf ps .read lo))).readPlace g (entVer w) false (.phys (paOf ps .read lo)) head
    if head = n then (a, s1)
    else
      let (b, s2) := (s1.countUnsealed g.cid (.phys (paOf ps .read (lo + head)))).readPlace g (entVer w) false (.phys (paOf ps .read (lo + head))) (n - head)
      (a ++ b, s2)

/-- A source element: its code, its value times 2^s, and the flag of its reading (R276, R277). -/
structure SrcElem where
  code : Nat
  val : Val
  flag : BitVec 6
  scale : Byte
  deriving DecidableEq, Repr

/-- The zero code. -/
def SrcElem.zero : SrcElem := { code := 0, val := .zero, flag := 0, scale := 0x7F }

/-- The source element of iteration `p`. A signalling NaN code of a NaN block is read as a quiet one (DESIGN CHOICE, notes/assumptions/120.md). -/
def readElem (g : Group) (c : CopyCmd) (ps : List PageAt) (p : Nat) (s : State) : SrcElem × State :=
  match c.coords p with
  | none => (SrcElem.zero, s)
  | some x =>
    let e := elemAt c.src x
    let (bs, s1) := sideRead g c.src ps e.lo.toNat e.n s
    let code := leNat bs / 2 ^ e.shift % 2 ^ e.width
    let v := decodeVal (entFmt c.src) code
    let f := readFlag (entFmt c.src) code
    if sideSaddr c.src = 0 then ({ code := code, val := v.scale (entSbase c.src).toInt, flag := f, scale := 0x7F }, s1)
    else
      let (sb, s2) := sideRead g c.src ps (scaleAt c.src x) 1 s1
      let b := sb.headD 0
      ({ code := code, val := if b = 0xFF then .nan false else v.scale (blockExp b.toNat (entSbase c.src)), flag := f, scale := b }, s2)

/-- The source elements of `n` iterations. -/
def readElems (g : Group) (c : CopyCmd) (ps : List PageAt) : Nat → Nat → State → List SrcElem × State
  | 0, _, s => ([], s)
  | n + 1, p, s =>
    let (e, s1) := readElem g c ps p s
    let (es, s2) := readElems g c ps n (p + 1) s1
    (e :: es, s2)

/-- A value into an integer destination of a copy (R277): it saturates with SAT, never with NV for a number. -/
def copyToInt (rm ty : Nat) (v : Val) (u : Nat) : Nat × BitVec 6 :=
  match v with
  | .nan _ => (0, fNV)
  | .inf s => (intWrap (tyWidth ty) (if s then tyMin ty else tyMax ty), fSAT)
  | .fin s n e =>
    let (k, nx) := roundAt rm s n e 0 u
    let z : Int := if s then -(k : Int) else k
    let r := fitInt true ty z { flags := if nx then fNX else 0, gens := [] }
    (r.1, r.2.flags)

/-- Transform(x) with the draw `u` (R277, R278). -/
def copyCode (c : CopyCmd) (codes : List Byte) (i0 : Nat) (x : SrcElem) (u : Nat) : Nat × BitVec 6 :=
  let fn := entFmt c.dst
  let rm := c.round.toNat
  if c.xf = 4 then
    let e := (codes.getD (i0 / 32) 0xFF).toNat
    let r := if e = 0xFF then nanBlockCode fn else quantise rm fn (x.val.scale (-(blockExp e (entSbase c.dst)))) u
    (r.1, r.2 ||| x.flag)
  else if entFmt c.src = fn then (x.code, 0)
  else
    let v := x.val.scale (-(entSbase c.dst).toInt)
    let r := if fn < 8 then copyToInt rm fn v u else quantise rm fn v u
    (r.1, r.2 ||| x.flag)

/-- The scale byte that a plain copy writes for a source block. -/
def copyScale (c : CopyCmd) (inRange : Bool) (e : Byte) : Byte × BitVec 6 :=
  if !inRange then (0x7F, 0)
  else if e = 0xFF then (0xFF, 0)
  else
    let z : Int := (e.toNat : Int) + (entSbase c.src).toInt
    if z < 0 then (0, fSAT) else if 254 < z then (254, fSAT) else (BitVec.ofInt 8 z, 0)

/-- What a batch accumulates: flags, generators, codes of the row, and the bytes to write, the last first. -/
structure BatchAcc where
  l : Lanes
  codes : List Byte
  out : List (Nat × List Byte)
  s : State
  deriving DecidableEq, Repr

/-- The scale bytes at the end of a row. -/
def rowScales (g : Group) (c : CopyCmd) (ps : List PageAt) (p : Nat) (a : BatchAcc) : BatchAcc :=
  (List.range c.rowScale).foldl (fun a j =>
    if c.xf = 4 then { a with out := (c.scaleDst p j, [a.codes.getD j 0xFF]) :: a.out }
    else
      let q := c.blockStart p j
      let (x, s1) := readElem g c ps q a.s
      let (b, f) := copyScale c (c.coords q).isSome x.scale
      { a with l := a.l.raise f, out := (c.scaleDst p j, [b]) :: a.out, s := s1 }) a

/-- One iteration. -/
def copyIter (g : Group) (c : CopyCmd) (ps : List PageAt) (q p : Nat) (a : BatchAcc) : BatchAcc :=
  let i0 := c.iAt p 0
  let codes0 := if i0 = 0 then [] else a.codes
  let (codes, s1) :=
    if c.xf = 4 ∧ i0 % 32 = 0 then
      let (es, s1) := readElems g c ps (Nat.min 32 (c.cnt 0 - i0)) p a.s
      let vals := es.map (fun e => e.val) ++ List.replicate (32 - es.length) Val.zero
      (codes0 ++ [BitVec.ofNat 8 (quantSearch (entFmt c.dst) (entSbase c.dst) vals)], s1)
    else (codes0, a.s)
  let (x, s2) := readElem g c ps p s1
  let (u, l1) := a.l.drawIf c.round.toNat (32 + q)
  let (code, f) := copyCode c codes i0 x u
  let a1 : BatchAcc := { l := l1.raise f, codes := codes, out := (c.dstAt p, leBytes c.eb code) :: a.out, s := s2 }
  if c.stream && c.rowEnd p then rowScales g c ps p a1 else a1

/-- The iterations of a batch. -/
def copyIters (g : Group) (c : CopyCmd) (ps : List PageAt) (q : Nat) : Nat → Nat → BatchAcc → BatchAcc
  | 0, _, a => a
  | n + 1, p, a => copyIters g c ps q n (p + 1) (copyIter g c ps q p a)

/-- Write the bytes of a batch, in ascending address. A write to a module that no link reaches is dropped; the bytes of a batch whose source is lost
are written or kept sector by sector, as the free values of the number `n` have it (R412). -/
def writeOut (g : Group) (w : List Word) (ps : List PageAt) (lost : Bool) (n : Nat) (s : State) : List (Nat × List Byte) → State
  | [] => s
  | (a, bs) :: r =>
    let s1 :=
      if lost && Config.freeBool (n + a / 32) then s
      else if isBufTensor w then s.modGroup g.uid fun g => g.bufWrite (bufOfSel w) a bs
      else s.writeHome (s.keyOf g.cid) (entVer w) (paOf ps .write a) bs
    writeOut g w ps lost n s1 r

/-- The command of a channel that runs: the first of the first closed batch. -/
def Channel.running (ch : Channel) : Option CopyCmd := match ch.closed with
  | b :: _ => b.cmds.head?
  | [] => none
/-- Change the running command. -/
def Channel.setRunning (ch : Channel) (c : CopyCmd) : Channel := match ch.closed with
  | b :: r => { ch with closed := { b with cmds := c :: b.cmds.tail } :: r }
  | [] => ch

/-- The channel halts (R285). -/
def haltChan (uid k q : Nat) (h : CopyHalt) (s : State) : State :=
  s.modStrand uid k fun t => t.modChan q fun ch => { ch with halt := some h }

/-- What a batch does when a page of it faults (R284, R285). -/
def copyFault (uid k q : Nat) (g : Group) (t : Touch) (va : Nat) (x : Xlat) (s : State) : State :=
  let h : CopyHalt := { va := BitVec.ofNat 64 va, cause := 0x0B, detail := 0, acc := t.kind.code, pos := t.pos, taken := false }
  match x with
  | .trap c d => haltChan uid k q { h with cause := c, detail := d } s
  | .served code =>
    (s.modStrand uid k fun t => t.modChan q fun ch => { ch with held := some h }).pendFault (dieOf g.core) g.cid (BitVec.ofNat 64 va) code t.kind.code
      (entHint t.w) (.chan uid k q)
  | _ => s

/-- Run the next `n` iterations of a command whose pages are translated, as one batch. What goes to a module that no link reaches is abandoned, and the
command goes on to its end (R412). -/
def runBatch (uid k q n : Nat) (g : Group) (c : CopyCmd) (gens : List (BitVec 32)) (ps : List PageAt) (s : State) : State :=
  let a := copyIters g c ps q n c.pos { l := { flags := c.flags, gens := gens }, codes := c.codes, out := [], s := s }
  let lost := ps.any fun p => p.cut
  let s1 := (writeOut g c.dst ps (ps.any fun p => p.cut && p.kind == .read) a.s.fresh a.s a.out.reverse).tick
  let c1 := { c with pos := c.pos + n, codes := a.codes, flags := a.l.flags, failed := c.failed || lost }
  (if lost then s1.markLost c.id else s1).modStrand uid k fun t => { t.modChan q (fun ch => ch.setRunning c1) with gens := a.l.gens }

/-- The batch may end before iteration `p`: no sector of memory takes bytes from both sides, so that each is written whole (R156). -/
def CopyCmd.cutAt (c : CopyCmd) (p : Nat) : Bool :=
  isBufTensor c.dst || decide (((if c.stream && c.rowEnd (p - 1) then c.scaleDst (p - 1) (c.rowScale - 1) else c.dstAt (p - 1) + c.eb - 1)) / 32 < c.dstAt p / 32)

/-- The length of the next batch: the longest of at most 1,024 iterations that may end there (R282, notes/assumptions/100.md). Where none of them may,
as in a copy whose rows each end inside a sector, R282 and R156 conflict, and a batch of 1,024 writes that sector in two parts (DESIGN CHOICE,
notes/assumptions/114.md). -/
def CopyCmd.batchLen (c : CopyCmd) : Nat :=
  if c.total - c.pos ≤ 1024 then c.total - c.pos
  else (((List.range 1024).reverse.map fun i => i + 1).find? fun n => c.cutAt (c.pos + n)).getD 1024

/-- A channel has a batch to run: its command may begin or go on (R159, R282). -/
def State.chanReady (s : State) (uid k : Nat) (g : Group) (t : Strand) (q : Nat) : Bool :=
  let ch := t.chan q
  match ch.running with
  | some c => ch.halt.isNone && ch.held.isNone && decide (c.pos < c.total) && s.longReady c.id uid k (copyReads g c) (copyWrites g c)
  | none => false

/-- It is the channel's turn: none of those after the last one and before it has a batch to run (R282). -/
def State.chanTurn (s : State) (uid k : Nat) (g : Group) (t : Strand) (q : Nat) : Bool :=
  s.chanReady uid k g t q &&
  !((List.range 4).any fun j => decide ((j + 3 - t.lastChan) % 4 < (q + 3 - t.lastChan) % 4) && s.chanReady uid k g t j)

/-- The next `n` iterations of a command go to a module that no link reaches, and what they would read cannot be had: they are abandoned, and no
copy-fault trap is taken (R412). -/
def abandonBatch (uid k q n : Nat) (c : CopyCmd) (s : State) : State :=
  (s.markLost c.id).modStrand uid k fun t => t.modChan q fun ch => ch.setRunning { c with pos := c.pos + n, failed := true }
/-- The destination of a touch's iteration is such a module. -/
def dstLost (g : Group) (c : CopyCmd) (t : Touch) (s : State) : Bool :=
  !isBufTensor c.dst && decide (t.kind = .read) && s.pageLost g.cid (c.dstAt t.pos)

/-- The lines that a batch touches, each with its entry and whether it is written. -/
def touchLines (ps : List PageAt) (ts : List Touch) : List (Nat × List Word × Bool) :=
  (ts.map fun t => (paOf ps t.kind t.va / 128, t.w, decide (t.kind = .write))).eraseDups
/-- They pass the caches of the core (R141, R142). -/
def State.cacheBatch (s : State) (g : Group) (ls : List (Nat × List Word × Bool)) : State :=
  ls.foldl (fun s (l, w, wr) => s.cacheSpan (if wr then .store g.core 2 else .load g.core 1 2) g.cid (entVer w) (128 * l) 1) s

/-- NEST_BATCH: the next nest batch of a channel whose turn it is. A batch that cannot go on for now passes its turn. -/
def execNestBatch (uid : Nat) (kk : BitVec 3) (qq : BitVec 2) (s : State) : Res :=
  let k := kk.toNat
  let q := qq.toNat
  match s.group? uid, s.strand? uid k with
  | some g, some t =>
    match (t.chan q).running with
    | some c =>
      if (g.stage = .resident ∨ s.mustGoOn g = true) ∧ s.chanTurn uid k g t q = true then
        let n := c.batchLen
        let ts := (List.range n).flatMap fun i => iterTouch c (c.pos + i)
        let turn (s : State) : State := s.modStrand uid k fun t => { t with lastChan := q }
        let done (s : State) : Res := .next (turn (s.dropAsk (.chan uid k q)))
        match pagesOf false (.core g.core) g.cid ts s with
        | (.error (t, va, x), s1) => done (if dstLost g c t s1 && x.traps then abandonBatch uid k q n c s1 else copyFault uid k q g t va x s1)
        | (.ok ps, s1) =>
          if ts.any fun t => s.placeWaits (paOf ps t.kind t.va) 1 || s.placeWaits (paOf ps t.kind (t.va + t.n - 1)) 1 then
            .next (turn ((ps.map fun p => p.pa).foldl (fun s pa => s.askGap (.chan uid k q) pa) s))
          else
            match ts.find? fun t => t.kind == .read && s1.badPlace (.phys (paOf ps .read t.va)) t.n with
            | some t => done (if dstLost g c t s1 then abandonBatch uid k q n c s1 else haltChan uid k q { va := BitVec.ofNat 64 t.va, cause := 0x0B, detail := 0, acc := 2, pos := t.pos, taken := false } s1)
            | none => done ((runBatch uid k q n g c t.gens ps s1).cacheBatch g (touchLines ps ts))
      else .next s
    | none => .next s
  | _, _ => .next s

/-- COPY_COMPLETE: KEk falls, the entry is released, flags reach ST; the last command of a batch makes the batch's arrival (R283). -/
def execCopyComplete (uid : Nat) (kk : BitVec 3) (qq : BitVec 2) (s : State) : Res :=
  let k := kk.toNat
  let q := qq.toNat
  match s.strand? uid k with
  | some t =>
    match (t.chan q).closed with
    | b :: rest =>
      match b.cmds with
      | c :: cs =>
        if c.total ≤ c.pos then
          let failed := b.failed || c.failed
          let s1 := ((if c.failed then s.markLost c.id else s).dropLock c.id).modStrand uid k fun t =>
            ((t.modChan q fun ch => { ch with closed := if cs.isEmpty then rest else { b with cmds := cs, failed := failed } :: rest }).flag c.flags).fallE q
          .next (if cs.isEmpty && b.cqb.getLsbD 15 then s1.engineArrive uid (natBits b.cqb.toNat 9 0) failed else s1)
        else .next s
      | [] => .next s
    | [] => .next s
  | none => .next s

/-- BATCH_CLOSE_TIMEOUT: 512 cycles after the first command of an open batch. -/
def execBatchCloseTimeout (uid : Nat) (kk : BitVec 3) (qq : BitVec 2) (s : State) : Res :=
  match s.group? uid with
  | some g => if g.stage = .resident ∨ g.stage = .stopping then .next (s.modStrand uid kk.toNat fun t => t.modChan qq.toNat fun ch => ch.close (wordAt g.cqb qq.toNat)) else .next s
  | none => .next s

/-! ## The copy-fault trap (R285, R333) -/

/-- The strand stands at an instruction boundary at which an asynchronous trap can be taken: a WAIT, DRAIN or BWAIT in progress is at one (R104, R256). -/
def Strand.boundary (t : Strand) : Bool :=
  match t.status with
  | .ready => true
  | .ended => true
  | .waiting (.counters _ _) => true
  | .waiting (.barrier _ _ _ _ _ none) => true
  | .waiting (.superstep _ _ _ _ none) => true
  | _ => false

/-- The lowest channel with a copy fault that has not been taken. -/
def Strand.copyPending (t : Strand) : Option (Nat × CopyHalt) :=
  (List.range 4).findSome? fun q => match (t.chan q).halt with
    | some h => if h.taken then none else some (q, h)
    | none => none

/-- COPY_FAULT_TRAP, at a boundary with H = 0; a strand that has ended meets it as a fatal trap. -/
def execCopyFaultTrap (uid : Nat) (kk : BitVec 3) (s : State) : Res :=
  let k := kk.toNat
  match s.group? uid, s.strand? uid k with
  | some g, some t =>
    match t.copyPending with
    | some (q, h) =>
      if g.stage = .resident ∧ t.boundary = true ∧ t.h = false then
        let tr : Trap := { cause := 0x17, detail := BitVec.ofNat 4 q, acc := 0, async := true, tval := h.va }
        let s1 := s.modStrand uid k fun t => t.modChan q fun ch => { ch with halt := some { h with taken := true } }
        .next (if t.status = .ended then s1.fatalTrap uid k tr else s1.takeTrap uid k tr t.pc)
      else .next s
    | none => .next s
  | _, _ => .next s

end Sys2Proof.Machine
end

