-- ==== Sys2Proof/Machine/Matrix.lean ====
section
/-!
DEFINITION. The matrix unit (spec/16_matrix.md R258 to R270, R181): tile shapes, MMA, the accumulator instructions, CCVT, and the
unit's queue.
-/
namespace Sys2Proof.Machine

open Sys2Proof

/-- Bytes of an accumulator tile (R258). -/
def tileBytes : Nat := 196608
/-- Tile `k` exists in the group's C partition. -/
def State.hasTile (s : State) (g : Group) (k : Nat) : Bool := decide (k < s.partSize g .c / tileBytes)

/-! ## TSHAPE (R259) -/

/-- eb of a kind. -/
def kindEb (kind : Nat) : Nat := if kind = 1 then 2 else 1
/-- The chunk of a kind (R181, R259). -/
def kindChunk (kind : Nat) : Nat := if kind = 1 then 16 else 32
/-- The row bytes of an operand (R258). -/
def rowBytes (k eb : Nat) (sc : Bool) : Nat := k * eb + (if sc then (k + 31) / 32 else 0)
/-- The pitch: row bytes rounded up to a multiple of 32. -/
def pitchOf (k eb : Nat) (sc : Bool) : Nat := (rowBytes k eb sc + 31) / 32 * 32

/-- The largest number up to `top` that satisfies a test which holds of every smaller one: its bits, the highest first. -/
def largestBelow (top : Nat) (ok : Nat → Bool) : Nat → Nat → Nat
  | 0, lo => lo
  | i + 1, lo => largestBelow top ok i (if lo + 2 ^ i ≤ top ∧ ok (lo + 2 ^ i) = true then lo + 2 ^ i else lo)

/-- The grant for a request. -/
def tileGrant (stack : Bool) (aneed wneed cneed : Nat) (xa : Word) : Word :=
  let n := xa.toNat
  let m := natBits n 15 0
  let nn := natBits n 31 16
  let k := natBits n 47 32
  let kind := natBits n 49 48
  let sc := natBit n 50
  if stack || decide (kind = 3) || (sc && decide (kind = 1)) || decide (natBits n 63 51 ≠ 0) || decide (m = 0) || decide (nn = 0) || decide (k = 0) then 0
  else
    let mg := Nat.min m 192
    let ng := Nat.min nn 256
    let eb := kindEb kind
    let kf0 := largestBelow 16384 (fun q => decide (mg * pitchOf q eb sc ≤ 4096 * aneed) && decide (ng * pitchOf q eb sc ≤ 4096 * wneed)) 15 0
    let kf := if kindChunk kind ≤ kf0 then kindChunk kind * (kf0 / kindChunk kind) else kf0
    let kg := Nat.min k kf
    if kg = 0 then 0 else BitVec.ofNat 64 (mg + 2 ^ 9 * ng + 2 ^ 18 * kg + 2 ^ 34 * pitchOf kg eb sc + 2 ^ 50 * (cneed / 48))

/-- TSHAPE. -/
def execTshape (d a : BitVec 6) (st : State) : Res :=
  runM (fun uid k g t s =>
    let x := tileGrant (isStackCore g.core) (s.partSize g .a / 4096) (s.partSize g .w / 4096) (s.partSize g .c / 4096) (t.x a)
    .done (s.modStrand uid k fun t => t.setX d x)) st

/-! ## The operands of MMA (R260, R261) -/


def MatOp.n0 (o : MatOp) (i : Nat) : Nat := nestCnt o.nest i + 1
def MatOp.kind (o : MatOp) : Nat := natBits o.f.toNat 9 8
def MatOp.tile (o : MatOp) : Nat := natBits o.f.toNat 7 6
def MatOp.acc (o : MatOp) : Bool := o.f.getLsbD 0
/-- The element type of the A operand and of the B operand. -/
def MatOp.tyA (o : MatOp) : Nat := if o.kind = 0 then (if o.f.getLsbD 2 then 13 else 12) else if o.kind = 1 then 9 else 14
def MatOp.tyB (o : MatOp) : Nat := if o.kind = 0 then (if o.f.getLsbD 1 then 13 else 12) else if o.kind = 1 then 9 else 14
def MatOp.aoff (o : MatOp) : Nat := natBits o.xd.toNat 19 0
def MatOp.boff (o : MatOp) : Nat := natBits o.xd.toNat 40 20
def MatOp.rows (o : MatOp) : Nat := natBits o.xd.toNat 48 41 + 1
def MatOp.cols (o : MatOp) : Nat := natBits o.xd.toNat 56 49 + 1
def MatOp.kLen (o : MatOp) : Nat := natBits o.xa.toNat 15 0
def MatOp.pa (o : MatOp) : Nat := natBits o.xa.toNat 31 16
def MatOp.pb (o : MatOp) : Nat := natBits o.xa.toNat 47 32
def MatOp.sca (o : MatOp) : Bool := natBit o.xa.toNat 48
def MatOp.scb (o : MatOp) : Bool := natBit o.xa.toNat 49
def MatOp.eb (o : MatOp) : Nat := kindEb o.kind
def MatOp.rowA (o : MatOp) : Nat := rowBytes o.kLen o.eb o.sca
def MatOp.rowB (o : MatOp) : Nat := rowBytes o.kLen o.eb o.scb
/-- The lowest and the highest offset that stride `s` of levels 0 to 2 adds. -/
def MatOp.swing (o : MatOp) (s : Nat) : Int × Int :=
  (List.range 3).foldl (fun (p : Int × Int) k =>
    let x := ((o.n0 k : Int) - 1) * nestStr o.nest k s
    if x < 0 then (p.1 + x, p.2) else (p.1, p.2 + x)) (0, 0)
/-- The offset that an iteration adds. -/
def MatOp.offAt (o : MatOp) (s p : Nat) : Int :=
  ((p % o.n0 0 : Nat) : Int) * nestStr o.nest 0 s + ((p / o.n0 0 % o.n0 1 : Nat) : Int) * nestStr o.nest 1 s +
    ((p / o.n0 0 / o.n0 1 : Nat) : Int) * nestStr o.nest 2 s
def MatOp.iters (o : MatOp) : Nat := o.n0 0 * o.n0 1 * o.n0 2
/-- The spans of the panels and of the C region: lowest byte, and one past the highest. -/
def MatOp.spanA (o : MatOp) : Int × Int := ((o.swing 1).1 + o.aoff, (o.swing 1).2 + o.aoff + ((o.rows - 1) * o.pa + o.rowA : Nat))
def MatOp.spanB (o : MatOp) : Int × Int := ((o.swing 2).1 + o.boff, (o.swing 2).2 + o.boff + ((o.cols - 1) * o.pb + o.rowB : Nat))
def MatOp.spanC (o : MatOp) : Int × Int :=
  ((o.swing 3).1 + (tileBytes * o.tile : Nat), (o.swing 3).2 + (tileBytes * o.tile + 1024 * (o.rows - 1) + 4 * o.cols : Nat))

/-- The matrix-operand trap. -/
def matTrap : Trap := trapOf 0x12 0 0
/-- A buffer-bounds fault: the buffer, the kind, the offset. -/
def bufTrap (b : Buf) (kind : Acc) (off : Int) : Trap := { cause := 0x0C, detail := b.code, acc := kind.code, async := false, tval := BitVec.ofInt 64 off }
/-- The bounds check of a span within `lo` to `hi`: the lowest byte that lies outside. -/
def spanTrap (b : Buf) (kind : Acc) (sp : Int × Int) (lo hi : Int) : Option Trap :=
  if sp.1 < lo then some (bufTrap b kind sp.1) else if hi < sp.2 then some (bufTrap b kind (if sp.1 < hi then hi else sp.1)) else none

/-- The first check of MMA that fails. -/
def mmaCheck (s : State) (g : Group) (o : MatOp) : Option Trap :=
  if isStackCore g.core then some (trapOf 0x0D 0 0)
  else if natBits o.xd.toNat 63 57 ≠ 0 ∨ natBits o.xa.toNat 63 50 ≠ 0 ∨ 192 < o.rows ∨ o.kLen = 0 ∨ 16384 < o.kLen ∨
      (o.kind = 1 ∧ (o.sca = true ∨ o.scb = true)) ∨ o.aoff % 32 ≠ 0 ∨ o.boff % 32 ≠ 0 ∨ o.pa % 32 ≠ 0 ∨ o.pb % 32 ≠ 0 ∨
      o.pa < o.rowA ∨ o.pb < o.rowB ∨ o.n0 3 ≠ 1 ∨ o.n0 4 ≠ 1 ∨ o.n0 5 ≠ 1 then some matTrap
  else if s.hasTile g o.tile = false then some (bufTrap .c .write o.spanC.1)
  else
    match spanTrap .a .read o.spanA 0 (s.partSize g .a) with
    | some t => some t
    | none =>
      match spanTrap .w .read o.spanB 0 (s.partSize g .w) with
      | some t => some t
      | none => spanTrap .c .write o.spanC (tileBytes * o.tile : Nat) (tileBytes * (o.tile + 1) : Nat)

def bufRange (uid : Nat) (b : Buf) (sp : Int × Int) : Range := { sp := .buf uid b, lo := sp.1.toNat, hi := sp.2.toNat }

/-- Queue a matrix operation and take its entry (R263). -/
def State.pushMat (s : State) (o : MatOp) (rd wr : List Range) : State :=
  ({ s with fresh := s.fresh + 1, mats := s.mats ++ [o] }).pushLock o.id o.guid o.strand rd wr

/-- MMA. -/
def mmaE (d a : BitVec 6) (f : BitVec 10) (n : BitVec 3) (uid k : Nat) (g : Group) (t : Strand) (s : State) : Eff State :=
  if !mdOk t.md then .trap s (modeTrap t 5)
  else
    let o : MatOp := { id := s.fresh, guid := uid, strand := k, ccvt := false, xd := t.x d, xa := t.x a, d := d, f := f, nest := t.nest n.toNat,
                       md := t.md, started := false, panels := [], gens := [], pos := 0, chunk := 0, flags := 0, count := 0 }
    match mmaCheck s g o with
    | some tr => .trap s tr
    | none =>
      .done (s.pushMat o (bufRange uid .a o.spanA :: bufRange uid .w o.spanB :: (if o.acc then [bufRange uid .c o.spanC] else [])) [bufRange uid .c o.spanC])
def execMma (d a : BitVec 6) (k t : BitVec 2) (n : BitVec 3) (e f c : BitVec 1) (st : State) : Res :=
  runM (mmaE d a (k ++ t ++ n ++ e ++ f ++ c) n) st

/-! ## The accumulator instructions (R267, R268) -/

/-- The checks of CRD, CWR and CCLR. -/
def withTileRow (tile : Nat) (row : Word) (kind : Acc) (g : Group) (s : State) (f : Nat → Eff State) : Eff State :=
  let off := tileBytes * tile + 1024 * row.toNat
  if isStackCore g.core then .trap s (trapOf 0x0D 0 0)
  else if s.hasTile g tile = false ∨ 192 ≤ row.toNat then .trap s (bufTrap .c kind (off : Int))
  else f off

/-- CRD: row xA of the tile to vD. -/
def crdE (d a : BitVec 6) (tile : BitVec 2) (uid k : Nat) (g : Group) (t : Strand) (s : State) : Eff State :=
  withTileRow tile.toNat (t.x a) .read g s fun off =>
    .done ((s.pushOp uid k g.cid Way.group (.load [{ loc := .buf .c off, va := off, bytes := 1024, shift := 0, width := 8192, out := 8192, sx := false, dst := .vec d.toNat 0 8192 }] false)
      (rangesOf (.buf uid .c) 1024 [off]) [] []).modStrand uid k fun t => t.issueLoad d)
def execCrd (d a : BitVec 6) (t : BitVec 2) (st : State) : Res := runM (crdE d a t) st

/-- A store of bytes to the C partition. -/
def accStore (off : Nat) (data : List Byte) (uid k : Nat) (g : Group) (s : State) : Eff State :=
  let rs := rangesOf (.buf uid .c) data.length [off]
  .done ((s.pushOp uid k g.cid Way.group (.store [{ loc := .buf .c off, va := off, data := data, mask := List.replicate data.length 0xFF }]) rs rs []).modStrand uid k
    Strand.issueStore)

/-- CWR: vD to row xA of the tile. -/
def cwrE (d a : BitVec 6) (tile : BitVec 2) (uid k : Nat) (g : Group) (t : Strand) (s : State) : Eff State :=
  withTileRow tile.toNat (t.x a) .write g s fun off => accStore off (leBytes 1024 (t.vreg d).toNat) uid k g s
def execCwr (d a : BitVec 6) (t : BitVec 2) (st : State) : Res := runM (cwrE d a t) st

/-- CCLR: +0 to every element of the tile. -/
def cclrE (tile : BitVec 2) (uid k : Nat) (g : Group) (_ : Strand) (s : State) : Eff State :=
  withTileRow tile.toNat 0 .write g s fun off => accStore off (List.replicate tileBytes 0) uid k g s
def execCclr (t : BitVec 2) (st : State) : Res := runM (cclrE t) st

/-! ## CCVT (R269, R270) -/

def MatOp.coff (o : MatOp) : Nat := natBits o.xd.toNat 17 0
def MatOp.doff (o : MatOp) : Nat := natBits o.xa.toNat 19 0
def MatOp.pd (o : MatOp) : Nat := natBits o.xa.toNat 35 20
def MatOp.nr (o : MatOp) : Nat := natBits o.xa.toNat 43 36 + 1
def MatOp.nc (o : MatOp) : Nat := natBits o.xa.toNat 51 44 + 1
def MatOp.sc (o : MatOp) : Bool := natBit o.xa.toNat 52
def MatOp.dty (o : MatOp) : Nat := natBits o.f.toNat 4 0
def MatOp.deb (o : MatOp) : Nat := tyWidth o.dty / 8
def MatOp.rowD (o : MatOp) : Nat := rowBytes o.nc o.deb o.sc
def MatOp.srcSpan (o : MatOp) : Int × Int :=
  ((tileBytes * o.tile + o.coff : Nat), (tileBytes * o.tile + o.coff + 1024 * (o.nr - 1) + 4 * o.nc : Nat))
def MatOp.dstSpan (o : MatOp) : Int × Int := ((o.doff : Nat), (o.doff + (o.nr - 1) * o.pd + o.rowD : Nat))

/-- The first check of CCVT that fails. -/
def ccvtCheck (s : State) (g : Group) (o : MatOp) : Option Trap :=
  if isStackCore g.core then some (trapOf 0x0D 0 0)
  else if natBits o.xa.toNat 63 53 ≠ 0 ∨ 192 < o.nr ∨ o.doff % 32 ≠ 0 ∨ o.pd % 32 ≠ 0 ∨ o.coff % 4 ≠ 0 ∨ o.pd < o.rowD ∨ o.dty = 11 ∨
      (o.sc = true ∧ o.dty < 12) then some matTrap
  else if s.hasTile g o.tile = false then some (bufTrap .c .read o.srcSpan.1)
  else
    match spanTrap .c .read o.srcSpan 0 (tileBytes * (o.tile + 1) : Nat) with
    | some t => some t
    | none => spanTrap .a .write o.dstSpan 0 (s.partSize g .a)

/-- The draws that CCVT has still to make: one for each element under SR, in ascending row and column. Its place in the strand's stream of draws is that of its
issue (R174), so that later instructions of the strand draw after it. -/
def ccvtDraws (o : MatOp) (l : Lanes) : Lanes :=
  if mdRound o.md = 5 then (List.range (o.nr - o.pos)).foldl (fun l _ => (List.range o.nc).foldl (fun l c => (l.draw (c % 32)).2) l) l else l

/-- CCVT. -/
def ccvtE (d a : BitVec 6) (f : BitVec 10) (uid k : Nat) (g : Group) (t : Strand) (s : State) : Eff State :=
  if !mdOk t.md then .trap s (modeTrap t 5)
  else
    let o : MatOp := { id := s.fresh, guid := uid, strand := k, ccvt := true, xd := t.x d, xa := t.x a, d := d, f := f, nest := 0, md := t.md,
                       started := false, panels := [], gens := t.gens, pos := 0, chunk := 0, flags := 0, count := 0 }
    match ccvtCheck s g o with
    | some tr => .trap s tr
    | none => .done ((s.pushMat o [bufRange uid .c o.srcSpan] [bufRange uid .a o.dstSpan]).modStrand uid k fun t =>
        { t.mark d with gens := (ccvtDraws o { flags := 0, gens := t.gens }).gens })
def execCcvt (d a : BitVec 6) (t : BitVec 2) (y : BitVec 5) (st : State) : Res :=
  runM (ccvtE d a ((0#2 : BitVec 2) ++ t ++ (0#1 : BitVec 1) ++ y)) st

/-! ## The unit's queue (R263, R264) -/

/-- The unit may work for a group: it runs, or it stops and an ordinary access of it waits for an entry (R90). -/
def State.matRuns (s : State) (g : Group) : Bool := decide (g.stage = .resident) || s.mustGoOn g

/-- The operation at the head of a core's queue: the one that the unit works on, else the first issued whose group runs (R263). -/
def State.headMat (s : State) (core : Nat) : Option MatOp :=
  let here (p : Group → Bool) (o : MatOp) : Bool := s.groups.any fun g => g.uid == o.guid && g.core == core && decide (g.stage ≠ .saved) && p g
  match s.mats.find? fun o => o.started && here (fun _ => true) o with
  | some o => some o
  | none => s.mats.find? (here s.matRuns)

/-- The ranges that an operation reads, in the order of its captured bytes. -/
def MatOp.reads (o : MatOp) : List (Buf × Int × Int) :=
  if o.ccvt then [(.c, o.srcSpan)] else [(.a, o.spanA), (.w, o.spanB)]
/-- The bytes of those ranges now. -/
def MatOp.capture (o : MatOp) (g : Group) : List Byte := o.reads.flatMap fun (b, lo, hi) => g.bufRead b lo.toNat (hi - lo).toNat
/-- The moments at which the unit may have read its bytes, this one among them (R264). -/
def MatOp.views (o : MatOp) (g : Group) : List (List Byte) :=
  let v := o.capture g
  if o.panels.getLast? = some v then o.panels else o.panels ++ [v]

/-- MATRIX_OP_START: the head begins once R159 allows. While it is under way, the unit notes the bytes it reads as they stand (R264). -/
def execMatrixOpStart (core : BitVec 8) (s : State) : Res :=
  match s.headMat core.toNat with
  | none => .next s
  | some o =>
    match s.group? o.guid, s.locks.find? fun l => l.id == o.id with
    | some g, some l =>
      if o.started ∨ (s.matRuns g = true ∧ s.longReady o.id o.guid o.strand l.rd l.wr = true) then
        .next { s with mats := s.mats.map fun p => if p.id == o.id then { p with started := true, panels := o.views g } else p }
      else .next s
    | _, _ => .next s

/-- One byte as the unit reads it: another strand may store to it meanwhile, and each product takes one of the values it had (R264). -/
def pickByte (views : List (List Byte)) (seed i : Nat) : Byte :=
  match (views.map fun v => v.getD i 0).eraseDups with
  | [b] => b
  | bs => bs.getD (Config.freeNat (seed + i) % bs.length) 0

/-- The exact sum of the products of a chunk; +inf and -inf among them give NaN with NV, whatever their order (R181). -/
def chunkSum (ps : List Val) : Val × BitVec 6 :=
  let has (b : Bool) := ps.any fun p => p == .inf b
  let bad := has true && has false
  match ps with
  | [] => (.zero, 0)
  | p :: r => if bad then (.nan false, fNV) else (r.foldl (fun a b => (a.add 0 b).1) p, 0)

/-- One product of an MMA with its block exponents; `ra` and `rb` are the rows' first bytes in the captured panels (R181, R258). An element of a NaN block
reads as a NaN that signals nothing; the other operand may still be a signalling one (R167, R179). -/
def matProduct (o : MatOp) (byteA byteB : Nat → Byte) (ra rb k : Nat) : Val × BitVec 6 :=
  let code (byte : Nat → Byte) (r : Nat) : Nat := leNat ((List.range o.eb).map fun i => byte (r + k * o.eb + i))
  let scale (sc : Bool) (byte : Nat → Byte) (r : Nat) : Option Int :=
    if sc then (let e := byte (r + o.kLen * o.eb + k / 32); if e = 0xFF then none else some ((e.toNat : Int) - 127)) else some 0
  let sa := scale o.sca byteA ra
  let sb := scale o.scb byteB rb
  let s := sa.getD 0 + sb.getD 0
  if o.kind = 2 then (if sa.isSome && sb.isSome then (logProduct (code byteA ra) (code byteB rb)).scale s else .nan false, 0)
  else
    let val (sc : Option Int) (ty : Nat) (c : Nat) : Val := if sc.isSome then decodeVal ty c else .nan false
    let p := (val sa o.tyA (code byteA ra)).mul (val sb o.tyB (code byteB rb))
    (p.1.scale s, p.2)

/-- The chunks of one accumulator element, from its value (R181). -/
def matChunks (o : MatOp) (prod : Nat → Val × BitVec 6) : Nat → Nat → Nat × BitVec 6 → Nat × BitVec 6
  | 0, _, acc => acc
  | n + 1, c, (code, fl) =>
    let lo := c * kindChunk o.kind
    let ps := (List.range (Nat.min (kindChunk o.kind) (o.kLen - lo))).map fun j => prod (lo + j)
    let s := chunkSum (ps.map fun p => p.1)
    let x := (decodeVal 10 code).add 0 s.1
    let r := roundTo (mdSat o.md) 0 10 x.1 0
    matChunks o prod n (c + 1) (r.1, fl ||| s.2 ||| x.2 ||| r.2 ||| ps.foldl (fun f p => f ||| p.2) 0)

/-- Chunks of the reduction; a row of CCVT is one piece. -/
def MatOp.chunks (o : MatOp) : Nat := if o.ccvt then 1 else (o.kLen + kindChunk o.kind - 1) / kindChunk o.kind
/-- Iterations, or rows, of the whole operation. -/
def MatOp.units (o : MatOp) : Nat := if o.ccvt then o.nr else o.iters

/-- The chunks `o.chunk` to `upto` of the current iteration of R262 on the C partition. `fresh` names the free choices of R264, one for each product
and byte. -/
def matIter (o : MatOp) (views : List (List Byte)) (fresh upto : Nat) (g : Group) : Group × BitVec 6 :=
  let p := o.pos
  let lenA := (o.spanA.2 - o.spanA.1).toNat
  let ao := (o.offAt 1 p + o.aoff - o.spanA.1).toNat
  let bo := (o.offAt 2 p + o.boff - o.spanB.1).toNat
  let co := (o.offAt 3 p + (tileBytes * o.tile : Nat)).toNat
  (List.range o.rows).foldl (fun acc m => (List.range o.cols).foldl (fun (acc : Group × BitVec 6) n =>
    let at4 := co + 1024 * m + 4 * n
    let start := if !o.acc && decide (p % o.n0 0 = 0) && decide (o.chunk = 0) then 0 else leNat (acc.1.bufRead .c at4 4)
    let prod (k : Nat) : Val × BitVec 6 :=
      let byte (base i : Nat) : Byte := pickByte views (fresh + ((m * 2 ^ 8 + n) * 2 ^ 14 + k) * 2 ^ 23) (base + i)
      matProduct o (byte 0) (byte lenA) (ao + m * o.pa) (bo + n * o.pb) k
    let r := matChunks o prod (upto - o.chunk) o.chunk (start, 0)
    (acc.1.bufWrite .c at4 (leBytes 4 r.1), acc.2 ||| r.2)) acc) (g, 0)

/-- The code of the highest and of the lowest value of a destination (R270). -/
def topCode (ty : Nat) : Nat :=
  if ty < 8 then intWrap (tyWidth ty) (tyMax ty) else if ty = 14 then 31 else if ty = 15 then 1 else maxCode ty
def bottomCode (ty : Nat) : Nat :=
  if ty < 8 then intWrap (tyWidth ty) (tyMin ty) else if ty = 14 then 63 else if ty = 15 then 3 else 2 ^ (tyWidth ty - 1) + maxCode ty
/-- The written code is a bound and the value lay beyond it. -/
def clamped (ty code : Nat) (x : Val) : Bool :=
  (decide (code = topCode ty) && x.cmp (decodeVal ty (topCode ty)) == some .gt) ||
  (decide (code = bottomCode ty) && x.cmp (decodeVal ty (bottomCode ty)) == some .lt)

/-- What CCVT accumulates over the elements of a row. -/
structure CvtAcc where
  l : Lanes
  out : List Byte
  count : Nat
  deriving DecidableEq, Repr

/-- One element of a row; `scale` is the block code under SC. -/
def ccvtElem (o : MatOp) (codes : List Nat) (c x : Nat) (a : CvtAcc) : CvtAcc :=
  let (u, l) := a.l.drawIf (mdRound o.md) (c % 32)
  let v := decodeVal 10 x
  if o.sc then
    let e := codes.getD (c / 32) 0xFF
    let y := v.scale (-((e : Int) - 127))
    let r := if e = 0xFF then nanBlockCode o.dty else quantise (mdRound o.md) o.dty y u
    { l := l.raise r.2, out := a.out ++ leBytes o.deb r.1, count := a.count + (if e ≠ 0xFF ∧ clamped o.dty r.1 y = true then 1 else 0) }
  else
    let r := convert (mdSat o.md) (mdRound o.md) 10 o.dty x u
    { l := l.raise r.2, out := a.out ++ leBytes o.deb r.1, count := a.count + (if clamped o.dty r.1 v then 1 else 0) }

/-- One row of CCVT: the f32 codes of the row in, the bytes of the destination row out. -/
def ccvtRow (o : MatOp) (xs : List Nat) (a : CvtAcc) : CvtAcc :=
  let codes := if o.sc then (List.range ((o.nc + 31) / 32)).map fun j =>
      quantSearch o.dty 0 ((List.range 32).map fun i => if 32 * j + i < o.nc then decodeVal 10 (xs.getD (32 * j + i) 0) else .zero) else []
  let a1 := (List.range o.nc).foldl (fun a c => ccvtElem o codes c (xs.getD c 0) a) { a with out := [] }
  { a1 with out := a1.out ++ codes.map fun c => BitVec.ofNat 8 c }

/-- The operation works on, up to chunk `upto` of its current iteration or row (R262, R266, R270). -/
def MatOp.work (o : MatOp) (views : List (List Byte)) (fresh upto : Nat) (g : Group) : MatOp × Group :=
  if upto ≤ o.chunk then (o, g)
  else if o.ccvt then
    let read (i : Nat) : Nat := leNat ((List.range 4).map fun j => pickByte views fresh (i + j))
    let a := ccvtRow o ((List.range o.nc).map fun c => read (1024 * o.pos + 4 * c)) { l := { flags := o.flags, gens := o.gens }, out := [], count := o.count }
    ({ o with pos := o.pos + 1, flags := a.l.flags, gens := a.l.gens, count := a.count }, g.bufWrite .a (o.doff + o.pos * o.pd) a.out)
  else
    let r := matIter o views fresh upto g
    let o1 := { o with flags := o.flags ||| r.2 }
    (if upto < o.chunks then { o1 with chunk := upto } else { o1 with pos := o.pos + 1, chunk := 0 }, r.1)

/-- What the issuing strand gets at the retirement: the flags in ST, and the saturation count of CCVT in xD (R270). -/
def MatOp.settle (o : MatOp) (t : Strand) : Strand :=
  let t1 := t.flag o.flags
  if o.ccvt then { t1 with v := t1.v.set o.d.toNat ((t.vreg o.d).extractLsb' 64 8128 ++ BitVec.ofNat 64 o.count) } else t1

/-- MATRIX_OP_RETIRE: the operation under way ends its current iteration or row, and after the last one it retires: its entry is released, its flags
reach ST. Where its group stops or aborts, it stops at a chunk boundary, or between rows (R266). -/
def execMatrixOpRetire (core : BitVec 8) (s : State) : Res :=
  match s.headMat core.toNat with
  | none => .next s
  | some o =>
    match s.group? o.guid with
    | none => .next s
    | some g =>
      if !o.started then .next s
      else
        let go := s.matRuns g
        let upto := if go then o.chunks else o.chunk + Config.freeNat s.fresh % (o.chunks + 1 - o.chunk)
        let r := o.work (o.views g) (s.fresh + 1) upto g
        let s1 := ({ s with fresh := s.fresh + 2 ^ 54 }).modGroup o.guid fun _ => r.2
        if r.1.pos = o.units then
          .next ((({ s1 with mats := s1.mats.filter fun p => p.id != o.id }).modStrand o.guid o.strand r.1.settle).dropLock o.id)
        else
          let seen := if !go then [] else if o.ccvt then o.views g else [r.1.capture r.2]
          .next { s1 with mats := s1.mats.map fun p => if p.id == o.id then { r.1 with started := go, panels := seen } else p }

end Sys2Proof.Machine
end

