-- ==== Sys2Proof/Machine/Catalogue.lean ====
section
/-!
DEFINITION. The catalogue engine (spec/19_catalogue_engine.md R310 to R325): CATRUN and CATCHK with their checks, the start phase, the
decoding of a row, commits and completion, CATQ, and the catalogue-fault trap.
-/
namespace Sys2Proof.Machine

open Sys2Proof

/-! ## Operands (R316, R317) -/

/-- The formats of R312. -/
def catFmt (fmt : Nat) : Bool := decide (fmt = 0) || decide (fmt = 1) || decide (fmt = 8) || decide (fmt = 9) || decide (12 ≤ fmt ∧ fmt ≤ 15)
def CatOp.check (o : CatOp) : Bool := decide (o.kind = 1)
def CatOp.aoff (o : CatOp) : Nat := natBits o.xd.toNat 18 0
def CatOp.ooff (o : CatOp) : Nat := natBits o.xd.toNat 37 19
/-- The output type: f32 or bf16. -/
def CatOp.oty (o : CatOp) : Nat := if natBit o.xd.toNat 38 then 9 else 10
def CatOp.acc (o : CatOp) : Bool := natBit o.xd.toNat 39
def CatOp.row0 (o : CatOp) : Nat := natBits o.xa.toNat 23 0
def CatOp.nrow (o : CatOp) : Nat := natBits o.xa.toNat 47 24
/-- The bytes of an activation and of an output element. -/
def CatOp.z (o : CatOp) : Nat := tyWidth (mdType o.md) / 8
def CatOp.oz (o : CatOp) : Nat := tyWidth o.oty / 8
def CatOp.ext0 (o : CatOp) : Nat := entExt o.entry 0
def CatOp.actSpan (o : CatOp) : Int × Int := ((o.aoff : Nat), (o.aoff + o.z * o.ext0 : Nat))
def CatOp.outSpan (o : CatOp) : Int × Int := ((o.ooff : Nat), (o.ooff + o.oz * o.nrow : Nat))
/-- BAR and BEN of an operation that counts on KC. -/
def kcBar (xd : Word) : Nat := natBits xd.toNat 49 40
def kcBen (xd : Word) : Bool := natBit xd.toNat 50

/-- The catalogue-operand trap. -/
def catTrap : Trap := trapOf 0x16 0 0

/-- Check 4. -/
def catOperandBad (o : CatOp) : Bool :=
  decide (natBits o.xd.toNat 63 51 ≠ 0) || decide (natBits o.xa.toNat 63 48 ≠ 0) || (o.check && decide (natBits o.xd.toNat 39 0 ≠ 0)) ||
  decide (o.nrow = 0) || decide (entExt o.entry 1 < o.row0 + o.nrow) ||
  (!o.check && (decide (o.aoff % o.z ≠ 0) || decide (o.ooff % o.oz ≠ 0) ||
    (decide (o.actSpan.1 < o.outSpan.2) && decide (o.outSpan.1 < o.actSpan.2))))

/-- The barrier-allotment check of an operation that counts on KC. -/
def kcBarTrap (s : State) (g : Group) (xd : Word) : Option Trap :=
  if kcBen xd = true ∧ 16 * (s.ctx g.cid).ba.toNat ≤ kcBar xd then some (trapOf 0x10 0 (BitVec.ofNat 64 (kcBar xd))) else none

/-- The first check that fails. -/
def catCheck (s : State) (g : Group) (o : CatOp) : Option Trap :=
  if !o.check && !isStackCore g.core then some (trapOf 0x0D 0 0)
  else if !(g.entry o.tid).bound then some (stateTrap o.tid)
  else if entLayout o.entry ≠ 2 ∨ catFmt (entFmt o.entry) = false ∨ entStr o.entry 0 ≠ 0 ∨ entSaddr o.entry ≠ 0 then some (formatTrap o.tid)
  else if catOperandBad o then some catTrap
  else
    match kcBarTrap s g o.xd with
    | some t => some t
    | none =>
      if o.check then none
      else
        match spanTrap .a .read o.actSpan 0 (s.partSize g .a) with
        | some t => some t
        | none => spanTrap .a .write o.outSpan 0 (s.partSize g .a)

/-- The engine that runs an operation issued on a core: that of the base die, or of row stack 2d (R325). -/
def engineOf (entry : Nat) : Nat := if isStackCore entry then dieOf entry - 8 else 2 * dieOf entry

/-- The memory read range up to `hi`, cut at the end of the address space. -/
def catMemRange (cid base hi : Nat) : Range := { sp := .virt cid, lo := base, hi := Nat.min hi (2 ^ 57) }
/-- The ranges of the entry. -/
def CatOp.reads (o : CatOp) (hi : Nat) : List Range :=
  catMemRange o.cid (entBase o.entry) hi :: (if o.check then [] else [bufRange o.guid .a o.actSpan])
def CatOp.writes (o : CatOp) : List Range := if o.check then [] else [bufRange o.guid .a o.outSpan]

/-- Output element `i` as it stands. -/
def CatOp.element (o : CatOp) (g : Group) (i : Nat) : List Byte := g.bufRead .a (o.ooff + o.oz * i) o.oz
/-- An earlier entry or operation of the issuing strand still writes output element `i` (R159). -/
def CatOp.ownWrite (o : CatOp) (s : State) (i : Nat) : Bool :=
  let at' := [bufRange o.guid .a (((o.ooff + o.oz * i : Nat) : Int), ((o.ooff + o.oz * (i + 1) : Nat) : Int))]
  (s.locks.any fun l => decide (l.id < o.id) && l.guid == o.guid && l.strand == o.strand && anyMeet l.wr at' && s.lockLive l) ||
  (s.ops.any fun p => decide (p.id < o.id) && p.guid == o.guid && p.strand == o.strand && anyMeet p.wr at')
/-- What ACC may add to is noted: each output element as it stands now, unless the strand's own earlier writes to it are still to come. A write of another
party to an element is so read or not (R318). -/
def CatOp.noteOlds (o : CatOp) (g : Group) (s : State) : List (Nat × List Byte) :=
  if o.acc && !o.check then
    o.olds ++ ((List.range o.nrow).filter fun i => decide (o.next ≤ i) && !o.olds.contains (i, o.element g i) && !o.ownWrite s i).map fun i => (i, o.element g i)
  else o.olds

/-- CATRUN and CATCHK, kind 0 and 1. -/
def catE (kind : Nat) (d a tid : BitVec 6) (uid k : Nat) (g : Group) (t : Strand) (s : State) : Eff State :=
  let o : CatOp := { id := s.fresh, guid := uid, strand := k, cid := g.cid, kind := kind, engine := engineOf g.core, tid := tid.toNat,
                     entry := (g.entry tid.toNat).words, xd := t.x d, xa := t.x a, md := t.md, phase := .start, acts := [], dirs := [], next := 0,
                     row := none, seen := [], olds := [], code := 0, grp := 0, col := 0, flags := 0, wait := none, stopped := false, failed := false }
  if kind = 0 ∧ mdOk t.md = false then .trap s (modeTrap t 5)
  else if kind = 0 ∧ (mdType t.md < 8 ∨ 10 < mdType t.md) then .trap s (modeTrap t 2)
  else
    match catCheck s g o with
    | some tr => .trap s tr
    | none =>
      let s1 := { s with fresh := s.fresh + 1, cats := s.cats ++ [{ o with olds := o.noteOlds g s }] }
      .done ((s1.pushLock o.id uid k (o.reads (entBase o.entry + 2 ^ 40)) o.writes).modStrand uid k fun t => { t with kc := t.kc + 1 })

/-- CATRUN. -/
def execCatrun (d a t : BitVec 6) (st : State) : Res := runM (catE 0 d a t) st
/-- CATCHK. -/
def execCatchk (d a t : BitVec 6) (st : State) : Res := runM (catE 1 d a t) st
/-- CATQ: the catalogue status word; of an entry that is not bound, as it is kept: DESIGN CHOICE, notes/assumptions/101.md. -/
def execCatq (d t : BitVec 6) (st : State) : Res :=
  runM (fun uid k g _ s => .done (s.modStrand uid k fun u => u.setX d (wordAt g.catStat t.toNat))) st

/-! ## Decoding a row (R311 to R314) -/

/-- What a read of a row meets. -/
inductive CatStop where
  /-- The page of a virtual byte is not translated yet. -/
  | page (va : Nat)
  /-- A row, a bank or a link holds the physical byte: it is read later. -/
  | waits (pa : Nat)
  /-- Its sector cannot be corrected. -/
  | bad
  /-- A page faults: the read, the address, what it met. -/
  | fault (t : Touch) (va : Nat) (x : Xlat)
  deriving DecidableEq, Repr

/-- A read of virtual bytes. -/
abbrev ByteAt := Nat → Except CatStop Byte

/-- Bytes `a` to `a + n - 1`. -/
def bytesAt (rd : ByteAt) (a : Nat) : Nat → Except CatStop (List Byte)
  | 0 => .ok []
  | n + 1 =>
    match rd a with
    | .error e => .error e
    | .ok b => match bytesAt rd (a + 1) n with
      | .error e => .error e
      | .ok bs => .ok (b :: bs)

/-- Bytes of a value container. -/
def catCb (fmt : Nat) : Nat := if fmt = 1 ∨ fmt = 8 ∨ fmt = 9 then 2 else 1
/-- A reserved value code (R312). -/
def catReserved (fmt c : Nat) : Bool :=
  (decide (fmt = 14) && (decide (64 ≤ c) || decide (c = 32))) || (decide (fmt = 15) && (decide (4 ≤ c) || decide (c = 2)))
/-- Equal values for the check of duplicates. -/
def sameVal (a b : Val) : Bool := (a.isNan && b.isNan) || a.cmp b == some .eq
def dupVal : List Val → Bool
  | [] => false
  | v :: vs => (vs.any fun w => sameVal v w) || dupVal vs

/-- What the decoding of a row ends in: a code with group and column, or the value R and its flags; `hi` is one past the last byte read. -/
structure RowEnd where
  code : Nat
  grp : Nat
  col : Nat
  val : Val
  flags : BitVec 6
  hi : Nat
  deriving DecidableEq, Repr

def RowEnd.bad (code grp col hi : Nat) : RowEnd := { code := code, grp := grp, col := col, val := .zero, flags := 0, hi := hi }

/-- The columns of a decoded stream, group by group. -/
structure StreamEnd where
  code : Nat
  grp : Nat
  col : Nat
  bits : Nat
  groups : List (List Nat)
  deriving DecidableEq, Repr

/-- Payload bits and first delta of a code word by its leading ones (R313). -/
def payOf (ones : Nat) : Nat × Nat :=
  match ones with
  | 0 => (3, 1) | 1 => (6, 9) | 2 => (10, 73) | 3 => (16, 1097) | _ => (0, 0)

/-- Stream bit `p`. -/
def bitAt (rd : ByteAt) (sw p : Nat) : Except CatStop Bool := (rd (sw + p / 8)).map fun b => b.getLsbD (p % 8)

/-- The leading ones from bit `p`, at most `n`; none where they reach the end of the row. -/
def onesAt (rd : ByteAt) (sw nb p : Nat) : Nat → Except CatStop (Option Nat)
  | 0 => .ok (some 0)
  | n + 1 =>
    if nb ≤ p then .ok none
    else
      match bitAt rd sw p with
      | .error e => .error e
      | .ok false => .ok (some 0)
      | .ok true => (onesAt rd sw nb (p + 1) n).map fun r => r.map (· + 1)

/-- `n` payload bits from bit `p`, least significant first. -/
def payAt (rd : ByteAt) (sw p : Nat) : Nat → Except CatStop Nat
  | 0 => .ok 0
  | n + 1 =>
    match bitAt rd sw p with
    | .error e => .error e
    | .ok b => (payAt rd sw (p + 1) n).map fun v => b.toNat + 2 * v

/-- Decode the stream (R314): `p` is the next bit, `cur` the columns of the open group, the last first, `done` those of the closed
groups, `seen` every column of them. -/
def streamLoop (rd : ByteAt) (sw nb ext0 ngroups : Nat) : Nat → Nat → List Nat → List (List Nat) → List Nat → Except CatStop StreamEnd
  | 0, p, _, done, _ => .ok { code := 0x17, grp := done.length, col := 0, bits := p, groups := [] }
  | fuel + 1, p, cur, done, seen =>
    if done.length = ngroups then .ok { code := 0, grp := 0, col := 0, bits := p, groups := done }
    else
      let fail (code col used : Nat) : Except CatStop StreamEnd := .ok { code := code, grp := done.length, col := col, bits := Nat.min used nb, groups := [] }
      match onesAt rd sw nb p 5 with
      | .error e => .error e
      | .ok none => fail 0x17 0 nb
      | .ok (some ones) =>
        if ones = 5 then fail 0x14 0 (p + 5)
        else if ones = 4 then streamLoop rd sw nb ext0 ngroups fuel (p + 5) [] (done ++ [cur.reverse]) (cur ++ seen)
        else
          let (pay, add) := payOf ones
          if nb < p + ones + 1 + pay then fail 0x17 0 nb
          else
            match payAt rd sw (p + ones + 1) pay with
            | .error e => .error e
            | .ok v =>
              let d := v + add
              let c := match cur with
                | [] => d - 1
                | l :: _ => l + d
              if ext0 ≤ c then fail 0x16 c (p + ones + 1 + pay)
              else if seen.contains c then fail 0x15 c (p + ones + 1 + pay)
              else streamLoop rd sw nb ext0 ngroups fuel (p + ones + 1 + pay) (c :: cur) done seen

/-- An exact sum, order-free: opposite infinities give NaN with NV, a signalling NaN sets NV (R318, R181, R167). -/
def exactSum (vs : List Val) : Val × BitVec 6 :=
  let has (b : Bool) := vs.any fun v => v == .inf b
  match vs with
  | [] => (.zero, 0)
  | v :: r =>
    if has true && has false then (.nan false, fNV)
    else r.foldl (fun (a : Val × BitVec 6) w => let x := a.1.add 0 w; (x.1, a.2 ||| x.2)) (v, 0)

/-- R of R318 from the values and the columns that carry them. -/
def rowSum (x : Nat → Val) (pairs : List (Val × List Nat)) : Val × BitVec 6 :=
  let ps := pairs.map fun (v, cols) =>
    let q := exactSum (cols.map x)
    let p := v.mul q.1
    (p.1, p.2 ||| q.2)
  let r := exactSum (ps.map fun p => p.1)
  (r.1, ps.foldl (fun f p => f ||| p.2) r.2)

/-- The decoded activation of a column. -/
def CatOp.act (o : CatOp) (j : Nat) : Val := decodeVal (mdType o.md) (leNat ((o.acts.drop (o.z * j)).take o.z))

/-- R of a row from its values and columns; a check reads no activation (R325), a NaN row gives NaN. -/
def CatOp.rowVal (o : CatOp) (rscale : Nat) (pairs : List (Val × List Nat)) : Val × BitVec 6 :=
  if o.check then (.zero, 0)
  else if rscale = 0xFF then (.nan false, 0)
  else rowSum o.act (pairs.map fun (v, c) => (v.scale (blockExp rscale (entSbase o.entry)), c))

/-- The value codes of `n` containers from byte `a`. -/
def valueCodes (rd : ByteAt) (a cb n : Nat) : Except CatStop (List Nat) :=
  (bytesAt rd a (n * cb)).map fun bs => (List.range n).map fun i => leNat ((bs.drop (i * cb)).take cb)

/-- A row from its directory word, with the checks in order (R314). -/
def CatOp.decodeRow (o : CatOp) (rd : ByteAt) (dw : Nat) : Except CatStop RowEnd :=
  let fmt := entFmt o.entry
  let cb := catCb fmt
  let rlen := natBits dw 56 37
  let start := entBase o.entry + 8 * natBits dw 36 0
  if natBits dw 63 57 ≠ 0 ∨ rlen = 0 ∨ 2 ^ 57 < start + 8 * rlen then .ok (.bad 0x10 0 0 start)
  else
    match bytesAt rd start 8 with
    | .error e => .error e
    | .ok hb =>
      let h := leNat hb
      let form := natBits h 1 0
      let nv := if form = 1 then o.ext0 else natBits h 5 2 + 1
      let tw := (nv * cb + 7) / 8
      if form = 3 ∨ natBits h 7 6 ≠ 0 ∨ natBits h 63 32 ≠ 0 ∨ (form ≠ 0 ∧ (natBits h 5 2 ≠ 0 ∨ natBits h 31 16 ≠ 0)) then .ok (.bad 0x11 0 0 (start + 8))
      else if form = 2 then .ok { code := 0, grp := 0, col := 0, val := .zero, flags := 0, hi := start + 8 }
      else if rlen < 1 + tw then .ok (.bad 0x17 0 0 (start + 8))
      else
        match valueCodes rd (start + 8) cb nv with
        | .error e => .error e
        | .ok codes =>
          let vend := start + 8 + nv * cb
          let vals := codes.map fun c => decodeVal fmt c
          if codes.any fun c => catReserved fmt c then .ok (.bad 0x12 0 0 vend)
          else if form = 1 then
            let r := o.rowVal (natBits h 15 8) (vals.zip ((List.range nv).map fun j => [j]))
            .ok { code := 0, grp := 0, col := 0, val := r.1, flags := r.2, hi := vend }
          else if dupVal vals then .ok (.bad 0x13 0 0 vend)
          else
            let sw := start + 8 + 8 * tw
            let nb := 64 * (rlen - 1 - tw)
            match streamLoop rd sw nb o.ext0 nv (nb + 1) 0 [] [] [] with
            | .error e => .error e
            | .ok st =>
              let hi := sw + (st.bits + 7) / 8
              if st.code ≠ 0 then .ok (.bad st.code st.grp st.col hi)
              else if (st.groups.map List.length).foldl (· + ·) 0 ≠ natBits h 31 16 then .ok (.bad 0x17 0 0 hi)
              else
                let r := o.rowVal (natBits h 15 8) (vals.zip st.groups)
                .ok { code := 0, grp := 0, col := 0, val := r.1, flags := r.2, hi := hi }

/-! ## Reading memory for a row (R319, R320) -/

/-- The byte at a virtual address. A sector that `seen` has comes as it was read; any other is read only while nothing holds it (R160, R386, R411), and
not where it cannot be corrected (R380). A remote byte is the other module's. -/
def catByte (s : State) (cid : Nat) (ver : BitVec 32) (seen : List (Nat × List Byte)) (ps : List PageAt) : ByteAt := fun va =>
  match ps.find? fun p => p.page == va / 4096 with
  | none => .error (.page va)
  | some p =>
    let pa := p.pa + va % 4096
    match seen.find? fun x => x.1 == va / 32 with
    | some x => .ok (x.2.getD (va % 32) 0)
    | none =>
      if s.placeWaits pa 1 then .error (.waits pa)
      else if s.uncorrectable pa then .error .bad
      else .ok (if (remoteOf s pa).isSome then s.remoteByte (s.keyOf cid) ver pa else s.readByte (s.keyOf cid) ver pa)

/-- The sectors read ahead for row `r`. -/
def CatOp.ahead (o : CatOp) (r : Nat) : List (Nat × List Byte) := (o.seen.filter fun x => x.1 == r).map fun x => x.2
/-- Memory as the attempt of the next row reads it. -/
def CatOp.byteAt (o : CatOp) (s : State) (ps : List PageAt) : ByteAt := catByte s o.cid (entVer o.entry) (o.ahead o.next) ps

/-- Where the directory word of the run's row `j` stands. -/
def CatOp.dirAt (o : CatOp) (j : Nat) : Nat := entBase o.entry + 8 * (o.row0 + j)

/-- The directory word of the next row: as the start phase read it, or as it is read now. -/
def CatOp.dirWord (o : CatOp) (rd : ByteAt) : Except CatStop Word :=
  match o.dirs.getD o.next none with
  | some w => .ok w
  | none => (bytesAt rd (o.dirAt o.next) 8).map fun bs => BitVec.ofNat 64 (leNat bs)

/-- The directory word of the next row, then the row itself. -/
def CatOp.readRow (o : CatOp) (rd : ByteAt) : Except CatStop RowEnd :=
  match o.dirWord rd with
  | .ok w => o.decodeRow rd w.toNat
  | .error e => .error e

/-- A read of one byte for the engine. -/
def CatOp.touch (o : CatOp) (va : Nat) : Touch := { va := va, n := 1, kind := .read, w := o.entry, pos := 0 }

/-- Translate page by page until the row is decoded, or something stops it: how it ends, the pages, the state. -/
def CatOp.tryRow (o : CatOp) : Nat → List PageAt → State → Except CatStop RowEnd × List PageAt × State
  | 0, ps, s => (.ok (.bad 0x18 0 0 0), ps, s)
  | fuel + 1, ps, s =>
    match o.readRow (o.byteAt s ps) with
    | .error (.page va) =>
      match pageOnce true (.unit (8 + o.engine)) o.cid (o.touch va) va (.ok ps, s) with
      | (.error e, s1) => (.error (.fault e.1 e.2.1 e.2.2), ps, s1)
      | (.ok ps1, s1) => o.tryRow fuel ps1 s1
    | r => (r, ps, s)

/-- The addresses of the units of `n` bytes that the bytes `lo` to `hi - 1` of translated pages touch. -/
def unitsOf (ps : List PageAt) (n lo hi : Nat) : List Nat :=
  if hi ≤ lo then [] else (List.range ((hi - 1) / n - lo / n + 1)).map fun i => paOf ps .read (if i = 0 then lo else (lo / n + i) * n)

/-- Where the bytes of the next row lie, up to `hi`; its directory word first, where it is read with the row. -/
def CatOp.rowSpans (o : CatOp) (rd : ByteAt) (hi : Nat) : List (Nat × Nat) :=
  match o.dirWord rd with
  | .ok w => (if (o.dirs.getD o.next none).isSome then [] else [(o.dirAt o.next, o.dirAt o.next + 8)]) ++ [(entBase o.entry + 8 * natBits w.toNat 36 0, hi)]
  | .error _ => []

/-- The reads of a row pass the last-level caches; its unsealed DRAM rows are counted, each once (R142, R380). -/
def CatOp.rowTouch (o : CatOp) (s : State) (ps : List PageAt) (spans : List (Nat × Nat)) : State :=
  let lines := spans.flatMap fun x => unitsOf ps 128 x.1 x.2
  let rows := (spans.flatMap fun x => unitsOf ps 1024 x.1 x.2).eraseDups
  rows.foldl (fun s pa => s.countUnsealed o.cid (.phys pa)) (lines.foldl (fun s pa => s.cacheSpan .unit o.cid (entVer o.entry) pa 1) s)

/-! ## Events (R319, R320) -/

def State.catOp? (s : State) (i : Nat) : Option CatOp := s.cats.find? fun o => o.id == i
def State.modCat (s : State) (i : Nat) (f : CatOp → CatOp) : State := { s with cats := s.cats.map fun o => if o.id == i then f o else o }

/-- Rows of a run that are not committed yet. -/
def CatOp.left (o : CatOp) : Nat := if o.phase = .completing then 0 else o.nrow - o.next
/-- A row `j` places after the next one of a run holds a lane: the engine has 1,024, and runs take them in issue order (R322). A run whose group does
not run takes none. -/
def State.laneFree (s : State) (o : CatOp) (j : Nat) : Bool :=
  decide (((s.cats.filter fun p => p.engine == o.engine && decide (p.id < o.id) && s.groups.any fun g => g.uid == p.guid && decide (g.stage = .resident)).foldl
    (fun n p => n + p.left) 0) + j < 1024)

/-- An event of a run whose group runs, or stops while an ordinary access of it waits for an entry (R79, R90). -/
def catStep (i : Nat) (f : CatOp → Group → State → State) (s : State) : Res :=
  match s.catOp? i with
  | none => .next s
  | some o => match s.group? o.guid with
    | some g => if g.stage = .resident ∨ s.mustGoOn g = true then .next (f o g s) else .next s
    | none => .next s

/-- Read the directory word of row `j` in the start phase, if its page can be read now. -/
def CatOp.startWord (o : CatOp) (j : Nat) (acc : List (Option Word) × List PageAt × State) : List (Option Word) × List PageAt × State :=
  let va := o.dirAt j
  match pageOnce true (.unit (8 + o.engine)) o.cid (o.touch va) va (.ok acc.2.1, acc.2.2) with
  | (.error _, s1) => (acc.1 ++ [none], acc.2.1, s1)
  | (.ok ps, s1) =>
    match bytesAt (catByte s1 o.cid (entVer o.entry) [] ps) va 8 with
    | .ok bs => (acc.1 ++ [some (BitVec.ofNat 64 (leNat bs))], ps, o.rowTouch s1 ps [(va, va + 8)])
    | .error _ => (acc.1 ++ [none], ps, s1.askGap (.cat o.id) (paOf ps .read va))

/-- The last byte of the highest row that the directory words name, and one more; all that the entry may reach while one of them is not read. -/
def CatOp.rowsEnd (o : CatOp) (ds : List (Option Word)) : Nat :=
  if ds.all Option.isSome then
    ds.foldl (fun h d => match d with
      | some w => Nat.max h (entBase o.entry + 8 * (natBits w.toNat 36 0 + natBits w.toNat 56 37))
      | none => h) (entBase o.entry)
  else entBase o.entry + 2 ^ 40

/-- The run has read the directory words `ds`: its entry narrows to what they name (R319). -/
def CatOp.learn (o : CatOp) (s : State) (ds : List (Option Word)) : State :=
  ({ s with locks := s.locks.map fun (l : Lock) => if l.id == o.id then { l with rd := o.reads (o.rowsEnd ds) } else l }).modCat o.id fun o => { o with dirs := ds }

/-- A lane reads ahead: one sector of a row that holds one, if it can be read now; which one is the device's choice (R319, R322). What ACC will add to is
noted as well (R318). The page of a sector is translated when its row is decoded; here its address is only looked up. -/
def CatOp.readAhead (o : CatOp) (g : Group) (s : State) : State :=
  let j := o.next + Config.freeNat s.fresh % (o.nrow - o.next + 1)
  let note (s : State) (x : List (Nat × Nat × List Byte)) : State := { s with fresh := s.fresh + 2 }.modCat o.id fun o => { o with seen := o.seen ++ x, olds := o.noteOlds g s }
  match o.dirs.getD j none with
  | some w =>
    let lo := (entBase o.entry + 8 * natBits w.toNat 36 0) / 32
    let hi := (entBase o.entry + 8 * (natBits w.toNat 36 0 + natBits w.toNat 56 37) + 31) / 32
    let sec := lo + Config.freeNat (s.fresh + 1) % (hi - lo + 1)
    if s.laneFree o (j - o.next) = false ∨ (o.ahead j).any (fun x => x.1 == sec) = true ∨ o.wait.isSome = true then note s []
    else
      match pageOnce true (.unit (8 + o.engine)) o.cid (o.touch (32 * sec)) (32 * sec) (.ok [], s) with
      | (.error _, _) => note s []
      | (.ok ps, _) =>
        match bytesAt (catByte s o.cid (entVer o.entry) [] ps) (32 * sec) 32 with
        | .ok bs => note s [(j, sec, bs)]
        | .error _ => note s []
  | none => note s []

/-- The activation span as a reading that goes on finds it: each byte as it was read before, or as it stands now (R319). -/
def mixActs (n : Nat) : List Byte → List Byte → List Byte
  | a :: as, b :: bs => (if Config.freeBool n then a else b) :: mixActs (n + 1) as bs
  | _, bs => bs

/-- CAT_START_PHASE: the activation span is read, byte by byte, in one event or in several; with its last byte the directory words are read and the entry
narrows. Once that is done, its lanes read ahead. -/
def execCatStartPhase (i : Nat) (st : State) : Res :=
  catStep i (fun o g s =>
    if o.phase = .start ∧ s.longReady o.id o.guid o.strand (o.reads (entBase o.entry + 2 ^ 40)) o.writes = true then
      let acts := if o.check then [] else mixActs (s.fresh + 1) o.acts (g.bufRead .a o.aoff (o.z * o.ext0))
      let s0 := { s with fresh := s.fresh + 1 + acts.length }
      if o.check ∨ Config.freeBool s.fresh = true then
        let (dirs, _, s1) := (List.range o.nrow).foldl (fun acc j => o.startWord j acc) (([] : List (Option Word)), ([] : List PageAt), s0)
        (o.learn s1 dirs).modCat i fun o => { o with acts := acts, phase := .rows, olds := o.noteOlds g s }
      else s0.modCat i fun o => { o with acts := acts }
    else if o.phase = .rows then o.readAhead g s
    else s) st

/-- The run goes to its completion with a code. -/
def CatOp.finish (o : CatOp) (code grp col : Nat) : CatOp :=
  { o with phase := .completing, code := BitVec.ofNat 8 code, grp := grp, col := col, row := none, wait := none }

/-- What stops the reading of the next row: it waits, or the run ends with code 0x18. -/
def CatOp.halt (o : CatOp) (e : CatStop) (s : State) : State :=
  match e with
  | .fault t va (.served code) =>
    (s.modCat o.id fun o => { o with wait := some (va / 4096), seen := o.seen.filter fun x => x.1 != o.next }).pendFault (8 + o.engine) o.cid
      (BitVec.ofNat 64 va) code 2 (entHint t.w) (.cat o.id)
  | .fault _ va (.trap _ _) => s.modCat o.id fun o => { o.finish 0x18 0 0 with failed := s.pageLost o.cid va }
  | .fault _ _ _ => s
  | .waits pa => s.askGap (.cat o.id) pa
  | .bad => s.modCat o.id fun o => o.finish 0x18 0 0
  | .page _ => s

/-- CAT_ROW: the next row is read and decoded. A run whose start phase is not done yet notes what ACC may add to (R318). -/
def execCatRow (i : Nat) (st : State) : Res :=
  catStep i (fun o g s =>
    if o.phase = .start then s.modCat i fun o => { o with olds := o.noteOlds g s }
    else if o.phase = .rows ∧ o.row = none ∧ o.wait = none ∧ s.laneFree o 0 = true then
      if o.stopped then s.modCat i fun o => o.finish 0x18 0 0
      else
        match o.tryRow 2100 [] s with
        | (r, ps, s1) =>
          let s2 := match o.dirs.getD o.next none, o.dirWord (o.byteAt s1 ps) with
            | none, .ok w => o.learn s1 (o.dirs.set o.next (some w))
            | _, _ => s1
          match r with
          | .error (.waits pa) => o.halt (.waits pa) s2
          | .error e => o.halt e (s2.dropAsk (.cat i))
          | .ok r =>
            let s3 := (o.rowTouch (s2.dropAsk (.cat i)) ps (o.rowSpans (o.byteAt s1 ps) r.hi)).tick
            if r.code ≠ 0 then s3.modCat i fun o => o.finish r.code r.grp r.col
            else s3.modCat i fun o => { o with row := some (r.val, r.flags) }
    else s) st

/-- What ACC adds to: the output element as the engine read it, at one of the moments noted since the issue (R318). -/
def CatOp.old (o : CatOp) (g : Group) (seed : Nat) : Nat :=
  match (((o.olds.filter fun x => x.1 == o.next).map fun x => leNat x.2) ++ [leNat (o.element g o.next)]).eraseDups with
  | [x] => x
  | xs => xs.getD (Config.freeNat seed % xs.length) 0

/-- The output element of a committed row (R318). -/
def CatOp.commit (o : CatOp) (g : Group) (r : Val × BitVec 6) (seed : Nat) : Group × BitVec 6 :=
  let at' := o.ooff + o.oz * o.next
  let x := if o.acc then (decodeVal o.oty (o.old g seed)).add 0 r.1 else (r.1, 0)
  let y := roundTo (mdSat o.md) 0 o.oty x.1 0
  (g.bufWrite .a at' (leBytes o.oz y.1), r.2 ||| x.2 ||| y.2)

/-- CAT_ROW_COMMIT: the row is written, in ascending order; the last one ends the run. -/
def execCatRowCommit (i : Nat) (st : State) : Res :=
  catStep i (fun o g s =>
    match o.phase, o.row with
    | .rows, some r =>
      let (g1, f) := if o.check then (g, 0) else o.commit g r s.fresh
      (s.tick.modGroup o.guid fun _ => g1).modCat i fun o =>
        let o1 := { o with next := o.next + 1, row := none, flags := o.flags ||| f, seen := o.seen.filter fun x => x.1 != o.next }
        if o1.next = o1.nrow then o1.finish 0 0 0 else o1
    | _, _ => s) st

/-- The status word of R323. -/
def kcStatus (code kind grp count pos : Nat) : Word :=
  BitVec.ofNat 64 (code % 256 + 2 ^ 8 * kind + 2 ^ 12 * (grp % 16) + 2 ^ 16 * (count % 2 ^ 24) + 2 ^ 40 * (pos % 2 ^ 16) + 2 ^ 63)

/-- Pending catalogue faults stand in the issue order of their runs (R333). -/
def addFault (i : Nat) (tid : BitVec 6) : List (Nat × BitVec 6) → List (Nat × BitVec 6)
  | [] => [(i, tid)]
  | f :: fs => if i < f.1 then (i, tid) :: f :: fs else f :: addFault i tid fs

/-- An operation on KC ends (R323): the status word of the entry that it names, then KC; both in the save frame while its group is
saved. A frame whose word of KC cannot be corrected is fatal to the context (R337). -/
def State.endCounted (s : State) (uid k tid : Nat) (status : Word) : State :=
  match s.group? uid with
  | none => s
  | some g =>
    if g.stage = .saved then
      let a := g.areaAt 0 + 0xF800 + 8 * tid
      let b := g.areaAt k + slotOfKc
      if s.uncorrectable b then s.contextError g.cid 1 0 b
      else
        let s1 := s.putFrameWord g.cid a status
        s1.putFrameWord g.cid b (s1.frameWord g.cid b - 1)
    else (s.modGroup uid fun g => { g with catStat := g.catStat.set tid status }).modStrand uid k Strand.fallC

/-- CAT_RUN_COMPLETE: status word, flags, release, KC, barrier arrival; a run that stopped leaves its strand a catalogue fault. -/
def execCatRunComplete (i : Nat) (st : State) : Res :=
  catStep i (fun o _ s =>
    if o.phase = .completing then
      let s1 := { s with cats := s.cats.filter fun p => p.id != i }
      let s2 := (s1.modStrand o.guid o.strand fun t =>
        { t.flag o.flags with catFaults := if o.check || o.code == 0 then t.catFaults else addFault i (BitVec.ofNat 6 o.tid) t.catFaults }).dropLock i
      let s3 := (if o.failed then s2.markLost i else s2).endCounted o.guid o.strand o.tid (kcStatus o.code.toNat o.kind o.grp o.next o.col)
      if kcBen o.xd then s3.engineArrive o.guid (kcBar o.xd) o.failed else s3
    else s) st

/-- CATALOGUE_FAULT_TRAP, at a boundary with H = 0, after the copy faults; a strand that has ended meets it as a fatal trap. -/
def execCatalogueFaultTrap (uid : Nat) (kk : BitVec 3) (s : State) : Res :=
  let k := kk.toNat
  match s.group? uid, s.strand? uid k with
  | some g, some t =>
    match t.catFaults with
    | (_, tid) :: rest =>
      if g.stage = .resident ∧ t.boundary = true ∧ t.h = false ∧ t.copyPending = none then
        let tr : Trap := { cause := 0x18, detail := 0, acc := 0, async := true, tval := tid.setWidth 64 }
        let s1 := s.modStrand uid k fun t => { t with catFaults := rest }
        .next (if t.status = .ended then s1.fatalTrap uid k tr else s1.takeTrap uid k tr t.pc)
      else .next s
    | [] => .next s
  | _, _ => .next s

end Sys2Proof.Machine
end

