-- ==== Sys2Proof/Machine/Archive.lean ====
section
/-!
DEFINITION. The weight block (spec/19_catalogue_engine.md R326 to R329, spec/23_weight_block.md R389 to R404): accession, deaccession,
the archive log and its weeding, the reading room, and the owner's archive commands.
-/
namespace Sys2Proof.Machine

open Sys2Proof

/-! ## Versions and the log (R389 to R391) -/

def State.modVersion (s : State) (v : Nat) (f : Version → Version) : State :=
  { s with arc := { s.arc with versions := s.arc.versions.map fun x => if x.id == v then f x else x } }
/-- One past the last byte of a version's block. -/
def Version.stop (v : Version) : Nat := v.baddr + 16384 * v.npg
/-- The version can be read by its context. -/
def Version.readable (v : Version) : Bool := decide (v.state = .installed) || decide (v.state = .old)
/-- Its pages are live (R390). -/
def Version.live (v : Version) : Bool := v.readable || decide (v.state = .unowned)
/-- Its pages are garbage. -/
def Version.garbage (v : Version) : Bool := decide (v.state = .superseded) || decide (v.state = .discarded)
/-- A block of its context: installing or readable. -/
def Version.isBlock (v : Version) : Bool := v.readable || decide (v.state = .installing)
/-- The version of a context whose block range holds an address. -/
def State.blockAt (s : State) (cid va : Nat) (p : Version → Bool) : Option Version :=
  s.arc.versions.find? fun v => v.cid == cid && p v && decide (v.baddr ≤ va) && decide (va < v.stop)
/-- Versions of a context that a range meets. -/
def State.blocksMeet (s : State) (cid lo hi : Nat) (p : Version → Bool) : Bool :=
  s.arc.versions.any fun v => v.cid == cid && p v && decide (v.baddr < hi) && decide (lo < v.stop)

/-- The archive stack of page `k` of a block. -/
def pageStack (baddr k : Nat) : Nat := (k + natBits baddr 23 21) % 8
/-- The pages of a block from page `k` on that go to a stack. -/
def pagesOn (baddr npg k a : Nat) : Nat := ((List.range (npg - k)).filter fun i => pageStack baddr (k + i) == a).length
/-- The archive address of a page's first byte. -/
def ArcPage.addr (p : ArcPage) : Nat := p.ast * 2 ^ 41 + p.lpg * 2 ^ 14
/-- The state of a page's version. -/
def State.pageLive (s : State) (p : ArcPage) : Bool := match s.version? p.vid with
  | some v => v.live
  | none => false
/-- Garbage: every programmed page that is not live (R390). -/
def State.pageGarbage (s : State) (p : ArcPage) : Bool := !s.pageLive p
/-- What weeding must not lose: a live page, or one of a version that still installs, which its install point needs (DEDUCED,
notes/assumptions/104.md). -/
def State.pageKept (s : State) (p : ArcPage) : Bool := match s.version? p.vid with
  | some v => v.live || decide (v.state = .installing)
  | none => false

def eraseBlocks : Nat := 524288
def State.eraseBlock? (s : State) (a p : Nat) : Option EraseBlock := s.arc.blocks.find? fun b => b.ast == a && b.pos == p
/-- Erase blocks of a stack that are not free. -/
def State.usedBlocks (s : State) (a : Nat) : List EraseBlock := s.arc.blocks.filter fun b => b.ast == a && decide (b.cond ≠ .free)
def State.freeBlocks (s : State) (a : Nat) : Nat := eraseBlocks - (s.usedBlocks a).length
/-- Pages of a stack that are free outside the weeding reserve. While the reserve is short, the rest of the open block is part of it. -/
def State.freePages (s : State) (a : Nat) : Nat :=
  let h := s.arc.heads.getD a 0
  (s.freeBlocks a - 1024) * 256 + (if h % 256 = 0 ∨ s.freeBlocks a < 1024 then 0 else 256 - h % 256)
/-- Garbage pages of a stack. -/
def State.garbagePages (s : State) (a : Nat) : Nat := (s.arc.pages.filter fun p => p.ast == a && s.pageGarbage p).length
/-- Pages of a stack that accessions in progress have reserved and not yet programmed. -/
def State.reservedPages (s : State) (a : Nat) : Nat :=
  s.arc.ops.foldl (fun n o => n + (match o.vid.bind s.version? with
    | some v => if v.state = .installing then pagesOn v.baddr v.npg o.count a else 0
    | none => 0)) 0

/-- Change the record of an erase block. -/
def State.setBlock (s : State) (b : EraseBlock) : State :=
  { s with arc := { s.arc with blocks := b :: s.arc.blocks.filter fun x => !(x.ast == b.ast && x.pos == b.pos) } }
/-- The next free erase block of a stack at or after a position, wrapping. -/
def State.nextBlock (s : State) (a p : Nat) : Option Nat :=
  let used := s.usedBlocks a
  ((List.range (used.length + 1)).map fun i => (p + i) % eraseBlocks).find? fun q => !(used.any fun b => b.pos == q)

/-- Take the log head of a stack; `reserve`: the weeding reserve may be used. -/
def State.takeLog (s : State) (a : Nat) (reserve : Bool) : Option (Nat × State) :=
  let h := s.arc.heads.getD a 0
  let move (s : State) (lpg : Nat) : Nat × State :=
    let b := (s.eraseBlock? a (lpg / 256)).getD { ast := a, pos := lpg / 256, cond := .opened, count := 0 }
    let s1 := if lpg % 256 = 255 then s.setBlock { b with cond := .full } else s
    (lpg, { s1 with arc := { s1.arc with heads := s1.arc.heads.set a ((lpg + 1) % (eraseBlocks * 256)) } })
  if h % 256 ≠ 0 then (if reserve = false ∧ s.freeBlocks a < 1024 then none else some (move s h))
  else if s.freeBlocks a ≤ (if reserve then 0 else 1024) then none
  else
    (s.nextBlock a (h / 256)).map fun p =>
      let b := (s.eraseBlock? a p).getD { ast := a, pos := p, cond := .free, count := 0 }
      move (s.setBlock { b with cond := .opened }) (p * 256)

/-- Program a page: it takes the log position, with its out-of-band record. -/
def State.program (s : State) (a lpg vid page : Nat) (data : List Byte) : State :=
  { s with arc := { s.arc with pages := { ast := a, lpg := lpg, vid := vid, page := page, data := data } :: s.arc.pages } }

/-! ## Leaves of a block (R362, R393) -/

/-- The L1 entry of an address, where it has an L1 table; or what is fatal to the context on the way there (R337). -/
def State.l1Look (s : State) (cid va : Nat) : Except (Nat × Nat × Nat) (Option Nat) :=
  match s.walkAll cid va with
  | (.dead reason detail pa, _) => .error (reason, detail, pa)
  | (_, path) => .ok ((path.find? fun e => e.1 == 2).map fun e => pteAddr e.2 + 8 * vaIndex va 1)
def State.l1Slot (s : State) (cid va : Nat) : Option Nat := match s.l1Look cid va with
  | .ok r => r
  | .error _ => none
/-- The first error that is fatal to the context among the tables of `n` pages (R337). -/
def State.l1Dead (s : State) (cid va n : Nat) : Option (Nat × Nat × Nat) :=
  (List.range n).findSome? fun j => match s.l1Look cid (va + 4096 * j) with
    | .error e => some e
    | .ok _ => none
/-- A context whose tables for `n` pages cannot be read takes the fatal context error. -/
def State.l1Report (s : State) (cid va n : Nat) : State := match s.l1Dead cid va n with
  | some (reason, detail, pa) => s.contextError cid reason detail pa
  | none => s

/-- The archive leaf of a 4 KiB quarter. -/
def archiveLeaf (addr : Nat) (x : Bool) (prio : BitVec 4) : Word :=
  BitVec.ofNat 64 (3 + 8 * x.toNat + 0x200 + addr / 4096 * 4096 + prio.toNat * 2 ^ 52)
/-- An archive leaf of a version. -/
def State.leafOf (s : State) (vid : Nat) (e : Word) : Bool :=
  pteV e && pteLeaf e && decide (pteTier e = 2) && (match s.arcPage? (pteAddr e) with | some p => p.vid == vid | none => false)
/-- The programmed page `k` of a version. -/
def State.pageOf (s : State) (vid k : Nat) : Option ArcPage := s.arc.pages.find? fun p => p.vid == vid && p.page == k

/-- Step 1 of R393: every page has an L1 table, and its leaf is invalid or one of the version `old`. -/
def State.leavesFree (s : State) (cid baddr npg : Nat) (old : Option Nat) : Bool :=
  (List.range (4 * npg)).all fun j => match s.l1Slot cid (baddr + 4096 * j) with
    | none => false
    | some a => !pteV (s.pte cid a) || (match old with | some v => s.leafOf v (s.pte cid a) | none => false)

/-- Steps 2 and 3 of R393. -/
def State.writeLeaves (s : State) (cid : Nat) (v : Version) : State :=
  (List.range (4 * v.npg)).foldl (fun s j =>
    let va := v.baddr + 4096 * j
    match s.l1Slot cid va, s.pageOf v.id (j / 4) with
    | some a, some p => (s.setPte cid a (archiveLeaf (p.addr + 4096 * (j % 4)) (v.xbits.getD j false) v.prio)).invalPage cid va everyDie
    | _, _ => s) s

/-! ## Instructions (R326 to R329) -/

/-- ARCIN and ARCOUT, kind 2 and 3. -/
def arcE (kind : Nat) (d a tid : BitVec 6) (uid k : Nat) (g : Group) (t : Strand) (s : State) : Eff State :=
  let xd := t.x d
  let xa := t.x a
  let npg := natBits xd.toNat 19 0
  let w := (g.entry tid.toNat).words
  if !(g.entry tid.toNat).bound then .trap s (stateTrap tid.toNat)
  else if kind = 2 ∧ (entLayout w = 1 ∨ entBase w % 4096 ≠ 0) then .trap s (formatTrap tid.toNat)
  else if natBits xd.toNat 39 21 ≠ 0 ∨ natBits xd.toNat 63 51 ≠ 0 ∨ (kind = 2 ∧ npg = 0) ∨ (kind = 3 ∧ natBits xd.toNat 20 0 ≠ 0) ∨
      xa.toNat % 2 ^ 21 ≠ 0 ∨ natBits xa.toNat 63 57 ≠ 0 ∨ 2 ^ 57 < xa.toNat + 16384 * npg then .trap s catTrap
  else
    match kcBarTrap s g xd with
    | some tr => .trap s tr
    | none =>
      let o : ArcOp := { id := s.fresh, guid := uid, strand := k, cid := g.cid, kind := kind, tid := tid.toNat, entry := w, xd := xd, xa := xa, vid := none,
                         data := [], count := 0, tries := 0, code := none, wait := none, abort := false, kuid := g.kuid }
      let s1 := { s with fresh := s.fresh + 1, arc := { s.arc with ops := s.arc.ops ++ [o] } }
      let rd := if kind = 2 then [catMemRange g.cid (entBase w) (entBase w + 16384 * npg)] else []
      .done ((s1.pushLock o.id uid k rd []).modStrand uid k fun t => { t with kc := t.kc + 1 })

/-- ARCIN. -/
def execArcin (d a t : BitVec 6) (st : State) : Res := runM (arcE 2 d a t) st
/-- ARCOUT. -/
def execArcout (d a t : BitVec 6) (st : State) : Res := runM (arcE 3 d a t) st

/-- The pages of a version now in the reading room. -/
def State.stagedCount (s : State) (v : Version) : Nat :=
  ((List.range v.npg).filter fun k => match s.pageOf v.id k with
    | some p => (s.staged? p.addr).isSome
    | none => false).length

/-- The versions of one block that satisfy `p`: a block is named by its context and its block address. -/
def State.ofBlock (s : State) (v : Version) (p : Version → Bool) : Option Version :=
  s.arc.versions.find? fun x => x.cid == v.cid && x.baddr == v.baddr && p x
/-- The block state word (R329). -/
def State.blockState (s : State) (cid va : Nat) : Word :=
  match s.blockAt cid va Version.isBlock with
  | none => 0
  | some b =>
    match s.ofBlock b Version.readable with
    | some v => BitVec.ofNat 64 ((if (s.ofBlock b fun x => decide (x.state = .installing)).isSome then 3 else 2) + 2 ^ 8 * v.npg + 2 ^ 28 * s.stagedCount v)
    | none => 1

/-- ARCSTAT. -/
def execArcstat (d a : BitVec 6) (st : State) : Res :=
  runM (fun uid k g t s => .done (s.modStrand uid k fun u => u.setX d (s.blockState g.cid (t.x a).toNat))) st

/-- The readable version of the block whose range holds an address. -/
def State.readableAt (s : State) (cid va : Nat) : Option Version := (s.blockAt cid va Version.isBlock).bind fun b => s.ofBlock b Version.readable

/-- The hint of every page of the block that holds BASE: later stagings take it from the version, staged pages take it now. -/
def State.giveHint (s : State) (cid va : Nat) (prio : BitVec 4) (step : BitVec 32) : State :=
  let vs : List Nat := match s.blockAt cid va Version.isBlock with
    | some b => (s.arc.versions.filter fun v => v.cid == cid && v.isBlock && v.baddr == b.baddr).map fun v => v.id
    | none => []
  let s1 := vs.foldl (fun s i => s.modVersion i fun v => { v with hint := some (prio, step) }) s
  let mine (t : Staged) : Bool := match s.arcPage? (t.page * 16384) with
    | some p => vs.contains p.vid
    | none => false
  { s1 with arc := { s1.arc with staged := s1.arc.staged.map fun t => if mine t then { t with prio := prio, step := step } else t } }

/-- The end of an archive operation: status word, entry, KC, barrier arrival (R319, R323), which carries a failure where the source was lost with
its link (R110). -/
def State.endArc (s : State) (o : ArcOp) (code count : Nat) (lost : Bool := false) : State :=
  let s1 := ({ s with arc := { s.arc with ops := s.arc.ops.filter fun p => p.id != o.id } }).dropLock o.id
  let s2 := (if lost then s1.markLost o.id else s1).endCounted o.guid o.strand o.tid (kcStatus code o.kind 0 count 0)
  if kcBen o.xd then s2.engineArrive o.guid (kcBar o.xd) lost else s2

def State.modArc (s : State) (i : Nat) (f : ArcOp → ArcOp) : State :=
  { s with arc := { s.arc with ops := s.arc.ops.map fun o => if o.id == i then f o else o } }
def State.arcOp? (s : State) (i : Nat) : Option ArcOp := s.arc.ops.find? fun o => o.id == i

/-- The readable version of the block that a STAGE stages, and how many of its pages it has seen staged: none of a version that an install point has
put in the place of the one it began with (R328, R391). -/
def State.stageOf (s : State) (o : ArcOp) : Option (Version × Nat) :=
  match (o.vid.bind s.version?).filter Version.readable with
  | some v => some (v, o.count)
  | none => (s.readableAt o.cid (entBase o.entry)).map fun v => (v, 0)
/-- The next page that a STAGE still has to see staged. -/
def State.stageNext (s : State) (o : ArcOp) : Option Nat :=
  match s.stageOf o with
  | some (v, n) => (s.pageOf v.id n).map fun p => p.addr / 16384
  | none => some noArcPage
/-- Pages of a STAGE that stand staged, from the first on. -/
def State.stageReach (s : State) (vid n : Nat) : Nat → Nat
  | 0 => n
  | fuel + 1 => match s.pageOf vid n with
    | some p => if (s.staged? p.addr).isSome then s.stageReach vid (n + 1) fuel else n
    | none => n
/-- A STAGE goes on: it ends when every page has been staged, or when its block is gone. -/
def State.stageOne (s : State) (o : ArcOp) : State :=
  match s.stageOf o with
  | none => s.endArc o 0x22 o.count
  | some (v, n0) =>
    let n := s.stageReach v.id n0 (v.npg - n0)
    if n = v.npg then s.endArc o 0 n else s.modArc o.id fun o => { o with vid := some v.id, count := n }
def State.stageSweep (s : State) : State := (s.arc.ops.filter fun o => o.kind == 4).foldl (fun s o => s.stageOne o) s

/-- STAGE and HINT. -/
def hintE (stage : Bool) (a tid : BitVec 6) (uid k : Nat) (g : Group) (t : Strand) (s : State) : Eff State :=
  let e := g.entry tid.toNat
  let xa := t.x a
  if !e.bound then .trap s (stateTrap tid.toNat)
  else if natBits xa.toNat 63 32 ≠ 0 then .trap s catTrap
  else
    let s1 := s.giveHint g.cid (entBase e.words) (BitVec.ofNat 4 (entPrio e.words)) (xa.extractLsb' 0 32)
    if !stage then .done s1
    else
      let o : ArcOp := { id := s1.fresh, guid := uid, strand := k, cid := g.cid, kind := 4, tid := tid.toNat, entry := e.words, xd := 0, xa := xa,
                         vid := (s.readableAt g.cid (entBase e.words)).map fun v => v.id,
                         data := [], count := 0, tries := 0, code := none, wait := none, abort := false, kuid := g.kuid }
      let s2 := { s1 with fresh := s1.fresh + 1, arc := { s1.arc with ops := s1.arc.ops ++ [o] } }
      .done (((s2.pushLock o.id uid k [] []).modStrand uid k fun t => { t with kc := t.kc + 1 }).stageOne o)
/-- STAGE. -/
def execStage (a t : BitVec 6) (st : State) : Res := runM (hintE true a t) st
/-- HINT. -/
def execHint (a t : BitVec 6) (st : State) : Res := runM (hintE false a t) st

/-! ## Accession (R392 to R395) -/

/-- The block-table index that a new version takes: that of its block, else the lowest free one, else that of a block of garbage, whose
versions leave the table. An entry that still holds an unowned version is another block's. -/
def State.tableIndex (s : State) (cid baddr : Nat) : Option (Nat × State) :=
  match s.arc.versions.find? fun v => v.cid == cid && v.baddr == baddr && s.arc.versions.all fun x => x.index != v.index || decide (x.state ≠ .unowned) with
  | some v => some (v.index, s)
  | none =>
    let used := (s.arc.versions.map fun v => v.index).eraseDups
    if used.length < 65536 then (lowestFree used (used.length + 1)).map fun i => (i, s)
    else
      (used.find? fun i => s.arc.versions.all fun v => v.index != i || v.garbage).map fun i =>
        (i, { s with arc := { s.arc with versions := s.arc.versions.filter fun v => v.index != i } })

/-- The key fingerprint of a tenant key (R402). -/
def fingerprint (key : BitVec 512) : Word :=
  BitVec.ofNat 64 (leNat (shake256 ([0x51, 0x5A, 0x38, 0x2D, 0x4B, 0x46, 0x50] ++ leBytes 64 key.toNat) 8))

/-- The signed value of WQ: weeding may drive it below zero (R46). -/
def Context.quota (c : Context) : Int := c.wq.toInt

/-- The check of the controller that an accession fails, or 0 (R392). -/
def State.arcinCode (s : State) (o : ArcOp) : Nat :=
  let npg := natBits o.xd.toNat 19 0
  let lo := o.xa.toNat
  let hi := lo + 16384 * npg
  let sup := natBit o.xd.toNat 20
  let others (p : Version → Bool) := s.blocksMeet o.cid lo hi p
  if others fun v => v.isBlock && (s.ofBlock v fun x => decide (x.state = .installing)).isSome then 0x23
  else if !sup && others Version.isBlock then 0x21
  else if sup && (!(s.arc.versions.any fun v => v.cid == o.cid && v.baddr == lo && decide (v.state = .installed)) ||
      others fun v => v.isBlock && v.baddr != lo) then 0x21
  else if (s.ctx o.cid).quota < npg then 0x20
  else if (s.tableIndex o.cid lo).isNone ∨ ((List.range 8).any fun a => decide (s.freePages a + s.garbagePages a < pagesOn lo npg 0 a + s.reservedPages a)) then 0x25
  else 0

/-- An accepted accession: its version installs, the installed one becomes superseding-old, WQ falls. -/
def State.arcinAccept (s : State) (o : ArcOp) (index : Nat) : State :=
  let npg := natBits o.xd.toNat 19 0
  let key := s.keyOf o.cid
  let v : Version := { id := s.fresh + 1, cid := o.cid, baddr := o.xa.toNat, npg := npg, ver := entVer o.entry, key := key, kfp := fingerprint key,
                       seq := s.arc.seq, state := .installing, xbits := [], prio := BitVec.ofNat 4 (entPrio o.entry), hint := none, index := index }
  let vs := s.arc.versions.map fun (x : Version) => if x.cid == o.cid && x.baddr == v.baddr && decide (x.state = .installed) then { x with state := .old } else x
  (({ s with fresh := s.fresh + 1, arc := { s.arc with seq := s.arc.seq + 1, versions := vs ++ [v] } }).modCtx o.cid fun c =>
    { c with wq := c.wq - BitVec.ofNat 41 npg }).modArc o.id fun o => { o with vid := some v.id }

/-- An accession that does not install (R394). -/
def State.discardArc (s : State) (o : ArcOp) (code : Nat) (lost : Bool := false) : State :=
  match o.vid.bind s.version? with
  | none => s.endArc o code 0
  | some v =>
    let vs := s.arc.versions.map fun (x : Version) =>
      if x.id == v.id then { x with state := .discarded }
      else if x.cid == v.cid && x.baddr == v.baddr && decide (x.state = .old) then { x with state := .installed } else x
    let s1 := ({ s with arc := { s.arc with versions := vs } }).modCtx o.cid fun c => { c with wq := c.wq + BitVec.ofNat 41 (v.npg - o.count) }
    s1.endArc o code o.count lost

/-- An earlier archive operation of the context has not reached the controller yet. -/
def State.arcEarlier (s : State) (o : ArcOp) : Bool :=
  s.arc.ops.any fun p => decide (p.id < o.id) && p.cid == o.cid && (p.kind == 3 || (p.kind == 2 && p.vid.isNone))

/-- ACCESSION_CHECK: acceptance or refusal, in issue order within a context. WQ is reserved here, at the controller's check (R392); R46 says at issue:
DESIGN CHOICE, notes/assumptions/103.md. -/
def execAccessionCheck (i : Nat) (s : State) : Res :=
  match s.arcOp? i with
  | none => .next s
  | some o =>
    if o.kind = 2 ∧ o.vid = none ∧ s.arcEarlier o = false ∧ s.longReady o.id o.guid o.strand [catMemRange o.cid (entBase o.entry) (entBase o.entry + 16384 * natBits o.xd.toNat 19 0)] [] = true then
      if o.abort then .next (s.discardArc o 0x27)
      else
        match s.arcinCode o, s.tableIndex o.cid o.xa.toNat with
        | 0, some (idx, s1) => .next (s1.arcinAccept o idx)
        | c, _ => .next (s.endArc o c 0)
    else .next s

/-- The source bytes of page `k`, with X of its four leaves; none where a row, a bank or a link holds them: they are read later (R160, R386, R411). A page
outside DRAM and POOL counts as a trapping fault, as does one with a sector that cannot be corrected. -/
def ArcOp.readPage (o : ArcOp) (die : Nat) (s : State) : Except (Touch × Nat × Xlat) (Option (List Byte × List Bool)) × State :=
  let base := entBase o.entry + 16384 * o.count
  let ts : List Touch := (List.range 4).map fun q => { va := base + 4096 * q, n := 1, kind := .read, w := o.entry, pos := 0 }
  match pagesOf true (.unit die) o.cid ts s with
  | (.error e, s1) => (.error e, s1)
  | (.ok ps, s1) =>
    let leaf (q : Nat) : Word := match s1.walk o.cid (base + 4096 * q) with
      | .leaf e _ _ => e
      | _ => 0
    let pa (q : Nat) : Nat := paOf ps .read (base + 4096 * q)
    let bad (p : Touch → Bool) : Except (Touch × Nat × Xlat) (Option (List Byte × List Bool)) × State → Except (Touch × Nat × Xlat) (Option (List Byte × List Bool)) × State :=
      fun r => match ts.find? p with
        | some t => (.error (t, t.va, .trap 0x0B 0), s1)
        | none => r
    bad (fun t => decide (pteTier (leaf ((t.va - base) / 4096)) = 2)) <|
      if (List.range 4).any fun q => s1.placeWaits (pa q) 4096 then (.ok none, (List.range 4).foldl (fun s q => s.askGap (.arc o.id) (pa q)) s1)
      else
        bad (fun t => (List.range 128).any fun j => s1.uncorrectable (paOf ps .read t.va + 32 * j)) <|
          let (bytes, s2) := (List.range 4).foldl (fun (acc : List Byte × State) q =>
            let r := acc.2.unitRead .unit o.cid (entVer o.entry) (pa q) 4096
            (acc.1 ++ r.1, r.2)) ([], s1)
          (.ok (some (bytes, (List.range 4).map fun q => pteX (leaf q))), (s2.dropAsk (.arc o.id)).tick)

/-- The pages programmed in an erase block. -/
def State.blockPages (s : State) (a p : Nat) : List ArcPage := s.arc.pages.filter fun x => x.ast == a && x.lpg / 256 == p
/-- The pages of an erase block that weeding must copy. -/
def State.keptIn (s : State) (a p : Nat) : Nat := ((s.blockPages a p).filter fun x => s.pageKept x).length
/-- Fewer than 1,024 erase blocks are free outside the reserve, and weeding has something to program or to gain: it programs first (R398). -/
def State.weedFirst (s : State) (a : Nat) : Bool :=
  decide (s.freeBlocks a < 2048) &&
  match s.arc.victims.getD a none with
  | some b => decide (s.keptIn a b ≠ 0)
  | none => s.arc.blocks.any fun b => b.ast == a && decide (b.cond = .full) && decide (s.keptIn a b.pos < 256)

/-- PAGE_PROGRAM: the source page is read once, programmed at the log head and verified. An abort lets the page being programmed complete (R394). -/
def execPageProgram (i : Nat) (verified : Bool) (s : State) : Res :=
  match s.arcOp? i with
  | none => .next s
  | some o =>
    match o.vid.bind s.version? with
    | none => .next s
    | some v =>
      let a := pageStack v.baddr o.count
      if v.state ≠ .installing ∨ v.npg ≤ o.count then .next s
      else if o.data.isEmpty then
        match o.abort, o.code with
        | true, _ => .next (s.discardArc o 0x27)
        | false, some c => .next (s.discardArc o c.toNat)
        | false, none =>
          if o.wait ≠ none then .next s
          else
            match o.readPage (8 + 2 * a) s with
            | (.error (t, va, x), s1) =>
              match x with
              | .served code =>
                .next ((s1.modArc i fun o => { o with wait := some (va / 4096) }).pendFault (8 + 2 * a) o.cid (BitVec.ofNat 64 va) code 2 (entHint t.w) (.arc i))
              | .trap _ _ => .next (s1.discardArc o 0x24 (s1.pageLost o.cid va))
              | _ => .next s1
            | (.ok none, s1) => .next s1
            | (.ok (some (bs, xs)), s1) => .next ((s1.modArc i fun o => { o with data := bs }).modVersion v.id fun v => { v with xbits := v.xbits ++ xs })
      else if s.weedFirst a then .next s
      else
        match s.takeLog a false with
        | none => .next s
        | some (lpg, s1) =>
          if verified then .next ((s1.program a lpg v.id o.count o.data).modArc i fun o => { o with count := o.count + 1, data := [], tries := 0 })
          else if o.tries = 15 then .next ((s1.program a lpg 0 0 []).discardArc o 0x26)
          else .next ((s1.program a lpg 0 0 []).modArc i fun o => { o with tries := o.tries + 1 })

/-- INSTALL_POINT: leaves checked and written, the old version superseded, the operation ends (R393). -/
def execInstallPoint (i : Nat) (s : State) : Res :=
  match s.arcOp? i with
  | none => .next s
  | some o =>
    match o.vid.bind s.version? with
    | none => .next s
    | some v =>
      if v.state ≠ .installing ∨ o.count < v.npg then .next s
      else if o.abort then .next (s.discardArc o 0x27)
      else if (s.l1Dead v.cid v.baddr (4 * v.npg)).isSome then .next (s.l1Report v.cid v.baddr (4 * v.npg))
      else
        let old := s.arc.versions.find? fun x => x.cid == v.cid && x.baddr == v.baddr && decide (x.state = .old)
        if s.leavesFree v.cid v.baddr v.npg (old.map fun x => x.id) then
          let vs (s : State) := s.arc.versions.map fun (x : Version) =>
            if x.id == v.id then { x with state := .installed } else if some x.id == old.map (fun y => y.id) then { x with state := .superseded } else x
          let s1 := s.writeLeaves v.cid v
          .next (({ s1 with arc := { s1.arc with versions := vs s1 } }).endArc o 0 v.npg)
        else .next (s.discardArc o 0x21)

/-! ## Deaccession (R396) -/

/-- Clear V of every leaf of a block and drop its translations. -/
def State.clearLeaves (s : State) (cid : Nat) (v : Version) : State :=
  (List.range (4 * v.npg)).foldl (fun s j =>
    let va := v.baddr + 4096 * j
    (match s.l1Slot cid va with
     | some a => s.setPte cid a (s.pte cid a &&& ~~~1)
     | none => s).invalPage cid va everyDie) (s.l1Report cid v.baddr (4 * v.npg))

/-- DEACCESSION: checked at the controller in issue order; the block's leaves become invalid and its version superseded. -/
def execDeaccession (i : Nat) (s : State) : Res :=
  match s.arcOp? i with
  | none => .next s
  | some o =>
    if o.kind = 3 ∧ s.arcEarlier o = false then
      let at' (st : VerState) := s.arc.versions.find? fun v => v.cid == o.cid && v.baddr == o.xa.toNat && decide (v.state = st)
      if (at' .installing).isSome then .next (s.endArc o 0x23 0)
      else
        match at' .installed with
        | none => .next (s.endArc o 0x22 0)
        | some v => .next (((s.clearLeaves o.cid v).modVersion v.id fun v => { v with state := .superseded }).endArc o 0 0)
    else .next s

/-- A context's blocks become unowned at its drain complete (R391). -/
def State.disown (s : State) (cid : Nat) : State :=
  { s with arc := { s.arc with
      versions := s.arc.versions.map fun v => if v.cid == cid && decide (v.state = .installed) then { v with state := .unowned } else v,
      staged := s.arc.staged.filter fun t => match s.arcPage? (t.page * 16384) with
        | some p => !(s.arc.versions.any fun v => v.id == p.vid && v.cid == cid && decide (v.state = .installed))
        | none => true } }

/-- A version after a loss of power, a reset or a failed vertical bus (R402, R447): one that could be read is unowned, one being installed is discarded. -/
def Version.survive (v : Version) : Version :=
  let v1 := { v with cid := 0, hint := none }
  if v.live then { v1 with state := .unowned } else if v.state = .installing then { v1 with state := .discarded } else v1

/-! ## The reading room (R399 to R401) -/

/-- Slot `n` of a row stack, in ascending address: its first frame. -/
def State.slotFrame (s : State) (stk n : Nat) : Nat :=
  let sub := 32 - s.rows.nr.toNat - 2 * s.arc.units.toNat + n / 131072
  stk * 2 ^ 36 + sub * 2 ^ 31 + n / 4096 % 32 * 2 ^ 26 + n / 16 % 256 * 2 ^ 16 + n % 16 * 2 ^ 12
/-- The slots of a row stack. -/
def State.slotCount (s : State) : Nat := 2 * s.arc.units.toNat * 131072
/-- Some access is in flight at a staged copy (R364). -/
def State.slotBusy (s : State) (frame : Nat) : Bool :=
  let inside (pa : Nat) : Bool := decide (frame ≤ pa) && decide (pa < frame + 4 * 2 ^ 24) && decide ((pa - frame) % 2 ^ 24 < 4096)
  (s.ops.any fun o => o.work.places.any fun (l, _, _) => match l with | .phys pa => inside pa | .buf _ _ => false) ||
  (s.rows.ops.any fun o => o.pages.any fun p => inside p.pa)
/-- A staged copy that stands for no readable page any more. -/
def State.stale (s : State) (t : Staged) : Bool := match (s.arcPage? (t.page * 16384)).bind fun p => s.version? p.vid with
  | some v => !v.readable
  | none => true
/-- Copies of superseded and discarded versions are freed once no access is in flight there. -/
def State.sweepRoom (s : State) : State :=
  { s with arc := { s.arc with staged := s.arc.staged.filter fun t => !s.stale t || s.slotBusy t.frame } }
/-- The lowest free slot of a row stack. -/
def State.freeSlot (s : State) (stk : Nat) : Option Nat :=
  let used := (s.arc.staged.filter fun t => t.stk == stk).map fun t => t.frame
  let n := Nat.min (used.length + 32 * (s.rows.retired.filter fun r => subStk r == stk).length + 1) s.slotCount
  ((List.range n).map fun j => s.slotFrame stk j).find? fun f => !used.contains f && !s.retiredSub (subOf f)

/-- The distance of a staged page (R364). -/
def State.distance (s : State) (t : Staged) : Nat := (t.step - (s.ctx t.cid).cur).toNat
/-- Page `a` ranks for eviction before page `b`. -/
def State.ranks (s : State) (a b : Staged) : Bool :=
  if a.prio ≠ b.prio then decide (a.prio.toNat < b.prio.toNat)
  else if s.distance a ≠ s.distance b then decide (s.distance b < s.distance a)
  else decide (a.page < b.page)
/-- The victim among the pages of a row stack, passing over pages in use, and for STAGE over higher priorities. -/
def State.victim (s : State) (stk : Nat) (limit : Option (BitVec 4)) : Option Staged :=
  (s.arc.staged.filter fun t => t.stk == stk && t.ready && !s.slotBusy t.frame && (match limit with | some p => decide (t.prio.toNat ≤ p.toNat) | none => true)).foldl
    (fun best t => match best with
      | none => some t
      | some b => if s.ranks t b then some t else some b) none

/-- The pending faults that ask for an archive page. -/
def State.pendsOn (s : State) (page : Nat) : List Pend := s.mmu.pend.filter fun p => p.code == 0x41 && p.arc == some page
/-- Release every waiter of an archive page. -/
def State.releasePage (s : State) (page : Nat) (replay : Bool) : State := (s.pendsOn page).foldl (fun s p => s.freePend p.die p.idx replay) s

/-- The page at an archive address, with its version where that can be read. -/
def State.readablePage (s : State) (page : Nat) : Option (ArcPage × Version) :=
  (s.arcPage? (page * 16384)).bind fun p => (s.version? p.vid).bind fun v => if v.readable then some (p, v) else none

/-- The priority that a page is staged with: the hint of its block, else PRIO of the tensor that a request names, else PRIO of the leaf (R364). Whose PRIO
a staging takes that several requests share: DESIGN CHOICE, notes/assumptions/113.md. -/
def State.stagePrio (s : State) (v : Version) (pends : List Pend) (limit : Option (BitVec 4)) : BitVec 4 :=
  match v.hint with
  | some (h, _) => h
  | none =>
    match pends.findSome? fun p => p.hint, limit with
    | some (_, q), _ => q
    | none, some q => q
    | none, none => (pends.findSome? fun p => (s.leafNow p.cid p.page).map fun e => BitVec.ofNat 4 (ptePrio e.1)).getD v.prio

/-- The highest PRIO among the STAGEs that wait for a page. -/
def stageLimit (ops : List ArcOp) : Option (BitVec 4) :=
  ops.foldl (fun m o =>
    let q : BitVec 4 := BitVec.ofNat 4 (entPrio o.entry)
    match m with
    | none => some q
    | some p => some (if p.toNat < q.toNat then q else p)) none

/-- DEMAND_STAGING: a request chooses a slot, evicting or refusing (R400, R401). While a page that it may evict is still being staged, it waits. Where
the page can be read no more, its waiters walk again. -/
def execDemandStaging (pg : BitVec 45) (s0 : State) : Res :=
  let page := pg.toNat
  let s := s0.sweepRoom
  let stages := s.arc.ops.filter fun o => o.kind == 4 && s.stageNext o == some page
  let pends := s.pendsOn page
  if pends.isEmpty && stages.isEmpty then .next s0
  else if s.arc.staged.any fun t => t.page == page && !t.ready then .next s0
  else if s.arc.staged.any fun t => t.page == page then .next ((s.releasePage page true).stageSweep)
  else
    match s.readablePage page with
    | none => .next ((s.releasePage page true).stageSweep)
    | some (p, v) =>
      let stk := 2 * p.ast + p.lpg % 2
      let limit := stageLimit stages
      let bound := if pends.isEmpty then limit else none
      let step := match v.hint with
        | some (_, t) => t
        | none => (s.ctx v.cid).cur + 0x80000000
      let place (s : State) (f : Nat) : State :=
        { s with arc := { s.arc with staged := s.arc.staged ++ [{ page := page, stk := stk, frame := f, prio := s.stagePrio v pends limit, step := step, cid := v.cid, ready := false }] } }
      match s.freeSlot stk with
      | some f => .next (place s f)
      | none =>
        match s.victim stk bound with
        | some t => .next (place { s with arc := { s.arc with staged := s.arc.staged.filter fun u => u.page != t.page } } t.frame)
        | none =>
          if s.arc.staged.any fun t => t.stk == stk && !t.ready && (match bound with | some q => decide (t.prio.toNat ≤ q.toNat) | none => true) then .next s0
          else .next (stages.foldl (fun s o => s.endArc o 0x28 o.count) (s.releasePage page false))

/-- STAGING_COMPLETE: the copy is written under its frames' tweak, version kept, and its waiters replay. -/
def execStagingComplete (pg : BitVec 45) (s : State) : Res :=
  let page := pg.toNat
  match s.arc.staged.find? fun t => t.page == page && !t.ready with
  | none => .next s
  | some t =>
    match s.readablePage page with
    | none => .next (({ s with arc := { s.arc with staged := s.arc.staged.filter fun u => u.page != page } }.releasePage page true).stageSweep)
    | some (p, v) =>
      let s1 := (List.range 4).foldl (fun s q => s.writeBytes v.key v.ver (t.frame + q * 2 ^ 24) ((p.data.drop (4096 * q)).take 4096)) s
      let st := s1.arc.staged.map fun (u : Staged) => if u.page == page then { u with ready := true } else u
      .next (({ s1 with arc := { s1.arc with staged := st } }.releasePage page true).stageSweep)

/-! ## Weeding (R390, R398) -/

/-- Weeding is due on a stack. -/
def State.weedDue (s : State) (a : Nat) : Bool := decide (s.freeBlocks a < 4096 + 1024) || decide (s.freePages a < s.reservedPages a)
/-- The full erase blocks of a stack. -/
def State.weedable (s : State) (a : Nat) : List EraseBlock := s.arc.blocks.filter fun b => b.ast == a && decide (b.cond = .full)

/-- WEEDING: the victim is the full erase block with the fewest pages to copy, then the lowest erase count, then the lowest position. -/
def execWeeding (stk : BitVec 3) (s : State) : Res :=
  let a := stk.toNat
  if s.weedDue a ∧ s.arc.victims.getD a none = none then
    let before (x y : EraseBlock) : Bool :=
      let lx := s.keptIn a x.pos
      let ly := s.keptIn a y.pos
      if lx ≠ ly then decide (lx < ly) else if x.count ≠ y.count then decide (x.count < y.count) else decide (x.pos < y.pos)
    let best := (s.weedable a).foldl (fun (m : Option EraseBlock) b => match m with
      | none => some b
      | some c => if before b c then some b else some c) none
    .next { s with arc := { s.arc with victims := s.arc.victims.set a (best.map fun b => b.pos) } }
  else .next s

/-- A page of an accession is between two of its log positions on a stack: weeding does not program there, unless it programs first (R398). -/
def State.midPage (s : State) (a : Nat) : Bool :=
  decide (2048 ≤ s.freeBlocks a) && s.arc.ops.any fun o => decide (o.tries ≠ 0) && (match o.vid.bind s.version? with
    | some v => pageStack v.baddr o.count == a
    | none => false)

/-- The leaves of a page of a version take its new archive address. -/
def State.moveLeaves (s : State) (v : Version) (old new : ArcPage) : State :=
  (List.range 4).foldl (fun s q =>
    let va := v.baddr + 16384 * old.page + 4096 * q
    match s.l1Slot v.cid va with
    | none => s
    | some a =>
      let e := s.pte v.cid a
      if pteV e && pteLeaf e && decide (pteTier e = 2) && decide (pteAddr e = old.addr + 4096 * q) then
        (s.setPte v.cid a (pteSetFrame e (new.addr + 4096 * q))).invalPage v.cid va everyDie
      else s) (s.l1Report v.cid (v.baddr + 16384 * old.page) 4)

/-- WEEDING_COPY: the lowest page of the victim that must be kept goes to the log head, on the weeding reserve if need be. -/
def execWeedingCopy (stk : BitVec 3) (s : State) : Res :=
  let a := stk.toNat
  match s.arc.victims.getD a none with
  | none => .next s
  | some b =>
    let kept := if s.midPage a then [] else (s.blockPages a b).filter fun x => s.pageKept x
    match kept.foldl (fun (m : Option ArcPage) x => match m with
      | none => some x
      | some y => if x.lpg < y.lpg then some x else some y) none with
    | none => .next s
    | some p =>
      match s.takeLog a true, s.version? p.vid with
      | some (lpg, s1), some v =>
        let q : ArcPage := { p with lpg := lpg }
        let s2 := s1.program a lpg p.vid p.page p.data
        let pages := s2.arc.pages.map fun (x : ArcPage) => if x.ast == a && x.lpg == p.lpg then { x with vid := 0, data := [] } else x
        let staged := s2.arc.staged.map fun (t : Staged) => if t.page == p.addr / 16384 then { t with page := q.addr / 16384 } else t
        let pend := s2.mmu.pend.map fun (f : Pend) => if f.arc == some (p.addr / 16384) then { f with arc := some (q.addr / 16384) } else f
        let s3 := { s2 with arc := { s2.arc with pages := pages, staged := staged }, mmu := { s2.mmu with pend := pend } }
        if v.state = .unowned then .next s3
        else .next ((s3.moveLeaves v p q).modCtx v.cid fun c => { c with wq := c.wq - 1 })
      | _, _ => .next s

/-- A page of an erase block still has a staged copy. -/
def State.blockStaged (s : State) (a p : Nat) : Bool := s.arc.staged.any fun t => decide (t.page / 256 = a * eraseBlocks + p)

/-- ERASE: the victim, once no page to keep is left and no access is in flight at a staged copy of one of its pages (R397, R398), is erased; its count
rises, at 3,000 it is retired and the owner hears of it. Versions with no page left are weeded. -/
def execErase (stk : BitVec 3) (blk : BitVec 19) (s0 : State) : Res :=
  let a := stk.toNat
  let p := blk.toNat
  let s := s0.sweepRoom
  if s.arc.victims.getD a none = some p ∧ s.keptIn a p = 0 ∧ s.blockStaged a p = false then
    let old := (s.eraseBlock? a p).getD { ast := a, pos := p, cond := .full, count := 0 }
    let worn := decide (3000 ≤ old.count + 1)
    let s1 := s.setBlock { old with cond := if worn then .retired else .free, count := old.count + 1 }
    let pages := s1.arc.pages.filter fun x => !(x.ast == a && x.lpg / 256 == p)
    let vs := s1.arc.versions.filter fun v => !v.garbage || pages.any fun x => x.vid == v.id
    let s2 := { s1 with arc := { s1.arc with pages := pages, versions := vs, victims := s1.arc.victims.set a none } }
    .next (if worn then s2.postOwner (eventRec 0x06 0 (BitVec.ofNat 64 a) (BitVec.ofNat 64 p) 0) else s2)
  else .next s0

/-! ## The owner's archive commands (R399, R403) -/

/-- A write that only the owner may make; other hosts' writes are ignored. -/
def State.byOwner (s : State) (port : BitVec 3) (f : State) : Res := .next (if s.plat.owner.toNat = port.toNat then f else s)

/-- RRCFG: takes effect only with every slot free and a size that fits. -/
def execRrcfg (port : BitVec 3) (w : BitVec 64) (s : State) : Res :=
  let u := natBits w.toNat 3 0
  s.byOwner port (if (s.contexts.all fun c => decide (c.state = .free)) ∧ 1 ≤ u ∧ u ≤ 8 ∧ s.rows.nr.toNat + 2 * u ≤ 32 then
    { s with arc := { s.arc with units := BitVec.ofNat 4 u, staged := [] } } else s)

def State.arcStatus (s : State) (code : Byte) : State := { s with arc := { s.arc with status := code } }

/-- A command of the owner: its effect and its status; ARSTS shows BUSY until its end (R403). One written meanwhile is ignored. -/
def State.arcCommand (s : State) (f : State → Byte × State) : State :=
  if s.arc.busy.isSome then s.arcStatus 6
  else
    let r := f s
    let s1 := r.2.arcStatus r.1
    { s1 with arc := { s1.arc with busy := some r.1 } }
/-- The end of an archive command. -/
def State.arcCommandEnd (s : State) : State := match s.arc.busy with
  | some c => let s1 := s.arcStatus c; { s1 with arc := { s1.arc with busy := none } }
  | none => s

/-- A context whose key may adopt: from claimed to suspended with its key loaded. -/
def Context.keyed (c : Context) : Bool :=
  c.key.isSome && (decide (c.state = .claimed) || decide (c.state = .scrubbing) || decide (c.state = .ready) || decide (c.state = .running) || decide (c.state = .suspended))

/-- ARADOPT. The block-table entry goes to the adopting context. -/
def execAradopt (port : BitVec 3) (w : BitVec 64) (s : State) : Res :=
  let n := w.toNat
  let cid := natBits n 13 8
  let baddr := natBits n 51 16 * 2 ^ 21
  s.byOwner port (s.arcCommand fun s =>
    if natBits n 15 14 ≠ 0 ∨ natBits n 63 52 ≠ 0 then (3, s)
    else if !(s.ctx cid).keyed then (1, s)
    else
      match s.arc.versions.find? fun v => decide (v.state = .unowned) && v.baddr == baddr && v.kfp == fingerprint (s.keyOf cid) with
      | none => (1, s)
      | some v =>
        if (s.l1Dead cid baddr (4 * v.npg)).isSome then (3, s.l1Report cid baddr (4 * v.npg))
        else if s.leavesFree cid baddr v.npg none then
          let s1 := s.writeLeaves cid v
          let vs := s1.arc.versions.map fun (x : Version) =>
            if x.index == v.index then { x with cid := cid, state := if x.id == v.id then .installed else x.state } else x
          (0, { s1 with arc := { s1.arc with versions := vs } })
        else (3, s))

/-- The version of a block-table entry. -/
def State.entryVersion (s : State) (idx : Nat) (p : Version → Bool) : Option Version := s.arc.versions.find? fun v => v.index == idx && p v

/-- ARPURGE. -/
def execArpurge (port : BitVec 3) (w : BitVec 64) (s : State) : Res :=
  let n := w.toNat
  s.byOwner port (s.arcCommand fun s =>
    if natBits n 15 14 ≠ 0 ∨ natBits n 63 32 ≠ 0 then (3, s)
    else
      match s.entryVersion (natBits n 31 16) fun v => decide (v.state = .unowned) with
      | none => (1, s)
      | some v => (0, (s.modVersion v.id fun v => { v with state := .superseded }).sweepRoom))

/-- ARQUERY. -/
def execArquery (port : BitVec 3) (w : BitVec 64) (s : State) : Res :=
  let n := w.toNat
  let idx := natBits n 31 16
  let put (s : State) (d0 d1 : Nat) (d2 : Word) : Byte × State :=
    (0, { s with arc := { s.arc with data0 := BitVec.ofNat 64 d0, data1 := BitVec.ofNat 64 d1, data2 := d2 } })
  s.byOwner port (s.arcCommand fun s =>
    if natBits n 15 14 ≠ 0 ∨ natBits n 63 32 ≠ 0 then (3, s)
    else
      match s.entryVersion idx Version.live, s.entryVersion idx fun v => decide (v.state = .installing) with
      | some v, i =>
        put s ((if v.state = .unowned then 4 else if v.state = .old ∨ i.isSome = true then 3 else 2) + 8 * (if v.state = .unowned then 0 else v.cid) + 2 ^ 9 * v.npg)
          (v.baddr / 2 ^ 21) v.kfp
      | none, some v => put s (1 + 8 * v.cid) (v.baddr / 2 ^ 21) v.kfp
      | none, none =>
        match s.entryVersion idx fun _ => true with
        | some v => put s 0 (v.baddr / 2 ^ 21) 0
        | none => put s 0 0 0)

end Sys2Proof.Machine
end

