-- ==== Sys2Proof/Machine/Float.lean ====
section
/-!
DEFINITION. Floating-point, narrow-format and quantising instructions (spec/14_vector_float.md R226 to R243).
-/
namespace Sys2Proof.Machine

open Sys2Proof

/-! ## Types and forms (R226, R227) -/

def tyFP (ty : Nat) : Bool := decide (8 ≤ ty ∧ ty ≤ 14)
def tyApprox (ty : Nat) : Bool := tyFP ty && decide (ty ≠ 11)
def tyQuant (ty : Nat) : Bool := decide (8 ≤ ty ∧ ty ≤ 10)

/-- Step 8 of R200 for a form of this chapter: a restored reserved value, a type not accepted, then a scalar form under f64 (R226). -/
def withFType (ok : Nat → Bool) (s : BitVec 1) (t : Strand) (f : Eff Strand) : Eff Strand :=
  withType ok t <| if s == 1#1 && decide (t.ty = 11) then .trap t (modeTrap t 3) else f

/-- The two forms of a floating instruction. `op t lane old a b l` works on w raw bits; a scalar form draws from lane 0. -/
def float3 (ok : Nat → Bool) (d a b : BitVec 6) (s x : BitVec 1) (op : Strand → Nat → Nat → Nat → Nat → Lanes → Nat × Lanes)
    (t : Strand) : Eff Strand :=
  withFType ok s t <| typed3 ok d a b s x (fun t i old a b l => op t (if s == 1#1 then 0 else laneOf t.w i) old a b l) t

/-- A rounded result: the draw of R174, RoundTo in MD.Round under MD.SAT, and the flags of the operation. -/
def rounded (t : Strand) (lane : Nat) (r : Val × BitVec 6) (l : Lanes) : Nat × Lanes :=
  let (u, l1) := l.drawIf (mdRound t.md) lane
  let (c, f) := roundTo (mdSat t.md) (mdRound t.md) t.ty r.1 u
  (c, (l1.raise r.2).raise f)

/-- An arithmetic result of decoded operands. -/
def arithOp (f : Nat → Val → Val → Val × BitVec 6) (t : Strand) (lane _ a b : Nat) (l : Lanes) : Nat × Lanes :=
  rounded t lane (f (mdRound t.md) (decodeVal t.ty a) (decodeVal t.ty b)) l

/-! ## Arithmetic (R228 to R231) -/

/-- FADD: a + b. -/
def faddE (d a b : BitVec 6) (s x : BitVec 1) : Strand → Eff Strand := float3 tyFP d a b s x (arithOp fun rm a b => a.add rm b)
def execFadd (d a b : BitVec 6) (s x : BitVec 1) (st : State) : Res := runS (faddE d a b s x) st

/-- FSUB: a - b. -/
def fsubE (d a b : BitVec 6) (s x : BitVec 1) : Strand → Eff Strand := float3 tyFP d a b s x (arithOp fun rm a b => a.add rm b.neg)
def execFsub (d a b : BitVec 6) (s x : BitVec 1) (st : State) : Res := runS (fsubE d a b s x) st

/-- The product that FMUL and FMA form: LogProduct under l6 (R228, R232). -/
def productOf (ty a b : Nat) : Val × BitVec 6 := if ty = 14 then (logProduct a b, 0) else (decodeVal ty a).mul (decodeVal ty b)

/-- FMUL: a * b, or the log product. -/
def fmulE (d a b : BitVec 6) (s x : BitVec 1) : Strand → Eff Strand :=
  float3 tyFP d a b s x (fun t lane _ a b l => rounded t lane (productOf t.ty a b) l)
def execFmul (d a b : BitVec 6) (s x : BitVec 1) (st : State) : Res := runS (fmulE d a b s x) st

/-- FDIV: a / b. -/
def fdivE (d a b : BitVec 6) (s x : BitVec 1) : Strand → Eff Strand := float3 tyFP d a b s x (arithOp fun _ a b => a.div b)
def execFdiv (d a b : BitVec 6) (s x : BitVec 1) (st : State) : Res := runS (fdivE d a b s x) st

/-- FSQRT: the square root of a. -/
def fsqrtE (d a : BitVec 6) (s : BitVec 1) : Strand → Eff Strand := float3 tyFP d a 0 s 0 (arithOp fun _ a _ => a.sqrt)
def execFsqrt (d a : BitVec 6) (s : BitVec 1) (st : State) : Res := runS (fsqrtE d a s) st

/-- x is below y, with -0 below +0 (R230). -/
def Val.below (x y : Val) : Bool :=
  match x, y with
  | .fin s 0 _, .fin t 0 _ => s && !t
  | _, _ => x.cmp y == some .lt

/-- An l6 zero is written as 0b00_0000. -/
def l6Zero (ty c : Nat) : Nat := if ty = 14 ∧ c % 32 = 0 then 0 else if ty = 14 then c % 64 else c

/-- The chosen operand of FMIN (`big` false) or FMAX, copied, or the canonical NaN (R230). -/
def pickOp (ty : Nat) (big : Bool) (a b : Nat) : Nat × BitVec 6 :=
  let x := decodeVal ty a
  let y := decodeVal ty b
  if x.isNan || y.isNan then (canonicalNan ty, if x.isSig || y.isSig then fNV else 0)
  else (l6Zero ty (if big then (if x.below y then b else a) else (if y.below x then b else a)), 0)

/-- FMIN. -/
def fminE (d a b : BitVec 6) (s x : BitVec 1) : Strand → Eff Strand :=
  float3 tyFP d a b s x (fun t _ _ a b l => let r := pickOp t.ty false a b; (r.1, l.raise r.2))
def execFmin (d a b : BitVec 6) (s x : BitVec 1) (st : State) : Res := runS (fminE d a b s x) st

/-- FMAX. -/
def fmaxE (d a b : BitVec 6) (s x : BitVec 1) : Strand → Eff Strand :=
  float3 tyFP d a b s x (fun t _ _ a b l => let r := pickOp t.ty true a b; (r.1, l.raise r.2))
def execFmax (d a b : BitVec 6) (s x : BitVec 1) (st : State) : Res := runS (fmaxE d a b s x) st

/-- The sign bit of an element (R231). -/
def signBit (ty : Nat) : Nat := if ty = 14 then 5 else tyWidth ty - 1

/-- FABS: the sign bit cleared. -/
def fabsE (d a : BitVec 6) (s : BitVec 1) : Strand → Eff Strand :=
  float3 tyFP d a 0 s 0 (fun t _ _ a _ l => (l6Zero t.ty (if natBit a (signBit t.ty) then a - 2 ^ signBit t.ty else a), l))
def execFabs (d a : BitVec 6) (s : BitVec 1) (st : State) : Res := runS (fabsE d a s) st

/-- FNEG: the sign bit inverted. -/
def fnegE (d a : BitVec 6) (s : BitVec 1) : Strand → Eff Strand :=
  float3 tyFP d a 0 s 0 (fun t _ _ a _ l => (l6Zero t.ty (a ^^^ 2 ^ signBit t.ty), l))
def execFneg (d a : BitVec 6) (s : BitVec 1) (st : State) : Res := runS (fnegE d a s) st

/-! ## Approximate functions (R233, R234) -/

/-- An approximate function: it reads no Round and never draws. -/
def approxForm (op : Nat) (d a : BitVec 6) (s : BitVec 1) : Strand → Eff Strand :=
  float3 tyApprox d a 0 s 0 (fun t _ _ a _ l => let r := approxOp op (mdSat t.md) t.ty a; (r.1, l.raise r.2))

/-- FRCP. -/
def frcpE (d a : BitVec 6) (s : BitVec 1) : Strand → Eff Strand := approxForm 0 d a s
def execFrcp (d a : BitVec 6) (s : BitVec 1) (st : State) : Res := runS (frcpE d a s) st

/-- FRSQ. -/
def frsqE (d a : BitVec 6) (s : BitVec 1) : Strand → Eff Strand := approxForm 1 d a s
def execFrsq (d a : BitVec 6) (s : BitVec 1) (st : State) : Res := runS (frsqE d a s) st

/-- FEXP2. -/
def fexp2E (d a : BitVec 6) (s : BitVec 1) : Strand → Eff Strand := approxForm 2 d a s
def execFexp2 (d a : BitVec 6) (s : BitVec 1) (st : State) : Res := runS (fexp2E d a s) st

/-- FLOG2. -/
def flog2E (d a : BitVec 6) (s : BitVec 1) : Strand → Eff Strand := approxForm 3 d a s
def execFlog2 (d a : BitVec 6) (s : BitVec 1) (st : State) : Res := runS (flog2E d a s) st

/-- FTANH. -/
def ftanhE (d a : BitVec 6) (s : BitVec 1) : Strand → Eff Strand := approxForm 4 d a s
def execFtanh (d a : BitVec 6) (s : BitVec 1) (st : State) : Res := runS (ftanhE d a s) st

/-! ## Fused multiply-add (R232) -/

/-- `(-1)^np * p + (-1)^nd * d`, rounded once. -/
def fusedOp (np nd : Bool) (t : Strand) (lane old a b : Nat) (l : Lanes) : Nat × Lanes :=
  let p := productOf t.ty a b
  let dv := decodeVal t.ty old
  let r := (if np then p.1.neg else p.1).add (mdRound t.md) (if nd then dv.neg else dv)
  rounded t lane (r.1, p.2 ||| r.2) l

/-- FMA: p + d. -/
def fmaE (d a b : BitVec 6) (s x : BitVec 1) : Strand → Eff Strand := float3 tyFP d a b s x (fusedOp false false)
def execFma (d a b : BitVec 6) (s x : BitVec 1) (st : State) : Res := runS (fmaE d a b s x) st

/-- FMS: p - d. -/
def fmsE (d a b : BitVec 6) (s x : BitVec 1) : Strand → Eff Strand := float3 tyFP d a b s x (fusedOp false true)
def execFms (d a b : BitVec 6) (s x : BitVec 1) (st : State) : Res := runS (fmsE d a b s x) st

/-- FNMA: -p + d. -/
def fnmaE (d a b : BitVec 6) (s x : BitVec 1) : Strand → Eff Strand := float3 tyFP d a b s x (fusedOp true false)
def execFnma (d a b : BitVec 6) (s x : BitVec 1) (st : State) : Res := runS (fnmaE d a b s x) st

/-- FNMS: -p - d. -/
def fnmsE (d a b : BitVec 6) (s x : BitVec 1) : Strand → Eff Strand := float3 tyFP d a b s x (fusedOp true true)
def execFnms (d a b : BitVec 6) (s x : BitVec 1) (st : State) : Res := runS (fnmsE d a b s x) st

/-! ## Compares and classification (R235, R236) -/

/-- A floating compare: the value for an unordered pair, and whether any NaN sets NV. -/
def fcmpForm (p : Ordering → Bool) (unordered anyNan : Bool) (d a b : BitVec 6) (s x : BitVec 1) (t : Strand) : Eff Strand :=
  withFType tyFP s t <| cmpForm tyFP d a b s x (fun t a b l =>
    let u := decodeVal t.ty a
    let v := decodeVal t.ty b
    match u.cmp v with
    | some o => (p o, l)
    | none => (unordered, l.raiseIf (anyNan || u.isSig || v.isSig) fNV)) t

/-- FCEQ. -/
def fceqE (d a b : BitVec 6) (s x : BitVec 1) : Strand → Eff Strand := fcmpForm (· == .eq) false false d a b s x
def execFceq (d a b : BitVec 6) (s x : BitVec 1) (st : State) : Res := runS (fceqE d a b s x) st

/-- FCNE. -/
def fcneE (d a b : BitVec 6) (s x : BitVec 1) : Strand → Eff Strand := fcmpForm (· != .eq) true false d a b s x
def execFcne (d a b : BitVec 6) (s x : BitVec 1) (st : State) : Res := runS (fcneE d a b s x) st

/-- FCLT. -/
def fcltE (d a b : BitVec 6) (s x : BitVec 1) : Strand → Eff Strand := fcmpForm (· == .lt) false true d a b s x
def execFclt (d a b : BitVec 6) (s x : BitVec 1) (st : State) : Res := runS (fcltE d a b s x) st

/-- FCLE. -/
def fcleE (d a b : BitVec 6) (s x : BitVec 1) : Strand → Eff Strand := fcmpForm (· != .gt) false true d a b s x
def execFcle (d a b : BitVec 6) (s x : BitVec 1) (st : State) : Res := runS (fcleE d a b s x) st

/-- FCUN. -/
def fcunE (d a b : BitVec 6) (s x : BitVec 1) : Strand → Eff Strand := fcmpForm (fun _ => false) true false d a b s x
def execFcun (d a b : BitVec 6) (s x : BitVec 1) (st : State) : Res := runS (fcunE d a b s x) st

/-- The class code of R236. -/
def classCode (ty n : Nat) : Nat :=
  match decodeVal ty n with
  | .nan g => if g then 8 else 9
  | .inf s => if s then 0 else 7
  | .fin s m _ =>
    if m = 0 then (if s then 3 else 4)
    else
      let sub := decide (ty ≠ 14) && decide (n % 2 ^ (tyWidth ty - 1) < 2 ^ mBits ty)
      if s then (if sub then 2 else 1) else (if sub then 5 else 6)

/-- FCLASS. -/
def fclassE (d a : BitVec 6) (s : BitVec 1) : Strand → Eff Strand := float3 tyFP d a 0 s 0 (fun t _ _ a _ l => (classCode t.ty a, l))
def execFclass (d a : BitVec 6) (s : BitVec 1) (st : State) : Res := runS (fclassE d a s) st

/-! ## Conversions (R237, R238) -/

/-- One conversion of an element, with its draw. -/
def convertOp (t : Strand) (dst lane n : Nat) (l : Lanes) : Nat × Lanes :=
  let (u, l1) := l.drawIf (mdRound t.md) lane
  let (c, f) := convert (mdSat t.md) (mdRound t.md) t.ty dst n u
  (c, l1.raise f)

/-- CVT: f64 is no destination (detail 3); the shape may not exceed the capacity of the destination. -/
def cvtE (d a : BitVec 6) (y : BitVec 5) (s : BitVec 1) (t : Strand) : Eff Strand :=
  let dst := y.toNat
  withFType tyAny s t <|
    if dst = 11 then .trap t (modeTrap t 3)
    else if s == 1#1 then
      let (c, l) := convertOp t dst 0 ((t.x a).toNat % 2 ^ t.w) { flags := 0, gens := t.gens }
      .done { (t.setX d (extScalar dst c)).flag l.flags with gens := l.gens }
    else withShape t <|
      if mdSh t.md ∧ tyCap dst < t.el then .trap t (shapeTrap t)
      else
        let (v, l) := elemLoop (tyWidth dst) t.active (fun i l => convertOp t dst (laneOf t.w i) (elem t.w (t.vreg a) i) l)
          (Nat.min t.el (tyCap dst)) 0 (t.vreg d) { flags := 0, gens := t.gens }
        .done { (t.setV d v).flag l.flags with gens := l.gens }
def execCvt (d a : BitVec 6) (y : BitVec 5) (s : BitVec 1) (st : State) : Res := runS (cvtE d a y s) st

/-- An element rounded to an integral value of its own format (R238). -/
def rintOp (t : Strand) (lane _ a _ : Nat) (l : Lanes) : Nat × Lanes :=
  let (u, l1) := l.drawIf (mdRound t.md) lane
  match decodeVal t.ty a with
  | .nan g => (canonicalNan t.ty, l1.raiseIf g fNV)
  | .inf _ => (a, l1)
  | .fin s n e =>
    if n = 0 ∨ 0 ≤ e then (a, l1)
    else
      let (k, nx) := roundAt (mdRound t.md) s n e 0 u
      let (c, f) := roundTo (mdSat t.md) 0 t.ty (.fin s k 0) 0
      (c, (l1.raiseIf nx fNX).raise f)

/-- RINT. -/
def rintE (d a : BitVec 6) (s : BitVec 1) : Strand → Eff Strand := float3 tyFloat d a 0 s 0 rintOp
def execRint (d a : BitVec 6) (s : BitVec 1) (st : State) : Res := runS (rintE d a s) st

/-! ## Floating reductions (R239, R182) -/

/-- The result format of FRSUM. -/
def sumType (ty : Nat) : Nat := if ty = 11 then 11 else 10

/-- FRSUM: the fixed tree, every combining node rounded; node i draws from lane i mod 32. -/
def frsumE (d a : BitVec 6) (t : Strand) : Eff Strand :=
  withType tyFP t <| withShape t <|
    let ft := sumType t.ty
    let rm := mdRound t.md
    let (root, l) := treeReduce (fun i (x y : Val) (l : Lanes) =>
      let (u, l1) := l.drawIf rm (i % 32)
      let s := x.add rm y
      let (c, f) := roundTo (mdSat t.md) rm ft s.1 u
      (decodeVal ft c, (l1.raise s.2).raise f)) 10 ((t.leaves a).map fun o => o.map fun n => decodeVal t.ty n) { flags := 0, gens := t.gens }
    let (c, f) := roundTo (mdSat t.md) 0 ft (root.getD .zero) 0
    .done { (t.setX d (BitVec.ofNat 64 c)).flag (l.flags ||| f) with gens := l.gens }
def execFrsum (d a : BitVec 6) (st : State) : Res := runS (frsumE d a) st

/-- The identity of FRMIN, and with the sign of FRMAX. -/
def redIdent (ty : Nat) (big : Bool) : Nat :=
  (if ty = 14 then 31 else if ty = 12 then 0x7E else maxCode ty + 1) + (if big then 2 ^ signBit ty else 0)

/-- FRMIN and FRMAX: the fixed tree over pickOp; a leaf that reaches the root uncombined is normalised. -/
def fpickE (big : Bool) (d a : BitVec 6) (t : Strand) : Eff Strand :=
  withType tyFP t <| withShape t <|
    let (root, l) := treeReduce (fun _ (x y : Nat) (l : Lanes) => let r := pickOp t.ty big x y; (r.1, l.raise r.2)) 10 (t.leaves a)
      { flags := 0, gens := t.gens }
    let r := match root with
      | none => (redIdent t.ty big, 0)
      | some c => pickOp t.ty big c c
    .done ((t.setX d (extScalar t.ty r.1)).flag (l.flags ||| r.2))

/-- FRMIN. -/
def frminE (d a : BitVec 6) (t : Strand) : Eff Strand := fpickE false d a t
def execFrmin (d a : BitVec 6) (st : State) : Res := runS (frminE d a) st

/-- FRMAX. -/
def frmaxE (d a : BitVec 6) (t : Strand) : Eff Strand := fpickE true d a t
def execFrmax (d a : BitVec 6) (st : State) : Res := runS (frmaxE d a) st

/-! ## The quantiser (R240 to R243) -/

/-- Check PW (R240): the narrow format, or the quantiser trap. -/
def withPw (b : BitVec 6) (t : Strand) (f : Nat → BitVec 8 → Eff Strand) : Eff Strand :=
  let pw := t.x b
  let fq := natBits pw.toNat 4 0
  if fq < 12 ∨ 15 < fq ∨ natBits pw.toNat 7 5 ≠ 0 ∨ natBits pw.toNat 63 16 ≠ 0 then .trap t (trapOf 0x02 4 pw)
  else f fq (pw.extractLsb' 8 8)

/-- The block code of element `i` in a scale register. -/
def scaleCode (v : VReg) (i : Nat) : Nat := elem 8 v (64 + i / 32)

/-- QSCALE: bytes 0 to 79 of vD. -/
def qscaleE (d a b : BitVec 6) (t : Strand) : Eff Strand :=
  withType tyQuant t <| withPw b t fun fq sb => withShape t <|
    let blocks := (t.el + 31) / 32
    let code (k : Nat) : Nat := quantSearch fq sb ((List.range 32).map fun j =>
      if t.active (32 * k + j) then decodeVal t.ty (elem t.w (t.vreg a) (32 * k + j)) else .zero)
    let base : VReg := (((t.vreg d).extractLsb' 640 7552) ++ (0#576 : BitVec 576)) ++ t.x b
    .done (t.setV d ((List.range blocks).foldl (fun v k => setElem 8 v (64 + k) (code k)) base))
def execQscale (d a b : BitVec 6) (st : State) : Res := runS (qscaleE d a b) st

/-- QPACK: a narrow code in byte i of vD for each active element. -/
def qpackE (d a b : BitVec 6) (t : Strand) : Eff Strand :=
  withType tyQuant t <| withPw b t fun fq sb => withShape t <|
    let (v, l) := elemLoop 8 t.active (fun i l =>
      let (u, l1) := l.drawIf (mdRound t.md) (laneOf t.w i)
      let e := scaleCode (t.vreg b) i
      let (c, f) := if e = 0xFF then nanBlockCode fq
        else quantise (mdRound t.md) fq ((decodeVal t.ty (elem t.w (t.vreg a) i)).scale (-(blockExp e sb))) u
      (c, l1.raise f)) t.el 0 (t.vreg d) { flags := 0, gens := t.gens }
    .done { (t.setV d v).flag l.flags with gens := l.gens }
def execQpack (d a b : BitVec 6) (st : State) : Res := runS (qpackE d a b) st

/-- QUNPK: the decoded narrow codes of vA, rounded to MD.Type. A signalling NaN code of a NaN block is read as a quiet one (DESIGN CHOICE,
notes/assumptions/120.md). -/
def qunpkE (d a b : BitVec 6) (t : Strand) : Eff Strand :=
  withType tyQuant t <| withPw b t fun fq sb => withShape t <|
    let (v, l) := elemLoop t.w t.active (fun i l =>
      let (u, l1) := l.drawIf (mdRound t.md) (laneOf t.w i)
      let e := scaleCode (t.vreg b) i
      let code := elem 8 (t.vreg a) i
      let x := if e = 0xFF then Val.nan false else (decodeVal fq code).scale (blockExp e sb)
      let (c, f) := roundTo (mdSat t.md) (mdRound t.md) t.ty x u
      (c, (l1.raise (readFlag fq code)).raise f)) t.el 0 (t.vreg d) { flags := 0, gens := t.gens }
    .done { (t.setV d v).flag l.flags with gens := l.gens }
def execQunpk (d a b : BitVec 6) (st : State) : Res := runS (qunpkE d a b) st

end Sys2Proof.Machine
end

