-- ==== Sys2Proof/Machine/Fetch.lean ====
section
/-!
DEFINITION. Fetching the words of a strand, and its instruction buffer (R201, R93).
-/
namespace Sys2Proof.Machine

open Sys2Proof

/-- What the fetch of one word gives: the word, a fault at its address, or a sector that cannot be corrected (R380). -/
inductive Fetched where
  | word (w : BitVec 32)
  | fault (f : AccFault)
  | dead (va : Word)
  /-- A row instruction, a bank or a link holds the word: the strand does not issue now (R160, R383, R385, R411). -/
  | held
  deriving DecidableEq, Repr

/-- The buffered words of an address. -/
def Strand.heldWords (t : Strand) (va : Nat) : List (BitVec 32) := (t.ibuf.filter fun e => e.1 == va).map fun e => e.2

/-- The word that issues: memory's, or one that the buffer may hold since its last refill (R201). -/
def pickWord (n : Nat) (m : BitVec 32) : List (BitVec 32) → BitVec 32
  | [] => m
  | w :: ws => if w ≠ m ∧ Config.freeBool n = true then w else pickWord (n + 1) m ws

/-- Fetch the word at an address for a strand, at device scope. Where translation fails, a word that the buffer already holds may issue in
the fault's place. -/
def State.fetchWord (s : State) (g : Group) (t : Strand) (va : Word) : Fetched × State :=
  let held := t.heldWords va.toNat
  match s.locate (.core g.core) g.cid va .fetch with
  | (.ok pa, s1) =>
    if s1.spanHeld pa 4 || s1.trafficPaused pa || (s1.bankWaits s1.fresh pa && !s1.askServed (.code g.uid va.toNat)) then
      (match held with
       | w :: _ => (if Config.freeBool s1.fresh then .word w else .held, s1.tick)
       | [] => (.held, s1))
    else if s1.uncorrectable pa then (.dead va, s1)
    else
      let (bs, s2) := (s1.cacheSpan (.code (l2DieOf g.core) s1.fresh) g.cid 0 pa 4).readPlace g 0 false (.phys pa) 4
      let m := BitVec.ofNat 32 (leNat bs)
      let s3 := s2.countUnsealed g.cid (.phys pa)
      if held.all fun w => w == m then (.word m, s3)
      else (.word (pickWord s3.fresh m held), { s3 with fresh := s3.fresh + held.length })
  | (x, s1) =>
    match held with
    | w :: _ => if Config.freeBool s1.fresh then (.word w, s1.tick) else (.fault { va := va, kind := .fetch, what := x }, s1.tick)
    | [] => (.fault { va := va, kind := .fetch, what := x }, s1)

/-- The physical address that memory's tables give a fetch, with no effect. -/
def State.peekFetch (s : State) (cid va : Nat) : Option Nat :=
  match s.walk cid va with
  | .leaf e lv _ => (match s.leafOutcome cid e lv va .fetch with | .ok pa => some pa | _ => none)
  | _ => none

/-- The words that a run-ahead fetch may hold: `n` words from `va`, each with its address; a page is translated once. No word that a row, a bank
or a link holds, and none of another module, is among them. -/
def State.aheadWords (s : State) (cid : Nat) (page : Option Nat) (va : Nat) : Nat → List (Nat × BitVec 32)
  | 0 => []
  | n + 1 =>
    let p := if va % 4096 = 0 then s.peekFetch cid va else page
    match p with
    | none => s.aheadWords cid p (va + 4) n
    | some q =>
      let pa := q / 4096 * 4096 + va % 4096
      if s.rowHeld pa || (remoteOf s pa).isSome || s.bankWaits s.fresh pa || s.trafficPaused pa then s.aheadWords cid p (va + 4) n
      else (va, BitVec.ofNat 32 (leNat (s.readBytes (s.keyOf cid) 0 pa 4))) :: s.aheadWords cid p (va + 4) n

/-- Add a word that the buffer may hold. -/
def addHeld (l : List (Nat × BitVec 32)) (e : Nat × BitVec 32) : List (Nat × BitVec 32) := if l.contains e then l else l ++ [e]

/-- The buffer of a strand fetches up to 64 bytes ahead of its PC (R201): words at addresses it has passed are dropped. -/
def State.topUp (s : State) (uid k : Nat) : State :=
  match s.group? uid with
  | none => s
  | some g =>
    s.modStrand uid k fun t =>
      let lo := t.pc.toNat
      let ws := if lo < 2 ^ 57 ∧ decide (t.status = .ended) = false then s.aheadWords g.cid (s.peekFetch g.cid lo) lo 17 else []
      { t with ibuf := ws.foldl addHeld (t.ibuf.filter fun e => decide (lo ≤ e.1) && decide (e.1 ≤ lo + 64)) }

end Sys2Proof.Machine
end

