-- ==== Sys2Proof/Machine/System.lean ====
section
/-!
DEFINITION. System, trap and debug instructions (spec/20_system_instructions.md R330 to R351): the system registers, TRAP and TRET, the
debugger's breakpoint, ENQ, the dirty map, IDLE, and the instructions that edit a context's own mappings.
-/
namespace Sys2Proof.Machine

open Sys2Proof

/-- The privilege trap. -/
def privTrap (detail : BitVec 4) (v : Nat) : Trap := trapOf 0x03 detail (BitVec.ofNat 64 v)
/-- The system-operand trap. -/
def sysTrap (v : Word) : Trap := trapOf 0x1B 0 v

/-- ILLEGAL_INSTRUCTION: a word that does not decode (R199, R334). -/
def execIllegalInstruction (detail : BitVec 4) (tval : BitVec 64) (st : State) : Res :=
  runM (fun _ _ _ _ s => .trap s (trapOf 0x01 detail tval)) st

/-! ## System registers (R338, R339) -/

def tvecMask : Word := 0x01FFFFFFFFFFFFFC
def cqbMask : Word := 0x83FF

/-- Grid coordinates and stage of a group (R75, R84). -/
def gposWord (g : Group) (k : Kernel) : Word :=
  BitVec.ofNat 64 (g.l % k.gx + 2 ^ 16 * (g.l / k.gx % k.gy) + 2 ^ 32 * (g.l / (k.gx * k.gy) % k.gz) + 2 ^ 48 * (g.l / (k.gx * k.gy * k.gz)))
def gdimWord (k : Kernel) : Word := BitVec.ofNat 64 (k.gx + 2 ^ 16 * k.gy + 2 ^ 32 * k.gz + 2 ^ 48 * k.stgm1)
/-- Strand number, strands, class and core number. -/
def gselfWord (g : Group) (n : Nat) : Word :=
  BitVec.ofNat 64 (n + 2 ^ 3 * (g.strands.length - 1) + 2 ^ 6 * (isStackCore g.core).toNat + 2 ^ 8 * (if g.core < 96 then g.core else g.core - 96))

/-- The compute die whose last-level cache LLHIT and LLMISS of a core report. A base die has none of its own: DESIGN CHOICE,
notes/assumptions/88.md. -/
def cacheDie (entry : Nat) : Nat := if isStackCore entry then (dieOf entry - 8) / 2 else dieOf entry

/-- The value of a system register. -/
def sysRead (s : State) (k : Nat) (g : Group) (t : Strand) (n : Nat) : Word :=
  let kr (f : Kernel → Word) : Word := match s.kernel? g.kuid with
    | some q => f q
    | none => 0
  match n with
  | 0x000 => t.tvec
  | 0x001 => t.tpc
  | 0x002 => t.tcause
  | 0x003 => t.tval
  | 0x004 => t.tscr
  | 0x005 => BitVec.ofNat 64 t.h.toNat
  | 0x010 => BitVec.ofNat 64 g.cid
  | 0x011 => (s.ctx g.cid).wq.signExtend 64
  | 0x012 => (s.ctx g.cid).ffln.setWidth 64
  | 0x018 => kr (gposWord g)
  | 0x019 => kr gdimWord
  | 0x01A => gselfWord g k
  | 0x020 => wordAt g.cqb 0
  | 0x021 => wordAt g.cqb 1
  | 0x022 => wordAt g.cqb 2
  | 0x023 => wordAt g.cqb 3
  | 0x030 => g.cycle
  | 0x040 => wordAt (s.ctx g.cid).llhit (cacheDie g.core)
  | 0x041 => wordAt (s.ctx g.cid).llmiss (cacheDie g.core)
  | _ => 0

/-- An allocated system register (R338). -/
def sysregBad (n : BitVec 10) : Bool := !sysregOk n

/-- SRD. -/
def srdE (d : BitVec 6) (n : BitVec 10) (uid k : Nat) (g : Group) (t : Strand) (s : State) : Eff State :=
  if sysregBad n then .trap s (trapOf 0x01 4 ((encode (.srd d n)).setWidth 64))
  else .done (s.modStrand uid k fun u => u.setX d (sysRead s k g t n.toNat))
def execSrd (d : BitVec 6) (n : BitVec 10) (st : State) : Res := runM (srdE d n) st

/-- A read-only register. -/
def sysRo (n : Nat) : Bool := decide (n = 5) || decide (0x10 ≤ n ∧ n ≤ 0x1A) || decide (0x30 ≤ n)

/-- SWR. -/
def swrE (a : BitVec 6) (n : BitVec 10) (uid k : Nat) (g : Group) (t : Strand) (s : State) : Eff State :=
  let v := t.x a
  let set (f : Strand → Strand) : Eff State := .done (s.modStrand uid k f)
  if sysregBad n then .trap s (trapOf 0x01 4 ((encode (.swr a n)).setWidth 64))
  else if sysRo n.toNat then .trap s (privTrap 2 n.toNat)
  else if 1 ≤ n.toNat ∧ n.toNat ≤ 3 ∧ t.h = false then .trap s (privTrap 3 n.toNat)
  else
    match n.toNat with
    | 0 => set fun t => { t with tvec := v &&& tvecMask }
    | 1 => set fun t => { t with tpc := v }
    | 2 => set fun t => { t with tcause := v &&& 0x7FFF }
    | 3 => set fun t => { t with tval := v }
    | 4 => set fun t => { t with tscr := v }
    | q =>
      if v.getLsbD 15 = true ∧ 16 * (s.ctx g.cid).ba.toNat ≤ natBits v.toNat 9 0 then .trap s (trapOf 0x10 0 (BitVec.ofNat 64 (natBits v.toNat 9 0)))
      else .done (s.modGroup uid fun g => { g with cqb := g.cqb.set (q - 0x20) (v &&& cqbMask) })
def execSwr (a : BitVec 6) (n : BitVec 10) (st : State) : Res := runM (swrE a n) st

/-! ## Traps, return, breakpoints (R341, R342) -/

/-- TRAP. -/
def execTrap (c : BitVec 10) (st : State) : Res := runM (fun _ _ _ _ s => .trapNext s (trapOf 0x19 0 (c.setWidth 64))) st

/-- TRET. -/
def tretE (uid k : Nat) (_ : Group) (t : Strand) (s : State) : Eff State :=
  if t.h = false then .trap s (privTrap 1 0)
  else
    let s1 := s.modStrand uid k Strand.leave
    .settled (if badTarget t.tpc then s1.takeTrap uid k (trapOf 0x06 1 t.tpc) t.tpc else s1)
def execTret (st : State) : Res := runM tretE st

/-- BRK. -/
def execBrk (c : BitVec 9) (st : State) : Res := runM (fun _ _ _ _ s => .trap s (trapOf 0x1A 0 (c.setWidth 64))) st

/-- A pre-emption of a resident group is requested (R90): no strand of it issues again. One requested for another kernel becomes one for
SUSPEND or KHOLD (R96). -/
def State.requestSave (s : State) (uid : Nat) (reason : BitVec 2) : State :=
  s.modGroup uid fun g =>
    if g.stage = .resident then { g with stage := .stopping, reason := reason }
    else if g.stage = .stopping ∧ g.reason = 0 ∧ reason = 3 then { g with reason := 3 }
    else g

/-- BRK.dbg: the group halts as under GHALT with PC at the BRK, and the owner hears of it. -/
def brkDbgE (uid _k : Nat) (g : Group) (_ : Strand) (s : State) : Eff State :=
  let kr := s.kernel? g.kuid
  let s1 := (s.requestSave uid 2).modGroup uid fun g => { g with halt := true }
  .settled (s1.postOwner (eventRec 0x05 g.cid (BitVec.ofNat 64 g.l) (BitVec.ofNat 64 (match kr with | some q => q.qid | none => 0))
    (match kr with | some q => q.tag.setWidth 64 | none => 0)))
def execBrkDbg (_c : BitVec 9) (st : State) : Res := runM brkDbgE st

/-! ## ENQ (R343) -/

/-- The status with which a queue refuses a record of a context; 0 where it takes it (R63). -/
def State.enqStatus (s : State) (cid qid : Nat) : Nat :=
  let q := s.queue qid
  if q.state = .unbound ∨ q.feed ≠ 8 ∨ q.cid ≠ cid then 3
  else if q.state ≠ .active ∧ q.state ≠ .stopped then 2
  else if (q.tail - q.head).toNat = 2 ^ q.log2n then 1
  else 0

/-- The virtual address of the ring slot of a record number. -/
def Queue.slotVa (q : Queue) (n : BitVec 32) : Nat := q.base.toNat + 128 * (n.toNat % 2 ^ q.log2n)

/-- ENQ: the record and the ring slot are located; the copy and the commit follow. -/
def enqE (d a : BitVec 6) (uid k : Nat) (g : Group) (t : Strand) (s : State) : Eff State :=
  let qid := natBits (t.x d).toNat 7 0
  match s.locateEl (.core g.core) g.cid .read 128 (t.x a) with
  | (.error f, s1) => s1.strandFault uid k g f none
  | (.ok pa, s1) =>
    let q := s1.queue qid
    let issue (ring : Place) (wr : List Range) (s : State) : Eff State :=
      .done ((s.pushOp uid k g.cid Way.enq (.enq qid (.phys pa) q.tail ring d) (rangesOf (.virt g.cid) 128 [(t.x a).toNat]) wr []).modStrand uid k
        fun t => { t.mark d with ks := t.ks + 1 })
    if s1.enqStatus g.cid qid ≠ 0 then issue (.buf .w 0) [] s1
    else
      match s1.locateEl (.core g.core) g.cid .write 128 (BitVec.ofNat 64 (q.slotVa q.tail)) with
      | (.error f, s2) => s2.strandFault uid k g f none
      | (.ok ring, s2) => issue (.phys ring) (rangesOf (.virt g.cid) 128 [q.slotVa q.tail]) s2
def execEnq (d a : BitVec 6) (st : State) : Res := runM (enqE d a) st

/-- The place of the ring slot at commit: the one located at issue, unless the queue refused the record then (no place was located) or has
moved on since. A fault there is that of the ring write (R343). -/
def State.enqSlot (s : State) (g : Group) (qid : Nat) (slot : BitVec 32) (ring : Place) : Except AccFault Place × State :=
  let q := s.queue qid
  if q.tail = slot ∧ ring ≠ .buf .w 0 then (.ok ring, s)
  else
    match s.locateEl (.core g.core) g.cid .write 128 (BitVec.ofNat 64 (q.slotVa q.tail)) with
    | (.ok pa, s1) => (.ok (.phys pa), s1)
    | (.error f, s1) => (.error f, s1)

/-- A place that a row, a bank or a link holds. -/
def State.locWaits (s : State) (loc : Place) (n : Nat) : Bool := match loc with
  | .phys pa => s.placeWaits pa n
  | .buf _ _ => false

/-- ENQ_COMMIT: the record is read and written to the ring slot, then TAIL moves; a refused ENQ writes nothing. A fault on the ring write that shows
only now follows R246, as does the loss of the link that carries the record (R412), and ENQ replays whole; a slot that no link reaches is lost as a store is
(notes/assumptions/97.md). -/
def execEnqCommit (i : Nat) (s : State) : Res :=
  opStep i (fun s o =>
    match o.work, s.group? o.guid with
    | .enq qid loc slot ring d, some g =>
      let va := o.rd.foldl (fun (_ : Nat) (r : Range) => r.lo) 0
      let fin (s : State) (status : Nat) (tail : BitVec 32) : State :=
        ((s.modStrand o.guid o.strand fun t =>
          (t.put { loc := loc, va := va, bytes := 8, shift := 0, width := 64, out := 64, sx := false, dst := .scalar d.toNat } (status + 2 ^ 32 * tail.toNat)).fallS)).dropOp i
      let late (s : State) (f : AccFault) : State := ((s.modStrand o.guid o.strand Strand.fallS).dropOp i).lateFault o f fun t => t.vs
      if s.badPlace loc 128 then some ((s.dropOp i).fatalTrap o.guid o.strand (errorTrap (BitVec.ofNat 64 va)))
      else
        let c := s.enqStatus o.cid qid
        if c ≠ 0 then some (fin s c 0)
        else if s.placeLost loc then some (late s (lostFault va .read))
        else
          match s.enqSlot g qid slot ring with
          | (.error f, s1) => some (late s1 f)
          | (.ok place, s1) =>
            if s1.locWaits place 128 then none
            else
              let (bs, s2) := ((s1.cacheWork o).countUnsealed o.cid loc).readPlace g 0 false loc 128
              let s3 := (if s2.placeLost place then s2.lostStore o.cid ((s2.queue qid).slotVa (s2.queue qid).tail) else s2).writePlace g 0 place bs
              some (fin (s3.modQueue qid fun q => { q with tail := q.tail + 1 }) 0 (s2.queue qid).tail)
    | _, _ => none) s

/-! ## The dirty map, IDLE (R344, R345) -/

/-- DMRD. -/
def execDmrd (d : BitVec 6) (st : State) : Res := runS (fun t => .done (t.setX d (t.dm.setWidth 64))) st
/-- DMCLR. -/
def execDmclr (a : BitVec 6) (st : State) : Res := runS (fun t => .done { t with dm := t.dm &&& ~~~((t.x a).extractLsb' 0 48) }) st

/-- Plain IDLE. -/
def execIdle (st : State) : Res :=
  runM (fun uid k _ _ s => .settled (s.modStrand uid k fun t => { t with status := .waiting (.idle false) })) st

/-- IDLE.end. -/
def execIdleEnd (st : State) : Res :=
  runM (fun uid k _ t s => if t.h then .trap s (privTrap 4 0) else .settled (s.endStrand uid k)) st

/-! ## Invalidations (R347, R351, R370) -/

/-- A strand waits for an invalidation. -/
def State.startInval (s : State) (uid k cid : Nat) (page : Option Nat) (llc : Bool) : State :=
  (s.pushOp uid k cid Way.group (.inval page llc) [] [] []).modStrand uid k fun t => { t with status := .waiting (.inval s.fresh) }

/-- TINV. -/
def tinvE (a : BitVec 6) (uid k : Nat) (g : Group) (t : Strand) (s : State) : Eff State :=
  let xa := t.x a
  if natBits xa.toNat 63 57 ≠ 0 ∨ natBits xa.toNat 11 1 ≠ 0 then .trap s (sysTrap xa)
  else .settled (s.startInval uid k g.cid (if xa.getLsbD 0 then none else some (xa.toNat / 4096)) false)
def execTinv (a : BitVec 6) (st : State) : Res := runM (tinvE a) st

/-- The frames of the DRAM and POOL pages that the tables name in the 2 MiB region at `base`; every other page is skipped (R351). -/
def State.regionFrames (s : State) (cid base : Nat) : List Nat :=
  (List.range 512).filterMap fun j => match s.walk cid (base + 4096 * j) with
    | .leaf e lv _ => if pteTier e < 2 then some ((pteAddr e + (base + 4096 * j) % (if lv = 2 then 2 ^ 21 else 2 ^ 12)) / 4096) else none
    | _ => none

/-- LLCFL: the last-level caches lose the context's lines, those of the region's frames or all of them; no value changes (R351). -/
def llcflE (a : BitVec 6) (uid k : Nat) (g : Group) (t : Strand) (s : State) : Eff State :=
  let xa := t.x a
  if natBits xa.toNat 63 57 ≠ 0 ∨ natBits xa.toNat 20 1 ≠ 0 then .trap s (sysTrap xa)
  else
    let frames := s.regionFrames g.cid xa.toNat
    .settled ((s.dropLines fun l => l.cid == g.cid && (xa.getLsbD 0 || frames.contains (l.line / 32))).startInval uid k g.cid none true)
def execLlcfl (a : BitVec 6) (st : State) : Res := runM (llcflE a) st

/-- The entries that an invalidation drops. -/
def State.dropInval (s : State) (cid : Nat) (page : Option Nat) (llc : Bool) : State :=
  if llc then s
  else
    match page with
    | none => s.invalAll cid
    | some p => s.invalPage cid (p * 4096) everyDie

/-- INVALIDATION_COMPLETE: the entries are dropped on every die; the strand goes on, or PSSTAT is written. -/
def execInvalidationComplete (i : Nat) (s : State) : Res :=
  match s.op? i with
  | none => .next s
  | some o =>
    match o.work with
    | .inval page llc =>
      let s1 := (s.dropInval o.cid page llc).dropOp i
      if s.mmu.psCmd = some i then .next { s1 with mmu := { s1.mmu with psCmd := none, psStat := 0 } }
      else .next (s1.modStrand o.guid o.strand fun t => if t.status = .waiting (.inval i) then t.resume else t)
    | _ => .next s

/-! ## Mappings (R348 to R350) -/

/-- The system-operand check of a page address. -/
def badPage (a : Word) : Bool := a.extractLsb' 57 7 != 0#7 || a.extractLsb' 0 12 != 0#12

/-- The frame of a leaf lies in a granted or freeing row set. -/
def State.rowSetFrame (s : State) (pa : Nat) : Bool := decide (pa < 2 ^ 40) && (s.setOf (subOf pa)).isSome

/-- A store or atomic in flight has found its bytes in the 4 KiB page at an address (R348). -/
def State.pageWritten (s : State) (cid va : Nat) : Bool :=
  match s.walk cid va with
  | .leaf e _ _ => s.ops.any fun o => o.work.places.any fun (l, _, wr) => wr && (match l with | .phys pa => pa / 4096 == pteAddr e / 4096 | .buf _ _ => false)
  | _ => false

/-- PGSHARE: a write that has found the frame before the update is performed before it, so that both mappings show it; a later write finds COW (R348). -/
def pgshareE (d a : BitVec 6) (uid k : Nat) (g : Group) (t : Strand) (s : State) : Eff State :=
  let xd := t.x d
  let xa := t.x a
  let ret (s : State) (c : Nat) : Eff State := .done (s.modStrand uid k fun t => t.setX d (BitVec.ofNat 64 c))
  if badPage xd then .trap s (sysTrap xd)
  else if badPage xa then .trap s (sysTrap xa)
  else
    match s.walk g.cid xa.toNat with
    | .leaf e lv addr =>
      if pteTier e ≠ 0 ∨ s.dramOk g.cid (pteAddr e) = false ∨ s.rowSetFrame (pteAddr e) = true then ret s 1
      else if lv = 2 then ret s 2
      else
        match s.l1Look g.cid xd.toNat with
        | .error (r, x, pa) => .settled (s.contextError g.cid r x pa)
        | .ok none => ret s 3
        | .ok (some slot) =>
          if pteV (s.pte g.cid slot) then ret s 3
          else
            let e1 := pteSetCow e
            let n := s.frameCount g.cid (pteAddr e)
            let s1 := (((s.setPte g.cid addr e1).setPte g.cid slot e1).setCount g.cid (pteAddr e) (if n = 0xFFFF then n else n + 1))
            ret ((s1.invalPage g.cid xa.toNat everyDie).invalPage g.cid xd.toNat everyDie) 0
    | .dead r x pa => .settled (s.contextError g.cid r x pa)
    | _ => ret s 1
def execPgshare (d a : BitVec 6) (st : State) : Res := runM (pgshareE d a) st

/-- The frame-freed record; the base die of a DRAM frame names it. -/
def State.frameFreed (s : State) (cid die pa : Nat) (big : Bool) : State :=
  s.postPage (pageRec 0x50 cid 0 (if pa < 2 ^ 40 then 8 + stkOf pa else die) 0 (BitVec.ofNat 64 pa) (BitVec.ofNat 64 big.toNat))

/-- A 0x43 resolution of the page holds the lock of its frame: it is the first that reached it (R366, R371). -/
def State.holdsLock (s : State) (p : Pend) : Bool :=
  match p.cow with
  | some { frame := f, since := some t, .. } => s.mmu.pend.all fun q => match q.cow with
    | some { frame := f', since := some t', .. } => f' != f || decide (t ≤ t')
    | _ => true
  | _ => false
def State.pageLocked (s : State) (cid page : Nat) : Bool := s.mmu.pend.any fun p => p.cid == cid && p.page == page && s.holdsLock p

/-- PGDROP: a resident or shared page becomes absent; every other state of a page stays (R361). While a resolution of the page holds its frame's lock,
PGDROP waits (R371). -/
def pgdropE (a : BitVec 6) (_uid _k : Nat) (g : Group) (t : Strand) (s : State) : Eff State :=
  let xa := t.x a
  if badPage xa then .trap s (sysTrap xa)
  else
    match s.walk g.cid xa.toNat with
    | .leaf e lv addr =>
      if 2 ≤ pteTier e then .done s
      else if s.pageLocked g.cid (xa.toNat / 4096) then .settled s
      else
        let s1 := (s.setPte g.cid addr (e &&& ~~~1)).invalPage g.cid xa.toNat everyDie
        let die := dieOf g.core
        if lv = 2 then .done (s1.frameFreed g.cid die (pteAddr e) true)
        else if pteTier e = 0 then
          let n := s.frameCount g.cid (pteAddr e)
          .done (if n = 0xFFFF then s1 else if n = 0 then s1.frameFreed g.cid die (pteAddr e) false else s1.setCount g.cid (pteAddr e) (n - 1))
        else .done (s1.frameFreed g.cid die (pteAddr e) false)
    | .dead r x pa => .settled (s.contextError g.cid r x pa)
    | _ => .done s
def execPgdrop (a : BitVec 6) (st : State) : Res := runM (pgdropE a) st

/-- Some POOL window is set up. -/
def State.anyPool (s : State) : Bool := s.links.pwcfg.any fun c => c.getLsbD 63
/-- The head page of the list holds a usable frame of a tier. -/
def State.headHas (s : State) (c tier : Nat) : Bool :=
  let page := (s.ctx c).fflh.toNat * 4096
  decide (page ≠ 0) && decide ((s.ctx c).ffln ≠ 0) &&
  (List.range 511).any fun i => let a := pteAddr (s.pte c (page + 8 * (i + 1))); decide (a ≠ 0) && s.frameUsable a && (if tier = 0 then inDram a else !inDram a)

/-- The head page of the list cannot be read (R337). -/
def State.headBad (s : State) (c : Nat) : Bool := decide ((s.ctx c).fflh ≠ 0) && decide ((s.ctx c).ffln ≠ 0) && s.badList ((s.ctx c).fflh.toNat * 4096)

/-- The sector of the line of a leaf's group that cannot be corrected, where CONT makes MIGR read the line (R337). -/
def State.groupBad (s : State) (e : Word) (addr : Nat) : Option Nat := s.badLine e 1 addr
/-- Clear CONT in the 16 entries of a leaf's group. -/
def State.clearCont (s : State) (cid addr : Nat) : State :=
  (List.range 16).foldl (fun s k => let a := addr / 128 * 128 + 8 * k; s.setPte cid a (pteClrCont (s.pte cid a))) s

/-- MIGR: refused at once with a status, or the page is marked. -/
def migrE (d a : BitVec 6) (uid k : Nat) (g : Group) (t : Strand) (s : State) : Eff State :=
  let xd := t.x d
  let xa := t.x a
  let page := xa.toNat / 4096
  let ret (s : State) (c : Nat) : Eff State := .done (s.modStrand uid k fun t => t.setX d (BitVec.ofNat 64 c))
  if 1 < xd.toNat then .trap s (sysTrap xd)
  else if badPage xa then .trap s (sysTrap xa)
  else
    match s.walk g.cid xa.toNat with
    | .leaf e lv addr =>
      if lv = 2 ∨ pteCow e = true ∨ 2 ≤ pteTier e ∨ (pteTier e = 0 ∧ (s.rowSetFrame (pteAddr e) = true ∨ s.inReadingRoom (subOf (pteAddr e)) = true)) then ret s 2
      else if pteTier e = xd.toNat then ret s 1
      else if xd = 1 ∧ s.anyPool = false then ret s 4
      else if s.headBad g.cid then .settled (s.contextError g.cid 1 0 ((s.ctx g.cid).fflh.toNat * 4096))
      else if s.headHas g.cid xd.toNat = false then ret s 3
      else if h : (s.groupBad e addr).isSome then .settled (s.contextError g.cid 1 0 ((s.groupBad e addr).get h))
      else
        let s1 := if pteCont e then s.clearCont g.cid addr else s
        let e1 := pteClrCont e
        let s2 := (s1.setPte g.cid addr (pteSetTier e1 3)).invalPage g.cid xa.toNat everyDie
        let s3 := if pteCont e then (List.range 16).foldl (fun s j => s.invalPage g.cid ((page / 16 * 16 + j) * 4096) everyDie) s2 else s2
        let m : Migration := { id := s3.fresh, guid := uid, strand := k, cid := g.cid, page := page, oldLeaf := e1, tier := BitVec.ofNat 2 xd.toNat, target := none, d := d }
        .done (({ s3 with fresh := s3.fresh + 1, mmu := { s3.mmu with migs := s3.mmu.migs ++ [m] } }).modStrand uid k fun t => { t.mark d with ks := t.ks + 1 })
    | .dead r x pa => .settled (s.contextError g.cid r x pa)
    | _ => ret s 2
def execMigr (d a : BitVec 6) (st : State) : Res := runM (migrE d a) st

end Sys2Proof.Machine
end

