-- ==== Sys2Proof/Machine/Page.lean ====
section
/-!
DEFINITION. The events of the page and the page-service commands (spec/21_page.md R355 to R370): walks, copy-on-write, migration, held
records, RESOLVE, FAILPG, INVAL and INVALL.
-/
namespace Sys2Proof.Machine

open Sys2Proof

/-- The access kind of a code of R335; 0 names none. -/
def accOf (c : BitVec 2) : Option Acc := if c = 1 then some .fetch else if c = 2 then some .read else if c = 3 then some .write else none

/-- A context whose tables the device may walk: LOADDESC has given it a root. -/
def State.walkable (s : State) (cid : Nat) : Bool :=
  (s.ctx cid).desc && decide ((s.ctx cid).state ≠ .free) && decide ((s.ctx cid).state ≠ .retired)

/-- TABLE_WALK: a walk on a die's behalf, with its effect on A, D and the caches (R355, R358, R359). -/
def execTableWalk (die : BitVec 5) (cid : BitVec 6) (va : BitVec 64) (kind : BitVec 2) (s : State) : Res :=
  match accOf kind with
  | some k => if die.toNat < 24 ∧ s.walkable cid.toNat = true then .next (s.translate (.unit die.toNat) cid.toNat va k).2 else .next s
  | none => .next s

/-- HELD_RECORD_WRITE: the records that a ring has room for (R369, R439); rings 0 to 7 are the ports' event rings, 8 the page service. -/
def execHeldRecordWrite (ring : BitVec 4) (s : State) : Res :=
  if ring.toNat < 8 then
    let (s1, r) := s.flushRing (s.window ring.toNat).ring (s.window ring.toNat).ring.held.length
    .next (s1.modWindow ring.toNat fun w => { w with ring := r })
  else if ring.toNat = 8 then
    let (s1, r) := s.flushRing s.mmu.ring s.mmu.ring.held.length
    .next { s1 with mmu := { s1.mmu with ring := r } }
  else .next s

/-! ## Copy-on-write (R366) -/

def State.pend? (s : State) (die idx : Nat) : Option Pend := s.mmu.pend.find? fun p => p.die == die && p.idx == idx

/-- Change the resolution of an entry. -/
def State.setCow (s : State) (p : Pend) (c : CowLock) : State :=
  { s with mmu := { s.mmu with pend := s.mmu.pend.map fun (q : Pend) => if q.die == p.die && q.idx == p.idx then { q with cow := some c } else q } }

/-- The current leaf of an entry's page, where it is a copy-on-write leaf of frame `f`; with where it lies. -/
def State.cowLeaf (s : State) (p : Pend) (f : Nat) : Option (Word × Nat) :=
  match s.walk p.cid (p.page * 4096) with
  | .leaf e 1 addr => if pteCow e = true ∧ pteTier e = 0 ∧ pteAddr e = f then some (e, addr) else none
  | _ => none

/-- The page's leaf is written, the lock is free and the waiters replay. -/
def State.endCow (s : State) (p : Pend) (addr : Nat) (e : Word) : State :=
  (((s.setPte p.cid addr e).invalPage p.cid (p.page * 4096) everyDie)).freePend p.die p.idx true

/-- COW_RESOLUTION: the resolution reaches the lock of its frame; those on one frame run one at a time, in the order in which they do. Under the lock
the last mapping keeps its frame; else a frame is taken for the copy, once the list has one. -/
def execCowResolution (die : BitVec 5) (entry : BitVec 12) (s : State) : Res :=
  match s.pend? die.toNat entry.toNat with
  | none => .next s
  | some p =>
    if p.code ≠ 0x43 then .next s
    else
      match p.cow with
      | none => .next (s.freePend p.die p.idx true)
      | some c =>
        if c.target.isSome then .next s
        else if c.since = none then .next (s.tick.setCow p { c with since := some s.fresh })
        else if s.holdsLock p = false then .next s
        else
          match s.cowLeaf p c.frame with
          | none => .next (s.freePend p.die p.idx true)
          | some (e, addr) =>
            if s.frameCount p.cid c.frame = 0 then .next (s.endCow p addr (pteClrCow e))
            else
              match s.nextDram p.cid p.die with
              | (s1, none) => .next s1
              | (s1, some f) => .next (s1.setCow p { c with leaf := e, addr := addr, target := some f })

/-- FRAME_COPY: the copy completes and its leaf takes the new frame. -/
def execFrameCopy (die : BitVec 5) (entry : BitVec 12) (s : State) : Res :=
  match s.pend? die.toNat entry.toNat with
  | none => .next s
  | some p =>
    match p.cow with
    | some c =>
      match c.target with
      | some f =>
        if s.spanHeld c.frame 4096 then .next s
        else
        let n := s.frameCount p.cid c.frame
        let s1 := s.copyFrame p.cid c.frame f
        let s2 := if n = 0xFFFF ∨ n = 0 then s1 else s1.setCount p.cid c.frame (n - 1)
        .next (s2.endCow p c.addr (pteClrD (pteClrCow (pteSetFrame c.leaf f))))
      | none => .next s
    | none => .next s

/-! ## Migration (R363) -/

/-- An access that translated to a frame has not been performed. -/
def State.frameBusy (s : State) (frame : Nat) : Bool :=
  let here (a : Nat) : Bool := a / 4096 == frame / 4096
  (s.ops.any fun o => o.work.places.any fun (l, n, _) => match l with | .phys pa => here pa || here (pa + n - 1) | .buf _ _ => false) ||
  (s.rows.ops.any fun o => o.pages.any fun p => here p.pa)

def State.migration? (s : State) (i : Nat) : Option Migration := s.mmu.migs.find? fun m => m.id == i

/-- A migration ends with a leaf and a status; the page's waiters replay, KS falls. -/
def State.endMigration (s : State) (m : Migration) (leaf : Word) (status : Nat) : State :=
  let s1 := match s.walk m.cid (m.page * 4096) with
    | .leaf e 1 addr => if pteTier e = 3 then s.setPte m.cid addr leaf else s
    | _ => s
  let s2 := ({ s1 with mmu := { s1.mmu with migs := s1.mmu.migs.filter fun (x : Migration) => x.id != m.id } }).invalPage m.cid (m.page * 4096) everyDie
  (s2.freePage m.cid m.page 0x42 true).modStrand m.guid m.strand fun t => (t.landX m.d (BitVec.ofNat 64 status)).fallS

/-- MIGRATION_COPY: once the old frame is drained, it is copied to the first frame of the tier in the list's head page; without one the
leaf is as before and the status is 3. -/
def execMigrationCopy (i : Nat) (s : State) : Res :=
  match s.migration? i with
  | none => .next s
  | some m =>
    if m.target.isSome = true ∨ s.frameBusy (pteAddr m.oldLeaf) = true ∨ s.spanHeld (pteAddr m.oldLeaf) 4096 = true then .next s
    else
      match s.headFrame m.cid (if pteTier m.oldLeaf = 0 then 8 + stkOf (pteAddr m.oldLeaf) else 0) m.tier.toNat with
      | (s1, none) => .next (s1.endMigration m m.oldLeaf 3)
      | (s1, some f) =>
        let s2 := s1.copyFrame m.cid (pteAddr m.oldLeaf) f
        .next { s2 with mmu := { s2.mmu with migs := s2.mmu.migs.map fun (x : Migration) => if x.id == m.id then { x with target := some f } else x } }

/-- MIGRATION_SWITCH: the leaf takes the new tier and frame; the old frame is freed. -/
def execMigrationSwitch (i : Nat) (s : State) : Res :=
  match s.migration? i with
  | none => .next s
  | some m =>
    match m.target with
    | none => .next s
    | some f =>
      .next ((s.endMigration m (pteClrCont (pteSetTier (pteSetFrame m.oldLeaf f) m.tier.toNat)) 0).frameFreed m.cid 0 (pteAddr m.oldLeaf) false)

/-! ## Page-service commands (R370) -/

def State.psStatus (s : State) (c : Byte) : State := { s with mmu := { s.mmu with psStat := c } }

/-- A command of the owner host: ignored while another is in progress; `top` is the lowest reserved bit above its fields. -/
def psCommand (port : BitVec 3) (bad : Bool) (f : State → State) (s : State) : Res :=
  s.byOwner port (if s.mmu.psCmd.isSome then s.psStatus 6 else if bad then s.psStatus 3 else f s)

/-- RESOLVE and FAILPG. -/
def endEntry (replay : Bool) (w : Word) (s : State) : State :=
  let n := w.toNat
  match s.pend? (natBits n 18 14) (natBits n 30 19) with
  | some p => if p.cid = natBits n 13 8 then (s.freePend p.die p.idx replay).psStatus 0 else s.psStatus 1
  | none => s.psStatus 1

/-- RESOLVE. -/
def execResolve (port : BitVec 3) (w : BitVec 64) (s : State) : Res := psCommand port (decide (natBits w.toNat 63 31 ≠ 0)) (endEntry true w) s
/-- FAILPG. -/
def execFailpg (port : BitVec 3) (w : BitVec 64) (s : State) : Res := psCommand port (decide (natBits w.toNat 63 31 ≠ 0)) (endEntry false w) s

/-- An invalidation for the host: an operation of no strand. -/
def State.hostInval (s : State) (cid : Nat) (page : Option Nat) : State :=
  let s1 := s.pushOp s.fresh 0 cid Way.group (.inval page false) [] [] []
  { s1 with mmu := { s1.mmu with psCmd := some s.fresh } }

/-- INVAL. -/
def execInval (port : BitVec 3) (w : BitVec 64) (s : State) : Res :=
  psCommand port (decide (natBits w.toNat 18 14 ≠ 0)) (fun s => s.hostInval (natBits w.toNat 13 8) (some (natBits w.toNat 63 19))) s
/-- INVALL. -/
def execInvall (port : BitVec 3) (w : BitVec 64) (s : State) : Res :=
  psCommand port (decide (natBits w.toNat 63 14 ≠ 0)) (fun s => s.hostInval (natBits w.toNat 13 8) none) s

end Sys2Proof.Machine
end

