-- ==== Sys2Proof/Machine/Row.lean ====
section
/-!
DEFINITION. Row instructions (spec/18_row_microcode.md R287 to R299, R305 to R309): tensors in subarrays, the issue instructions with
their checks, preparation, holds, waves and retirement. The microcode ops stand in Micro.lean.
-/
namespace Sys2Proof.Machine

open Sys2Proof

/-! ## Rows (R287, R290, R379) -/

/-- The linear index P of a plane stack over dimensions 1 upwards: its offset. -/
def stackOffset (w : List Word) (p : Nat) : Int :=
  ((List.range 5).foldl (fun (a : Nat × Int) k =>
    if k + 1 < entNdim w then (a.1 / entExt w (k + 1), a.2 + (a.1 % entExt w (k + 1) : Nat) * entStr w (k + 1)) else a) (p, 0)).2
/-- The number of plane stacks. -/
def stackCount (w : List Word) : Nat := (List.range 5).foldl (fun n k => if k + 1 < entNdim w then n * entExt w (k + 1) else n) 1
/-- The address of plane `b` of plane stack `p`. -/
def planeAt (w : List Word) (p b : Nat) : Nat := ((entBase w : Int) + stackOffset w p + (1024 * b : Nat)).toNat
/-- The plane stacks of a bit-plane tensor: the addresses of their rows, in tensor row order. -/
def planeStacks (w : List Word) : List (List Nat) := (List.range (stackCount w)).map fun p => (List.range (entWidth w)).map fun b => planeAt w p b
/-- The row range of a tensor: from its lowest to beyond its highest plane byte. -/
def rowRange (w : List Word) : Nat × Nat :=
  let rs := (planeStacks w).flatten
  (rs.foldl Nat.min (rs.headD 0), rs.foldl Nat.max 0 + 1024)

/-- Replace the bytes of a row. -/
def State.putRow (s : State) (pa : Nat) (v : VReg) (sealed : Bool) : State :=
  { s with mem := { s.mem with
      cells := cellsPut s.mem.cells (pa / 1024 * 1024) (leBytes 1024 v.toNat),
      flips := s.mem.flips.filter fun f => f.1 / 1024 != pa / 1024,
      unsealed := if sealed then s.mem.unsealed.filter fun r => r != pa / 1024 else insertNat s.mem.unsealed (pa / 1024) } }
/-- The lanes of a row as an ordinary read of a sealed row gives them. -/
def State.rowLanes (s : State) (pa : Nat) : VReg := BitVec.ofNat 8192 (leNat (cellsGet s.mem.cells (pa / 1024 * 1024) 1024))
/-- The wrong stored bits of a row, of the sectors that `p` accepts. -/
def State.rowFlips (s : State) (pa : Nat) (p : Nat → Bool) : VReg :=
  (s.mem.flips.filter fun f => f.1 / 1024 == pa / 1024 && p (f.1 / 32)).foldl (fun v f => v ^^^ BitVec.ofNat 8192 (2 ^ (8 * (f.1 % 1024) + f.2))) 0
/-- The raw bits of a row, as an in-array op reads them. -/
def State.rowRaw (s : State) (pa : Nat) : VReg := s.rowLanes pa ^^^ s.rowFlips pa fun _ => true
/-- The row is sealed. -/
def State.rowSealed (s : State) (pa : Nat) : Bool := !s.mem.unsealed.contains (pa / 1024)
/-- A row read through the base die (R301, R380): its lanes, whether it was unsealed or uncorrectable, whether it was corrected. -/
def State.baseRead (s : State) (pa : Nat) : VReg × Bool × Bool :=
  if s.rowSealed pa then
    let fs := s.mem.flips.filter fun f => f.1 / 1024 == pa / 1024
    let many (sec : Nat) : Bool := decide (2 ≤ (fs.filter fun f => f.1 / 32 == sec).length)
    (s.rowLanes pa ^^^ s.rowFlips pa many, fs.any fun f => many (f.1 / 32), fs.any fun f => !many (f.1 / 32))
  else (s.rowRaw pa, true, false)

/-! ## The row operation -/

def State.rowOp? (s : State) (i : Nat) : Option RowOp := s.rows.ops.find? fun o => o.id == i
def State.modRowOp (s : State) (i : Nat) (f : RowOp → RowOp) : State :=
  { s with rows := { s.rows with ops := s.rows.ops.map fun o => if o.id == i then f o else o } }
def RowOp.run? (o : RowOp) (stk : Nat) : Option StackRun := o.runs.find? fun r => r.stk == stk
def RowOp.modRun (o : RowOp) (stk : Nat) (f : StackRun → StackRun) : RowOp := { o with runs := o.runs.map fun r => if r.stk == stk then f r else r }
def State.setSeq (s : State) (stk : Nat) (f : List Nat → List Nat) : State := { s with rows := { s.rows with seq := modAt s.rows.seq stk f } }

/-- The operands that are supplied: a, b and c. -/
def RowOp.operands (o : RowOp) : List (List Word) := o.ea :: (o.eb.toList ++ o.ec.toList)
/-- Words that stand for the access of no tensor, the fetch of a microprogram. -/
def noTensor : List Word := [0, 0x18000]
/-- The TIER and PRIO that a fault of the preparation passes on: those of the tensor, and none for the microprogram, whose page takes PRIO of its leaf
(R119, R364). -/
def rowHint (w : List Word) : Option (BitVec 2 × BitVec 4) := if w = noTensor then none else entHint w
def RowOp.dup (o : RowOp) : Bool := decide (o.kind = 1) && natBit o.xd.toNat 31
def RowOp.aseal (o : RowOp) : Bool := decide (o.kind = 1) && natBit o.xd.toNat 32
/-- The options word: BAR and BEN. -/
def RowOp.options (o : RowOp) : Word := if o.kind = 2 then o.xa else o.xd
/-- ROWLD writes the linear tensor. -/
def RowOp.toLinear (o : RowOp) : Bool := decide (o.kind = 0) && natBit o.xa.toNat 6

/-! ## Issue (R291 to R294) -/

/-- The row-operand trap. -/
def rowTrap : Trap := trapOf 0x15 0 0

/-- Some address stands twice in a list. -/
def hasDup : List Nat → Bool
  | [] => false
  | a :: t => t.contains a || hasDup t

/-- A linear n8 tensor of one dimension with stride 1. -/
def isByteTensor (w : List Word) : Bool := decide (entLayout w = 0) && decide (entFmt w = 4) && decide (entNdim w = 1) && decide (entStr w 0 = 1)
/-- The span of a byte tensor. -/
def byteSpan (w : List Word) : Nat × Nat := (entBase w, entBase w + entExt w 0)
/-- Extents of dimensions 1 upwards. -/
def upperExts (w : List Word) : List Nat := (List.range 5).map fun k => entExt w (k + 1)
/-- Extents as written. -/
def allExts (w : List Word) : List Nat := (List.range 6).map fun k => entExt w k

/-- The tensors a row instruction names, in the order of its checks: class 0 to 2 for a, b, c, 3 the window, 4 the output, 5 the linear
tensor. -/
def rowNames (kind : Nat) (xd xa : Word) (tid : Nat) : List (Nat × Nat) :=
  (0, tid) ::
    (if kind = 1 then
      let n := xd.toNat
      (if natBit n 6 then [(1, natBits n 5 0)] else []) ++ (if natBit n 14 then [(2, natBits n 13 8)] else []) ++
      (if natBit n 22 then [(3, natBits n 21 16)] else []) ++ (if natBit n 30 then [(4, natBits n 29 24)] else [])
     else if kind = 0 then [(5, natBits xa.toNat 5 0)] else [])

/-- Check 2 for one named tensor. -/
def rowFormatBad (ea : List Word) (cls : Nat) (w : List Word) : Bool :=
  match cls with
  | 3 => !isByteTensor w || decide (entExt w 0 % 1024 ≠ 0) || decide (65536 < entExt w 0)
  | 4 => !isByteTensor w
  | 5 => decide (entLayout w ≠ 0) || decide (entFmt w ≠ entFmt ea)
  | _ => decide (entLayout w ≠ 1)

/-- A reserved bit of xD or xA is set, or the microprogram address is bad. -/
def rowReservedBad (kind : Nat) (xd xa : Word) : Bool :=
  let opt (n : Nat) : Bool := decide (natBits n 39 0 ≠ 0) || decide (natBits n 63 51 ≠ 0)
  match kind with
  | 0 => opt xd.toNat || decide (natBits xa.toNat 63 7 ≠ 0)
  | 1 => natBit xd.toNat 7 || natBit xd.toNat 15 || natBit xd.toNat 23 || decide (natBits xd.toNat 39 33 ≠ 0) || decide (natBits xd.toNat 63 51 ≠ 0) ||
      decide (xa.toNat % 64 ≠ 0) || decide (natBits xa.toNat 63 57 ≠ 0)
  | _ => opt xa.toNat

/-- Check 3. -/
def rowOperandBad (o : RowOp) : Bool :=
  let bc := o.eb.toList ++ o.ec.toList
  rowReservedBad o.kind o.xd o.xa || (bc.any fun w => decide (upperExts w ≠ upperExts o.ea)) ||
  (decide (o.kind = 0) && (o.ew.toList.any fun w => decide (entNdim w ≠ entNdim o.ea) || decide (allExts w ≠ allExts o.ea))) ||
  hasDup (o.operands.flatMap fun w => (planeStacks w).flatten) ||
  (decide (o.kind = 1) && ((o.ew.toList ++ o.eo.toList).any fun w => o.operands.any fun r =>
    decide ((byteSpan w).1 < (rowRange r).2) && decide ((rowRange r).1 < (byteSpan w).2)))

/-- The first check that fails; the words of the named tensors stand in the operation. -/
def rowCheck (s : State) (g : Group) (names : List (Nat × Nat)) (o : RowOp) : Option Trap :=
  match names.find? fun n => !(g.entry n.2).bound with
  | some n => some (stateTrap n.2)
  | none =>
    match names.find? fun n => rowFormatBad o.ea n.1 (g.entry n.2).words with
    | some n => some (formatTrap n.2)
    | none =>
      if rowOperandBad o then some rowTrap
      else
        let opt := o.options.toNat
        if natBit opt 50 ∧ 16 * (s.ctx g.cid).ba.toNat ≤ natBits opt 49 40 then some (trapOf 0x10 0 (BitVec.ofNat 64 (natBits opt 49 40))) else none

/-- A range of virtual memory. -/
def virtRange (cid : Nat) (p : Nat × Nat) : Range := { sp := .virt cid, lo := p.1, hi := p.2 }
/-- The span of a linear tensor as naturals. -/
def linSpan (w : List Word) : Nat × Nat := ((entSpan w).1.toNat, (entSpan w).2.toNat)

/-- One range from the lowest to the highest byte of several: bytes between them count as in range (R158). -/
def hullOf (cid : Nat) : List (Nat × Nat) → List Range
  | [] => []
  | p :: r => [virtRange cid (r.foldl (fun a q => (Nat.min a.1 q.1, Nat.max a.2 q.2)) p)]

/-- The read range and the write range of the entry (R292). -/
def rowReads (o : RowOp) : List Range :=
  let rows := o.operands.map rowRange
  hullOf o.cid (match o.kind with
    | 0 => if o.toLinear then rows else o.ew.toList.map linSpan
    | 1 => (o.xa.toNat, o.xa.toNat + 4096) :: (o.ew.toList.map byteSpan ++ rows)
    | _ => [])
def rowWrites (o : RowOp) : List Range :=
  let rows := o.operands.map rowRange
  hullOf o.cid (match o.kind with
    | 0 => if o.toLinear then o.ew.toList.map linSpan else rows
    | 1 => rows ++ o.eo.toList.map byteSpan
    | _ => rows)

/-- ROWLD, ROWRUN and ROWSEAL, kind 0 to 2. -/
def rowE (kind : Nat) (xdr : Option (BitVec 6)) (a tid : BitVec 6) (uid k : Nat) (g : Group) (t : Strand) (s : State) : Eff State :=
  if kind = 0 ∧ mdOk t.md = false then .trap s (modeTrap t 5)
  else
    let xd := match xdr with
      | some r => t.x r
      | none => 0
    let names := rowNames kind xd (t.x a) tid.toNat
    let ent (cls : Nat) : Option (List Word) := (names.find? fun n => n.1 == cls).map fun n => (g.entry n.2).words
    let o : RowOp :=
      { id := s.fresh, guid := uid, strand := k, cid := g.cid, kind := kind, tid := tid.toNat, xd := xd, xa := t.x a, ea := (g.entry tid.toNat).words,
        eb := ent 1, ec := ent 2, ew := if kind = 0 then ent 5 else ent 3, eo := ent 4, sat := mdSat t.md, phase := .prep, prog := [], window := [],
        code := 0, widx := 0, uns := false, ce := false, flags := 0, steps := 0, runs := [], held := [], pages := [], wait := none, failed := false }
    match rowCheck s g names o with
    | some tr => .trap s tr
    | none =>
      let s1 := { s with fresh := s.fresh + 1, rows := { s.rows with ops := s.rows.ops ++ [o] } }
      .done ((s1.pushLock o.id uid k (rowReads o) (rowWrites o)).modStrand uid k fun t => { t with kr := t.kr + 1 })

/-- ROWLD. -/
def execRowld (d a t : BitVec 6) (st : State) : Res := runM (rowE 0 (some d) a t) st
/-- ROWRUN. -/
def execRowrun (d a t : BitVec 6) (st : State) : Res := runM (rowE 1 (some d) a t) st
/-- ROWSEAL. -/
def execRowseal (a t : BitVec 6) (st : State) : Res := runM (rowE 2 none a t) st
/-- ROWQ: the row status word. It names an entry only as a register number: one that is not bound gives the word as it is kept, without a trap
(R291 and R297 list no check for ROWQ, though R114 speaks of any instruction that names an entry): DESIGN CHOICE, notes/assumptions/101.md. -/
def execRowq (d t : BitVec 6) (st : State) : Res :=
  runM (fun uid k g _ s => .done (s.modStrand uid k fun u => u.setX d (wordAt g.rowStat t.toNat))) st

/-! ## Preparation (R298, R204) -/

/-- The operation retires at once with a code. -/
def RowOp.fail (o : RowOp) (code : Byte) (widx : Nat) : RowOp := { o with phase := .retiring, code := code, widx := widx, wait := none }

/-- What a preparation meets: a code, a fault of a page under the code it would give, an access that waits, or nothing. -/
inductive PrepEnd where
  | ready
  | code (c : Byte) (widx : Nat)
  | fault (c : Byte) (t : Touch) (va : Nat) (x : Xlat)
  | waits
  deriving DecidableEq, Repr

/-- One touch per page of the bytes `lo` to `hi - 1`. -/
def pageTouches (lo hi : Nat) (kind : Acc) (w : List Word) : List Touch :=
  if hi ≤ lo then [] else
    (List.range ((hi - 1) / 4096 - lo / 4096 + 1)).map fun i =>
      { va := if i = 0 then lo else (lo / 4096 + i) * 4096, n := 1, kind := kind, w := w, pos := 0 }

/-- The pages that a preparation has translated. -/
def RowOp.pagesAt (o : RowOp) : List PageAt :=
  o.pages.map fun p => { page := p.page, kind := if p.write then .write else .read, pa := p.pa, cut := false }
def RowOp.withPages (o : RowOp) (ps : List PageAt) : RowOp :=
  { o with pages := ps.map fun p => { page := p.page, write := decide (p.kind = .write), pa := p.pa } }

/-- Translate the page of a touch, unless the preparation has it already. -/
def prepPage (die : Nat) (c : Byte) (t : Touch) (a : PrepEnd × RowOp × State) : PrepEnd × RowOp × State :=
  match a with
  | (.ready, o, s) => match pageOnce true (.unit die) o.cid t t.va (.ok o.pagesAt, s) with
    | (.ok ps, s1) => (.ready, o.withPages ps, s1)
    | (.error (t, va, x), s1) => (.fault c t va x, o, s1)
  | a => a

/-- The physical address of a virtual byte. -/
def opPa (ps : List OpPage) (va : Nat) : Nat := match ps.find? fun p => p.page == va / 4096 with
  | some p => p.pa + va % 4096
  | none => 0

/-- The instruction that a row stack runs. -/
def State.seqHead (s : State) (stk : Nat) : Option Nat := (s.rows.seq.getD stk []).head?
/-- The state as accesses meet it between two steps of a row stack's wave, with its banks open. -/
def State.openSeq (s : State) (stk : Nat) : State := s.setSeq stk fun _ => []

/-- A row instruction other than `i` holds a row of `n` bytes at a physical address. -/
def State.heldByOther (s : State) (i pa n : Nat) : Bool :=
  decide (pa < 2 ^ 40) && (List.range ((pa + n - 1) / 1024 - pa / 1024 + 1)).any fun j => s.rows.ops.any fun o => o.id != i && o.held.contains (pa / 1024 + j)
/-- An access of the row sequencer to memory waits: for a row that another instruction holds (R160), for a bank, unless its own wave has it (R383, R385),
or for a link (R411). -/
def State.seqWaits (s : State) (i pa n : Nat) : Bool :=
  let t := if s.seqHead (stkOf pa) = some i then s.openSeq (stkOf pa) else s
  s.heldByOther i pa n || t.spanWaits s.fresh pa n || s.trafficPaused pa

/-- Bytes of virtual memory through translated pages, under a version; what another module holds is its own (R410). What the sequencer gets of a sector
that cannot be corrected is free (DESIGN CHOICE, notes/assumptions/116.md), as is what a lost link does not bring. -/
def readVirt (cid : Nat) (ver : BitVec 32) (ps : List OpPage) (va n : Nat) (s : State) : List Byte :=
  (List.range n).map fun i => match ps.find? fun p => p.page == (va + i) / 4096 with
    | some p =>
      let pa := p.pa + (va + i) % 4096
      if s.uncorrectable pa || s.remoteIs pa s.linkLost then Config.freeByte s.fresh (va + i)
      else if (remoteOf s pa).isSome then s.remoteByte (s.keyOf cid) ver pa
      else s.readByte (s.keyOf cid) ver pa
    | none => 0

/-- The reads or writes of some bytes by the sequencer pass the last-level caches (R142), line by line. -/
def State.seqTouch (s : State) (cid : Nat) (ver : BitVec 32) (lines : List Nat) : State :=
  lines.foldl (fun s l => s.cacheSpan .unit cid ver (128 * l) 1) s

/-- Read `n` bytes of a page for a preparation: `take` adds them to what it has. -/
def prepRead (die : Nat) (t : Touch) (n : Nat) (take : RowOp → List Byte → RowOp) (a : PrepEnd × RowOp × State) : PrepEnd × RowOp × State :=
  match prepPage die 3 t a with
  | (.ready, o, s) =>
    let pa := opPa o.pages t.va
    if s.seqWaits o.id pa n then (.waits, o, s.askGap (.row o.id) pa)
    else if s.badPlace (.phys pa) n then (.fault 3 t t.va (.trap 0x0B 0), o, s)
    else
      let (bs, s1) := s.unitRead .unit o.cid (entVer t.w) pa n
      (.ready, take o bs, (s1.dropAsk (.row o.id)).tick)
  | a => a

/-- The microprogram is fetched: its first STOP, or 1,024 words. -/
def RowOp.fetched (o : RowOp) : Bool := decide (o.prog.length = 1024) || (match o.prog.getLast? with
  | some w => decide (w.toNat / 2 ^ 27 = 16)
  | none => false)

/-- Fetch the microprogram word by word, on from the words that stand, up to its first STOP (R298). -/
def fetchProg (die : Nat) : Nat → PrepEnd × RowOp × State → PrepEnd × RowOp × State
  | 0, a => a
  | n + 1, (.ready, o, s) =>
    if o.fetched then (.ready, o, s)
    else fetchProg die n (prepRead die { va := o.xa.toNat + 4 * o.prog.length, n := 4, kind := .read, w := noTensor, pos := 0 } 4
      (fun o bs => { o with prog := o.prog ++ [BitVec.ofNat 32 (leNat bs)] }) (.ready, o, s))
  | _, a => a

/-- A microcode op names only operand classes that are supplied. -/
def specHas (o : RowOp) (r : BitVec 9) : Bool :=
  match r.toNat / 64 with
  | 1 => o.eb.isSome
  | 2 => o.ec.isSome
  | _ => true
/-- The row specifiers of an op. -/
def rowSpecs : Instr → List (BitVec 9)
  | .aap p q => [p, q]
  | .tra p q r => [p, q, r]
  | .dnot p q => [p, q]
  | .zero p => [p]
  | .ones p => [p]
  | .lshl p q => [p, q]
  | .lshr p q => [p, q]
  | .rdl q => [q]
  | .wrl p _ => [p]
  | .cnt q => [q]
  | .bit _ q => [q]
  | .seal p => [p]
  | _ => []
/-- A word passes R204. -/
def microOk (o : RowOp) (w : BitVec 32) : Bool := match decodeMicro w with
  | none => false
  | some i => (rowSpecs i).all fun r => specHas o r
/-- The index of the first failing word of a microprogram, if one fails. -/
def microBad (o : RowOp) (prog : List (BitVec 32)) : Option Nat :=
  match (List.range prog.length).find? fun i => !microOk o (prog.getD i 0) with
  | some i => some i
  | none => if (prog.getLast?.getD 0).toNat / 2 ^ 27 = 16 then none else some (prog.length - 1)

/-- The window comes page by page, on from the bytes that stand (R298). -/
def prepWindow (die : Nat) (w : List Word) (a : PrepEnd × RowOp × State) : PrepEnd × RowOp × State :=
  let hi := (byteSpan w).2
  (pageTouches (byteSpan w).1 hi .read w).foldl (fun a t =>
    if t.va - entBase w < a.2.1.window.length then a
    else prepRead die t (Nat.min ((t.va / 4096 + 1) * 4096) hi - t.va) (fun o bs => { o with window := o.window ++ bs }) a) a

/-- The pages of a preparation after the microprogram and the window: rows and output, or linear tensor and rows; each with its code. -/
def prepTouches (o : RowOp) : List (Byte × List Touch) :=
  let rowKind : Acc := if o.toLinear then .read else .write
  let rowEnt (w : List Word) : List Word := w.set 1 (wordAt w 1 &&& ~~~0x18000)
  let rows := o.operands.flatMap fun w => pageTouches (rowRange w).1 (rowRange w).2 rowKind (rowEnt w)
  match o.kind with
  | 1 => [(5, rows), (3, o.eo.toList.flatMap fun w => pageTouches (byteSpan w).1 (byteSpan w).2 .write w)]
  | 0 => [(3, o.ew.toList.flatMap fun w => pageTouches (linSpan w).1 (linSpan w).2 (if o.toLinear then .write else .read) w), (5, rows)]
  | _ => [(5, rows)]

/-- The physical rows of a tensor: tensor row number and address, stack by stack. -/
def tensorRows (ps : List OpPage) (w : List Word) : List (List Nat) := (planeStacks w).map fun r => r.map fun va => opPa ps va

/-- Every plane stack lies in one subarray, in row sets (R288). -/
def stacksPlaced (s : State) (st : List (List Nat)) : Bool :=
  st.all fun rs => (rs.all fun pa => s.plainRow pa && decide (subOf pa = subOf (rs.headD 0)))

/-- The subarrays that hold slices, in the order of their first row. -/
def sliceSubs (st : List (List Nat)) : List Nat := st.foldl (fun l rs => let u := subOf (rs.headD 0); if l.contains u then l else l ++ [u]) []
/-- The slice of a subarray: its rows in tensor row order. -/
def sliceOf (st : List (List Nat)) (u : Nat) : List Nat := (st.filter fun rs => subOf (rs.headD 0) == u).flatten

/-- The slices of an instruction, numbered q, or none where R288 fails. -/
def slicesOf (s : State) (o : RowOp) : Option (List Slice) :=
  let sa := tensorRows o.pages o.ea
  let sb := (o.eb.map fun w => tensorRows o.pages w).getD []
  let sc := (o.ec.map fun w => tensorRows o.pages w).getD []
  let subs := sliceSubs sa
  let same (w : Option (List Word)) (st : List (List Nat)) : Bool :=
    w.isNone || (((sliceSubs st).all fun u => subs.contains u) && (subs.all fun u => (sliceSubs st).contains u))
  if stacksPlaced s sa && stacksPlaced s sb && stacksPlaced s sc && same o.eb sb && same o.ec sc then
    some ((List.range subs.length).map fun q =>
      let u := subs.getD q 0
      { q := q, sub := u, a := sliceOf sa u, b := sliceOf sb u, c := sliceOf sc u })
  else none

/-- The number of an earlier slice in the same bank. -/
def rankInBank (all : List Slice) (x : Slice) : Nat :=
  (all.filter fun y => decide (y.q < x.q) && decide (subStk y.sub = subStk x.sub) && decide (y.sub % 4096 = x.sub % 4096)).length
/-- The waves of a row stack (R288). -/
def wavesOf (all : List Slice) (stk : Nat) : List (List Slice) :=
  let mine := all.filter fun x => subStk x.sub == stk
  let n := mine.foldl (fun m x => Nat.max m (rankInBank all x + 1)) 0
  (List.range n).map fun k => mine.filter fun x => rankInBank all x == k

def RowSnap.zero : RowSnap := { wave := 0, pc := 0, lp := 0, la := none, regs := [], outs := [] }
/-- A run that has not begun. -/
def StackRun.new (stk : Nat) (ws : List (List Slice)) : StackRun :=
  { stk := stk, waves := ws, wave := 0, phase := .wave, pc := 0, lp := 0, la := none, regs := [], outs := [], snap := RowSnap.zero, since := 0,
    noForce := false, wrote := [], pos := 0, stop := none, paused := false, late := 0 }

/-- The record size RS of R292. -/
def RowOp.recordSize (o : RowOp) (ns : Nat) : Nat := match o.eo with
  | some w => entExt w 0 / ns / 8 * 8
  | none => 0

/-- The rows of the row range, as physical row numbers. -/
def heldRows (o : RowOp) : List Nat :=
  (o.operands.flatMap fun w => (List.range (((rowRange w).2 - (rowRange w).1) / 1024)).map fun i => opPa o.pages ((rowRange w).1 + 1024 * i) / 1024)

/-- Step 5 of the preparation: the placement and the record size (R288, R292). -/
def prepPlace (a : PrepEnd × RowOp × State) : PrepEnd × RowOp × State :=
  match a with
  | (.ready, o, s) =>
    match slicesOf s o with
    | none => (.code 4 0, o, s)
    | some sl =>
      if o.eo.isSome && decide (o.recordSize sl.length < 8) then (.code 9 0, o, s)
      else
        let stks := (List.range 16).filter fun k => sl.any fun x => subStk x.sub == k
        (.ready, { o with phase := .prepared, runs := stks.map fun k => StackRun.new k (wavesOf sl k) }, s)
  | a => a

/-- The base die whose sequencer prepares an instruction, and whose translation caches and walkers it uses (R358): that of the issuing stack core, or of
row stack 2d for compute die d (DESIGN CHOICE, notes/assumptions/117.md). -/
def seqDie (core : Nat) : Nat := if isStackCore core then dieOf core else 8 + 2 * dieOf core

/-- The whole preparation, in the order of R298, on from what an earlier attempt has done. -/
def prepRow (g : Group) (o : RowOp) (s : State) : PrepEnd × RowOp × State :=
  let die := seqDie g.core
  let a := if o.kind = 1 then fetchProg die 1024 (.ready, o, s) else (.ready, o, s)
  match a.1, (if o.kind = 1 then microBad a.2.1 a.2.1.prog else none) with
  | .ready, some i => (.code 1 i, a.2)
  | _, _ =>
    let b := match o.kind, o.ew with
      | 1, some w => prepWindow die w a
      | _, _ => a
    prepPlace ((prepTouches o).foldl (fun a (c, ts) => ts.foldl (fun a t => prepPage die c t a) a) b)

/-- An ordinary access of a group that stops waits for a row that the instruction holds. -/
def State.heldAwaited (s : State) (o : RowOp) : Bool :=
  s.ops.any fun p => (s.groups.any fun g => g.uid == p.guid && decide (g.stage = .stopping)) && p.work.places.any fun (l, n, _) => match l with
    | .phys pa => (List.range ((pa + n - 1) / 1024 - pa / 1024 + 1)).any fun j => o.held.contains (pa / 1024 + j)
    | .buf _ _ => false
/-- A row instruction proceeds: its group runs, or stops while an ordinary access waits for the instruction, whatever its batch (R79, R90; DESIGN CHOICE,
notes/assumptions/118.md). -/
def State.rowGoes (s : State) (o : RowOp) (g : Group) : Bool :=
  decide (g.stage = .resident) || (decide (g.stage = .stopping) && (s.mustGoOn g || s.heldAwaited o))

/-- ROW_PREPARATION. A served fault holds the instruction; a failure retires it with its code. -/
def execRowPreparation (i : Nat) (s : State) : Res :=
  match s.rowOp? i with
  | none => .next s
  | some o =>
    match s.group? o.guid with
    | none => .next s
    | some g =>
      if o.phase = .prep ∧ s.rowGoes o g = true ∧ o.wait.isNone = true ∧ s.longReady i o.guid o.strand (rowReads o) (rowWrites o) = true then
        if o.failed then .next (s.modRowOp i fun o => o.fail o.code 0)
        else
          match prepRow g { o with code := 0 } s with
          | (.ready, o1, s1) => .next (s1.modRowOp i fun _ => o1)
          | (.waits, o1, s1) => .next (s1.modRowOp i fun _ => o1)
          | (.code c n, _, s1) => .next (s1.modRowOp i fun o => o.fail c n)
          | (.fault c _ va (.trap _ _), _, s1) => .next (s1.modRowOp i fun o => { o.fail c 0 with lost := s1.pageLost o.cid va })
          | (.fault c t va (.served code), o1, s1) =>
            .next ((s1.modRowOp i fun _ => { o1 with wait := some va, code := c }).pendFault (seqDie g.core) g.cid (BitVec.ofNat 64 va) code t.kind.code
              (rowHint t.w) (.row i))
          | (_, _, s1) => .next s1
      else .next s

/-! ## Holds and queues (R160, R298, R306) -/

/-- An instruction that took its hold earlier has rows in common. -/
def blockedBy : List RowOp → RowOp → Bool
  | [], _ => false
  | p :: r, o => if p.id = o.id then false else (!p.held.isEmpty && p.held.any fun x => o.held.contains x) || blockedBy r o

/-- Instructions that hold their ranges and wait for none join the queues of their row stacks, in the order of their holds. One whose group does not
run is recorded as it waits, and joins them when the group runs again (R307). -/
def State.admitRows (s : State) : State :=
  (s.rows.ops.filter fun o => decide (o.phase = .holding) && !blockedBy s.rows.ops o).foldl (fun s o =>
    if s.groups.any fun g => g.uid == o.guid && s.rowGoes o g then
      o.runs.foldl (fun s r => s.setSeq r.stk fun q => q ++ [o.id]) (s.modRowOp o.id fun o => { o with phase := .running })
    else s.modRowOp o.id fun o => { o with phase := .running, runs := o.runs.map fun r => { r with paused := true } }) s

/-- The rows of two instructions overlap, by their virtual addresses in one context. -/
def RowOp.meets (o p : RowOp) : Bool :=
  o.cid == p.cid && (o.operands.any fun w => p.operands.any fun v => decide ((rowRange w).1 < (rowRange v).2) && decide ((rowRange v).1 < (rowRange w).2))
/-- An instruction whose rows overlap came to the sequencer earlier, at its issue, and has not taken its hold yet (R160, R298). -/
def State.holdsLater (s : State) (o : RowOp) : Bool :=
  s.rows.ops.any fun p => decide (p.id < o.id) && (decide (p.phase = .prep) || decide (p.phase = .prepared)) &&
    (o.meets p || (decide (p.phase = .prepared) && (heldRows p).any fun x => (heldRows o).contains x))

/-- ROW_HOLD: the homes hold the range, in the order in which overlapping instructions were issued; replicas and cached lines in it are dropped, under every
version (R388). -/
def execRowHold (i : Nat) (s : State) : Res :=
  match s.rowOp? i with
  | none => .next s
  | some o =>
    match s.group? o.guid with
    | none => .next s
    | some g =>
      if o.phase = .prepared ∧ s.rowGoes o g = true ∧ s.holdsLater o = false then
        let o1 := { o with phase := .holding, held := heldRows o }
        let s1 : State := { s with
          rows := { s.rows with ops := (s.rows.ops.filter fun (p : RowOp) => p.id != i) ++ [o1] },
          cores := s.cores.map fun (c : Core) => { c with replicas := c.replicas.filter fun r => !o1.held.contains (r.line * 128 / 1024) } }
        .next (s1.dropCached fun line _ => o1.held.contains (line * 128 / 1024)).admitRows
      else .next s

/-! ## Snapshots and switches (R305 to R307) -/

/-- The snapshot of a run as it stands. -/
def StackRun.mark (r : StackRun) : StackRun :=
  { r with snap := { wave := r.wave, pc := r.pc, lp := r.lp, la := r.la, regs := r.regs, outs := r.outs },
           since := 0, noForce := false, half := false }
/-- Back to the last snapshot. -/
def StackRun.rewind (r : StackRun) : StackRun :=
  if r.phase = .steps ∨ r.phase = .aseal then
    { r with phase := .steps, wave := r.snap.wave, pc := r.snap.pc, lp := r.snap.lp, la := r.snap.la, regs := r.snap.regs, outs := r.snap.outs, since := 0, pos := r.snap.pc, half := false }
  else r

/-- The reserved rows of a wave are dead: they keep what they hold, and no program may rely on it (R289). -/
def State.killReserved (s : State) (w : List Slice) : State :=
  { s with mem := { s.mem with reserved := s.mem.reserved.map fun r => if w.any fun x => x.sub == r.sub then { r with live := false } else r } }
/-- The reserved rows are dead that a run leaves at its turn; one that waits for its turn has none (R289, R306). -/
def State.leaveRows (s : State) (i : Nat) (r : StackRun) : State := if s.seqHead r.stk = some i then s.killReserved (r.waves.getD r.wave []) else s

/-- A row instruction is to stop at its next YIELD point, and otherwise at a step boundary: its group stops, and nothing waits for it to go on, or its
group aborts (R82, R307). -/
def State.rowStops (s : State) (o : RowOp) : Bool :=
  match s.group? o.guid with
  | some g => (decide (g.stage = .stopping) && !s.rowGoes o g) || decide (g.stage = .aborting)
  | none => false

/-- A YIELD point of the instruction that a row stack runs: the snapshot; then a pre-empted one stops, and one that others wait for goes to
the tail. -/
def State.yieldPoint (s : State) (i stk : Nat) : State :=
  match s.rowOp? i with
  | none => s
  | some o =>
    match o.run? stk with
    | none => s
    | some r =>
      let s1 := (s.killReserved (r.waves.getD r.wave [])).modRowOp i fun o => o.modRun stk StackRun.mark
      if s.rowStops o then (s1.modRowOp i fun o => o.modRun stk fun r => { r with paused := true }).setSeq stk fun q => q.filter fun x => x != i
      else s1.setSeq stk fun q => match q with
        | a :: b :: t => (b :: t) ++ [a]
        | _ => q

/-- The running instruction of a row stack has to leave: 4,096 steps since its last YIELD point, and another waits (R306). -/
def State.forcedDue (s : State) (stk : Nat) (r : StackRun) : Bool :=
  decide (2 ≤ (s.rows.seq.getD stk []).length) && decide (4096 ≤ r.since) && !r.noForce && (decide (r.phase = .steps) || decide (r.phase = .aseal))

/-- FORCED_SWITCH. -/
def execForcedSwitch (stk : BitVec 4) (s : State) : Res :=
  match s.rows.seq.getD stk.toNat [] with
  | i :: t =>
    match (s.rowOp? i).bind fun o => o.run? stk.toNat with
    | some r =>
      if s.forcedDue stk.toNat r then
        .next (((s.leaveRows i r).modRowOp i fun o => o.modRun stk.toNat fun r => { r.rewind with noForce := true }).setSeq stk.toNat fun _ => t ++ [i])
      else .next s
    | none => .next s
  | _ => .next s

/-- ROW_PREEMPT_STOP: a pre-empted instruction stops at a step boundary and is rewound. -/
def execRowPreemptStop (i : Nat) (stk : BitVec 4) (s : State) : Res :=
  match s.rowOp? i with
  | none => .next s
  | some o =>
    match o.run? stk.toNat with
    | some r =>
      if s.rowStops o = true ∧ r.paused = false ∧ r.phase ≠ .finished then
        .next (((s.leaveRows i r).modRowOp i fun o => o.modRun stk.toNat fun r => { r.rewind with paused := true }).setSeq stk.toNat
          fun q => q.filter fun x => x != i)
      else .next s
    | none => .next s

/-- A restored group's instructions go on (R307). -/
def State.resumeRows (s : State) (uid : Nat) : State :=
  (s.rows.ops.filter fun o => o.guid == uid).foldl (fun s o =>
    (o.runs.filter fun r => r.paused).foldl (fun s r =>
      (s.modRowOp o.id fun o => o.modRun r.stk fun r => { r with paused := false, late := 0 }).setSeq r.stk fun q => q ++ [o.id]) s) s

/-! ## Waves (R288, R296, R300) -/

/-- A refresh stands in the way of a step of a wave: an all-bank one that is due or runs, or a per-bank one that still runs in a bank of the wave
(R382, R384). -/
def State.refreshBlocks (s : State) (stk : Nat) (w : List Slice) : Bool :=
  s.rows.refresh.any fun f => f.stk == stk && w.any fun x => x.sub % 4096 / 16 == f.pch && (f.due || f.all || f.banks.contains (x.sub % 16))

/-- What stands at the head of the queue of a bank: an operation in flight, or an access of another party. -/
inductive QueueHead where
  | op (o : Op)
  | ask (a : Ask)
  deriving DecidableEq, Repr

/-- The operation in flight that came first to a bank that the wave keeps closed, and that nothing else holds back. -/
def State.headOp (s : State) (stk bank : Nat) : Option Op :=
  s.ops.find? fun o => (o.work.places.any fun (l, _, _) => match l with
    | .phys pa => decide (pa < 2 ^ 40) && stkOf pa == stk && subOf pa % 4096 == bank
    | .buf _ _ => false) && (s.openSeq stk).opReady o
/-- The head of a bank's queue: whichever came first (R385, R386). -/
def State.headAt (s : State) (stk bank : Nat) : Option QueueHead :=
  match s.headOp stk bank, s.rows.asked.find? fun a => a.stk == stk && a.bank == bank && !a.served with
  | some o, some a => some (if a.id < o.id then .ask a else .op o)
  | some o, none => some (.op o)
  | none, some a => some (.ask a)
  | none, none => none
/-- The heads of the queues of a wave's banks. -/
def State.gapHeads (s : State) (stk : Nat) : List QueueHead := ((s.waveBanks stk).eraseDups.filterMap fun b => s.headAt stk b).eraseDups
/-- A service gap is due: at least four steps since the last one, and an access waits in a bank of the wave (R385). -/
def State.gapDue (s : State) (stk : Nat) : Bool := decide (4 ≤ s.rows.gap.getD stk 0) && !(s.gapHeads stk).isEmpty

/-- The run of a row stack's running instruction, where its next step may be taken: no refresh, no service gap and no forced switch comes first, and
a group that stops or aborts has at most 64 steps left (R90, R306, R384, R385). -/
def State.stepReady (s : State) (i stk : Nat) : Option (RowOp × StackRun) :=
  if s.seqHead stk = some i then
    match s.rowOp? i with
    | none => none
    | some o =>
      match s.group? o.guid, o.run? stk with
      | some g, some r =>
        let goes := s.rowGoes o g || ((decide (g.stage = .stopping) || decide (g.stage = .aborting)) && decide (r.late < 64))
        if goes = true ∧ r.paused = false ∧ s.refreshBlocks stk (r.waves.getD r.wave []) = false ∧ s.gapDue stk = false ∧ s.forcedDue stk r = false then some (o, r) else none
      | _, _ => none
  else none

/-- WAVE_START: registers reset; a wave start is a YIELD point. -/
def execWaveStart (i : Nat) (stk : BitVec 4) (s : State) : Res :=
  match s.stepReady i stk.toNat with
  | some (_, r) =>
    if r.phase = .wave then
      let n := (r.waves.getD r.wave []).length
      let s1 := s.modRowOp i fun o => o.modRun stk.toNat fun r =>
        { r with phase := .steps, pc := 0, lp := 0, la := none, regs := List.replicate n { cr := 0, acc := 0, out := [] }, wrote := [], pos := 0 }
      .next (({ s1 with rows := { s1.rows with gap := s1.rows.gap.set stk.toNat 0 } }).yieldPoint i stk.toNat)
    else .next s
  | none => .next s

/-- The run of a row stack is over. -/
def State.finishRun (s : State) (i stk : Nat) : State :=
  let s1 := (s.modRowOp i fun o => o.modRun stk fun r => { r with phase := .finished }).setSeq stk fun q => q.filter fun x => x != i
  s1.modRowOp i fun o => if o.runs.all fun r => decide (r.phase = .finished) then { o with phase := .retiring } else o

/-- A wave ends: the next one follows, or the run is over. Its registers are kept for the output record. -/
def State.endWave (s : State) (i stk : Nat) : State :=
  match (s.rowOp? i).bind fun o => o.run? stk with
  | none => s
  | some r =>
    let w := r.waves.getD r.wave []
    let outs := r.outs ++ ((List.range w.length).map fun j => ((w.getD j { q := 0, sub := 0, a := [], b := [], c := [] }).q, r.regs.getD j { cr := 0, acc := 0, out := [] }))
    let s1 := (s.killReserved w).modRowOp i fun o => o.modRun stk fun r => { r with outs := outs, wave := r.wave + 1, phase := .wave, pc := 0, lp := 0, la := none, regs := [] }
    if r.wave + 1 < r.waves.length then s1 else s1.finishRun i stk

/-- A run-time stop (R299): every row stack of the instruction stops. -/
def State.stopRow (s : State) (i stk : Nat) (code : Byte) (widx : Nat) : State :=
  match s.rowOp? i with
  | none => s
  | some o =>
    let s1 := s.modRowOp i fun o => { o with code := code, widx := widx, phase := .retiring, runs := o.runs.map fun r =>
      { r with phase := .finished, stop := if r.stk = stk then some (code, widx) else r.stop } }
    o.runs.foldl (fun s r => (s.leaveRows i r).setSeq r.stk fun q => q.filter fun x => x != i) s1

/-- `n` steps have run. -/
def State.countSteps (s : State) (i stk n : Nat) : State :=
  let late := s.rows.ops.any fun o => o.id == i && s.groups.any fun g => g.uid == o.guid && decide (g.stage ≠ .resident)
  let s1 := s.modRowOp i fun o => { o.modRun stk fun r => { r with since := r.since + n, late := if late then r.late + n else r.late } with steps := o.steps + n }
  { s1 with rows := { s1.rows with gap := modAt s1.rows.gap stk fun x => x + n } }

/-- The greatest slice of `a` in a wave. -/
def waveDepth (w : List Slice) : Nat := w.foldl (fun m x => Nat.max m x.a.length) 0

/-- ROWSEAL_STEP: one slice row position, in every subarray of the wave (R294). -/
def execRowsealStep (i : Nat) (stk : BitVec 4) (s : State) : Res :=
  match s.stepReady i stk.toNat with
  | some (o, r) =>
    if o.kind = 2 ∧ r.phase = .steps then
      let w := r.waves.getD r.wave []
      let s1 := w.foldl (fun (s : State) x => match x.a[r.pc]? with
        | some pa => { s with mem := { s.mem with unsealed := s.mem.unsealed.filter fun u => u != pa / 1024 } }
        | none => s) s
      let s2 := (s1.countSteps i stk.toNat 1).modRowOp i fun o => o.modRun stk.toNat fun r => { r with pc := r.pc + 1 }
      .next (if waveDepth w ≤ r.pc + 1 then s2.endWave i stk.toNat else s2.yieldPoint i stk.toNat)
    else .next s
  | none => .next s

/-- ASEAL_STEP: one written position (R295). -/
def execAsealStep (i : Nat) (stk : BitVec 4) (s : State) : Res :=
  match s.stepReady i stk.toNat with
  | some (_, r) =>
    if r.phase = .aseal then
      let w := r.waves.getD r.wave []
      let p := r.wrote.getD r.pos 0
      let s1 := w.foldl (fun (s : State) x =>
        match (if p / 2 ^ 20 = 0 then x.a else if p / 2 ^ 20 = 1 then x.b else x.c)[p % 2 ^ 20]? with
        | some pa => { s with mem := { s.mem with unsealed := s.mem.unsealed.filter fun u => u != pa / 1024 } }
        | none => s) s
      let s2 := (s1.countSteps i stk.toNat 1).modRowOp i fun o => o.modRun stk.toNat fun r => { r with pos := r.pos + 1 }
      .next (if r.wrote.length ≤ r.pos + 1 then s2.endWave i stk.toNat else s2)
    else .next s
  | none => .next s

/-! ## ROWLD (R293, R171) -/

/-- The coordinates over dimensions 1 upwards of plane stack `p`. -/
def stackCoords (w : List Word) (p : Nat) : List Nat :=
  ((List.range 5).foldl (fun (a : Nat × List Nat) k =>
    if k + 1 < entNdim w then (a.1 / entExt w (k + 1), a.2 ++ [a.1 % entExt w (k + 1)]) else (a.1, a.2 ++ [0])) (p, [])).2

/-- A linear tensor read as memory whatever its TIER: its element at coordinates `c`. -/
def memElem (w : List Word) (c : List Nat) : ElemAt := elemAt (w.set 1 (wordAt w 1 &&& ~~~0x18000)) c

/-- An element of a linear tensor as an integer under its format: the codes of t2 stay codes. -/
def linearCode (o : RowOp) (w : List Word) (c : List Nat) (s : State) : Nat :=
  let e := memElem w c
  leNat (readVirt o.cid (entVer w) o.pages e.lo.toNat e.n s) / 2 ^ e.shift % 2 ^ e.width

/-- An element fitted to `wd` bits (R171, R164): its bits and whether it was clamped. -/
def fitPlanes (sat : Bool) (fmt wd code : Nat) : Nat × Bool :=
  if fmt = 15 then (code % 4, false)
  else
    let z := tyRead fmt code
    let lo : Int := if tySigned fmt then -(2 ^ (wd - 1) : Nat) else 0
    let hi : Int := if tySigned fmt then (2 ^ (wd - 1) : Nat) - 1 else (2 ^ wd : Nat) - 1
    if sat && (decide (z < lo) || decide (hi < z)) then (intWrap wd (if z < lo then lo else hi), true) else (intWrap wd z, false)

/-- Plane `b` of plane stack `p` from the linear tensor, and whether an element was clamped. -/
def planeFrom (o : RowOp) (w : List Word) (p b : Nat) (s : State) : VReg × Bool :=
  (List.range (entExt o.ea 0)).foldl (fun (a : VReg × Bool) j =>
    let r := fitPlanes o.sat (entFmt o.ea) (entWidth o.ea) (linearCode o w (j :: stackCoords o.ea p) s)
    (if natBit r.1 b then a.1 ||| BitVec.ofNat 8192 (2 ^ j) else a.1, a.2 || r.2)) (0, false)

/-- The tensor row number of row `pa`. -/
def rowNumber (o : RowOp) (pa : Nat) : Nat := (tensorRows o.pages o.ea).flatten.idxOf pa

/-- The pages of the linear tensor or of the output that an instruction reaches, by their physical addresses. -/
def RowOp.outPages (o : RowOp) : List Nat :=
  if o.code = 0 then
    (if o.kind = 0 then o.ew.toList else o.eo.toList).flatMap fun w => (pageTouches (linSpan w).1 (linSpan w).2 .write w).map fun t => opPa o.pages t.va / 4096 * 4096
  else []
/-- An access to one of them waits (R160, R383, R385, R411). -/
def State.outWaits (s : State) (o : RowOp) : Bool := o.outPages.any fun pa => s.seqWaits o.id pa 4096
/-- It takes its place in the queues of their banks. -/
def State.askOut (s : State) (o : RowOp) : State := (o.outPages.filter fun pa => s.seqWaits o.id pa 4096).foldl (fun s pa => s.askGap (.row o.id) pa) s

/-- What the read of plane stack `p` of the linear tensor does beside: its lines pass the caches, its unsealed rows are counted, and a link that no
longer carries it is noted (R110, R142, R380). -/
def State.readLinear (s : State) (o : RowOp) (w : List Word) (p : Nat) : State :=
  let pas := (List.range (entExt o.ea 0)).map fun j => opPa o.pages (memElem w (j :: stackCoords o.ea p)).lo.toNat
  let s1 := s.seqTouch o.cid (entVer w) (pas.map fun pa => pa / 128).eraseDups
  let s2 := (pas.map fun pa => pa / 1024).eraseDups.foldl (fun s r => s.countUnsealed o.cid (.phys (1024 * r))) s1
  if pas.any fun pa => s.remoteIs pa s.linkLost then s2.modRowOp o.id fun o => { o with lost := true } else s2

/-- ROWLD_PLANE_STEP: one slice row position, in every subarray of the wave. -/
def execRowldPlaneStep (i : Nat) (stk : BitVec 4) (s : State) : Res :=
  match s.stepReady i stk.toNat with
  | some (o, r) =>
    if o.kind = 0 ∧ r.phase = .steps ∧ o.toLinear = false ∧ s.outWaits o = true then .next (s.askOut o)
    else if o.kind = 0 ∧ r.phase = .steps then
      let w := r.waves.getD r.wave []
      let s1 := w.foldl (fun (s : State) x => match x.a[r.pc]? with
        | none => s
        | some pa =>
          if o.toLinear then
            let rd := s.baseRead pa
            s.modRowOp i fun o => { o with uns := o.uns || rd.2.1, ce := o.ce || rd.2.2 }
          else
            let n := rowNumber o pa
            let (v, clampd) := planeFrom o (o.ew.getD []) (n / entWidth o.ea) (n % entWidth o.ea) s
            ((s.readLinear o (o.ew.getD []) (n / entWidth o.ea)).putRow pa v true).modRowOp i fun o => { o with flags := if clampd then o.flags ||| fSAT else o.flags }) s
      let s2 := ((s1.dropAsk (.row i)).countSteps i stk.toNat 1).modRowOp i fun o => o.modRun stk.toNat fun r => { r with pc := r.pc + 1 }
      .next (if waveDepth w ≤ r.pc + 1 then s2.endWave i stk.toNat else s2.yieldPoint i stk.toNat)
    else .next s
  | none => .next s

/-- Write bytes of virtual memory through translated pages, under a version; a byte of a remote module without a usable link is lost. -/
def writeVirt (cid : Nat) (ver : BitVec 32) (ps : List OpPage) (va : Nat) (xs : List Byte) (s : State) : State × Bool :=
  (List.range xs.length).foldl (fun (a : State × Bool) j =>
    let pa := opPa ps (va + j)
    (a.1.writeHome (a.1.keyOf cid) ver pa ((xs.drop j).take 1), a.2 || a.1.remoteIs pa a.1.linkLost)) (s, false)

/-- One element of the linear tensor, from its planes. -/
def linearFrom (o : RowOp) (w : List Word) (p j : Nat) (a : State × Bool) : State × Bool :=
  let code := (List.range (entWidth o.ea)).foldl (fun n b =>
    n + (if ((a.1.baseRead (opPa o.pages (planeAt o.ea p b))).1).getLsbD j then 2 ^ b else 0)) 0
  let fmt := entFmt o.ea
  let full := if tySigned fmt then intWrap (tyWidth fmt) (natSigned (entWidth o.ea) code) else code
  let e := memElem w (j :: stackCoords o.ea p)
  let old := leNat (readVirt o.cid (entVer w) o.pages e.lo.toNat e.n a.1)
  let new := old - old / 2 ^ e.shift % 2 ^ e.width * 2 ^ e.shift + full % 2 ^ e.width * 2 ^ e.shift
  let r := writeVirt o.cid (entVer w) o.pages e.lo.toNat (leBytes e.n new) a.1
  (r.1, a.2 || r.2)

/-! ## Retirement (R297, R298) -/

/-- The row status word. -/
def RowOp.status (o : RowOp) : Word :=
  BitVec.ofNat 64 (o.code.toNat + 2 ^ 8 * o.kind + 2 ^ 10 * o.uns.toNat + 2 ^ 11 * o.ce.toNat + 2 ^ 12 * (o.widx % 1024) +
    2 ^ 32 * (if o.steps < 2 ^ 24 then o.steps else 2 ^ 24 - 1) + 2 ^ 63)

/-- The lines of the bytes `lo` to `hi - 1` through translated pages. -/
def RowOp.linesOf (o : RowOp) (lo hi : Nat) : List Nat :=
  if hi ≤ lo then [] else ((List.range ((hi - 1) / 128 - lo / 128 + 1)).map fun i => opPa o.pages (128 * (lo / 128 + i)) / 128).eraseDups

/-- What a finished instruction writes to memory: output records, or the linear tensor; the flag says that bytes were lost. -/
def rowOutput (o : RowOp) (s : State) : State × Bool :=
  if o.code ≠ 0 then (s, false)
  else if o.toLinear then
    match o.ew with
    | some w =>
      (List.range (stackCount o.ea)).foldl (fun a p => (List.range (entExt o.ea 0)).foldl (fun a j => linearFrom o w p j a) a)
        (s.seqTouch o.cid (entVer w) (o.linesOf (linSpan w).1 (linSpan w).2), false)
    | none => (s, false)
  else
    match o.eo with
    | some w =>
      let outs := o.runs.flatMap fun r => r.outs
      let s0 := s.seqTouch o.cid (entVer w) (o.linesOf (byteSpan w).1 (entBase w + outs.length * o.recordSize outs.length))
      (List.range outs.length).foldl (fun a q => match outs.find? fun x => x.1 == q with
        | some x =>
          let r := writeVirt o.cid (entVer w) o.pages (entBase w + q * o.recordSize outs.length)
            (leBytes 8 x.2.acc.toNat ++ x.2.out.flatMap fun v => leBytes 1024 v.toNat) a.1
          (r.1, a.2 || r.2)
        | none => a) (s0, false)
    | none => (s, false)

/-- The sets of released rows whose last hold this was end sealed where every row is sealed (R378). -/
def State.releaseSets (s : State) (held : List Nat) : State :=
  { s with rows := { s.rows with sets := s.rows.sets.map fun r =>
      let mine (row : Nat) : Bool := r.subs.contains (subOf (row * 1024))
      if (held.any mine) && !(s.rows.ops.any fun o => o.held.any mine) && !(s.mem.unsealed.any mine) then { r with mark := .sealed } else r } }

/-- The range is released, and instructions that waited for it may begin. -/
def State.dropRowOp (s : State) (i : Nat) : State :=
  match s.rowOp? i with
  | none => s
  | some o =>
    (({ s with rows := { s.rows with ops := s.rows.ops.filter fun (p : RowOp) => p.id != i, seq := s.rows.seq.map fun (q : List Nat) => q.filter fun x => x != i } } : State).releaseSets o.held).admitRows

/-- ROW_RETIRE. -/
def execRowRetire (i : Nat) (s : State) : Res :=
  match s.rowOp? i with
  | none => .next s
  | some o =>
    match s.group? o.guid with
    | none => .next s
    | some g =>
      if o.phase = .retiring ∧ (g.stage = .resident ∨ g.stage = .stopping) ∧ s.outWaits o = true then .next (s.askOut o)
      else if o.phase = .retiring ∧ (g.stage = .resident ∨ g.stage = .stopping) then
        let (s1, out) := rowOutput o (s.dropAsk (.row i))
        let lost := out || o.lost
        let s2 := s1.modGroup o.guid fun g => { g with rowStat := g.rowStat.set o.tid o.status }
        let s3 := (if lost then s2.markLost i else s2).modStrand o.guid o.strand fun t => (t.flag o.flags).fallR
        let s4 := (s3.dropRowOp i).dropLock i
        .next (if natBit o.options.toNat 50 then s4.engineArrive o.guid (natBits o.options.toNat 49 40) lost else s4)
      else .next s

end Sys2Proof.Machine
end

