-- ==== Sys2Proof/Machine/Host.lean ====
section
/-!
DEFINITION. The command mailboxes and the context commands (spec/03_context.md R40 to R56; R435).
-/
namespace Sys2Proof.Machine

open Sys2Proof

/-! ## Mailboxes (R47 to R49, R59) -/

/-- How the device takes a command. -/
inductive CmdEnd where
  /-- It fails with a status and changes nothing. -/
  | fail (code : Nat)
  /-- It is done. -/
  | done (s : State)
  /-- It stays in progress. -/
  | later (s : State)

/-- Status word `n` of a window, without its BUSY bit: a status and a granted slot. -/
def statusWord (code slot : Nat) : Word := BitVec.ofNat 64 (code + 2 ^ 16 * slot)
def busyBit : Word := 0x100

/-- A status for context `n` in the window of a port; the answer of a command has BUSY clear, also while another command
of the slot is in progress (notes/assumptions/62.md). -/
def State.ctxReply (s : State) (port n code slot : Nat) : State :=
  s.modWindow port fun w => { w with ctxStat := w.ctxStat.set n (statusWord code slot) }
def State.qReply (s : State) (port n code : Nat) : State :=
  s.modWindow port fun w => { w with qStat := w.qStat.set n (statusWord code 0) }

/-- A command of context `n` is in progress. -/
def State.ctxBegin (s : State) (n : Nat) (c : Cmd) : State :=
  (s.modCtx n fun x => { x with cmd := some c }).modWindow c.port fun w => { w with ctxStat := w.ctxStat.set n busyBit }
def State.qBegin (s : State) (n : Nat) (c : Cmd) : State :=
  (s.modQueue n fun x => { x with cmd := some c }).modWindow c.port fun w => { w with qStat := w.qStat.set n busyBit }

/-- The command in progress on context `n` ends. -/
def State.ctxEnd (s : State) (n code : Nat) : State :=
  match (s.ctx n).cmd with
  | none => s
  | some c => (s.modCtx n fun x => { x with cmd := none }).modWindow c.port fun w => { w with ctxStat := w.ctxStat.set n (statusWord code 0) }
def State.qEnd (s : State) (n code : Nat) : State :=
  match (s.queue n).cmd with
  | none => s
  | some c => (s.modQueue n fun x => { x with cmd := none }).modWindow c.port fun w => { w with qStat := w.qStat.set n (statusWord code 0) }

/-- CID of a context command word. -/
def cidOf (w : Word) : Nat := natBits w.toNat 13 8
/-- Bits 63:`lo` of a command word. -/
def argFrom (w : Word) (lo : Nat) : Nat := w.toNat / 2 ^ lo

/-- A command handled as one to context `n`: the checks in the order of R48, then its own. -/
def ctxCommandAt (n : Nat) (port : BitVec 3) (w : Word) (bad : Bool) (f : State → CmdEnd) (s : State) : Res :=
  let p := port.toNat
  if s.plat.owner.toNat ≠ p then .next (s.ctxReply p n 2 0)
  else if (s.ctx n).cmd.isSome then .next (s.ctxReply p n 6 0)
  else if bad || decide (natBits w.toNat 15 14 ≠ 0) then .next (s.ctxReply p n 3 0)
  else
    match f s with
    | .fail c => .next (s.ctxReply p n c 0)
    | .done s1 => .next (s1.ctxReply p n 0 0)
    | .later s1 => .next (s1.ctxBegin n { port := p, word := w, op1 := wordAt (s.window p).ctxBox 1 })

/-- A context command: it is one to the context that it names. -/
def ctxCommand (port : BitVec 3) (w : Word) (bad : Bool) (f : State → CmdEnd) (s : State) : Res := ctxCommandAt (cidOf w) port w bad f s

/-- The command is allowed in the context's state. -/
def inState (c : Nat) (p : CtxState → Bool) (s : State) (f : CmdEnd) : CmdEnd := if p (s.ctx c).state then f else .fail 1
/-- Claimed to suspended (R47). -/
def CtxState.early (x : CtxState) : Bool :=
  decide (x = .claimed) || decide (x = .scrubbing) || decide (x = .ready) || decide (x = .running) || decide (x = .suspended)

/-! ## Claiming and loading (R41, R43, R51) -/

/-- CLAIM: the slot named, or any free slot; which one of several is not stated (notes/assumptions/16.md). An any-slot CLAIM is handled as a
command to context 0 (R48). -/
def execClaim (port : BitVec 3) (w : BitVec 64) (s : State) : Res :=
  let any := natBit w.toNat 16
  let p := port.toNat
  let bad := decide (argFrom w 17 ≠ 0) || (any && decide (cidOf w ≠ 0))
  let fresh : Context := { Context.reset with state := .claimed, owner := s.plat.owner }
  if any = false then
    ctxCommand port w bad (fun s => inState (cidOf w) (fun x => decide (x = .free)) s (.done (s.modCtx (cidOf w) fun _ => fresh))) s
  else if s.plat.owner.toNat = p ∧ bad = false ∧ natBits w.toNat 15 14 = 0 ∧ (s.ctx 0).cmd = none then
    let free := (List.range 64).filter fun c => decide ((s.ctx c).state = .free)
    if free.isEmpty then .next (s.ctxReply p 0 4 0)
    else
      let c := free.getD ((Config.freeWord s.fresh).toNat % free.length) 0
      .next ((s.tick.modCtx c fun _ => fresh).ctxReply p 0 0 c)
  else ctxCommandAt 0 port w true (fun _ => .fail 3) s

/-- Every frame of a run of `n` frames is one that the device may use for a context: the frames of a run lie in DRAM, in no 2 GiB block that
the row region or the reading room takes, and in no retired subarray. -/
def State.goodRun (s : State) (frame n : Nat) : Bool :=
  decide ((frame + n) * 4096 ≤ 2 ^ 40) &&
  ((List.range ((frame + n - 1) / 2 ^ 19 - frame / 2 ^ 19 + 1)).all fun i =>
    let sub := (frame / 2 ^ 19 + i) * 4096
    !s.inRowRegion sub && !s.inReadingRoom sub) &&
  !(s.rows.retired.any fun sub => (List.range 128).any fun j => let f := rowAddr sub (4 * j) / 4096; decide (frame ≤ f) && decide (f < frame + n))

/-- A descriptor meets every condition of R41. -/
def State.descOk (s : State) (d : List Word) : Bool :=
  let b (i hi lo : Nat) : Nat := natBits (wordAt d i).toNat hi lo
  decide (b 0 11 3 = 0) && decide (b 0 63 52 = 0) && decide (b 1 11 0 = 0) && decide (b 1 63 52 = 0) && decide (b 3 63 41 = 0) &&
  decide (b 4 63 7 = 0) && decide (1 ≤ b 4 6 0) && decide (b 4 6 0 ≤ 64) && decide (b 5 11 0 = 0) && decide (b 5 63 52 = 0) &&
  decide (b 6 63 32 = 0) && decide (b 7 63 0 = 0) && decide (1091 ≤ b 6 31 0) &&
  s.goodFrame (b 0 51 12 * 4096) && (decide (b 1 51 12 = 0) || s.goodFrame (b 1 51 12 * 4096)) && s.goodRun (b 5 51 12) (b 6 31 0)

/-- A die that the spec does not name. -/
def State.someDie (s : State) : Nat := (Config.freeWord s.fresh).toNat % 24

/-- LOADDESC. -/
def execLoaddesc (port : BitVec 3) (w : BitVec 64) (s : State) : Res :=
  let c := cidOf w
  let d := wordsOf 8 (s.sysRead (natBits w.toNat 61 16 * 64) 64)
  ctxCommand port w (decide (argFrom w 62 ≠ 0) || !s.descOk d)
    (fun s => inState c (fun x => decide (x = .claimed)) s (.done
      ((s.tick.modCtx c fun x => { x with
          desc := true, pceil := (wordAt d 0).extractLsb' 0 3, root := (wordAt d 0).extractLsb' 12 40, fflh := (wordAt d 1).extractLsb' 12 40,
          ffln := (wordAt d 2).extractLsb' 0 32, flow := (wordAt d 2).extractLsb' 32 32, wq := (wordAt d 3).extractLsb' 0 41,
          ba := (wordAt d 4).extractLsb' 0 7, saveb := (wordAt d 5).extractLsb' 12 40, saven := (wordAt d 6).extractLsb' 0 32,
          armed := true, latched := d }).frameLow c s.someDie 0))) s

/-- The key pair of a wrapped key record, or the status of its failure (R443). -/
def State.unwrapKey (s : State) (r : List Byte) : Except Nat (BitVec 512) :=
  match s.plat.sessions.getD (r.getD 1 0).toNat none with
  | none => .error 7
  | some k =>
    match keyUnwrap k ((r.drop 8).take 72) with
    | none => .error 7
    | some key => if key.extractLsb' 0 256 = key.extractLsb' 256 256 then .error 7 else .ok key

/-- LOADKEY. -/
def execLoadkey (port : BitVec 3) (w : BitVec 64) (s : State) : Res :=
  let c := cidOf w
  let r := s.sysRead (natBits w.toNat 61 16 * 64) 128
  let bad := decide (argFrom w 62 ≠ 0) || decide (r.getD 0 0 ≠ 1) || !(((r.drop 2).take 6).all fun b => b == 0) || !((r.drop 80).all fun b => b == 0)
  ctxCommand port w bad
    (fun s => inState c (fun x => decide (x = .claimed)) s
      (match s.unwrapKey r with
       | .error e => .fail e
       | .ok key => .done (s.modCtx c fun x => { x with key := some key }))) s

/-- ACTIVATE: the scrub begins. -/
def execActivate (port : BitVec 3) (w : BitVec 64) (s : State) : Res :=
  let c := cidOf w
  ctxCommand port w (decide (argFrom w 16 ≠ 0))
    (fun s => inState c (fun x => decide (x = .claimed)) s
      (if (s.ctx c).desc = true ∧ (s.ctx c).key.isSome = true then .later (s.modCtx c fun x => { x with state := .scrubbing }) else .fail 5)) s

/-- Every read-only replica of a context is dropped. -/
def State.dropReplicas (s : State) (cid : Nat) : State :=
  { s with cores := s.cores.map fun c => { c with replicas := c.replicas.filter fun (r : Replica) => r.cid != cid } }

/-- SCRUB_COMPLETE (R52). -/
def execScrubComplete (cid : BitVec 6) (s : State) : Res :=
  let c := cid.toNat
  if (s.ctx c).state = .scrubbing then
    .next ((((s.invalAll c).dropReplicas c).modCtx c fun x =>
      { x with state := .ready, unsrd := 0, cur := 0, llhit := List.replicate 8 0, llmiss := List.replicate 8 0 }).ctxEnd c 0)
  else .next s

/-! ## Suspending and resuming (R51, R53) -/

/-- A group counts as saved for SUSPEND and KHOLD (R92, R96). -/
def Group.rests (g : Group) : Bool := decide (g.stage = .saved) || decide (g.stage = .stuck)
/-- OP of the command in progress. -/
def Cmd.op (c : Cmd) : Nat := natBits c.word.toNat 7 0

/-- SUSPEND in progress ends once every group of the context is saved. -/
def State.settleSuspend (s : State) (c : Nat) : State :=
  match (s.ctx c).cmd with
  | some m => if m.op = 5 ∧ (s.groups.all fun g => g.cid != c || g.rests) = true then s.ctxEnd c 0 else s
  | none => s

/-- Pre-empt every resident group that `p` selects, with reason 3. -/
def State.saveAll (s : State) (p : Group → Bool) : State := (s.groups.filter p).foldl (fun s g => s.requestSave g.uid 3) s

/-- SUSPEND. -/
def execSuspend (port : BitVec 3) (w : BitVec 64) (s : State) : Res :=
  let c := cidOf w
  match ctxCommand port w (decide (argFrom w 16 ≠ 0))
    (fun s => inState c (fun x => decide (x = .ready) || decide (x = .running)) s
      (.later ((s.modCtx c fun x => { x with state := .suspended }).saveAll fun g => g.cid == c))) s with
  | .next s1 => .next (s1.settleSuspend c)
  | r => r

/-- A group that could not be saved and may go on (R92). -/
def Group.freed (g : Group) : Bool := decide (g.stage = .stuck) && decide (g.reason = 3) && !g.halt
/-- Groups that could not be saved go on, with their row instructions (R92, R307). -/
def State.unstick (s : State) (p : Group → Bool) : State :=
  (s.groups.filter fun g => g.freed && p g).foldl (fun s g => s.resumeRows g.uid)
    { s with groups := s.groups.map fun (g : Group) => if g.freed && p g then { g with stage := .resident } else g }

/-- The kernel of a group is not held. -/
def State.unheldKernel (s : State) (g : Group) : Bool := match s.kernel? g.kuid with
  | some k => !k.held
  | none => true

/-- RESUME. -/
def execResume (port : BitVec 3) (w : BitVec 64) (s : State) : Res :=
  let c := cidOf w
  ctxCommand port w (decide (argFrom w 16 ≠ 0))
    (fun s => inState c (fun x => decide (x = .suspended)) s (.done ((s.modCtx c fun x => { x with state := .ready }).unstick fun g => g.cid == c && s.unheldKernel g))) s

/-! ## Retiring and releasing (R51, R54, R72) -/

/-- RETIRE is allowed. -/
def CtxState.live (x : CtxState) : Bool := decide (x = .ready) || decide (x = .running) || decide (x = .suspended)

/-- RETIRE in abort mode. -/
def execRetireAbort (port : BitVec 3) (w : BitVec 64) (s : State) : Res :=
  let c := cidOf w
  ctxCommand port w (decide (argFrom w 16 ≠ 0)) (fun s => inState c CtxState.live s (.later (s.drainContext c true 0x01))) s

/-- RETIRE in finish mode: the groups that a SUSPEND holds run again. -/
def execRetireFinish (port : BitVec 3) (w : BitVec 64) (s : State) : Res :=
  let c := cidOf w
  ctxCommand port w (decide (argFrom w 16 ≠ 1))
    (fun s => inState c CtxState.live s (.later ((s.drainContext c false 0x01).unstick fun g => g.cid == c && s.unheldKernel g))) s

/-! ## Quota, frames, ceiling (R42, R44, R46) -/

/-- ADDQUOTA: a sum above 2^40 - 1 fails with status 3. -/
def execAddquota (port : BitVec 3) (w : BitVec 64) (s : State) : Res :=
  let c := cidOf w
  let sum := (s.ctx c).wq.toInt + (natBits w.toNat 56 16 : Nat)
  ctxCommand port w (decide (argFrom w 57 ≠ 0) || decide ((2 : Int) ^ 40 - 1 < sum))
    (fun s => inState c CtxState.early s (.done (s.modCtx c fun x => { x with wq := BitVec.ofInt 41 sum }))) s

/-- The last page of a free-frame list, from a page, looking at `n` pages at most; or a page whose link cannot be read (R337). -/
def State.lastPage (s : State) (c page : Nat) : Nat → Except Nat Nat
  | 0 => .ok page
  | n + 1 =>
    if s.uncorrectable page then .error page
    else if pteAddr (s.pte c page) = 0 then .ok page else s.lastPage c (pteAddr (s.pte c page)) n

/-- ADDFRAMES: the page is appended; its frames and the page itself count. A list page that cannot be read is fatal to the context (R337). In claimed and
scrubbing R51 has no fatal error: there the command goes on, and FFLN rises where only the last page of the list cannot be read (DESIGN CHOICE,
notes/assumptions/106.md). -/
def State.addFrames (s : State) (c page : Nat) : State :=
  let n := ((List.range 511).filter fun i => decide (pteAddr (s.pte c (page + 8 * (i + 1))) ≠ 0)).length + 1
  let x := s.ctx c
  let s1 :=
    if x.fflh = 0 then s.modCtx c fun x => { x with fflh := BitVec.ofNat 40 (page / 4096) }
    else
      match s.lastPage c (x.fflh.toNat * 4096) (x.ffln.toNat + 1) with
      | .ok last => s.setPte c last (pteSetFrame (s.pte c last) page)
      | .error bad => s.contextError c 1 0 bad
  if s.badList page then s.contextError c 1 0 page else s1.modCtx c fun x => let f := x.ffln + BitVec.ofNat 32 n; { x with ffln := f, armed := x.armed || decide (x.flow.toNat ≤ f.toNat) }

/-- ADDFRAMES. A list page outside the frames that the device may give out, as in a retired subarray (R19), is a bad argument (DEDUCED,
notes/assumptions/106.md). -/
def execAddframes (port : BitVec 3) (w : BitVec 64) (s : State) : Res :=
  let c := cidOf w
  ctxCommand port w (decide (argFrom w 56 ≠ 0) || !s.goodFrame (natBits w.toNat 55 16 * 4096)) (fun s => inState c CtxState.early s (.done (s.addFrames c (natBits w.toNat 55 16 * 4096)))) s

/-- SETCEIL. -/
def execSetceil (port : BitVec 3) (w : BitVec 64) (s : State) : Res :=
  let c := cidOf w
  ctxCommand port w (decide (argFrom w 19 ≠ 0))
    (fun s => inState c CtxState.early s (.done (s.modCtx c fun x => { x with pceil := w.extractLsb' 16 3 }))) s

/-! ## QUERY (R50) -/

/-- The code of a state. -/
def CtxState.code : CtxState → Nat
  | .free => 0
  | .claimed => 1
  | .scrubbing => 2
  | .ready => 3
  | .running => 4
  | .suspended => 5
  | .draining => 6
  | .retired => 7

/-- Operand words 1 to 7 of the answer: the descriptor words as latched, FFLN and WQ at their current values. -/
def Context.answer (x : Context) : List Word :=
  if x.state = .free then List.replicate 7 0
  else
    [BitVec.ofNat 64 (x.state.code + 2 ^ 4 * x.desc.toNat + 2 ^ 5 * x.key.isSome.toNat + 2 ^ 32 * natBits (wordAt x.latched 6).toNat 31 0),
     wordAt x.latched 0, wordAt x.latched 1, BitVec.ofNat 64 (x.ffln.toNat + 2 ^ 32 * natBits (wordAt x.latched 2).toNat 63 32), BitVec.ofNat 64 x.wq.toNat,
     wordAt x.latched 4, wordAt x.latched 5]

/-- QUERY: any host, at once. -/
def execQuery (port : BitVec 3) (w : BitVec 64) (s : State) : Res :=
  let c := cidOf w
  let p := port.toNat
  if argFrom w 14 ≠ 0 then .next (s.ctxReply p c 3 0)
  else .next ((s.modWindow p fun v => { v with ctxBox := v.ctxBox.headD 0 :: (s.ctx c).answer }).ctxReply p c 0 0)

end Sys2Proof.Machine
end

