-- ==== Sys2Proof/Machine/Queue.lean ====
section
/-!
DEFINITION. Queues, launch records, wait clauses and the dispatcher (spec/04_queue.md R58 to R72), with RELEASE, which discards the
records of a context's queues.
-/
namespace Sys2Proof.Machine

open Sys2Proof

/-! ## Kernels of a queue -/

/-- Admitted kernels of a queue not yet retired (R61). -/
def State.nadm (s : State) (q : Nat) : Nat := (s.kernels.filter fun k => k.qid == q).length
/-- The effective priority of a queue (R44). -/
def State.prioOf (s : State) (q : Nat) : Nat := Nat.min (s.queue q).level.toNat (s.ctx (s.queue q).cid).pceil.toNat

/-! ## Queue commands (R59) -/

def qidOf (w : Word) : Nat := natBits w.toNat 15 8

/-- A queue command: the checks in the order of R48, then its own. -/
def qCommand (port : BitVec 3) (w : Word) (bad : Bool) (f : State → CmdEnd) (s : State) : Res :=
  let p := port.toNat
  let n := qidOf w
  if s.plat.owner.toNat ≠ p then .next (s.qReply p n 2)
  else if (s.queue n).cmd.isSome then .next (s.qReply p n 6)
  else if bad then .next (s.qReply p n 3)
  else
    match f s with
    | .fail c => .next (s.qReply p n c)
    | .done s1 => .next (s1.qReply p n 0)
    | .later s1 => .next (s1.qBegin n { port := p, word := w, op1 := wordAt (s.window p).qBox 1 })

/-- QBIND. -/
def execQbind (port : BitVec 3) (w : BitVec 64) (s : State) : Res :=
  let n := qidOf w
  let op1 := wordAt (s.window port.toNat).qBox 1
  let f (hi lo : Nat) : Nat := natBits w.toNat hi lo
  let log2n := f 36 32
  let base := natBits op1.toNat 56 12 * 4096
  let bad := decide (f 31 29 ≠ 0) || decide (f 63 37 ≠ 0) || decide (8 < f 28 25) || decide (log2n < 4) || decide (16 < log2n) ||
    decide (natBits op1.toNat 11 0 ≠ 0) || decide (natBits op1.toNat 63 57 ≠ 0) || decide (base % Nat.max 4096 (128 * 2 ^ log2n) ≠ 0)
  qCommand port w bad (fun s =>
    if (s.queue n).state = .unbound ∧ (s.ctx (f 21 16)).state.early = true then
      .done (s.modQueue n fun q => { q with
        state := .stopped, cid := f 21 16, level := BitVec.ofNat 3 (f 24 22), feed := f 28 25, log2n := log2n, base := BitVec.ofNat 64 base,
        head := 0, tail := 0, held := none, lastTag := none })
    else .fail 1) s

/-- The command is allowed in the queue's state. -/
def inQueue (n : Nat) (p : Queue → Bool) (s : State) (f : CmdEnd) : CmdEnd := if p (s.queue n) then f else .fail 1

/-- QSTART; from faulted the fetch at HEAD is made again (R72). -/
def execQstart (port : BitVec 3) (w : BitVec 64) (s : State) : Res :=
  let n := qidOf w
  qCommand port w (decide (argFrom w 16 ≠ 0))
    (fun s => inQueue n (fun q => decide (q.state = .stopped) || decide (q.state = .faulted)) s
      (.done (s.modQueue n fun q => if q.state = .faulted then { q with state := .active, fcause := 0, held := none } else { q with state := .active }))) s

/-- QSTOP. -/
def execQstop (port : BitVec 3) (w : BitVec 64) (s : State) : Res :=
  let n := qidOf w
  qCommand port w (decide (argFrom w 16 ≠ 0))
    (fun s => inQueue n (fun q => decide (q.state = .active)) s (.done (s.modQueue n fun q => { q with state := .stopped }))) s

/-- A draining queue of a context that is neither draining nor retired stops once it is empty and has no kernel (R72). -/
def State.settleDrain (s : State) (n : Nat) : State :=
  let q := s.queue n
  if q.state = .draining ∧ q.head = q.tail ∧ s.nadm n = 0 ∧ (s.ctx q.cid).state ≠ .draining ∧ (s.ctx q.cid).state ≠ .retired then
    (s.modQueue n fun q => { q with state := .stopped, held := none }).qEnd n 0
  else s

/-- QDRAIN. -/
def execQdrain (port : BitVec 3) (w : BitVec 64) (s : State) : Res :=
  let n := qidOf w
  match qCommand port w (decide (argFrom w 16 ≠ 0))
    (fun s => inQueue n (fun q => decide (q.state = .stopped) || decide (q.state = .active) || decide (q.state = .faulted)) s
      (.later (s.modQueue n fun q => { q with state := .draining, dstatus := 0x41 }))) s with
  | .next s1 => .next (s1.settleDrain n)
  | r => r

/-- The binding is cleared, and with it the fault cause (notes/assumptions/60.md). -/
def Queue.unbind (q : Queue) : Queue := { Queue.reset with drop := q.drop, head := q.head, tail := q.tail }

/-- QUNBIND. -/
def execQunbind (port : BitVec 3) (w : BitVec 64) (s : State) : Res :=
  let n := qidOf w
  qCommand port w (decide (argFrom w 16 ≠ 0))
    (fun s => inQueue n (fun q => decide (q.state = .stopped) && decide (s.nadm n = 0)) s (.done (s.modQueue n Queue.unbind))) s

/-- The code of a queue's state. -/
def QueueState.code : QueueState → Nat
  | .unbound => 0
  | .stopped => 1
  | .active => 2
  | .draining => 3
  | .faulted => 4

/-- QSTAT (R61). -/
def State.qstat (s : State) (n : Nat) : Word :=
  let q := s.queue n
  BitVec.ofNat 64 (q.state.code + 2 ^ 3 * q.drop.toNat + 2 ^ 4 * q.fcause.toNat + 2 ^ 16 * s.nadm n)

/-- QQUERY: any host, at once (R60). -/
def execQquery (port : BitVec 3) (w : BitVec 64) (s : State) : Res :=
  let n := qidOf w
  let p := port.toNat
  let q := s.queue n
  if argFrom w 16 ≠ 0 then .next (s.qReply p n 3)
  else
    let bind : Word := if q.state = .unbound then 0 else BitVec.ofNat 64 (q.cid + 2 ^ 6 * q.level.toNat + 2 ^ 9 * q.feed + 2 ^ 16 * q.log2n)
    let base : Word := if q.state = .unbound then 0 else q.base
    .next ((s.modWindow p fun v => { v with qBox := [v.qBox.headD 0, s.qstat n, q.head.setWidth 64, q.tail.setWidth 64, bind, base, 0, 0] }).qReply p n 0)

/-- QTAIL (R62). -/
def execQtail (port : BitVec 3) (qid : BitVec 8) (w : BitVec 64) (s : State) : Res :=
  let n := qid.toNat
  let q := s.queue n
  let t : BitVec 32 := w.extractLsb' 0 32
  let drop (s : State) : State := s.modQueue n fun q => { q with drop := true }
  let bad (c : BitVec 4) : State :=
    if q.state = .stopped ∨ q.state = .active then s.modQueue n fun q => { q with state := .faulted, fcause := c } else drop s
  .next
    (if q.state = .unbound ∨ q.feed ≠ port.toNat then drop s
     else if 2 ^ q.log2n < (t - q.head).toNat then bad 2
     else if (t - q.head).toNat < (q.tail - q.head).toNat then bad 3
     else s.modQueue n fun q => { q with tail := t })

/-! ## Records (R64, R65) -/

/-- The record in the ring slot of HEAD. An uncorrectable ring page is fatal to the context (R337). -/
def State.readRecord (s : State) (n : Nat) : Option (List Word) × State :=
  let q := s.queue n
  match s.dispatchAt q.cid (q.slotVa q.head) .read with
  | (some pa, s1) =>
    if (List.range 4).any fun i => s1.uncorrectable (pa + 32 * i) then (none, s1.contextError q.cid 1 0 pa)
    else
      let (bs, s2) := s1.unitRead (.other s1.fresh) q.cid 0 pa 128
      (some (wordsOf 16 bs), s2)
  | (none, s1) => (none, s1)

/-- The reserved bits of a word are zero. -/
def clear (r : List Word) (w : Nat) (bits : List (Nat × Nat)) : Bool := bits.all fun (hi, lo) => recBits r w hi lo == 0

/-- Every field of a record lies within its limits (R64, R76), and the reserved bits of the clauses in use are zero (R65, R67). -/
def recordOk (r : List Word) : Bool :=
  let f := recBits r
  let cls := f 0 12 11
  let nw := f 0 10 8
  clear r 0 [(63, 22)] && clear r 1 [(5, 0), (63, 57)] && clear r 2 [(63, 48)] && clear r 3 [(15, 10), (31, 25), (63, 40)] &&
  clear r 4 [(5, 0), (63, 57)] && clear r 5 [(2, 0), (63, 57)] && clear r 6 [(15, 13)] && clear r 7 [(2, 0), (63, 57)] &&
  decide (f 0 7 0 = 1) && decide (nw ≤ 4) && decide (cls ≠ 3) && decide (f 0 15 13 ≤ if cls = 0 then 7 else 3) &&
  decide (f 2 15 0 ≠ 0) && decide (f 2 31 16 ≠ 0) && decide (f 2 47 32 ≠ 0) &&
  decide (f 3 9 0 ≤ if cls = 0 then 512 else 0) && decide (f 3 24 16 ≤ if cls = 0 then 256 else 128) && decide (f 3 39 32 ≤ if cls = 0 then 192 else 64) &&
  decide (f 6 12 0 % 8 = 0) && decide (f 6 12 0 ≤ 4096) && decide (f 6 12 0 ≤ 4096 * f 3 24 16) &&
  ((r.drop (8 + 2 * nw)).all fun x => x == 0) && (List.range nw).all fun i => clauseClear (wordAt r (8 + 2 * i)) (wordAt r (9 + 2 * i))

/-- A record is discarded with a status: HEAD advances; a record that cannot be read leaves no completion word. -/
def State.discardHead (s : State) (n : Nat) (status : Byte) : State :=
  match s.readRecord n with
  | (some r, s1) => (s1.writeCw (s1.queue n).cid r status).passHead n
  | (none, s1) => s1.passHead n

/-- Every record from HEAD to TAIL is discarded. -/
def State.discardAll (s : State) (n : Nat) (status : Byte) : Nat → State
  | 0 => s
  | k + 1 => if (s.queue n).head = (s.queue n).tail then s else (s.discardHead n status).discardAll n status k

/-- The words in the ring slot of HEAD as memory holds them, with no effect. -/
def State.peekRecord (s : State) (n : Nat) : List Word :=
  let q := s.queue n
  match s.dispatchPa q.cid (q.slotVa q.head) .read with
  | some pa => wordsOf 16 (s.readBytes (s.keyOf q.cid) 0 pa 128)
  | none => []
/-- The record at HEAD, or its completion word, is held (R160, R383, R385). -/
def State.headHeld (s : State) (n : Nat) : Bool :=
  let q := s.queue n
  s.dispatchHeld q.cid (q.slotVa q.head) 128 .read || s.cwHeld q.cid (s.peekRecord n)
/-- What of them is held takes its place in the queue of its bank. -/
def State.askHead (s : State) (n : Nat) : State :=
  let q := s.queue n
  if s.dispatchHeld q.cid (q.slotVa q.head) 128 .read then s.dispatchAsk n q.cid (q.slotVa q.head) .read else s.dispatchAsk n q.cid (cwOf (s.peekRecord n)) .write

/-- RECORD_FETCH: the record at HEAD is fetched and checked, or, in draining, discarded. -/
def execRecordFetch (qid : BitVec 8) (s0 : State) : Res :=
  let n := qid.toNat
  let q := s0.queue n
  let s := s0.dropAsk (.queue n)
  if q.head = q.tail ∨ ¬(q.state = .draining ∨ (q.state = .active ∧ q.held = none ∧ s0.admits q.cid = true)) then .next s0
  else if s0.headHeld n then .next (s0.askHead n)
  else if q.state = .draining then .next ((s.discardHead n q.dstatus).settleDrain n)
  else
    match s.readRecord n with
    | (none, s1) => .next (if (s1.queue n).state = .active then s1.modQueue n fun q => { q with state := .faulted, fcause := 1 } else s1)
    | (some r, s1) =>
      if !recordOk r then .next (s1.reject n r 0x42)
      else
        match s1.evalClauses q.cid r (List.replicate (recBits r 0 10 8) false) 0 with
        | (none, s2) => .next (s2.reject n r 0x43)
        | (some l, s2) => .next (s2.modQueue n fun q => { q with held := some { words := r, met := l } })

/-- WAIT_CLAUSE_RECHECK. -/
def execWaitClauseRecheck (qid : BitVec 8) (s : State) : Res :=
  .next (s.recheckQueue qid.toNat)

/-! ## Admission (R66, R69) -/

/-- The head of a queue is admissible. -/
def State.admissible (s : State) (n : Nat) : Bool :=
  let q := s.queue n
  decide (q.state = .active) && s.admits q.cid && decide (s.kernels.length < 1024) &&
  (match q.held with
   | some h => h.met.all id && (!(wordAt h.words 0).getLsbD 20 || decide (s.nadm n = 0))
   | none => false)

/-- The queue whose turn it is: highest effective priority, then the first after the one last served there. -/
def State.nextQueue (s : State) : Option Nat :=
  let ns := (List.range 256).filter s.admissible
  let p := ns.foldl (fun m n => Nat.max m (s.prioOf n)) 0
  let last := s.served.getD p 255
  let cands := ns.filter fun n => s.prioOf n == p
  match cands.find? fun n => decide (last < n) with
  | some n => some n
  | none => cands.head?

/-- The number of strands of a kernel (R106). -/
def strandCount (r : List Word) : Nat :=
  recBits r 2 15 0 * recBits r 2 31 16 * recBits r 2 47 32 * (recBits r 0 19 16 + 1) * (recBits r 0 15 13 + 1)

/-- ADMISSION. -/
def execAdmission (s : State) : Res :=
  match s.nextQueue with
  | none => .next s
  | some n =>
    match (s.queue n).held with
    | none => .next s
    | some h =>
      let b : SBar := { gen := 0, xerr := false, exp := strandCount h.words, cnt := 0, fail := false }
      let k : Kernel := { uid := s.fresh, qid := n, cid := (s.queue n).cid, record := h.words, stage := .admitted, held := false, status := none,
                          snap := none, nextL := 0, ended := 0, place := none, wait := false, failed := false, ssb := List.replicate 64 b }
      .next (({ s with fresh := s.fresh + 1, kernels := s.kernels ++ [k], served := s.served.set (s.prioOf n) n }).passHead n)

/-! ## RELEASE (R51, R72) -/

/-- The queues bound to a context. -/
def State.queuesOf (s : State) (c : Nat) : List Nat := (List.range 256).filter fun n => decide ((s.queue n).state ≠ .unbound) && (s.queue n).cid == c

/-- RELEASE: from claimed its queues lose their records and their binding; the slot is free. -/
def execRelease (port : BitVec 3) (w : BitVec 64) (s : State) : Res :=
  let c := cidOf w
  ctxCommand port w (decide (argFrom w 16 ≠ 0))
    (fun s =>
      if (s.ctx c).state = .claimed then
        let s1 := (s.queuesOf c).foldl (fun s n => ((s.discardAll n 0x40 65536).qEnd n 1).modQueue n Queue.unbind) s
        .done (s1.modCtx c fun _ => Context.reset)
      else if (s.ctx c).state = .retired then .done (s.modCtx c fun _ => Context.reset)
      else .fail 1) s

end Sys2Proof.Machine
end

