-- ==== Sys2Proof/Machine/Kernel.lean ====
section
/-!
DEFINITION. The kernel (spec/05_kernel.md R73 to R83): its snapshots, its end, and the commands KABORT, KHOLD and KRESUME.
-/
namespace Sys2Proof.Machine

open Sys2Proof

/-! ## Snapshots (R73, R74, R79) -/

/-- What reading a span under a context's translation gives. -/
inductive SpanEnd where
  | bytes (b : List Byte)
  /-- A served fault at an address. -/
  | served (va : Nat) (code : Byte)
  /-- A fault that cannot be resolved. -/
  | bad
  /-- An error that is fatal to the context. -/
  | dead
  /-- A row, a bank or a link holds some byte at a physical address: it is read later. -/
  | held (pa : Nat)
  deriving DecidableEq, Repr

/-- Read `n` bytes at a virtual address at system scope, page by page. -/
def State.readSpan (s : State) (die cid va n : Nat) : Nat → List Byte → SpanEnd × State
  | 0, acc => (.bytes acc, s)
  | fuel + 1, acc =>
    if n = 0 then (.bytes acc, s)
    else
      let m := Nat.min n (4096 - va % 4096)
      match s.locate (.unit die) cid (BitVec.ofNat 64 va) .read with
      | (.ok pa, s1) =>
        if s1.placeWaits pa m then (.held pa, s1)
        else if s1.badPlace (.phys pa) m then (.bad, s1)
        else
          let (bs, s2) := s1.unitRead (.other s1.fresh) cid 0 pa m
          s2.readSpan die cid (va + m) (n - m) fuel (acc ++ bs)
      | (.served c, s1) => (.served va c, s1)
      | (.trap _ _, s1) => (.bad, s1)
      | (.dead _ _ _, s1) => (.dead, s1)

/-- The three spans of a record: stage table, tensor-table image, parameter block. -/
def Kernel.spans (k : Kernel) : List (Nat × Nat) :=
  [(recBits k.record 1 56 6 * 64, 64), (recBits k.record 4 56 6 * 64, 8192), (recBits k.record 5 56 3 * 8, recBits k.record 6 12 0)]

/-- Read the spans in order. -/
def readSpans (cid : Nat) : List (Nat × Nat) → State → List (List Byte) → (SpanEnd × List (List Byte)) × State
  | [], s, acc => ((.bytes [], acc), s)
  | (va, n) :: r, s, acc =>
    match s.readSpan 0 cid va n 4 [] with
    | (.bytes b, s1) => readSpans cid r s1 (acc ++ [b])
    | (e, s1) => ((e, acc), s1)

/-- A stage table's used words are valid. -/
def Kernel.stagesOk (k : Kernel) (t : List (BitVec 32)) : Bool :=
  (List.range (k.stgm1 + 1)).all fun i =>
    let w := (t.getD i 0).toNat
    decide (w % 4 = 0) && decide (64 ≤ w) && decide (w < 2 ^ 26)

/-- A kernel that has placed no group enters draining with a status. -/
def State.failKernel (s : State) (uid : Nat) (status : Byte) : State :=
  s.modKernel uid fun k => { k with stage := .draining, status := some (k.status.getD status) }

/-- SNAPSHOTS_HELD: the spans are read; the stage table is checked. -/
def execSnapshotsHeld (uid : Nat) (s : State) : Res :=
  match s.kernel? uid with
  | none => .next s
  | some k =>
    if k.stage ≠ .admitted ∨ k.wait = true then .next s
    else if k.failed then .next (s.failKernel uid 0x06)
    else
      match readSpans k.cid k.spans s [] with
      | ((.bytes _, [t, i, p]), s1) =>
        let table := (List.range 16).map fun j => BitVec.ofNat 32 (leNat ((t.drop (4 * j)).take 4))
        if k.stagesOk table then
          .next ((s1.dropAsk (.snap uid)).modKernel uid fun k => { k with stage := .placing, snap := some { table := table, image := wordsOf 1024 i, params := p } })
        else .next (s1.failKernel uid 0x05)
      | ((.served va code, _), s1) =>
        .next ((s1.modKernel uid fun k => { k with wait := true }).pendFault 0 k.cid (BitVec.ofNat 64 va) code Acc.read.code none (.snap uid))
      | ((.dead, _), s1) => .next s1
      | ((.held pa, _), s1) => .next (s1.askGap (.snap uid) pa)
      | (_, s1) => .next (s1.failKernel uid 0x06)

/-! ## Commands in progress on a kernel (R83, R95) -/

/-- The oldest admitted, unretired kernel of a queue with a TAG. -/
def State.tagged (s : State) (q tag : Nat) : Option Kernel := s.kernels.find? fun k => k.qid == q && k.tag.toNat == tag
/-- The groups of a kernel that are on a core or saved. -/
def State.groupsOf (s : State) (uid : Nat) : List Group := s.groups.filter fun g => g.kuid == uid
/-- The group of a kernel with linear index `l`. -/
def State.groupAt (s : State) (uid l : Nat) : Option Group := s.groups.find? fun g => g.kuid == uid && g.l == l

/-- KHOLD ends once every group of the kernel is saved, GHALT once its group's frame is complete; where the kernel or the group has ended
first, they fail with status 1. -/
def State.settleKernelCmd (s : State) (n : Nat) : State :=
  match (s.queue n).cmd with
  | none => s
  | some c =>
    if c.op = 0x28 ∨ c.op = 0x2A then
      match s.tagged n (argFrom c.word 16) with
      | none => s.qEnd n 1
      | some k =>
        if k.stage = .draining then s.qEnd n 1
        else if c.op = 0x28 then (if (s.groupsOf k.uid).all Group.rests then s.qEnd n 0 else s)
        else
          match s.groupAt k.uid (natBits c.op1.toNat 51 0) with
          | none => s.qEnd n 1
          | some g => if g.stage = .saved ∧ g.halt = true then s.qEnd n 0 else s
    else s

/-- Nothing holds a group back: its context is not suspended, its kernel is not held. -/
def State.unheld (s : State) (g : Group) : Bool :=
  decide ((s.ctx g.cid).state ≠ .suspended) && s.unheldKernel g

/-- A kernel command: the kernel is the oldest of its queue with the TAG. -/
def kCommand (port : BitVec 3) (w : Word) (p : Kernel → Bool) (f : Kernel → State → CmdEnd) (s : State) : Res :=
  let n := qidOf w
  match qCommand port w false (fun s =>
    match s.tagged n (argFrom w 16) with
    | none => .fail 3
    | some k => if k.stage ≠ .draining ∧ p k = true then f k s else .fail 1) s with
  | .next s1 => .next (s1.settleKernelCmd n)
  | r => r

/-- KABORT. -/
def execKabort (port : BitVec 3) (w : BitVec 64) (s : State) : Res :=
  kCommand port w (fun _ => true) (fun k s => .done (s.abortKernel k.uid 0x02)) s

/-- KHOLD. -/
def execKhold (port : BitVec 3) (w : BitVec 64) (s : State) : Res :=
  kCommand port w (fun k => !k.held) (fun k s => .later ((s.modKernel k.uid fun k => { k with held := true }).saveAll fun g => g.kuid == k.uid)) s

/-- KRESUME. -/
def execKresume (port : BitVec 3) (w : BitVec 64) (s : State) : Res :=
  kCommand port w (fun k => k.held) (fun k s =>
    let s1 := s.modKernel k.uid fun k => { k with held := false }
    .done (s1.unstick fun g => g.kuid == k.uid && s1.unheld g)) s

/-! ## Kernel end (R80, R81) -/

/-- A completion event goes to the host that feeds the queue, or to the owner (R64, R439). -/
def State.postCompletion (s : State) (k : Kernel) (w : Word) : State :=
  let r := eventRec 0x02 k.cid w (BitVec.ofNat 64 k.qid) 0
  if (s.queue k.qid).feed < 8 then s.postTo (s.queue k.qid).feed r else s.postOwner r

/-- KERNEL_END: the kernel has no group left, and no archive operation of its strands is still under way (R80 step 1). A held
completion word is waited for (R160). The unsatisfied wait
clauses of the context are then evaluated again (R67). -/
def execKernelEnd (uid : Nat) (s : State) : Res :=
  match s.kernel? uid with
  | none => .next s
  | some k =>
    if k.stage ≠ .draining ∨ (s.groupsOf uid).isEmpty = false ∨ (s.arc.ops.any fun o => o.kuid == uid) = true then .next s
    else if s.cwHeld k.cid k.record then .next (s.dispatchAsk k.qid k.cid (cwOf k.record) .write)
    else
      let status := k.status.getD 0
      let s1 := (s.dropAsk (.queue k.qid)).settleKernelCmd k.qid
      let s2 : State := { s1 with cores := s1.cores.map fun (c : Core) => { c with replicas := c.replicas.filter fun (r : Replica) => r.kuid != uid } }
      let s3 := s2.writeCw k.cid k.record status
      let s4 := if (wordAt k.record 0).getLsbD 21 then s3.postCompletion k (completionWord k.record status) else s3
      let s5 := { s4 with kernels := s4.kernels.filter fun (q : Kernel) => q.uid != uid }
      let s6 := (s5.modCtx k.cid fun x => { x with cur := x.cur + 1 }).modQueue k.qid fun q => { q with lastTag := some k.tag }
      .next ((s6.recheckAll k.cid).settleDrain k.qid)

end Sys2Proof.Machine
end

