-- ==== Sys2Proof/Machine/Group.lean ====
section
/-!
DEFINITION. The group (spec/06_group.md R84 to R96): choosing a core, placing a group, its save frame, restoring it, pre-emption, the
superstep yield, its end, GHALT and GRESUME; and the end of a context's draining (R54).
-/
namespace Sys2Proof.Machine

open Sys2Proof

/-! ## Resources of a core (R85, R86, R45, R56) -/

/-- The groups that stand on a core. -/
def State.onCore (s : State) (e : Nat) : List Group := s.groups.filter fun g => g.core == e && decide (g.stage ≠ .saved)

/-- A class allows an entry of the placement sequence. -/
def classAllows (cls e : Nat) : Bool := if cls = 0 then decide (e < 96) else if cls = 1 then decide (96 ≤ e) else true

/-- Granules of a buffer on a core. -/
def granules (e : Nat) : Buf → Nat
  | .w => if isStackCore e then 0 else 512
  | .a => if isStackCore e then 128 else 256
  | .c => if isStackCore e then 64 else 192

/-- The need of a kernel's groups, and the first granule of a group. -/
def Kernel.need (k : Kernel) : Buf → Nat
  | .w => k.wneed
  | .a => k.aneed
  | .c => k.cneed
def Group.first (g : Group) : Buf → Nat
  | .w => g.wb
  | .a => g.ab
  | .c => g.cb

/-- A run of `n` from `a` meets no run of a list. -/
def runFree (occ : List (Nat × Nat)) (a n : Nat) : Bool := occ.all fun (b, m) => decide (a + n ≤ b) || decide (b + m ≤ a) || decide (m = 0)

/-- The lowest start, at `lo` or at the end of an occupied run, of a free run of `n` below `hi`. -/
def firstRun (occ : List (Nat × Nat)) (lo hi n : Nat) : Option Nat :=
  if n = 0 then some lo
  else (((lo :: occ.map fun (b, m) => b + m).filter fun a => decide (lo ≤ a) && decide (a + n ≤ hi) && runFree occ a n).foldl
    (fun (m : Option Nat) a => match m with | some b => some (Nat.min a b) | none => some a) none)

/-- The runs of a buffer that groups of a core occupy. -/
def State.runsOn (s : State) (gs : List Group) (b : Buf) : List (Nat × Nat) :=
  gs.map fun g => (g.first b, match s.kernel? g.kuid with | some k => k.need b | none => 0)

/-- What a group of a kernel gets on a core beside the groups `gs`: strand slots, first granules of W, A and C. A saved group that holds interlock
entries (R158) needs none free for its restore, and the table may hold more than 32 then: DESIGN CHOICE, notes/assumptions/107.md. -/
def State.fit (s : State) (gs : List Group) (k : Kernel) (e : Nat) : Option (List Nat × Nat × Nat × Nat) :=
  let slots := (List.range (slotsOf e)).filter fun i => !(gs.any fun g => g.slots.contains i)
  let run (b : Buf) : Option Nat := firstRun (s.runsOn gs b) 0 (granules e b) (k.need b)
  if (gs.all fun g => g.cid == k.cid) && decide (16 * (s.ctx k.cid).ba.toNat * (gs.length + 1) ≤ 1024) && decide (k.spgm1 + 1 ≤ slots.length) then
    match run .w, run .a, run .c with
    | some w, some a, some c => some (slots.take (k.spgm1 + 1), w, a, c)
    | _, _, _ => none
  else none

/-- The entries that a kernel's scan tries, in its order. -/
def State.scan (s : State) (k : Kernel) : List Nat :=
  ((List.range 160).map fun i => (k.place.getD s.place + 1 + i) % 160).filter (classAllows k.cls)

/-- The core that takes the next group of a kernel. -/
def State.chooseCore (s : State) (k : Kernel) : Option Nat := (s.scan k).find? fun e => (s.fit (s.onCore e) k e).isSome

/-! ## Which group goes next (R53, R75, R77, R93) -/

/-- Groups of the context may be placed and restored. -/
def State.dispatches (s : State) (c : Nat) : Bool :=
  let x := s.ctx c
  decide (x.state = .ready) || decide (x.state = .running) || (decide (x.state = .draining) && !x.aborting)

/-- A saved group waits under R94 no longer: the barriers that its strands wait on have advanced. Where they wait on different barriers, all
of them must have: DESIGN CHOICE, notes/assumptions/93.md. -/
def State.advanced (s : State) (g : Group) : Bool :=
  g.yieldOn.all fun (j, gen) => match (s.kernel? g.kuid).bind fun k => k.ssb[j]? with
    | some b => decide (b.gen ≠ gen)
    | none => true

/-- A saved group may be restored: it is not halted and does not wait under R94 (R93). -/
def State.restorable (s : State) (g : Group) : Bool := decide (g.stage = .saved) && !g.halt && s.advanced g

/-- The saved group of a kernel to restore next: the one of lowest L. -/
def State.nextSaved (s : State) (k : Kernel) : Option Group :=
  (s.groups.filter fun g => g.kuid == k.uid && s.restorable g).foldl
    (fun (m : Option Group) g => match m with | some h => if g.l < h.l then some g else some h | none => some g) none

/-- A kernel has a group to place or restore, and may. -/
def State.wants (s : State) (k : Kernel) : Bool :=
  !k.held && s.dispatches k.cid && (decide (k.stage = .placing) || (decide (k.stage = .resident) && (s.nextSaved k).isSome))

/-- The kernel that the next placement decision is for: of those that a core takes, the one of the highest effective priority; among equals
the one admitted first (notes/assumptions/17.md). -/
def State.placer (s : State) : Option Kernel :=
  (s.kernels.filter fun k => s.wants k && (s.chooseCore k).isSome).foldl
    (fun (m : Option Kernel) k => match m with | some h => if s.prioOf h.qid < s.prioOf k.qid then some k else some h | none => some k) none

/-- What stands beside a group once it is on core `e` (R51, R56, R85): the pointers, the core's context, the context's state. -/
def State.arriveOn (s : State) (k : Kernel) (e : Nat) : State :=
  let s1 := (s.modCore e fun c => { c with ctx := some k.cid, replicas := c.replicas.filter fun r => r.cid == k.cid }).modKernel k.uid fun k => { k with place := some e }
  ({ s1 with place := e }).modCtx k.cid fun (x : Context) => if x.state = CtxState.ready then { x with state := .running } else x

/-! ## Placement (R76, R55) -/

/-- The generator of R174. -/
def seedGen (l snum restores k : Nat) : BitVec 32 :=
  let g : BitVec 32 := BitVec.ofNat 32 (l * 0x9E3779B9) ^^^ BitVec.ofNat 32 (snum * 2 ^ 24) ^^^ BitVec.ofNat 32 (k * 2 ^ 16) ^^^ BitVec.ofNat 32 (restores * 0x85EBCA6B)
  if g = 0 then 1 else g
def seedGens (l snum restores : Nat) : List (BitVec 32) := (List.range 36).map fun k => seedGen l snum restores k

/-- A strand at placement (R121). -/
def Strand.placed (pc : Word) (l snum : Nat) : Strand :=
  { v := List.replicate 48 0, m := List.replicate 12 0, n := List.replicate 8 0, pc := pc, vl := 0, vrows := 0, vcols := 0, vs := 0, sc := 0, md := 0,
    dm := 0, st := 0, ri := 0, kl := 0, ks := 0, ke := List.replicate 4 0, kr := 0, kc := 0, tvec := 0, tpc := 0, tcause := 0, tval := 0, tscr := 0,
    h := false, torg := 0, gens := seedGens l snum 0, status := .ready, ibuf := [], chans := List.replicate 4 Channel.empty, lastChan := 3, catFaults := [],
    stepLeft := none, arrived := List.replicate 64 none }

/-- The buffers of every strand of a group are filled ahead (R201). -/
def State.topUpAll (s : State) (uid n : Nat) : State := (List.range n).foldl (fun s k => s.topUp uid k) s

/-- GROUP_PLACE: the next unplaced group of a kernel, where no saved group goes before it. -/
def execGroupPlace (uid : Nat) (s : State) : Res :=
  match s.placer with
  | none => .next s
  | some k =>
    match s.chooseCore k, k.snap with
    | some e, some snap =>
      match s.fit (s.onCore e) k e with
      | none => .next s
      | some (slots, w, a, c) =>
        if k.uid = uid ∧ k.stage = .placing ∧ (s.nextSaved k).isNone = true then
          let l := k.nextL
          let pc := BitVec.ofNat 64 (recBits k.record 1 56 6 * 64 + (snap.table.getD (l / (k.gx * k.gy * k.gz)) 0).toNat)
          let n := k.spgm1 + 1
          let g : Group :=
            { uid := s.fresh, kuid := uid, cid := k.cid, l := l, stage := .resident, core := e, slots := slots, wb := w, ab := a, cb := c, restores := 0, prio := s.prioOf k.qid, cycle := 0,
              halt := false, step := false, mask := 0, reason := 0, frame := 0, yieldOn := [],
              shelf := (List.range 64).map fun i => Shelf.place ((snap.image.drop (16 * i)).take 16),
              bars := List.replicate (16 * (s.ctx k.cid).ba.toNat) { Bar.zero with exp := BitVec.ofNat 10 n },
              cqb := List.replicate 4 0, rowStat := List.replicate 64 0, catStat := List.replicate 64 0, bufW := [], bufA := [], bufC := [], late := [],
              lines := [], strands := (List.range n).map fun j => Strand.placed pc l j }
          let s1 : State := { s with fresh := s.fresh + 1, groups := s.groups ++ [g.bufWrite .a 0 snap.params] }
          let s2 := s1.modKernel uid fun k => { k with nextL := l + 1, stage := if l + 1 = k.groupCount then .resident else .placing }
          .next ((s2.arriveOn k e).topUpAll g.uid n)
        else .next s
    | _, _ => .next s

/-! ## The save area (R92) -/

/-- The first frame of the save area that a run of `n` frames can take, first-fit. -/
def State.saveRun (s : State) (c n : Nat) : Option Nat :=
  let x := s.ctx c
  let occ := (s.groups.filter fun g => g.cid == c && decide (g.stage = .saved)).map fun g => (g.frame, match s.kernel? g.kuid with | some k => k.frameCount | none => 0)
  firstRun occ x.saveb.toNat (x.saveb.toNat + x.saven.toNat) n

/-- A group's frame would fit now. -/
def State.canSave (s : State) (g : Group) : Bool := match s.kernel? g.kuid with
  | some k => (s.saveRun g.cid k.frameCount).isSome
  | none => false

/-- Bytes of words. -/
def wordBytes (ws : List Word) : List Byte := ws.flatMap fun w => leBytes 8 w.toNat
/-- Eight-byte slots of numbers. -/
def natWords (ns : List Nat) : List Byte := ns.flatMap fun n => leBytes 8 n
def zeroBytes (n : Nat) : List Byte := List.replicate n 0

/-- Word 0 of a frame. -/
def Group.header (g : Group) : Word :=
  BitVec.ofNat 64 (1 + 2 ^ 8 * g.halt.toNat + 2 ^ 9 * g.step.toNat + 2 ^ 10 * g.mask.toNat + 2 ^ 18 * (g.strands.length - 1) + 2 ^ 21 * g.reason.toNat)

/-- The written-line map of a buffer of `n` bytes of map, from line number `base`. -/
def lineMap (ls : List Nat) (base n : Nat) : List Byte :=
  (List.range n).map fun i => (List.range 8).foldl (fun (b : Byte) j => if ls.contains (base + 8 * i + j) then b ||| BitVec.ofNat 8 (2 ^ j) else b) 0

/-- The code of a strand's state. -/
def StrandStatus.code : StrandStatus → Nat
  | .ready => 0
  | .waiting _ => 1
  | .swapped _ _ _ => 2
  | .ended => 3

/-- Bytes 0xC000 to 0xCBFF of a strand's area. -/
def Strand.image (t : Strand) : List Byte :=
  (t.m.flatMap fun m => leBytes 128 m.toNat) ++
  natWords ([t.pc.toNat, t.vl.toNat, t.vrows.toNat, t.vcols.toNat, t.vs.toNat, t.sc.toNat, t.md.toNat, t.dm.toNat, t.st.toNat, t.ri.toNat, t.kl.toNat, t.ks.toNat] ++
    (t.ke.map fun k => k.toNat) ++ [t.kr.toNat, t.kc.toNat]) ++
  natWords [t.status.code, 0] ++
  natWords [t.tvec.toNat, t.tpc.toNat, t.tcause.toNat, t.tval.toNat, t.tscr.toNat, t.h.toNat] ++
  natWords [t.torg.toNat] ++ zeroBytes 0x128 ++ (t.n.flatMap fun n => leBytes 128 n.toNat)

/-- Bytes 0xD400 to 0xFFFF of a strand's area. -/
def Group.tail (g : Group) (k : Nat) : List Byte :=
  if k = 0 then
    (g.shelf.flatMap fun e => wordBytes ((List.range 16).map e.word)) ++ (g.shelf.map fun e => BitVec.ofNat 8 (e.state.toNat + 16 * e.bcode.toNat)) ++
    zeroBytes 0x1C0 ++ wordBytes g.rowStat ++ wordBytes g.catStat ++ zeroBytes 0x600
  else zeroBytes 0x2C00

/-- The registers of a strand are written: a vector register only where DM names it. -/
def State.saveStrand (s : State) (g : Group) (k : Nat) (t : Strand) : State :=
  let key := s.keyOf g.cid
  let a := g.areaAt k
  let s1 := (List.range 48).foldl (fun (s : State) i => if t.dm.getLsbD i then s.writeBytes key 0 (a + 1024 * i) (leBytes 1024 (t.v.getD i 0).toNat) else s) s
  ((s1.writeBytes key 0 (a + 0xC000) t.image).scramble (a + 0xCC00) 64).writeBytes key 0 (a + 0xD400) (g.tail k)

/-- The first byte of a partition in a frame. -/
def Group.partAt (g : Group) (k : Kernel) (b : Buf) : Nat :=
  g.frameAt + 4096 * (3 + 16 * (k.spgm1 + 1) + match b with
    | .w => 0
    | .a => k.wneed
    | .c => k.wneed + k.aneed)

/-- The buffer and the offset of a written-line number. -/
def lineAt (n : Nat) : Buf × Nat := if n < 16384 then (.w, 128 * n) else if n < 24576 then (.a, 128 * (n - 16384)) else (.c, 128 * (n - 24576))

/-- The runs of bytes of a frame that a save writes and a restore reads: of the vector registers, those that DM names. -/
def Group.frameSpans (g : Group) (k : Kernel) : List (Nat × Nat) :=
  [(g.frameAt, 4096), (g.frameAt + 4096, 8192)] ++
  ((List.range g.strands.length).flatMap fun j => match g.strands[j]? with
    | some t => ((List.range 48).filter fun i => t.dm.getLsbD i).map (fun i => (g.areaAt j + 1024 * i, 1024)) ++ [(g.areaAt j + 0xC000, 0x4000)]
    | none => []) ++
  g.lines.map fun n => (g.partAt k (lineAt n).1 + (lineAt n).2, 128)

/-- The frame of a group is written (R92, R105, R120). -/
def State.saveFrame (s : State) (g : Group) (k : Kernel) : State :=
  let key := s.keyOf g.cid
  let f := g.frameAt
  let s1 := s.writeBytes key 0 f (wordBytes [g.header, BitVec.ofNat 64 g.l, BitVec.ofNat 64 (k.qid + 2 ^ 16 * k.tag.toNat), BitVec.ofNat 64 (k.wneed + 2 ^ 16 * k.aneed + 2 ^ 32 * k.cneed),
    BitVec.ofNat 64 (s.ctx g.cid).ba.toNat, 0, 0, 0] ++ lineMap g.lines 0 2048 ++ lineMap g.lines 16384 1024 ++ lineMap g.lines 24576 768 ++ wordBytes g.cqb ++ zeroBytes 160)
  let s2 := s1.writeBytes key 0 (f + 4096) (wordBytes (g.bars.map Bar.record) ++ zeroBytes (8192 - 8 * g.bars.length))
  let s3 := (List.range g.strands.length).foldl (fun (s : State) j => match g.strands[j]? with
    | some t => s.saveStrand g j t
    | none => s) s2
  g.lines.foldl (fun (s : State) n => s.writeBytes key 0 (g.partAt k (lineAt n).1 + (lineAt n).2) (g.bufRead (lineAt n).1 (lineAt n).2 128)) s3

/-! ## Saving (R90 to R92) -/

/-- What a save waits for: loads, stores, atomics, ENQs, invalidations and migrations are complete, no arrival is due, no matrix operation is under
way, every row stack has stopped. -/
def State.atPoints (s : State) (g : Group) : Bool :=
  !(s.ops.any fun o => o.guid == g.uid && (match o.work with
    | .sstep _ => false
    | .barv _ _ => s.arrivalDue o
    | _ => true)) &&
  !(s.mmu.migs.any fun m => m.guid == g.uid) && !(s.mats.any fun m => m.guid == g.uid && m.started) &&
  (s.rows.ops.all fun o => o.guid != g.uid ||
    match o.phase with
    | .retiring => false
    | .running => o.runs.all fun r => r.paused || decide (r.phase = .finished)
    | _ => true)

/-- The last resident group of a context has left (R51). -/
def State.settleCtx (s : State) (c : Nat) : State :=
  if (s.ctx c).state = .running ∧ (s.groups.any fun g => g.cid == c && decide (g.stage ≠ .saved)) = false then s.modCtx c fun x => { x with state := .ready } else s

/-- Commands that wait for a group to be saved or to end. -/
def State.settleSaved (s : State) (c q : Nat) : State := (s.settleSuspend c).settleKernelCmd q

/-- A strand as its save finds it: one whose barrier wait has passed has its result (R102), and its open batches close (R281). -/
def Strand.atSave (t : Strand) (cqb : List Word) : Strand := t.passWait.closeAll cqb

/-- Save a group to a frame: its uncommitted catalogue rows are abandoned (R321), its core is released; entry 160 names no core. -/
def State.saveTo (s : State) (g0 : Group) (k : Kernel) (f : Nat) : State :=
  let g : Group := { g0 with strands := g0.strands.map fun t => t.atSave g0.cqb }
  let g1 := { g with
    stage := .saved, frame := f, core := 160, slots := [], bufW := [], bufA := [], bufC := [], lines := [],
    step := if g.halt then false else g.step,
    strands := g.strands.map fun t => { t with ibuf := [], stepLeft := if g.halt then none else t.stepLeft } }
  let s1 := (s.saveFrame { g with frame := f, step := g1.step } k).cacheBulk g.cid ({ g with frame := f }.frameSpans k)
  let s2 : State := { s1 with cats := s1.cats.map fun (o : CatOp) => if o.guid == g.uid && decide (o.phase = .rows) then { o with row := none, seen := [] } else o }
  ((s2.modGroup g.uid fun _ => g1).settleCtx g.cid).settleSaved g.cid k.qid

/-- No run of the save area is free (R92): a group that R71 or R94 chose goes on; any other stays on its core without running. -/
def State.noRun (s : State) (g : Group) (k : Kernel) : State :=
  if g.halt then s.modGroup g.uid fun g => { g with stage := .stuck, reason := 2 }
  else if g.reason = 3 ∨ s.unheld g = false then (s.modGroup g.uid fun g => { g with stage := .stuck, reason := 3 }).settleSaved g.cid k.qid
  else (s.modGroup g.uid fun g => { g with stage := .resident, yieldOn := [] }).resumeRows g.uid

/-- GROUP_SAVE: every activity is at its point; a frame that cannot be written is fatal to the context (R337). -/
def execGroupSave (uid : Nat) (s : State) : Res :=
  match s.group? uid with
  | none => .next s
  | some g =>
    match s.kernel? g.kuid with
    | none => .next s
    | some k =>
      if (g.stage = .stopping ∨ (g.stage = .stuck ∧ g.reason = 2)) ∧ s.atPoints g = true then
        match s.saveRun g.cid k.frameCount with
        | none => .next (if g.stage = .stuck then s else s.noRun g k)
        | some f => .next (if s.goodRun f k.frameCount then s.saveTo g k f else s.contextError g.cid 3 0 (f * 4096))
      else .next s

/-! ## Restoring (R93, R105, R120) -/

/-- Words and bytes of a saved group's frame. -/
def State.frameBytes (s : State) (cid a n : Nat) : List Byte := s.readBytes (s.keyOf cid) 0 a n
def State.frameWords (s : State) (cid a n : Nat) : List Word := wordsOf n (s.frameBytes cid a (8 * n))
def State.frameNat (s : State) (cid a n : Nat) : Nat := leNat (s.frameBytes cid a n)

/-- The state of a strand at its restore: a wait is executed again (R105); a fault that is still being served goes on so (R87). A frame's word that
says that the strand has ended, where a debugger wrote it there, makes it one that has ended; no rule says, and EXP of its superstep barriers stands
(DESIGN CHOICE, notes/assumptions/115.md). -/
def StrandStatus.restored (code : Nat) (old : StrandStatus) : StrandStatus :=
  if code % 4 = 3 then .ended
  else if code % 4 = 2 then (match old with | .swapped va acc out => .swapped va acc out | _ => .ready)
  else .ready

/-- The bits of PC, of VS and of the status words that are not reserved (R122, R297, R323): a restore ignores the others. -/
def vsMask : BitVec 32 := 0x87FF07FF
def rowStatMask : Word := 0x80FFFFFF003FFFFF
def catStatMask : Word := 0x80FFFFFFFFFFF7FF

/-- The registers of a strand read back: those that DM does not name are zero; what the device keeps beside them stays. -/
def State.loadStrand (s : State) (g : Group) (k : Nat) (t : Strand) : Strand :=
  let a := g.areaAt k
  let w (i : Nat) : Word := s.frameWord g.cid (a + 0xC600 + 8 * i)
  let dm := (w 7).extractLsb' 0 48
  let r (i : Nat) : Word := s.frameWord g.cid (a + 0xC6A0 + 8 * i)
  { t with
    v := (List.range 48).map fun i => if dm.getLsbD i then BitVec.ofNat 8192 (s.frameNat g.cid (a + 1024 * i) 1024) else 0,
    m := (List.range 12).map fun i => BitVec.ofNat 1024 (s.frameNat g.cid (a + 0xC000 + 128 * i) 128),
    n := (List.range 8).map fun i => BitVec.ofNat 1024 (s.frameNat g.cid (a + 0xC800 + 128 * i) 128) &&& nestMask,
    pc := w 0 &&& pcMask, vl := (w 1).setWidth 11, vrows := (w 2).setWidth 11, vcols := (w 3).setWidth 11, vs := (w 4).setWidth 32 &&& vsMask, sc := (w 5).setWidth 48,
    md := (w 6).setWidth 20, dm := dm, st := (w 8).setWidth 6, ri := (w 9).setWidth 6, kl := (w 10).setWidth 12, ks := (w 11).setWidth 12,
    ke := (List.range 4).map fun i => (w (12 + i)).setWidth 7, kr := (w 16).setWidth 5, kc := (w 17).setWidth 5,
    tvec := r 0 &&& tvecMask, tpc := r 1, tcause := r 2 &&& 0x7FFF, tval := r 3, tscr := r 4, h := (r 5).getLsbD 0, torg := s.frameWord g.cid (a + 0xC6D0),
    gens := seedGens g.l k (g.restores + 1), ibuf := [], lastChan := 3, status := StrandStatus.restored (s.frameWord g.cid (a + 0xC690)).toNat t.status }

/-- The lines that a written-line map names, below the partition's size. -/
def mapLines (map : List Byte) (base n : Nat) : List Nat :=
  ((List.range n).filter fun i => (map.getD (i / 8) 0).getLsbD (i % 8)).map fun i => base + i

/-- The lines of the three maps of a frame. -/
def State.frameLines (s : State) (g : Group) (k : Kernel) : List Nat :=
  let f := g.frameAt
  mapLines (s.frameBytes g.cid (f + 0x40) 2048) 0 (32 * k.wneed) ++ mapLines (s.frameBytes g.cid (f + 0x840) 1024) 16384 (32 * k.aneed) ++
  mapLines (s.frameBytes g.cid (f + 0xC40) 768) 24576 (32 * k.cneed)

/-- A barrier read back; an arrival by failure of its current generation is kept. -/
def restoreBar (w : Word) (old : Bar) : Bar := Bar.ofRecord w old.fail

/-- The group as its frame gives it. -/
def State.loadGroup (s : State) (g : Group) (k : Kernel) : Group :=
  let a := g.areaAt 0
  let lines := s.frameLines g k
  let g1 : Group := { g with
    strands := (List.range g.strands.length).map fun j => s.loadStrand g j (g.strands.getD j (Strand.placed 0 g.l j)),
    bars := (List.range g.bars.length).map fun i => restoreBar (s.frameWord g.cid (g.frameAt + 4096 + 8 * i)) (g.bars.getD i Bar.zero),
    cqb := (s.frameWords g.cid (g.frameAt + 0xF40) 4).map fun w => w &&& cqbMask,
    shelf := (List.range 64).map fun i =>
      let b := (s.frameNat g.cid (a + 0xF400 + i) 1)
      Shelf.restore (s.frameWords g.cid (a + 0xD400 + 128 * i) 16) (BitVec.ofNat 2 b) (BitVec.ofNat 4 (b / 16)),
    rowStat := (s.frameWords g.cid (a + 0xF600) 64).map fun w => w &&& rowStatMask,
    catStat := (s.frameWords g.cid (a + 0xF800) 64).map fun w => w &&& catStatMask, bufW := [], bufA := [], bufC := [], lines := [] }
  lines.foldl (fun (g1 : Group) n => g1.bufWrite (lineAt n).1 (lineAt n).2 (s.frameBytes g.cid (g.partAt k (lineAt n).1 + (lineAt n).2) 128)) g1

/-- A sector of a run of frames that cannot be corrected (R337, R380). -/
def State.badFrame (s : State) (frame n : Nat) : Option Nat :=
  (s.mem.flips.find? fun f => decide (frame * 4096 ≤ f.1) && decide (f.1 < (frame + n) * 4096) && s.uncorrectable f.1).map fun f => f.1

/-- The CCVTs of a restored group make the draws of the rows that they have not done from the new generators of their strands, in the order of issue
(R129, R174). -/
def State.reseedMats (s : State) (uid : Nat) : State :=
  (s.mats.filter fun m => m.guid == uid && m.ccvt).foldl (fun s m => match s.strand? uid m.strand with
    | some t =>
      ({ s with mats := s.mats.map fun (x : MatOp) => if x.id == m.id then { x with gens := t.gens } else x } : State).modStrand uid m.strand
        fun t => { t with gens := (ccvtDraws m { flags := 0, gens := t.gens }).gens }
    | none => s) s

/-- GROUP_RESTORE: the next saved group of a kernel goes back to a core; arrivals that came meanwhile take effect. -/
def execGroupRestore (uid : Nat) (s : State) : Res :=
  match s.group? uid, s.placer with
  | some g, some k =>
    match s.chooseCore k, s.nextSaved k with
    | some e, some g' =>
      match s.fit (s.onCore e) k e with
      | none => .next s
      | some (slots, w, a, c) =>
        if g'.uid = uid then
          match s.badFrame g.frame k.frameCount with
          | some pa => .next (s.contextError g.cid 1 0 pa)
          | none =>
            let g1 := s.loadGroup g k
            let g2 := { g1 with stage := .resident, core := e, slots := slots, wb := w, ab := a, cb := c, restores := g.restores + 1, prio := s.prioOf k.qid, yieldOn := [], late := [], cycle := g.cycle + BitVec.ofNat 64 (Config.freeNat s.fresh) }
            let g3 := g.late.foldl (fun (g : Group) (b, failed) => g.arrive b failed) g2
            let s1 := (s.modGroup uid fun _ => g3).arriveOn k e
            .next (((s1.cacheBulk g.cid ({ g3 with frame := g.frame }.frameSpans k)).reseedMats uid).resumeRows uid |>.topUpAll uid g.strands.length)
        else .next s
    | _, _ => .next s
  | _, _ => .next s

/-! ## Pre-emption and the superstep yield (R71, R94, R95) -/

/-- A stepped group has issued what it was to issue (R95). -/
def Group.stepped (g : Group) : Bool :=
  g.step && g.strands.all fun t => decide (t.status = .ended) || (match t.stepLeft with | some n => decide (n = 0) | none => true)

/-- The effective priority of a group on a core: its kernel's, which a ceiling lowered since the group came there does not lower (R44). -/
def State.prioHere (s : State) (g : Group) (k : Kernel) : Nat := Nat.max g.prio (s.prioOf k.qid)

/-- A kernel that cannot place gets a group's core if the groups of lower effective priority leave it (R71). -/
def State.yieldsTo (s : State) (g : Group) (kg k : Kernel) : Bool :=
  s.wants k && (s.chooseCore k).isNone && classAllows k.cls g.core && decide (s.prioHere g kg < s.prioOf k.qid) &&
  (s.fit ((s.onCore g.core).filter fun h => match s.kernel? h.kuid with
    | some q => decide (s.prioOf k.qid ≤ s.prioHere h q) || decide (h.stage = .stuck)
    | none => false) k g.core).isSome

/-- PREEMPTION: a group of lower priority makes room, or a stepped group goes back to its frame. -/
def execPreemption (uid : Nat) (s : State) : Res :=
  match s.group? uid with
  | none => .next s
  | some g =>
    match s.kernel? g.kuid with
    | none => .next s
    | some kg =>
      if g.stage ≠ .resident then .next s
      else if g.stepped then .next ((s.requestSave uid 2).modGroup uid fun g => { g with halt := true })
      else if s.canSave g && s.kernels.any fun k => s.yieldsTo g kg k then .next (s.requestSave uid 0)
      else .next s

/-- A strand waits on a superstep barrier whose generation has not advanced since it arrived: its last arrival there has taken effect, in the
generation that still stands. -/
def State.waitsStep (s : State) (g : Group) (k : Nat) (t : Strand) : Option (Nat × BitVec 16) :=
  match t.status with
  | .waiting (.superstep j _ _ _ none) =>
    if !s.pendingStep g.uid k j && t.arrived.getD j none == some (s.ssb g j).gen then some (j, (s.ssb g j).gen) else none
  | _ => none

/-- SUPERSTEP_YIELD: the group makes room for another of its kernel, one unplaced or one saved that does not wait under this rule (R94). -/
def execSuperstepYield (uid : Nat) (s : State) : Res :=
  match s.group? uid with
  | none => .next s
  | some g =>
    match s.kernel? g.kuid with
    | none => .next s
    | some k =>
      let ws := (List.range g.strands.length).map fun j => (g.strands[j]?).bind fun t => s.waitsStep g j t
      if g.stage = .resident ∧ ws.all Option.isSome = true ∧ (k.nextL < k.groupCount ∨ (s.groups.any fun h => h.kuid == k.uid && decide (h.stage = .saved) && s.advanced h) = true) ∧ s.canSave g = true then
        .next ((s.requestSave uid 1).modGroup uid fun g => { g with yieldOn := ws.filterMap id })
      else .next s

/-! ## The end of a group (R82, R88) -/

/-- A row instruction of an aborting group has stopped, or has not begun. -/
def RowOp.stopped (o : RowOp) : Bool := decide (o.phase ≠ .running) || o.runs.all fun r => r.paused || decide (r.phase = .finished)
/-- A waiting fault request comes from a group. -/
def State.reqOf (s : State) (uid : Nat) (r : FaultReq) : Bool :=
  match r.waiter with
  | .strand u _ => u == uid
  | .chan u _ _ => u == uid
  | .cat i => s.cats.any fun o => o.id == i && o.guid == uid
  | .row i => s.rows.ops.any fun o => o.id == i && o.guid == uid
  | .arc _ | .snap _ => false

/-- Everything that a group leaves behind is dropped; its core is released. -/
def State.dropGroup (s : State) (g : Group) : State :=
  let s1 := (s.rows.ops.filter fun o => o.guid == g.uid).foldl (fun s o => s.dropRowOp o.id) s
  let s2 : State := { s1 with
    groups := s1.groups.filter fun (h : Group) => h.uid != g.uid,
    ops := s1.ops.filter fun (o : Op) => o.guid != g.uid,
    locks := s1.locks.filter fun (l : Lock) => l.guid != g.uid,
    mats := s1.mats.filter fun (o : MatOp) => o.guid != g.uid,
    cats := s1.cats.filter fun (o : CatOp) => o.guid != g.uid,
    mmu := { s1.mmu with queue := s1.mmu.queue.filter fun r => !s.reqOf g.uid r },
    arc := { s1.arc with ops := s1.arc.ops.filter fun (o : ArcOp) => !(o.guid == g.uid && o.kind == 4) } }
  s2.settleCtx g.cid

/-- Nothing of a group is still to be performed that an abort does not stop, and what it stops has stopped. -/
def State.abortedQuiet (s : State) (g : Group) : Bool :=
  !(s.ops.any fun o => o.guid == g.uid && (match o.work with | .barv _ _ => false | .sstep _ => false | _ => true)) &&
  !(s.mmu.migs.any fun m => m.guid == g.uid) && !(s.mats.any fun m => m.guid == g.uid && m.started) && !(s.rows.ops.any fun o => o.guid == g.uid)

/-- Every strand of a group has ended, every counter reads zero, and no operation or fault of it is left. -/
def State.groupDone (s : State) (g : Group) : Bool :=
  (g.strands.all fun t => decide (t.status = .ended) && t.quiet && t.catFaults.isEmpty) &&
  !(s.ops.any fun o => o.guid == g.uid) && !(s.mats.any fun m => m.guid == g.uid)

/-- GROUP_END: an aborted or saved group of an aborting kernel is dropped, its stopped row instructions first, so that accesses to the rows that they
hold complete. What stopped operations have written stands, the rest of their ranges keeps its old values (R82, R286, notes/assumptions/63.md). A
group that is done ends, and with the last one its kernel. -/
def execGroupEnd (uid : Nat) (s : State) : Res :=
  match s.group? uid with
  | none => .next s
  | some g =>
    match s.kernel? g.kuid with
    | none => .next s
    | some k =>
      if g.stage = .aborting then
        let idle := s.rows.ops.filter fun o => o.guid == uid && o.stopped
        if !idle.isEmpty then .next (idle.foldl (fun s o => s.dropRowOp o.id) s)
        else .next (if s.abortedQuiet g then (s.dropGroup g).settleSaved g.cid k.qid else s)
      else if g.stage ≠ .saved ∧ s.groupDone g = true then
        let s1 := (s.dropGroup g).modKernel k.uid fun k =>
          let n := k.ended + 1
          if n = k.groupCount then { k with ended := n, stage := .draining, status := some (k.status.getD 0) } else { k with ended := n }
        .next (s1.settleSaved g.cid k.qid)
      else .next s

/-! ## GHALT and GRESUME (R95, R96) -/

/-- The group that a debugger's command names; the checks in the order of R95. -/
def gCommand (port : BitVec 3) (w : Word) (bad : Word → Bool) (f : Group → Word → State → CmdEnd) (s : State) : Res :=
  let n := qidOf w
  let op1 := wordAt (s.window port.toNat).qBox 1
  match qCommand port w (bad op1) (fun s =>
    match s.tagged n (argFrom w 16) with
    | none => .fail 3
    | some k =>
      let l := natBits op1.toNat 51 0
      if k.groupCount ≤ l then .fail 3
      else
        match s.groupAt k.uid l with
        | none => .fail 1
        | some g => if g.stage = .aborting then .fail 1 else f g op1 s) s with
  | .next s1 => .next (s1.settleKernelCmd n)
  | r => r

/-- Write word 0 of a saved group's frame. -/
def State.rewriteHeader (s : State) (g : Group) : State := s.putFrameWord g.cid g.frameAt g.header

/-- GHALT. -/
def execGhalt (port : BitVec 3) (w : BitVec 64) (s : State) : Res :=
  gCommand port w (fun o => decide (natBits o.toNat 63 52 ≠ 0)) (fun g _ s =>
    if g.halt then .fail 1
    else if g.stage = .saved then .done ((s.modGroup g.uid fun g => { g with halt := true }).rewriteHeader { g with halt := true })
    else if g.stage = .stuck then .later (s.modGroup g.uid fun g => { g with halt := true, reason := 2 })
    else .later ((s.requestSave g.uid 2).modGroup g.uid fun g => { g with halt := true })) s

/-- GRESUME. -/
def execGresume (port : BitVec 3) (w : BitVec 64) (s : State) : Res :=
  gCommand port w (fun o => decide (natBits o.toNat 55 53 ≠ 0)) (fun g o s =>
    if g.stage = .saved ∧ g.halt = true then
      let st := natBit o.toNat 52
      let mask : BitVec 8 := o.extractLsb' 56 8
      let g1 := { g with
        halt := false, step := st, mask := mask,
        strands := (List.range g.strands.length).map fun j =>
          { g.strands.getD j (Strand.placed 0 g.l j) with stepLeft := if st then some (if mask.getLsbD j then 1 else 0) else none } }
      .done ((s.modGroup g.uid fun _ => g1).rewriteHeader g1)
    else .fail 1) s

/-! ## The end of draining (R54, R72) -/

/-- Nothing of a context is left to end. -/
def State.drained (s : State) (c : Nat) : Bool :=
  !(s.groups.any fun g => g.cid == c) && !(s.kernels.any fun k => k.cid == c) && !(s.rows.ops.any fun o => o.cid == c) && !(s.arc.ops.any fun o => o.cid == c) &&
  !(s.mmu.migs.any fun m => m.cid == c) && (s.queuesOf c).all fun n => decide ((s.queue n).head = (s.queue n).tail)

/-- Row sets of a context: those of a retired context are zeroed and freed (R377). -/
def State.freeSets (s : State) (p : RowSet → Bool) : State :=
  { s with rows := { s.rows with sets := s.rows.sets.map fun (r : RowSet) => if p r then { r with freeing := true } else r } }

/-- DRAIN_COMPLETE: the key is erased, the queues are unbound, the blocks become unowned, RETIRE ends. -/
def execDrainComplete (cid : BitVec 6) (s : State) : Res :=
  let c := cid.toNat
  if (s.ctx c).state = .draining ∧ s.drained c = true then
    let s1 := (s.queuesOf c).foldl (fun (s : State) n => (s.qEnd n 1).modQueue n Queue.unbind) s
    let s2 : State := { s1 with mmu := { s1.mmu with
      counts := s1.mmu.counts.filter fun (f : FrameCount) => f.cid != c } }
    let s3 := (((((s2.freeFaults c).dropCached fun _ x => x == c).disown c).invalAll c).dropReplicas c).freeSets fun r => r.cid == c
    .next ((s3.modCtx c fun x => { x with state := .retired, key := none, aborting := false }).ctxEnd c 0)
  else .next s

end Sys2Proof.Machine
end

