-- ==== Sys2Proof/Machine/RowSet.lean ====
section
/-!
DEFINITION. Row sets, refresh and soft errors (spec/22_row_set.md R372 to R384); the service gaps stand in Machine/Gap.lean.
-/
namespace Sys2Proof.Machine

open Sys2Proof

/-! ## Row sets (R376 to R378) -/

/-- A row of the set is computing: a row instruction holds it (R378). -/
def State.computing (s : State) (r : RowSet) : Bool := s.rows.ops.any fun o => o.held.any fun row => r.subs.contains (subOf (row * 1024))
/-- The unsealed rows of a set. -/
def State.unsealedIn (s : State) (r : RowSet) : Nat := (s.mem.unsealed.filter fun row => r.subs.contains (subOf (row * 1024))).length
def State.setOfId? (s : State) (id : Nat) : Option RowSet := s.rows.sets.find? fun r => r.id == id
def State.setRows (s : State) (f : Rows → Rows) : State := { s with rows := f s.rows }
/-- The status of the last command. -/
def State.rsStatus (s : State) (code : Byte) : State := s.setRows fun r => { r with stat := code }

/-- The region subarrays of a bank of a pseudo-channel that are neither retired nor in a row set, lowest first. -/
def State.freeSubs (s : State) (stk pch bank : Nat) : List Nat :=
  let lo := 32 - s.rows.nr.toNat
  ((List.range s.rows.nr.toNat).map fun i => (stk * 32 + lo + i) * 4096 + pch * 16 + bank).filter fun u => !s.retiredSub u && !(s.rows.sets.any fun r => r.subs.contains u)

/-- The subarrays of a new set, bank by bank; none where a bank has too few. -/
def State.pickSubs (s : State) (stk pcbase n banks : Nat) : Option (List Nat) :=
  (List.range banks).foldl (fun (acc : Option (List Nat)) i => acc.bind fun l =>
    let f := s.freeSubs stk (pcbase + i / 16) (i % 16)
    if f.length < n then none else some (l ++ f.take n)) (some [])

/-- The lowest number of no row set. -/
def State.freeRsid (s : State) : Option Nat := lowestFree (s.rows.sets.map fun r => r.id) 1024

/-- A command written to RSCMD0: BUSY first, then its fields, then its own conditions, in the order of R48. -/
def rsCommand (bad : Bool) (f : State → CmdEnd) (s : State) : State :=
  if s.rows.busy.isSome then s.rsStatus 6
  else if bad then s.rsStatus 3
  else
    match f s with
    | .fail c => s.rsStatus (BitVec.ofNat 8 c)
    | .done s1 => s1.rsStatus 0
    | .later s1 => s1

/-- RSALLOC: the subarrays are taken at once; the status follows at the end of their zeroing. -/
def execRsalloc (port : BitVec 3) (w : BitVec 64) (s : State) : Res :=
  let n := w.toNat
  let c := cidOf w
  let pcbase := natBits n 27 20
  let l2 := natBits n 31 28
  let bad := decide (natBits n 15 14 ≠ 0) || decide (natBits n 63 37 ≠ 0) || decide (8 < l2) || decide (pcbase % 2 ^ l2 ≠ 0)
  s.byOwner port (rsCommand bad (fun s =>
    match s.freeRsid, s.pickSubs (natBits n 19 16) pcbase (natBits n 36 32 + 1) (16 * 2 ^ l2) with
    | some id, some subs =>
      if (s.ctx c).state.early then
        let r : RowSet := { id := id, cid := c, stk := natBits n 19 16, pcbase := pcbase, log2pc := l2, nsub := natBits n 36 32 + 1, subs := subs,
                            mark := .allocated, zeroing := true, freeing := false }
        .later (s.setRows fun x => { x with sets := x.sets ++ [r], busy := some id })
      else .fail 1
    | _, _ => .fail 4) s)

/-- RSFREE. -/
def execRsfree (port : BitVec 3) (w : BitVec 64) (s : State) : Res :=
  let n := w.toNat
  let id := natBits n 25 16
  let bad := decide (natBits n 15 14 ≠ 0) || decide (natBits n 63 26 ≠ 0)
  s.byOwner port (rsCommand bad (fun s =>
    match s.setOfId? id with
    | some r =>
      if r.cid = cidOf w ∧ r.freeing = false ∧ s.computing r = false then
        .later (s.setRows fun x => { x with busy := some id, sets := x.sets.map fun q => if q.id == id then { q with freeing := true } else q })
      else .fail 1
    | none => .fail 1) s)

/-- The code of a set's state: 0 free, 1 allocated, 2 loaded, 3 computing, 4 unsealed, 5 sealed. -/
def State.setCode (s : State) (id : Nat) : Nat :=
  match s.setOfId? id with
  | none => 0
  | some r =>
    if r.freeing then 0
    else if s.computing r then 3
    else if 0 < s.unsealedIn r then 4
    else match r.mark with
      | .allocated => 1
      | .loaded => 2
      | .sealed => 5

/-- RSQUERY: any host. -/
def execRsquery (_port : BitVec 3) (w : BitVec 64) (s : State) : Res :=
  let n := w.toNat
  let id := natBits n 25 16
  let bad := decide (natBits n 15 14 ≠ 0) || decide (natBits n 63 26 ≠ 0)
  .next (rsCommand bad (fun s => .done (s.setRows fun x =>
    { x with
      rsid := BitVec.ofNat 10 id, rsState := BitVec.ofNat 3 (s.setCode id),
      nuns := BitVec.ofNat 32 (Nat.min (2 ^ 32 - 1) (match s.setOfId? id with | some r => s.unsealedIn r | none => 0)) })) s)

/-- RSCFG: takes effect only with every slot free and a size that fits. -/
def execRscfg (port : BitVec 3) (w : BitVec 64) (s : State) : Res :=
  let nr := natBits w.toNat 5 0
  s.byOwner port (if (s.contexts.all fun c => decide (c.state = .free)) ∧ nr + 2 * s.arc.units.toNat ≤ 32 then s.setRows fun x => { x with nr := BitVec.ofNat 6 nr } else s)

/-- Every row of the subarrays is zeroed and sealed; what was known of their ciphertext is gone. -/
def Memory.zeroSubs (m : Memory) (subs : List Nat) : Memory :=
  { m with
    cells := m.cells.filter fun c => !(decide (c.1 < 2 ^ 40) && subs.contains (subOf c.1)),
    tags := m.tags.filter fun t => !(decide (t.idx * 32 < 2 ^ 40) && subs.contains (subOf (t.idx * 32))),
    unsealed := m.unsealed.filter fun r => !(decide (r * 1024 < 2 ^ 40) && subs.contains (subOf (r * 1024))),
    flips := m.flips.filter fun f => !(decide (f.1 < 2 ^ 40) && subs.contains (subOf f.1)),
    reserved := m.reserved.filter fun r => !subs.contains r.sub }

/-- ROW_SET_ZEROING_END: an allocated set is granted with its descriptor, a freed one is gone. -/
def execRowSetZeroingEnd (rsid : BitVec 10) (s : State) : Res :=
  match s.setOfId? rsid.toNat with
  | none => .next s
  | some r =>
    let s1 : State := { s with mem := s.mem.zeroSubs r.subs }
    let own := decide (s.rows.busy = some r.id)
    if r.zeroing then
      let s2 := s1.setRows fun x => { x with
        sets := x.sets.map fun (q : RowSet) => if q.id == r.id then { q with zeroing := false } else q,
        busy := if own then none else x.busy, stat := if own then 0 else x.stat, rsid := if own then rsid else x.rsid }
      .next (s2.sysWrite (s.rows.cmd1.toNat * 64) (r.subs.map fun u => BitVec.ofNat 8 (subIdx u)))
    else if r.freeing then
      .next (s1.setRows fun x => { x with
        sets := x.sets.filter fun (q : RowSet) => q.id != r.id,
        busy := if own then none else x.busy, stat := if own then 0 else x.stat })
    else .next s

/-! ## Refresh (R382 to R384) -/

/-- The refresh state of a pseudo-channel. -/
def State.refreshAt (s : State) (stk pch : Nat) : Refresh :=
  (s.rows.refresh.find? fun f => f.stk == stk && f.pch == pch).getD
    { stk := stk, pch := pch, postponed := [], banks := [], due := false, all := false, next := 0, since := 0 }
/-- Put it back; one with nothing to say is not listed. -/
def State.setRefresh (s : State) (f : Refresh) : State :=
  s.setRows fun x =>
    let rest := x.refresh.filter fun g => !(g.stk == f.stk && g.pch == f.pch)
    { x with refresh := if f.postponed.isEmpty && f.banks.isEmpty && !f.due && !f.all && decide (f.next = 0) then rest else f :: rest }

/-- An access is queued at a bank, or the bank is in the running wave: the accesses of strands, those of hosts and other modules that wait, and, at a bank
of the wave, those of engines that asked for a gap. -/
def State.bankBusy (s : State) (stk pch bank : Nat) : Bool :=
  let here (pa : Nat) : Bool := decide (pa < 2 ^ 40) && stkOf pa == stk && pchOf pa == pch && bankOf pa == bank
  (s.waveBanks stk).contains (pch * 16 + bank) ||
  (s.ops.any fun o => o.work.places.any fun (l, _, _) => match l with
    | .phys pa => here pa
    | .buf _ _ => false) ||
  (s.heldCxl.any fun h => here (h.addr.toNat % 2 ^ 40)) || s.heldRemote.any fun h => here h.addr.toNat
/-- An access ended at the bank, so that it may be busy still, for 256 cycles after it; at most `n` refreshes of its pseudo-channel have fallen due since. -/
def State.bankTail (s : State) (stk pch bank n : Nat) : Bool := s.rows.tails.any fun t => decide (t.1 = (stk, pch, bank)) && decide (t.2 ≤ n)
/-- A refresh falls due, 390 cycles after the one before it: what ended before that one is over. -/
def State.ageTails (s : State) (stk pch : Nat) : State := s.setRows fun x =>
  { x with tails := (x.tails.filter fun t => !(t.1.1 == stk && t.1.2.1 == pch && decide (t.2 ≠ 0))).map fun t =>
      if t.1.1 == stk && t.1.2.1 == pch then (t.1, t.2 + 1) else t }
/-- An all-bank refresh closes the banks for 512 cycles: nothing of before it counts any more. -/
def State.dropTails (s : State) (stk pch : Nat) : State := s.setRows fun x => { x with tails := x.tails.filter fun t => !(t.1.1 == stk && t.1.2.1 == pch) }

/-- REFRESH_DUE: the bank whose turn it is falls due. Its refresh runs at once, is postponed, or, with eight postponed, forces an all-bank refresh; a
due in a bank of the running wave is postponed (R384). Whether the 256 cycles of an access that has ended are over is time, and free
(notes/assumptions/5.md). -/
def execRefreshDue (stack : BitVec 4) (pch : BitVec 8) (bank : BitVec 4) (s : State) : Res :=
  let f := s.refreshAt stack.toNat pch.toNat
  if s.plat.on = false ∨ f.all = true ∨ f.due = true ∨ bank.toNat ≠ f.next then .next s
  else
    let f1 := { f with next := (f.next + 1) % 16 }
    let busy := s.bankBusy stack.toNat pch.toNat bank.toNat || (s.bankTail stack.toNat pch.toNat bank.toNat 0 && Config.freeBool s.fresh)
    .next ((s.tick.ageTails stack.toNat pch.toNat).setRefresh
      (if f.postponed.length = 8 then { f1 with due := true, since := s.fresh }
       else if busy then { f1 with postponed := f.postponed ++ [bank.toNat] }
       else { f1 with banks := f.banks ++ [bank.toNat] }))

/-- POSTPONED_REFRESH: the bank has stopped being busy. Of the postponed refreshes whose banks are not busy, the oldest runs. -/
def execPostponedRefresh (stack : BitVec 4) (pch : BitVec 8) (bank : BitVec 4) (s : State) : Res :=
  let f := s.refreshAt stack.toNat pch.toNat
  let free (b : Nat) : Bool := !f.banks.contains b && !s.bankBusy stack.toNat pch.toNat b && !s.bankTail stack.toNat pch.toNat b 1
  let ended := s.bankTail stack.toNat pch.toNat bank.toNat 1 && !f.banks.contains bank.toNat && !s.bankBusy stack.toNat pch.toNat bank.toNat && Config.freeBool s.fresh
  .next
    (if !f.due && !f.all && (f.postponed.find? fun b => free b || (ended && b == bank.toNat)) == some bank.toNat then
       s.tick.setRefresh { f with postponed := f.postponed.erase bank.toNat, banks := f.banks ++ [bank.toNat] }
     else s)

/-- An all-bank refresh of a pseudo-channel starts: nothing is postponed any more, and its schedule starts again at bank 0. -/
def State.startAll (s : State) (stk pch : Nat) : State :=
  (s.dropTails stk pch).setRefresh { stk := stk, pch := pch, postponed := [], banks := [], due := false, all := true, next := 0, since := 0 }

/-- ALL_BANK_REFRESH: the ninth due of a pseudo-channel; where it has a bank in the running wave, every pseudo-channel of the wave refreshes at
once, at the step boundary. -/
def execAllBankRefresh (stack : BitVec 4) (pch : BitVec 8) (s : State) : Res :=
  let stk := stack.toNat
  if (s.refreshAt stk pch.toNat).due then
    let wave := ((s.waveBanks stk).map fun b => b / 16).eraseDups
    .next (if wave.contains pch.toNat then wave.foldl (fun s p => s.startAll stk p) s else s.startAll stk pch.toNat)
  else .next s

/-- REFRESH_END. -/
def execRefreshEnd (stack : BitVec 4) (pch : BitVec 8) (bank : BitVec 4) (s : State) : Res :=
  let f := s.refreshAt stack.toNat pch.toNat
  .next (s.setRefresh (if f.all then { f with all := false } else { f with banks := f.banks.erase bank.toNat }))

/-! ## Soft errors (R380) -/

/-- SOFT_ERROR: a stored bit of a sealed sector is wrong until the sector is written; in an unsealed row the bit itself changes. -/
def execSoftError (addr : BitVec 40) (bit : BitVec 3) (s : State) : Res :=
  let a := addr.toNat
  let b := bit.toNat
  let m := s.mem
  .next { s with mem :=
    if m.unsealed.contains (a / 1024) then { m with cells := cellPut m.cells a (cellGet m.cells a ^^^ BitVec.ofNat 8 (2 ^ b)) }
    else if m.flips.contains (a, b) then { m with flips := m.flips.filter fun f => f ≠ (a, b) }
    else { m with flips := m.flips ++ [(a, b)] } }

end Sys2Proof.Machine
end

