-- ==== Sys2Proof/Machine/Link.lean ====
section
/-!
DEFINITION. Links, remote windows and CXL.mem (spec/24_link.md R405 to R412; R449, R161).
-/
namespace Sys2Proof.Machine

open Sys2Proof

/-! ## Units: Acondut links 0 to 15, vertical buses 16 to 39, CXL ports 40 to 47 -/

def State.unit (s : State) (u : Nat) : Link := s.links.units.getD u Link.reset
def State.modUnit (s : State) (u : Nat) (f : Link → Link) : State := { s with links := { s.links with units := modAt s.links.units u f } }
/-- An Acondut link has lanes to drop and reports its width. -/
def isAcondut (u : Nat) : Bool := decide (u < 16)
def isBus (u : Nat) : Bool := decide (16 ≤ u) && decide (u < 40)
/-- The number of a unit in an event: link, die of a vertical bus, or port. -/
def unitNumber (u : Nat) : Nat := if u < 16 then u else if u < 40 then u - 16 else u - 40
/-- The code of a link's state (R408). -/
def LinkSt.code : LinkSt → Nat
  | .down => 0
  | .training => 1
  | .up => 2
  | .retraining => 3
  | .degraded => 4
  | .failed => 5
/-- The link carries traffic. -/
def LinkSt.live (x : LinkSt) : Bool := decide (x = .up) || decide (x = .degraded)

/-- The owner's port has failed or gone down: no owner; CLAIM is accepted 10 ms later (R437). -/
def State.loseOwner (s : State) : State := { s with plat := { s.plat with owner := 0xF, lockout := true } }
def State.portLost (s : State) (u : Nat) : State := if 40 ≤ u ∧ s.plat.owner.toNat = u - 40 then s.loseOwner else s

/-- What the failure of a vertical bus discards, without a reset (R447): every context, queue, kernel, session and measurement, with all that stands for
them. Archive blocks survive as unowned (R402). Memory, rings, ownership and links stay: notes/assumptions/76.md. -/
def State.discardWork (s : State) : State :=
  let r := State.reset
  { s with
    contexts := r.contexts, queues := r.queues, served := r.served, place := r.place, kernels := [], groups := [], cores := r.cores, ops := [], locks := [],
    mats := [], cats := [], llc := [], l2 := [], heldRemote := [],
    mmu := { s.mmu with tlb := [], walk := [], pend := [], queue := [], counts := [], migs := [], psCmd := none },
    rows := { s.rows with busy := none, sets := [], ops := [], seq := r.rows.seq, gap := r.rows.gap, asked := [] },
    arc := { s.arc with ops := [], staged := [], versions := s.arc.versions.map Version.survive },
    plat := { s.plat with measures := r.plat.measures, sessions := r.plat.sessions } }

/-- Every context takes a fatal context error (R411, R337), and every one is discarded (R447). -/
def State.busFailed (s : State) : State := ((List.range 64).foldl (fun s c => s.contextError c 4 0 0) s).discardWork

/-- A unit fails: an error event to the owner, and what the loss of a port or a vertical bus does. The failed bus, after which the device must be
reset, is the fatal device error at which every port signals Viral (R406; DEDUCED, notes/assumptions/108.md). -/
def State.failUnit (s : State) (u : Nat) : State :=
  let s1 := (s.modUnit u fun l => { l with state := .failed, defer := false }).postOwner (eventRec 0x07 0 (BitVec.ofNat 64 (unitNumber u)) 5 0)
  if isBus u then { s1.busFailed with links := { s1.busFailed.links with viral := true } } else s1.portLost u

/-! ## Awaited transfers (R109) -/

/-- The link that an access to a physical address uses, where it lies in a remote window (R410). -/
def State.linkOf (s : State) (pa : Nat) : Option Nat :=
  match remoteOf s pa with
  | none => none
  | some (w, x) => let us := s.usableLinks w; if us.isEmpty then none else us[x / 4096 % us.length]?

/-- An access to a physical address uses a unit: the Acondut link of a remote window, the port of a POOL window, or the vertical bus of the stack base
die to its row stack (R11, R405, R410). -/
def State.unitCarries (s : State) (u pa : Nat) : Bool :=
  if isAcondut u then s.linkOf pa == some u
  else if isBus u then decide (pa < 2 ^ 40) && 24 + stkOf pa == u
  else match regionOf s pa with
    | .pool p _ _ => 40 + p == u
    | _ => false

/-- An access at a virtual address uses a unit. -/
def State.vaUses (s : State) (u cid va : Nat) : Bool :=
  match s.walk cid va with
  | .leaf e lv _ => s.unitCarries u (pteAddr e + va % (if lv = 2 then 2 ^ 21 else 2 ^ 12))
  | _ => false

/-- The next batch of a copy command uses a unit. -/
def State.copyUses (s : State) (u cid : Nat) (c : CopyCmd) : Bool :=
  (List.range (Nat.min 1024 (c.total - c.pos))).any fun i => (iterTouch c (c.pos + i)).any fun t => s.vaUses u cid t.va

/-- The next row of a catalogue run uses a unit: its directory word, or the pages of the row. The engine of row stack s works over the bus of base
die 8 + s. -/
def State.catUses (s : State) (u : Nat) (o : CatOp) : Bool :=
  24 + o.engine == u ||
  (match o.dirs.getD o.next none with
   | none => s.vaUses u o.cid (o.dirAt o.next)
   | some w =>
     let lo := entBase o.entry + 8 * natBits w.toNat 36 0
     (pageTouches lo (lo + 8 * natBits w.toNat 56 37) .read o.entry).any fun t => s.vaUses u o.cid t.va)

/-- The next page of an archive operation uses a unit: the pages of its source, or the buses of row stacks 2a and 2a + 1, over which archive stack a
works. -/
def State.arcUses (s : State) (u : Nat) (o : ArcOp) : Bool :=
  (o.kind == 2 && (List.range 4).any fun q => s.vaUses u o.cid (entBase o.entry + 16384 * o.count + 4096 * q)) ||
  (isBus u && decide (24 ≤ u) &&
    match o.vid.bind s.version? with
    | some v => (u - 24) / 2 == pageStack v.baddr o.count
    | none => (match s.stageNext o with
      | some pg => (match s.readablePage pg with
        | some (p, _) => (u - 24) / 2 == p.ast
        | none => false)
      | none => false))

/-- A migration uses a unit: the frame it copies from, or the one it copies to. -/
def State.migUses (s : State) (u : Nat) (m : Migration) : Bool :=
  s.unitCarries u (pteAddr m.oldLeaf) || (match m.target with | some f => s.unitCarries u f | none => false)

/-- A pending superstep arrival waits for the transfer of identity `i`. -/
def State.awaited (s : State) (i : Nat) : Bool := s.ops.any fun o => (match o.work with | .sstep _ => true | _ => false) && o.after.contains i

/-- An awaited transfer uses a unit: one that a pending superstep arrival waits for, or one whose completion is an engine's arrival at a named barrier.
The sequencer of row stack s works over the bus of base die 8 + s. -/
def State.awaitedOn (s : State) (u : Nat) : Bool :=
  (s.ops.any fun o => s.awaited o.id && o.work.places.any fun (l, _, _) => match l with | .phys pa => s.unitCarries u pa | .buf _ _ => false) ||
  (s.groups.any fun g => g.strands.any fun t => t.chans.any fun ch =>
     ch.closed.any fun b => b.cmds.any fun c => (s.awaited c.id || b.cqb.getLsbD 15) && s.copyUses u g.cid c) ||
  (s.rows.ops.any fun o => (s.awaited o.id || natBit o.options.toNat 50) &&
     ((o.runs.any fun r => 24 + r.stk == u) || o.pages.any fun p => s.unitCarries u p.pa)) ||
  (s.cats.any fun o => (s.awaited o.id || kcBen o.xd) && s.catUses u o) ||
  (s.arc.ops.any fun o => (s.awaited o.id || kcBen o.xd) && s.arcUses u o) ||
  s.mmu.migs.any fun m => s.awaited m.id && s.migUses u m

/-! ## The states of a link (R411) -/

/-- A retraining starts. -/
def State.startRetraining (s : State) (u : Nat) : State := s.modUnit u fun l => { l with prev := l.state, state := .retraining, defer := false }
/-- A retraining is called for, and deferred while an awaited transfer uses the link. -/
def State.callRetraining (s : State) (u : Nat) : State :=
  if (s.unit u).state.live then (if s.awaitedOn u then s.modUnit u fun l => { l with defer := true } else s.startRetraining u) else s

/-- LINK_ENABLE. -/
def execLinkEnable (port : BitVec 3) (link : BitVec 4) (s : State) : Res :=
  s.byOwner port (s.modUnit link.toNat fun l => if l.en then l else { l with en := true, state := if l.state = .down then .training else l.state, retr := 0 })
/-- LINK_DISABLE. -/
def execLinkDisable (port : BitVec 3) (link : BitVec 4) (s : State) : Res :=
  s.byOwner port (s.modUnit link.toNat fun l => { l with en := false, state := .down, defer := false })
/-- RTR. -/
def execRtr (port : BitVec 3) (link : BitVec 4) (s : State) : Res := s.byOwner port (s.callRetraining link.toNat)

/-- TRAINING_END: the width code is 0 for full width and rate, 1 and 2 for the reduced widths of LKSTAT, 3 for full width at a reduced rate; a vertical bus
has no lanes to drop. For an Acondut link the other operands are what it learnt of the far end; for a port a nonzero `peerLink` says that the host could not
train 256-byte flit mode, which leaves it CXL.io only (R406). -/
def execTrainingEnd (unit : BitVec 6) (width : BitVec 2) (peer : BitVec 8) (peerLink : BitVec 4) (s : State) : Res :=
  let u := unit.toNat
  .next (s.modUnit u fun l =>
    if l.state ≠ .training then l
    else
      let l1 := { l with state := if width = 0 ∨ isBus u = true then .up else .degraded }
      if isAcondut u then { l1 with wid := if width = 3 then 0 else width, peer := peer, peerlk := peerLink }
      else { l1 with io := !isBus u && (l.io || decide (peerLink ≠ 0)) })

/-- TRAINING_TIMEOUT: the third failed attempt, or 600 us. -/
def execTrainingTimeout (unit : BitVec 6) (s : State) : Res :=
  .next (if (s.unit unit.toNat).state = .training then s.failUnit unit.toNat else s)

/-- REALIGNMENT_DUE. -/
def execRealignmentDue (unit : BitVec 6) (s : State) : Res := .next (s.callRetraining unit.toNat)
/-- DEFERRAL_EXPIRY: the awaited transfer is done, or 64 us have passed. -/
def execDeferralExpiry (unit : BitVec 6) (s : State) : Res :=
  .next (if (s.unit unit.toNat).state.live && (s.unit unit.toNat).defer then s.startRetraining unit.toNat else s)
/-- CHECK_FAILURE_LIMIT: 1,024 check failures within 1 ms. -/
def execCheckFailureLimit (unit : BitVec 6) (s : State) : Res :=
  .next (if (s.unit unit.toNat).state.live then s.startRetraining unit.toNat else s)

/-- A 16-bit count that saturates. -/
def satInc (n : BitVec 16) : BitVec 16 := if n = 0xFFFF then n else n + 1

/-- RETRAINING_END: with its width kept the link goes back to its state; with a narrower one it is degraded. -/
def execRetrainingEnd (unit : BitVec 6) (width : BitVec 2) (s : State) : Res :=
  let u := unit.toNat
  .next (s.modUnit u fun l =>
    if l.state ≠ .retraining ∨ width = 3 then l
    else if l.wid.toNat < width.toNat ∧ isBus u = false then { l with state := .degraded, wid := width, retr := satInc l.retr }
    else { l with state := l.prev, retr := satInc l.retr })

/-- RETRAINING_TIMEOUT: not done within 3 us. -/
def execRetrainingTimeout (unit : BitVec 6) (s : State) : Res :=
  .next (if (s.unit unit.toNat).state = .retraining then s.failUnit unit.toNat else s)

/-- VERTICAL_BUS_FAILURE. -/
def execVerticalBusFailure (die : BitVec 5) (s : State) : Res :=
  .next (if die.toNat < 24 ∧ (s.unit (16 + die.toNat)).state ≠ .failed then s.failUnit (16 + die.toNat) else s)

/-- FLIT_CHECK_FAILURE: the flit is sent again; only the count changes (R408). -/
def execFlitCheckFailure (link : BitVec 4) (s : State) : Res := .next (s.modUnit link.toNat fun l => { l with crce := satInc l.crce })

/-- MODID: a write is ignored unless every slot is free. -/
def execModid (port : BitVec 3) (w : BitVec 64) (s : State) : Res :=
  s.byOwner port (if s.contexts.all fun c => decide (c.state = .free) then { s with links := { s.links with modid := w.extractLsb' 0 8 } } else s)

/-! ## Accesses of other modules (R410) -/

/-- The local context that a source module and context may enter. -/
def State.binding (s : State) (smod : Byte) (scid : BitVec 6) : Option Nat :=
  (s.links.rbind.find? fun b => b.getLsbD 63 && b.extractLsb' 0 8 == smod && b.extractLsb' 8 6 == scid).map fun b => (b.extractLsb' 14 6).toNat

/-- `n` bytes at a physical address are sealed sectors that can be corrected. -/
def State.soundAt (s : State) (pa n : Nat) : Bool := !s.badPlace (.phys pa) n

/-- The bytes of an access of another module: 1 to 32, with 0 for the 32 of a sector; of an atomic, those of its type. -/
def remoteSize (kind : RemoteKind) (size : BitVec 6) : Nat :=
  match kind with
  | .atomic _ ty => 2 ^ (ty.toNat % 4)
  | _ => if size = 0 then 32 else Nat.min size.toNat 32
/-- The functions of atomics in the order of R255. -/
def remoteFn (n : BitVec 3) : AtomicFn := [AtomicFn.add, .min, .max, .and, .or, .xor, .swp].getD n.toNat .cas

/-- Perform an access that the binding admits for context `c`, at the device scope of this module: a read, a write, or an atomic, whose operand and
compare value are the first two words of the data and whose answer is the old value. It passes the last-level cache of its home (R142). -/
def State.remotePerform (s : State) (c pa : Nat) (ver : BitVec 32) (kind : RemoteKind) (n : Nat) (data : BitVec 256) : State :=
  let way := CacheWay.other s.fresh
  if kind = .write then { s.unitWrite way c ver pa (leBytes n data.toNat) with answer := some { poison := false, data := [] } }
  else if s.soundAt pa n = false then { s.countSpan c pa n with answer := some { poison := true, data := [] } }
  else
    let (old, s1) := s.unitRead way c ver pa n
    let s2 := { s1 with answer := some { poison := false, data := old } }
    match kind with
    | .atomic fn ty =>
      match atomicNew (remoteFn fn) ty.toNat (leNat old) (data.toNat % 2 ^ (8 * n)) (data.toNat / 2 ^ 64 % 2 ^ (8 * n)) with
      | some x => s2.writeBytes (s2.keyOf c) ver pa (leBytes n x)
      | none => s2
    | _ => s2

/-- An access at its home waits for a held row, for a bank of the running wave or for a refresh (R160, R383, R385). -/
def State.homeWaits (s : State) (id pa n : Nat) : Bool := s.spanHeld pa n || s.spanWaits id pa n
/-- The unit retrains: its traffic is paused, and nothing of it is lost (R411). -/
def State.unitPaused (s : State) (u : Nat) : Bool := decide ((s.unit u).state = .retraining)

/-- REMOTE_ACCESS: an access of row-stack DRAM on behalf of the bound context. A refused access is
answered with the nonexistent-memory fault, which stands as poison; one that its home holds, or its link while that retrains, waits. -/
def execRemoteAccess (link : BitVec 4) (scid : BitVec 6) (addr : BitVec 40) (ver : BitVec 32) (kind : RemoteKind) (size : BitVec 6) (data : BitVec 256) (s : State) : Res :=
  let pa := addr.toNat
  let n := remoteSize kind size
  let refuse : State := { s with answer := some { poison := true, data := [] } }
  if (s.unit link.toNat).state.live = true ∨ s.unitPaused link.toNat = true then
    match s.binding (s.unit link.toNat).peer scid with
    | none => .next refuse
    | some c =>
      if pa + n ≤ 2 ^ 40 ∧ s.goodFrame pa = true ∧ s.goodFrame (pa + n - 1) = true ∧ s.frameTag (pa / 4096 * 4096) = some c ∧
          s.frameTag ((pa + n - 1) / 4096 * 4096) = some c then
        if s.homeWaits s.fresh pa n || s.unitPaused link.toNat then
          .next (({ s with fresh := s.fresh + 1, heldRemote := s.heldRemote ++
            [{ id := s.fresh, link := link, cid := c, addr := addr, ver := ver, kind := kind, size := size, data := data }] } : State).askGap (.remote s.fresh) pa)
        else .next (s.remotePerform c pa ver kind n data)
      else .next refuse
  else .next s

/-- An access that waited at its home, or for its link, proceeds. Where the link has failed, its module sends it again over another one (R412), so that this
one is dropped. -/
def State.remoteRelease (s : State) (h : HeldRemote) : State :=
  let pa := h.addr.toNat
  let n := remoteSize h.kind h.size
  let out : State := ({ s with heldRemote := s.heldRemote.filter fun x => x.id != h.id } : State).dropAsk (.remote h.id)
  if s.unitPaused h.link.toNat then s
  else if (s.unit h.link.toNat).state.live = false then out
  else if s.homeWaits h.id pa n then s.askGap (.remote h.id) pa
  else out.remotePerform h.cid pa h.ver h.kind n h.data

/-! ## CXL.mem accesses of hosts (R449, R161) -/

/-- An access of `n` bytes at a physical address through alias `c` is refused. -/
def State.cxlRefused (s : State) (c pa n : Nat) : Bool :=
  (s.ctx c).key.isNone || decide (2 ^ 40 < pa + n) || !s.dramOk c pa || !s.dramOk c (pa + n - 1)

/-- Perform a host's access that nothing holds. It passes the last-level cache of its home, in which its lines stand under the alias's context (R142,
R351, R449). -/
def State.cxlPerform (s : State) (c pa n : Nat) (write : Bool) (data : List Byte) : State :=
  let way := CacheWay.other s.fresh
  if s.cxlRefused c pa n then { s with answer := some { poison := !write, data := [] } }
  else if write then { s.unitWrite way c 0 pa data with answer := some { poison := false, data := [] } }
  else
    let r := s.unitRead way c 0 pa n
    { r.2 with answer := some (if s.soundAt pa n then { poison := false, data := r.1 } else { poison := true, data := [] }) }

/-- The bytes of an access: 1 to 63, with 0 for the 64 of a line. -/
def cxlSize (size : BitVec 6) : Nat := if size = 0 then 64 else size.toNat

/-- HOST_CXL_MEM_ACCESS, over a port that is up or degraded and offers more than CXL.io (R406): performed at once, or held while its row is held, its
bank is closed or its port retrains. -/
def execHostCxlMemAccess (port : BitVec 3) (addr : BitVec 46) (write : Bool) (size : BitVec 6) (data : BitVec 512) (s : State) : Res :=
  let c := addr.toNat / 2 ^ 40
  let pa := addr.toNat % 2 ^ 40
  let n := cxlSize size
  let paused := s.unitPaused (40 + port.toNat)
  if ((s.unit (40 + port.toNat)).state.live || paused) = false ∨ (s.unit (40 + port.toNat)).io = true then .next s
  else if paused || (s.homeWaits s.fresh pa n && !s.cxlRefused c pa n) then
    .next (({ s with fresh := s.fresh + 1, heldCxl := s.heldCxl ++ [{ id := s.fresh, port := port, addr := addr, write := write, size := size, data := data }] } : State).askGap
      (.cxl s.fresh) pa)
  else .next (s.cxlPerform c pa n write (leBytes n data.toNat))

/-- A held access that nothing holds any more proceeds (R160, R161). -/
def State.cxlRelease (s : State) (h : HeldCxl) : State :=
  let pa := h.addr.toNat % 2 ^ 40
  let n := cxlSize h.size
  if s.unitPaused (40 + h.port.toNat) then s
  else if s.homeWaits h.id pa n then s.askGap (.cxl h.id) pa
  else (({ s with heldCxl := s.heldCxl.filter fun x => x.id != h.id } : State).dropAsk (.cxl h.id)).cxlPerform (h.addr.toNat / 2 ^ 40) pa n h.write (leBytes n h.data.toNat)

/-- The row instruction that holds a row of an access. -/
def State.holder? (s : State) (pa n : Nat) : Option RowOp := s.rows.ops.find? fun o => o.held.contains (pa / 1024) || o.held.contains ((pa + n - 1) / 1024)

/-- HELD_CXL_TIMEOUT: after 1 ms at a held row a read completes with poison, a write is discarded; the owner hears of it. -/
def execHeldCxlTimeout (i : Nat) (s : State) : Res :=
  match s.heldCxl.find? fun h => h.id == i with
  | none => .next s
  | some h =>
    let pa := h.addr.toNat % 2 ^ 40
    match s.holder? pa (cxlSize h.size) with
    | none => .next s
    | some o =>
      .next ({ s with heldCxl := s.heldCxl.filter fun x => x.id != i, answer := some { poison := !h.write, data := [] } }.postOwner
        (eventRec 0x09 o.cid (BitVec.ofNat 64 pa) 0 0))

end Sys2Proof.Machine
end

