-- ==== Sys2Proof/Machine/Micro.lean ====
section
/-!
DEFINITION. The microcode ops (spec/18_row_microcode.md R289, R290, R296, R300 to R303, R381). A microcode op acts for the row run that
`rowFocus` names: a row instruction and a row stack.
-/
namespace Sys2Proof.Machine

open Sys2Proof

/-! ## Row specifiers (R202, R290) -/

def specClass (r : BitVec 9) : Nat := r.toNat / 64
/-- Index, plus LP where the relative flag is set. -/
def specPos (r : BitVec 9) (lp : Nat) : Nat := r.toNat % 32 + (if r.getLsbD 5 then lp else 0)

/-- What a specifier resolves to in a subarray: a row, a reserved row, or a position beyond the slice with the row whose copy a read
returns. -/
inductive RowAt where
  | row (pa : Nat)
  | res (idx : Nat)
  | gone (like : Option Nat)
  deriving DecidableEq, Repr

/-- The operand of a class: its words and its slice rows. -/
def classRows (o : RowOp) (x : Slice) (cls : Nat) : List Word × List Nat :=
  match cls with
  | 0 => (o.ea, x.a)
  | 1 => (o.eb.getD [], x.b)
  | _ => (o.ec.getD [], x.c)

/-- The row that a specifier names in a subarray. -/
def rowAt (o : RowOp) (lp : Nat) (x : Slice) (r : BitVec 9) : RowAt :=
  if specClass r = 3 then .res (specPos r lp)
  else
    let c := classRows o x (specClass r)
    match c.2[specPos r lp]? with
    | some pa => .row pa
    | none => .gone (if entFmt c.1 < 2 then c.2.getLast? else none)

/-- A reserved row, live or dead. -/
def State.reserved? (s : State) (sub idx : Nat) : Option ResRow := s.mem.reserved.find? fun r => r.sub == sub && r.idx == idx

/-- The raw lanes of a row; a dead reserved row reads as a free value (R289). -/
def readAt (sub : Nat) (t : RowAt) (s : State) : VReg × State :=
  match t with
  | .row pa => (s.rowRaw pa, s)
  | .res i => match s.reserved? sub i with
    | some r => if r.live then (r.lanes, s) else (Config.deadRow s.fresh, s.tick)
    | none => (Config.deadRow s.fresh, s.tick)
  | .gone (some pa) => (s.rowRaw pa, s)
  | .gone none => (0, s)

/-- Put lanes into a reserved row. -/
def State.putReserved (s : State) (sub idx : Nat) (sealed : Bool) (v : VReg) (live : Bool := true) : State :=
  let rest := s.mem.reserved.filter fun r => !(r.sub == sub && r.idx == idx)
  { s with mem := { s.mem with reserved := { sub := sub, idx := idx, sealed := sealed, lanes := v, live := live } :: rest } }

/-- A step writes a row, unsealed (R301). -/
def writeAt (sub : Nat) (t : RowAt) (v : VReg) (s : State) : State :=
  match t with
  | .row pa => s.putRow pa v false
  | .res i => s.putReserved sub i false v
  | .gone _ => s

/-! ## Running an op -/

/-- The meaning of a microcode op, for the run that acts. -/
def runR (f : RowOp → StackRun → Nat → State → State) (s : State) : Res :=
  match s.rowFocus with
  | none => .fault .noRun
  | some (i, stk) =>
    match s.rowOp? i with
    | none => .fault .noRun
    | some o =>
      match o.run? stk with
      | none => .fault .noRun
      | some r => .next (f o r stk s)

/-- The slices of the wave that runs. -/
def StackRun.slices (r : StackRun) : List Slice := r.waves.getD r.wave []

/-- A named reserved row does not exist, or is the one that duplicate-compare mode keeps (R290). -/
def specStops (o : RowOp) (lp : Nat) (r : BitVec 9) : Bool :=
  decide (specClass r = 3) && (decide (15 < specPos r lp) || (o.dup && decide (specPos r lp = 15)))

/-- The word is done: the next one follows after `n` steps. -/
def State.nextWord (s : State) (i stk n : Nat) : State :=
  (s.countSteps i stk n).modRowOp i fun o => o.modRun stk fun r => { r with pc := r.pc + 1, half := false }

/-- The steps that a word which writes a row takes: two in duplicate-compare mode (R303), of which the first may have been counted already, since a service
gap or a stop may come between them. -/
def writeSteps (o : RowOp) (r : StackRun) : Nat := if o.dup && !r.half then 2 else 1

/-- The position that a step has written, for ASEAL (R295), where it wrote it in some of the slices `ws`: class and slice row position. -/
def wrotePos (o : RowOp) (lp : Nat) (ws : List Slice) (r : BitVec 9) : List Nat :=
  if specClass r < 3 ∧ (ws.any fun x => decide (specPos r lp < (classRows o x (specClass r)).2.length)) then [specClass r * 2 ^ 20 + specPos r lp] else []

/-- The step in one subarray: what it writes, once; in duplicate-compare mode it runs a second time into `t:15` and the base die compares
the first-named row with it (R303, R381). The flag says that they differ. -/
def stepIn (dup : Bool) (sub : Nat) (dests : List RowAt) (val : State → VReg × State) (a : State × Bool) : State × Bool :=
  let (v, s1) := val a.1
  let s2 := dests.foldl (fun s d => writeAt sub d v s) s1
  if dup then
    let (v2, s3) := val s2
    let s4 := s3.putReserved sub 15 false v2
    match dests.headD (.gone none) with
    | .gone _ => (s4, a.2)
    | d =>
      let (x, s5) := readAt sub d s4
      (s5, a.2 || decide (x ≠ v2))
  else (s2, a.2)

/-- A step that writes rows: `dests` are its destinations, `val` its value in a subarray, or none where it changes nothing there. -/
def rowStep (names dests : List (BitVec 9)) (code : RowOp → StackRun → Byte) (val : RowOp → StackRun → Slice → Option (State → VReg × State)) (s : State) : Res :=
  runR (fun o r stk s =>
    if names.any fun n => specStops o r.lp n then s.stopRow o.id stk 0x07 r.pc
    else if code o r ≠ 0 then s.stopRow o.id stk (code o r) r.pc
    else
      let (s1, bad) := r.slices.foldl (fun a x => match val o r x with
        | some f => stepIn o.dup x.sub (dests.map fun d => rowAt o r.lp x d) f a
        | none => a) (s, false)
      let s2 := s1.modRowOp o.id fun o => o.modRun stk fun r =>
        { r with wrote := (dests.flatMap fun d => wrotePos o r.lp (r.slices.filter fun x => (val o r x).isSome) d).foldl insertNat r.wrote }
      if bad then (s2.countSteps o.id stk (writeSteps o r)).stopRow o.id stk 0x0A r.pc else s2.nextWord o.id stk (writeSteps o r)) s

def noStop (_ : RowOp) (_ : StackRun) : Byte := 0

/-- A step whose value is a function of one source row. -/
def copyStep (d q : BitVec 9) (f : VReg → VReg) (s : State) : Res :=
  rowStep [d, q] [d] noStop (fun o r x => some fun s => let (v, s1) := readAt x.sub (rowAt o r.lp x q) s; (f v, s1)) s

/-! ## The ops (R301) -/

/-- AAP. -/
def execAap (p q : BitVec 9) (s : State) : Res := copyStep p q (fun v => v) s
/-- DNOT. -/
def execDnot (p q : BitVec 9) (s : State) : Res := copyStep p q (fun v => ~~~v) s
/-- LSHL: lane j takes lane j - 1. -/
def execLshl (p q : BitVec 9) (s : State) : Res := copyStep p q (fun v => v <<< 1) s
/-- LSHR: lane j takes lane j + 1. -/
def execLshr (p q : BitVec 9) (s : State) : Res := copyStep p q (fun v => v >>> 1) s
/-- ZERO. -/
def execZero (p : BitVec 9) (s : State) : Res := rowStep [p] [p] noStop (fun _ _ _ => some fun s => (0, s)) s
/-- ONES. -/
def execOnes (p : BitVec 9) (s : State) : Res := rowStep [p] [p] noStop (fun _ _ _ => some fun s => (BitVec.allOnes 8192, s)) s

/-- The bitwise majority of three rows. -/
def maj (x y z : VReg) : VReg := (x &&& y) ||| (x &&& z) ||| (y &&& z)

/-- A target that lies beyond its slice. -/
def RowAt.isGone : RowAt → Bool
  | .gone _ => true
  | _ => false

/-- TRA: every named row takes the majority; a subarray where one lies beyond its slice changes none (R290). -/
def execTra (p q r : BitVec 9) (s : State) : Res :=
  rowStep [p, q, r] [p, q, r] noStop (fun o run x =>
    if [p, q, r].any fun n => (rowAt o run.lp x n).isGone then none
    else some fun s =>
      let (a, s1) := readAt x.sub (rowAt o run.lp x p) s
      let (b, s2) := readAt x.sub (rowAt o run.lp x q) s1
      let (c, s3) := readAt x.sub (rowAt o run.lp x r) s2
      (maj a b c, s3)) s

/-- WRL: window slot `k` into a row, the same in every subarray. -/
def execWrl (p k : BitVec 9) (s : State) : Res :=
  rowStep [p] [p] (fun o _ => if o.window.length / 1024 ≤ k.toNat then 0x08 else 0)
    (fun o _ _ => some fun s => (BitVec.ofNat 8192 (leNat ((o.window.drop (1024 * k.toNat)).take 1024)), s)) s

/-- BIT: a row of constant bit k + LP. -/
def execBit (k q : BitVec 9) (s : State) : Res :=
  rowStep [q] [q] (fun o r => if 8 * o.window.length ≤ k.toNat + r.lp then 0x08 else 0)
    (fun o r _ => some fun s => (if (o.window.getD ((k.toNat + r.lp) / 8) 0).getLsbD ((k.toNat + r.lp) % 8) then BitVec.allOnes 8192 else 0, s)) s

/-- A read of a row through the base die: its lanes, unsealed or uncorrectable, corrected. -/
def baseAt (sub : Nat) (t : RowAt) (s : State) : (VReg × Bool × Bool) × State :=
  match t with
  | .row pa => (s.baseRead pa, s)
  | .res i => match s.reserved? sub i with
    | some r => ((if r.live then r.lanes else Config.deadRow s.fresh, !r.sealed, false), s.tick)
    | none => ((Config.deadRow s.fresh, true, false), s.tick)
  | .gone (some pa) => (s.baseRead pa, s)
  | .gone none => ((0, false, false), s)

/-- A step that reads a row through the base die into the registers of each slice. -/
def readStep (q : BitVec 9) (f : RowOp → SliceReg → VReg → SliceReg) (o : RowOp) (r : StackRun) (stk : Nat) (s : State) : State :=
  let (regs, s1) := (List.range r.slices.length).foldl (fun (a : List SliceReg × State) j =>
    let x := r.slices.getD j { q := 0, sub := 0, a := [], b := [], c := [] }
    let ((v, uns, ce), s1) := baseAt x.sub (rowAt o r.lp x q) a.2
    (modAt a.1 j fun g => f o g v, s1.modRowOp o.id fun o => { o with uns := o.uns || uns, ce := o.ce || ce })) (r.regs, s)
  (s1.modRowOp o.id fun o => o.modRun stk fun r => { r with regs := regs }).nextWord o.id stk 1

/-- The record size of a running instruction. -/
def RowOp.rs (o : RowOp) : Nat := o.recordSize ((o.runs.flatMap fun r => r.waves.flatten).length)

/-- RDL: the image of a row joins the output record (R301). -/
def execRdl (q : BitVec 9) (s : State) : Res :=
  runR (fun o r stk s =>
    if specStops o r.lp q then s.stopRow o.id stk 0x07 r.pc
    else if o.eo.isNone || (r.regs.any fun g => decide (o.rs < 8 + 1024 * (g.out.length + 1))) then s.stopRow o.id stk 0x09 r.pc
    else readStep q (fun _ g v => { g with out := g.out ++ [v] }) o r stk s) s

/-- The number of set lanes below `n`. -/
def countLanes (v : VReg) (n : Nat) : Nat := ((List.range n).filter fun j => v.getLsbD j).length

/-- CNT. -/
def execCnt (q : BitVec 9) (s : State) : Res :=
  runR (fun o r stk s =>
    if specStops o r.lp q then s.stopRow o.id stk 0x07 r.pc
    else readStep q (fun o g v => { g with cr := BitVec.ofNat 14 (countLanes v (entExt o.ea 0)) }) o r stk s) s

/-- WACC: ACC takes CR shifted, added or subtracted; no step. -/
def waccR (neg : Bool) (f : BitVec 6) (o : RowOp) (_ : StackRun) (stk : Nat) (s : State) : State :=
  s.modRowOp o.id fun o => o.modRun stk fun r =>
    { r with pc := r.pc + 1, regs := r.regs.map fun g =>
        let x := BitVec.ofNat 64 (g.cr.toNat * 2 ^ f.toNat)
        { g with acc := if neg then g.acc - x else g.acc + x } }
def execWacc (_i : BitVec 2) (f : BitVec 6) (s : State) : Res := runR (waccR false f) s
/-- WACC.neg. -/
def execWaccNeg (_i : BitVec 2) (f : BitVec 6) (s : State) : Res := runR (waccR true f) s

/-- NEXT: loop control (R302); no step. -/
def execNext (b n : BitVec 9) (s : State) : Res :=
  runR (fun o r stk s =>
    let lp := if r.la = some r.pc then r.lp else 0
    if lp < n.toNat then
      if r.pc < b.toNat then s.stopRow o.id stk 0x06 r.pc
      else s.modRowOp o.id fun o => o.modRun stk fun r => { r with la := some r.pc, lp := lp + 1, pc := r.pc - b.toNat }
    else s.modRowOp o.id fun o => o.modRun stk fun r => { r with la := none, lp := 0, pc := r.pc + 1 }) s

/-- SEAL of a row in one subarray: it becomes sealed and keeps its value, which for a dead reserved row nobody may rely on. -/
def sealAt (sub : Nat) (t : RowAt) (s : State) : State :=
  match t with
  | .row pa => { s with mem := { s.mem with unsealed := s.mem.unsealed.filter fun u => u != pa / 1024 } }
  | .res i => match s.reserved? sub i with
    | some g => s.putReserved sub i true g.lanes g.live
    | none => (s.putReserved sub i true (Config.deadRow s.fresh) false).tick
  | .gone _ => s

/-- SEAL: the row becomes sealed; its value is unchanged. In duplicate-compare mode it runs twice like every step that writes a row (R301, R303), the
second time into `t:15`; both results are the row's own value, so the compare finds no difference. It writes its row, so ASEAL counts it (R295). -/
def execSeal (p : BitVec 9) (s : State) : Res :=
  runR (fun o r stk s =>
    if specStops o r.lp p then s.stopRow o.id stk 0x07 r.pc
    else
      let s1 := r.slices.foldl (fun (s : State) x =>
        let s1 := sealAt x.sub (rowAt o r.lp x p) s
        if o.dup then (let (v, s2) := readAt x.sub (rowAt o r.lp x p) s1; s2.putReserved x.sub 15 true v) else s1) s
      (s1.modRowOp o.id fun o => o.modRun stk fun q => { q with wrote := (wrotePos o r.lp r.slices p).foldl insertNat q.wrote }).nextWord o.id stk (writeSteps o r)) s

/-- A word writes a row, so that duplicate-compare mode runs it twice (R301, R303). -/
def writesRow : Instr → Bool
  | .aap _ _ | .tra _ _ _ | .dnot _ _ | .zero _ | .ones _ | .lshl _ _ | .lshr _ _ | .wrl _ _ | .bit _ _ | .seal _ => true
  | _ => false

/-- The first of the two steps of a word in duplicate-compare mode: what it writes the word itself brings, with its second step. -/
def State.firstHalf (s : State) (i stk : Nat) : State := (s.countSteps i stk 1).modRowOp i fun o => o.modRun stk fun r => { r with half := true }

/-- YIELD: the word after it is a YIELD point (R305). -/
def execYield (s : State) : Res :=
  runR (fun o _ stk s => (s.modRowOp o.id fun o => o.modRun stk fun r => { r with pc := r.pc + 1 }).yieldPoint o.id stk) s

/-- STOP: the wave ends, after the ASEAL steps where there are any (R295). -/
def execStop (s : State) : Res :=
  runR (fun o r stk s =>
    if o.aseal && !r.wrote.isEmpty then s.modRowOp o.id fun o => o.modRun stk fun r => { r with phase := .aseal, pos := 0 } else s.endWave o.id stk) s

end Sys2Proof.Machine
end

