-- ==== Sys2Proof/Machine/Gap.lean ====
section
/-!
DEFINITION. Service gaps (spec/22_row_set.md R385, R386): between two steps of a wave, each of its banks serves the access at the head of its queue.
-/
namespace Sys2Proof.Machine

open Sys2Proof

/-- The state after an event that may come; the same one where it has no effect. -/
def State.attempt (s : State) (r : State → Res) : State :=
  match r s with
  | .next t => t
  | _ => s

/-- Perform an ordinary access of a strand. -/
def State.performOp (s : State) (o : Op) : State :=
  match o.work with
  | .load _ _ => s.attempt (execLoadComplete o.id)
  | .store _ => s.attempt (execStoreComplete o.id)
  | .atomic _ _ _ _ _ _ _ => s.attempt (execAtomicComplete o.id)
  | .enq _ _ _ _ _ => s.attempt (execEnqCommit o.id)
  | _ => s

/-- The events that an access of another party may wait in; one that still waits for something else has no effect. The words that a strand needs are not
read here: that they have been served is noted, and the strand's issue reads them. -/
def Asker.events (who : Asker) (s : State) : List (State → Res) :=
  match who with
  | .chan u k q => [execNestBatch u (BitVec.ofNat 3 k) (BitVec.ofNat 2 q)]
  | .cat i => [execCatRow i]
  | .arc i => (match s.arcOp? i with
    | some o => if o.data.isEmpty then [execPageProgram i true] else []
    | none => [])
  | .row i => [execRowPreparation i, execRowRetire i] ++ (List.range 16).map fun k => execRowldPlaneStep i (BitVec.ofNat 4 k)
  | .snap u => [execSnapshotsHeld u]
  | .queue n => [execRecordFetch (BitVec.ofNat 8 n), execWaitClauseRecheck (BitVec.ofNat 8 n)] ++ (s.kernels.filter fun k => k.qid == n).map fun k => execKernelEnd k.uid
  | .cxl i => (s.heldCxl.filter fun h => h.id == i).map fun h t => .next (t.cxlRelease h)
  | .remote i => (s.heldRemote.filter fun h => h.id == i).map fun h t => .next (t.remoteRelease h)
  | .code _ _ => []

/-- Serve the access at the head of a bank's queue; it leaves the queue. -/
def State.serveHead (s : State) : QueueHead → State
  | .op o => s.performOp o
  | .ask a =>
    match a.who with
    | .code _ _ => { s with rows := { s.rows with asked := s.rows.asked.map fun b => if b.id == a.id then { b with served := true } else b } }
    | who =>
      let s1 := (who.events s).foldl State.attempt s
      { s1 with rows := { s1.rows with asked := s1.rows.asked.filter fun b => b.id != a.id } }

/-- SERVICE_GAP: at a step boundary with no forced refresh due, at least four steps after the last gap, each bank of the wave serves the head of its
queue. -/
def execServiceGap (stack : BitVec 4) (s : State) : Res :=
  let stk := stack.toNat
  let w := match (s.seqHead stk).bind fun i => (s.rowOp? i).bind fun o => o.run? stk with
    | some r => r.waves.getD r.wave []
    | none => []
  if s.gapDue stk && !s.refreshBlocks stk w then
    let q := s.rows.seq.getD stk []
    let s1 := { s.openSeq stk with rows := { (s.openSeq stk).rows with gap := s.rows.gap.set stk 0 } }
    .next (((s.gapHeads stk).foldl State.serveHead s1).setSeq stk fun added => q ++ added)
  else .next s

end Sys2Proof.Machine
end

