-- ==== Sys2Proof/Machine/Platform.lean ====
section
/-!
DEFINITION. Ownership, attestation, power, bring-up and the register window (spec/28_platform.md R435 to R448).
-/
namespace Sys2Proof.Machine

open Sys2Proof

def State.setPlat (s : State) (f : Platform → Platform) : State := { s with plat := f s.plat }

/-! ## Ownership (R436, R437) -/

/-- A port becomes the owner; events that had no owner go to its ring (notes/assumptions/11.md). -/
def State.setOwner (s : State) (p : BitVec 4) : State :=
  s.plat.heldEvents.foldl (fun s r => s.postOwner r) (s.setPlat fun x => { x with owner := p, lockout := false, heldEvents := [] })

/-- No owner, no handover. -/
def State.clearOwner (s : State) : State := s.setPlat fun x => { x with owner := 0xF, pend := 0xF }

/-- A write to OWNCTL is ignored where a reserved bit is set. -/
def ownCommand (w : Word) (ok : Bool) (f : State) (s : State) : Res := .next (if decide (argFrom w 8 = 0) && ok then f else s)
/-- The writing port is the owner. -/
def State.isOwner (s : State) (port : BitVec 3) : Bool := s.plat.owner.toNat == port.toNat

/-- OWN_CLAIM: within the 10 ms that follow the loss of the owner's port it is ignored; whether they have passed is not in the state
(notes/assumptions/18.md). -/
def execOwnClaim (port : BitVec 3) (w : BitVec 64) (s : State) : Res :=
  if s.plat.lockout then
    ownCommand w (decide (s.plat.phase = 5) && decide (s.plat.owner = 0xF) && Config.freeBool s.fresh) (s.tick.setOwner (port.setWidth 4)) s.tick
  else ownCommand w (decide (s.plat.phase = 5) && decide (s.plat.owner = 0xF)) (s.setOwner (port.setWidth 4)) s

/-- OWN_GIVE: TARGET is any value but the owner, as R437 has it; a port that does not exist takes nothing. -/
def execOwnGive (port : BitVec 3) (w : BitVec 64) (s : State) : Res :=
  let t : BitVec 4 := w.extractLsb' 4 4
  ownCommand w (s.isOwner port && decide (t ≠ s.plat.owner)) (s.setPlat fun x => { x with pend := t }) s

/-- OWN_TAKE. -/
def execOwnTake (port : BitVec 3) (w : BitVec 64) (s : State) : Res :=
  ownCommand w (s.plat.pend.toNat == port.toNat) ((s.setPlat fun x => { x with pend := 0xF }).setOwner (port.setWidth 4)) s

/-- OWN_RELEASE. -/
def execOwnRelease (port : BitVec 3) (w : BitVec 64) (s : State) : Res := ownCommand w (s.isOwner port) s.clearOwner s

/-- GIVE_EXPIRY: 1 ms without a TAKE. -/
def execGiveExpiry (s : State) : Res := .next (s.setPlat fun x => { x with pend := 0xF })

/-- OWNER_PORT_LOSS: the owner's port leaves up or degraded for down. -/
def execOwnerPortLoss (s : State) : Res :=
  let u := 40 + s.plat.owner.toNat
  .next (if s.plat.owner.toNat < 8 ∧ (s.unit u).state.live = true then (s.modUnit u fun l => { l with en := false, state := .down, defer := false }).loseOwner else s)

/-- OWNREL: as RELEASE by the owner. -/
def execOwnrel (s : State) : Res := .next s.clearOwner

/-! ## The capability list (R440) -/

/-- The half-word of a retired subarray. -/
def retiredCode (sub : Nat) : Nat := subIdx sub + 2 ^ 5 * (sub % 16) + 2 ^ 9 * (sub % 4096 / 16)
/-- Retired subarrays, two to a word. -/
def retiredWords : List Nat → List Word
  | a :: b :: r => BitVec.ofNat 64 (retiredCode a + 2 ^ 32 * retiredCode b) :: retiredWords r
  | [a] => [BitVec.ofNat 64 (retiredCode a)]
  | [] => []

/-- The first byte of the first entry. -/
def firstEntry : Nat := 8 + 8 * (Config.capGap 0).val
/-- Header 0. -/
def capHeader : Word := BitVec.ofNat 64 (1 + 2 ^ 16 * Config.stepping.toNat + 2 ^ 32 * firstEntry)

/-- The entries but the last, without their first words: kind and further words, in the order of their kinds and units. -/
def State.capEntries (s : State) : List (Nat × List Word) :=
  [(1, [BitVec.ofNat 64 (96 + 2 ^ 8 * 64 + 2 ^ 16 * 64 + 2 ^ 24 * 256), Config.serial])] ++
  ((List.range 16).map fun k =>
    let rs := s.rows.retired.filter fun u => subStk u == k
    (2, [BitVec.ofNat 64 (k + 2 ^ 4 * rs.length), BitVec.ofNat 64 (2 ^ 36 - rs.length * 2 ^ 19)] ++ retiredWords rs)) ++
  ((List.range 8).map fun a =>
    (3, [BitVec.ofNat 64 (a + 2 ^ 4 * (s.arc.blocks.filter fun b => b.ast == a && decide (b.cond = .retired)).length), BitVec.ofNat 64 (s.freePages a)])) ++
  [(4, [BitVec.ofNat 64 (s.rows.nr.toNat + 2 ^ 8 * s.arc.units.toNat)])]

/-- An entry with its first word. -/
def capEntry (id next : Nat) (ws : List Word) : List Word := BitVec.ofNat 64 (id + 2 ^ 16 * (ws.length + 1) + 2 ^ 32 * next) :: ws
/-- The words of the entries from number `i`, which stands at byte `o`, each with what is free before the next; the identity entry ends the list, with the
certificate after it. -/
def capWords (i o : Nat) : List (Nat × List Word) → List Word
  | [] => capEntry 5 0 [BitVec.ofNat 64 (o + 16 + Config.certGap.val + 2 ^ 16 * Config.certificate.length)]
  | (id, ws) :: es =>
    let gap := (Config.capGap (i + 1)).val
    let next := o + 8 * (ws.length + 1 + gap)
    capEntry id next ws ++ List.replicate gap 0 ++ capWords (i + 1) next es
/-- The bytes of the list area, from its first; those after them are zero. Zero before the list has been written (R448). -/
def State.capBytes (s : State) : List Byte :=
  if s.plat.listed then
    wordBytes (capHeader :: List.replicate (Config.capGap 0).val 0 ++ capWords 0 firstEntry s.capEntries) ++ zeroBytes Config.certGap.val ++ Config.certificate
  else []
/-- A word of the list area. -/
def State.capWord (s : State) (off : Nat) : Word := BitVec.ofNat 64 (leNat ((s.capBytes.drop off).take 8))

/-! ## Attestation (R441 to R443) -/

/-- The checks of an attestation command in the order of R48; BUSY until its end. -/
def attest (port : BitVec 3) (w : Word) (owner : Bool) (s : State) : Res :=
  let p := port.toNat
  let set (c : Byte) : State := s.modWindow p fun v => { v with atStat := c }
  .next
    (if owner && !s.isOwner port then set 2
     else if (s.window p).atCmd.isSome then set 6
     else if natBits w.toNat 7 4 ≠ 0 ∨ natBits w.toNat 63 12 ≠ 0 then set 3
     else s.modWindow p fun v => { v with atStat := 0, atCmd := some w })

/-- REPORT. -/
def execReport (port : BitVec 3) (w : BitVec 64) (s : State) : Res := attest port w false s
/-- SESSION: the owner only. -/
def execSession (port : BitVec 3) (w : BitVec 64) (s : State) : Res := attest port w true s

/-- The 8 ASCII bytes QZ8-WRAP. -/
def wrapLabel : List Byte := [0x51, 0x5A, 0x38, 0x2D, 0x57, 0x52, 0x41, 0x50]

/-- The identity key pair, of a seed that SHAKE256 derives from the fused device secret (R441). -/
def identityPair : BitVec 512 × BitVec 1024 := Config.slhdsaPair (shake256 (leBytes 64 Config.deviceSecret.toNat) 96)
/-- The ML-KEM encapsulation key of this bring-up; zero before there is one. -/
def Platform.encapsKey (p : Platform) : BitVec 12544 := match p.mlkem with
  | some k => k.1
  | none => 0

/-- Bytes 0x000 to 0x88F of a report. -/
def State.reportBody (s : State) (v : Window) : List Byte :=
  wordBytes [capHeader, Config.serial] ++ wordBytes v.nonce ++ s.plat.measures.flatten ++ leBytes 1568 s.plat.encapsKey.toNat ++ leBytes 64 identityPair.1.toNat
/-- A whole report: its body and the signature over it (R442). -/
def State.report (s : State) (v : Window) : List Byte :=
  s.reportBody v ++ leBytes 29792 (Config.slhdsaSignature identityPair.2 (s.reportBody v) s.fresh).toNat
/-- The wrap key of a session from its ciphertext (R442). -/
def Platform.sessionKey (p : Platform) (ct : List Byte) : List Byte :=
  shake256 (wrapLabel ++ (match p.mlkem with | some k => leBytes 32 (Config.mlkemSecret k.2 ct).toNat | none => zeroBytes 32)) 32

/-- ATTESTATION_COMMAND_END: the report is written, or the session's wrap key established. -/
def execAttestationCommandEnd (port : BitVec 3) (s : State) : Res :=
  let p := port.toNat
  let v := s.window p
  match v.atCmd with
  | none => .next s
  | some w =>
    let fin (s : State) : State := s.modWindow p fun v => { v with atCmd := none, atStat := 0 }
    let addr := natBits v.atAddr.toNat 51 0
    if natBits w.toNat 3 0 = 1 then
      .next (fin (s.tick.sysWrite addr (s.report v)))
    else .next (fin (s.setPlat fun x => { x with sessions := x.sessions.set (natBits w.toNat 11 8) (some (x.sessionKey (s.sysRead addr 1568))) }))

/-! ## Power and bring-up (R445 to R448) -/

/-- What a loss of power or a reset leaves (R447): the archive, the factory's retirement maps, the memory of the hosts, and the model's own
counters; every other part is as after reset. -/
def State.discard (s : State) : State :=
  { State.reset with
    agenda := s.agenda, fresh := s.fresh,
    mem := { State.reset.mem with host := s.mem.host },
    rows := { State.reset.rows with retired := s.rows.retired },
    arc := { s.arc with ops := [], staged := [], victims := List.replicate 8 none, units := 1, status := 0, data0 := 0, data1 := 0, data2 := 0, busy := none } }

/-- PHASE. -/
def State.setPhase (s : State) (p : BitVec 3) : State := s.setPlat fun x => { x with phase := p }

/-- PWR_ON: the rails come up and bring-up begins. -/
def execPwrOn (s : State) : Res := .next (if s.plat.on then s else (s.setPlat fun x => { x with on := true }).setPhase 1)
/-- PWR_OFF. -/
def execPwrOff (s : State) : Res := .next (if s.plat.on then s.discard else s)
/-- RST: the package is reset; with ON set it is brought up again. -/
def execRst (s : State) : Res := .next (if s.plat.on then (s.discard.setPlat fun x => { x with on := true }).setPhase 1 else s.discard)

/-- M_i is extended by an image (R441). -/
def State.extendM (s : State) (i : Nat) (img : List Byte) : State :=
  s.setPlat fun x => { x with measures := x.measures.set i (shake256 (x.measures.getD i [] ++ shake256 img 64) 64) }

/-- A phase ends: the next one, or failure. -/
def endPhase (p : BitVec 3) (ok : Bool) (f : State → State) (s : State) : Res :=
  .next (if s.plat.phase = p then (if ok then (f s).setPhase (p + 1) else s.setPhase 7) else s)

/-- The verification of the firmware by the boot ROM: the key has the fused digest, and the signature of the image is its (R441). -/
def firmwareVerified : Bool :=
  shake256 (leBytes 64 Config.firmwareKey.toNat) 64 == leBytes 64 Config.fusedDigest.toNat &&
  Config.slhdsaVerify (leBytes 64 Config.firmwareKey.toNat) Config.firmwareImage (leBytes 29792 Config.firmwareSignature.toNat)
/-- The ports offer CXL.io only (R441). -/
def State.ioOnly (s : State) : State :=
  { s with links := { s.links with units := (List.range 48).map fun u => let l := s.unit u; if u < 40 then l else { l with en := true, state := .training, io := true } } }

/-- BOOT_PHASE: the firmware is verified; M0 and M1 are extended, the ML-KEM key pair is new. `ok` is false where the ROM could not read the image at all
(notes/assumptions/8.md). -/
def execBootPhase (ok : Bool) (s : State) : Res :=
  let good := ok && firmwareVerified
  endPhase 1 good (fun s => (((s.extendM 0 Config.firmwareImage).extendM 1 Config.firmwareConfig).setPlat fun x => { x with mlkem := some (Config.mlkemPair s.fresh) }).tick)
    (if s.plat.phase = 1 ∧ good = false then s.ioOnly else s)

/-- MEMORY_PHASE: every data row is zeroed and sealed. -/
def execMemoryPhase (ok : Bool) (s : State) : Res :=
  endPhase 2 ok (fun s => { s with mem := { State.reset.mem with host := s.mem.host } }) s

/-- ARCHIVE_PHASE: the block table is rebuilt; the ports begin to train. -/
def execArchivePhase (ok : Bool) (s : State) : Res :=
  endPhase 3 ok (fun s => { s with
    arc := { s.arc with versions := s.arc.versions.map Version.survive },
    links := { s.links with units := (List.range 48).map fun u => let l := s.unit u; if u < 16 then l else { l with en := true, state := .training } } }) s

/-- LINKS_PHASE: the ports and the vertical buses that are still training are up, the capability list is written; the device is ready. -/
def execLinksPhase (ok : Bool) (s : State) : Res :=
  endPhase 4 ok (fun s => { s with
    links := { s.links with units := (List.range 48).map fun u => let l := s.unit u; if 16 ≤ u ∧ l.state = .training then { l with state := .up } else l },
    plat := { s.plat with listed := true } }) s

/-- The clock of a compute die after a reading: one step of 100 MHz down, to no less than 1.0 GHz, while the die is above its threshold or the package above
PLIM; else one step up again, to no more than 2.0 GHz (R444, R445; DESIGN CHOICE for the way up, notes/assumptions/78.md). -/
def Platform.nextClock (p : Platform) (d : Nat) : BitVec 12 :=
  let f := p.clocks.getD d 0
  if 100 < (p.temps.getD d 0).toNat ∨ p.plim.toNat < p.power.toNat then (if 1100 ≤ f.toNat then f - 100 else f) else if f.toNat ≤ 1900 then f + 100 else f

/-- THROTTLE_CHANGE: a sensor and the power meter give new readings; the clock of a compute die follows them, and the owner hears of a change. A stack's
pacing shows in no state. -/
def execThrottleChange (sensor : BitVec 5) (reading : Reading) (s : State) : Res :=
  let d := sensor.toNat
  let s1 := s.setPlat fun x => { x with temps := x.temps.set d reading.temp, power := reading.power }
  let f := s1.plat.nextClock d
  .next (if d < 8 ∧ f ≠ s.plat.clocks.getD d 0 then
    (s1.setPlat fun x => { x with clocks := x.clocks.set d f }).postOwner (eventRec 0x0A 0 (BitVec.ofNat 64 d) (BitVec.ofNat 64 f.toNat) 0)
  else s1)

end Sys2Proof.Machine
end

