-- ==== Sys2Proof/Machine/Rep.lean ====
section
/-!
DEFINITION. REP: a prefixed pair and its iterations (R198, R224, R225).
-/
namespace Sys2Proof.Machine

open Sys2Proof

/-- The effect of one issue of a form that REP may prefix; none for every other form (R224). -/
def repBody (i : Instr) : Option (Nat → Nat → Group → Strand → State → Eff State) :=
  match i with
  | .add d a b s x => some (liftS (addE d a b s x))
  | .sub d a b s x => some (liftS (subE d a b s x))
  | .mul d a b s x => some (liftS (mulE d a b s x))
  | .mulh d a b s x => some (liftS (mulhE d a b s x))
  | .div d a b s x => some (liftS (divE d a b s x))
  | .rem d a b s x => some (liftS (remE d a b s x))
  | .min d a b s x => some (liftS (minE d a b s x))
  | .max d a b s x => some (liftS (maxE d a b s x))
  | .mac d a b s x => some (liftS (macE d a b s x))
  | .abs d a s => some (liftS (absE d a s))
  | .neg d a s => some (liftS (negE d a s))
  | .absd d a b s x => some (liftS (absdE d a b s x))
  | .and d a b s x => some (liftS (andE d a b s x))
  | .or d a b s x => some (liftS (orE d a b s x))
  | .xor d a b s x => some (liftS (xorE d a b s x))
  | .andn d a b s x => some (liftS (andnE d a b s x))
  | .not d a s => some (liftS (notE d a s))
  | .shl d a b s x => some (liftS (shlE d a b s x))
  | .shr d a b s x => some (liftS (shrE d a b s x))
  | .shra d a b s x => some (liftS (shraE d a b s x))
  | .rol d a b s x => some (liftS (rolE d a b s x))
  | .popc d a s => some (liftS (popcE d a s))
  | .clz d a s => some (liftS (clzE d a s))
  | .ceq d a b s x => some (liftS (ceqE d a b s x))
  | .cne d a b s x => some (liftS (cneE d a b s x))
  | .clt d a b s x => some (liftS (cltE d a b s x))
  | .cle d a b s x => some (liftS (cleE d a b s x))
  | .cgt d a b s x => some (liftS (cgtE d a b s x))
  | .cge d a b s x => some (liftS (cgeE d a b s x))
  | .mand d a b => some (liftS (mandE d a b))
  | .mor d a b => some (liftS (morE d a b))
  | .mxor d a b => some (liftS (mxorE d a b))
  | .mandn d a b => some (liftS (mandnE d a b))
  | .mnot d a => some (liftS (mnotE d a))
  | .mset d => some (liftS (msetE d))
  | .mclr d => some (liftS (mclrE d))
  | .mpopc d a => some (liftS (mpopcE d a))
  | .mfirst d a => some (liftS (mfirstE d a))
  | .mtox d a => some (liftS (mtoxE d a))
  | .xtom d a => some (liftS (xtomE d a))
  | .sel d a b => some (liftS (selE d a b))
  | .slup d a b => some (liftS (slupE d a b))
  | .sldn d a b => some (liftS (sldnE d a b))
  | .vperm d a b => some (liftS (vpermE d a b))
  | .compr d a => some (liftS (comprE d a))
  | .expnd d a => some (liftS (expndE d a))
  | .bcast d b => some (liftS (bcastE d b))
  | .iota d => some (liftS (iotaE d))
  | .zip d a b => some (liftS (zipE d a b))
  | .unzip d a b => some (liftS (unzipE d a b))
  | .rsum d a => some (liftS (rsumE d a))
  | .rmin d a => some (liftS (rminE d a))
  | .rmax d a => some (liftS (rmaxE d a))
  | .rand d a => some (liftS (randE d a))
  | .ror d a => some (liftS (rorE d a))
  | .rxor d a => some (liftS (rxorE d a))
  | .addi d a s i => some (liftS (addiE d a s i))
  | .andi d a s i => some (liftS (andiE d a s i))
  | .ori d a s i => some (liftS (oriE d a s i))
  | .xori d a s i => some (liftS (xoriE d a s i))
  | .shli d a s c => some (liftS (shliE d a s c))
  | .shri d a s c => some (liftS (shriE d a s c))
  | .shrai d a s c => some (liftS (shraiE d a s c))
  | .roli d a s c => some (liftS (roliE d a s c))
  | .fadd d a b s x => some (liftS (faddE d a b s x))
  | .fsub d a b s x => some (liftS (fsubE d a b s x))
  | .fmul d a b s x => some (liftS (fmulE d a b s x))
  | .fdiv d a b s x => some (liftS (fdivE d a b s x))
  | .fsqrt d a s => some (liftS (fsqrtE d a s))
  | .fmin d a b s x => some (liftS (fminE d a b s x))
  | .fmax d a b s x => some (liftS (fmaxE d a b s x))
  | .fabs d a s => some (liftS (fabsE d a s))
  | .fneg d a s => some (liftS (fnegE d a s))
  | .frcp d a s => some (liftS (frcpE d a s))
  | .frsq d a s => some (liftS (frsqE d a s))
  | .fexp2 d a s => some (liftS (fexp2E d a s))
  | .flog2 d a s => some (liftS (flog2E d a s))
  | .ftanh d a s => some (liftS (ftanhE d a s))
  | .fma d a b s x => some (liftS (fmaE d a b s x))
  | .fms d a b s x => some (liftS (fmsE d a b s x))
  | .fnma d a b s x => some (liftS (fnmaE d a b s x))
  | .fnms d a b s x => some (liftS (fnmsE d a b s x))
  | .fceq d a b s x => some (liftS (fceqE d a b s x))
  | .fcne d a b s x => some (liftS (fcneE d a b s x))
  | .fclt d a b s x => some (liftS (fcltE d a b s x))
  | .fcle d a b s x => some (liftS (fcleE d a b s x))
  | .fcun d a b s x => some (liftS (fcunE d a b s x))
  | .fclass d a s => some (liftS (fclassE d a s))
  | .cvt d a y s => some (liftS (cvtE d a y s))
  | .rint d a s => some (liftS (rintE d a s))
  | .frsum d a => some (liftS (frsumE d a))
  | .frmin d a => some (liftS (frminE d a))
  | .frmax d a => some (liftS (frmaxE d a))
  | .qscale d a b => some (liftS (qscaleE d a b))
  | .qpack d a b => some (liftS (qpackE d a b))
  | .qunpk d a b => some (liftS (qunpkE d a b))
  | .vld d a k r p o => some (vldE (Way.vec p k) d a r o)
  | .vst d a k p o => some (vstE (Way.vec p k) d a o)
  | .ld d a k r p o => some (ldE (Way.mem p k) d a r o)
  | .st d a k p o => some (stE (Way.mem p k) d a o)
  | .vlds d a k r p b => some (vldsE (Way.vec p k) d a r b)
  | .vldi d a k r p b => some (vldiE (Way.vec p k) d a r b)
  | .vsts d a k p b => some (vstsE (Way.vec p k) d a b)
  | .vsti d a k p b => some (vstiE (Way.vec p k) d a b)
  | _ => none

/-! ## Stepped fields (R198) -/

/-- The register field that a STEP bit names: D, A or B. -/
def steppedField (f : Fields) : Nat → Option (RegKind × BitVec 6)
  | 2 => f.d
  | 1 => f.a
  | _ => f.b

/-- Every field that STEP names is a v, x, v/x or m register of the form. -/
def stepOk (s : BitVec 3) (f : Fields) : Bool :=
  (List.range 3).all fun j => !s.getLsbD j || (match steppedField f j with | some (k, _) => k != .n | none => false)

/-- The stepped numbers of an iteration are in range. -/
def stepInRange (s : BitVec 3) (f : Fields) (by' : Nat) : Bool :=
  (List.range 3).all fun j => !s.getLsbD j || (match steppedField f j with | some (k, r) => decide (r.toNat + by' < k.count) | none => true)

/-- The low bit of field B of a word: format M2 has it lower than format R (R185). -/
def fieldBLow (w : BitVec 32) : Nat := if fld w 26 6 = 0x24 ∨ fld w 26 6 = 0x25 then 2 else 8

/-- The prefixed word with each stepped field increased. -/
def stepWord (s : BitVec 3) (w : BitVec 32) (by' : Nat) : BitVec 32 :=
  let put (j lo : Nat) (w : BitVec 32) : BitVec 32 :=
    if s.getLsbD j then w + BitVec.ofNat 32 (by' * 2 ^ lo) else w
  put 2 20 (put 1 14 (put 0 (fieldBLow w) w))

/-! ## Iterations (R225) -/

/-- The end of iteration `i` of a pair at `pc`: RI moves at the iteration boundary, and PC passes the pair after the last iteration. -/
def State.finishRep (uid k : Nat) (pc : Word) (last : Bool) (i : Nat) : Eff State → State
  | .done s => s.modStrand uid k fun t => if last then { t with ri := 0, pc := nextPc pc 8 } else { t with ri := BitVec.ofNat 6 (i + 1) }
  | .jump s a => s.modStrand uid k fun t => { t with pc := a &&& pcMask, ibuf := [] }
  | .settled s => s
  | .trap s c => s.takeTrap uid k c pc
  | .trapNext s c =>
    (s.modStrand uid k fun t => { t with ri := if last then 0 else BitVec.ofNat 6 (i + 1) }).takeTrap uid k c (if last then nextPc pc 8 else pc)

/-- Both words of a pair, as TVAL of R334. -/
def pairVal (w1 w2 : BitVec 32) : Word := w2 ++ w1

/-- The iteration that RI names of a pair whose prefixed word is `w`. -/
def repIssue (c : BitVec 6) (s : BitVec 3) (inc : BitVec 3) (w : BitVec 32) (uid k : Nat) (g : Group) (t : Strand) (st : State) : State :=
  let bad (d : BitVec 4) : State := st.takeTrap uid k (trapOf 0x01 d (pairVal (encode (.rep c s inc)) w)) t.pc
  match decode w with
  | .error d => bad d
  | .ok j =>
    if (repBody j).isNone || !stepOk s j.fields then bad 5
    else
      let i := t.ri.toNat
      let n := i * (inc.toNat + 1)
      if c.toNat < i then st.modStrand uid k fun t => { t with ri := 0, pc := nextPc t.pc 8 }
      else if !stepInRange s j.fields n then bad 3
      else
        match decode (stepWord s w n) with
        | .error d => bad d
        | .ok j1 =>
          match repBody j1 with
          | none => bad 5
          | some f => State.finishRep uid k t.pc (i == c.toNat) i (f uid k g t st)

/-- The second word of a pair: the one that its issue has fetched (R135, R225), else memory's. -/
def State.secondWord (s : State) (g : Group) (t : Strand) : Fetched × State :=
  match s.latch with
  | some w => (.word w, s)
  | none => s.fetchWord g t (nextPc t.pc 4)

/-- REP: the second word is fetched, and one iteration of the pair issues. -/
def execRep (c : BitVec 6) (s : BitVec 3) (i : BitVec 3) (st : State) : Res :=
  match st.cur? with
  | none => .fault .noStrand
  | some (uid, k, g, t) =>
    match st.secondWord g t with
    | (.fault f, s1) => .next (State.finish uid k t.pc 4 (s1.strandFault uid k g f none))
    | (.held, s1) => .next s1
    | (.dead va, s1) => .next (s1.fatalTrap uid k (errorTrap va))
    | (.word w, s1) => .next (repIssue c s i w uid k g t s1)

end Sys2Proof.Machine
end

