-- ==== Sys2Proof/Machine/Window.lean ====
section
/-!
DEFINITION. Writes and reads of the registers of a port's window, and of the board management controller's registers (R435 to R446; R5,
R47, R59, R61, R369, R376, R399, R403, R407 to R409).
-/
namespace Sys2Proof.Machine

open Sys2Proof

/-! ## Command words (R47, R59, R83, R95, R370, R376, R403) -/

/-- The command word of the context mailbox, by OP; an unknown OP fails with status 3. -/
def contextCommand (p : BitVec 3) (w : Word) (s : State) : Res :=
  match natBits w.toNat 7 0 with
  | 0x01 => execClaim p w s
  | 0x02 => execLoaddesc p w s
  | 0x03 => execLoadkey p w s
  | 0x04 => execActivate p w s
  | 0x05 => execSuspend p w s
  | 0x06 => execResume p w s
  | 0x07 => if w.getLsbD 16 then execRetireFinish p w s else execRetireAbort p w s
  | 0x08 => execRelease p w s
  | 0x09 => execAddquota p w s
  | 0x0A => execAddframes p w s
  | 0x0B => execSetceil p w s
  | 0x0C => execQuery p w s
  | _ => ctxCommand p w true (fun s => .done s) s

/-- The command word of the queue mailbox. -/
def queueCommand (p : BitVec 3) (w : Word) (s : State) : Res :=
  match natBits w.toNat 7 0 with
  | 0x21 => execQbind p w s
  | 0x22 => execQstart p w s
  | 0x23 => execQstop p w s
  | 0x24 => execQdrain p w s
  | 0x25 => execQunbind p w s
  | 0x26 => execQquery p w s
  | 0x27 => execKabort p w s
  | 0x28 => execKhold p w s
  | 0x29 => execKresume p w s
  | 0x2A => execGhalt p w s
  | 0x2B => execGresume p w s
  | _ => qCommand p w true (fun s => .done s) s

/-- PSCMD. -/
def pageCommand (p : BitVec 3) (w : Word) (s : State) : Res :=
  match natBits w.toNat 7 0 with
  | 1 => execResolve p w s
  | 2 => execFailpg p w s
  | 3 => execInval p w s
  | 4 => execInvall p w s
  | _ => psCommand p true (fun s => s) s

/-- RSCMD0. -/
def rowCommand (p : BitVec 3) (w : Word) (s : State) : Res :=
  match natBits w.toNat 7 0 with
  | 1 => execRsalloc p w s
  | 2 => execRsfree p w s
  | 3 => execRsquery p w s
  | _ => s.byOwner p (rsCommand true (fun s => .done s) s)

/-- ARCMD. -/
def archiveCommand (p : BitVec 3) (w : Word) (s : State) : Res :=
  match natBits w.toNat 7 0 with
  | 1 => execAradopt p w s
  | 2 => execArpurge p w s
  | 3 => execArquery p w s
  | _ => s.byOwner p (s.arcCommand fun s => (3, s))

/-- OWNCTL; other values of OP are ignored. -/
def ownerCommand (p : BitVec 3) (w : Word) (s : State) : Res :=
  match natBits w.toNat 3 0 with
  | 1 => execOwnClaim p w s
  | 2 => execOwnGive p w s
  | 3 => execOwnTake p w s
  | 4 => execOwnRelease p w s
  | _ => .next s

/-- ATCMD; an unknown OP fails with status 3. -/
def attestCommand (p : BitVec 3) (w : Word) (s : State) : Res :=
  match natBits w.toNat 3 0 with
  | 1 => execReport p w s
  | 2 => execSession p w s
  | _ => attest p (w ||| 0x8000000000000000) false s

/-! ## Writes -/

/-- A ring's base register (R369): LOG2N outside 6 to 14 leaves EN at 0. -/
def Ring.setBase (r : Ring) (w : Word) : Ring :=
  let l : BitVec 4 := w.extractLsb' 52 4
  { r with base := w.extractLsb' 6 46, log2n := l, en := w.getLsbD 63 && decide (6 ≤ l.toNat) && decide (l.toNat ≤ 14) }
def Ring.setHead (r : Ring) (w : Word) : Ring := { r with head := w.extractLsb' 0 32 }

def State.setLinks (s : State) (f : Links → Links) : State := { s with links := f s.links }

/-- LKCTL of a link: EN, then RTR. -/
def linkControl (p : BitVec 3) (k : BitVec 4) (w : Word) (s : State) : Res :=
  match (if w.getLsbD 0 then execLinkEnable p k s else execLinkDisable p k s) with
  | .next s1 => if w.getLsbD 1 then execRtr p k s1 else .next s1
  | r => r

/-- A POOL window register; ignored unless every context slot is free (R407). -/
def poolWrite (p : BitVec 3) (o : Nat) (w : Word) (s : State) : Res :=
  s.byOwner p (if s.contexts.all fun c => decide (c.state = .free) then
    s.setLinks fun l => if o % 16 = 0 then { l with pwbase := l.pwbase.set (o / 16) (w &&& ~~~0x1FFFFF) } else { l with pwcfg := l.pwcfg.set (o / 16) (w &&& 0x80000000007FFFFF) }
  else s)

/-- The link area. -/
def linkWrite (p : BitVec 3) (o : Nat) (w : Word) (s : State) : Res :=
  if o = 0 then execModid p w s
  else if 0x1000 ≤ o ∧ o < 0x1400 then (if o % 64 = 0 then linkControl p (BitVec.ofNat 4 ((o - 0x1000) / 64)) w s else .next s)
  else if 0x2000 ≤ o ∧ o < 0x2800 then s.byOwner p (s.setLinks fun l => { l with rtbl := l.rtbl.set ((o - 0x2000) / 8) (w.extractLsb' 0 16) })
  else if 0x2800 ≤ o ∧ o < 0x2880 then s.byOwner p (s.setLinks fun l => { l with rwin := l.rwin.set ((o - 0x2800) / 8) (w &&& 0x8000000000003FFF) })
  else if 0x2880 ≤ o ∧ o < 0x2900 then s.byOwner p (s.setLinks fun l => { l with rbind := l.rbind.set ((o - 0x2880) / 8) (w &&& 0x80000000000FFFFF) })
  else if 0x3000 ≤ o ∧ o < 0x3200 then poolWrite p (o - 0x3000) w s
  else .next s

/-- The attestation area. -/
def attestWrite (p : BitVec 3) (o : Nat) (w : Word) (s : State) : Res :=
  if o < 0x20 then .next (s.modWindow p.toNat fun v => { v with nonce := v.nonce.set (o / 8) w })
  else if o = 0x20 then .next (s.modWindow p.toNat fun v => { v with atAddr := w &&& 0x000FFFFFFFFFFFC0 })
  else if o = 0x28 then attestCommand p w s
  else .next s

/-- The queue registers: QTAIL, and DROP of QSTAT, which any host clears by writing one in its window (R61). -/
def queueWrite (p : BitVec 3) (q o : Nat) (w : Word) (s : State) : Res :=
  if o = 0 then execQtail p (BitVec.ofNat 8 q) w s
  else if o = 0x10 then .next (if w.getLsbD 3 then s.modQueue q fun q => { q with drop := false } else s)
  else .next s

/-- The page-service area: the owner's window only. -/
def pageWrite (p : BitVec 3) (o : Nat) (w : Word) (s : State) : Res :=
  let set (f : Ring → Ring) : State := { s with mmu := { s.mmu with ring := f s.mmu.ring } }
  if o = 0 then s.byOwner p (set fun r => r.setBase w)
  else if o = 8 then s.byOwner p (set fun r => r.setHead w)
  else if o = 0x18 then pageCommand p w s
  else .next s

/-- The row-set area and the archive area. -/
def rowWrite (p : BitVec 3) (o : Nat) (w : Word) (s : State) : Res :=
  if o = 0 then execRscfg p w s
  else if o = 8 then s.byOwner p (s.setRows fun r => { r with cmd1 := w.extractLsb' 6 46 })
  else if o = 0x10 then rowCommand p w s
  else .next s
def archiveWrite (p : BitVec 3) (o : Nat) (w : Word) (s : State) : Res :=
  if o = 0 then execRrcfg p w s else if o = 8 then archiveCommand p w s else .next s

/-- A write of a window's register. Bytes outside the areas take no write. -/
def windowWrite (p : BitVec 3) (o : Nat) (w : Word) (s : State) : Res :=
  let box (b : Bool) (i : Nat) : State := s.modWindow p.toNat fun v => if b then { v with ctxBox := v.ctxBox.set i w } else { v with qBox := v.qBox.set i w }
  if o % 8 ≠ 0 then .next s
  else if o = 0x10008 then ownerCommand p w s
  else if o = 0x11000 then .next (s.modWindow p.toNat fun v => { v with ring := v.ring.setBase w })
  else if o = 0x11008 then .next (s.modWindow p.toNat fun v => { v with ring := v.ring.setHead w })
  else if 0x12000 ≤ o ∧ o < 0x13000 then attestWrite p (o - 0x12000) w s
  else if o = 0x20000 then contextCommand p w (box true 0)
  else if 0x20000 ≤ o ∧ o < 0x20040 then .next (box true ((o - 0x20000) / 8))
  else if o = 0x21000 then queueCommand p w (box false 0)
  else if 0x21000 ≤ o ∧ o < 0x21040 then .next (box false ((o - 0x21000) / 8))
  else if 0x30000 ≤ o ∧ o < 0x34000 then queueWrite p ((o - 0x30000) / 64) ((o - 0x30000) % 64) w s
  else if 0x40000 ≤ o ∧ o < 0x41000 then pageWrite p (o - 0x40000) w s
  else if 0x41000 ≤ o ∧ o < 0x42000 then rowWrite p (o - 0x41000) w s
  else if 0x42000 ≤ o ∧ o < 0x43000 then archiveWrite p (o - 0x42000) w s
  else if 0x50000 ≤ o ∧ o < 0x60000 then linkWrite p (o - 0x50000) w s
  else .next s

/-- A write of a board register by its index (R446). -/
def boardWrite (i : Nat) (w : Word) (s : State) : Res :=
  if i = 1 then
    match (if w.getLsbD 0 then execPwrOn s else execPwrOff s) with
    | .next s1 => if w.getLsbD 1 then execRst s1 else .next s1
    | r => r
  else if i = 2 then .next (let n := natBits w.toNat 11 0; if 1000 ≤ n ∧ n ≤ 4000 then s.setPlat fun x => { x with plim := BitVec.ofNat 12 n } else s)
  else if i = 4 ∧ w.getLsbD 0 = true then execOwnrel s
  else .next s

/-- REGISTER_WRITE: ports 0 to 7 write their windows, 8 stands for the board management controller; no other writes. -/
def execRegisterWrite (port : BitVec 4) (offset : BitVec 19) (w : BitVec 64) (s : State) : Res :=
  if port.toNat < 8 then windowWrite (port.setWidth 3) offset.toNat w s else if port.toNat = 8 then boardWrite offset.toNat w s else .next s

/-! ## Reads: what a host sees -/

/-- FULL: the ring is full or not enabled, and holds its records (R369; notes/assumptions/62.md). -/
def Ring.full (r : Ring) : Bool := !r.en || decide (2 ^ r.log2n.toNat ≤ (r.tail - r.head).toNat)
def Ring.baseWord (r : Ring) : Word := BitVec.ofNat 64 (r.base.toNat * 64 + 2 ^ 52 * r.log2n.toNat + 2 ^ 63 * r.en.toNat)

/-- OWNSTAT. -/
def State.ownstat (s : State) (p : Nat) : Word :=
  BitVec.ofNat 64 (s.plat.owner.toNat + 2 ^ 4 * (s.plat.owner.toNat == p).toNat + 2 ^ 8 * s.plat.pend.toNat + 2 ^ 12 * s.plat.phase.toNat)
/-- RSSTAT. -/
def Rows.status (r : Rows) : Word :=
  BitVec.ofNat 64 (r.stat.toNat + 2 ^ 8 * r.busy.isSome.toNat + 2 ^ 16 * r.rsid.toNat + 2 ^ 26 * r.rsState.toNat + 2 ^ 32 * r.nuns.toNat)
/-- LKSTAT. -/
def Link.status (l : Link) : Word :=
  BitVec.ofNat 64 (l.state.code + 2 ^ 3 * l.defer.toNat + 2 ^ 4 * l.peer.toNat + 2 ^ 12 * l.peerlk.toNat + 2 ^ 16 * l.wid.toNat + 2 ^ 18 * l.retr.toNat + 2 ^ 34 * l.crce.toNat)

/-- A read of the link area. -/
def State.linkRead (s : State) (o : Nat) : Word :=
  if o = 0 then s.links.modid.setWidth 64
  else if 0x1000 ≤ o ∧ o < 0x1400 then
    let l := s.unit ((o - 0x1000) / 64)
    if o % 64 = 0 then BitVec.ofNat 64 l.en.toNat else if o % 64 = 8 then l.status else 0
  else if 0x2000 ≤ o ∧ o < 0x2800 then (s.links.rtbl.getD ((o - 0x2000) / 8) 0).setWidth 64
  else if 0x2800 ≤ o ∧ o < 0x2880 then wordAt s.links.rwin ((o - 0x2800) / 8)
  else if 0x2880 ≤ o ∧ o < 0x2900 then wordAt s.links.rbind ((o - 0x2880) / 8)
  else if 0x3000 ≤ o ∧ o < 0x3200 then (if o % 16 = 0 then wordAt s.links.pwbase ((o - 0x3000) / 16) else wordAt s.links.pwcfg ((o - 0x3000) / 16))
  else if 0x3200 ≤ o ∧ o < 0x3240 then BitVec.ofNat 64 (s.unit (40 + (o - 0x3200) / 8)).state.code
  else 0

/-- A read of the page-service area in the owner's window. -/
def State.pageRead (s : State) (o : Nat) : Word :=
  let r := s.mmu.ring
  if o = 0 then r.baseWord else if o = 8 then r.head.setWidth 64 else if o = 0x10 then r.tail.setWidth 64
  else if o = 0x20 then BitVec.ofNat 64 (s.mmu.psStat.toNat + 2 ^ 8 * s.mmu.psCmd.isSome.toNat + 2 ^ 9 * r.full.toNat)
  else 0

/-- A read of a window's register at an offset that is a multiple of 8. -/
def State.windowRead (s : State) (p o : Nat) : Word :=
  let v := s.window p
  if o < 0x10000 then s.capWord o
  else if o = 0x10000 then s.ownstat p
  else if o = 0x11000 then v.ring.baseWord
  else if o = 0x11008 then v.ring.head.setWidth 64
  else if o = 0x11010 then BitVec.ofNat 64 (v.ring.tail.toNat + 2 ^ 63 * v.ring.full.toNat)
  else if 0x12000 ≤ o ∧ o < 0x12020 then wordAt v.nonce ((o - 0x12000) / 8)
  else if o = 0x12020 then v.atAddr
  else if o = 0x12030 then BitVec.ofNat 64 (v.atStat.toNat + 2 ^ 8 * v.atCmd.isSome.toNat)
  else if 0x20000 ≤ o ∧ o < 0x20040 then wordAt v.ctxBox ((o - 0x20000) / 8)
  else if 0x20800 ≤ o ∧ o < 0x20A00 then wordAt v.ctxStat ((o - 0x20800) / 8)
  else if 0x21000 ≤ o ∧ o < 0x21040 then wordAt v.qBox ((o - 0x21000) / 8)
  else if 0x21800 ≤ o ∧ o < 0x22000 then wordAt v.qStat ((o - 0x21800) / 8)
  else if 0x30000 ≤ o ∧ o < 0x34000 then
    let n := (o - 0x30000) / 64
    if o % 64 = 0 then (s.queue n).tail.setWidth 64 else if o % 64 = 8 then (s.queue n).head.setWidth 64 else if o % 64 = 16 then s.qstat n else 0
  else if 0x40000 ≤ o ∧ o < 0x41000 then (if s.plat.owner.toNat = p then s.pageRead (o - 0x40000) else 0)
  else if o = 0x41000 then s.rows.nr.setWidth 64
  else if o = 0x41008 then BitVec.ofNat 64 (s.rows.cmd1.toNat * 64)
  else if o = 0x41018 then s.rows.status
  else if o = 0x42000 then s.arc.units.setWidth 64
  else if o = 0x42010 then BitVec.ofNat 64 (s.arc.status.toNat + 2 ^ 8 * s.arc.busy.isSome.toNat)
  else if o = 0x42018 then s.arc.data0
  else if o = 0x42020 then s.arc.data1
  else if o = 0x42028 then s.arc.data2
  else if 0x50000 ≤ o ∧ o < 0x60000 then s.linkRead (o - 0x50000)
  else if 0x62000 ≤ o ∧ o < 0x62800 then
    let c := s.ctx ((o - 0x62000) / 32)
    if o % 32 = 0 then c.unsrd else if o % 32 = 8 then c.llhit.foldl (· + ·) 0 else if o % 32 = 16 then c.llmiss.foldl (· + ·) 0 else 0
  else 0

/-- A read of a board register (R446). -/
def State.boardRead (s : State) (i : Nat) : Word :=
  let p := s.plat
  match i with
  | 0 => Config.serial
  | 1 => BitVec.ofNat 64 p.on.toNat
  | 2 => BitVec.ofNat 64 p.plim.toNat
  | 3 =>
    let hottest (l : List Byte) : Nat := l.foldl (fun m b => Nat.max m b.toNat) 0
    BitVec.ofNat 64 (p.phase.toNat + 2 ^ 3 * hottest (p.temps.take 8) + 2 ^ 11 * hottest (p.temps.drop 8) + 2 ^ 19 * p.power.toNat)
  | _ => 0

end Sys2Proof.Machine
end

