-- ==== Sys2Proof/Machine/Dispatch.lean ====
section
/-!
DEFINITION. One arm per constructor of the instruction type: every arm is one direct call of that constructor's meaning.
-/
namespace Sys2Proof.Machine

open Sys2Proof

/-- The meaning of an instruction. -/
def exec (i : Instr) (s : State) : Host.Outcome State Fault Refusal :=
  match i with
  | .add d a b sf x => Sys2Proof.Machine.execAdd d a b sf x s
  | .sub d a b sf x => Sys2Proof.Machine.execSub d a b sf x s
  | .mul d a b sf x => Sys2Proof.Machine.execMul d a b sf x s
  | .mulh d a b sf x => Sys2Proof.Machine.execMulh d a b sf x s
  | .div d a b sf x => Sys2Proof.Machine.execDiv d a b sf x s
  | .rem d a b sf x => Sys2Proof.Machine.execRem d a b sf x s
  | .min d a b sf x => Sys2Proof.Machine.execMin d a b sf x s
  | .max d a b sf x => Sys2Proof.Machine.execMax d a b sf x s
  | .mac d a b sf x => Sys2Proof.Machine.execMac d a b sf x s
  | .abs d a sf => Sys2Proof.Machine.execAbs d a sf s
  | .neg d a sf => Sys2Proof.Machine.execNeg d a sf s
  | .absd d a b sf x => Sys2Proof.Machine.execAbsd d a b sf x s
  | .and d a b sf x => Sys2Proof.Machine.execAnd d a b sf x s
  | .or d a b sf x => Sys2Proof.Machine.execOr d a b sf x s
  | .xor d a b sf x => Sys2Proof.Machine.execXor d a b sf x s
  | .andn d a b sf x => Sys2Proof.Machine.execAndn d a b sf x s
  | .not d a sf => Sys2Proof.Machine.execNot d a sf s
  | .shl d a b sf x => Sys2Proof.Machine.execShl d a b sf x s
  | .shr d a b sf x => Sys2Proof.Machine.execShr d a b sf x s
  | .shra d a b sf x => Sys2Proof.Machine.execShra d a b sf x s
  | .rol d a b sf x => Sys2Proof.Machine.execRol d a b sf x s
  | .popc d a sf => Sys2Proof.Machine.execPopc d a sf s
  | .clz d a sf => Sys2Proof.Machine.execClz d a sf s
  | .ceq d a b sf x => Sys2Proof.Machine.execCeq d a b sf x s
  | .cne d a b sf x => Sys2Proof.Machine.execCne d a b sf x s
  | .clt d a b sf x => Sys2Proof.Machine.execClt d a b sf x s
  | .cle d a b sf x => Sys2Proof.Machine.execCle d a b sf x s
  | .cgt d a b sf x => Sys2Proof.Machine.execCgt d a b sf x s
  | .cge d a b sf x => Sys2Proof.Machine.execCge d a b sf x s
  | .mand d a b => Sys2Proof.Machine.execMand d a b s
  | .mor d a b => Sys2Proof.Machine.execMor d a b s
  | .mxor d a b => Sys2Proof.Machine.execMxor d a b s
  | .mandn d a b => Sys2Proof.Machine.execMandn d a b s
  | .mnot d a => Sys2Proof.Machine.execMnot d a s
  | .mset d => Sys2Proof.Machine.execMset d s
  | .mclr d => Sys2Proof.Machine.execMclr d s
  | .mpopc d a => Sys2Proof.Machine.execMpopc d a s
  | .mfirst d a => Sys2Proof.Machine.execMfirst d a s
  | .mtox d a => Sys2Proof.Machine.execMtox d a s
  | .xtom d a => Sys2Proof.Machine.execXtom d a s
  | .sel d a b => Sys2Proof.Machine.execSel d a b s
  | .slup d a b => Sys2Proof.Machine.execSlup d a b s
  | .sldn d a b => Sys2Proof.Machine.execSldn d a b s
  | .vperm d a b => Sys2Proof.Machine.execVperm d a b s
  | .compr d a => Sys2Proof.Machine.execCompr d a s
  | .expnd d a => Sys2Proof.Machine.execExpnd d a s
  | .bcast d b => Sys2Proof.Machine.execBcast d b s
  | .iota d => Sys2Proof.Machine.execIota d s
  | .zip d a b => Sys2Proof.Machine.execZip d a b s
  | .unzip d a b => Sys2Proof.Machine.execUnzip d a b s
  | .rsum d a => Sys2Proof.Machine.execRsum d a s
  | .rmin d a => Sys2Proof.Machine.execRmin d a s
  | .rmax d a => Sys2Proof.Machine.execRmax d a s
  | .rand d a => Sys2Proof.Machine.execRand d a s
  | .ror d a => Sys2Proof.Machine.execRor d a s
  | .rxor d a => Sys2Proof.Machine.execRxor d a s
  | .vstrip d a => Sys2Proof.Machine.execVstrip d a s
  | .vnext d => Sys2Proof.Machine.execVnext d s
  | .shape d a b => Sys2Proof.Machine.execShape d a b s
  | .vlq d a => Sys2Proof.Machine.execVlq d a s
  | .dcol d a => Sys2Proof.Machine.execDcol d a s
  | .setmode a => Sys2Proof.Machine.execSetmode a s
  | .getmode d => Sys2Proof.Machine.execGetmode d s
  | .setmodeImm imm => Sys2Proof.Machine.execSetmodeImm imm s
  | .addi d a sf imm => Sys2Proof.Machine.execAddi d a sf imm s
  | .andi d a sf imm => Sys2Proof.Machine.execAndi d a sf imm s
  | .ori d a sf imm => Sys2Proof.Machine.execOri d a sf imm s
  | .xori d a sf imm => Sys2Proof.Machine.execXori d a sf imm s
  | .shli d a sf c => Sys2Proof.Machine.execShli d a sf c s
  | .shri d a sf c => Sys2Proof.Machine.execShri d a sf c s
  | .shrai d a sf c => Sys2Proof.Machine.execShrai d a sf c s
  | .roli d a sf c => Sys2Proof.Machine.execRoli d a sf c s
  | .lui d imm => Sys2Proof.Machine.execLui d imm s
  | .adpc d imm => Sys2Proof.Machine.execAdpc d imm s
  | .beq a b o => Sys2Proof.Machine.execBeq a b o s
  | .bne a b o => Sys2Proof.Machine.execBne a b o s
  | .blt a b o => Sys2Proof.Machine.execBlt a b o s
  | .bge a b o => Sys2Proof.Machine.execBge a b o s
  | .bltu a b o => Sys2Proof.Machine.execBltu a b o s
  | .bgeu a b o => Sys2Proof.Machine.execBgeu a b o s
  | .bmany a o => Sys2Proof.Machine.execBmany a o s
  | .bmnone a o => Sys2Proof.Machine.execBmnone a o s
  | .j o => Sys2Proof.Machine.execJ o s
  | .jal o => Sys2Proof.Machine.execJal o s
  | .jr a => Sys2Proof.Machine.execJr a s
  | .jalr d a => Sys2Proof.Machine.execJalr d a s
  | .loop l a o => Sys2Proof.Machine.execLoop l a o s
  | .rep c sf imm => Sys2Proof.Machine.execRep c sf imm s
  | .fadd d a b sf x => Sys2Proof.Machine.execFadd d a b sf x s
  | .fsub d a b sf x => Sys2Proof.Machine.execFsub d a b sf x s
  | .fmul d a b sf x => Sys2Proof.Machine.execFmul d a b sf x s
  | .fdiv d a b sf x => Sys2Proof.Machine.execFdiv d a b sf x s
  | .fsqrt d a sf => Sys2Proof.Machine.execFsqrt d a sf s
  | .fmin d a b sf x => Sys2Proof.Machine.execFmin d a b sf x s
  | .fmax d a b sf x => Sys2Proof.Machine.execFmax d a b sf x s
  | .fabs d a sf => Sys2Proof.Machine.execFabs d a sf s
  | .fneg d a sf => Sys2Proof.Machine.execFneg d a sf s
  | .frcp d a sf => Sys2Proof.Machine.execFrcp d a sf s
  | .frsq d a sf => Sys2Proof.Machine.execFrsq d a sf s
  | .fexp2 d a sf => Sys2Proof.Machine.execFexp2 d a sf s
  | .flog2 d a sf => Sys2Proof.Machine.execFlog2 d a sf s
  | .ftanh d a sf => Sys2Proof.Machine.execFtanh d a sf s
  | .fma d a b sf x => Sys2Proof.Machine.execFma d a b sf x s
  | .fms d a b sf x => Sys2Proof.Machine.execFms d a b sf x s
  | .fnma d a b sf x => Sys2Proof.Machine.execFnma d a b sf x s
  | .fnms d a b sf x => Sys2Proof.Machine.execFnms d a b sf x s
  | .fceq d a b sf x => Sys2Proof.Machine.execFceq d a b sf x s
  | .fcne d a b sf x => Sys2Proof.Machine.execFcne d a b sf x s
  | .fclt d a b sf x => Sys2Proof.Machine.execFclt d a b sf x s
  | .fcle d a b sf x => Sys2Proof.Machine.execFcle d a b sf x s
  | .fcun d a b sf x => Sys2Proof.Machine.execFcun d a b sf x s
  | .fclass d a sf => Sys2Proof.Machine.execFclass d a sf s
  | .cvt d a y sf => Sys2Proof.Machine.execCvt d a y sf s
  | .rint d a sf => Sys2Proof.Machine.execRint d a sf s
  | .frsum d a => Sys2Proof.Machine.execFrsum d a s
  | .frmin d a => Sys2Proof.Machine.execFrmin d a s
  | .frmax d a => Sys2Proof.Machine.execFrmax d a s
  | .qscale d a b => Sys2Proof.Machine.execQscale d a b s
  | .qpack d a b => Sys2Proof.Machine.execQpack d a b s
  | .qunpk d a b => Sys2Proof.Machine.execQunpk d a b s
  | .vld d a k r p o => Sys2Proof.Machine.execVld d a k r p o s
  | .vst d a k p o => Sys2Proof.Machine.execVst d a k p o s
  | .ld d a k r p o => Sys2Proof.Machine.execLd d a k r p o s
  | .st d a k p o => Sys2Proof.Machine.execSt d a k p o s
  | .vlds d a k r p b => Sys2Proof.Machine.execVlds d a k r p b s
  | .vldi d a k r p b => Sys2Proof.Machine.execVldi d a k r p b s
  | .vsts d a k p b => Sys2Proof.Machine.execVsts d a k p b s
  | .vsti d a k p b => Sys2Proof.Machine.execVsti d a k p b s
  | .aadd d a k p b => Sys2Proof.Machine.execAadd d a k p b s
  | .amin d a k p b => Sys2Proof.Machine.execAmin d a k p b s
  | .amax d a k p b => Sys2Proof.Machine.execAmax d a k p b s
  | .aand d a k p b => Sys2Proof.Machine.execAand d a k p b s
  | .aor d a k p b => Sys2Proof.Machine.execAor d a k p b s
  | .axor d a k p b => Sys2Proof.Machine.execAxor d a k p b s
  | .aswp d a k p b => Sys2Proof.Machine.execAswp d a k p b s
  | .acas d a k p b => Sys2Proof.Machine.execAcas d a k p b s
  | .pref a k p o => Sys2Proof.Machine.execPref a k p o s
  | .tld d a t => Sys2Proof.Machine.execTld d a t s
  | .tst d a t => Sys2Proof.Machine.execTst d a t s
  | .bld d a u => Sys2Proof.Machine.execBld d a u s
  | .bst d a u => Sys2Proof.Machine.execBst d a u s
  | .vspill d a => Sys2Proof.Machine.execVspill d a s
  | .vfill a => Sys2Proof.Machine.execVfill a s
  | .wait k => Sys2Proof.Machine.execWait k s
  | .drain k => Sys2Proof.Machine.execDrain k s
  | .binit a n => Sys2Proof.Machine.execBinit a n s
  | .bexp a n => Sys2Proof.Machine.execBexp a n s
  | .barv d n => Sys2Proof.Machine.execBarv d n s
  | .bgen d n => Sys2Proof.Machine.execBgen d n s
  | .bwait d a n => Sys2Proof.Machine.execBwait d a n s
  | .bwaitP d a n => Sys2Proof.Machine.execBwaitP d a n s
  | .sstep d n => Sys2Proof.Machine.execSstep d n s
  | .bwaitS d a n => Sys2Proof.Machine.execBwaitS d a n s
  | .bwaitSP d a n => Sys2Proof.Machine.execBwaitSP d a n s
  | .bgenS d n => Sys2Proof.Machine.execBgenS d n s
  | .tshape d a => Sys2Proof.Machine.execTshape d a s
  | .mma d a k t n e f c => Sys2Proof.Machine.execMma d a k t n e f c s
  | .crd d a t => Sys2Proof.Machine.execCrd d a t s
  | .cwr d a t => Sys2Proof.Machine.execCwr d a t s
  | .cclr t => Sys2Proof.Machine.execCclr t s
  | .ccvt d a t y => Sys2Proof.Machine.execCcvt d a t y s
  | .copy t n q g => Sys2Proof.Machine.execCopy t n q g s
  | .copyTr t n q g => Sys2Proof.Machine.execCopyTr t n q g s
  | .copyDi t n q g f => Sys2Proof.Machine.execCopyDi t n q g f s
  | .copyPm t n q g v => Sys2Proof.Machine.execCopyPm t n q g v s
  | .copyCv t n q g c => Sys2Proof.Machine.execCopyCv t n q g c s
  | .close q => Sys2Proof.Machine.execClose q s
  | .nld d a => Sys2Proof.Machine.execNld d a s
  | .nst d a => Sys2Proof.Machine.execNst d a s
  | .ncnt d a l => Sys2Proof.Machine.execNcnt d a l s
  | .nstr d a l sf => Sys2Proof.Machine.execNstr d a l sf s
  | .rowld d a t => Sys2Proof.Machine.execRowld d a t s
  | .rowrun d a t => Sys2Proof.Machine.execRowrun d a t s
  | .rowseal a t => Sys2Proof.Machine.execRowseal a t s
  | .rowq d t => Sys2Proof.Machine.execRowq d t s
  | .catrun d a t => Sys2Proof.Machine.execCatrun d a t s
  | .catchk d a t => Sys2Proof.Machine.execCatchk d a t s
  | .catq d t => Sys2Proof.Machine.execCatq d t s
  | .arcin d a t => Sys2Proof.Machine.execArcin d a t s
  | .arcout d a t => Sys2Proof.Machine.execArcout d a t s
  | .arcstat d a => Sys2Proof.Machine.execArcstat d a s
  | .stage a t => Sys2Proof.Machine.execStage a t s
  | .hint a t => Sys2Proof.Machine.execHint a t s
  | .tsetw a w t => Sys2Proof.Machine.execTsetw a w t s
  | .tgetw d w t => Sys2Proof.Machine.execTgetw d w t s
  | .tstat d t => Sys2Proof.Machine.execTstat d t s
  | .tbind d t => Sys2Proof.Machine.execTbind d t s
  | .tretTn t => Sys2Proof.Machine.execTretTn t s
  | .tver a t => Sys2Proof.Machine.execTver a t s
  | .trap c => Sys2Proof.Machine.execTrap c s
  | .tret => Sys2Proof.Machine.execTret s
  | .srd d n => Sys2Proof.Machine.execSrd d n s
  | .swr a n => Sys2Proof.Machine.execSwr a n s
  | .enq d a => Sys2Proof.Machine.execEnq d a s
  | .dmrd d => Sys2Proof.Machine.execDmrd d s
  | .dmclr a => Sys2Proof.Machine.execDmclr a s
  | .brk c => Sys2Proof.Machine.execBrk c s
  | .brkDbg c => Sys2Proof.Machine.execBrkDbg c s
  | .idle => Sys2Proof.Machine.execIdle s
  | .idleEnd => Sys2Proof.Machine.execIdleEnd s
  | .tinv a => Sys2Proof.Machine.execTinv a s
  | .pgshare d a => Sys2Proof.Machine.execPgshare d a s
  | .pgdrop a => Sys2Proof.Machine.execPgdrop a s
  | .migr d a => Sys2Proof.Machine.execMigr d a s
  | .llcfl a => Sys2Proof.Machine.execLlcfl a s
  | .aap p q => Sys2Proof.Machine.execAap p q s
  | .tra p q r => Sys2Proof.Machine.execTra p q r s
  | .dnot p q => Sys2Proof.Machine.execDnot p q s
  | .zero p => Sys2Proof.Machine.execZero p s
  | .ones p => Sys2Proof.Machine.execOnes p s
  | .lshl p q => Sys2Proof.Machine.execLshl p q s
  | .lshr p q => Sys2Proof.Machine.execLshr p q s
  | .rdl q => Sys2Proof.Machine.execRdl q s
  | .wrl p sf => Sys2Proof.Machine.execWrl p sf s
  | .cnt q => Sys2Proof.Machine.execCnt q s
  | .wacc imm f => Sys2Proof.Machine.execWacc imm f s
  | .waccNeg imm f => Sys2Proof.Machine.execWaccNeg imm f s
  | .bit k q => Sys2Proof.Machine.execBit k q s
  | .next b n => Sys2Proof.Machine.execNext b n s
  | .seal p => Sys2Proof.Machine.execSeal p s
  | .yield => Sys2Proof.Machine.execYield s
  | .stop => Sys2Proof.Machine.execStop s
  | .claim port word => Sys2Proof.Machine.execClaim port word s
  | .loaddesc port word => Sys2Proof.Machine.execLoaddesc port word s
  | .loadkey port word => Sys2Proof.Machine.execLoadkey port word s
  | .activate port word => Sys2Proof.Machine.execActivate port word s
  | .suspend port word => Sys2Proof.Machine.execSuspend port word s
  | .resume port word => Sys2Proof.Machine.execResume port word s
  | .retireAbort port word => Sys2Proof.Machine.execRetireAbort port word s
  | .retireFinish port word => Sys2Proof.Machine.execRetireFinish port word s
  | .release port word => Sys2Proof.Machine.execRelease port word s
  | .addquota port word => Sys2Proof.Machine.execAddquota port word s
  | .addframes port word => Sys2Proof.Machine.execAddframes port word s
  | .setceil port word => Sys2Proof.Machine.execSetceil port word s
  | .query port word => Sys2Proof.Machine.execQuery port word s
  | .qbind port word => Sys2Proof.Machine.execQbind port word s
  | .qstart port word => Sys2Proof.Machine.execQstart port word s
  | .qstop port word => Sys2Proof.Machine.execQstop port word s
  | .qdrain port word => Sys2Proof.Machine.execQdrain port word s
  | .qunbind port word => Sys2Proof.Machine.execQunbind port word s
  | .qquery port word => Sys2Proof.Machine.execQquery port word s
  | .qtail port qid word => Sys2Proof.Machine.execQtail port qid word s
  | .kabort port word => Sys2Proof.Machine.execKabort port word s
  | .khold port word => Sys2Proof.Machine.execKhold port word s
  | .kresume port word => Sys2Proof.Machine.execKresume port word s
  | .ghalt port word => Sys2Proof.Machine.execGhalt port word s
  | .gresume port word => Sys2Proof.Machine.execGresume port word s
  | .resolve port word => Sys2Proof.Machine.execResolve port word s
  | .failpg port word => Sys2Proof.Machine.execFailpg port word s
  | .inval port word => Sys2Proof.Machine.execInval port word s
  | .invall port word => Sys2Proof.Machine.execInvall port word s
  | .rsalloc port word => Sys2Proof.Machine.execRsalloc port word s
  | .rsfree port word => Sys2Proof.Machine.execRsfree port word s
  | .rsquery port word => Sys2Proof.Machine.execRsquery port word s
  | .rscfg port word => Sys2Proof.Machine.execRscfg port word s
  | .rrcfg port word => Sys2Proof.Machine.execRrcfg port word s
  | .aradopt port word => Sys2Proof.Machine.execAradopt port word s
  | .arpurge port word => Sys2Proof.Machine.execArpurge port word s
  | .arquery port word => Sys2Proof.Machine.execArquery port word s
  | .modid port word => Sys2Proof.Machine.execModid port word s
  | .linkEnable port link => Sys2Proof.Machine.execLinkEnable port link s
  | .linkDisable port link => Sys2Proof.Machine.execLinkDisable port link s
  | .rtr port link => Sys2Proof.Machine.execRtr port link s
  | .ownClaim port word => Sys2Proof.Machine.execOwnClaim port word s
  | .ownGive port word => Sys2Proof.Machine.execOwnGive port word s
  | .ownTake port word => Sys2Proof.Machine.execOwnTake port word s
  | .ownRelease port word => Sys2Proof.Machine.execOwnRelease port word s
  | .giveExpiry => Sys2Proof.Machine.execGiveExpiry s
  | .ownerPortLoss => Sys2Proof.Machine.execOwnerPortLoss s
  | .report port word => Sys2Proof.Machine.execReport port word s
  | .session port word => Sys2Proof.Machine.execSession port word s
  | .pwrOn => Sys2Proof.Machine.execPwrOn s
  | .pwrOff => Sys2Proof.Machine.execPwrOff s
  | .rst => Sys2Proof.Machine.execRst s
  | .ownrel => Sys2Proof.Machine.execOwnrel s
  | .registerWrite port offset word => Sys2Proof.Machine.execRegisterWrite port offset word s
  | .bootPhase ok => Sys2Proof.Machine.execBootPhase ok s
  | .memoryPhase ok => Sys2Proof.Machine.execMemoryPhase ok s
  | .archivePhase ok => Sys2Proof.Machine.execArchivePhase ok s
  | .linksPhase ok => Sys2Proof.Machine.execLinksPhase ok s
  | .throttleChange sensor reading => Sys2Proof.Machine.execThrottleChange sensor reading s
  | .scrubComplete cid => Sys2Proof.Machine.execScrubComplete cid s
  | .drainComplete cid => Sys2Proof.Machine.execDrainComplete cid s
  | .recordFetch qid => Sys2Proof.Machine.execRecordFetch qid s
  | .admission => Sys2Proof.Machine.execAdmission s
  | .waitClauseRecheck qid => Sys2Proof.Machine.execWaitClauseRecheck qid s
  | .enqCommit op => Sys2Proof.Machine.execEnqCommit op s
  | .snapshotsHeld kernel => Sys2Proof.Machine.execSnapshotsHeld kernel s
  | .groupPlace kernel => Sys2Proof.Machine.execGroupPlace kernel s
  | .groupRestore group => Sys2Proof.Machine.execGroupRestore group s
  | .preemption group => Sys2Proof.Machine.execPreemption group s
  | .groupSave group => Sys2Proof.Machine.execGroupSave group s
  | .superstepYield group => Sys2Proof.Machine.execSuperstepYield group s
  | .groupEnd group => Sys2Proof.Machine.execGroupEnd group s
  | .kernelEnd kernel => Sys2Proof.Machine.execKernelEnd kernel s
  | .strandWake group strand => Sys2Proof.Machine.execStrandWake group strand s
  | .idleTimeout group strand => Sys2Proof.Machine.execIdleTimeout group strand s
  | .bwaitTimeout group strand => Sys2Proof.Machine.execBwaitTimeout group strand s
  | .barvArrival op => Sys2Proof.Machine.execBarvArrival op s
  | .sstepArrival op => Sys2Proof.Machine.execSstepArrival op s
  | .copyFaultTrap group strand => Sys2Proof.Machine.execCopyFaultTrap group strand s
  | .catalogueFaultTrap group strand => Sys2Proof.Machine.execCatalogueFaultTrap group strand s
  | .loadComplete op => Sys2Proof.Machine.execLoadComplete op s
  | .storeComplete op => Sys2Proof.Machine.execStoreComplete op s
  | .atomicComplete op => Sys2Proof.Machine.execAtomicComplete op s
  | .batchCloseTimeout group strand channel => Sys2Proof.Machine.execBatchCloseTimeout group strand channel s
  | .nestBatch group strand channel => Sys2Proof.Machine.execNestBatch group strand channel s
  | .copyComplete group strand channel => Sys2Proof.Machine.execCopyComplete group strand channel s
  | .matrixOpStart core => Sys2Proof.Machine.execMatrixOpStart core s
  | .matrixOpRetire core => Sys2Proof.Machine.execMatrixOpRetire core s
  | .tableWalk die cid va kind => Sys2Proof.Machine.execTableWalk die cid va kind s
  | .heldRecordWrite ring => Sys2Proof.Machine.execHeldRecordWrite ring s
  | .cowResolution die entry => Sys2Proof.Machine.execCowResolution die entry s
  | .frameCopy die entry => Sys2Proof.Machine.execFrameCopy die entry s
  | .migrationCopy op => Sys2Proof.Machine.execMigrationCopy op s
  | .migrationSwitch op => Sys2Proof.Machine.execMigrationSwitch op s
  | .demandStaging page => Sys2Proof.Machine.execDemandStaging page s
  | .stagingComplete page => Sys2Proof.Machine.execStagingComplete page s
  | .accessionCheck op => Sys2Proof.Machine.execAccessionCheck op s
  | .pageProgram op verified => Sys2Proof.Machine.execPageProgram op verified s
  | .installPoint op => Sys2Proof.Machine.execInstallPoint op s
  | .deaccession op => Sys2Proof.Machine.execDeaccession op s
  | .weeding stack => Sys2Proof.Machine.execWeeding stack s
  | .weedingCopy stack => Sys2Proof.Machine.execWeedingCopy stack s
  | .erase stack block => Sys2Proof.Machine.execErase stack block s
  | .catStartPhase op => Sys2Proof.Machine.execCatStartPhase op s
  | .catRow op => Sys2Proof.Machine.execCatRow op s
  | .catRowCommit op => Sys2Proof.Machine.execCatRowCommit op s
  | .catRunComplete op => Sys2Proof.Machine.execCatRunComplete op s
  | .rowPreparation op => Sys2Proof.Machine.execRowPreparation op s
  | .rowHold op => Sys2Proof.Machine.execRowHold op s
  | .waveStart op stack => Sys2Proof.Machine.execWaveStart op stack s
  | .rowldPlaneStep op stack => Sys2Proof.Machine.execRowldPlaneStep op stack s
  | .rowsealStep op stack => Sys2Proof.Machine.execRowsealStep op stack s
  | .asealStep op stack => Sys2Proof.Machine.execAsealStep op stack s
  | .forcedSwitch stack => Sys2Proof.Machine.execForcedSwitch stack s
  | .rowPreemptStop op stack => Sys2Proof.Machine.execRowPreemptStop op stack s
  | .rowRetire op => Sys2Proof.Machine.execRowRetire op s
  | .refreshDue stack pch bank => Sys2Proof.Machine.execRefreshDue stack pch bank s
  | .postponedRefresh stack pch bank => Sys2Proof.Machine.execPostponedRefresh stack pch bank s
  | .allBankRefresh stack pch => Sys2Proof.Machine.execAllBankRefresh stack pch s
  | .refreshEnd stack pch bank => Sys2Proof.Machine.execRefreshEnd stack pch bank s
  | .serviceGap stack => Sys2Proof.Machine.execServiceGap stack s
  | .hostCxlMemAccess port addr write size data => Sys2Proof.Machine.execHostCxlMemAccess port addr write size data s
  | .heldCxlTimeout op => Sys2Proof.Machine.execHeldCxlTimeout op s
  | .remoteAccess link scid addr ver kind size data => Sys2Proof.Machine.execRemoteAccess link scid addr ver kind size data s
  | .trainingEnd unit width peer peerLink => Sys2Proof.Machine.execTrainingEnd unit width peer peerLink s
  | .trainingTimeout unit => Sys2Proof.Machine.execTrainingTimeout unit s
  | .realignmentDue unit => Sys2Proof.Machine.execRealignmentDue unit s
  | .deferralExpiry unit => Sys2Proof.Machine.execDeferralExpiry unit s
  | .checkFailureLimit unit => Sys2Proof.Machine.execCheckFailureLimit unit s
  | .retrainingEnd unit width => Sys2Proof.Machine.execRetrainingEnd unit width s
  | .retrainingTimeout unit => Sys2Proof.Machine.execRetrainingTimeout unit s
  | .verticalBusFailure die => Sys2Proof.Machine.execVerticalBusFailure die s
  | .illegalInstruction detail tval => Sys2Proof.Machine.execIllegalInstruction detail tval s
  | .rowSetZeroingEnd rsid => Sys2Proof.Machine.execRowSetZeroingEnd rsid s
  | .invalidationComplete op => Sys2Proof.Machine.execInvalidationComplete op s
  | .attestationCommandEnd port => Sys2Proof.Machine.execAttestationCommandEnd port s
  | .flitCheckFailure link => Sys2Proof.Machine.execFlitCheckFailure link s
  | .softError addr bit => Sys2Proof.Machine.execSoftError addr bit s

end Sys2Proof.Machine
end

