-- ==== Sys2Proof/Machine/Issue.lean ====
section
/-!
DEFINITION. Which strand issues next: the rotation of R89, the interlocks of R132, R135, R158 and R263, and one issue of a strand.
-/
namespace Sys2Proof.Machine

open Sys2Proof

/-! ## Registers that operations in flight will write (R135) -/

/-- A register that an operation will write: nest register, or vector register. -/
structure Reg where
  nest : Bool
  num : Nat
  deriving DecidableEq, Repr

/-- The registers that an operation in flight will write. -/
def OpWork.dests : OpWork → List Reg
  | .load items _ => items.map fun i => match i.dst with
    | .vec r _ _ => { nest := false, num := r }
    | .scalar r => { nest := false, num := r }
    | .nest r _ => { nest := true, num := r }
  | .atomic _ _ _ _ _ _ d => [{ nest := false, num := d.toNat }]
  | .enq _ _ _ _ d => [{ nest := false, num := d.toNat }]
  | .barv _ d => [{ nest := false, num := d.toNat }]
  | _ => []

/-- The registers of a strand that something in flight will write. -/
def State.pendingRegs (s : State) (uid k : Nat) : List Reg :=
  ((s.ops.filter fun o => o.guid == uid && o.strand == k).flatMap fun o => o.work.dests) ++
  ((s.mats.filter fun m => m.guid == uid && m.strand == k && m.ccvt).map fun m => { nest := false, num := m.d.toNat }) ++
  ((s.mmu.migs.filter fun m => m.guid == uid && m.strand == k).map fun m => { nest := false, num := m.d.toNat })

/-- The registers of one field. -/
def fieldReg : Option (RegKind × BitVec 6) → List Reg
  | some (.n, r) => [{ nest := true, num := r.toNat }]
  | some (.v, r) => [{ nest := false, num := r.toNat }]
  | some (.x, r) => [{ nest := false, num := r.toNat }]
  | _ => []

/-- The registers an instruction names, x47 of JAL and the nest register of a copy command among them. -/
def regsNamed (i : Instr) : List Reg :=
  fieldReg i.fields.d ++ fieldReg i.fields.a ++ fieldReg i.fields.b ++
  (match i with
   | .jal _ => [{ nest := false, num := 47 }]
   | .mma _ _ _ _ n _ _ _ => [{ nest := true, num := n.toNat }]
   | .copy _ _ _ g => [{ nest := true, num := g.toNat }]
   | .copyTr _ _ _ g => [{ nest := true, num := g.toNat }]
   | .copyDi _ _ _ g _ => [{ nest := true, num := g.toNat }]
   | .copyPm _ _ _ g _ => [{ nest := true, num := g.toNat }]
   | .copyCv _ _ _ g _ => [{ nest := true, num := g.toNat }]
   | _ => [])

/-- An instruction that may read or write every vector register (R134). -/
def spillsAll : Instr → Bool
  | .vspill _ _ => true
  | .vfill _ => true
  | _ => false

/-! ## Counters and entries (R132, R158) -/

/-- What an instruction raises or takes. -/
structure Needs where
  kl : Bool
  ks : Bool
  ke : Option Nat
  kr : Bool
  kc : Bool
  /-- An entry of the range interlock table. -/
  lock : Bool
  /-- The matrix queue's place of the strand (R263). -/
  mat : Bool
  deriving DecidableEq, Repr

def Needs.none : Needs := { kl := false, ks := false, ke := Option.none, kr := false, kc := false, lock := false, mat := false }
def Needs.load : Needs := { Needs.none with kl := true }
def Needs.store : Needs := { Needs.none with ks := true }
def Needs.atomic : Needs := { Needs.none with kl := true, ks := true }
def Needs.copy (q : BitVec 2) : Needs := { Needs.none with ke := some q.toNat, lock := true }
def Needs.row : Needs := { Needs.none with kr := true, lock := true }
def Needs.cat : Needs := { Needs.none with kc := true, lock := true }
def Needs.matrix : Needs := { Needs.none with lock := true, mat := true }

/-- The counters, entries and queue places of an instruction. -/
def needsOf : Instr → Needs
  | .ld .. => .load
  | .vld .. => .load
  | .vlds .. => .load
  | .vldi .. => .load
  | .bld .. => .load
  | .crd .. => .load
  | .nld .. => .load
  | .vfill .. => .load
  | .tld .. => { Needs.load with lock := true }
  | .st .. => .store
  | .vst .. => .store
  | .vsts .. => .store
  | .vsti .. => .store
  | .bst .. => .store
  | .cwr .. => .store
  | .cclr .. => .store
  | .nst .. => .store
  | .vspill .. => .store
  | .enq .. => .store
  | .migr .. => .store
  | .tst .. => { Needs.store with lock := true }
  | .aadd .. => .atomic
  | .amin .. => .atomic
  | .amax .. => .atomic
  | .aand .. => .atomic
  | .aor .. => .atomic
  | .axor .. => .atomic
  | .aswp .. => .atomic
  | .acas .. => .atomic
  | .mma .. => .matrix
  | .ccvt .. => .matrix
  | .copy _ _ q _ => .copy q
  | .copyTr _ _ q _ => .copy q
  | .copyDi _ _ q _ _ => .copy q
  | .copyPm _ _ q _ _ => .copy q
  | .copyCv _ _ q _ _ => .copy q
  | .rowld .. => .row
  | .rowrun .. => .row
  | .rowseal .. => .row
  | .catrun .. => .cat
  | .catchk .. => .cat
  | .arcin .. => .cat
  | .arcout .. => .cat
  | .stage .. => .cat
  | _ => .none

/-- The counters have room, an entry is free, and the strand has no matrix operation outstanding. -/
def State.room (s : State) (uid k : Nat) (g : Group) (t : Strand) (n : Needs) : Bool :=
  (!n.kl || t.kl != 4095) && (!n.ks || t.ks != 4095) &&
  (match n.ke with | some q => decide ((t.ke.getD q 0).toNat < 64) | none => true) &&
  (!n.kr || decide (t.kr.toNat < 16)) && (!n.kc || decide (t.kc.toNat < 16)) &&
  (!n.lock || decide ((s.coreLocks g.core).length < 32)) &&
  (!n.mat || !(s.mats.any fun m => m.guid == uid && m.strand == k))

/-! ## Reads and writes that an instruction makes in its issue (R146, R147, R347) -/

/-- The strand has stores or atomics that have not been performed. -/
def State.storesPending (s : State) (uid k : Nat) : Bool := !(s.writeIds uid k).isEmpty

/-- An operation or entry of the strand may still write the bytes of a range of memory. -/
def State.ownWrites (s : State) (uid k : Nat) (r : Range) : Bool :=
  (s.ops.any fun o => o.guid == uid && o.strand == k && anyMeet o.wr [r]) ||
  (s.locks.any fun l => l.guid == uid && l.strand == k && anyMeet l.wr [r])

/-- An access of `n` bytes at an address waits at its home: for a held row, a bank or a link (R160, R385, R411). -/
def State.readWaits (s : State) (cid va n : Nat) : Bool :=
  match s.walk cid va with
  | .leaf e lv _ => (match s.leafOutcome cid e lv va .read with | .ok pa => s.placeWaits pa n | _ => false)
  | _ => false

/-- What an instruction needs of the device before its issue, beyond registers and counters. VFILL reads its header then, as any load: no write of its
strand and no entry of its core stands before those bytes, and no home holds them (R147, R159, R160). -/
def State.settled (s : State) (uid k : Nat) (g : Group) (t : Strand) : Instr → Bool
  | .vfill a =>
    let r : Range := { sp := .virt g.cid, lo := (t.x a).toNat, hi := (t.x a).toNat + 64 }
    !s.ownWrites uid k r && !((s.coreLocks g.core).any fun l => s.lockLive l && anyMeet l.wr [r]) && 
      (!s.readWaits g.cid (t.x a).toNat 64 || s.askServed (.code g.uid (t.x a).toNat))
  | .tinv _ => !s.storesPending uid k
  | .pgshare _ a => !s.storesPending uid k && !s.pageWritten g.cid (t.x a).toNat
  | .pgdrop a => !s.storesPending uid k && !s.pageLocked g.cid ((t.x a).toNat / 4096)
  | .migr _ _ => !s.storesPending uid k
  | .enq d _ => !(s.ops.any fun o => match o.work with | .enq q _ _ _ _ => q == natBits (t.x d).toNat 7 0 | _ => false)
  | _ => true

/-- The next instruction meets the interlocks. `i` is the instruction, or the iteration of a prefixed pair. -/
def State.eligible (s : State) (uid k : Nat) (g : Group) (t : Strand) (i : Instr) : Bool :=
  let p := s.pendingRegs uid k
  (p.isEmpty || (!(spillsAll i && p.any fun r => !r.nest) && !((regsNamed i).any fun r => p.contains r))) &&
  s.room uid k g t (needsOf i) && s.settled uid k g t i

/-! ## One issue -/

/-- What a strand would issue: the instruction, or the trap of a word that does not decode; with the state after the fetch. -/
inductive Issue where
  | run (i : Instr)
  | illegal (detail : BitVec 4) (tval : Word)
  | fault (f : AccFault)
  | dead (va : Word)
  /-- The word is held: no issue now. -/
  | held
  deriving DecidableEq, Repr

/-- TVAL of a word that does not decode: a REP word stands with the word after it (R198, R334). -/
def State.badWord (s : State) (g : Group) (t : Strand) (w : BitVec 32) (d : BitVec 4) : Issue × State :=
  if fld w 26 6 = 0x15 then
    match s.fetchWord g t (nextPc t.pc 4) with
    | (.word w2, s1) => (.illegal d (pairVal w w2), s1)
    | (.fault f, s1) => (.fault f, s1)
    | (.dead va, s1) => (.dead va, s1)
    | (.held, s1) => (.held, s1)
  else (.illegal d (w.setWidth 64), s)

/-- The second word of a pair is fetched with the first: the pair issues with it (R135, R225). -/
def State.fetchPair (s : State) (g : Group) (t : Strand) : Instr → Issue × State
  | .rep c st inc =>
    match s.fetchWord g t (nextPc t.pc 4) with
    | (.word w, s1) => (.run (.rep c st inc), { s1 with latch := some w })
    | (.fault f, s1) => (.fault f, s1)
    | (.dead va, s1) => (.dead va, s1)
    | (.held, s1) => (.held, s1)
  | i => (.run i, s)

/-- Fetch and decode at PC. -/
def State.nextIssue (s : State) (g : Group) (t : Strand) : Issue × State :=
  match s.fetchWord g t t.pc with
  | (.word w, s1) =>
    (match decode w with
     | .ok i => s1.fetchPair g t i
     | .error d => s1.badWord g t w d)
  | (.fault f, s1) => (.fault f, s1)
  | (.dead va, s1) => (.dead va, s1)
  | (.held, s1) => (.held, s1)

/-- The instruction whose interlocks count: for REP, the iteration that RI names. -/
def State.issued (s : State) (t : Strand) : Instr → Instr
  | .rep c st inc =>
    (match s.latch with
     | some w =>
       (match decode (stepWord st w (t.ri.toNat * (inc.toNat + 1))) with
        | .ok j => j
        | .error _ => .rep c st inc)
     | none => .rep c st inc)
  | i => i

/-- A strand may issue at all: its group is resident, it is ready, and a step of GRESUME has not used up its instruction (R95). -/
def Strand.mayIssue (t : Strand) : Bool := decide (t.status = .ready) && t.stepLeft != some 0

/-- Count an issue of a stepped strand. -/
def State.countStep (s : State) (uid k : Nat) : State :=
  s.modStrand uid k fun t => { t with stepLeft := t.stepLeft.map fun n => n - 1 }

/-- The rotation moves on to a core and a slot. -/
def State.turnTo (s : State) (core slot : Nat) : State := { s with turn := core }.modCore core fun c => { c with last := slot }

/-- The clock of a core goes on by one cycle or more: CYCLE of its groups (R338, R416). How many pass between two issues is time
(notes/assumptions/5.md). -/
def State.passCycles (s : State) (core : Nat) : State :=
  { s with
    fresh := s.fresh + 1,
    groups := s.groups.map fun g => if g.core == core && decide (g.stage ≠ .saved) then { g with cycle := g.cycle + 1 + BitVec.ofNat 64 (Config.freeNat s.fresh) } else g }

/-- The strand that acts. -/
def State.actBy (s : State) (uid k : Nat) : State := { s with focus := some (uid, k) }
/-- A strand issues: the words that it waited for in the queues of banks are there. -/
def State.dropAsks (s : State) (uid k : Nat) : State :=
  match s.strand? uid k with
  | none => s
  | some t => { s with rows := { s.rows with asked := s.rows.asked.filter fun a => match a.who with
      | .code g va => !(g == uid && (a.served || va == t.pc.toNat))
      | _ => true } }

/-- The strand that acts is set, its core's rotation and clock move on. -/
def State.grant (s : State) (uid k core slot : Nat) : State :=
  (((s.dropAsks uid k).actBy uid k).passCycles core).turnTo core slot |>.countStep uid k

/-! ## The rotation (R89) -/

/-- A strand with its place: core and slot. -/
structure Seat where
  uid : Nat
  k : Nat
  core : Nat
  slot : Nat
  deriving DecidableEq, Repr

/-- The strands that may issue, group by group. -/
def State.seats (s : State) : List Seat :=
  (s.groups.filter fun g => decide (g.stage = .resident)).flatMap fun g =>
    ((List.range g.strands.length).filter fun k => match g.strands[k]? with | some t => t.mayIssue | none => false).map fun k =>
      { uid := g.uid, k := k, core := g.core, slot := g.slots.getD k 0 }

/-- How far a seat stands behind the last issue: cores in ascending number after the core that issued last, slots in ascending number after
the slot of the core that issued last. -/
def State.distanceOf (s : State) (p : Seat) : Nat :=
  (p.core + 160 - s.turn - 1) % 160 * 8 + (p.slot + slotsOf p.core - (s.core p.core).last - 1) % slotsOf p.core

/-- Insert a seat by its distance. -/
def insertSeat (s : State) (p : Seat) : List Seat → List Seat
  | [] => [p]
  | q :: qs => if s.distanceOf p < s.distanceOf q then p :: q :: qs else q :: insertSeat s p qs

/-- The seats in the order of the rotation. -/
def State.rotation (s : State) : List Seat := s.seats.foldl (fun l p => insertSeat s p l) []

/-- What a seat issues, if its next instruction is eligible; with the state after the fetch. -/
def State.tryIssue (s : State) (p : Seat) : Option (Issue × State) :=
  match s.group? p.uid with
  | none => none
  | some g =>
    match g.strands[p.k]? with
    | none => none
    | some t =>
      let (x, s1) := s.nextIssue g t
      match x with
      | .run i => if s.eligible p.uid p.k g t (s1.issued t i) then some (x, s1) else none
      | .held => none
      | _ => some (x, s1)

end Sys2Proof.Machine
end

