-- ==== Sys2Proof/Machine/Events.lean ====
section
/-!
DEFINITION. What the device does on its own: the events that may come next in a state, as the rules of their meanings allow, and which one
does (notes/assumptions/1.md).
-/
namespace Sys2Proof.Machine

open Sys2Proof

/-- An event that the device brings about by itself. Those whose moment or result the outside world decides come from `agenda` alone. -/
inductive Event where
  | strandWake (uid k : Nat)
  | load (id : Nat)
  | store (id : Nat)
  | atomic (id : Nat)
  | enq (id : Nat)
  | barv (id : Nat)
  | sstep (id : Nat)
  | inval (id : Nat)
  | nestBatch (uid k q : Nat)
  | copyComplete (uid k q : Nat)
  | matStart (core : Nat)
  | matRetire (core : Nat)
  | catStart (id : Nat)
  | catRow (id : Nat)
  | catCommit (id : Nat)
  | catComplete (id : Nat)
  | accession (id : Nat)
  | pageProgram (id : Nat)
  | install (id : Nat)
  | deaccession (id : Nat)
  | demandStaging (page : Nat)
  | stagingComplete (page : Nat)
  | weeding (stk : Nat)
  | weedingCopy (stk : Nat)
  | erase (stk blk : Nat)
  | rowPrep (id : Nat)
  | rowHold (id : Nat)
  | waveStart (id stk : Nat)
  | rowldStep (id stk : Nat)
  | rowsealStep (id stk : Nat)
  | asealStep (id stk : Nat)
  /-- The next word of a microprogram. -/
  | micro (id stk : Nat)
  | rowRetire (id : Nat)
  | forcedSwitch (stk : Nat)
  | rowPreempt (id stk : Nat)
  | serviceGap (stk : Nat)
  | allBank (stk pch : Nat)
  | postponed (stk pch bank : Nat)
  | refreshEnd (stk pch bank : Nat)
  | zeroingEnd (rsid : Nat)
  | cow (die entry : Nat)
  | frameCopy (die entry : Nat)
  | migrationCopy (id : Nat)
  | migrationSwitch (id : Nat)
  | heldRecord (ring : Nat)
  | cxlRelease (h : HeldCxl)
  | remoteRelease (h : HeldRemote)
  | noteCode (uid k : Nat)
  | archiveEnd
  | attestEnd (port : Nat)
  | deferralEnd (unit : Nat)
  | groupSave (uid : Nat)
  | groupEnd (uid : Nat)
  | groupPlace (uid : Nat)
  | groupRestore (uid : Nat)
  | preemption (uid : Nat)
  | superstepYield (uid : Nat)
  | snapshots (uid : Nat)
  | kernelEnd (uid : Nat)
  | scrub (cid : Nat)
  | drain (cid : Nat)
  | recordFetch (qid : Nat)
  | recheck (qid : Nat)
  | admission
  | idleTimeout (uid k : Nat)
  | bwaitTimeout (uid k : Nat)
  | batchTimeout (uid k q : Nat)
  | cxlTimeout (id : Nat)
  deriving DecidableEq, Repr

/-- The next word of the microprogram of a run. -/
def microStep (id stk : Nat) (s : State) : Res :=
  match s.stepReady id stk with
  | some (o, r) =>
    if o.kind = 1 ∧ r.phase = .steps then
      match decodeMicro (o.prog.getD r.pc 0) with
      | some i => if o.dup && writesRow i && !r.half then .next (s.firstHalf id stk) else exec i { s with rowFocus := some (id, stk) }
      | none => .next s
    else .next s
  | none => .next s

/-- The words that a strand needs for its next issue, each by its address and where it lies: the word at PC, the word after it for a prefix, the header
of VFILL. -/
def State.codeNeeds (s : State) (g : Group) (t : Strand) : List (Nat × Nat) :=
  let word (va : Nat) : List (Nat × Nat) := match s.peekFetch g.cid va with
    | some pa => [(va, pa)]
    | none => []
  let here := word t.pc.toNat
  here ++ here.flatMap fun (_, pa) =>
    let w : BitVec 32 := BitVec.ofNat 32 (leNat (s.readBytes (s.keyOf g.cid) 0 pa 4))
    match decode w with
    | .ok (.vfill a) => (match s.dispatchPa g.cid (t.x a).toNat .read with
      | some q => [((t.x a).toNat, q)]
      | none => [])
    | _ => if fld w 26 6 = 0x15 then word (nextPc t.pc 4).toNat else []
/-- Those of them that a wave keeps closed take their places in the queues of their banks (R385). -/
def State.askCode (s : State) (uid k : Nat) : State :=
  match s.group? uid, s.strand? uid k with
  | some g, some t => (s.codeNeeds g t).foldl (fun s (va, pa) => s.askGap (.code uid va) pa) s
  | _, _ => s

/-- What an event does: the meaning of its row of the opcode table. -/
def runEvent (e : Event) (s : State) : Res :=
  let k3 (k : Nat) : BitVec 3 := BitVec.ofNat 3 k
  let q2 (q : Nat) : BitVec 2 := BitVec.ofNat 2 q
  let s4 (n : Nat) : BitVec 4 := BitVec.ofNat 4 n
  let s3 (n : Nat) : BitVec 3 := BitVec.ofNat 3 n
  let b8 (n : Nat) : BitVec 8 := BitVec.ofNat 8 n
  match e with
  | .strandWake u k => execStrandWake u (k3 k) s
  | .load i => execLoadComplete i s
  | .store i => execStoreComplete i s
  | .atomic i => execAtomicComplete i s
  | .enq i => execEnqCommit i s
  | .barv i => execBarvArrival i s
  | .sstep i => execSstepArrival i s
  | .inval i => execInvalidationComplete i s
  | .nestBatch u k q => execNestBatch u (k3 k) (q2 q) s
  | .copyComplete u k q => execCopyComplete u (k3 k) (q2 q) s
  | .matStart c => execMatrixOpStart (b8 c) s
  | .matRetire c => execMatrixOpRetire (b8 c) s
  | .catStart i => execCatStartPhase i s
  | .catRow i => execCatRow i s
  | .catCommit i => execCatRowCommit i s
  | .catComplete i => execCatRunComplete i s
  | .accession i => execAccessionCheck i s
  | .pageProgram i => execPageProgram i (Config.freeBool s.fresh) s.tick
  | .install i => execInstallPoint i s
  | .deaccession i => execDeaccession i s
  | .demandStaging p => execDemandStaging (BitVec.ofNat 45 p) s
  | .stagingComplete p => execStagingComplete (BitVec.ofNat 45 p) s
  | .weeding a => execWeeding (s3 a) s
  | .weedingCopy a => execWeedingCopy (s3 a) s
  | .erase a b => execErase (s3 a) (BitVec.ofNat 19 b) s
  | .rowPrep i => execRowPreparation i s
  | .rowHold i => execRowHold i s
  | .waveStart i t => execWaveStart i (s4 t) s
  | .rowldStep i t => execRowldPlaneStep i (s4 t) s
  | .rowsealStep i t => execRowsealStep i (s4 t) s
  | .asealStep i t => execAsealStep i (s4 t) s
  | .micro i t => microStep i t s
  | .rowRetire i => execRowRetire i s
  | .forcedSwitch t => execForcedSwitch (s4 t) s
  | .rowPreempt i t => execRowPreemptStop i (s4 t) s
  | .serviceGap t => execServiceGap (s4 t) s
  | .allBank t p => execAllBankRefresh (s4 t) (b8 p) s
  | .postponed t p b => execPostponedRefresh (s4 t) (b8 p) (s4 b) s
  | .refreshEnd t p b => execRefreshEnd (s4 t) (b8 p) (s4 b) s
  | .zeroingEnd r => execRowSetZeroingEnd (BitVec.ofNat 10 r) s
  | .cow d i => execCowResolution (BitVec.ofNat 5 d) (BitVec.ofNat 12 i) s
  | .frameCopy d i => execFrameCopy (BitVec.ofNat 5 d) (BitVec.ofNat 12 i) s
  | .migrationCopy i => execMigrationCopy i s
  | .migrationSwitch i => execMigrationSwitch i s
  | .heldRecord r => execHeldRecordWrite (s4 r) s
  | .cxlRelease h => .next (s.cxlRelease h)
  | .remoteRelease h => .next (s.remoteRelease h)
  | .noteCode u k => .next (s.askCode u k)
  | .archiveEnd => .next s.arcCommandEnd
  | .attestEnd p => execAttestationCommandEnd (s3 p) s
  | .deferralEnd u => execDeferralExpiry (BitVec.ofNat 6 u) s
  | .groupSave u => execGroupSave u s
  | .groupEnd u => execGroupEnd u s
  | .groupPlace u => execGroupPlace u s
  | .groupRestore u => execGroupRestore u s
  | .preemption u => execPreemption u s
  | .superstepYield u => execSuperstepYield u s
  | .snapshots u => execSnapshotsHeld u s
  | .kernelEnd u => execKernelEnd u s
  | .scrub c => execScrubComplete (BitVec.ofNat 6 c) s
  | .drain c => execDrainComplete (BitVec.ofNat 6 c) s
  | .recordFetch n => execRecordFetch (b8 n) s
  | .recheck n => execWaitClauseRecheck (b8 n) s
  | .admission => execAdmission s
  | .idleTimeout u k => execIdleTimeout u (k3 k) s
  | .bwaitTimeout u k => execBwaitTimeout u (k3 k) s
  | .batchTimeout u k q => execBatchCloseTimeout u (k3 k) (q2 q) s
  | .cxlTimeout i => execHeldCxlTimeout i s

/-! ## Events that may come next -/

/-- The completion of an operation in flight. -/
def Op.event (o : Op) : Event :=
  match o.work with
  | .load _ _ => .load o.id
  | .store _ => .store o.id
  | .atomic _ _ _ _ _ _ _ => .atomic o.id
  | .enq _ _ _ _ _ => .enq o.id
  | .barv _ _ => .barv o.id
  | .sstep _ => .sstep o.id
  | .inval _ _ => .inval o.id

/-- Events of the copy channels of a strand. -/
def Strand.chanEvents (uid k : Nat) (t : Strand) : List Event :=
  (List.range t.chans.length).flatMap fun q => if (t.chan q).closed.isEmpty then [] else [Event.nestBatch uid k q, Event.copyComplete uid k q]

/-- Events of a strand: waking, copy channels. -/
def Strand.events (uid k : Nat) (t : Strand) : List Event :=
  (match t.status with
   | .waiting _ => [.strandWake uid k]
   | .swapped _ _ (some _) => [.strandWake uid k]
   | _ => []) ++ t.chanEvents uid k

/-- Timeouts of the open batches of a strand. -/
def Strand.batchTimeouts (uid k : Nat) (t : Strand) : List Event :=
  (List.range t.chans.length).flatMap fun q => if (t.chan q).opened.isEmpty then [] else [Event.batchTimeout uid k q]
/-- Timeouts of a strand. -/
def Strand.timeouts (uid k : Nat) (t : Strand) : List Event :=
  (match t.status with
   | .waiting (.idle _) => [.idleTimeout uid k]
   | .waiting (.barrier _ _ _ _ true none) => [.bwaitTimeout uid k]
   | _ => []) ++ t.batchTimeouts uid k

/-- Events of a group. -/
def State.groupEvents (s : State) (g : Group) : List Event :=
  (if g.stage = .resident then (List.range g.strands.length).flatMap fun k => match g.strands[k]? with | some t => t.events g.uid k | none => [] else []) ++
  (if s.mustGoOn g then (List.range g.strands.length).flatMap fun k => match g.strands[k]? with | some t => t.chanEvents g.uid k | none => [] else []) ++
  (if g.stage = .stopping ∨ g.stage = .stuck then [.groupSave g.uid] else []) ++
  (if g.stage = .aborting ∨ (g.stage ≠ .saved ∧ (g.strands.all fun t => decide (t.status = .ended)) = true) then [.groupEnd g.uid] else []) ++
  (if g.stage = .saved ∧ s.restorable g = true then [.groupRestore g.uid] else []) ++
  (if g.stage = .resident ∧ (g.stepped || s.kernels.any fun k => s.wants k) = true then [.preemption g.uid] else []) ++
  (if g.stage = .resident ∧ (g.strands.all fun t => match t.status with | .waiting (.superstep _ _ _ _ _) => true | _ => false) = true then [.superstepYield g.uid] else [])
/-- Timeouts of the strands of a group: all of a resident one, those of the open batches of one that stops, for which an access may wait (R79, R281). -/
def Group.timeouts (g : Group) : List Event :=
  (List.range g.strands.length).flatMap fun k => match g.strands[k]? with
    | some t => if g.stage = .resident then t.timeouts g.uid k else if g.stage = .stopping then t.batchTimeouts g.uid k else []
    | none => []

/-- Events of a catalogue run. -/
def CatOp.events (o : CatOp) : List Event :=
  match o.phase with
  | .start => if o.acc && !o.check then [.catStart o.id, .catRow o.id] else [.catStart o.id]
  | .rows => [.catCommit o.id, .catRow o.id, .catStart o.id]
  | .completing => [.catComplete o.id]

/-- Events of an archive operation. -/
def ArcOp.events (s : State) (o : ArcOp) : List Event :=
  if o.kind = 2 then [.accession o.id, .install o.id] ++ (if o.vid.isSome then [.pageProgram o.id] else [])
  else if o.kind = 3 then [.deaccession o.id]
  else match s.stageNext o with
    | some p => [.demandStaging p]
    | none => []

/-- Events of a row instruction. -/
def RowOp.events (o : RowOp) : List Event :=
  match o.phase with
  | .prep => [.rowPrep o.id]
  | .prepared => [.rowHold o.id]
  | .holding => []
  | .running => o.runs.flatMap fun r => match r.phase with
    | .wave => [.rowPreempt o.id r.stk, .waveStart o.id r.stk]
    | .steps => [.rowPreempt o.id r.stk, .forcedSwitch r.stk, .serviceGap r.stk, .rowldStep o.id r.stk, .rowsealStep o.id r.stk, .micro o.id r.stk]
    | .aseal => [.rowPreempt o.id r.stk, .forcedSwitch r.stk, .serviceGap r.stk, .asealStep o.id r.stk]
    | .finished => []
  | .retiring => [.rowRetire o.id]

/-- Events of the page. -/
def State.pageEvents (s : State) : List Event :=
  (s.mmu.pend.flatMap fun (p : Pend) =>
    (match p.cow with
     | some c => [if c.target.isSome then Event.frameCopy p.die p.idx else Event.cow p.die p.idx]
     | none => if p.code = (0x43 : Byte) then [Event.cow p.die p.idx] else []) ++
    (match p.arc with | some a => [Event.demandStaging a] | none => [])) ++
  (s.mmu.migs.map fun m => if m.target.isSome then Event.migrationSwitch m.id else Event.migrationCopy m.id) ++
  (if s.mmu.ring.held.isEmpty then [] else [Event.heldRecord 8]) ++
  ((List.range 8).flatMap fun p => if (s.window p).ring.held.isEmpty then [] else [Event.heldRecord p])

/-- Events of the archive. -/
def State.archiveEvents (s : State) : List Event :=
  (s.arc.ops.flatMap fun o => o.events s) ++
  ((s.arc.staged.filter fun t => !t.ready).map fun t => Event.stagingComplete t.page) ++
  (if s.arc.blocks.isEmpty then [] else (List.range 8).flatMap fun a => match s.arc.victims.getD a none with
    | some b => [Event.weedingCopy a, Event.erase a b]
    | none => if s.weedDue a then [Event.weeding a] else []) ++
  (if s.arc.busy.isSome then [Event.archiveEnd] else [])

/-- Events of refresh and row sets. -/
def State.rowEvents (s : State) : List Event :=
  (s.rows.ops.flatMap RowOp.events) ++
  (s.rows.refresh.flatMap fun f =>
    (if f.due then [Event.allBank f.stk f.pch] else []) ++ (if f.all then [Event.refreshEnd f.stk f.pch 0] else f.banks.map fun b => Event.refreshEnd f.stk f.pch b) ++
    f.postponed.map fun b => Event.postponed f.stk f.pch b) ++
  ((s.rows.sets.filter fun r => r.zeroing || r.freeing).map fun r => Event.zeroingEnd r.id)

/-- Events of kernels, contexts and queues. -/
def State.dispatchEvents (s : State) : List Event :=
  (s.kernels.flatMap fun k => match k.stage with
    | .admitted => [Event.snapshots k.uid]
    | .draining => [Event.kernelEnd k.uid]
    | _ => if s.wants k then [Event.groupPlace k.uid] else []) ++
  ((List.range 64).flatMap fun c => match (s.ctx c).state with
    | .scrubbing => [Event.scrub c]
    | .draining => [Event.drain c]
    | _ => []) ++
  ((List.range 256).flatMap fun n =>
    let q := s.queue n
    if q.state = .unbound ∨ q.state = .stopped then []
    else (if q.head = q.tail then [] else [Event.recordFetch n]) ++ (match q.held with
      | some h => if h.met.all id then [Event.admission] else [Event.recheck n]
      | none => []))

/-- Every event that may come next, timeouts last. -/
def State.candidates (s : State) : List Event :=
  (s.ops.map Op.event) ++ (s.groups.flatMap s.groupEvents) ++
  ((s.mats.map fun m => match s.group? m.guid with | some g => g.core | none => 160).eraseDups.flatMap fun c => [Event.matRetire c, Event.matStart c]) ++
  (s.cats.flatMap CatOp.events) ++ s.archiveEvents ++ s.rowEvents ++ s.pageEvents ++
  (s.heldCxl.map fun h => Event.cxlRelease h) ++ (s.heldRemote.map fun h => Event.remoteRelease h) ++
  (if s.rows.seq.all List.isEmpty then [] else s.seats.map fun p => Event.noteCode p.uid p.k) ++
  ((List.range 8).filterMap fun p => if (s.window p).atCmd.isSome then some (Event.attestEnd p) else none) ++
  ((List.range 48).filterMap fun u => if (s.unit u).defer then some (Event.deferralEnd u) else none) ++
  s.dispatchEvents ++ (s.groups.flatMap Group.timeouts) ++ (s.heldCxl.map fun h => Event.cxlTimeout h.id)

/-- Between steps nobody acts. -/
def State.calm (s : State) : State := { s with focus := none, rowFocus := none, latch := none }

/-- The state after an event, where the event has an effect. -/
def State.after (s : State) (e : Event) : Option State :=
  match runEvent e s with
  | .next s1 => if { s1.calm with fresh := s.fresh } = s.calm then none else some s1.calm
  | _ => none

/-- What the device may do next by itself: one state for each event that has an effect. -/
def State.effects (s : State) : List State := s.candidates.filterMap s.after

/-- The next event of the device: any of those that have an effect; the spec does not say which (notes/assumptions/1.md). -/
def State.nextEvent (s : State) : Option State :=
  match s.tick.effects with
  | [] => none
  | [t] => some t
  | t :: u :: ts => (t :: u :: ts)[(Config.freeWord s.fresh).toNat % (ts.length + 2)]?

/-! ## Asynchronous traps (R285, R320, R333) -/

/-- A strand at a boundary with a copy fault or a catalogue fault to take: copy faults first. -/
def State.trapDue (s : State) : Option (Nat × Nat × Bool) :=
  s.groups.findSome? fun g =>
    if g.stage = .resident then
      (List.range g.strands.length).findSome? fun k => match g.strands[k]? with
        | some t =>
          if t.boundary && !t.h && t.copyPending.isSome then some (g.uid, k, true)
          else if t.boundary && !t.h && !t.catFaults.isEmpty then some (g.uid, k, false)
          else none
        | none => none
    else none

/-! ## The next issue (R89) -/

/-- What issues next, with its seat and the state after its fetch: the first strand of the rotation that can issue. -/
def State.nextSeat (s : State) : Option (Seat × Issue × State) :=
  s.rotation.findSome? fun p => (s.tryIssue p).map fun x => (p, x.1, x.2)

/-- After a strand has issued, its buffer is filled ahead and nobody acts. -/
def afterIssue (uid k : Nat) (r : Res) : Res :=
  match r with
  | .next s => .next (s.topUp uid k).calm
  | x => x

/-- One issue: the instruction runs, or the trap of its fetch is taken. A served fault of a fetch counts as no issue of a stepped strand. -/
def runIssue (p : Seat) (x : Issue) (s : State) : Res :=
  let s1 := s.grant p.uid p.k p.core p.slot
  match x with
  | .run i => afterIssue p.uid p.k (exec i s1)
  | .illegal d v => afterIssue p.uid p.k (execIllegalInstruction d v s1)
  | .fault f =>
    match f.what, s.strand? p.uid p.k with
    | .served _, some t => (match s.group? p.uid with
      | some g => .next (State.finish p.uid p.k t.pc 4 ((s.turnTo p.core p.slot).strandFault p.uid p.k g f none)).calm
      | none => .next s)
    | _, some t => (match s.group? p.uid with
      | some g => .next (State.finish p.uid p.k t.pc 4 (s1.strandFault p.uid p.k g f none)).calm
      | none => .next s)
    | _, none => .next s
  | .dead va => .next (s1.fatalTrap p.uid p.k (errorTrap va)).calm
  | .held => .next s

/-- What the device does next by itself: an asynchronous trap that is due, else an event or an issue. Where both may come, either does. -/
def State.advance (s : State) : Res :=
  match s.trapDue with
  | some (uid, k, true) => afterIssue uid k (execCopyFaultTrap uid (BitVec.ofNat 3 k) s.tick)
  | some (uid, k, false) => afterIssue uid k (execCatalogueFaultTrap uid (BitVec.ofNat 3 k) s.tick)
  | none =>
    match s.nextEvent, s.tick.nextSeat with
    | none, none => .next s
    | some t, none => .next t
    | none, some (p, x, s1) => runIssue p x s1
    | some t, some (p, x, s1) => if Config.freeBool s.fresh then .next t else runIssue p x s1

/-- An input of the outside world arrives: its meaning runs, with nobody acting. -/
def runInput (i : Instr) (s : State) : Res :=
  match exec i s.calm with
  | .next t => .next t.calm
  | x => x

end Sys2Proof.Machine
end

