-- ==== Sys2Proof/Machine/Placed.lean ====
section
/-!
DEFINITION. A program's word in place: what a host and the dispatcher must have done before one strand issues the word at virtual
address 0 as its next instruction (notes/assumptions/10.md), and the same for one microcode word.
-/
namespace Sys2Proof.Machine

open Sys2Proof

/-- A running context whose root table lies at physical address 0x1000, with a key of zeros. -/
def placedContext : Context := { Context.reset with state := .running, root := 1, key := some 0, desc := true, armed := false }

/-- A kernel of one group of one strand, wholly placed. -/
def placedKernel : Kernel :=
  { uid := 0, qid := 0, cid := 0, record := List.replicate 16 0, stage := .resident, held := false, status := none, snap := none, nextL := 1, ended := 0,
    place := some 0, wait := false, failed := false, ssb := List.replicate 64 { gen := 0, xerr := false, exp := 1, cnt := 0, fail := false } }

/-- Its group, on slot 0 of core 0, with its strand at PC 0. -/
def placedGroup (t : Strand) : Group :=
  { uid := 0, kuid := 0, cid := 0, l := 0, stage := .resident, core := 0, slots := [0], wb := 0, ab := 0, cb := 0, restores := 0, prio := 0, cycle := 0, halt := false,
    step := false, mask := 0, reason := 0, frame := 0, yieldOn := [],
    shelf := List.replicate 64 { words := List.replicate 16 0, state := 0, bcode := 0 }, bars := [], cqb := List.replicate 4 0,
    rowStat := List.replicate 64 0, catStat := List.replicate 64 0, bufW := [], bufA := [], bufC := [], late := [], lines := [], strands := [t] }

/-- Page tables that map virtual page 0 to the frame at 0x6000 with every right, and the code there: `w` in its bytes, zeros after it. -/
def State.placeCode (s : State) (w : Nat) : State :=
  let at0 (s : State) (pa v : Nat) : State := s.writeBytes 0 0 pa (leBytes 8 v)
  (at0 (at0 (at0 (at0 (at0 s 0x1000 0x2001) 0x2000 0x3001) 0x3000 0x4001) 0x4000 0x5001) 0x5000 0x603F).writeBytes 0 0 0x6000 (leBytes 96 w)

/-- The device with nothing in flight but one resident group of one strand; memory, ownership and the counter of free values stay. -/
def State.placedBase (s : State) (t : Strand) : State :=
  { State.reset with
    fresh := s.fresh, contexts := State.reset.contexts.set 0 placedContext, kernels := [placedKernel], groups := [placedGroup t],
    mem := { s.mem with flips := [] }, plat := s.plat,
    links := { s.links with units := s.links.units.map fun (l : Link) => { l with defer := false } },
    windows := s.windows.map fun (w : Window) => { w with atCmd := none, ring := { w.ring with held := [] } } }

/-- One row instruction in the middle of a wave, with one word left to run. -/
def placedRow (w : Nat) : RowOp :=
  { id := 0, guid := 0, strand := 0, cid := 0, kind := 1, tid := 0, xd := 0, xa := 0, ea := List.replicate 16 0, eb := none, ec := none, ew := none,
    eo := none, sat := false, phase := .running, prog := [BitVec.ofNat 32 w], window := [], code := 0, widx := 0, uns := false, ce := false, flags := 0,
    steps := 0,
    runs := [{ stk := 0, waves := [[]], wave := 0, phase := .steps, pc := 0, lp := 0, la := none, regs := [], outs := [],
               snap := { wave := 0, pc := 0, lp := 0, la := none, regs := [], outs := [] }, since := 0, noForce := false, wrote := [], pos := 0,
               stop := none, paused := false, late := 0 }],
    held := [], pages := [], wait := none, failed := false }

/-- A strand that waits for its row instructions. -/
def waitingStrand : Strand := { Strand.placed 0 0 0 with kr := 1, status := .waiting (.counters 0x40 false) }

/-- The state in which the next step runs a 32-bit word: as a strand's instruction, or, where only the microcode decoder reads it, as a
microcode word. -/
def State.withWord (s : State) (w : Nat) : State :=
  match decode (BitVec.ofNat 32 w), decodeMicro (BitVec.ofNat 32 w) with
  | .error _, some _ =>
    let b := s.placedBase waitingStrand
    { b with rows := { b.rows with ops := [placedRow w], seq := [0] :: List.replicate 15 [] } }
  | _, _ => (s.placedBase (Strand.placed 0 0 0)).placeCode w

end Sys2Proof.Machine
end

