-- ==== Sys2Proof/Machine/Step.lean ====
section
/-!
DEFINITION. One step of the device, and the state whose next step runs a given instruction.
-/
namespace Sys2Proof.Machine

open Sys2Proof

/-- One step: an input of the outside world where one is there and its moment has come, else what the device does by itself
(notes/assumptions/1.md). -/
def step (s : State) : Host.Outcome State Fault Refusal :=
  match s.agenda with
  | [] => s.advance
  | i :: rest => if Config.freeBool s.fresh then runInput i { s.tick with agenda := rest } else s.tick.advance

/-- The state with the instruction whose bits are `w` where the next step fetches (notes/assumptions/10.md). Every instruction has 32
bits. -/
def State.withFetchWord (s : State) (nbits w : Nat) : State := s.withWord (w % 2 ^ nbits)

end Sys2Proof.Machine
end

