-- ==== Sys2Proof/WellFormed.lean ====
section
/-!
DEFINITION. Which terms of `Instr` stand for something the device can be given: a strand instruction or microcode op whose fields hold
allocated values (R186, R187, R199, R202, R204), and a host command whose word holds the command's own OP (R47, R59, R83, R95, R370,
R376, R403, R437, R442). A device event is well formed with any arguments: one that names nothing changes nothing.
-/
namespace Sys2Proof

/-- The OP field of a command word in bits 7:0. -/
def opIs (w : BitVec 64) (op : Nat) : Bool := decide (natBits w.toNat 7 0 = op)
/-- The OP field in bits 3:0 (R437, R442). -/
def opLowIs (w : BitVec 64) (op : Nat) : Bool := decide (natBits w.toNat 3 0 = op)

/-- A host command's word holds its OP; RETIRE is told apart by bit 16 (R47). -/
def Instr.commandOk : Instr → Bool
  | .claim _ w => opIs w 0x01
  | .loaddesc _ w => opIs w 0x02
  | .loadkey _ w => opIs w 0x03
  | .activate _ w => opIs w 0x04
  | .suspend _ w => opIs w 0x05
  | .resume _ w => opIs w 0x06
  | .retireAbort _ w => opIs w 0x07 && !w.getLsbD 16
  | .retireFinish _ w => opIs w 0x07 && w.getLsbD 16
  | .release _ w => opIs w 0x08
  | .addquota _ w => opIs w 0x09
  | .addframes _ w => opIs w 0x0A
  | .setceil _ w => opIs w 0x0B
  | .query _ w => opIs w 0x0C
  | .qbind _ w => opIs w 0x21
  | .qstart _ w => opIs w 0x22
  | .qstop _ w => opIs w 0x23
  | .qdrain _ w => opIs w 0x24
  | .qunbind _ w => opIs w 0x25
  | .qquery _ w => opIs w 0x26
  | .kabort _ w => opIs w 0x27
  | .khold _ w => opIs w 0x28
  | .kresume _ w => opIs w 0x29
  | .ghalt _ w => opIs w 0x2A
  | .gresume _ w => opIs w 0x2B
  | .resolve _ w => opIs w 1
  | .failpg _ w => opIs w 2
  | .inval _ w => opIs w 3
  | .invall _ w => opIs w 4
  | .rsalloc _ w => opIs w 1
  | .rsfree _ w => opIs w 2
  | .rsquery _ w => opIs w 3
  | .aradopt _ w => opIs w 1
  | .arpurge _ w => opIs w 2
  | .arquery _ w => opIs w 3
  | .ownClaim _ w => opLowIs w 1
  | .ownGive _ w => opLowIs w 2
  | .ownTake _ w => opLowIs w 3
  | .ownRelease _ w => opLowIs w 4
  | .report _ w => opLowIs w 1
  | .session _ w => opLowIs w 2
  | _ => true

/-- A function field names a function: LOOP one of L0 to L5, MMA one of its three kinds (detail 2 of R199). -/
def Instr.funcOk : Instr → Bool
  | .loop l _ _ => decide (l.toNat < 6)
  | .mma _ _ k _ _ _ _ _ => k != 3#2
  | _ => true

/-- A term that the device can be given. -/
def Instr.wellFormed (i : Instr) : Bool := i.regsOk && i.reservedOk && i.funcOk && i.specsOk && i.commandOk

/-- A microcode op (R203). -/
def Instr.isMicro : Instr → Bool
  | .aap _ _ => true
  | .tra _ _ _ => true
  | .dnot _ _ => true
  | .zero _ => true
  | .ones _ => true
  | .lshl _ _ => true
  | .lshr _ _ => true
  | .rdl _ => true
  | .wrl _ _ => true
  | .cnt _ => true
  | .wacc _ _ => true
  | .waccNeg _ _ => true
  | .bit _ _ => true
  | .next _ _ => true
  | .seal _ => true
  | .yield => true
  | .stop => true
  | _ => false

/-- An instruction that a strand executes: the others have no word (R184 to R197). -/
def Instr.isStrand (i : Instr) : Bool := !i.isMicro && encode i != 0#32

end Sys2Proof
end

