-- ==== Sys2Proof/Safety.lean ====
section
/-!
DEFINITION. What a safe step is, the invariants of the model, and the words in which the statements speak about an instruction: that it
completes, with which strand state, and what an element loop leaves in a register.
-/
namespace Sys2Proof.Safety

open Sys2Proof Sys2Proof.Machine

/-! ## Steps and states -/

/-- A meaning or a step answers a next state. -/
def Answers (r : Res) : Prop := ∃ t, r = .next t

/-- Between two steps nothing acts: no strand and no row run is in the middle of an instruction, and no word is half issued (notes/assumptions/2.md). -/
abbrev Settled (s : State) : Prop := s.focus = none ∧ s.rowFocus = none ∧ s.latch = none

/-- A term that can arrive from outside or come about in the device: no instruction that a strand issues, and no microcode op. -/
def isInput (i : Instr) : Bool := !i.isStrand && !i.isMicro && match i with
  | .illegalInstruction _ _ => false
  | _ => true

/-- The agenda lists inputs and events only (notes/assumptions/1.md). -/
abbrev AgendaOk (s : State) : Prop := ∀ i ∈ s.agenda, isInput i = true

/-- The register files of a strand have the sizes of R121. -/
abbrev StrandShaped (t : Strand) : Prop := t.v.length = 48 ∧ t.m.length = 12 ∧ t.n.length = 8 ∧ t.ke.length = 4 ∧ t.chans.length = 4

/-- The tables of a group have the sizes that the spec gives. -/
abbrev GroupShaped (g : Group) : Prop :=
  g.shelf.length = 64 ∧ g.rowStat.length = 64 ∧ g.catStat.length = 64 ∧ g.cqb.length = 4 ∧ ∀ t ∈ g.strands, StrandShaped t

/-- Every table of the device has the number of entries that the spec gives it. -/
abbrev Shaped (s : State) : Prop :=
  s.contexts.length = 64 ∧ s.queues.length = 256 ∧ s.windows.length = 8 ∧ s.cores.length = 160 ∧ s.links.units.length = 48 ∧
  s.rows.seq.length = 16 ∧ s.rows.gap.length = 16 ∧ s.arc.heads.length = 8 ∧ s.arc.victims.length = 8 ∧ s.plat.sessions.length = 16 ∧
  ∀ g ∈ s.groups, GroupShaped g

/-! ## Instructions of a strand -/

/-- Strand `k` of the group `u` acts; `g` is the group and `t` the strand. -/
def Acts (s : State) (u k : Nat) (g : Group) (t : Strand) : Prop := s.cur? = some (u, k, g, t)

/-- The instruction completes and changes the strand that acts alone: the strand becomes `t'`, at the next instruction. Every other
part of the state, all of memory among it, stays. -/
def Becomes (i : Instr) (s : State) (u k : Nat) (t t' : Strand) : Prop :=
  exec i s = .next (s.modStrand u k fun _ => { t' with pc := nextPc t.pc 4 })

/-- The instruction completes and goes on at `pc`: a refill of the instruction buffer (R201). -/
def JumpsTo (i : Instr) (s : State) (u k : Nat) (t' : Strand) (pc : Word) : Prop :=
  exec i s = .next (s.modStrand u k fun _ => { t' with pc := pc &&& pcMask, ibuf := [] })

/-- The instruction completes with the state `s'`, in which the strand goes on at the next instruction. -/
def Issues (i : Instr) (s : State) (u k : Nat) (t : Strand) (s' : State) : Prop :=
  exec i s = .next (s'.modStrand u k fun t' => { t' with pc := nextPc t.pc 4 })

/-- The instruction ends in the trap `c`, taken at its own address by the shared operation of trap entry (R331). -/
def Traps (i : Instr) (s : State) (u k : Nat) (t : Strand) (c : Trap) : Prop :=
  exec i s = .next (s.takeTrap u k c t.pc)

/-! ## Bytes of memory (R117, R156) -/

/-- A write of `n` bytes at `pa` names the byte `a` by its own address, through no other POOL window (R407), and leaves what it reads as under a key and
a version: the byte was written under them, or nothing has been written there, or no byte of its 16-byte block is written (R117). -/
def KeepsByte (s : State) (key : BitVec 512) (ver : BitVec 32) (pa n a : Nat) : Prop :=
  (∀ x, pa ≤ x → x < pa + n → s.homeOf x / 32 = s.homeOf a / 32 → x / 32 = a / 32) ∧
  (s.plainRow a = true ∨ (∀ l, s.layerOf a = some l → l.is key ver a = true) ∨ ∀ x, pa ≤ x → x < pa + n → x / 16 ≠ a / 16)

/-! ## Element loops (R126, R205) -/

/-- What an element loop over the indices below `n` leaves: the active elements take what `op` gives, in ascending order, each with the
flags and generators that the active elements before it left; every other element of the register keeps its bits. -/
def Loop (w : Nat) (act : Nat → Bool) (n : Nat) (op : Nat → Lanes → Nat × Lanes) (old new : VReg) (l0 l1 : Lanes) : Prop :=
  ∃ ls : Nat → Lanes, ls 0 = l0 ∧ ls n = l1 ∧
    (∀ j, j < n → ls (j + 1) = if act j then (op j (ls j)).2 else ls j) ∧
    (∀ j, (j + 1) * w ≤ 8192 → elem w new j = if j < n ∧ act j = true then (op j (ls j)).1 % 2 ^ w else elem w old j)

/-- Flags and generators before the first element of an instruction. -/
def lanes0 (t : Strand) : Lanes := { flags := 0, gens := t.gens }

/-- A vector form completes: D takes the element loop of `op`, ST the flags it raised, SR the draws it made. -/
def VecForm (i : Instr) (s : State) (u k : Nat) (t : Strand) (d : BitVec 6) (op : Nat → Lanes → Nat × Lanes) : Prop :=
  ∃ r l, Loop t.w t.active t.el op (t.vreg d) r (lanes0 t) l ∧ Becomes i s u k t { (t.setV d r).flag l.flags with gens := l.gens }

/-- A typed scalar form completes: xD takes the typed scalar result, ST the flags, SR the draw. -/
def ScalarForm (i : Instr) (s : State) (u k : Nat) (t : Strand) (d : BitVec 6) (op : Lanes → Nat × Lanes) : Prop :=
  Becomes i s u k t { (t.setX d (extScalar t.ty (op (lanes0 t)).1)).flag (op (lanes0 t)).2.flags with gens := (op (lanes0 t)).2.gens }

/-- A compare's vector form completes: bit j of mD takes the predicate for each active element j, the other bits stay; ST takes the flags. -/
def MaskForm (i : Instr) (s : State) (u k : Nat) (t : Strand) (d : BitVec 6) (p : Nat → Lanes → Bool × Lanes) : Prop :=
  ∃ (r : Bits1024) (ls : Nat → Lanes), ls 0 = lanes0 t ∧
    (∀ j, j < t.el → ls (j + 1) = if t.active j then (p j (ls j)).2 else ls j) ∧
    (∀ j, j < 1024 → r.getLsbD j = if j < t.el ∧ t.active j = true then (p j (ls j)).1 else (t.mask d).getLsbD j) ∧
    Becomes i s u k t ((t.setM d r).flag (ls t.el).flags)

/-- A permuting form completes: below EL an element of vD takes what `f` gives for it, or keeps its bits; elements from EL on keep
theirs. -/
def PermForm (i : Instr) (s : State) (u k : Nat) (t : Strand) (d : BitVec 6) (f : Nat → Option Nat) : Prop :=
  ∃ r : VReg, (∀ j, (j + 1) * t.w ≤ 8192 →
      elem t.w r j = if j < t.el then (match f j with | some n => n % 2 ^ t.w | none => elem t.w (t.vreg d) j) else elem t.w (t.vreg d) j) ∧
    Becomes i s u k t (t.setV d r)

/-- MD holds allocated values and its type is of the class `ok` (R124, R207). -/
abbrev Typed (ok : Nat → Bool) (t : Strand) : Prop := mdOk t.md = true ∧ ok t.ty = true
/-- The same, and the shape fits the register (R126). -/
abbrev Ready (ok : Nat → Bool) (t : Strand) : Prop := mdOk t.md = true ∧ ok t.ty = true ∧ t.shapeBad = false

/-- Element `j` of vN, and the operand B of a vector form, as integers under MD.Type. -/
def elemI (t : Strand) (r : BitVec 6) (j : Nat) : Int := tyRead t.ty (elem t.w (t.vreg r) j)
def opBI (t : Strand) (b : BitVec 6) (x : BitVec 1) (j : Nat) : Int := tyRead t.ty (t.opB b x j)
/-- The typed scalar in xN. -/
def scaI (t : Strand) (r : BitVec 6) : Int := tyRead t.ty ((t.x r).toNat % 2 ^ t.w)
/-- The w raw bits of xN. -/
def scaB (t : Strand) (r : BitVec 6) : Nat := (t.x r).toNat % 2 ^ t.w
/-- The w raw bits of element `j` of vN. -/
def elemB (t : Strand) (r : BitVec 6) (j : Nat) : Nat := elem t.w (t.vreg r) j

/-- Both forms of a floating instruction (R205, R206, R226): `op` takes the lane that draws, the old element, a and b. A scalar form under
f64 is not among them. -/
def FloatForms (ok : Nat → Bool) (i : BitVec 1 → Instr) (s : State) (u k : Nat) (t : Strand) (d a b : BitVec 6) (x : BitVec 1)
    (op : Nat → Nat → Nat → Nat → Lanes → Nat × Lanes) : Prop :=
  (Ready ok t → VecForm (i 0) s u k t d fun j => op (laneOf t.w j) (elemB t d j) (elemB t a j) (t.opB b x j)) ∧
  (Typed ok t → t.ty ≠ 11 → ScalarForm (i 1) s u k t d (op 0 (scaB t d) (scaB t a) (scaB t b)))

/-! ## Microcode -/

/-- A row run acts: row instruction `n`, its operation `o`, and its run `r` on row stack `stk` (R300). -/
def RowActs (s : State) (n stk : Nat) (o : RowOp) (r : StackRun) : Prop :=
  s.rowFocus = some (n, stk) ∧ s.rowOp? n = some o ∧ o.run? stk = some r

/-- In `s'` the run has gone on to the word `pc`, with the registers `regs`, after `steps` steps. -/
def RunAt (s' : State) (n stk : Nat) (o : RowOp) (steps pc : Nat) (regs : List SliceReg) : Prop :=
  ∃ o' r', s'.rowOp? n = some o' ∧ o'.run? stk = some r' ∧ o'.steps = o.steps + steps ∧ r'.pc = pc ∧ r'.regs = regs

/-- `s'` differs from `s` in memory at most in the rows `rows`. -/
def RowsOnly (s s' : State) (rows : List Nat) : Prop :=
  ∀ a, (∀ pa ∈ rows, a / 1024 ≠ pa / 1024) → cellGet s'.mem.cells a = cellGet s.mem.cells a

end Sys2Proof.Safety
end

