-- ==== Sys2Proof/Certificates/Slice0/Obligations.lean ====
section
/-!
DEFINITION. The statements for the provers. Each docstring names the rules of spec/ it formalises.
-/
open Sys2Proof Sys2Proof.Machine Sys2Proof.Safety

/-! ## Integer instructions -/

/-- R208, R164, R206: the exact integer result of each operation, fitted to MD.Type where the rule says so, in the vector form and the
typed scalar form. -/
def Obligations.IntegerArithmetic : Prop :=
  ∀ (s : State) (u k : Nat) (g : Group) (t : Strand) (d a b : BitVec 6) (x : BitVec 1), Acts s u k g t →
    (Ready tyInt t →
      VecForm (.add d a b 0 x) s u k t d (fun j l => fitInt (mdSat t.md) t.ty (elemI t a j + opBI t b x j) l) ∧
      VecForm (.sub d a b 0 x) s u k t d (fun j l => fitInt (mdSat t.md) t.ty (elemI t a j - opBI t b x j) l) ∧
      VecForm (.mul d a b 0 x) s u k t d (fun j l => fitInt (mdSat t.md) t.ty (elemI t a j * opBI t b x j) l) ∧
      VecForm (.mulh d a b 0 x) s u k t d (fun j l => (intWrap t.w (elemI t a j * opBI t b x j / 2 ^ t.w), l)) ∧
      VecForm (.min d a b 0 x) s u k t d (fun j l => (intWrap t.w (min (elemI t a j) (opBI t b x j)), l)) ∧
      VecForm (.max d a b 0 x) s u k t d (fun j l => (intWrap t.w (max (elemI t a j) (opBI t b x j)), l)) ∧
      VecForm (.mac d a b 0 x) s u k t d (fun j l => fitInt (mdSat t.md) t.ty (elemI t d j + elemI t a j * opBI t b x j) l) ∧
      VecForm (.absd d a b 0 x) s u k t d (fun j l => fitInt (mdSat t.md) t.ty (elemI t a j - opBI t b x j).natAbs l) ∧
      VecForm (.abs d a 0) s u k t d (fun j l => fitInt (mdSat t.md) t.ty (elemI t a j).natAbs l) ∧
      VecForm (.neg d a 0) s u k t d (fun j l => fitInt (mdSat t.md) t.ty (-(elemI t a j)) l)) ∧
    (Typed tyInt t →
      ScalarForm (.add d a b 1 x) s u k t d (fitInt (mdSat t.md) t.ty (scaI t a + scaI t b)) ∧
      ScalarForm (.sub d a b 1 x) s u k t d (fitInt (mdSat t.md) t.ty (scaI t a - scaI t b)) ∧
      ScalarForm (.mul d a b 1 x) s u k t d (fitInt (mdSat t.md) t.ty (scaI t a * scaI t b)) ∧
      ScalarForm (.mulh d a b 1 x) s u k t d (fun l => (intWrap t.w (scaI t a * scaI t b / 2 ^ t.w), l)) ∧
      ScalarForm (.min d a b 1 x) s u k t d (fun l => (intWrap t.w (min (scaI t a) (scaI t b)), l)) ∧
      ScalarForm (.max d a b 1 x) s u k t d (fun l => (intWrap t.w (max (scaI t a) (scaI t b)), l)) ∧
      ScalarForm (.mac d a b 1 x) s u k t d (fitInt (mdSat t.md) t.ty (scaI t d + scaI t a * scaI t b)) ∧
      ScalarForm (.absd d a b 1 x) s u k t d (fitInt (mdSat t.md) t.ty (scaI t a - scaI t b).natAbs) ∧
      ScalarForm (.abs d a 1) s u k t d (fitInt (mdSat t.md) t.ty (scaI t a).natAbs) ∧
      ScalarForm (.neg d a 1) s u k t d (fitInt (mdSat t.md) t.ty (-(scaI t a))))

/-- R164: the widths and bounds of the integer types; fitting an exact integer to a type wraps it, or clamps it to the nearest bound and sets SAT when the
mode saturates. -/
def Obligations.IntegerFit : Prop :=
  ((List.range 8).map fun ty => (tyWidth ty, tyMin ty, tyMax ty)) =
    [(8, -128, 127), (16, -32768, 32767), (32, -2 ^ 31, 2 ^ 31 - 1), (64, -2 ^ 63, 2 ^ 63 - 1), (8, 0, 255), (16, 0, 65535), (32, 0, 2 ^ 32 - 1), (64, 0, 2 ^ 64 - 1)] ∧
  ∀ (sat : Bool) (ty : Nat) (z : Int) (l : Lanes), ty < 8 →
    (tyMin ty ≤ z ∧ z ≤ tyMax ty → tyRead ty (fitInt sat ty z l).1 = z ∧ (fitInt sat ty z l).2 = l) ∧
    (z < tyMin ty ∧ sat = true → tyRead ty (fitInt sat ty z l).1 = tyMin ty ∧ (fitInt sat ty z l).2 = { l with flags := l.flags ||| fSAT }) ∧
    (tyMax ty < z ∧ sat = true → tyRead ty (fitInt sat ty z l).1 = tyMax ty ∧ (fitInt sat ty z l).2 = { l with flags := l.flags ||| fSAT }) ∧
    (sat = false → ((fitInt sat ty z l).1 : Int) = z % 2 ^ tyWidth ty ∧ (fitInt sat ty z l).2 = l)

/-- R209, R183: DIV and REM; a zero divisor gives the result of R183 and DZ, and after every active element is written the divide trap
when MD.DZT = 1, with PC at the next instruction. -/
def Obligations.IntegerDivision : Prop :=
  ∀ (s : State) (u k : Nat) (g : Group) (t : Strand) (d a b : BitVec 6) (x : BitVec 1), Acts s u k g t →
    let quo (p q : Int) (l : Lanes) : Nat × Lanes :=
      if q = 0 then (intWrap t.w (if tySigned t.ty then -1 else tyMax t.ty), { l with flags := l.flags ||| fDZ })
      else (intWrap t.w (p.tdiv q), l)
    let rem (p q : Int) (l : Lanes) : Nat × Lanes :=
      if q = 0 then (intWrap t.w p, { l with flags := l.flags ||| fDZ }) else (intWrap t.w (p.tmod q), l)
    (Ready tyInt t → (mdDzt t.md = false ∨ ∀ j, t.active j = true → opBI t b x j ≠ 0) →
      VecForm (.div d a b 0 x) s u k t d (fun j => quo (elemI t a j) (opBI t b x j)) ∧
      VecForm (.rem d a b 0 x) s u k t d (fun j => rem (elemI t a j) (opBI t b x j))) ∧
    (Typed tyInt t → (mdDzt t.md = false ∨ scaI t b ≠ 0) →
      ScalarForm (.div d a b 1 x) s u k t d (quo (scaI t a) (scaI t b)) ∧
      ScalarForm (.rem d a b 1 x) s u k t d (rem (scaI t a) (scaI t b))) ∧
    (Typed tyInt t → mdDzt t.md = true → scaI t b = 0 →
      exec (.div d a b 1 x) s = .next ((s.modStrand u k fun _ => (t.setX d (extScalar t.ty (quo (scaI t a) 0 (lanes0 t)).1)).flag fDZ).takeTrap
        u k (trapOf 0x05 0 0) (nextPc t.pc 4)) ∧
      exec (.rem d a b 1 x) s = .next ((s.modStrand u k fun _ => (t.setX d (extScalar t.ty (rem (scaI t a) 0 (lanes0 t)).1)).flag fDZ).takeTrap
        u k (trapOf 0x05 0 0) (nextPc t.pc 4))) ∧
    (Ready tyInt t → mdDzt t.md = true → (∃ j, j < t.el ∧ t.active j = true ∧ opBI t b x j = 0) →
      (∃ r l, Loop t.w t.active t.el (fun j => quo (elemI t a j) (opBI t b x j)) (t.vreg d) r (lanes0 t) l ∧
        exec (.div d a b 0 x) s = .next ((s.modStrand u k fun _ => (t.setV d r).flag l.flags).takeTrap u k (trapOf 0x05 0 0) (nextPc t.pc 4))) ∧
      (∃ r l, Loop t.w t.active t.el (fun j => rem (elemI t a j) (opBI t b x j)) (t.vreg d) r (lanes0 t) l ∧
        exec (.rem d a b 0 x) s = .next ((s.modStrand u k fun _ => (t.setV d r).flag l.flags).takeTrap u k (trapOf 0x05 0 0) (nextPc t.pc 4))))

/-- R210: logic operations, shifts, rotates and counts over the w raw bits of an element, in both forms. A shift count of w or more gives
zeros, or copies of the sign bit. -/
def Obligations.LogicAndShifts : Prop :=
  ∀ (s : State) (u k : Nat) (g : Group) (t : Strand) (d a b : BitVec 6) (x : BitVec 1), Acts s u k g t →
    let w := t.w
    let shl (p c : Nat) (l : Lanes) : Nat × Lanes := (if w ≤ c then 0 else (p <<< c) % 2 ^ w, l)
    let shr (p c : Nat) (l : Lanes) : Nat × Lanes := (if w ≤ c then 0 else p >>> c, l)
    let shra (p c : Nat) (l : Lanes) : Nat × Lanes := (intWrap w (natSigned w p >>> min c w), l)
    let rol (p c : Nat) (l : Lanes) : Nat × Lanes := ((p <<< (c % w) ||| p >>> (w - c % w)) % 2 ^ w, l)
    let pop (p : Nat) (l : Lanes) : Nat × Lanes := (((List.range w).filter fun n => p.testBit n).length, l)
    let clz (p : Nat) (l : Lanes) : Nat × Lanes := (if p = 0 then w else w - 1 - Nat.log2 p, l)
    (Ready tyBits t →
      VecForm (.and d a b 0 x) s u k t d (fun j l => (elemB t a j &&& t.opB b x j, l)) ∧
      VecForm (.or d a b 0 x) s u k t d (fun j l => (elemB t a j ||| t.opB b x j, l)) ∧
      VecForm (.xor d a b 0 x) s u k t d (fun j l => (elemB t a j ^^^ t.opB b x j, l)) ∧
      VecForm (.andn d a b 0 x) s u k t d (fun j l => (elemB t a j &&& (2 ^ w - 1 - t.opB b x j), l)) ∧
      VecForm (.shl d a b 0 x) s u k t d (fun j => shl (elemB t a j) (t.opB b x j)) ∧
      VecForm (.shr d a b 0 x) s u k t d (fun j => shr (elemB t a j) (t.opB b x j)) ∧
      VecForm (.shra d a b 0 x) s u k t d (fun j => shra (elemB t a j) (t.opB b x j)) ∧
      VecForm (.rol d a b 0 x) s u k t d (fun j => rol (elemB t a j) (t.opB b x j)) ∧
      VecForm (.not d a 0) s u k t d (fun j l => (2 ^ w - 1 - elemB t a j, l)) ∧
      VecForm (.popc d a 0) s u k t d (fun j => pop (elemB t a j)) ∧
      VecForm (.clz d a 0) s u k t d (fun j => clz (elemB t a j))) ∧
    (Typed tyBits t →
      ScalarForm (.and d a b 1 x) s u k t d (fun l => (scaB t a &&& scaB t b, l)) ∧
      ScalarForm (.or d a b 1 x) s u k t d (fun l => (scaB t a ||| scaB t b, l)) ∧
      ScalarForm (.xor d a b 1 x) s u k t d (fun l => (scaB t a ^^^ scaB t b, l)) ∧
      ScalarForm (.andn d a b 1 x) s u k t d (fun l => (scaB t a &&& (2 ^ w - 1 - scaB t b), l)) ∧
      ScalarForm (.shl d a b 1 x) s u k t d (shl (scaB t a) (scaB t b)) ∧
      ScalarForm (.shr d a b 1 x) s u k t d (shr (scaB t a) (scaB t b)) ∧
      ScalarForm (.shra d a b 1 x) s u k t d (shra (scaB t a) (scaB t b)) ∧
      ScalarForm (.rol d a b 1 x) s u k t d (rol (scaB t a) (scaB t b)) ∧
      ScalarForm (.not d a 1) s u k t d (fun l => (2 ^ w - 1 - scaB t a, l)) ∧
      ScalarForm (.popc d a 1) s u k t d (pop (scaB t a)) ∧
      ScalarForm (.clz d a 1) s u k t d (clz (scaB t a)))

/-- R211, R212: the immediate forms. S = 1 works on all 64 bits whatever MD holds; S = 0 is a vector form. LUI and ADPC. -/
def Obligations.Immediates : Prop :=
  ∀ (s : State) (u k : Nat) (g : Group) (t : Strand) (d a : BitVec 6) (i : BitVec 13) (c : BitVec 6) (z : BitVec 20), Acts s u k g t →
    let w := t.w
    (Becomes (.addi d a 1 i) s u k t (t.setX d (t.x a + i.signExtend 64)) ∧
      Becomes (.andi d a 1 i) s u k t (t.setX d (t.x a &&& i.signExtend 64)) ∧
      Becomes (.ori d a 1 i) s u k t (t.setX d (t.x a ||| i.signExtend 64)) ∧
      Becomes (.xori d a 1 i) s u k t (t.setX d (t.x a ^^^ i.signExtend 64)) ∧
      Becomes (.shli d a 1 c) s u k t (t.setX d (t.x a <<< c.toNat)) ∧
      Becomes (.shri d a 1 c) s u k t (t.setX d (t.x a >>> c.toNat)) ∧
      Becomes (.shrai d a 1 c) s u k t (t.setX d ((t.x a).sshiftRight c.toNat)) ∧
      Becomes (.roli d a 1 c) s u k t (t.setX d ((t.x a).rotateLeft c.toNat)) ∧
      Becomes (.lui d z) s u k t (t.setX d (z.signExtend 64 <<< 12)) ∧
      Becomes (.adpc d z) s u k t (t.setX d (t.pc + (z.signExtend 64 <<< 12)))) ∧
    (Ready tyInt t →
      VecForm (.addi d a 0 i) s u k t d (fun j l => fitInt (mdSat t.md) t.ty (elemI t a j + i.toInt) l)) ∧
    (Ready tyBits t →
      VecForm (.andi d a 0 i) s u k t d (fun j l => (elemB t a j &&& intWrap w i.toInt, l)) ∧
      VecForm (.ori d a 0 i) s u k t d (fun j l => (elemB t a j ||| intWrap w i.toInt, l)) ∧
      VecForm (.xori d a 0 i) s u k t d (fun j l => (elemB t a j ^^^ intWrap w i.toInt, l)) ∧
      VecForm (.shli d a 0 c) s u k t d (fun j l => (if w ≤ c.toNat then 0 else (elemB t a j <<< c.toNat) % 2 ^ w, l)) ∧
      VecForm (.shri d a 0 c) s u k t d (fun j l => (if w ≤ c.toNat then 0 else elemB t a j >>> c.toNat, l)) ∧
      VecForm (.shrai d a 0 c) s u k t d (fun j l => (intWrap w (natSigned w (elemB t a j) >>> min c.toNat w), l)) ∧
      VecForm (.roli d a 0 c) s u k t d
        (fun j l => ((elemB t a j <<< (c.toNat % w) ||| elemB t a j >>> (w - c.toNat % w)) % 2 ^ w, l)))

/-- R213: an integer compare gives a mask of the active elements, or 0 or 1 in xD. -/
def Obligations.IntegerCompares : Prop :=
  ∀ (s : State) (u k : Nat) (g : Group) (t : Strand) (d a b : BitVec 6) (x : BitVec 1), Acts s u k g t →
    let mask (i : BitVec 1 → Instr) (p : Int → Int → Bool) : Prop :=
      (Ready tyInt t → ∃ r : Bits1024,
        (∀ j, j < 1024 → r.getLsbD j = if j < t.el ∧ t.guard j = true then p (elemI t a j) (opBI t b x j) else (t.mask d).getLsbD j) ∧
        Becomes (i 0) s u k t (t.setM d r)) ∧
      (Typed tyInt t → Becomes (i 1) s u k t (t.setX d (if p (scaI t a) (scaI t b) then 1 else 0)))
    mask (fun f => .ceq d a b f x) (fun p q => p == q) ∧ mask (fun f => .cne d a b f x) (fun p q => p != q) ∧
    mask (fun f => .clt d a b f x) (fun p q => p < q) ∧ mask (fun f => .cle d a b f x) (fun p q => p ≤ q) ∧
    mask (fun f => .cgt d a b f x) (fun p q => p > q) ∧ mask (fun f => .cge d a b f x) (fun p q => p ≥ q)

/-- R214: operations on masks. They are untyped; where EL counts, it is formed without the shape trap. R215: for each index below EL the forms give what the rule's table says; every other element of vD keeps its bits. -/
def Obligations.MaskAndPermutes : Prop :=
  (∀ (s : State) (u k : Nat) (g : Group) (t : Strand) (d a b : BitVec 6), Acts s u k g t →
     let el := min (if mdSh t.md then t.vrows.toNat * t.vcols.toNat else t.vl.toNat) (8192 / t.w)
     (Becomes (.mand d a b) s u k t (t.setM d (t.mask a &&& t.mask b)) ∧
       Becomes (.mor d a b) s u k t (t.setM d (t.mask a ||| t.mask b)) ∧
       Becomes (.mxor d a b) s u k t (t.setM d (t.mask a ^^^ t.mask b)) ∧
       Becomes (.mandn d a b) s u k t (t.setM d (t.mask a &&& ~~~t.mask b)) ∧
       Becomes (.mnot d a) s u k t (t.setM d (~~~t.mask a)) ∧
       Becomes (.mclr d) s u k t (t.setM d 0) ∧
       Becomes (.mtox d a) s u k t (t.setX d ((t.mask a).setWidth 64)) ∧
       Becomes (.xtom d a) s u k t (t.setM d ((t.x a).setWidth 1024))) ∧
     (mdOk t.md = true →
       (∃ m : Bits1024, (∀ j, m.getLsbD j = decide (j < el)) ∧ Becomes (.mset d) s u k t (t.setM d m)) ∧
       Becomes (.mpopc d a) s u k t (t.setX d (BitVec.ofNat 64 ((List.range el).filter fun j => (t.mask a).getLsbD j).length)) ∧
       (∃ n, n ≤ el ∧ (∀ j, j < n → (t.mask a).getLsbD j = false) ∧ (n = el ∨ (t.mask a).getLsbD n = true) ∧
         Becomes (.mfirst d a) s u k t (t.setX d (BitVec.ofNat 64 n))))) ∧
  (∀ (s : State) (u k : Nat) (g : Group) (t : Strand) (d a b : BitVec 6), Acts s u k g t →
     let A := elemB t a
     let B := elemB t b
     let picked := (List.range t.el).filter t.guard
     let rank (j : Nat) : Nat := ((List.range j).filter t.guard).length
     (Ready (fun _ => true) t →
       PermForm (.sel d a b) s u k t d (fun j => some (if t.guard j then A j else B j)) ∧
       PermForm (.slup d a b) s u k t d (fun j => if t.guard j ∧ (t.x b).toNat ≤ j then some (A (j - (t.x b).toNat)) else none) ∧
       PermForm (.sldn d a b) s u k t d
         (fun j => if t.guard j then some (if j + (t.x b).toNat < t.el then A (j + (t.x b).toNat) else 0) else none) ∧
       PermForm (.vperm d a b) s u k t d (fun j => if t.guard j then some (if B j < t.el then A (B j) else 0) else none) ∧
       PermForm (.compr d a) s u k t d (fun j => (picked[j]?).map A) ∧
       PermForm (.expnd d a) s u k t d (fun j => if t.guard j then some (A (rank j)) else none) ∧
       PermForm (.bcast d b) s u k t d (fun j => if t.guard j then some (scaB t b) else none) ∧
       PermForm (.zip d a b) s u k t d (fun j => if t.guard j then some (if j % 2 = 0 then A (j / 2) else B (j / 2)) else none) ∧
       PermForm (.unzip d a b) s u k t d
         (fun j => if t.guard j then some (if 2 * j < t.el then A (2 * j) else B (2 * j - t.el)) else none)) ∧
     (Ready tyInt t → PermForm (.iota d) s u k t d (fun j => if t.guard j then some j else none)))

/-- R217, R182: an integer reduction combines the active elements, whatever the shape of the tree, and writes a typed scalar result; with no
active element it is the identity. Only RSUM can raise SAT. R239, R182: the floating reductions over the fixed tree; with no active element the result is the identity. -/
def Obligations.Reductions : Prop :=
  (∀ (s : State) (u k : Nat) (g : Group) (t : Strand) (d a : BitVec 6), Acts s u k g t → Ready tyInt t →
     let ints := ((List.range t.el).filter t.active).map (elemI t a)
     let bits := ((List.range t.el).filter t.active).map (elemB t a)
     let sum := fitInt (mdSat t.md) t.ty ints.sum (lanes0 t)
     Becomes (.rsum d a) s u k t ((t.setX d (extScalar t.ty sum.1)).flag sum.2.flags) ∧
     Becomes (.rmin d a) s u k t (t.setX d (extScalar t.ty (intWrap t.w (ints.foldl min (tyMax t.ty))))) ∧
     Becomes (.rmax d a) s u k t (t.setX d (extScalar t.ty (intWrap t.w (ints.foldl max (tyMin t.ty))))) ∧
     Becomes (.rand d a) s u k t (t.setX d (extScalar t.ty (bits.foldl (· &&& ·) (2 ^ t.w - 1)))) ∧
     Becomes (.ror d a) s u k t (t.setX d (extScalar t.ty (bits.foldl (· ||| ·) 0))) ∧
     Becomes (.rxor d a) s u k t (t.setX d (extScalar t.ty (bits.foldl (· ^^^ ·) 0)))) ∧
  (∀ (s : State) (u k : Nat) (g : Group) (t : Strand) (d a : BitVec 6), Acts s u k g t → Ready tyFP t →
     let ft := if t.ty = 11 then 11 else 10
     let rm := mdRound t.md
     let leaves := (List.range t.el).map fun j => if t.active j then some (elemB t a j) else none
     let sumNode (i : Nat) (p q : Val) (l : Lanes) : Val × Lanes :=
       let (z, l1) := l.drawIf rm (i % 32)
       let (c, f) := roundTo (mdSat t.md) rm ft (p.add rm q).1 z
       (decodeVal ft c, { l1 with flags := l1.flags ||| (p.add rm q).2 ||| f })
     let sum := treeReduce sumNode 10 (leaves.map fun o => o.map (decodeVal t.ty)) (lanes0 t)
     let out := roundTo (mdSat t.md) 0 ft (sum.1.getD .zero) 0
     let pick (big : Bool) := treeReduce (fun _ p q (l : Lanes) => ((pickOp t.ty big p q).1, l.raise (pickOp t.ty big p q).2)) 10 leaves (lanes0 t)
     let result (big : Bool) : Nat × BitVec 6 := match (pick big).1 with
       | none => (redIdent t.ty big, 0)
       | some c => pickOp t.ty big c c
     Becomes (.frsum d a) s u k t { (t.setX d (BitVec.ofNat 64 out.1)).flag (sum.2.flags ||| out.2) with gens := sum.2.gens } ∧
     Becomes (.frmin d a) s u k t ((t.setX d (extScalar t.ty (result false).1)).flag ((pick false).2.flags ||| (result false).2)) ∧
     Becomes (.frmax d a) s u k t ((t.setX d (extScalar t.ty (result true).1)).flag ((pick true).2.flags ||| (result true).2)))

/-- R218, R219: vector length, shape, the dirty-map count, the linear index, and the mode register. -/
def Obligations.VectorControl : Prop :=
  ∀ (s : State) (u k : Nat) (g : Group) (t : Strand) (d a b : BitVec 6) (i : BitVec 20), Acts s u k g t →
    let strip (n : Nat) : Strand :=
      { t with sc := BitVec.ofNat 48 n, vl := BitVec.ofNat 11 (min n t.cap) }.setX d (BitVec.ofNat 64 (min n t.cap))
    (mdOk t.md = true →
      Becomes (.vstrip d a) s u k t (strip (min (t.x a).toNat (2 ^ 48 - 1))) ∧
      Becomes (.vnext d) s u k t (strip (t.sc.toNat - t.vl.toNat)) ∧
      Becomes (.getmode d) s u k t (t.setX d (t.md.setWidth 64 ||| (t.st.setWidth 64 <<< 32)))) ∧
    (if (t.x a).toNat ≤ 1024 ∧ (t.x b).toNat ≤ 1024 then
      let vl := BitVec.ofNat 11 (min ((t.x a).toNat * (t.x b).toNat) 1024)
      Becomes (.shape d a b) s u k t ({ t with vrows := (t.x a).setWidth 11, vcols := (t.x b).setWidth 11, vl := vl }.setX d (t.x a * t.x b))
    else ∃ c, c.cause = 0x04 ∧ Traps (.shape d a b) s u k t c) ∧
    Becomes (.vlq d a) s u k t
      (t.setX d (BitVec.ofNat 64 (64 + 1024 * ((List.range 48).filter fun r => t.dm.getLsbD r && (t.x a).getLsbD r).length))) ∧
    Becomes (.dcol d a) s u k t (t.setX d
      (if t.vcols ≠ 0 ∧ (t.x a).toNat < t.vrows.toNat * t.vcols.toNat then
        BitVec.ofNat 64 ((t.x a).toNat % t.vcols.toNat) ||| (BitVec.ofNat 64 ((t.x a).toNat / t.vcols.toNat) <<< 16) ||| (1#64 <<< 31)
      else 0)) ∧
    (if mdOk ((t.x a).setWidth 20) = true then
      Becomes (.setmode a) s u k t { t with md := (t.x a).setWidth 20, st := t.st &&& ~~~(((t.x a) >>> 32).setWidth 6) }
    else ∃ c, c.cause = 0x02 ∧ c.detail = 1 ∧ Traps (.setmode a) s u k t c) ∧
    (if mdOk i = true then Becomes (.setmodeImm i) s u k t { t with md := i }
    else ∃ c, c.cause = 0x02 ∧ c.detail = 1 ∧ Traps (.setmodeImm i) s u k t c)

/-- R220, R221, R223: branches, jumps and LOOP. A branch that is not taken goes on at the next instruction; a jump to an address that is no
instruction address takes the jump-target trap. -/
def Obligations.ControlFlow : Prop :=
  ∀ (s : State) (u k : Nat) (g : Group) (t : Strand) (d a b : BitVec 6) (o : BitVec 10) (f : BitVec 26) (l : BitVec 4), Acts s u k g t →
    let branch (i : Instr) (taken : Prop) : Prop :=
      (taken → JumpsTo i s u k t (t.pc + 4 * o.signExtend 64)) ∧ (¬ taken → Becomes i s u k t t)
    let el := min (if mdSh t.md then t.vrows.toNat * t.vcols.toNat else t.vl.toNat) (8192 / t.w)
    let some1 := ∃ j, j < el ∧ (t.mask a).getLsbD j = true
    let n := t.nest a.toNat
    branch (.beq a b o) (t.x a = t.x b) ∧ branch (.bne a b o) (t.x a ≠ t.x b) ∧
    branch (.blt a b o) ((t.x a).toInt < (t.x b).toInt) ∧ branch (.bge a b o) ((t.x b).toInt ≤ (t.x a).toInt) ∧
    branch (.bltu a b o) ((t.x a).toNat < (t.x b).toNat) ∧ branch (.bgeu a b o) ((t.x b).toNat ≤ (t.x a).toNat) ∧
    (mdOk t.md = true → branch (.bmany a o) some1 ∧ branch (.bmnone a o) (¬ some1)) ∧
    JumpsTo (.j f) s u k t (t.pc + 4 * f.signExtend 64) ∧
    JumpsTo (.jal f) s u k (t.setX 47 (t.pc + 4)) (t.pc + 4 * f.signExtend 64) ∧
    (if (t.x a).toNat % 4 = 0 ∧ (t.x a).toNat < 2 ^ 57 then
      JumpsTo (.jr a) s u k t (t.x a) ∧ JumpsTo (.jalr d a) s u k (t.setX d (t.pc + 4)) (t.x a)
    else Traps (.jr a) s u k t (trapOf 0x06 0 (t.x a)) ∧ Traps (.jalr d a) s u k t (trapOf 0x06 0 (t.x a))) ∧
    (if nestCnt n l.toNat = 0 then Becomes (.loop l a o) s u k t t
    else JumpsTo (.loop l a o) s u k (t.setN a.toNat (nestSetCnt n l.toNat (nestCnt n l.toNat - 1))) (t.pc + 4 * o.signExtend 64))

/-! ## Floating-point and narrow formats -/

/-- R227, R228: FADD, FSUB, FMUL, FDIV and FSQRT round the exact result once, in MD.Round, with the flags of the operation and of the rounding;
under l6 FMUL is the log product. -/
def Obligations.FloatArithmetic : Prop :=
  ∀ (s : State) (u k : Nat) (g : Group) (t : Strand) (d a b : BitVec 6) (x : BitVec 1), Acts s u k g t →
    let v := decodeVal t.ty
    let rm := mdRound t.md
    let form (i : BitVec 1 → Instr) (b : BitVec 6) (x : BitVec 1) (r : Nat → Nat → Val × BitVec 6) : Prop :=
      FloatForms tyFP i s u k t d a b x fun lane _ p q l =>
        let (z, l1) := l.drawIf rm lane
        let (c, f) := roundTo (mdSat t.md) rm t.ty (r p q).1 z
        (c, { l1 with flags := l1.flags ||| (r p q).2 ||| f })
    form (fun f => .fadd d a b f x) b x (fun p q => (v p).add rm (v q)) ∧
    form (fun f => .fsub d a b f x) b x (fun p q => (v p).add rm (v q).neg) ∧
    form (fun f => .fmul d a b f x) b x (fun p q => if t.ty = 14 then (logProduct p q, 0) else (v p).mul (v q)) ∧
    form (fun f => .fdiv d a b f x) b x (fun p q => (v p).div (v q)) ∧
    form (fun f => .fsqrt d a f) 0 0 (fun p _ => (v p).sqrt)

/-- R232: a fused form rounds the product and the sum once. -/
def Obligations.FusedMultiplyAdd : Prop :=
  ∀ (s : State) (u k : Nat) (g : Group) (t : Strand) (d a b : BitVec 6) (x : BitVec 1), Acts s u k g t →
    let v := decodeVal t.ty
    let rm := mdRound t.md
    let form (i : BitVec 1 → Instr) (p d' : Val → Val) : Prop :=
      FloatForms tyFP i s u k t d a b x fun lane old m n l =>
        let prod := if t.ty = 14 then (logProduct m n, 0) else (v m).mul (v n)
        let sum := (p prod.1).add rm (d' (v old))
        let (z, l1) := l.drawIf rm lane
        let (c, f) := roundTo (mdSat t.md) rm t.ty sum.1 z
        (c, { l1 with flags := l1.flags ||| prod.2 ||| sum.2 ||| f })
    form (fun f => .fma d a b f x) id id ∧ form (fun f => .fms d a b f x) id Val.neg ∧
    form (fun f => .fnma d a b f x) Val.neg id ∧ form (fun f => .fnms d a b f x) Val.neg Val.neg

/-- R230, R231: FMIN and FMAX copy the chosen operand or give the canonical NaN; FABS and FNEG change the sign bit alone and raise no flag; an l6 zero is
written as zero, and the bits above an l6 code are written as zeros (R124, notes/assumptions/82.md). R235, R236: the ordered and unordered compares, with NV
as the rule says, and the class code. -/
def Obligations.FloatSignsAndCompares : Prop :=
  (∀ (s : State) (u k : Nat) (g : Group) (t : Strand) (d a b : BitVec 6) (x : BitVec 1), Acts s u k g t →
     let v := decodeVal t.ty
     let zero (c : Nat) : Nat := if t.ty = 14 then (if c % 32 = 0 then 0 else c % 64) else c
     let less (p q : Val) : Prop := p.cmp q = some .lt ∨ (∃ e f, p = .fin true 0 e ∧ q = .fin false 0 f)
     let pick (p q : Nat) (l : Lanes) (r : Nat × Lanes) (first : Prop) : Prop :=
       if (v p).isNan = true ∨ (v q).isNan = true then
         r = (canonicalNan t.ty, if (v p).isSig = true ∨ (v q).isSig = true then { l with flags := l.flags ||| fNV } else l)
       else (first → r = (zero p, l)) ∧ (¬ first → r = (zero q, l))
     (∃ op : Nat → Nat → Lanes → Nat × Lanes, (∀ p q l, pick p q l (op p q l) (¬ less (v q) (v p))) ∧
       FloatForms tyFP (fun f => .fmin d a b f x) s u k t d a b x (fun _ _ p q l => op p q l)) ∧
     (∃ op : Nat → Nat → Lanes → Nat × Lanes, (∀ p q l, pick p q l (op p q l) (¬ less (v p) (v q))) ∧
       FloatForms tyFP (fun f => .fmax d a b f x) s u k t d a b x (fun _ _ p q l => op p q l)) ∧
     FloatForms tyFP (fun f => .fabs d a f) s u k t d a 0 0 (fun _ _ p _ l => (if t.ty = 14 then p % 32 else p % 2 ^ (t.w - 1), l)) ∧
     FloatForms tyFP (fun f => .fneg d a f) s u k t d a 0 0
       (fun _ _ p _ l => (if t.ty = 14 then zero (p ^^^ 32) else p ^^^ 2 ^ (t.w - 1), l))) ∧
  (∀ (s : State) (u k : Nat) (g : Group) (t : Strand) (d a b : BitVec 6) (x : BitVec 1), Acts s u k g t →
     let v := decodeVal t.ty
     let cmp (i : BitVec 1 → Instr) (p : Ordering → Bool) (unordered nan : Bool) : Prop :=
       let op (m n : Nat) (l : Lanes) : Bool × Lanes :=
         match (v m).cmp (v n) with
         | some o => (p o, l)
         | none => (unordered, if nan = true ∨ (v m).isSig = true ∨ (v n).isSig = true then { l with flags := l.flags ||| fNV } else l)
       (Ready tyFP t → MaskForm (i 0) s u k t d fun j => op (elemB t a j) (t.opB b x j)) ∧
       (Typed tyFP t → t.ty ≠ 11 → Becomes (i 1) s u k t
         ((t.setX d (if (op (scaB t a) (scaB t b) (lanes0 t)).1 then 1 else 0)).flag (op (scaB t a) (scaB t b) (lanes0 t)).2.flags))
     let subnormal (p : Nat) : Prop := t.ty ≠ 14 ∧ p % 2 ^ (t.w - 1) < 2 ^ mBits t.ty
     cmp (fun f => .fceq d a b f x) (fun o => o == .eq) false false ∧ cmp (fun f => .fcne d a b f x) (fun o => o != .eq) true false ∧
     cmp (fun f => .fclt d a b f x) (fun o => o == .lt) false true ∧ cmp (fun f => .fcle d a b f x) (fun o => o != .gt) false true ∧
     cmp (fun f => .fcun d a b f x) (fun _ => false) true false ∧
     (∃ code : Nat → Nat, (∀ p, match v p with
         | .nan true => code p = 8
         | .nan false => code p = 9
         | .inf neg => code p = if neg then 0 else 7
         | .fin neg 0 _ => code p = if neg then 3 else 4
         | .fin neg _ _ => (subnormal p → code p = if neg then 2 else 5) ∧ (¬ subnormal p → code p = if neg then 1 else 6)) ∧
       FloatForms tyFP (fun f => .fclass d a f) s u k t d a 0 0 (fun _ _ p _ l => (code p, l))))

/-- R233, R234: FRCP, FRSQ, FEXP2, FLOG2 and FTANH complete on every operand of a floating or l6 type but f64, in both forms, and draw nothing.
The operands of R234 have their fixed results; FRCP of any other finite operand is the exact reciprocal or one of its two neighbours (R233). Elsewhere the
result is the free choice of the model's operation within the bound of R233 (notes/assumptions/20.md). -/
def Obligations.ApproximateFunctions : Prop :=
  ∀ (s : State) (u k : Nat) (g : Group) (t : Strand) (d a : BitVec 6), Acts s u k g t →
    let ok (ty : Nat) : Bool := tyFP ty && ty != 11
    let form (i : BitVec 1 → Instr) (n : Nat) : Prop :=
      FloatForms ok i s u k t d a 0 0 fun _ _ p _ l =>
        ((approxOp n (mdSat t.md) t.ty p).1, { l with flags := l.flags ||| (approxOp n (mdSat t.md) t.ty p).2 })
    let completes (i : BitVec 1 → Instr) : Prop :=
      (Ready ok t → ∃ (r : VReg) (f : BitVec 6), exec (i 0) s = .next (s.modStrand u k fun _ => { (t.setV d r).flag f with pc := nextPc t.pc 4 })) ∧
      (Typed ok t → ∃ (c : Nat) (f : BitVec 6),
        exec (i 1) s = .next (s.modStrand u k fun _ => { (t.setX d (extScalar t.ty c)).flag f with pc := nextPc t.pc 4 }))
    let fixed (n : Nat) (v : Val) : Option (Val × BitVec 6) :=
      match n, v with
      | _, .nan sig => some (.nan sig, 0)
      | 0, .fin neg 0 _ => some (.inf neg, fDZ)
      | 0, .inf neg => some (.fin neg 0 0, 0)
      | 1, .fin neg 0 _ => some (.inf neg, fDZ)
      | 1, .fin true _ _ => some (.nan false, fNV)
      | 1, .inf neg => some (if neg then (.nan false, fNV) else (.fin false 0 0, 0))
      | 2, .inf neg => some (if neg then .fin false 0 0 else .inf false, 0)
      | 3, .fin _ 0 _ => some (.inf true, fDZ)
      | 3, .fin true _ _ => some (.nan false, fNV)
      | 3, .inf neg => some (if neg then (.nan false, fNV) else (.inf false, 0))
      | 4, .fin neg 0 _ => some (.fin neg 0 0, 0)
      | 4, .inf neg => some (.fin neg 1 0, 0)
      | _, _ => none
    (form (fun f => .frcp d a f) 0 ∧ form (fun f => .frsq d a f) 1 ∧ form (fun f => .fexp2 d a f) 2 ∧
      form (fun f => .flog2 d a f) 3 ∧ form (fun f => .ftanh d a f) 4) ∧
    (completes (fun f => .frcp d a f) ∧ completes (fun f => .frsq d a f) ∧ completes (fun f => .fexp2 d a f) ∧
      completes (fun f => .flog2 d a f) ∧ completes (fun f => .ftanh d a f)) ∧
    (∀ (sat : Bool) (ty n p : Nat) (v : Val) (f : BitVec 6), ok ty = true → n < 5 → fixed n (decodeVal ty p) = some (v, f) →
      approxOp n sat ty p = ((roundTo sat 0 ty v 0).1, (roundTo sat 0 ty v 0).2 ||| f)) ∧
    (∀ (sat : Bool) (ty p m : Nat) (neg : Bool) (e : Int), ok ty = true → decodeVal ty p = .fin neg m e → m ≠ 0 →
      ∃ rm, (rm = 6 ∨ rm = 7) ∧ approxOp 0 sat ty p = roundToF sat rm 0 ty (stickyDiv neg 1 m (-e)) 0)

/-- R237, R238: CVT to every type but f64, in both forms, and RINT. CVT to f64, and a scalar form under f64, take the illegal-mode trap with detail 3 (R125,
R226, R334). -/
def Obligations.Conversions : Prop :=
  ∀ (s : State) (u k : Nat) (g : Group) (t : Strand) (d a : BitVec 6) (y : BitVec 5), Acts s u k g t → mdOk t.md = true →
    let op (lane n : Nat) (l : Lanes) : Nat × Lanes :=
      let (z, l1) := l.drawIf (mdRound t.md) lane
      let (c, f) := convert (mdSat t.md) (mdRound t.md) t.ty y.toNat n z
      (c, { l1 with flags := l1.flags ||| f })
    (y ≠ 11 → t.ty ≠ 11 → Becomes (.cvt d a y 1) s u k t
      { (t.setX d (extScalar y.toNat (op 0 (scaB t a) (lanes0 t)).1)).flag (op 0 (scaB t a) (lanes0 t)).2.flags with
        gens := (op 0 (scaB t a) (lanes0 t)).2.gens }) ∧
    (y ≠ 11 → t.shapeBad = false → (mdSh t.md = true → t.el ≤ tyCap y.toNat) →
      ∃ r l, Loop (tyWidth y.toNat) t.active (min t.el (tyCap y.toNat)) (fun j => op (laneOf t.w j) (elemB t a j)) (t.vreg d) r (lanes0 t) l ∧
        Becomes (.cvt d a y 0) s u k t { (t.setV d r).flag l.flags with gens := l.gens }) ∧
    (y = 11 ∨ t.ty = 11 → Traps (.cvt d a y 1) s u k t (trapOf 0x02 3 (t.md.setWidth 64))) ∧
    (y = 11 → Traps (.cvt d a y 0) s u k t (trapOf 0x02 3 (t.md.setWidth 64))) ∧
    (y ≠ 11 → t.shapeBad = false → mdSh t.md = true → tyCap y.toNat < t.el →
      Traps (.cvt d a y 0) s u k t (trapOf 0x04 0 (BitVec.ofNat 64 t.area))) ∧
    FloatForms tyFloat (fun f => .rint d a f) s u k t d a 0 0 (fun lane _ p _ l =>
      let (z, l1) := l.drawIf (mdRound t.md) lane
      match decodeVal t.ty p with
      | .nan sig => (canonicalNan t.ty, if sig then { l1 with flags := l1.flags ||| fNV } else l1)
      | .inf _ => (p, l1)
      | .fin neg n e =>
        if n = 0 ∨ 0 ≤ e then (p, l1)
        else
          let (q, nx) := roundAt (mdRound t.md) neg n e 0 z
          let (c, f) := roundTo (mdSat t.md) 0 t.ty (.fin neg q 0) 0
          (c, { l1 with flags := l1.flags ||| (if nx then fNX else 0) ||| f }))

/-- R240 to R243: the quantiser forms under a scale word PW that names a narrow format. QSCALE writes PW, zeros and a block code for each block of
32 elements; a bad PW takes the illegal-mode trap, detail 4. -/
def Obligations.Quantiser : Prop :=
  ∀ (s : State) (u k : Nat) (g : Group) (t : Strand) (d a b : BitVec 6), Acts s u k g t → Ready tyQuant t →
    let pw := t.x b
    let fq := pw.toNat % 32
    let sb : BitVec 8 := (pw >>> 8).setWidth 8
    let good := 12 ≤ fq ∧ fq ≤ 15 ∧ pw.toNat / 32 % 8 = 0 ∧ pw.toNat < 2 ^ 16
    let scale (j : Nat) := elem 8 (t.vreg b) (64 + j / 32)
    let v (j : Nat) : Val := if t.active j then decodeVal t.ty (elemB t a j) else .zero
    let blocks := (t.el + 31) / 32
    (good →
      (∃ r : VReg, (∀ m, m < 1024 → elem 8 r m =
          if m < 8 then pw.toNat / 2 ^ (8 * m) % 256
          else if m < 64 then 0
          else if m < 64 + blocks then quantSearch fq sb ((List.range 32).map fun i => v (32 * (m - 64) + i)) % 256
          else if m < 80 then 0
          else elem 8 (t.vreg d) m) ∧
        Becomes (.qscale d a b) s u k t (t.setV d r)) ∧
      (∃ r l, Loop 8 t.active t.el (fun j l =>
          let (z, l1) := l.drawIf (mdRound t.md) (laneOf t.w j)
          let (c, f) := if scale j = 0xFF then nanBlockCode fq
            else roundTo true (mdRound t.md) fq ((decodeVal t.ty (elemB t a j)).scale (-(blockExp (scale j) sb))) z
          (c, { l1 with flags := l1.flags ||| f })) (t.vreg d) r (lanes0 t) l ∧
        Becomes (.qpack d a b) s u k t { (t.setV d r).flag l.flags with gens := l.gens }) ∧
      VecForm (.qunpk d a b) s u k t d (fun j l =>
        let (z, l1) := l.drawIf (mdRound t.md) (laneOf t.w j)
        let p := elem 8 (t.vreg a) j
        let v := if scale j = 0xFF then Val.nan false else (decodeVal fq p).scale (blockExp (scale j) sb)
        let (c, f) := roundTo (mdSat t.md) (mdRound t.md) t.ty v z
        (c, { l1 with flags := l1.flags ||| readFlag fq p ||| f }))) ∧
    (¬ good → Traps (.qscale d a b) s u k t (trapOf 0x02 4 pw) ∧ Traps (.qpack d a b) s u k t (trapOf 0x02 4 pw) ∧
      Traps (.qunpk d a b) s u k t (trapOf 0x02 4 pw))

/-! ## Memory instructions -/

/-- R247, R255: LD, ST and the atomics locate one aligned element of MD.Type and put the operation in flight: KL rises for a register to come, KS for a write,
the DM bit of a load's destination is set. A misaligned address takes the alignment trap. That an atomic is located, and its misalignment reported, as a write
is deduced (notes/assumptions/23.md). -/
def Obligations.ScalarMemory : Prop :=
  ∀ (s s1 : State) (u k : Nat) (g : Group) (t : Strand) (d a b : BitVec 6) (m : BitVec 3) (r : BitVec 1) (p : BitVec 2) (o : BitVec 8) (pa : Nat),
    Acts s u k g t →
    let z := t.w / 8
    let va := t.x a + BitVec.ofInt 64 (o.toInt * z)
    let kl (t : Strand) : Strand := { t with kl := t.kl + 1, dm := t.dm ||| BitVec.ofNat 48 (2 ^ d.toNat) }
    let rs (va : Word) : List Range := [{ sp := .virt g.cid, lo := va.toNat, hi := va.toNat + z }]
    let item : LoadItem := { loc := .phys pa, va := va.toNat, bytes := z, shift := 0, width := t.w, out := 64, sx := tySigned t.ty, dst := .scalar d.toNat }
    let run : StoreItem := { loc := .phys pa, va := va.toNat, data := leBytes z (t.x d).toNat, mask := List.replicate z 0xFF }
    let atomic (i : Instr) (fn : AtomicFn) : Prop :=
      Issues i s u k t ((s1.pushOp u k g.cid (Way.mem p m) (.atomic fn (BitVec.ofNat 5 t.ty) (.phys pa) z (t.x b) (t.x d) d) (rs (t.x a)) (rs (t.x a)) []).modStrand
        u k fun t => { kl t with ks := t.ks + 1 })
    let misaligned (i : Instr) (kind : Acc) (va : Word) : Prop :=
      Traps i s u k t { cause := 0x07, detail := 0, acc := kind.code, async := false, tval := va }
    (Typed tyBits t → s.locateEl (.core g.core) g.cid .read z va = (.ok pa, s1) →
      Issues (.ld d a m r p o) s u k t ((s1.pushOp u k g.cid (Way.mem p m) (.load [item] (r == 1#1)) (rs va) [] []).modStrand u k kl)) ∧
    (Typed tyBits t → s.locateEl (.core g.core) g.cid .write z va = (.ok pa, s1) →
      Issues (.st d a m p o) s u k t ((s1.pushOp u k g.cid (Way.mem p m) (.store [run]) (rs va) (rs va) []).modStrand u k fun t => { t with ks := t.ks + 1 })) ∧
    (Typed tyInt t → s.locateEl (.core g.core) g.cid .write z (t.x a) true = (.ok pa, s1) →
      atomic (.aadd d a m p b) .add ∧ atomic (.amin d a m p b) .min ∧ atomic (.amax d a m p b) .max ∧ atomic (.aand d a m p b) .and ∧
      atomic (.aor d a m p b) .or ∧ atomic (.axor d a m p b) .xor ∧ atomic (.aswp d a m p b) .swp ∧ atomic (.acas d a m p b) .cas) ∧
    (Typed tyBits t → va.toNat % z ≠ 0 → misaligned (.ld d a m r p o) .read va ∧ misaligned (.st d a m p o) .write va) ∧
    (Typed tyInt t → (t.x a).toNat % z ≠ 0 → misaligned (.aadd d a m p b) .write (t.x a) ∧ misaligned (.acas d a m p b) .write (t.x a))

/-- R249 to R251: the vector transfers locate every active element from the one that VS names, in ascending order, and put one operation in
flight for them all; VS is cleared. R250: at an element that faults by a trap, VS names it, and the elements before it are in flight. R248: PREF changes no register and no memory; it goes on whether its address translates or not, and a translation that succeeds may stand in
the state as any translation leaves it, with the line passing through the caches (R141). -/
def Obligations.VectorMemory : Prop :=
  (∀ (s s1 : State) (u k : Nat) (g : Group) (t : Strand) (d a b : BitVec 6) (m : BitVec 3) (r : BitVec 1) (p : BitVec 2) (o : BitVec 8)
     (els : List (Nat × Nat × Nat)) (flt : Option (Nat × AccFault)), Acts s u k g t →
     let z := t.w / 8
     let packed := t.ty = 15
     let unit (j : Nat) : Word :=
       if packed then t.x a + BitVec.ofInt 64 o.toInt + BitVec.ofNat 64 (j / 4) else t.x a + BitVec.ofInt 64 (o.toInt * z) + BitVec.ofNat 64 (j * z)
     let stride (j : Nat) : Word := t.x a + BitVec.ofNat 64 j * t.x b
     let index (j : Nat) : Word := t.x a + BitVec.ofInt 64 (natSigned t.w (elemB t b j) * z)
     let located (kind : Acc) (addr : Nat → Word) : Prop :=
       locateLoop (.core g.core) g.cid kind z t.active addr (t.el - t.vsStart) t.vsStart s [] = (s1, els, flt)
     let rs := rangesOf (.virt g.cid) z (els.map fun e => e.2.1)
     let loaded (width : Nat) (shift : Nat → Nat) (ro : Bool) : State :=
       s1.pushOp u k g.cid (Way.vec p m) (.load (els.map fun e =>
         ({ loc := .phys e.2.2, va := e.2.1, bytes := z, shift := shift e.1, width := width, out := t.w, sx := false, dst := .vec d.toNat (t.w * e.1) t.w } : LoadItem)) ro) rs [] []
     let stored (packed : Bool) : State :=
       s1.pushOp u k g.cid (Way.vec p m) (.store (els.map fun e =>
         (if packed then { loc := .phys e.2.2, va := e.2.1, data := [BitVec.ofNat 8 (elem 8 (t.vreg d) e.1 % 4 * 2 ^ (2 * (e.1 % 4)))], mask := [BitVec.ofNat 8 (3 * 2 ^ (2 * (e.1 % 4)))] }
         else { loc := .phys e.2.2, va := e.2.1, data := leBytes z (elemB t d e.1), mask := List.replicate z 0xFF } : StoreItem))) rs rs []
     let load (i : Instr) (s' : State) : Prop :=
       match flt with
       | none => Issues i s u k t (s'.modStrand u k fun t => { t.issueLoad d with vs := 0 })
       | some (j, f) => ∀ c e, f.what = .trap c e →
           exec i s = .next ((s'.modStrand u k fun v => { v.issueLoad d with vs := t.vsAt j }).takeTrap u k f.trap t.pc)
     let store (i : Instr) (s' : State) : Prop :=
       match flt with
       | none => Issues i s u k t (s'.modStrand u k fun t => { t.issueStore with vs := 0 })
       | some (j, f) => ∀ c e, f.what = .trap c e →
           exec i s = .next ((s'.modStrand u k fun v => { v.issueStore with vs := t.vsAt j }).takeTrap u k f.trap t.pc)
     (Ready (fun ty => ty != 14) t →
       (located .read unit → load (.vld d a m r p o) (loaded (if packed then 2 else t.w) (fun j => if packed then 2 * (j % 4) else 0) (r == 1#1))) ∧
       (located .write unit → store (.vst d a m p o) (stored (decide packed)))) ∧
     (Ready tyBits t →
       (located .read stride → load (.vlds d a m r p b) (loaded t.w (fun _ => 0) (r == 1#1))) ∧
       (located .read index → load (.vldi d a m r p b) (loaded t.w (fun _ => 0) (r == 1#1))) ∧
       (located .write stride → store (.vsts d a m p b) (stored false)) ∧
       (located .write index → store (.vsti d a m p b) (stored false)))) ∧
  (∀ (s : State) (u k : Nat) (g : Group) (t : Strand) (a : BitVec 6) (m : BitVec 3) (p : BitVec 2) (o : BitVec 8), Acts s u k g t →
     ∃ s', (s' = s ∨ m ≠ 7 ∧ ∃ pa s1, s.translate (.core g.core) g.cid (t.x a + BitVec.ofInt 64 (o.toInt * 128)) .read = (.ok pa, s1) ∧
         s' = s1.cacheSpan (.load g.core 0 m) g.cid 0 pa 1) ∧
       Issues (.pref a m p o) s u k t s')

/-- R252, R253: tile transfers under a tensor entry of MD's format, and typed-buffer transfers within the partition, of the code bits of each element alone (R124). R259: TSHAPE grants the largest reduction length whose panels fit the partitions, cut to whole chunks and to the request; an invalid request
and a stack core get 0. It never traps. -/
def Obligations.TileAndBuffer : Prop :=
  (∀ (s s1 : State) (u k : Nat) (g : Group) (t : Strand) (d a f : BitVec 6) (b : BitVec 2) (w : List Word) (els : List (Nat × Nat × Nat))
     (ofs : List (Nat × Nat)), Acts s u k g t → Ready (fun _ => true) t →
     let z := t.w / 8
     let xa := t.x a
     let place (j : Nat) : Word × Nat := (tileAddr t w xa j).getD (0, 0)
     let located (kind : Acc) : Prop :=
       locateLoop (.core g.core) g.cid kind z (fun j => t.active j && (tileAddr t w xa j).isSome) (fun j => (place j).1) (t.el - t.vsStart) t.vsStart s [] = (s1, els, none)
     let rs := spanOf (.virt g.cid) z (els.map fun e => e.2.1)
     let zero (j : Nat) : LoadItem := { loc := .phys 0, va := 0, bytes := 0, shift := 0, width := t.w, out := t.w, sx := false, dst := .vec d.toNat (t.w * j) t.w }
     let load (e : Nat × Nat × Nat) : LoadItem :=
       { loc := .phys e.2.2, va := e.2.1, bytes := z, shift := (place e.1).2, width := if t.ty = 15 then 2 else t.w, out := t.w, sx := false, dst := .vec d.toNat (t.w * e.1) t.w }
     let loads := ((List.range t.el).filter fun j => decide (t.vsStart ≤ j) && t.active j).map fun j =>
       if (tileAddr t w xa j).isSome = true then ((els.find? fun e => e.1 == j).map load).getD (zero j) else zero j
     let runs := els.map fun e => vecStore.storeItem t d z (place e.1).2 e.1 e.2.1 (.phys e.2.2)
     let buf := if b = 0 then Buf.w else if b = 1 then .a else .c
     let code := if t.ty = 14 then 6 else if t.ty = 15 then 2 else t.w
     let within (kind : Acc) : Prop := bufLoop kind buf z (s.partSize g buf) t.active xa (t.el - t.vsStart) t.vsStart [] = (ofs, none)
     let brs := rangesOf (.buf u buf) z (ofs.map fun e => e.2)
     ((g.entry f.toNat).bound = true → (g.entry f.toNat).words = w → entLayout w = 0 → entFmt w = t.ty → t.ty ≠ 14 →
       (located .read → Issues (.tld d a f) s u k t (((s1.pushLock s1.fresh u k rs []).pushOp u k g.cid (Way.tile (entVer w)) (.load loads false) rs [] []).modStrand
         u k fun t => { t.issueLoad d with vs := 0 })) ∧
       (located .write → Issues (.tst d a f) s u k t (((s1.pushLock s1.fresh u k [] rs).pushOp u k g.cid (Way.tile (entVer w)) (.store (sortRuns runs)) rs rs []).modStrand
         u k fun t => { t.issueStore with vs := 0 }))) ∧
     (¬ (isStackCore g.core = true ∧ b = 0) →
       (within .read → Issues (.bld d a b) s u k t ((s.pushOp u k g.cid Way.group (.load (ofs.map fun e =>
         ({ loc := .buf buf e.2, va := e.2, bytes := z, shift := 0, width := code, out := t.w, sx := false, dst := .vec d.toNat (t.w * e.1) t.w } : LoadItem)) false) brs [] []).modStrand
         u k fun t => { t.issueLoad d with vs := 0 })) ∧
       (within .write → Issues (.bst d a b) s u k t ((s.pushOp u k g.cid Way.group (.store (ofs.map fun e =>
         ({ loc := .buf buf e.2, va := e.2, data := leBytes z (elemB t d e.1 % 2 ^ code), mask := List.replicate z 0xFF } : StoreItem))) brs brs []).modStrand
         u k fun t => { t.issueStore with vs := 0 }))) ∧
     (isStackCore g.core = true → b = 0 → Traps (.bld d a b) s u k t (trapOf 0x0D 0 0) ∧ Traps (.bst d a b) s u k t (trapOf 0x0D 0 0))) ∧
  (∀ (s : State) (u k : Nat) (g : Group) (t : Strand) (d a : BitVec 6), Acts s u k g t →
     let q := (t.x a).toNat
     let m := q % 2 ^ 16
     let n := q / 2 ^ 16 % 2 ^ 16
     let len := q / 2 ^ 32 % 2 ^ 16
     let kind := q / 2 ^ 48 % 4
     let sc := q / 2 ^ 50 % 2
     let pitch (x : Nat) : Nat := (x * (if kind = 1 then 2 else 1) + (if sc = 1 then (x + 31) / 32 else 0) + 31) / 32 * 32
     let chunk := if kind = 1 then 16 else 32
     let fits (x : Nat) : Prop := x ≤ 16384 ∧ min m 192 * pitch x ≤ s.partSize g .a / 4096 * 4096 ∧ min n 256 * pitch x ≤ s.partSize g .w / 4096 * 4096
     (isStackCore g.core = true ∨ kind = 3 ∨ sc = 1 ∧ kind = 1 ∨ q / 2 ^ 51 ≠ 0 ∨ m = 0 ∨ n = 0 ∨ len = 0 → Becomes (.tshape d a) s u k t (t.setX d 0)) ∧
     (¬ (isStackCore g.core = true ∨ kind = 3 ∨ sc = 1 ∧ kind = 1 ∨ q / 2 ^ 51 ≠ 0 ∨ m = 0 ∨ n = 0 ∨ len = 0) →
       ∀ kf, fits kf → (∀ x, fits x → x ≤ kf) →
         let kg := min len (if chunk ≤ kf then chunk * (kf / chunk) else kf)
         Becomes (.tshape d a) s u k t (t.setX d (if kg = 0 then 0 else
           BitVec.ofNat 64 (min m 192 + 2 ^ 9 * min n 256 + 2 ^ 18 * kg + 2 ^ 34 * pitch kg + 2 ^ 50 * (s.partSize g .c / 4096 / 48))))))

/-- R254, R134: VSPILL writes a header with the map of the selected dirty registers, then those registers; VFILL reads the registers that a
header names. Both complete wherever their pages translate; a misaligned address takes the alignment trap. -/
def Obligations.Spills : Prop :=
  ∀ (s s1 s2 : State) (u k : Nat) (g : Group) (t : Strand) (d a : BitVec 6) (pa : Nat) (runs : List (Nat × Nat × Nat)), Acts s u k g t →
    let va := (t.x a).toNat
    let regs (m : Nat) := (List.range 48).filter fun r => m.testBit r
    let size (m : Nat) := 64 + 1024 * (regs m).length
    let map := (t.dm &&& (t.x d).setWidth 48).toNat
    let image := leBytes 64 map ++ (regs map).flatMap fun r => leBytes 1024 (t.v.getD r 0).toNat
    let span (m : Nat) : List Range := [{ sp := .virt g.cid, lo := va, hi := va + size m }]
    let spilled : List StoreItem := runs.map fun e =>
      { loc := .phys e.2.1, va := e.1, data := (image.drop (e.1 - va)).take e.2.2, mask := List.replicate e.2.2 0xFF }
    let filled (m : Nat) : List LoadItem := (List.range (regs m).length).flatMap fun j => (runsAt runs (va + 64 + 1024 * j) 1024).map fun e =>
      { loc := .phys e.2.1, va := e.1, bytes := e.2.2, shift := 0, width := 8 * e.2.2, out := 8 * e.2.2, sx := false,
        dst := .vec ((regs m).getD j 0) (8 * (e.1 - (va + 64 + 1024 * j))) (8 * e.2.2) }
    (va % 64 = 0 → probeLoop (.core g.core) g.cid .write 16 va (size map) s [] = (.ok runs, s1) →
      exec (.vspill d a) s = .next ((s1.pushOp u k g.cid Way.spill (.store spilled) (span map) (span map) []).modStrand u k
        fun t' => { t'.issueStore with pc := nextPc t.pc 4 })) ∧
    (va % 64 = 0 → s.locate (.core g.core) g.cid (t.x a) .read = (.ok pa, s1) → s1.uncorrectable pa = false →
      let hdr := (s1.cacheSpan (.load g.core 0 6) g.cid 0 pa 6).readPlace g 0 false (.phys pa) 6
      let m := leNat hdr.1
      probeLoop (.core g.core) g.cid .read 16 va (size m) (hdr.2.countUnsealed g.cid (.phys pa)) [] = (.ok runs, s2) →
      exec (.vfill a) s = .next ((s2.pushOp u k g.cid Way.spill (.load (filled m) false) (span m) [] []).modStrand u k
        fun t' => { t' with kl := t'.kl + 1, dm := t'.dm ||| BitVec.ofNat 48 m, pc := nextPc t.pc 4 })) ∧
    (va % 64 ≠ 0 →
      Traps (.vspill d a) s u k t { cause := 0x07, detail := 0, acc := 3, async := false, tval := t.x a } ∧
      Traps (.vfill a) s u k t { cause := 0x07, detail := 0, acc := 2, async := false, tval := t.x a })

/-- R117, R156: a byte written under a key and a version reads back under them, in every memory in its canonical form; a byte that is not written and
was written under them before, or never, reads under them as it read before the write, and so does every byte of a 16-byte block in which nothing is
written. An address that names a written sector through another POOL window (R407) is not meant: its tweak is another. -/
def Obligations.MemoryReadAfterWrite : Prop :=
  ∀ (s : State) (key : BitVec 512) (ver : BitVec 32) (pa a : Nat) (xs : List Byte), s.mem.wf = true →
    (pa ≤ a → a < pa + xs.length → (∀ x, pa ≤ x → x < pa + xs.length → s.homeOf x / 32 = s.homeOf a / 32 → x / 32 = a / 32) →
      (s.writeBytes key ver pa xs).readByte key ver a = xs.getD (a - pa) 0) ∧
    (¬ (pa ≤ a ∧ a < pa + xs.length) → KeepsByte s key ver pa xs.length a → (s.writeBytes key ver pa xs).readByte key ver a = s.readByte key ver a)

/-- R143 to R147: the completion of a load of one element from device memory writes the element to its scalar register and lowers KL; of a
store of one run, it writes the run's bytes, under the context's key and the operation's version, and lowers KS; the operation is gone. No byte
but the stored ones changes, as MemoryReadAfterWrite says. An operation that is held back by an earlier one does nothing yet. R155, R255: an atomic's completion reads the old value once, writes the new one unless ACAS finds another value, gives the old value to
xD, typed, and lowers KL and KS. -/
def Obligations.LoadStoreCompletion : Prop :=
  (∀ (s : State) (n pa z : Nat) (o : Op) (g : Group) (t : Strand) (d : Nat) (w : Nat) (sx : Bool) (xs : List Byte) (va : Nat),
     s.mem.wf = true → s.op? n = some o → s.group? o.guid = some g → s.strand? o.guid o.strand = some t → remoteOf s pa = none →
     let key := s.keyOf g.cid
     let alone (n a : Nat) : Prop := ∀ x, pa ≤ x → x < pa + n → s.homeOf x / 32 = s.homeOf a / 32 → x / 32 = a / 32
     let item : LoadItem := { loc := .phys pa, va := va, bytes := z, shift := 0, width := 8 * z, out := w, sx := sx, dst := .scalar d }
     let run : StoreItem := { loc := .phys pa, va := va, data := xs, mask := List.replicate xs.length 0xFF }
     let raw := leNat (s.readBytes key o.ver pa z)
     let value := if sx then intWrap w (natSigned (8 * z) raw) else raw % 2 ^ w
     (o.work = .load [item] false → s.opReady o = true → z ≠ 0 → s.badPlace (.phys pa) z = false →
       ∃ s', exec (.loadComplete n) s = .next s' ∧ s'.mem = s.mem ∧ s'.op? n = none ∧
         (∀ t', s'.strand? o.guid o.strand = some t' →
           t'.v = t.v.set d ((t.v.getD d 0).extractLsb' 64 8128 ++ BitVec.ofNat 64 value) ∧ t'.kl = t.kl - 1 ∧ t'.ks = t.ks ∧
           t'.pc = t.pc ∧ t'.m = t.m ∧ t'.st = t.st ∧ t'.md = t.md)) ∧
     (o.work = .store [run] → s.opReady o = true →
       ∃ s', exec (.storeComplete n) s = .next s' ∧ s'.op? n = none ∧
         (∀ a, pa ≤ a → a < pa + xs.length → alone xs.length a → s'.readByte key o.ver a = xs.getD (a - pa) 0) ∧
         (∀ a, ¬ (pa ≤ a ∧ a < pa + xs.length) → KeepsByte s key o.ver pa xs.length a → s'.readByte key o.ver a = s.readByte key o.ver a) ∧
         (∀ t', s'.strand? o.guid o.strand = some t' → t'.ks = t.ks - 1 ∧ t'.kl = t.kl ∧ t'.v = t.v ∧ t'.pc = t.pc ∧ t'.st = t.st)) ∧
     (s.opReady o = false → exec (.loadComplete n) s = .next s ∧ exec (.storeComplete n) s = .next s ∧ exec (.atomicComplete n) s = .next s)) ∧
  (∀ (s : State) (n pa z : Nat) (o : Op) (g : Group) (t : Strand) (fn : AtomicFn) (ty : BitVec 5) (b c : Word) (d : BitVec 6),
     s.mem.wf = true → s.op? n = some o → s.group? o.guid = some g → s.strand? o.guid o.strand = some t → remoteOf s pa = none →
     o.work = .atomic fn ty (.phys pa) z b c d → s.opReady o = true → s.badPlace (.phys pa) z = false → ty.toNat < 8 → z = 2 ^ (ty.toNat % 4) →
     let key := s.keyOf g.cid
     let old := leNat (s.readBytes key o.ver pa z)
     let bv := b.toNat % 2 ^ (8 * z)
     let num (x : Nat) : Int := if ty.toNat < 4 then natSigned (8 * z) x else x
     let new := match fn with
       | .add => (old + bv) % 2 ^ (8 * z)
       | .min => if num bv < num old then bv else old
       | .max => if num old < num bv then bv else old
       | .and => old &&& bv
       | .or => old ||| bv
       | .xor => old ^^^ bv
       | .swp => bv
       | .cas => if old = c.toNat % 2 ^ (8 * z) then bv else old
     ∃ s', exec (.atomicComplete n) s = .next s' ∧ s'.op? n = none ∧
       (∀ a, pa ≤ a → a < pa + z → (∀ x, pa ≤ x → x < pa + z → s.homeOf x / 32 = s.homeOf a / 32 → x / 32 = a / 32) →
         s'.readByte key o.ver a = BitVec.ofNat 8 (new / 2 ^ (8 * (a - pa)))) ∧
       (∀ a, ¬ (pa ≤ a ∧ a < pa + z) → KeepsByte s key o.ver pa z a → s'.readByte key o.ver a = s.readByte key o.ver a) ∧
       (∀ t', s'.strand? o.guid o.strand = some t' → t'.kl = t.kl - 1 ∧ t'.ks = t.ks - 1 ∧
         t'.v = t.v.set d.toNat ((t.v.getD d.toNat 0).extractLsb' 64 8128 ++ BitVec.ofInt 64 (num old))))

/-! ## Waits and barriers -/

/-- R256: WAIT goes on at once when every named counter reads 0, DRAIN when also no write of the strand to memory at group scope is outstanding; otherwise the
strand waits at the instruction. Either way the open batches of the named channels close. Which writes count as outstanding is deduced
(notes/assumptions/32.md). R106, R107: the superstep barrier of a kernel. -/
def Obligations.WaitsAndSupersteps : Prop :=
  (∀ (s : State) (u k : Nat) (g : Group) (t : Strand) (n : BitVec 8), Acts s u k g t →
     let zero (t : Strand) (drain : Bool) : Prop :=
       (n.getLsbD 0 = true → t.kl = 0) ∧ (n.getLsbD 1 = true → t.ks = 0) ∧
       (drain = true → ∀ o ∈ s.ops, o.guid = u → o.strand = k → o.groupWrite s = false) ∧
       (∀ q, q < 4 → n.getLsbD (q + 2) = true → t.ke.getD q 0 = 0) ∧ (n.getLsbD 6 = true → t.kr = 0) ∧ (n.getLsbD 7 = true → t.kc = 0)
     let closed : Strand := t.closeNamed g.cqb n
     let wait (i : Instr) (drain : Bool) : Prop :=
       (zero t drain → Becomes i s u k t closed) ∧
       (¬ zero t drain → exec i s = .next (s.modStrand u k fun _ => { closed with status := .waiting (.counters n drain) }))
     wait (.wait n) false ∧ wait (.drain n) true) ∧
  (∀ (s : State) (u k : Nat) (g : Group) (t : Strand) (d a n : BitVec 6) (q : Kernel) (b : SBar), Acts s u k g t →
     s.kernel? g.kuid = some q → q.ssb[n.toNat]? = some b →
     let v := t.x a
     let wait (i : Instr) (phase pass : Bool) : Prop :=
       (pass = true → Becomes i s u k t (t.setX d (if b.xerr then 2 else 0))) ∧
       (pass = false → exec i s = .next (s.modStrand u k fun _ => { t.mark d with status := .waiting (.superstep n.toNat (v.setWidth 16) phase d none) }))
     Issues (.sstep d n) s u k t ((s.pushOp u k g.cid Way.group (.sstep n.toNat) [] [] (s.liveIds u k)).modStrand u k fun t => t.setX d (b.gen.setWidth 64)) ∧
     Becomes (.bgenS d n) s u k t (t.setX d (b.gen.setWidth 64 ||| ((BitVec.ofBool b.xerr).setWidth 64 <<< 36))) ∧
     wait (.bwaitS d a n) false (decide ((b.gen - v.setWidth 16).toNat < 2 ^ 15)) ∧
     wait (.bwaitSP d a n) true (b.gen.getLsbD 0 != v.getLsbD 0))

/-- R45, R101, R102: BINIT, BEXP, BARV, BGEN and BWAIT on a barrier of the context's allotment; the traps of R45 and R101 otherwise. R102, R107, R108: an arrival that makes the count EXP completes the barrier, and every strand whose test now passes has its result; any other
arrival adds one to the count. BARV_ARRIVAL gives the strand the generation as it stood, SSTEP_ARRIVAL counts at the superstep barrier (a completion that finds no record waiting for
its clauses). -/
def Obligations.NamedBarriers : Prop :=
  (∀ (s : State) (u k : Nat) (g : Group) (t : Strand) (d a : BitVec 6) (n : BitVec 10), Acts s u k g t →
     let bar := g.bars.getD n.toNat Bar.zero
     let v := t.x a
     let allotted := n.toNat < 16 * (s.ctx g.cid).ba.toNat
     let init : Bar := { gen := bar.gen, exp := v.setWidth 10, cnt := 0, xerr := false, tmo := (v >>> 10).setWidth 11, fail := false }
     let put (b : Bar) (told : Bool) : State := s.modGroup u fun g => g.setBar n.toNat b told
     let wait (i : Instr) (phase pass : Bool) : Prop :=
       (pass = true → Becomes i s u k t (t.setX d (if bar.xerr then 2 else 0))) ∧
       (pass = false → exec i s = .next (s.modStrand u k fun _ =>
         { t.mark d with status := .waiting (.barrier n.toNat (v.setWidth 16) phase d (decide (bar.tmo ≠ 0)) none) }))
     (allotted →
       (v.setWidth 10 ≠ (0 : BitVec 10) →
         Issues (.binit a n) s u k t (put init false) ∧
         (bar.cnt.toNat < (v.setWidth 10 : BitVec 10).toNat → Issues (.bexp a n) s u k t (put { bar with exp := v.setWidth 10 } false)) ∧
         ((v.setWidth 10 : BitVec 10).toNat ≤ bar.cnt.toNat →
           Issues (.bexp a n) s u k t (put { bar with exp := v.setWidth 10, gen := bar.gen + 1, cnt := 0, xerr := bar.fail, fail := false } true))) ∧
       (v.setWidth 10 = (0 : BitVec 10) → Traps (.binit a n) s u k t (trapOf 0x11 0 v) ∧ Traps (.bexp a n) s u k t (trapOf 0x11 0 v)) ∧
       Issues (.barv d n) s u k t ((s.pushOp u k g.cid Way.group (.barv n.toNat d) [] [] (s.writeIds u k)).modStrand u k fun t => t.mark d) ∧
       Becomes (.bgen d n) s u k t (t.setX d (bar.gen.setWidth 64 ||| (bar.exp.setWidth 64 <<< 16) ||| (bar.cnt.setWidth 64 <<< 26) |||
         ((BitVec.ofBool bar.xerr).setWidth 64 <<< 36) ||| (bar.tmo.setWidth 64 <<< 37))) ∧
       wait (.bwait d a n) false (decide ((bar.gen - v.setWidth 16).toNat < 2 ^ 15)) ∧
       wait (.bwaitP d a n) true (bar.gen.getLsbD 0 != v.getLsbD 0)) ∧
     (¬ allotted → ∀ i ∈ [Instr.binit a n, .bexp a n, .barv d n, .bgen d n, .bwait d a n, .bwaitP d a n],
       Traps i s u k t (trapOf 0x10 0 (BitVec.ofNat 64 n.toNat)))) ∧
  (∀ (s : State) (n : Nat) (o : Op) (g : Group) (t : Strand) (b : Nat) (d : BitVec 6) (bar : Bar) (q : Kernel) (sb : SBar),
     s.op? n = some o → s.group? o.guid = some g → g.strands[o.strand]? = some t → s.arrivalDue o = true →
     (o.work = .barv b d → g.bars[b]? = some bar → ∃ s' g', exec (.barvArrival n) s = .next s' ∧ s'.op? n = none ∧ s'.mem = s.mem ∧ s'.group? o.guid = some g' ∧
       (if bar.cnt.toNat + 1 = bar.exp.toNat then
         g'.bars = g.bars.set b { bar with gen := bar.gen + 1, cnt := 0, xerr := bar.fail || o.failed, fail := false }
       else g'.bars = g.bars.set b { bar with cnt := bar.cnt + 1, fail := bar.fail || o.failed }) ∧
       (∀ t', g'.strands[o.strand]? = some t' → t'.v = (t.setX d (bar.gen.setWidth 64)).v) ∧
       (∀ j w v ph r tmo, g.strands[j]? = some w → j ≠ o.strand → w.status = .waiting (.barrier b v ph r tmo none) →
         bar.cnt.toNat + 1 = bar.exp.toNat → genTest (bar.gen + 1) v ph = true →
         ∃ w', g'.strands[j]? = some w' ∧ w'.status = .waiting (.barrier b v ph r tmo (some (bar.fail || o.failed))))) ∧
     (o.work = .sstep b → s.kernel? g.kuid = some q → q.ssb[b]? = some sb → sb.exp ≠ 0 → t.status ≠ .ended →
       (sb.cnt + 1 = sb.exp → ∀ n, n < 256 → (s.queue n).held = none) →
       ∃ s' q', exec (.sstepArrival n) s = .next s' ∧ s'.op? n = none ∧ s'.mem = s.mem ∧ s'.kernel? g.kuid = some q' ∧
         (if sb.cnt + 1 = sb.exp then q'.ssb = q.ssb.set b { sb with gen := sb.gen + 1, cnt := 0, xerr := sb.fail || o.failed, fail := false }
         else q'.ssb = q.ssb.set b { sb with cnt := sb.cnt + 1, fail := sb.fail || o.failed })))

/-! ## The matrix unit -/

/-- R260 to R263, R269: MMA and CCVT pass their checks and wait in the unit's queue, each with an entry of the range interlock table; MMA writes no register.
The first failing check traps and nothing is queued. R267, R268: CRD, CWR and CCLR act on a row or all of an accumulator tile. R263, R264, R266: the head of a
core's matrix queue starts once nothing earlier of its strand conflicts, and notes its panels, again while it is under way. It works by iterations or rows;
where its group stops it stops at a chunk boundary. After the last one it leaves the queue and its entry, and its strand has its flags in ST. That CCVT takes
its stochastic draws at issue is deduced (notes/assumptions/37.md). -/
def Obligations.MatrixIssue : Prop :=
  (∀ (s : State) (u k : Nat) (g : Group) (t : Strand) (d a : BitVec 6) (kind tile : BitVec 2) (n : BitVec 3) (e f c : BitVec 1) (y : BitVec 5) (tr : Trap),
     Acts s u k g t →
     let op (cvt : Bool) (f : BitVec 10) (nest : Bits1024) : MatOp :=
       { id := s.fresh, guid := u, strand := k, ccvt := cvt, xd := t.x d, xa := t.x a, d := d, f := f, nest := nest, md := t.md, started := false, panels := [],
         gens := if cvt then t.gens else [], pos := 0, chunk := 0, flags := 0, count := 0 }
     let mma := op false (kind ++ tile ++ n ++ e ++ f ++ c) (t.nest n.toNat)
     let cvt := op true ((0#2 : BitVec 2) ++ tile ++ (0#1 : BitVec 1) ++ y) 0
     let off := tileBytes * tile.toNat + 1024 * (t.x a).toNat
     let row : Range := { sp := .buf u .c, lo := off, hi := off + 1024 }
     let whole : Range := { sp := .buf u .c, lo := tileBytes * tile.toNat, hi := tileBytes * tile.toNat + tileBytes }
     let item : LoadItem := { loc := .buf .c off, va := off, bytes := 1024, shift := 0, width := 8192, out := 8192, sx := false, dst := .vec d.toNat 0 8192 }
     let store (off : Nat) (xs : List Byte) : OpWork := .store [{ loc := .buf .c off, va := off, data := xs, mask := List.replicate xs.length 0xFF }]
     (mdOk t.md = true →
       (mmaCheck s g mma = none → ∃ s' : State, s'.mats = s.mats ++ [mma] ∧ s'.locks.map (·.id) = s.locks.map (·.id) ++ [s.fresh] ∧ s'.mem = s.mem ∧
         s'.groups = s.groups ∧ Issues (.mma d a kind tile n e f c) s u k t s') ∧
       (mmaCheck s g mma = some tr → Traps (.mma d a kind tile n e f c) s u k t tr) ∧
       (ccvtCheck s g cvt = none → ∃ s' : State, s'.mats = s.mats ++ [cvt] ∧ s'.locks.map (·.id) = s.locks.map (·.id) ++ [s.fresh] ∧ s'.mem = s.mem ∧
         s'.groups = s.groups ∧ Issues (.ccvt d a tile y) s u k t (s'.modStrand u k fun t => { t.mark d with gens := (ccvtDraws cvt { flags := 0, gens := t.gens }).gens })) ∧
       (ccvtCheck s g cvt = some tr → Traps (.ccvt d a tile y) s u k t tr)) ∧
     (isStackCore g.core = false → s.hasTile g tile.toNat = true →
       ((t.x a).toNat < 192 →
         Issues (.crd d a tile) s u k t ((s.pushOp u k g.cid Way.group (.load [item] false) [row] [] []).modStrand u k fun t => t.issueLoad d) ∧
         Issues (.cwr d a tile) s u k t ((s.pushOp u k g.cid Way.group (store off (leBytes 1024 (t.vreg d).toNat)) [row] [row] []).modStrand u k Strand.issueStore)) ∧
       Issues (.cclr tile) s u k t
         ((s.pushOp u k g.cid Way.group (store (tileBytes * tile.toNat) (List.replicate tileBytes 0)) [whole] [whole] []).modStrand u k Strand.issueStore)) ∧
     (isStackCore g.core = true → ∀ i ∈ [Instr.crd d a tile, .cwr d a tile, .cclr tile], Traps i s u k t (trapOf 0x0D 0 0))) ∧
  (∀ (s : State) (core : BitVec 8) (o : MatOp) (g : Group) (l : Lock), s.headMat core.toNat = some o → s.group? o.guid = some g →
     s.locks.find? (fun l => l.id == o.id) = some l →
     (o.started = true ∨ g.stage = .resident ∧ s.longReady o.id o.guid o.strand l.rd l.wr = true →
       exec (.matrixOpStart core) s =
         .next { s with mats := s.mats.map fun p => if p.id == o.id then { p with started := true, panels := o.views g } else p }) ∧
     (o.started = true → o.chunk ≤ o.chunks → ∃ s' upto, exec (.matrixOpRetire core) s = .next s' ∧ s'.mem = s.mem ∧ o.chunk ≤ upto ∧ upto ≤ o.chunks ∧
       (g.stage = .resident → upto = o.chunks) ∧
       let r := o.work (o.views g) (s.fresh + 1) upto g
       (if r.1.pos = o.units then
         s'.mats = s.mats.filter (fun p => p.id != o.id) ∧ s'.locks = s.locks.filter (fun p => p.id != o.id) ∧
           s'.group? o.guid = some { r.2 with strands := modAt r.2.strands o.strand r.1.settle }
       else
         s'.locks = s.locks ∧ s'.group? o.guid = some r.2 ∧ ∃ seen, s'.mats = s.mats.map fun p =>
           if p.id == o.id then { r.1 with started := s.matRuns g, panels := seen } else p)) ∧
     (o.started = false → exec (.matrixOpRetire core) s = .next s))

/-! ## Nest registers and the copy engine -/

/-- R131, R271 to R273: NLD and NST move the 128-byte image of a nest register, NST with the reserved bits zero; NCNT and NSTR write one field, or take
the nest-value trap. R131: a field of a nest image reads back as written, and the write leaves every bit outside the field. -/
def Obligations.NestRegisters : Prop :=
  (∀ (s s1 : State) (u k : Nat) (g : Group) (t : Strand) (d a : BitVec 6) (l : BitVec 3) (m : BitVec 2) (pa : Nat), Acts s u k g t →
     let va := (t.x a).toNat
     let rs : List Range := [{ sp := .virt g.cid, lo := va, hi := va + 128 }]
     let sector (j : Nat) : LoadItem := { loc := .phys (pa + 32 * j), va := va + 32 * j, bytes := 32, shift := 0, width := 256, out := 256, sx := false, dst := .nest d.toNat (256 * j) }
     let run : StoreItem := { loc := .phys pa, va := va, data := leBytes 128 (t.nest d.toNat &&& nestMask).toNat, mask := List.replicate 128 0xFF }
     (s.locateEl (.core g.core) g.cid .read 128 (t.x a) = (.ok pa, s1) →
       Issues (.nld d a) s u k t ((s1.pushOp u k g.cid Way.nest (.load [sector 0, sector 1, sector 2, sector 3] false) rs [] []).modStrand u k
         fun t => { t with kl := t.kl + 1 })) ∧
     (s.locateEl (.core g.core) g.cid .write 128 (t.x a) = (.ok pa, s1) →
       Issues (.nst d a) s u k t ((s1.pushOp u k g.cid Way.nest (.store [run]) rs rs []).modStrand u k Strand.issueStore)) ∧
     (if 1 ≤ va ∧ va ≤ 2 ^ 24 then Becomes (.ncnt d a l) s u k t (t.setN d.toNat (nestSetCnt (t.nest d.toNat) l.toNat (va - 1)))
       else Traps (.ncnt d a l) s u k t (trapOf 0x13 0 (t.x a))) ∧
     (if -(2 ^ 39) ≤ (t.x a).toInt ∧ (t.x a).toInt < 2 ^ 39 then
         Becomes (.nstr d a l m) s u k t (t.setN d.toNat (nestPut (t.nest d.toNat) (160 * l.toNat + 40 * m.toNat - 16) 40 va))
       else Traps (.nstr d a l m) s u k t (trapOf 0x13 0 (t.x a)))) ∧
  (∀ (n : Bits1024) (lo len v j : Nat), lo + len ≤ 1024 → j < 1024 →
     (nestPut n lo len v).getLsbD j = if lo ≤ j ∧ j < lo + len then v.testBit (j - lo) else n.getLsbD j)

/-- R274, R275, R281: a copy command whose checks pass takes an entry of the range interlock table, joins its channel's open batch, which its eighth
command closes, and raises KE; the first check that fails traps. CLOSE closes the open batch and lets a halted channel start again. R282 to R285: the running command of a channel proceeds by nest batches of at most 1,024 iterations, the channels in turn; a completed command lowers KE, releases its
entry and ORs its flags into ST; a timeout closes an open batch; a halted channel's fault is an asynchronous trap at the next boundary. -/
def Obligations.CopyIssue : Prop :=
  (∀ (s : State) (u k : Nat) (g : Group) (t : Strand) (tid nid v : BitVec 6) (q : BitVec 2) (n f : BitVec 3) (ty : BitVec 5) (tr : Trap), Acts s u k g t →
     let cmd (xf arg : Nat) : CopyCmd :=
       { id := s.fresh, src := (g.entry tid.toNat).words, dst := (g.entry nid.toNat).words, nest := t.nest n.toNat, round := BitVec.ofNat 3 (mdRound t.md),
         xf := xf, arg := arg, idx := if xf = 3 then t.v.getD arg 0 else 0, pos := 0, codes := [], flags := 0, failed := false }
     let form (i : Instr) (xf arg : Nat) : Prop :=
       (copyCheck s g (cmd xf arg) tid.toNat nid.toNat = none → ∃ s' : State, s'.mem = s.mem ∧ s'.groups = s.groups ∧
         s'.locks = s.locks ++ [{ id := s.fresh, guid := u, strand := k, rd := copyReads g (cmd xf arg), wr := copyWrites g (cmd xf arg) }] ∧
         Issues i s u k t (s'.modStrand u k fun t =>
           { t.modChan q.toNat (fun ch => ch.add (cmd xf arg) (wordAt g.cqb q.toNat)) with ke := modAt t.ke q.toNat fun e => e + 1 })) ∧
       (copyCheck s g (cmd xf arg) tid.toNat nid.toNat = some tr → Traps i s u k t tr)
     (mdOk t.md = true → (g.entry tid.toNat).bound = true → (g.entry nid.toNat).bound = true →
       form (.copy tid nid q n) 0 0 ∧ form (.copyTr tid nid q n) 1 0 ∧ form (.copyDi tid nid q n f) 2 f.toNat ∧ form (.copyPm tid nid q n v) 3 v.toNat ∧
       form (.copyCv tid nid q n ty) 4 ty.toNat) ∧
     Becomes (.close q) s u k t (t.modChan q.toNat fun ch => { ch.close (wordAt g.cqb q.toNat) with halt := none })) ∧
  (∀ (s s1 : State) (u : Nat) (k : BitVec 3) (q : BitVec 2) (g : Group) (t : Strand) (c : CopyCmd) (b : CopyBatch) (cs : List CopyCmd) (rest : List CopyBatch)
     (ps : List PageAt) (h : CopyHalt), s.group? u = some g → g.strands[k.toNat]? = some t → g.stage = .resident →
     let ts := (List.range c.batchLen).flatMap fun j => iterTouch c (c.pos + j)
     (c.pos < c.total → 1 ≤ c.batchLen ∧ c.batchLen ≤ 1024 ∧ c.pos + c.batchLen ≤ c.total) ∧
     (s.chanTurn u k.toNat g t q.toNat = true ↔ s.chanReady u k.toNat g t q.toNat = true ∧
       ∀ j, j < 4 → s.chanReady u k.toNat g t j = true → (q.toNat + 3 - t.lastChan) % 4 ≤ (j + 3 - t.lastChan) % 4) ∧
     ((t.chan q.toNat).closed = b :: rest → b.cmds = c :: cs → s.chanTurn u k.toNat g t q.toNat = true →
       pagesOf false (.core g.core) g.cid ts s = (.ok ps, s1) →
       (∀ x ∈ ts, s.placeWaits (paOf ps x.kind x.va) 1 = false ∧ s.placeWaits (paOf ps x.kind (x.va + x.n - 1)) 1 = false) →
       (∀ x ∈ ts, x.kind = .read → s1.badPlace (.phys (paOf ps .read x.va)) x.n = false) →
       exec (.nestBatch u k q) s = .next ((((runBatch u k.toNat q.toNat c.batchLen g c t.gens ps s1).cacheBatch g (touchLines ps ts)).dropAsk
         (.chan u k.toNat q.toNat)).modStrand u k.toNat fun t => { t with lastChan := q.toNat })) ∧
     ((t.chan q.toNat).closed = b :: rest → b.cmds = c :: cs → c.total ≤ c.pos → b.cqb.getLsbD 15 = false → ∃ s', exec (.copyComplete u k q) s = .next s' ∧
       s'.locks = s.locks.filter (fun l => l.id != c.id) ∧ s'.mem = s.mem ∧ ∀ t', s'.strand? u k.toNat = some t' →
         t'.st = t.st ||| c.flags ∧ t'.ke = modAt t.ke q.toNat (fun e => e - 1) ∧ t'.v = t.v ∧
         (t.chans.length = 4 → (t'.chan q.toNat).closed = if cs = [] then rest else { b with cmds := cs, failed := b.failed || c.failed } :: rest)) ∧
     exec (.batchCloseTimeout u k q) s = .next (s.modStrand u k.toNat fun t => t.modChan q.toNat fun ch => ch.close (wordAt g.cqb q.toNat)) ∧
     (t.copyPending = some (q.toNat, h) → t.boundary = true → t.h = false → t.status ≠ .ended →
       exec (.copyFaultTrap u k) s = .next ((s.modStrand u k.toNat fun t => t.modChan q.toNat fun ch => { ch with halt := some { h with taken := true } }).takeTrap
         u k.toNat { cause := 0x17, detail := q.setWidth 4, acc := 0, async := true, tval := h.va } t.pc)))

/-! ## Row instructions and microcode -/

/-- R291 to R294, R297, R298: a row instruction whose checks pass is in flight in its preparation, with an entry of the range interlock table, and KR rises;
the first check that fails traps. ROWQ gives the row status word of an entry, by the model's choice that of an entry which is not bound too
(notes/assumptions/101.md). -/
def Obligations.RowIssue : Prop :=
  ∀ (s : State) (u k : Nat) (g : Group) (t : Strand) (d a tid : BitVec 6) (tr : Trap), Acts s u k g t →
    let names (kind : Nat) (xd : Word) := rowNames kind xd (t.x a) tid.toNat
    let ent (kind : Nat) (xd : Word) (cls : Nat) : Option (List Word) := ((names kind xd).find? fun n => n.1 == cls).map fun n => (g.entry n.2).words
    let op (kind : Nat) (xd : Word) : RowOp :=
      let base : RowOp := { id := s.fresh, guid := u, strand := k, cid := g.cid, kind := kind, tid := tid.toNat, xd := xd, xa := t.x a, ea := (g.entry tid.toNat).words, eb := ent kind xd 1, ec := ent kind xd 2, ew := if kind = 0 then ent kind xd 5 else ent kind xd 3, eo := ent kind xd 4, sat := mdSat t.md, phase := .prep, prog := [], window := [], code := 0, widx := 0, uns := false, ce := false, flags := 0, steps := 0, runs := [], held := [], pages := [], wait := none, failed := false }
      base
    let form (i : Instr) (kind : Nat) (xd : Word) : Prop :=
      (rowCheck s g (names kind xd) (op kind xd) = none → ∃ s' : State, s'.rows.ops = s.rows.ops ++ [op kind xd] ∧ s'.mem = s.mem ∧ s'.groups = s.groups ∧
        s'.locks = s.locks ++ [{ id := s.fresh, guid := u, strand := k, rd := rowReads (op kind xd), wr := rowWrites (op kind xd) }] ∧
        Issues i s u k t (s'.modStrand u k fun t => { t with kr := t.kr + 1 })) ∧
      (rowCheck s g (names kind xd) (op kind xd) = some tr → Traps i s u k t tr)
    (mdOk t.md = true → form (.rowld d a tid) 0 (t.x d)) ∧ form (.rowrun d a tid) 1 (t.x d) ∧ form (.rowseal a tid) 2 0 ∧
    Becomes (.rowq d tid) s u k t (t.setX d (wordAt g.rowStat tid.toNat))

/-- R289, R301: a microcode op that writes a row, in a wave of one subarray, outside duplicate-compare mode: the row that its destination names takes the
op's value, unsealed; no byte of another row changes; the run goes on at the next word after one step. -/
def Obligations.MicroRowWrites : Prop :=
  ∀ (s : State) (n stk : Nat) (o : RowOp) (r : StackRun) (x : Slice) (p q m : BitVec 9) (pa pb pc : Nat), RowActs s n stk o r → s.mem.wf = true →
    r.slices = [x] → o.dup = false → rowAt o r.lp x p = .row pa →
    let src (z : BitVec 9) : VReg := (readAt x.sub (rowAt o r.lp x z) s).1
    let ok (z : BitVec 9) : Prop := specStops o r.lp z = false
    let writes (i : Instr) (rows : List Nat) (v : VReg) : Prop :=
      ∃ s', exec i s = .next s' ∧ RunAt s' n stk o 1 (r.pc + 1) r.regs ∧ RowsOnly s s' rows ∧
        ∀ a ∈ rows, s'.rowRaw a = v ∧ s'.rowSealed a = false
    (ok p → ok q →
      writes (.aap p q) [pa] (src q) ∧ writes (.dnot p q) [pa] (~~~(src q)) ∧
      (∀ v, (∀ j, j < 8192 → v.getLsbD j = (decide (j ≠ 0) && (src q).getLsbD (j - 1))) → writes (.lshl p q) [pa] v) ∧
      (∀ v, (∀ j, j < 8192 → v.getLsbD j = (src q).getLsbD (j + 1)) → writes (.lshr p q) [pa] v)) ∧
    (ok p → writes (.zero p) [pa] 0 ∧ writes (.ones p) [pa] (BitVec.allOnes 8192) ∧
      (1024 * (m.toNat + 1) ≤ o.window.length →
        writes (.wrl p m) [pa] (BitVec.ofNat 8192 (leNat ((o.window.drop (1024 * m.toNat)).take 1024)))) ∧
      (m.toNat + r.lp < 8 * o.window.length →
        writes (.bit m p) [pa] (if (o.window.getD ((m.toNat + r.lp) / 8) 0).getLsbD ((m.toNat + r.lp) % 8) then BitVec.allOnes 8192 else 0))) ∧
    (ok p → ok q → ok m → rowAt o r.lp x q = .row pb → rowAt o r.lp x m = .row pc →
      ∀ v : VReg, (∀ j, j < 8192 → v.getLsbD j = decide (2 ≤ ((src p).getLsbD j).toNat + ((src q).getLsbD j).toNat + ((src m).getLsbD j).toNat)) →
        writes (.tra p q m) [pa, pb, pc] v)

/-- R290, R299: an op that names a reserved row that does not exist stops the instruction with code 0x07 at its word. R302, R305, R295: loop control, YIELD,
STOP and SEAL. NEXT goes back `b` words while its count is not reached, and stops the instruction with code 0x06 where that would leave the program; SEAL
seals a row and leaves its value, in two steps in duplicate-compare mode, which is deduced (notes/assumptions/39.md). -/
def Obligations.MicroControl : Prop :=
  (∀ (s : State) (n stk : Nat) (o : RowOp) (r : StackRun) (p q m : BitVec 9), RowActs s n stk o r → specStops o r.lp p = true →
     ∀ i ∈ [Instr.aap p q, .tra p q m, .dnot p q, .zero p, .ones p, .lshl p q, .lshr p q, .wrl p m, .bit m p, .rdl p, .cnt p, .seal p],
       exec i s = .next (s.stopRow n stk 0x07 r.pc)) ∧
  (∀ (s : State) (n stk : Nat) (o : RowOp) (r : StackRun) (x : Slice) (b m p : BitVec 9) (pa : Nat), RowActs s n stk o r →
     let lp := if r.la = some r.pc then r.lp else 0
     (lp < m.toNat → r.pc < b.toNat → exec (.next b m) s = .next (s.stopRow n stk 0x06 r.pc)) ∧
     (lp < m.toNat → b.toNat ≤ r.pc → ∃ s' o' r', exec (.next b m) s = .next s' ∧ s'.mem = s.mem ∧ s'.rowOp? n = some o' ∧ o'.run? stk = some r' ∧
       r'.pc = r.pc - b.toNat ∧ r'.lp = lp + 1 ∧ r'.la = some r.pc ∧ r'.regs = r.regs) ∧
     (m.toNat ≤ lp → ∃ s' o' r', exec (.next b m) s = .next s' ∧ s'.mem = s.mem ∧ s'.rowOp? n = some o' ∧ o'.run? stk = some r' ∧
       r'.pc = r.pc + 1 ∧ r'.lp = 0 ∧ r'.la = none ∧ r'.regs = r.regs) ∧
     exec .yield s = .next ((s.modRowOp n fun o => o.modRun stk fun r => { r with pc := r.pc + 1 }).yieldPoint n stk) ∧
     (o.aseal = false ∨ r.wrote = [] → exec .stop s = .next (s.endWave n stk)) ∧
     (o.aseal = true → r.wrote ≠ [] → exec .stop s = .next (s.modRowOp n fun o => o.modRun stk fun r => { r with phase := .aseal, pos := 0 })) ∧
     (specStops o r.lp p = false → r.slices = [x] → rowAt o r.lp x p = .row pa →
       ∃ s', exec (.seal p) s = .next s' ∧ RunAt s' n stk o (if o.dup = true ∧ r.half = false then 2 else 1) (r.pc + 1) r.regs ∧ s'.rowSealed pa = true ∧ s'.mem.cells = s.mem.cells))

/-- R301: the ops that read a row into the registers of the one slice of the wave, and WACC. -/
def Obligations.MicroRegisters : Prop :=
  ∀ (s : State) (n stk : Nat) (o : RowOp) (r : StackRun) (x : Slice) (reg : SliceReg) (q : BitVec 9) (i : BitVec 2) (f : BitVec 6), RowActs s n stk o r →
    r.slices = [x] → r.regs = [reg] →
    let v := (baseAt x.sub (rowAt o r.lp x q) s).1.1
    let shifted := BitVec.ofNat 64 (reg.cr.toNat * 2 ^ f.toNat)
    (specStops o r.lp q = false →
      (∃ s', exec (.cnt q) s = .next s' ∧ s'.mem = s.mem ∧
        RunAt s' n stk o 1 (r.pc + 1) [{ reg with cr := BitVec.ofNat 14 ((List.range (entExt o.ea 0)).filter fun j => v.getLsbD j).length }]) ∧
      (o.eo.isSome = true → 8 + 1024 * (reg.out.length + 1) ≤ o.rs →
        ∃ s', exec (.rdl q) s = .next s' ∧ s'.mem = s.mem ∧ RunAt s' n stk o 1 (r.pc + 1) [{ reg with out := reg.out ++ [v] }]) ∧
      (o.eo = none → exec (.rdl q) s = .next (s.stopRow n stk 0x09 r.pc))) ∧
    (∃ s', exec (.wacc i f) s = .next s' ∧ s'.mem = s.mem ∧ RunAt s' n stk o 0 (r.pc + 1) [{ reg with acc := reg.acc + shifted }]) ∧
    (∃ s', exec (.waccNeg i f) s = .next s' ∧ s'.mem = s.mem ∧ RunAt s' n stk o 0 (r.pc + 1) [{ reg with acc := reg.acc - shifted }])

/-! ## System instructions -/

/-- R338, R339: SRD and SWR. A number not listed and a register that may not be written trap and change nothing else. CYCLE is the group's count;
LLHIT and LLMISS are those of the context on the core's die (notes/assumptions/88.md). -/
def Obligations.SystemRegisters : Prop :=
  ∀ (s : State) (u k : Nat) (g : Group) (t : Strand) (d a : BitVec 6) (n : BitVec 10), Acts s u k g t →
    (sysregOk n = false →
      Traps (.srd d n) s u k t (trapOf 0x01 4 ((encode (.srd d n)).setWidth 64)) ∧ Traps (.swr a n) s u k t (trapOf 0x01 4 ((encode (.swr a n)).setWidth 64))) ∧
    (sysregOk n = true → ∃ v : Word, Becomes (.srd d n) s u k t (t.setX d v) ∧
      (n = 0x000 → v = t.tvec) ∧ (n = 0x001 → v = t.tpc) ∧ (n = 0x002 → v = t.tcause) ∧ (n = 0x003 → v = t.tval) ∧ (n = 0x004 → v = t.tscr) ∧
      (n = 0x005 → v = if t.h then 1 else 0) ∧ (n = 0x010 → v = BitVec.ofNat 64 g.cid) ∧
      (n = 0x011 → v = (s.ctx g.cid).wq.signExtend 64) ∧ (n = 0x012 → v = (s.ctx g.cid).ffln.setWidth 64) ∧
      (n = 0x018 → ∀ q, s.kernel? g.kuid = some q → v = gposWord g q) ∧ (n = 0x019 → ∀ q, s.kernel? g.kuid = some q → v = gdimWord q) ∧
      (n = 0x030 → v = g.cycle) ∧ (n = 0x040 → v = wordAt (s.ctx g.cid).llhit (cacheDie g.core)) ∧
      (n = 0x041 → v = wordAt (s.ctx g.cid).llmiss (cacheDie g.core)) ∧ (n = 0x01A → v = gselfWord g k) ∧ (∀ j, j < 4 → n.toNat = 0x020 + j → v = wordAt g.cqb j)) ∧
    (sysregOk n = true → n = 0x005 ∨ (0x010#10 ≤ n ∧ n ≤ 0x01A#10) ∨ 0x030#10 ≤ n → Traps (.swr a n) s u k t (trapOf 0x03 2 (n.setWidth 64))) ∧
    (0x001#10 ≤ n ∧ n ≤ 0x003#10 → t.h = false → Traps (.swr a n) s u k t (trapOf 0x03 3 (n.setWidth 64))) ∧
    (t.h = true → Becomes (.swr a 0x001) s u k t { t with tpc := t.x a } ∧ Becomes (.swr a 0x002) s u k t { t with tcause := t.x a &&& 0x7FFF } ∧
      Becomes (.swr a 0x003) s u k t { t with tval := t.x a }) ∧
    Becomes (.swr a 0x000) s u k t { t with tvec := t.x a &&& 0x01FFFFFFFFFFFFFC } ∧ Becomes (.swr a 0x004) s u k t { t with tscr := t.x a } ∧
    (∀ j, j < 4 → n.toNat = 0x020 + j →
      let bex := natBits (t.x a).toNat 9 0
      let past := (t.x a).getLsbD 15 = true ∧ 16 * (s.ctx g.cid).ba.toNat ≤ bex
      (past → Traps (.swr a n) s u k t (trapOf 0x10 0 (BitVec.ofNat 64 bex))) ∧
      (¬past → Issues (.swr a n) s u k t (s.modGroup u fun g => { g with cqb := g.cqb.set j (t.x a &&& 0x83FF) })))

/-- R331, R332, R334, R341, R342, R345: what trap entry saves and where it goes, the fatal strand trap, TRAP, TRET, BRK, IDLE, and the trap of a word
that does not decode. R129, R200, R207, R126: an instruction that reads MD takes the mode trap where MD holds a reserved value or its class does not accept the type, and
then the shape trap where the shape does not fit; TVAL is MD, or SH_R times SH_C. -/
def Obligations.TrapsAndReturns : Prop :=
  (∀ (s : State) (u k : Nat) (g : Group) (t : Strand) (c : Trap) (resume : Word), Acts s u k g t →
     (t.fatal = true ↔ t.h = true ∨ ∀ j, 2 ≤ j → j ≤ 56 → t.tvec.getLsbD j = false) ∧
     (t.fatal = false → s.takeTrap u k c resume =
       s.modStrand u k fun _ => { t with tpc := resume, tcause := c.word, tval := c.tval, torg := resume, h := true, pc := t.tvec, ibuf := [], status := .ready }) ∧
     (t.fatal = true → (∃ t', (s.takeTrap u k c resume).strand? u k = some t' ∧ t'.status = .ended) ∧
       ∀ q, s.kernel? g.kuid = some q → q.stage ≠ .draining → ∃ q', (s.takeTrap u k c resume).kernel? g.kuid = some q' ∧ q'.stage = .draining ∧
         q'.status = some (q.status.getD 0x04)) ∧
     (∀ code, exec (.trap code) s = .next (s.takeTrap u k (trapOf 0x19 0 (code.setWidth 64)) (nextPc t.pc 4))) ∧
     (∀ code, Traps (.brk code) s u k t (trapOf 0x1A 0 (code.setWidth 64))) ∧
     (∀ code, g.stage = .resident → ∃ s' g', exec (.brkDbg code) s = .next s' ∧ s'.group? u = some g' ∧ g'.stage = .stopping ∧ g'.halt = true ∧ g'.reason = 2 ∧
       g'.strands = g.strands) ∧
     (∀ detail tval, Traps (.illegalInstruction detail tval) s u k t (trapOf 0x01 detail tval)) ∧
     (t.h = false → Traps .tret s u k t (trapOf 0x03 1 0)) ∧
     (t.h = true →
       let back := t.tpc = t.torg
       let t' : Strand := { t with h := false, pc := t.tpc, ibuf := [], vs := if back then t.vs else 0, ri := if back then t.ri else 0 }
       let s' := s.modStrand u k fun _ => t'
       (badTarget t.tpc = false → exec .tret s = .next s') ∧
       (badTarget t.tpc = true → exec .tret s = .next (s'.takeTrap u k (trapOf 0x06 1 t.tpc) t.tpc))) ∧
     exec .idle s = .next (s.modStrand u k fun t => { t with status := .waiting (.idle false) }) ∧
     (t.h = true → Traps .idleEnd s u k t (trapOf 0x03 4 0)) ∧
     (t.h = false → ∃ s', exec .idleEnd s = .next s' ∧ ((∀ n, n < 256 → (s.queue n).held = none) →
       ∃ t', s'.strand? u k = some t' ∧ t' = { t with status := t'.status } ∧ t'.status = .ended ∧ s'.mem = s.mem))) ∧
  (∀ (s : State) (u k : Nat) (g : Group) (t : Strand) (d a b : BitVec 6) (f x : BitVec 1), Acts s u k g t →
     let ints := [Instr.add d a b f x, .sub d a b f x, .mul d a b f x, .mulh d a b f x, .min d a b f x, .max d a b f x, .mac d a b f x]
     let floats := [Instr.fadd d a b f x, .fsub d a b f x, .fmul d a b f x, .fdiv d a b f x, .fma d a b f x]
     (mdOk t.md = false → ∀ i ∈ ints ++ floats, Traps i s u k t (trapOf 0x02 5 (t.md.setWidth 64))) ∧
     (mdOk t.md = true → tyInt t.ty = false → ∀ i ∈ ints, Traps i s u k t (trapOf 0x02 2 (t.md.setWidth 64))) ∧
     (mdOk t.md = true → tyFP t.ty = false → ∀ i ∈ floats, Traps i s u k t (trapOf 0x02 2 (t.md.setWidth 64))) ∧
     (f = 0 → t.shapeBad = true → (Typed tyInt t → ∀ i ∈ ints, Traps i s u k t (trapOf 0x04 0 (BitVec.ofNat 64 t.area))) ∧
       (Typed tyFP t → ∀ i ∈ floats, Traps i s u k t (trapOf 0x04 0 (BitVec.ofNat 64 t.area)))))

/-- R344, R347, R351: the dirty map, and the instructions that drop translations and cache lines: the strand waits, and INVALIDATION_COMPLETE
drops every entry of the page, or of the context, from the TLBs and the walk caches of every die, and lets the strand go on, or ends the command of the page
service that asked for it. LLCFL drops the context's lines from the last-level caches. -/
def Obligations.DirtyMapAndInvalidation : Prop :=
  ∀ (s : State) (u k : Nat) (g : Group) (t : Strand) (d a : BitVec 6), Acts s u k g t →
    let xa := t.x a
    let waits (i : Instr) (work : OpWork) : Prop := ∃ (s' : State) (o : Op), exec i s = .next s' ∧ s'.ops = s.ops ++ [o] ∧ o.work = work ∧ o.guid = u ∧ o.strand = k ∧
      o.cid = g.cid ∧ s'.strand? u k = some { t with status := .waiting (.inval o.id) } ∧ s'.mem = s.mem
    Becomes (.dmrd d) s u k t (t.setX d (t.dm.setWidth 64)) ∧
    Becomes (.dmclr a) s u k t { t with dm := t.dm &&& ~~~(xa.extractLsb' 0 48) } ∧
    (natBits xa.toNat 63 57 = 0 ∧ natBits xa.toNat 11 1 = 0 → waits (.tinv a) (.inval (if xa.getLsbD 0 then none else some (xa.toNat / 4096)) false)) ∧
    (natBits xa.toNat 63 57 ≠ 0 ∨ natBits xa.toNat 11 1 ≠ 0 → Traps (.tinv a) s u k t (trapOf 0x1B 0 xa)) ∧
    (natBits xa.toNat 63 57 = 0 ∧ natBits xa.toNat 20 1 = 0 → waits (.llcfl a) (.inval none true) ∧ ∀ s', exec (.llcfl a) s = .next s' →
      ∀ l ∈ s'.llc, l ∈ s.llc ∧ (l.cid = g.cid → xa.getLsbD 0 = false ∧ (s.regionFrames g.cid xa.toNat).contains (l.line / 32) = false)) ∧
    (natBits xa.toNat 63 57 ≠ 0 ∨ natBits xa.toNat 20 1 ≠ 0 → Traps (.llcfl a) s u k t (trapOf 0x1B 0 xa)) ∧
    ∀ (i : Nat) (o : Op) (page : Option Nat) (llc : Bool), s.op? i = some o → o.work = .inval page llc →
      ∃ s' : State, exec (.invalidationComplete i) s = .next s' ∧ s'.mem = s.mem ∧ s'.op? i = none ∧
        (s.mmu.psCmd ≠ some i → ∀ t', s.strand? o.guid o.strand = some t' → t'.status = .waiting (.inval i) →
          s'.strand? o.guid o.strand = some { t' with status := .ready, pc := nextPc t'.pc 4 }) ∧
        (s.mmu.psCmd = some i → s'.mmu.psCmd = none ∧ s'.mmu.psStat = 0 ∧ s'.groups = s.groups) ∧
        (llc = false → page = none → (∀ x ∈ s'.mmu.tlb, x.cid ≠ o.cid) ∧ ∀ x ∈ s'.mmu.walk, x.cid ≠ o.cid) ∧
        (∀ p, llc = false → page = some p → (∀ x ∈ s'.mmu.tlb, x.covers o.cid (p * 4096) = false) ∧
          ∀ x ∈ s'.mmu.walk, ¬ (x.cid = o.cid ∧ x.vpn = vaTag (p * 4096) x.level))

/-- R348, R349, R350, R365: the status that PGSHARE and MIGR give and when, in an order of the checks that is deduced (notes/assumptions/50.md, 51.md); a
shared page: both leaves hold the COW entry, the frame's count rises and no die keeps a translation of either page; a dropped one: its leaf is no longer
valid, and the count falls or the frame is given back; a page that moves: its leaf is MIGRATING and KS counts. PGDROP waits while a resolution of the page
holds its frame's lock (R371), and leaves a page that is neither resident nor shared (R361). -/
def Obligations.MappingInstructions : Prop :=
  ∀ (s : State) (u k : Nat) (g : Group) (t : Strand) (d a : BitVec 6) (e : Word) (lv addr : Nat), Acts s u k g t →
    let xd := t.x d
    let xa := t.x a
    let frame := pteAddr e
    let status (i : Instr) (c : Nat) : Prop := Becomes i s u k t (t.setX d (BitVec.ofNat 64 c))
    (badPage xd = true → Traps (.pgshare d a) s u k t (trapOf 0x1B 0 xd)) ∧
    (badPage xd = false → badPage xa = true → Traps (.pgshare d a) s u k t (trapOf 0x1B 0 xa)) ∧
    (badPage xa = true → Traps (.pgdrop a) s u k t (trapOf 0x1B 0 xa)) ∧
    (1 < xd.toNat → Traps (.migr d a) s u k t (trapOf 0x1B 0 xd)) ∧
    (xd.toNat ≤ 1 → badPage xa = true → Traps (.migr d a) s u k t (trapOf 0x1B 0 xa)) ∧
    (badPage xa = false → s.walk g.cid xa.toNat = .absent →
      (badPage xd = false → status (.pgshare d a) 1) ∧ Becomes (.pgdrop a) s u k t t ∧ (xd.toNat ≤ 1 → status (.migr d a) 2)) ∧
    (badPage xa = false → s.walk g.cid xa.toNat = .leaf e lv addr →
      let dram := pteTier e = 0 ∧ s.dramOk g.cid frame = true ∧ s.rowSetFrame frame = false
      let stuck := lv = 2 ∨ pteCow e = true ∨ 2 ≤ pteTier e ∨ (pteTier e = 0 ∧ (s.rowSetFrame frame = true ∨ s.inReadingRoom (subOf frame) = true))
      (badPage xd = false → ¬dram → status (.pgshare d a) 1) ∧
      (badPage xd = false → dram → lv = 2 → status (.pgshare d a) 2) ∧
      (badPage xd = false → dram → lv ≠ 2 → s.l1Look g.cid xd.toNat = .ok none → status (.pgshare d a) 3) ∧
      (∀ slot, badPage xd = false → dram → lv ≠ 2 → s.l1Look g.cid xd.toNat = .ok (some slot) → pteV (s.pte g.cid slot) = true → status (.pgshare d a) 3) ∧
      (∀ slot, badPage xd = false → dram → lv ≠ 2 → s.l1Look g.cid xd.toNat = .ok (some slot) → pteV (s.pte g.cid slot) = false →
        ∃ s' : State, exec (.pgshare d a) s = .next s' ∧ s'.mem = ((s.setPte g.cid addr (pteSetCow e)).setPte g.cid slot (pteSetCow e)).mem ∧
          s'.strand? u k = some { t.setX d 0 with pc := nextPc t.pc 4 } ∧
          (s'.frameCount g.cid frame).toNat = Nat.min 0xFFFF ((s.frameCount g.cid frame).toNat + 1) ∧
          ∀ x ∈ s'.mmu.tlb, x.covers g.cid xa.toNat = false ∧ x.covers g.cid xd.toNat = false) ∧
      (2 ≤ pteTier e → Becomes (.pgdrop a) s u k t t) ∧
      (pteTier e < 2 → s.pageLocked g.cid (xa.toNat / 4096) = true → exec (.pgdrop a) s = .next s) ∧
      (pteTier e = 0 → lv ≠ 2 → s.pageLocked g.cid (xa.toNat / 4096) = false → ∃ s' : State, exec (.pgdrop a) s = .next s' ∧ (∀ x ∈ s'.mmu.tlb, x.covers g.cid xa.toNat = false) ∧
        s'.strand? u k = some { t with pc := nextPc t.pc 4 } ∧
        (0 < s.frameCount g.cid frame → s'.mem = (s.setPte g.cid addr (e &&& ~~~1)).mem ∧
          (s'.frameCount g.cid frame).toNat = (if s.frameCount g.cid frame = 0xFFFF then 0xFFFF else (s.frameCount g.cid frame).toNat - 1))) ∧
      (xd.toNat ≤ 1 → stuck → status (.migr d a) 2) ∧
      (xd.toNat ≤ 1 → ¬stuck → pteTier e = xd.toNat → status (.migr d a) 1) ∧
      (xd = 1 → ¬stuck → pteTier e ≠ 1 → s.anyPool = false → status (.migr d a) 4) ∧
      (xd.toNat ≤ 1 → ¬stuck → pteTier e ≠ xd.toNat → (xd = 1 → s.anyPool = true) → s.headBad g.cid = false → s.headHas g.cid xd.toNat = false → status (.migr d a) 3) ∧
      (xd.toNat ≤ 1 → ¬stuck → pteTier e ≠ xd.toNat → (xd = 1 → s.anyPool = true) → s.headBad g.cid = false → s.headHas g.cid xd.toNat = true →
        s.groupBad e addr = none →
        ∃ (s' : State) (m : Migration), exec (.migr d a) s = .next s' ∧ s'.mmu.migs = s.mmu.migs ++ [m] ∧ m.page = xa.toNat / 4096 ∧ m.cid = g.cid ∧
          m.tier.toNat = xd.toNat ∧ s'.strand? u k = some { t.mark d with ks := t.ks + 1, pc := nextPc t.pc 4 } ∧
          (pteCont e = false → s'.mem = (s.setPte g.cid addr (pteSetTier e 3)).mem)))

/-- R343, R63: ENQ counts on KS at issue; at commit a refused record writes no ring byte, and one that is taken is copied to the slot at TAIL before TAIL
moves; xD takes the status and that TAIL. The order of the statuses 3, 2 and 1 is deduced (notes/assumptions/52.md). -/
def Obligations.Enqueue : Prop :=
  (∀ (s s1 s2 : State) (u k : Nat) (g : Group) (t : Strand) (d a : BitVec 6) (pa ring : Nat), Acts s u k g t →
    s.locateEl (.core g.core) g.cid .read 128 (t.x a) = (.ok pa, s1) →
    let qid := natBits (t.x d).toNat 7 0
    let q := s1.queue qid
    let issues (b : State) (p : Place) : Prop := ∃ o : Op, o.id = b.fresh ∧ o.work = .enq qid (.phys pa) q.tail p d ∧
      exec (.enq d a) s = .next (({ b with fresh := b.fresh + 1, ops := b.ops ++ [o] } : State).modStrand u k fun t' => { t'.mark d with ks := t'.ks + 1, pc := nextPc t.pc 4 })
    (s1.enqStatus g.cid qid ≠ 0 → issues s1 (.buf .w 0)) ∧
    (s1.enqStatus g.cid qid = 0 → s1.locateEl (.core g.core) g.cid .write 128 (BitVec.ofNat 64 (q.slotVa q.tail)) = (.ok ring, s2) → issues s2 (.phys ring))) ∧
  ∀ (s : State) (i qid pa ring : Nat) (slot : BitVec 32) (p : Place) (d : BitVec 6) (o : Op) (g : Group) (t : Strand), s.op? i = some o →
    o.work = .enq qid (.phys pa) slot p d → s.opReady o = true → s.group? o.guid = some g → s.strand? o.guid o.strand = some t → d.toNat < t.v.length →
    s.badPlace (.phys pa) 128 = false → remoteOf s pa = none →
    let q := s.queue qid
    let gives (s' : State) (x : Nat) : Prop := exec (.enqCommit i) s = .next s' ∧ s'.op? i = none ∧
      ∃ t', s'.strand? o.guid o.strand = some t' ∧ t'.x d = BitVec.ofNat 64 x ∧ t'.ks = t.ks - 1 ∧ t'.pc = t.pc
    (q.state = .unbound ∨ q.feed ≠ 8 ∨ q.cid ≠ o.cid → ∃ s', gives s' 3 ∧ s'.mem = s.mem) ∧
    (q.state ≠ .unbound ∧ q.feed = 8 ∧ q.cid = o.cid → q.state ≠ .active ∧ q.state ≠ .stopped → ∃ s', gives s' 2 ∧ s'.mem = s.mem) ∧
    (q.feed = 8 ∧ q.cid = o.cid → q.state = .active ∨ q.state = .stopped → (q.tail - q.head).toNat = 2 ^ q.log2n → ∃ s', gives s' 1 ∧ s'.mem = s.mem) ∧
    (q.feed = 8 ∧ q.cid = o.cid → q.state = .active ∨ q.state = .stopped → (q.tail - q.head).toNat ≠ 2 ^ q.log2n → qid < s.queues.length →
      p = .phys ring → slot = q.tail → remoteOf s ring = none → s.locWaits (.phys ring) 128 = false → s.mem.wf = true →
      ∃ s', gives s' (2 ^ 32 * q.tail.toNat) ∧ (s'.queue qid).tail = q.tail + 1 ∧
        (∀ b, ring ≤ b → b < ring + 128 → (∀ x, ring ≤ x → x < ring + 128 → s.homeOf x / 32 = s.homeOf b / 32 → x / 32 = b / 32) →
          s'.readByte (s.keyOf g.cid) 0 b = s.readByte (s.keyOf g.cid) 0 (pa + (b - ring))) ∧
        ∀ b, ¬ (ring ≤ b ∧ b < ring + 128) → KeepsByte s (s.keyOf g.cid) 0 ring 128 b →
          s'.readByte (s.keyOf g.cid) 0 b = s.readByte (s.keyOf g.cid) 0 b)

/-! ## Tensor entries, the catalogue engine and the archive -/

/-- R111 to R116: what the instructions on a tensor entry read, write and answer. An entry that becomes bound clears the row status and the catalogue status
of its number (R297, R323). That the V bit of word 1 reads 1 exactly when the entry is bound is deduced (notes/assumptions/30.md). -/
def Obligations.TensorEntries : Prop :=
  ∀ (s : State) (u k : Nat) (g : Group) (t : Strand) (d a n : BitVec 6) (w : BitVec 4), Acts s u k g t → n.toNat < g.shelf.length →
    let e := g.entry n.toNat
    let entry (e' : Shelf) : State := s.modGroup u fun g' => g'.setEntry n.toNat e'
    let gives (i : Instr) (g' : Group) (x : Nat) : Prop :=
      exec i s = .next (s.modGroup u fun _ => { g' with strands := modAt g.strands k fun _ => { t.setX d (BitVec.ofNat 64 x) with pc := nextPc t.pc 4 } })
    Issues (.tsetw a w n) s u k t (entry { words := e.words.set w.toNat (t.x a), state := 1, bcode := 0 }) ∧
    (∃ v, Becomes (.tgetw d w n) s u k t (t.setX d v) ∧
      ∀ j, j < 64 → v.getLsbD j = if w.toNat = 1 ∧ j = 31 then decide (e.state = 2) else (wordAt e.words w.toNat).getLsbD j) ∧
    (∃ v, Becomes (.tstat d n) s u k t (t.setX d v) ∧ v = BitVec.ofNat 64 (e.state.toNat + 2 ^ 4 * e.bcode.toNat + 2 ^ 8 * (if e.state = 2 then entCdim e.words else 0))) ∧
    (e.state = 0 → gives (.tbind d n) g 9) ∧
    (e.state = 2 → gives (.tbind d n) g 0) ∧
    (e.state ≠ 0 → e.state ≠ 2 → bindCode e.words ≠ 0 → gives (.tbind d n) (g.setEntry n.toNat { e with bcode := BitVec.ofNat 4 (bindCode e.words) }) (bindCode e.words)) ∧
    (e.state ≠ 0 → e.state ≠ 2 → bindCode e.words = 0 →
      let e' : Shelf := { words := e.words.set 1 (wordAt e.words 1 ||| 0x80000000), state := 2, bcode := 0 }
      gives (.tbind d n) { g.setEntry n.toNat e' with rowStat := g.rowStat.set n.toNat 0, catStat := g.catStat.set n.toNat 0 } 0) ∧
    Issues (.tretTn n) s u k t (entry (if e.state = 0 then e else { e with words := e.words.set 1 (wordAt e.words 1 &&& ~~~0x80000000), state := 0 })) ∧
    (e.state = 2 → Issues (.tver a n) s u k t
      (entry { e with words := e.words.set 1 ((t.x a).extractLsb' 0 32 ++ (wordAt e.words 1).extractLsb' 0 32) })) ∧
    (e.state ≠ 2 → Traps (.tver a n) s u k t (trapOf 0x0E 0 (n.setWidth 64)))

/-- R315, R316, R318, R323: CATRUN and CATCHK are queued with their operands and count on KC; a check that fails stops them first; CATQ reads the status word,
by the model's choice that of an entry which is not bound too (notes/assumptions/101.md). R326 to R329: ARCIN and ARCOUT are queued and count on KC; STAGE and
HINT give the hint of the block, and STAGE counts on KC until every page has been staged; ARCSTAT reads the block state word. -/
def Obligations.CatalogueAndArchiveIssue : Prop :=
  (∀ (s : State) (u k : Nat) (g : Group) (t : Strand) (d a n : BitVec 6), Acts s u k g t →
     let e := g.entry n.toNat
     let xd := t.x d
     let format := entLayout e.words = 2 ∧ catFmt (entFmt e.words) = true ∧ entStr e.words 0 = 0 ∧ entSaddr e.words = 0
     let barrier := xd.getLsbD 50 = true → natBits xd.toNat 49 40 < 16 * (s.ctx g.cid).ba.toNat
     let row0 := natBits (t.x a).toNat 23 0
     let nrow := natBits (t.x a).toNat 47 24
     let rows := natBits xd.toNat 63 51 = 0 ∧ natBits (t.x a).toNat 63 48 = 0 ∧ nrow ≠ 0 ∧ row0 + nrow ≤ entExt e.words 1
     let queued (i : Instr) (kind : Nat) : Prop := ∃ (s' : State) (o : CatOp), exec i s = .next s' ∧ s'.cats = s.cats ++ [o] ∧ o.kind = kind ∧ o.guid = u ∧ o.strand = k ∧
       o.tid = n.toNat ∧ o.entry = e.words ∧ o.xd = xd ∧ o.xa = t.x a ∧ o.md = t.md ∧ o.phase = .start ∧ s'.mem = s.mem ∧
       s'.strand? u k = some { t with kc := t.kc + 1, pc := nextPc t.pc 4 }
     (e.state ≠ 2 → Traps (.catchk d a n) s u k t (trapOf 0x0E 0 (n.setWidth 64))) ∧
     (e.state = 2 → ¬format → Traps (.catchk d a n) s u k t (trapOf 0x0F 0 (n.setWidth 64))) ∧
     (e.state = 2 → format → rows → natBits xd.toNat 39 0 = 0 → barrier → queued (.catchk d a n) 1) ∧
     (e.state = 2 → format → ¬rows ∨ natBits xd.toNat 39 0 ≠ 0 → Traps (.catchk d a n) s u k t (trapOf 0x16 0 0)) ∧
     (e.state = 2 → format → rows → natBits xd.toNat 39 0 = 0 → ¬barrier →
       Traps (.catchk d a n) s u k t (trapOf 0x10 0 (BitVec.ofNat 64 (natBits xd.toNat 49 40)))) ∧
     (mdOk t.md = true → 8 ≤ mdType t.md → mdType t.md ≤ 10 → isStackCore g.core = false → Traps (.catrun d a n) s u k t (trapOf 0x0D 0 0)) ∧
     (let z := tyWidth (mdType t.md) / 8
      let oz := if xd.getLsbD 38 then 2 else 4
      let aoff := natBits xd.toNat 18 0
      let ooff := natBits xd.toNat 37 19
      let aend := aoff + z * entExt e.words 0
      let oend := ooff + oz * nrow
      mdOk t.md = true → 8 ≤ mdType t.md → mdType t.md ≤ 10 → isStackCore g.core = true → e.state = 2 → format → rows → barrier → aoff % z = 0 → ooff % oz = 0 →
        aend ≤ ooff ∨ oend ≤ aoff → aend ≤ s.partSize g .a → oend ≤ s.partSize g .a → queued (.catrun d a n) 0) ∧
     Becomes (.catq d n) s u k t (t.setX d (wordAt g.catStat n.toNat))) ∧
  (∀ (s : State) (u k : Nat) (g : Group) (t : Strand) (d a n : BitVec 6), Acts s u k g t →
     let e := g.entry n.toNat
     let xd := t.x d
     let xa := t.x a
     let npg := natBits xd.toNat 19 0
     let place := xa.toNat % 2 ^ 21 = 0 ∧ xa.toNat < 2 ^ 57 ∧ xa.toNat + 16384 * npg ≤ 2 ^ 57
     let barrier := xd.getLsbD 50 = true → natBits xd.toNat 49 40 < 16 * (s.ctx g.cid).ba.toNat
     let queued (i : Instr) (kind : Nat) : Prop := ∃ (s' : State) (o : ArcOp), exec i s = .next s' ∧ s'.arc.ops = s.arc.ops ++ [o] ∧ o.kind = kind ∧ o.guid = u ∧ o.strand = k ∧
       o.tid = n.toNat ∧ o.entry = e.words ∧ o.xd = xd ∧ o.xa = xa ∧ o.code = none ∧ s'.mem = s.mem ∧ s'.strand? u k = some { t with kc := t.kc + 1, pc := nextPc t.pc 4 }
     (e.state ≠ 2 → ∀ i ∈ [Instr.arcin d a n, .arcout d a n, .stage a n, .hint a n], Traps i s u k t (trapOf 0x0E 0 (n.setWidth 64))) ∧
     (e.state = 2 → entLayout e.words = 1 ∨ entBase e.words % 4096 ≠ 0 → Traps (.arcin d a n) s u k t (trapOf 0x0F 0 (n.setWidth 64))) ∧
     (e.state = 2 → entLayout e.words ≠ 1 → entBase e.words % 4096 = 0 → natBits xd.toNat 39 21 = 0 → natBits xd.toNat 63 51 = 0 → npg ≠ 0 → place → barrier →
       queued (.arcin d a n) 2) ∧
     (e.state = 2 → natBits xd.toNat 39 0 = 0 → natBits xd.toNat 63 51 = 0 → place → barrier → queued (.arcout d a n) 3) ∧
     (e.state = 2 → entLayout e.words ≠ 1 → entBase e.words % 4096 = 0 → npg = 0 ∨ ¬place → Traps (.arcin d a n) s u k t (trapOf 0x16 0 0)) ∧
     (e.state = 2 → natBits xa.toNat 63 32 ≠ 0 → Traps (.hint a n) s u k t (trapOf 0x16 0 0) ∧ Traps (.stage a n) s u k t (trapOf 0x16 0 0)) ∧
     (e.state = 2 → natBits xa.toNat 63 32 = 0 →
       let hints (s' : State) : Prop := ∀ b, s.blockAt g.cid (entBase e.words) Version.isBlock = some b → ∀ v ∈ s'.arc.versions, v.cid = g.cid → v.isBlock = true →
         v.baddr = b.baddr → v.hint = some (BitVec.ofNat 4 (entPrio e.words), xa.extractLsb' 0 32)
       (∃ s' : State, exec (.hint a n) s = .next s' ∧ hints s' ∧ s'.mem = s.mem ∧ s'.strand? u k = some { t with pc := nextPc t.pc 4 }) ∧
       (∀ v j p, s.readableAt g.cid (entBase e.words) = some v → s.version? v.id = some v → v.npg = j + 1 → s.pageOf v.id 0 = some p →
         s.staged? p.addr = none → ∃ (s' : State) (o : ArcOp), exec (.stage a n) s = .next s' ∧ hints s' ∧ o ∈ s'.arc.ops ∧ o.kind = 4 ∧ o.guid = u ∧
           o.strand = k ∧ o.vid = some v.id ∧ s'.strand? u k = some { t with kc := t.kc + 1, pc := nextPc t.pc 4 })) ∧
     (∃ w, Becomes (.arcstat d a) s u k t (t.setX d w) ∧
       (s.blockAt g.cid xa.toNat Version.isBlock = none → w = 0) ∧
       (∀ b, s.blockAt g.cid xa.toNat Version.isBlock = some b →
         (s.ofBlock b Version.readable = none → w = 1) ∧
         (∀ v, s.ofBlock b Version.readable = some v → w = BitVec.ofNat 64
           ((if (s.ofBlock b fun x => decide (x.state = .installing)).isSome then 3 else 2) + 2 ^ 8 * v.npg + 2 ^ 28 * s.stagedCount v)))))

/-! ## REP -/

/-- R198, R224, R225, R199: one issue of a pair is the iteration that RI names, with its stepped registers and with the effect of the instruction it
prefixes; RI moves on, and past the last one PC passes the pair. A pair that may not be formed takes the illegal-instruction trap with both
words. -/
def Obligations.RepIteration : Prop :=
  (∀ (j : Instr) (f : Nat → Nat → Group → Strand → State → Eff State), repBody j = some f → ∀ s : State, exec j s = runM f s) ∧
  (∀ (d a b : BitVec 6) (x : BitVec 1) (sf : BitVec 3) (n : Nat),
    let up (j : Nat) (r : BitVec 6) : Nat := r.toNat + if sf.getLsbD j then n else 0
    up 2 d < 48 → up 1 a < 48 → up 0 b < 48 →
      decode (stepWord sf (encode (.add d a b 0 x)) n) = .ok (.add (BitVec.ofNat 6 (up 2 d)) (BitVec.ofNat 6 (up 1 a)) (BitVec.ofNat 6 (up 0 b)) 0 x)) ∧
  ∀ (s s1 : State) (u k : Nat) (g : Group) (t : Strand) (c : BitVec 6) (sf inc : BitVec 3) (w : BitVec 32), Acts s u k g t →
    s.secondWord g t = (.word w, s1) →
    let i := t.ri.toNat
    let n := i * (inc.toNat + 1)
    let illegal (detail : BitVec 4) : Prop := exec (.rep c sf inc) s = .next (s1.takeTrap u k (trapOf 0x01 detail (w ++ encode (.rep c sf inc))) t.pc)
    (∀ e, decode w = .error e → illegal e) ∧
    (∀ j, decode w = .ok j → repBody j = none ∨ stepOk sf j.fields = false → illegal 5) ∧
    (∀ j, decode w = .ok j → (repBody j).isSome = true → stepOk sf j.fields = true →
      (c.toNat < i → exec (.rep c sf inc) s = .next (s1.modStrand u k fun t' => { t' with ri := 0, pc := nextPc t.pc 8 })) ∧
      (i ≤ c.toNat → stepInRange sf j.fields n = false → illegal 3) ∧
      (∀ (j1 : Instr) (f : Nat → Nat → Group → Strand → State → Eff State) (s2 : State), i ≤ c.toNat → stepInRange sf j.fields n = true →
        decode (stepWord sf w n) = .ok j1 → repBody j1 = some f →
        (f u k g t s1 = .done s2 → exec (.rep c sf inc) s =
          .next (s2.modStrand u k fun t' => if i = c.toNat then { t' with ri := 0, pc := nextPc t.pc 8 } else { t' with ri := BitVec.ofNat 6 (i + 1) })) ∧
        ∀ tr, f u k g t s1 = .trap s2 tr → exec (.rep c sf inc) s = .next (s2.takeTrap u k tr t.pc)))

/-! ## The events of row instructions -/

/-- R288, R298, R300, R305, R306: the preparation, the hold, the start of a wave, and the two ways in which a row stack puts an instruction aside. R293 to R297: a step of ROWLD writes one row of a slice, sealed; the sealing steps seal rows and write no byte; retirement writes the status word,
drops the hold and lets KR fall. -/
def Obligations.RowScheduling : Prop :=
  (∀ (s : State) (i : Nat) (stk : BitVec 4) (o : RowOp), s.rowOp? i = some o →
     (∀ (g : Group) (o1 : RowOp) (s1 : State) (c : Byte) (n : Nat), s.group? o.guid = some g → o.phase = .prep → g.stage = .resident → o.wait = none → o.failed = false →
       s.longReady i o.guid o.strand (rowReads o) (rowWrites o) = true →
       (prepRow g { o with code := 0 } s = (.ready, o1, s1) → o1.phase = .prepared ∧ exec (.rowPreparation i) s = .next (s1.modRowOp i fun _ => o1)) ∧
       (prepRow g { o with code := 0 } s = (.waits, o1, s1) → exec (.rowPreparation i) s = .next (s1.modRowOp i fun _ => o1)) ∧
       (prepRow g { o with code := 0 } s = (.code c n, o1, s1) → exec (.rowPreparation i) s = .next (s1.modRowOp i fun o => o.fail c n))) ∧
     (∀ g, s.group? o.guid = some g → o.phase = .prepared → g.stage = .resident → s.holdsLater o = false →
       ∃ (s' : State) (o' : RowOp), exec (.rowHold i) s = .next s' ∧ s'.rowOp? i = some o' ∧ o'.held = heldRows o ∧ (o'.phase = .running ∨ o'.phase = .holding) ∧
         s'.mem = s.mem ∧ (∀ c ∈ s'.cores, ∀ r ∈ c.replicas, r.line * 128 / 1024 ∉ heldRows o) ∧
         ((∀ p ∈ s.rows.ops, p.id ≠ i → ∀ row ∈ p.held, row ∉ heldRows o) → o'.phase = .running)) ∧
     (∀ r, s.stepReady i stk.toNat = some (o, r) → r.phase = .wave →
       ∃ (s' : State) (o' : RowOp) (r' : StackRun), exec (.waveStart i stk) s = .next s' ∧ s'.rowOp? i = some o' ∧ o'.run? stk.toNat = some r' ∧ r'.phase = .steps ∧ r'.pc = 0 ∧
         r'.lp = 0 ∧ r'.la = none ∧ r'.regs = List.replicate r.slices.length { cr := 0, acc := 0, out := [] } ∧ r'.since = 0 ∧ o'.steps = o.steps ∧
         s'.mem.cells = s.mem.cells) ∧
     (∀ r b rest, o.run? stk.toNat = some r → s.rows.seq[stk.toNat]? = some (i :: b :: rest) → 4096 ≤ r.since → r.noForce = false → r.phase = .steps →
       ∃ (s' : State) (o' : RowOp) (r' : StackRun), exec (.forcedSwitch stk) s = .next s' ∧ s'.rows.seq[stk.toNat]? = some (b :: rest ++ [i]) ∧ s'.rowOp? i = some o' ∧
         o'.run? stk.toNat = some r' ∧ r'.wave = r.snap.wave ∧ r'.pc = r.snap.pc ∧ r'.lp = r.snap.lp ∧ r'.la = r.snap.la ∧ r'.regs = r.snap.regs ∧ r'.outs = r.snap.outs ∧
         r'.noForce = true ∧ s'.mem.cells = s.mem.cells) ∧
     (∀ g r, s.group? o.guid = some g → g.stage = .stopping → s.rowGoes o g = false → o.run? stk.toNat = some r → r.paused = false → r.phase = .steps →
       ∃ (s' : State) (o' : RowOp) (r' : StackRun), exec (.rowPreemptStop i stk) s = .next s' ∧ s'.rowOp? i = some o' ∧ o'.run? stk.toNat = some r' ∧ r'.paused = true ∧
         r'.pc = r.snap.pc ∧ r'.regs = r.snap.regs ∧ i ∉ s'.rows.seq.getD stk.toNat [] ∧ s'.mem.cells = s.mem.cells)) ∧
  (∀ (s : State) (i : Nat) (stk : BitVec 4) (o : RowOp), s.rowOp? i = some o →
     (∀ (r : StackRun) (x : Slice) (pa : Nat), s.stepReady i stk.toNat = some (o, r) → r.phase = .steps → r.slices = [x] → x.a[r.pc]? = some pa → s.mem.wf = true →
       (o.kind = 0 → o.toLinear = false → s.outWaits o = false → ∃ (s' : State) (o' : RowOp), exec (.rowldPlaneStep i stk) s = .next s' ∧ s'.rowOp? i = some o' ∧ o'.steps = o.steps + 1 ∧
         RowsOnly s s' [pa] ∧ s'.rowSealed pa = true ∧
         s'.rowLanes pa = (planeFrom o (o.ew.getD []) (rowNumber o pa / entWidth o.ea) (rowNumber o pa % entWidth o.ea) s).1) ∧
       (o.kind = 0 → o.toLinear = true → ∃ (s' : State) (o' : RowOp), exec (.rowldPlaneStep i stk) s = .next s' ∧ s'.rowOp? i = some o' ∧ o'.steps = o.steps + 1 ∧
         s'.mem.cells = s.mem.cells) ∧
       (o.kind = 2 → ∃ (s' : State) (o' : RowOp), exec (.rowsealStep i stk) s = .next s' ∧ s'.rowOp? i = some o' ∧ o'.steps = o.steps + 1 ∧ s'.rowSealed pa = true ∧
         s'.mem.cells = s.mem.cells)) ∧
     (∀ (r : StackRun) (x : Slice) (p pa : Nat), s.stepReady i stk.toNat = some (o, r) → r.phase = .aseal → r.slices = [x] → r.wrote[r.pos]? = some p →
       (if p / 2 ^ 20 = 0 then x.a else if p / 2 ^ 20 = 1 then x.b else x.c)[p % 2 ^ 20]? = some pa →
       ∃ (s' : State) (o' : RowOp), exec (.asealStep i stk) s = .next s' ∧ s'.rowOp? i = some o' ∧ o'.steps = o.steps + 1 ∧ s'.rowSealed pa = true ∧ s'.mem.cells = s.mem.cells) ∧
     (∀ g t, s.group? o.guid = some g → s.strand? o.guid o.strand = some t → o.phase = .retiring → g.stage = .resident → o.code ≠ 0 → o.options.getLsbD 50 = false →
       o.tid < g.rowStat.length →
       ∃ (s' : State) (g' : Group) (t' : Strand), exec (.rowRetire i) s = .next s' ∧ s'.rowOp? i = none ∧ (∀ l ∈ s'.locks, l.id ≠ i) ∧ s'.mem = s.mem ∧
         s'.group? o.guid = some g' ∧ g'.rowStat[o.tid]? = some o.status ∧ s'.strand? o.guid o.strand = some t' ∧ t'.kr = t.kr - 1 ∧ t'.v = t.v))

/-! ## Queues, kernels, groups -/

/-- R61, R65, R66, R67, R69, R73, R74, R80: how a record is fetched and checked, which one is admitted, how a kernel gets its snapshots, and how it ends. -/
def Obligations.LaunchEvents : Prop :=
  (∀ (s s1 : State) (qid : BitVec 8) (r : List Word),
    let n := qid.toNat
    let q := s.queue n
    q.head ≠ q.tail → q.state = .active → q.held = none → s.admits q.cid = true → s.headHeld n = false →
      ((s.dropAsk (.queue n)).readRecord n = (none, s1) → (s1.queue n).state = .active →
        exec (.recordFetch qid) s = .next (s1.modQueue n fun q => { q with state := .faulted, fcause := 1 })) ∧
      ((s.dropAsk (.queue n)).readRecord n = (some r, s1) → recordOk r = false → exec (.recordFetch qid) s = .next (s1.reject n r 0x42)) ∧
      ((s.dropAsk (.queue n)).readRecord n = (some r, s1) → recordOk r = true →
        (∀ s2, s1.evalClauses q.cid r (List.replicate (recBits r 0 10 8) false) 0 = (none, s2) → exec (.recordFetch qid) s = .next (s2.reject n r 0x43)) ∧
        ∀ l s2, s1.evalClauses q.cid r (List.replicate (recBits r 0 10 8) false) 0 = (some l, s2) →
          exec (.recordFetch qid) s = .next (s2.modQueue n fun q => { q with held := some { words := r, met := l } }))) ∧
  (∀ (s s1 : State) (qid : BitVec 8) (h : Held) (l : List Bool),
    let n := qid.toNat
    let q := s.queue n
    q.held = some h → q.state = .active → s.admits q.cid = true → h.met.all id = false →
      (s.evalClauses q.cid h.words h.met 0 = (some l, s1) →
        let s2 := s1.modQueue n fun q => { q with held := some { h with met := l } }
        exec (.waitClauseRecheck qid) s = .next (if l.all id then s2.dropAsk (.queue n) else s2.askClauses n q.cid h.words l)) ∧
      (s.evalClauses q.cid h.words h.met 0 = (none, s1) → s1.cwHeld q.cid h.words = false → exec (.waitClauseRecheck qid) s = .next (s1.reject n h.words 0x43))) ∧
  (∀ (s : State) (n : Nat), s.nextQueue = some n →
    s.admissible n = true ∧ (∀ m, m < 256 → s.admissible m = true → s.prioOf m ≤ s.prioOf n) ∧
    ∀ h, (s.queue n).held = some h → ∃ (s' : State) (k : Kernel), exec .admission s = .next s' ∧ s'.kernels = s.kernels ++ [k] ∧ k.qid = n ∧ k.cid = (s.queue n).cid ∧
      k.record = h.words ∧ k.stage = .admitted ∧ s'.served = s.served.set (s.prioOf n) n ∧ s'.mem = s.mem ∧
      (n < s.queues.length → (s'.queue n).head = (s.queue n).head + 1 ∧ (s'.queue n).held = none)) ∧
  (∀ (s s1 : State) (uid : Nat) (k : Kernel) (b t i p : List Byte), s.kernel? uid = some k → k.stage = .admitted → k.wait = false → k.failed = false →
    readSpans k.cid k.spans s [] = ((.bytes b, [t, i, p]), s1) →
      let table := (List.range 16).map fun j => BitVec.ofNat 32 (leNat ((t.drop (4 * j)).take 4))
      (k.stagesOk table = true → exec (.snapshotsHeld uid) s =
        .next ((s1.dropAsk (.snap uid)).modKernel uid fun k => { k with stage := .placing, snap := some { table := table, image := wordsOf 1024 i, params := p } })) ∧
      (k.stagesOk table = false → exec (.snapshotsHeld uid) s = .next (s1.failKernel uid 0x05))) ∧
  (∀ (s : State) (uid : Nat) (k : Kernel), s.kernel? uid = some k → k.stage = .draining → s.groupsOf uid = [] → (∀ o ∈ s.arc.ops, o.kuid ≠ uid) →
    s.cwHeld k.cid k.record = false →
    ∃ s' : State, exec (.kernelEnd uid) s = .next s' ∧ s'.kernel? uid = none ∧
      (k.qid < s.queues.length → (s'.queue k.qid).lastTag = some k.tag) ∧ (k.cid < s.contexts.length → (s'.ctx k.cid).cur = (s.ctx k.cid).cur + 1))

/-- R71, R75, R76, R82, R85, R88, R90 to R95: placing, saving and restoring a group, the two ways in which the device makes room, and the end of a group. -/
def Obligations.GroupEvents : Prop :=
  (∀ (s : State) (k : Kernel) (e : Nat) (slots : List Nat) (w a c : Nat), s.placer = some k → s.chooseCore k = some e → s.fit (s.onCore e) k e = some (slots, w, a, c) →
    (∀ snap, k.snap = some snap → k.stage = .placing → s.nextSaved k = none →
      ∃ (s0 : State) (g : Group), exec (.groupPlace k.uid) s = .next (s0.topUpAll s.fresh (k.spgm1 + 1)) ∧ s0.groups = s.groups ++ [g] ∧ s0.mem = s.mem ∧ s0.place = e ∧
        g.uid = s.fresh ∧ g.kuid = k.uid ∧ g.cid = k.cid ∧ g.l = k.nextL ∧ g.stage = .resident ∧ g.core = e ∧ g.slots = slots ∧ g.wb = w ∧ g.ab = a ∧ g.cb = c ∧
        g.strands = (List.range (k.spgm1 + 1)).map fun j =>
          Strand.placed (BitVec.ofNat 64 (recBits k.record 1 56 6 * 64 + (snap.table.getD (k.nextL / (k.gx * k.gy * k.gz)) 0).toNat)) k.nextL j) ∧
    (∀ uid g g', s.group? uid = some g → s.nextSaved k = some g' → g'.uid = uid →
      (∀ pa, s.badFrame g.frame k.frameCount = some pa → exec (.groupRestore uid) s = .next (s.contextError g.cid 1 0 pa)) ∧
      (s.badFrame g.frame k.frameCount = none →
        ∃ (s0 : State) (g3 : Group), exec (.groupRestore uid) s = .next ((s0.resumeRows uid).topUpAll uid g.strands.length) ∧ s0.group? uid = some g3 ∧ g3.stage = .resident ∧
          g3.core = e ∧ g3.slots = slots ∧ g3.restores = g.restores + 1 ∧ g3.late = [] ∧ s0.mem = s.mem))) ∧
  (∀ (s : State) (uid : Nat) (g : Group) (k : Kernel), s.group? uid = some g → s.kernel? g.kuid = some k →
    let stops (i : Instr) (reason : BitVec 2) (halt : Bool) : Prop := ∃ (s' : State) (g' : Group), exec i s = .next s' ∧ s'.group? uid = some g' ∧ g'.stage = .stopping ∧
      g'.reason = reason ∧ g'.halt = halt ∧ g'.strands = g.strands ∧ s'.mem = s.mem
    (g.stage = .resident → g.stepped = true → stops (.preemption uid) 2 true) ∧
    (g.stage = .resident → g.stepped = false → s.canSave g = true → (∃ q ∈ s.kernels, s.yieldsTo g k q = true) → stops (.preemption uid) 0 g.halt) ∧
    (g.stage = .resident → s.canSave g = true → (k.nextL < k.groupCount ∨ ∃ h ∈ s.groups, h.kuid = k.uid ∧ h.stage = .saved ∧ s.advanced h = true) → (∀ j t, g.strands[j]? = some t → (s.waitsStep g j t).isSome = true) →
      stops (.superstepYield uid) 1 g.halt) ∧
    (∀ f, g.stage = .stopping → s.atPoints g = true → s.saveRun g.cid k.frameCount = some f →
      (s.goodRun f k.frameCount = false → exec (.groupSave uid) s = .next (s.contextError g.cid 3 0 (f * 4096))) ∧
      (s.goodRun f k.frameCount = true → ∃ (s' : State) (g' : Group), exec (.groupSave uid) s = .next s' ∧ s'.group? uid = some g' ∧ g'.stage = .saved ∧ g'.frame = f ∧
        g'.core = 160 ∧ g'.slots = [] ∧ s'.mem = (s.saveFrame { g with strands := g.strands.map fun t => t.atSave g.cqb, frame := f, step := if g.halt then false else g.step } k).mem)) ∧
    (g.stage = .aborting → s.abortedQuiet g = true → ∃ s' : State, exec (.groupEnd uid) s = .next s' ∧ s'.group? uid = none ∧ s'.mem = s.mem) ∧
    (g.stage ≠ .aborting → g.stage ≠ .saved → s.groupDone g = true →
      ∃ (s' : State) (k' : Kernel), exec (.groupEnd uid) s = .next s' ∧ s'.group? uid = none ∧ s'.kernel? k.uid = some k' ∧ k'.ended = k.ended + 1 ∧ s'.mem = s.mem ∧
        (k.ended + 1 = k.groupCount → k'.stage = .draining ∧ k'.status = some (k.status.getD 0)))) ∧
  (∀ (s : State) (uid : Nat) (k : BitVec 3) (g : Group) (t : Strand), s.group? uid = some g → g.strands[k.toNat]? = some t → g.stage = .resident →
    (∀ set drain, t.status = .waiting (.counters set drain) → s.waitOver uid k.toNat t set drain = true → exec (.strandWake uid k) s = .next (s.modStrand uid k.toNat Strand.resume)) ∧
    (∀ b gen phase d timed x, t.status = .waiting (.barrier b gen phase d timed (some x)) →
      exec (.strandWake uid k) s = .next (s.modStrand uid k.toNat fun t => (t.landX d (waitResult false x)).resume)) ∧
    (∀ b, t.status = .waiting (.idle b) → exec (.idleTimeout uid k) s = .next (s.modStrand uid k.toNat Strand.resume)) ∧
    (∀ b gen phase d, t.status = .waiting (.barrier b gen phase d true none) →
      ∃ x, exec (.bwaitTimeout uid k) s = .next (s.tick.modStrand uid k.toNat fun t => (t.landX d (waitResult true x)).resume)))

/-! ## Host commands -/

/-- R40 to R54, R443: the context commands of the owner. One of another port is refused with status 2, one of a slot whose command is in progress with status
6, one of a state that does not allow it with status 1, each without an effect; an allowed one has its effect and status 0, or stays in progress. -/
def Obligations.ContextCommands : Prop :=
  ∀ (s : State) (port : BitVec 3) (w : Word), s.contexts.length = 64 → s.windows.length = 8 →
    let c := cidOf w
    let x := s.ctx c
    let fails (i : Instr) (code : Nat) : Prop := exec i s = .next (s.ctxReply port.toNat c code 0)
    let done (i : Instr) (f : Context → Context) : Prop := exec i s = .next ((s.modCtx c f).ctxReply port.toNat c 0 0)
    let becomes (i : Instr) (st : CtxState) (busy : Bool) : Prop := ∃ s' : State, exec i s = .next s' ∧ (s'.ctx c).state = st ∧ (s'.ctx c).cmd.isSome = busy ∧ s'.mem = s.mem
    let early := x.state = .claimed ∨ x.state = .scrubbing ∨ x.state = .ready ∨ x.state = .running ∨ x.state = .suspended
    let live := x.state = .ready ∨ x.state = .running ∨ x.state = .suspended
    let rec128 := s.sysRead (natBits w.toNat 61 16 * 64) 128
    let desc := wordsOf 8 (s.sysRead (natBits w.toNat 61 16 * 64) 64)
    let page := natBits w.toNat 55 16 * 4096
    let any := w.getLsbD 16
    let rest := [Instr.loaddesc port w, .loadkey port w, .activate port w, .resume port w, .retireAbort port w, .retireFinish port w, .release port w,
      .addquota port w, .addframes port w, .setceil port w]
    (s.plat.owner.toNat ≠ port.toNat → (∀ i ∈ rest, fails i 2) ∧ exec (.claim port w) s = .next (s.ctxReply port.toNat (if any then 0 else c) 2 0)) ∧
    (s.plat.owner.toNat = port.toNat →
      (x.cmd.isSome = true → ∀ i ∈ rest, fails i 6) ∧
      ((s.ctx (if any then 0 else c)).cmd.isSome = true → exec (.claim port w) s = .next (s.ctxReply port.toNat (if any then 0 else c) 6 0)) ∧
      (any = true → c ≠ 0 → (s.ctx 0).cmd = none → exec (.claim port w) s = .next (s.ctxReply port.toNat 0 3 0))) ∧
    (natBits w.toNat 63 14 = 0 → exec (.query port w) s = .next ((s.modWindow port.toNat fun v => { v with ctxBox := v.ctxBox.headD 0 :: x.answer }).ctxReply port.toNat c 0 0)) ∧
    (s.plat.owner.toNat = port.toNat → x.cmd = none → natBits w.toNat 15 14 = 0 →
      (w.toNat / 2 ^ 16 = 0 → x.state = .free → done (.claim port w) fun _ => { Context.reset with state := .claimed, owner := s.plat.owner }) ∧
      (w.toNat / 2 ^ 16 = 0 → x.state ≠ .free → fails (.claim port w) 1) ∧
      (w.toNat / 2 ^ 16 = 1 → c = 0 → ∀ free, free < 64 → (s.ctx free).state = .free →
        ∃ (s' : State) (n : Nat), exec (.claim port w) s = .next s' ∧ n < 64 ∧ (s.ctx n).state = .free ∧ (s'.ctx n).state = .claimed ∧
          s'.window port.toNat = { s.window port.toNat with ctxStat := (s.window port.toNat).ctxStat.set 0 (BitVec.ofNat 64 (2 ^ 16 * n)) }) ∧
      (natBits w.toNat 63 62 = 0 → x.state = .claimed → s.descOk desc = true → ∃ s' : State, exec (.loaddesc port w) s = .next s' ∧
        let y := s'.ctx c
        y.desc = true ∧ y.state = .claimed ∧ y.root = (wordAt desc 0).extractLsb' 12 40 ∧ y.pceil = (wordAt desc 0).extractLsb' 0 3 ∧
        y.fflh = (wordAt desc 1).extractLsb' 12 40 ∧ y.ffln = (wordAt desc 2).extractLsb' 0 32 ∧ y.flow = (wordAt desc 2).extractLsb' 32 32 ∧
        y.wq = (wordAt desc 3).extractLsb' 0 41 ∧ y.ba = (wordAt desc 4).extractLsb' 0 7 ∧ y.saveb = (wordAt desc 5).extractLsb' 12 40 ∧ y.saven = (wordAt desc 6).extractLsb' 0 32) ∧
      (natBits w.toNat 63 62 = 0 → s.descOk desc = false → fails (.loaddesc port w) 3) ∧
      (natBits w.toNat 63 62 = 0 → x.state = .claimed → rec128.getD 0 0 = 1 → (∀ b ∈ (rec128.drop 2).take 6, b = 0) → (∀ b ∈ rec128.drop 80, b = 0) →
        (∀ key, s.unwrapKey rec128 = .ok key → done (.loadkey port w) fun x => { x with key := some key }) ∧ ∀ e, s.unwrapKey rec128 = .error e → fails (.loadkey port w) e) ∧
      (w.toNat / 2 ^ 16 = 0 →
        (x.state = .claimed → x.desc = true → x.key.isSome = true → becomes (.activate port w) .scrubbing true) ∧
        (x.state = .claimed → x.desc = false ∨ x.key = none → fails (.activate port w) 5) ∧
        (x.state = .suspended → becomes (.resume port w) .ready false) ∧ (x.state ≠ .suspended → fails (.resume port w) 1) ∧
        (x.state = .ready ∨ x.state = .running → ∃ s' : State, exec (.suspend port w) s = .next s' ∧ (s'.ctx c).state = .suspended ∧
          ∀ u g, s.group? u = some g → g.cid = c → g.stage = .resident → ∃ g', s'.group? u = some g' ∧ g'.stage = .stopping ∧ g'.reason = 3) ∧
        (x.state = .retired → done (.release port w) fun _ => Context.reset) ∧
        (x.state = .claimed → ∃ s' : State, exec (.release port w) s = .next s' ∧ s'.ctx c = Context.reset ∧ ∀ n, n < 256 → (s'.queue n).cid = c → (s'.queue n).state = .unbound) ∧
        (live → ∃ s' : State, exec (.retireAbort port w) s = .next s' ∧ (s'.ctx c).state = .draining ∧ (s'.ctx c).cmd.isSome = true ∧
          ∀ u k, s.kernel? u = some k → k.cid = c → k.stage ≠ .draining →
            ∃ k', s'.kernel? u = some k' ∧ k'.stage = .draining ∧ k'.status = some (k.status.getD 0x01)) ∧
        (¬live → fails (.retireAbort port w) 1)) ∧
      (w.toNat / 2 ^ 16 = 1 → live → becomes (.retireFinish port w) .draining true) ∧
      (natBits w.toNat 63 57 = 0 → early → x.wq.toInt + (natBits w.toNat 56 16 : Nat) < 2 ^ 40 →
        done (.addquota port w) fun y => { y with wq := BitVec.ofInt 41 (x.wq.toInt + (natBits w.toNat 56 16 : Nat)) }) ∧
      (natBits w.toNat 63 56 = 0 → early → s.goodFrame page = true → s.badList page = false →
        (x.fflh = 0 ∨ ∃ last, s.lastPage c (x.fflh.toNat * 4096) (x.ffln.toNat + 1) = .ok last) → ∃ s' : State, exec (.addframes port w) s = .next s' ∧
        (s'.ctx c).ffln = x.ffln + BitVec.ofNat 32 (((List.range 511).filter fun i => decide (pteAddr (s.pte c (page + 8 * (i + 1))) ≠ 0)).length + 1) ∧
        (x.fflh = 0 → (s'.ctx c).fflh = BitVec.ofNat 40 (page / 4096) ∧ s'.mem = s.mem)) ∧
      (w.toNat / 2 ^ 19 = 0 → early → done (.setceil port w) fun x => { x with pceil := w.extractLsb' 16 3 }))

/-- R59 to R63, R72, R82, R83, R95, R96: the queue commands and the kernel commands. That binding clears the TAG of the last kernel and unbinding clears
FCAUSE is deduced (notes/assumptions/56.md, 60.md). -/
def Obligations.QueueCommands : Prop :=
  ∀ (s : State) (port : BitVec 3) (w : Word), s.queues.length = 256 → s.windows.length = 8 →
    let n := qidOf w
    let q := s.queue n
    let fails (i : Instr) (code : Nat) : Prop := exec i s = .next (s.qReply port.toNat n code)
    let done (i : Instr) (f : Queue → Queue) : Prop := exec i s = .next ((s.modQueue n f).qReply port.toNat n 0)
    let op1 := wordAt (s.window port.toNat).qBox 1
    let tag := w.toNat / 2 ^ 16
    let l := natBits op1.toNat 51 0
    let all := [Instr.qbind port w, .qstart port w, .qstop port w, .qunbind port w]
    (s.plat.owner.toNat ≠ port.toNat → ∀ i ∈ all, fails i 2) ∧
    (s.plat.owner.toNat = port.toNat → q.cmd.isSome = true → ∀ i ∈ all, fails i 6) ∧
    (tag = 0 → ∃ s' : State, exec (.qquery port w) s = .next s' ∧ s'.queues = s.queues ∧ (s'.window port.toNat).qBox =
      [(s.window port.toNat).qBox.headD 0, s.qstat n, q.head.setWidth 64, q.tail.setWidth 64,
        if q.state = .unbound then 0 else BitVec.ofNat 64 (q.cid + 2 ^ 6 * q.level.toNat + 2 ^ 9 * q.feed + 2 ^ 16 * q.log2n), if q.state = .unbound then 0 else q.base, 0, 0]) ∧
    (s.plat.owner.toNat = port.toNat → q.cmd = none →
      (let log2n := natBits w.toNat 36 32
       let base := natBits op1.toNat 56 12 * 4096
       let x := s.ctx (natBits w.toNat 21 16)
       natBits w.toNat 31 29 = 0 → natBits w.toNat 63 37 = 0 → natBits w.toNat 28 25 ≤ 8 → 4 ≤ log2n → log2n ≤ 16 → natBits op1.toNat 11 0 = 0 → natBits op1.toNat 63 57 = 0 →
        base % Nat.max 4096 (128 * 2 ^ log2n) = 0 → q.state = .unbound → x.state.early = true →
        done (.qbind port w) fun q => { q with state := .stopped, cid := natBits w.toNat 21 16, level := w.extractLsb' 22 3, feed := natBits w.toNat 28 25, log2n := log2n,
                                                base := BitVec.ofNat 64 base, head := 0, tail := 0, held := none, lastTag := none }) ∧
      (tag = 0 → q.state = .stopped → done (.qstart port w) fun q => { q with state := .active }) ∧
      (tag = 0 → q.state = .faulted → done (.qstart port w) fun q => { q with state := .active, fcause := 0, held := none }) ∧
      (tag = 0 → q.state ≠ .stopped ∧ q.state ≠ .faulted → fails (.qstart port w) 1) ∧
      (tag = 0 → q.state = .active → done (.qstop port w) fun q => { q with state := .stopped }) ∧
      (tag = 0 → q.state = .stopped → s.nadm n = 0 → done (.qunbind port w) Queue.unbind) ∧
      (tag = 0 → q.state = .stopped → s.nadm n ≠ 0 → fails (.qunbind port w) 1) ∧
      (tag = 0 → q.state = .stopped ∨ q.state = .active ∨ q.state = .faulted → q.head ≠ q.tail →
        ∃ s' : State, exec (.qdrain port w) s = .next s' ∧ (s'.queue n).state = .draining ∧ (s'.queue n).dstatus = 0x41 ∧ (s'.queue n).cmd.isSome = true ∧ (s'.queue n).head = q.head) ∧
      (tag = 0 → q.state = .stopped ∨ q.state = .active ∨ q.state = .faulted → q.head = q.tail → s.nadm n = 0 → (s.ctx q.cid).state = .running →
        ∃ s' : State, exec (.qdrain port w) s = .next s' ∧ (s'.queue n).state = .stopped ∧ (s'.queue n).cmd = none) ∧
      (∀ k, s.tagged n tag = some k → k.stage ≠ .draining → s.kernel? k.uid = some k →
        exec (.kabort port w) s = .next ((s.abortKernel k.uid 0x02).qReply port.toNat n 0) ∧
        (k.held = false → ∃ (s' : State) (k' : Kernel), exec (.khold port w) s = .next s' ∧ s'.kernel? k.uid = some k' ∧ k'.held = true ∧
          ∀ u g, s.group? u = some g → g.kuid = k.uid → g.stage = .resident → ∃ g', s'.group? u = some g' ∧ g'.stage = .stopping ∧ g'.reason = 3) ∧
        (k.held = true → ∃ (s' : State) (k' : Kernel), exec (.kresume port w) s = .next s' ∧ s'.kernel? k.uid = some k' ∧ k'.held = false ∧ s'.mem = s.mem) ∧
        (k.held = true → fails (.khold port w) 1) ∧
        (∀ g, natBits op1.toNat 63 52 = 0 → l < k.groupCount → s.groupAt k.uid l = some g → s.group? g.uid = some g → g.stage = .resident → g.halt = false →
          ∃ (s' : State) (g' : Group), exec (.ghalt port w) s = .next s' ∧ s'.group? g.uid = some g' ∧ g'.stage = .stopping ∧ g'.reason = 2 ∧ g'.halt = true ∧
            (s'.queue n).cmd.isSome = true ∧ s'.mem = s.mem) ∧
        (∀ g, natBits op1.toNat 55 53 = 0 → l < k.groupCount → s.groupAt k.uid l = some g → s.group? g.uid = some g → g.stage = .saved → g.halt = true →
          ∃ (s' : State) (g' : Group), exec (.gresume port w) s = .next s' ∧ s'.group? g.uid = some g' ∧ g'.stage = .saved ∧ g'.halt = false ∧ g'.step = op1.getLsbD 52 ∧
            g'.mask = op1.extractLsb' 56 8 ∧ g'.strands.length = g.strands.length ∧
            ∀ j t, g'.strands[j]? = some t → t.stepLeft = if op1.getLsbD 52 then some (if (op1.extractLsb' 56 8).getLsbD j then 1 else 0) else none)) ∧
      (s.tagged n tag = none → ∀ i ∈ [Instr.kabort port w, .khold port w, .kresume port w], fails i 3)) ∧
    ∀ (qid : BitVec 8),
      let q := s.queue qid.toNat
      let t : BitVec 32 := w.extractLsb' 0 32
      let sets (f : Queue → Queue) : Prop := exec (.qtail port qid w) s = .next (s.modQueue qid.toNat f)
      (q.state = .unbound ∨ q.feed ≠ port.toNat → sets fun q => { q with drop := true }) ∧
      (q.state ≠ .unbound → q.feed = port.toNat → (t - q.head).toNat ≤ 2 ^ q.log2n → (q.tail - q.head).toNat ≤ (t - q.head).toNat → sets fun q => { q with tail := t }) ∧
      (q.state = .stopped ∨ q.state = .active → q.feed = port.toNat → 2 ^ q.log2n < (t - q.head).toNat → sets fun q => { q with state := .faulted, fcause := 2 }) ∧
      (q.state = .stopped ∨ q.state = .active → q.feed = port.toNat → (t - q.head).toNat ≤ 2 ^ q.log2n → (t - q.head).toNat < (q.tail - q.head).toNat →
        sets fun q => { q with state := .faulted, fcause := 3 })

/-- R369, R370, R376 to R378, R403: the commands of the page service, of row sets and of the archive's configuration. Only the owner's take effect; one
written while another of its kind is in progress gets status 6, one with a reserved bit set status 3. That a set is busy until its rows are zeroed, and
refused while it is being freed, is deduced (notes/assumptions/71.md). -/
def Obligations.ServiceCommands : Prop :=
  ∀ (s : State) (port : BitVec 3) (w : Word),
    let mine := s.plat.owner.toNat = port.toNat
    let c := natBits w.toNat 13 8
    let id := natBits w.toNat 25 16
    let status (i : Instr) (code : Byte) : Prop := ∃ s' : State, exec i s = .next s' ∧ s'.mmu.psStat = code ∧ s'.mmu.tlb = s.mmu.tlb ∧ s'.mem = s.mem
    let rows (i : Instr) (code : Byte) : Prop := exec i s = .next { s with rows := { s.rows with stat := code } }
    let idle := s.contexts.all (fun x => decide (x.state = .free)) = true
    (¬mine → ∀ i ∈ [Instr.resolve port w, .failpg port w, .inval port w, .invall port w, .rsalloc port w, .rsfree port w, .rscfg port w, .rrcfg port w, .modid port w],
      exec i s = .next s) ∧
    (mine → s.mmu.psCmd.isSome = true → ∀ i ∈ [Instr.resolve port w, .failpg port w, .inval port w, .invall port w], status i 6) ∧
    (mine → s.mmu.psCmd = none →
      (natBits w.toNat 63 31 ≠ 0 → status (.resolve port w) 3 ∧ status (.failpg port w) 3) ∧
      (natBits w.toNat 18 14 ≠ 0 → status (.inval port w) 3) ∧
      (natBits w.toNat 63 14 ≠ 0 → status (.invall port w) 3) ∧
      (natBits w.toNat 63 31 = 0 → ∀ p, s.pend? (natBits w.toNat 18 14) (natBits w.toNat 30 19) = some p →
        (p.cid = c → s.mmu.queue = [] → ∀ g k t va acc, p.waiters = [.strand g k] → s.strand? g k = some t → t.status = .swapped va acc none →
          (∃ s' t', exec (.resolve port w) s = .next s' ∧ s'.pend? p.die p.idx = none ∧ s'.mmu.psStat = 0 ∧ s'.strand? g k = some t' ∧ t'.status = .swapped va acc (some true)) ∧
          ∃ s' t', exec (.failpg port w) s = .next s' ∧ s'.pend? p.die p.idx = none ∧ s'.mmu.psStat = 0 ∧ s'.strand? g k = some t' ∧ t'.status = .swapped va acc (some false)) ∧
        (p.cid ≠ c → status (.resolve port w) 1 ∧ status (.failpg port w) 1)) ∧
      (natBits w.toNat 18 14 = 0 → ∃ (s' : State) (o : Op), exec (.inval port w) s = .next s' ∧ s'.ops = s.ops ++ [o] ∧ o.cid = c ∧ s'.mmu.psCmd = some o.id ∧
        o.work = .inval (some (natBits w.toNat 63 19)) false ∧ s'.mem = s.mem) ∧
      (natBits w.toNat 63 14 = 0 → ∃ (s' : State) (o : Op), exec (.invall port w) s = .next s' ∧ s'.ops = s.ops ++ [o] ∧ o.cid = c ∧ s'.mmu.psCmd = some o.id ∧
        o.work = .inval none false ∧ s'.mem = s.mem)) ∧
    (mine → s.rows.busy.isSome = true → rows (.rsalloc port w) 6 ∧ rows (.rsfree port w) 6) ∧
    (s.rows.busy.isSome = true → rows (.rsquery port w) 6) ∧
    (s.rows.busy = none →
      (mine → natBits w.toNat 15 14 ≠ 0 ∨ natBits w.toNat 63 37 ≠ 0 → rows (.rsalloc port w) 3) ∧
      (natBits w.toNat 15 14 ≠ 0 ∨ natBits w.toNat 63 26 ≠ 0 → (mine → rows (.rsfree port w) 3) ∧ rows (.rsquery port w) 3)) ∧
    (s.rows.busy = none → natBits w.toNat 15 14 = 0 → natBits w.toNat 63 26 = 0 → ∃ s' : State, exec (.rsquery port w) s = .next s' ∧ s'.rows.stat = 0 ∧
      s'.rows.rsid.toNat = id ∧ s'.rows.rsState.toNat = s.setCode id ∧ s'.rows.sets = s.rows.sets ∧ s'.mem = s.mem) ∧
    (mine → s.rows.busy = none → natBits w.toNat 15 14 = 0 →
      (let l2 := natBits w.toNat 31 28
       let base := natBits w.toNat 27 20
       natBits w.toNat 63 37 = 0 → l2 ≤ 8 → base % 2 ^ l2 = 0 → ∀ rsid subs, s.freeRsid = some rsid →
        s.pickSubs (natBits w.toNat 19 16) base (natBits w.toNat 36 32 + 1) (16 * 2 ^ l2) = some subs →
        ((s.ctx c).state.early = true → ∃ (s' : State) (r : RowSet), exec (.rsalloc port w) s = .next s' ∧ s'.rows.sets = s.rows.sets ++ [r] ∧ r.id = rsid ∧ r.cid = c ∧
          r.subs = subs ∧ r.zeroing = true ∧ r.freeing = false ∧ s'.rows.busy = some rsid ∧ s'.mem = s.mem) ∧
        ((s.ctx c).state.early = false → rows (.rsalloc port w) 1)) ∧
      (natBits w.toNat 63 26 = 0 → ∀ r, s.setOfId? id = some r →
        (r.cid = c → r.freeing = false → s.computing r = false → ∃ (s' : State) (r' : RowSet), exec (.rsfree port w) s = .next s' ∧ s'.setOfId? id = some r' ∧ r'.freeing = true ∧
          s'.rows.busy = some id ∧ s'.mem = s.mem) ∧
        (r.cid ≠ c ∨ r.freeing = true ∨ s.computing r = true → rows (.rsfree port w) 1))) ∧
    (mine → idle → natBits w.toNat 5 0 + 2 * s.arc.units.toNat ≤ 32 →
      exec (.rscfg port w) s = .next { s with rows := { s.rows with nr := BitVec.ofNat 6 (natBits w.toNat 5 0) } }) ∧
    (mine → idle → exec (.modid port w) s = .next { s with links := { s.links with modid := w.extractLsb' 0 8 } }) ∧
    (mine → ¬idle → ∀ i ∈ [Instr.rscfg port w, .rrcfg port w, .modid port w], exec i s = .next s)

/-- R376, R377, R380, R382 to R385: the end of a row set's zeroing; refresh, whose dues go round the 16 banks and whose postponed refreshes run oldest first;
the service gap; and a soft error. That eight postponed refreshes force one in an idle bank is deduced (notes/assumptions/72.md), and so is a sealed row that
keeps its true bytes beside the wrong bits (notes/assumptions/73.md). -/
def Obligations.RowStackEvents : Prop :=
  (∀ (s : State) (rsid : BitVec 10) (r : RowSet), s.setOfId? rsid.toNat = some r →
    let zero (s' : State) : Prop := (∀ a, a < 2 ^ 40 → subOf a ∈ r.subs → cellGet s'.mem.cells a = 0) ∧ ∀ a, 2 ^ 40 ≤ a ∨ subOf a ∉ r.subs → cellGet s'.mem.cells a = cellGet s.mem.cells a
    (r.zeroing = false → r.freeing = true → s.mem.wf = true → ∃ s' : State, exec (.rowSetZeroingEnd rsid) s = .next s' ∧ s'.setOfId? rsid.toNat = none ∧ zero s' ∧
      (s.rows.busy = some r.id → s'.rows.busy = none ∧ s'.rows.stat = 0)) ∧
    (r.zeroing = true → ∃ (s' : State) (r' : RowSet), exec (.rowSetZeroingEnd rsid) s = .next s' ∧ s'.setOfId? rsid.toNat = some r' ∧ r'.zeroing = false ∧ r'.subs = r.subs ∧
      (∀ row ∈ s'.mem.unsealed, row * 1024 < 2 ^ 40 → subOf (row * 1024) ∉ r.subs) ∧
      (s.rows.busy = some r.id → s'.rows.busy = none ∧ s'.rows.stat = 0 ∧ s'.rows.rsid = rsid))) ∧
  (∀ (s : State) (stk bank : BitVec 4) (pch : BitVec 8),
    let f := s.refreshAt stk.toNat pch.toNat
    let after (i : Instr) (p : Refresh → Prop) : Prop := ∃ s' : State, exec i s = .next s' ∧ p (s'.refreshAt stk.toNat pch.toNat) ∧ s'.mem = s.mem
    let turn := s.plat.on = true ∧ f.all = false ∧ f.due = false ∧ bank.toNat = f.next
    let busy (b : Nat) : Bool := s.bankBusy stk.toNat pch.toNat b
    let tail (b n : Nat) : Bool := s.bankTail stk.toNat pch.toNat b n
    let postponed (x : Refresh) : Prop := x.postponed = f.postponed ++ [bank.toNat] ∧ x.banks = f.banks
    let runs (x : Refresh) : Prop := x.banks = f.banks ++ [bank.toNat] ∧ x.postponed = f.postponed
    (bank.toNat ≠ f.next → exec (.refreshDue stk pch bank) s = .next s) ∧
    (turn → f.postponed.length = 8 → after (.refreshDue stk pch bank) fun x => x.due = true ∧ x.postponed = f.postponed ∧ x.next = (f.next + 1) % 16) ∧
    (turn → f.postponed.length < 8 → busy bank.toNat = true → after (.refreshDue stk pch bank) fun x => postponed x ∧ x.next = (f.next + 1) % 16) ∧
    (turn → f.postponed.length < 8 → busy bank.toNat = false →
      (tail bank.toNat 0 = false → after (.refreshDue stk pch bank) fun x => runs x ∧ x.next = (f.next + 1) % 16) ∧
      after (.refreshDue stk pch bank) fun x => (runs x ∨ postponed x) ∧ x.next = (f.next + 1) % 16) ∧
    (∀ b, f.due = false → f.all = false → (f.postponed.find? fun b => !f.banks.contains b && !busy b && !tail b 1) = some b → tail bank.toNat 1 = false →
      (b = bank.toNat → after (.postponedRefresh stk pch bank) fun x => x.postponed = f.postponed.erase bank.toNat ∧ x.banks = f.banks ++ [bank.toNat]) ∧
      (b ≠ bank.toNat → exec (.postponedRefresh stk pch bank) s = .next s)) ∧
    (f.due = true → after (.allBankRefresh stk pch) fun x => x.all = true ∧ x.postponed = [] ∧ x.due = false ∧ x.next = 0) ∧
    (f.all = true → after (.refreshEnd stk pch bank) fun x => x.all = false) ∧
    (f.all = false → after (.refreshEnd stk pch bank) fun x => x.banks = f.banks.erase bank.toNat)) ∧
  (∀ (s : State) (stk : BitVec 4) (o : Op) (items : List LoadItem) (ro : Bool), 4 ≤ s.rows.gap.getD stk.toNat 0 → s.gapHeads stk.toNat = [.op o] →
    s.rows.refresh = [] → o.work = .load items ro →
    let open' := s.setSeq stk.toNat fun _ => []
    ∃ s1 : State, exec (.loadComplete o.id) { open' with rows := { open'.rows with gap := s.rows.gap.set stk.toNat 0 } } = .next s1 ∧
      exec (.serviceGap stk) s = .next (s1.setSeq stk.toNat fun added => s.rows.seq.getD stk.toNat [] ++ added)) ∧
  ∀ (s : State) (addr : BitVec 40) (bit : BitVec 3),
    (s.rowSealed addr.toNat = false → s.mem.wf = true → ∃ s' : State, exec (.softError addr bit) s = .next s' ∧
      (∀ j, j < 8 → (cellGet s'.mem.cells addr.toNat).getLsbD j = ((cellGet s.mem.cells addr.toNat).getLsbD j ^^ decide (j = bit.toNat))) ∧
      ∀ a, a ≠ addr.toNat → cellGet s'.mem.cells a = cellGet s.mem.cells a) ∧
    (s.rowSealed addr.toNat = true → (addr.toNat, bit.toNat) ∉ s.mem.flips → ∃ s' : State, exec (.softError addr bit) s = .next s' ∧
      s'.mem.flips = s.mem.flips ++ [(addr.toNat, bit.toNat)] ∧ s'.mem.cells = s.mem.cells) ∧
    (s.rowSealed addr.toNat = true → (addr.toNat, bit.toNat) ∈ s.mem.flips → ∃ s' : State, exec (.softError addr bit) s = .next s' ∧
      (addr.toNat, bit.toNat) ∉ s'.mem.flips ∧ s'.mem.cells = s.mem.cells)

/-! ## Platform and links -/

/-- R436, R437, R441, R442, R444 to R448: ownership, attestation, power, the phases of bring-up, and a clock that changes. What the ROM verifies is a constant
of the device (notes/assumptions/8.md). Deduced: the loss of the owner's port keeps PEND (notes/assumptions/75.md), the links phase brings up what trains
(77.md), a reserved bit of an attestation command gives status 3 (80.md), and the readings of the sensors and the way up of a clock are the model's choice
(78.md). -/
def Obligations.PlatformEvents : Prop :=
  ∀ (s : State) (port : BitVec 3) (w : Word),
    let plat (i : Instr) (f : Platform → Platform) : Prop := exec i s = .next { s with plat := f s.plat }
    let owner := s.plat.owner.toNat = port.toNat
    let bits := w.toNat / 2 ^ 8 = 0
    let t : BitVec 4 := w.extractLsb' 4 4
    let none' : BitVec 4 := 0xF
    (bits → s.plat.lockout = false → s.plat.phase = 5 → s.plat.owner = none' → s.plat.heldEvents = [] →
      plat (.ownClaim port w) fun x => { x with owner := port.setWidth 4, lockout := false, heldEvents := [] }) ∧
    (s.plat.lockout = false → ¬bits ∨ s.plat.phase ≠ 5 ∨ s.plat.owner ≠ none' → exec (.ownClaim port w) s = .next s) ∧
    (bits → owner → t ≠ s.plat.owner → plat (.ownGive port w) fun x => { x with pend := t }) ∧
    (¬owner → exec (.ownGive port w) s = .next s ∧ exec (.ownRelease port w) s = .next s) ∧
    (bits → s.plat.pend.toNat = port.toNat → s.plat.heldEvents = [] →
      plat (.ownTake port w) fun x => { x with pend := none', owner := port.setWidth 4, lockout := false, heldEvents := [] }) ∧
    (s.plat.pend.toNat ≠ port.toNat → exec (.ownTake port w) s = .next s) ∧
    (bits → owner → plat (.ownRelease port w) fun x => { x with owner := none', pend := none' }) ∧
    plat .ownrel (fun x => { x with owner := none', pend := none' }) ∧
    plat .giveExpiry (fun x => { x with pend := none' }) ∧
    (let u := 40 + s.plat.owner.toNat
     (s.plat.owner.toNat < 8 → (s.unit u).state = .up ∨ (s.unit u).state = .degraded → exec .ownerPortLoss s =
       .next { s.modUnit u fun l => { l with en := false, state := .down, defer := false } with plat := { s.plat with owner := none', lockout := true } }) ∧
     ((s.unit u).state ≠ .up → (s.unit u).state ≠ .degraded → exec .ownerPortLoss s = .next s)) ∧
    (let cmd (i : Instr) (f : Window → Window) : Prop := exec i s = .next (s.modWindow port.toNat f)
     let v := s.window port.toNat
     (¬owner → cmd (.session port w) fun v => { v with atStat := 2 }) ∧
     (v.atCmd.isSome = true → cmd (.report port w) (fun v => { v with atStat := 6 }) ∧ (owner → cmd (.session port w) fun v => { v with atStat := 6 })) ∧
     (v.atCmd = none → natBits w.toNat 7 4 = 0 → natBits w.toNat 63 12 = 0 → cmd (.report port w) (fun v => { v with atStat := 0, atCmd := some w }) ∧
       (owner → cmd (.session port w) fun v => { v with atStat := 0, atCmd := some w })) ∧
     (v.atCmd = none → natBits w.toNat 63 12 ≠ 0 → cmd (.report port w) (fun v => { v with atStat := 3 }) ∧ (owner → cmd (.session port w) fun v => { v with atStat := 3 })) ∧
     (∀ a, v.atCmd = some a → s.windows.length = 8 → ∃ s' : State, exec (.attestationCommandEnd port) s = .next s' ∧ (s'.window port.toNat).atCmd = none ∧
       (s'.window port.toNat).atStat = 0 ∧ (natBits a.toNat 3 0 ≠ 1 → natBits a.toNat 11 8 < s.plat.sessions.length →
         (s'.plat.sessions.getD (natBits a.toNat 11 8) none).isSome = true ∧ s'.mem = s.mem))) ∧
    (s.plat.on = false → plat .pwrOn fun x => { x with on := true, phase := 1 }) ∧
    (let kept (s' : State) : Prop := s'.arc.pages = s.arc.pages ∧ s'.rows.retired = s.rows.retired ∧ s'.mem.host = s.mem.host ∧ s'.mem.cells = [] ∧ s'.contexts = State.reset.contexts ∧
        s'.groups = [] ∧ s'.kernels = [] ∧ s'.plat.owner = State.reset.plat.owner ∧ s'.agenda = s.agenda
     (s.plat.on = true → ∃ s' : State, exec .pwrOff s = .next s' ∧ kept s' ∧ s'.plat.on = false) ∧
     (s.plat.on = true → ∃ s' : State, exec .rst s = .next s' ∧ kept s' ∧ s'.plat.on = true ∧ s'.plat.phase = 1)) ∧
    (∀ p : Nat, ∀ i ∈ [(2, Instr.memoryPhase false), (3, .archivePhase false), (4, .linksPhase false)], i.1 = p → s.plat.phase = BitVec.ofNat 3 p →
      plat i.2 fun x => { x with phase := 7 }) ∧
    (∀ ok, s.plat.phase = 1 → ∃ s' : State, exec (.bootPhase ok) s = .next s' ∧ s'.mem = s.mem ∧
      if ok = true ∧ firmwareVerified = true then s'.plat.phase = 2 ∧ s'.plat.mlkem.isSome = true ∧ s'.links = s.links ∧
        ∀ j img, (j, img) ∈ [(0, Config.firmwareImage), (1, Config.firmwareConfig)] → j < s.plat.measures.length →
          s'.plat.measures.getD j [] = shake256 (s.plat.measures.getD j [] ++ shake256 img 64) 64
      else s'.plat = { s.plat with phase := 7 } ∧ ∀ u, 40 ≤ u → u < 48 → (s'.unit u).io = true) ∧
    (s.plat.phase = 2 → ∃ s' : State, exec (.memoryPhase true) s = .next s' ∧ s'.plat.phase = 3 ∧ s'.mem.cells = [] ∧ s'.mem.unsealed = [] ∧ s'.mem.flips = [] ∧ s'.mem.host = s.mem.host) ∧
    (s.plat.phase = 3 → ∃ s' : State, exec (.archivePhase true) s = .next s' ∧ s'.plat.phase = 4 ∧ (∀ v ∈ s'.arc.versions, v.state ≠ .installed ∧ v.state ≠ .old ∧ v.state ≠ .installing) ∧
      s'.mem = s.mem) ∧
    (s.plat.phase = 4 → ∃ s' : State, exec (.linksPhase true) s = .next s' ∧ s'.plat.phase = 5 ∧ (∀ u, 16 ≤ u → u < 48 → (s.unit u).state = .training → (s'.unit u).state = .up) ∧
      s'.mem = s.mem) ∧
    ∀ (d : BitVec 5) (r : Reading), d.toNat < s.plat.temps.length →
      let f := s.plat.clocks.getD d.toNat 0
      let hot := 100 < r.temp.toNat ∨ s.plat.plim.toNat < r.power.toNat
      ∃ s' : State, exec (.throttleChange d r) s = .next s' ∧ s'.plat.temps = s.plat.temps.set d.toNat r.temp ∧ s'.plat.power = r.power ∧
        (8 ≤ d.toNat → s'.plat.clocks = s.plat.clocks) ∧
        (d.toNat < 8 → (hot → 1100 ≤ f.toNat → s'.plat.clocks = s.plat.clocks.set d.toNat (f - 100)) ∧ (hot → f.toNat < 1100 → s'.plat.clocks = s.plat.clocks) ∧
          (¬hot → f.toNat ≤ 1900 → s'.plat.clocks = s.plat.clocks.set d.toNat (f + 100)) ∧ (¬hot → 1900 < f.toNat → s'.plat.clocks = s.plat.clocks))

/-- R407 to R412, R449, R160, R161: the states of a link, an access of another module, and a host's CXL.mem access. That a failed vertical bus sets Viral and
discards contexts and queues at once is deduced (notes/assumptions/108.md, 76.md). -/
def Obligations.LinkEvents : Prop :=
  (∀ (s : State) (port : BitVec 3) (k : BitVec 4) (u : BitVec 6) (n : Nat), u.toNat < 48 → k.toNat = n → s.links.units.length = 48 →
    let l := s.unit n
    let x := s.unit u.toNat
    let link (i : Instr) (f : Link → Link) : Prop := exec i s = .next (s.modUnit n f)
    let unit (i : Instr) (f : Link → Link) : Prop := exec i s = .next (s.modUnit u.toNat f)
    let owner := s.plat.owner.toNat = port.toNat
    let fails (i : Instr) (m : Nat) : Prop := ∃ s' : State, exec i s = .next s' ∧ (s'.unit m).state = .failed ∧ (s'.unit m).defer = false
    (¬owner → ∀ i ∈ [Instr.linkEnable port k, .linkDisable port k, .rtr port k], exec i s = .next s) ∧
    (owner → l.en = false → l.state = .down → link (.linkEnable port k) fun l => { l with en := true, state := .training, retr := 0 }) ∧
    (owner → link (.linkDisable port k) fun l => { l with en := false, state := .down, defer := false }) ∧
    (owner → l.state = .up → s.awaitedOn n = false → link (.rtr port k) fun l => { l with prev := .up, state := .retraining, defer := false }) ∧
    (owner → l.state = .up → s.awaitedOn n = true → link (.rtr port k) fun l => { l with defer := true }) ∧
    link (.flitCheckFailure k) (fun l => { l with crce := if l.crce = 0xFFFF then 0xFFFF else l.crce + 1 }) ∧
    (∀ wid peer pk, x.state = .training → 16 ≤ u.toNat → u.toNat < 40 → unit (.trainingEnd u wid peer pk) fun x => { x with state := .up, io := false }) ∧
    (∀ wid peer pk, x.state = .training → 40 ≤ u.toNat →
      unit (.trainingEnd u wid peer pk) fun x => { x with state := if wid = 0 then .up else .degraded, io := x.io || decide (pk ≠ 0) }) ∧
    (∀ wid peer pk, x.state = .training → u.toNat < 16 →
      unit (.trainingEnd u wid peer pk) fun x => { x with state := if wid = 0 then .up else .degraded, wid := if wid = 3 then 0 else wid, peer := peer, peerlk := pk }) ∧
    (x.state = .training → fails (.trainingTimeout u) u.toNat) ∧
    (x.state = .up ∨ x.state = .degraded → s.awaitedOn u.toNat = false → unit (.realignmentDue u) fun x => { x with prev := x.state, state := .retraining, defer := false }) ∧
    (x.state = .up ∨ x.state = .degraded → x.defer = true → unit (.deferralExpiry u) fun x => { x with prev := x.state, state := .retraining, defer := false }) ∧
    (x.state = .up ∨ x.state = .degraded → unit (.checkFailureLimit u) fun x => { x with prev := x.state, state := .retraining, defer := false }) ∧
    (∀ wid, x.state = .retraining → wid ≠ 3 → wid.toNat ≤ x.wid.toNat ∨ (16 ≤ u.toNat ∧ u.toNat < 40) →
      unit (.retrainingEnd u wid) fun x => { x with state := x.prev, retr := if x.retr = 0xFFFF then 0xFFFF else x.retr + 1 }) ∧
    (∀ wid, x.state = .retraining → x.wid.toNat < wid.toNat → wid ≠ 3 → u.toNat < 16 ∨ 40 ≤ u.toNat →
      unit (.retrainingEnd u wid) fun x => { x with state := .degraded, wid := wid, retr := if x.retr = 0xFFFF then 0xFFFF else x.retr + 1 }) ∧
    (x.state = .retraining → fails (.retrainingTimeout u) u.toNat) ∧
    (∀ d : BitVec 5, d.toNat < 24 → (s.unit (16 + d.toNat)).state ≠ .failed → ∃ s' : State, exec (.verticalBusFailure d) s = .next s' ∧ (s'.unit (16 + d.toNat)).state = .failed ∧
      s'.links.viral = true ∧ s'.contexts = State.reset.contexts ∧ s'.queues = State.reset.queues ∧ s'.kernels = [] ∧ s'.groups = [] ∧
      s'.plat.measures = State.reset.plat.measures ∧ s'.plat.sessions = State.reset.plat.sessions)) ∧
  (∀ (s : State) (k : BitVec 4) (scid : BitVec 6) (addr : BitVec 40) (ver : BitVec 32) (kind : RemoteKind) (size : BitVec 6) (data : BitVec 256),
    (s.unit k.toNat).state = .up ∨ (s.unit k.toNat).state = .retraining →
    let pa := addr.toNat
    let n := remoteSize kind size
    let acc : Instr := .remoteAccess k scid addr ver kind size data
    let refused : Prop := exec acc s = .next { s with answer := some { poison := true, data := [] } }
    (s.binding (s.unit k.toNat).peer scid = none → refused) ∧
    (∀ c, s.binding (s.unit k.toNat).peer scid = some c → s.frameTag (pa / 4096 * 4096) ≠ some c → refused) ∧
    (∀ c, s.binding (s.unit k.toNat).peer scid = some c → pa + n ≤ 2 ^ 40 → s.goodFrame pa = true → s.goodFrame (pa + n - 1) = true → s.frameTag (pa / 4096 * 4096) = some c →
      s.frameTag ((pa + n - 1) / 4096 * 4096) = some c →
      let waits := s.homeWaits s.fresh pa n = true ∨ (s.unit k.toNat).state = .retraining
      let done (bs : List Byte) (m : Memory) : Prop := ∃ s' : State, exec acc s = .next s' ∧ s'.answer = some { poison := false, data := bs } ∧ s'.mem = m ∧
        s'.groups = s.groups ∧ s'.heldRemote = s.heldRemote
      let old := s.readBytes (s.keyOf c) ver pa n
      (waits → ∃ (s' : State) (h : HeldRemote), exec acc s = .next s' ∧ s'.heldRemote = s.heldRemote ++ [h] ∧ h.addr = addr ∧ h.kind = kind ∧ h.data = data ∧ h.link = k ∧
        s'.mem = s.mem ∧ s'.answer = s.answer) ∧
      (¬waits → kind = .write → done [] (s.writeBytes (s.keyOf c) ver pa (leBytes n data.toNat)).mem) ∧
      (¬waits → kind = .read → s.badPlace (.phys pa) n = false → done old s.mem) ∧
      (¬waits → kind = .read → s.badPlace (.phys pa) n = true → exec acc s = .next { s.countSpan c pa n with answer := some { poison := true, data := [] } }) ∧
      (∀ fn ty x, ¬waits → kind = .atomic fn ty → s.badPlace (.phys pa) n = false →
        atomicNew (remoteFn fn) ty.toNat (leNat old) (data.toNat % 2 ^ (8 * n)) (data.toNat / 2 ^ 64 % 2 ^ (8 * n)) = some x →
          done old (s.writeBytes (s.keyOf c) ver pa (leBytes n x)).mem))) ∧
  (∀ (s : State) (port : BitVec 3) (addr : BitVec 46) (size : BitVec 6) (data : BitVec 512), (s.unit (40 + port.toNat)).io = false →
    let up := (s.unit (40 + port.toNat)).state = .up
    let c := addr.toNat / 2 ^ 40
    let pa := addr.toNat % 2 ^ 40
    let n := if size = 0 then 64 else size.toNat
    let acc (wr : Bool) : Instr := .hostCxlMemAccess port addr wr size data
    (up → s.cxlRefused c pa n = true → exec (acc false) s = .next { s with answer := some { poison := true, data := [] } } ∧
      exec (acc true) s = .next { s with answer := some { poison := false, data := [] } }) ∧
    ((up ∧ s.cxlRefused c pa n = false ∧ s.homeWaits s.fresh pa n = true) ∨ (s.unit (40 + port.toNat)).state = .retraining → ∀ wr, ∃ (s' : State) (h : HeldCxl), exec (acc wr) s = .next s' ∧ s'.heldCxl = s.heldCxl ++ [h] ∧ h.addr = addr ∧
      h.write = wr ∧ h.data = data ∧ s'.mem = s.mem ∧ s'.answer = s.answer) ∧
    (up → s.cxlRefused c pa n = false → s.homeWaits s.fresh pa n = false →
      (∃ s' : State, exec (acc true) s = .next s' ∧ s'.answer = some { poison := false, data := [] } ∧ s'.mem = (s.writeBytes (s.keyOf c) 0 pa (leBytes n data.toNat)).mem) ∧
      (s.badPlace (.phys pa) n = false → ∃ s' : State, exec (acc false) s = .next s' ∧ s'.answer = some { poison := false, data := s.readBytes (s.keyOf c) 0 pa n } ∧ s'.mem = s.mem))) ∧
  (∀ (s : State) (port : BitVec 3) (addr : BitVec 46) (wr : Bool) (size : BitVec 6) (data : BitVec 512), (s.unit (40 + port.toNat)).io = true →
    exec (.hostCxlMemAccess port addr wr size data) s = .next s) ∧
  ∀ (s : State) (i : Nat) (h : HeldCxl), s.heldCxl.find? (fun h => h.id == i) = some h →
    (s.holder? (h.addr.toNat % 2 ^ 40) (cxlSize h.size) = none → exec (.heldCxlTimeout i) s = .next s) ∧
    ((s.holder? (h.addr.toNat % 2 ^ 40) (cxlSize h.size)).isSome = true →
      ∃ s' : State, exec (.heldCxlTimeout i) s = .next s' ∧ (∀ x ∈ s'.heldCxl, x.id ≠ i) ∧ s'.answer = some { poison := !h.write, data := [] })

/-! ## The page, the archive and the catalogue engine -/

/-- R355, R358, R363, R366, R368, R369, R439: a walk, held records, the resolution of a copy-on-write fault, and a migration. -/
def Obligations.PagingEvents : Prop :=
  (∀ (s : State) (die : BitVec 5) (cid : BitVec 6) (va : BitVec 64) (kind : BitVec 2) (a : Acc), die.toNat < 24 → s.walkable cid.toNat = true → accOf kind = some a →
    exec (.tableWalk die cid va kind) s = .next (s.translate (.unit die.toNat) cid.toNat va a).2) ∧
  (∀ (s : State) (x : List Word), s.mmu.ring.held = [x] → s.mmu.ring.en = true → (s.mmu.ring.tail - s.mmu.ring.head).toNat < 2 ^ s.mmu.ring.log2n.toNat →
    ∃ s' : State, exec (.heldRecordWrite 8) s = .next s' ∧ s'.mmu.ring.held = [] ∧ s'.mmu.ring.tail = s.mmu.ring.tail + 1) ∧
  (∀ (s : State) (p : BitVec 4), p.toNat < s.windows.length → p.toNat < 8 → (s.window p.toNat).ring.en = false → ∃ s' : State, exec (.heldRecordWrite p) s = .next s' ∧
    (s'.window p.toNat).ring = (s.window p.toNat).ring ∧ s'.mem = s.mem) ∧
  (∀ (s : State) (die : BitVec 5) (entry : BitVec 12) (p : Pend) (c : CowLock), s.pend? die.toNat entry.toNat = some p → p.code = 0x43 → p.cow = some c → s.mmu.queue = [] →
    let here (s' : State) : Prop := ∀ x ∈ s'.mmu.tlb, x.covers p.cid (p.page * 4096) = false
    let ends (i : Instr) (m : Memory) : Prop := ∃ s' : State, exec i s = .next s' ∧ s'.pend? die.toNat entry.toNat = none ∧ s'.mem = m
    let holds (m : Memory) (c' : CowLock) : Prop :=
      ∃ (s' : State) (q : Pend), exec (.cowResolution die entry) s = .next s' ∧ s'.pend? die.toNat entry.toNat = some q ∧ q.cow = some c' ∧ s'.mem = m
    (c.target = none → c.since = none → holds s.mem { c with since := some s.fresh }) ∧
    (c.target = none → c.since.isSome = true → s.holdsLock p = false → exec (.cowResolution die entry) s = .next s) ∧
    (c.target = none → c.since.isSome = true → s.holdsLock p = true →
      (s.cowLeaf p c.frame = none → ends (.cowResolution die entry) s.mem) ∧
      ∀ e addr, s.cowLeaf p c.frame = some (e, addr) →
        (s.frameCount p.cid c.frame = 0 → ends (.cowResolution die entry) (s.setPte p.cid addr (pteClrCow e)).mem ∧
          ∃ s' : State, exec (.cowResolution die entry) s = .next s' ∧ here s') ∧
        ∀ f s1, s.frameCount p.cid c.frame ≠ 0 → s.nextDram p.cid p.die = (s1, some f) → s1.pend? die.toNat entry.toNat = some p →
          holds s1.mem { c with leaf := e, addr := addr, target := some f }) ∧
    ∀ f, c.target = some f → s.spanHeld c.frame 4096 = false → ∃ s' : State, exec (.frameCopy die entry) s = .next s' ∧ s'.pend? die.toNat entry.toNat = none ∧ here s' ∧
      s'.mem = ((s.copyFrame p.cid c.frame f).setPte p.cid c.addr (pteClrD (pteClrCow (pteSetFrame c.leaf f)))).mem ∧
      (0 < s.frameCount p.cid c.frame → s.frameCount p.cid c.frame ≠ 0xFFFF → s'.frameCount p.cid c.frame = s.frameCount p.cid c.frame - 1)) ∧
  ∀ (s : State) (i : Nat) (m : Migration) (t : Strand), s.migration? i = some m →
    let frame := pteAddr m.oldLeaf
    let die := if pteTier m.oldLeaf = 0 then 8 + stkOf frame else 0
    (m.target = none → s.frameBusy frame = false → s.spanHeld frame 4096 = false →
      (∀ s1, s.headFrame m.cid die m.tier.toNat = (s1, none) → exec (.migrationCopy i) s = .next (s1.endMigration m m.oldLeaf 3)) ∧
      (∀ s1 f, s.headFrame m.cid die m.tier.toNat = (s1, some f) → s1.migration? i = some m → ∃ (s' : State) (m' : Migration), exec (.migrationCopy i) s = .next s' ∧
        s'.migration? i = some m' ∧ m'.target = some f ∧ m'.oldLeaf = m.oldLeaf ∧ s'.mem = (s1.copyFrame m.cid frame f).mem)) ∧
    (∀ f, m.target = some f → s.strand? m.guid m.strand = some t → s.mmu.pend = [] → m.d.toNat < t.v.length →
      ∃ (s' : State) (t' : Strand), exec (.migrationSwitch i) s = .next s' ∧ s'.migration? i = none ∧ s'.strand? m.guid m.strand = some t' ∧ t'.x m.d = 0 ∧ t'.ks = t.ks - 1 ∧
        ∀ x ∈ s'.mmu.tlb, x.covers m.cid (m.page * 4096) = false)

/-- R389 to R403: accession, deaccession, the staging of a page, weeding, and the owner's archive commands. WQ is reserved at the check of the controller by
the model's choice (notes/assumptions/103.md); what stands in notes/assumptions/47.md, 48.md and 104.md is deduced. -/
def Obligations.ArchiveEvents : Prop :=
  (∀ (s : State) (i : Nat) (o : ArcOp), s.arcOp? i = some o →
    let npg := natBits o.xd.toNat 19 0
    let ends (e : Instr) (s1 : State) (code count : Nat) : Prop := exec e s = .next (s1.endArc o code count)
    (o.kind = 2 → o.vid = none → s.arcEarlier o = false →
      s.longReady o.id o.guid o.strand [catMemRange o.cid (entBase o.entry) (entBase o.entry + 16384 * npg)] [] = true → o.abort = false →
      (∀ idx s1, s.arcinCode o = 0 → s.tableIndex o.cid o.xa.toNat = some (idx, s1) → o.cid < s.contexts.length →
        ∃ (s' : State) (v : Version), exec (.accessionCheck i) s = .next s' ∧ v ∈ s'.arc.versions ∧ v.state = .installing ∧ v.cid = o.cid ∧ v.baddr = o.xa.toNat ∧ v.npg = npg ∧
          v.index = idx ∧ (s'.ctx o.cid).wq = (s.ctx o.cid).wq - BitVec.ofNat 41 npg ∧ s'.mem = s.mem) ∧
      (s.arcinCode o ≠ 0 → ends (.accessionCheck i) s (s.arcinCode o) 0)) ∧
    (∀ v, o.vid = some v.id → s.version? v.id = some v → v.state = .installing → o.abort = false → o.wait = none →
      (∀ lpg s1, o.count < v.npg → o.code = none → o.data ≠ [] → s.weedFirst (pageStack v.baddr o.count) = false → s.takeLog (pageStack v.baddr o.count) false = some (lpg, s1) →
        (∃ (s' : State) (o' : ArcOp) (p : ArcPage), exec (.pageProgram i true) s = .next s' ∧ s'.arcOp? i = some o' ∧ o'.count = o.count + 1 ∧ o'.data = [] ∧ p ∈ s'.arc.pages ∧
          p.vid = v.id ∧ p.page = o.count ∧ p.data = o.data ∧ p.lpg = lpg ∧ s'.mem = s.mem) ∧
        (o.tries < 15 → ∃ (s' : State) (o' : ArcOp), exec (.pageProgram i false) s = .next s' ∧ s'.arcOp? i = some o' ∧ o'.count = o.count ∧ o'.tries = o.tries + 1 ∧ s'.mem = s.mem)) ∧
      (v.npg ≤ o.count → s.l1Dead v.cid v.baddr (4 * v.npg) = none → (∀ x ∈ s.arc.versions, x.cid = v.cid → x.baddr = v.baddr → x.state ≠ .old) →
        (s.leavesFree v.cid v.baddr v.npg none = true → ∃ s' : State, exec (.installPoint i) s = .next s' ∧ s'.arcOp? i = none ∧
          (∃ v', s'.version? v.id = some v' ∧ v'.state = .installed ∧ v'.baddr = v.baddr)) ∧
        (s.leavesFree v.cid v.baddr v.npg none = false → exec (.installPoint i) s = .next (s.discardArc o 0x21)))) ∧
    (o.kind = 3 → s.arcEarlier o = false → (∀ x ∈ s.arc.versions, x.cid = o.cid → x.baddr = o.xa.toNat → x.state ≠ .installing) →
      ((∀ x ∈ s.arc.versions, x.cid = o.cid → x.baddr = o.xa.toNat → x.state ≠ .installed) → ends (.deaccession i) s 0x22 0) ∧
      ∀ v, s.arc.versions.find? (fun v => v.cid == o.cid && v.baddr == o.xa.toNat && decide (v.state = .installed)) = some v →
        ∃ (s' : State) (v' : Version), exec (.deaccession i) s = .next s' ∧ s'.arcOp? i = none ∧ s'.version? v.id = some v' ∧ (v'.id = v.id ∧ v'.state = .superseded)) ∧
    (o.kind = 3 → s.arcEarlier o = false → (∃ x ∈ s.arc.versions, x.cid = o.cid ∧ x.baddr = o.xa.toNat ∧ x.state = .installing) → ends (.deaccession i) s 0x23 0)) ∧
  (∀ (s : State) (pg : BitVec 45) (p : ArcPage) (v : Version), s.sweepRoom = s → s.arcPage? (pg.toNat * 16384) = some p → s.version? p.vid = some v → v.readable = true →
    let stk := 2 * p.ast + p.lpg % 2
    ((s.pendsOn pg.toNat ≠ []) → (∀ t ∈ s.arc.staged, t.page ≠ pg.toNat) → ∀ f, s.freeSlot stk = some f →
      ∃ (s' : State) (t : Staged), exec (.demandStaging pg) s = .next s' ∧ s'.arc.staged = s.arc.staged ++ [t] ∧ t.page = pg.toNat ∧ t.frame = f ∧ t.stk = stk ∧ t.ready = false ∧
        s'.mem = s.mem) ∧
    ∀ t, s.arc.staged = [t] → t.page = pg.toNat → t.ready = false → s.mmu.pend = [] → s.arc.ops = [] →
      ∃ (s' : State) (t' : Staged), exec (.stagingComplete pg) s = .next s' ∧ s'.arc.staged = [t'] ∧ t' = { t with ready := true } ∧
        s'.mem = ((List.range 4).foldl (fun s q => s.writeBytes v.key v.ver (t.frame + q * 2 ^ 24) ((p.data.drop (4096 * q)).take 4096)) s).mem) ∧
  (∀ (s : State) (stk : BitVec 3), stk.toNat < s.arc.victims.length →
    (s.weedDue stk.toNat = true → s.arc.victims.getD stk.toNat none = none → ∀ b, s.weedable stk.toNat = [b] → ∃ s' : State, exec (.weeding stk) s = .next s' ∧
      s'.arc.victims.getD stk.toNat none = some b.pos ∧ s'.arc.pages = s.arc.pages ∧ s'.mem = s.mem) ∧
    (∀ b p v lpg s1, s.arc.victims.getD stk.toNat none = some b → s.midPage stk.toNat = false → (s.blockPages stk.toNat b).filter (fun x => s.pageKept x) = [p] → s.version? p.vid = some v → v.state = .unowned →
      s.takeLog stk.toNat true = some (lpg, s1) → lpg ≠ p.lpg → ∃ (s' : State) (q : ArcPage), exec (.weedingCopy stk) s = .next s' ∧ q ∈ s'.arc.pages ∧ q.vid = p.vid ∧ q.page = p.page ∧
        q.data = p.data ∧ q.lpg = lpg ∧ s'.mem = s.mem ∧ ∀ x ∈ s'.arc.pages, x.ast = stk.toNat → x.lpg = p.lpg → x.vid = 0) ∧
    ∀ blk : BitVec 19, s.arc.victims.getD stk.toNat none = some blk.toNat → s.keptIn stk.toNat blk.toNat = 0 →
     (s.sweepRoom.blockStaged stk.toNat blk.toNat = true → exec (.erase stk blk) s = .next s) ∧
     (s.sweepRoom.blockStaged stk.toNat blk.toNat = false → ∃ (s' : State) (b : EraseBlock), exec (.erase stk blk) s = .next s' ∧
      (∀ x ∈ s'.arc.pages, ¬(x.ast = stk.toNat ∧ x.lpg / 256 = blk.toNat)) ∧ s'.arc.victims.getD stk.toNat none = none ∧ s'.eraseBlock? stk.toNat blk.toNat = some b ∧
      (∀ c, s.eraseBlock? stk.toNat blk.toNat = some c → b.count = c.count + 1 ∧ (c.count + 1 < 3000 → b.cond = .free) ∧ (3000 ≤ c.count + 1 → b.cond = .retired)))) ∧
  ∀ (s : State) (port : BitVec 3) (w : Word),
    let mine := s.plat.owner.toNat = port.toNat
    let u := natBits w.toNat 3 0
    let c := natBits w.toNat 13 8
    let idx := natBits w.toNat 31 16
    let code (i : Instr) (x : Byte) : Prop := exec i s = .next { s with arc := { s.arc with status := x, busy := some x } }
    let waits (i : Instr) : Prop := exec i s = .next { s with arc := { s.arc with status := 6 } }
    (¬mine → exec (.aradopt port w) s = .next s ∧ exec (.arpurge port w) s = .next s ∧ exec (.arquery port w) s = .next s) ∧
    (mine → s.contexts.all (fun x => decide (x.state = .free)) = true → 1 ≤ u → u ≤ 8 → s.rows.nr.toNat + 2 * u ≤ 32 →
      exec (.rrcfg port w) s = .next { s with arc := { s.arc with units := BitVec.ofNat 4 u, staged := [] } }) ∧
    (mine → s.arc.busy.isSome = true → waits (.aradopt port w) ∧ waits (.arpurge port w) ∧ waits (.arquery port w)) ∧
    (mine → s.arc.busy = none → natBits w.toNat 15 14 ≠ 0 → code (.aradopt port w) 3 ∧ code (.arpurge port w) 3 ∧ code (.arquery port w) 3) ∧
    (mine → s.arc.busy = none → natBits w.toNat 15 14 = 0 →
      (natBits w.toNat 63 52 = 0 → (s.ctx c).keyed = false → code (.aradopt port w) 1) ∧
      (∀ v, natBits w.toNat 63 52 = 0 → (s.ctx c).keyed = true →
        s.arc.versions.find? (fun v => decide (v.state = .unowned) && v.baddr == natBits w.toNat 51 16 * 2 ^ 21 && v.kfp == fingerprint (s.keyOf c)) = some v → s.version? v.id = some v →
        s.l1Dead c (natBits w.toNat 51 16 * 2 ^ 21) (4 * v.npg) = none → s.leavesFree c (natBits w.toNat 51 16 * 2 ^ 21) v.npg none = true → ∃ (s' : State) (v' : Version), exec (.aradopt port w) s = .next s' ∧ s'.arc.status = 0 ∧ s'.version? v.id = some v' ∧
          v' = { v with state := .installed, cid := c }) ∧
      (natBits w.toNat 63 32 = 0 → (∀ v ∈ s.arc.versions, v.index = idx → v.state ≠ .unowned) → code (.arpurge port w) 1) ∧
      (∀ v, natBits w.toNat 63 32 = 0 → s.entryVersion idx (fun v => decide (v.state = .unowned)) = some v → s.version? v.id = some v → ∃ (s' : State) (v' : Version),
        exec (.arpurge port w) s = .next s' ∧ s'.arc.status = 0 ∧ s'.version? v.id = some v' ∧ v' = { v with state := .superseded } ∧ s'.mem = s.mem) ∧
      (∀ v, natBits w.toNat 63 32 = 0 → s.entryVersion idx Version.live = some v → v.state = .unowned → ∃ s' : State, exec (.arquery port w) s = .next s' ∧ s'.arc.status = 0 ∧ s'.arc.busy = some 0 ∧
        s'.arc.data0 = BitVec.ofNat 64 (4 + 2 ^ 9 * v.npg) ∧ s'.arc.data1 = BitVec.ofNat 64 (v.baddr / 2 ^ 21) ∧ s'.arc.data2 = v.kfp ∧ s'.arc.versions = s.arc.versions))

/-- R318 to R321, R323, R333: the events of a catalogue run: the start phase, a row, its commit, the completion, and the trap that a run which stopped
leaves its strand. -/
def Obligations.CatalogueEvents : Prop :=
  (∀ (s : State) (i : Nat) (o : CatOp) (g : Group) (t : Strand), s.catOp? i = some o → s.group? o.guid = some g → g.stage = .resident → s.strand? o.guid o.strand = some t →
    (o.phase = .start → o.check = true → s.longReady o.id o.guid o.strand (o.reads (entBase o.entry + 2 ^ 40)) o.writes = true → s.cats = [o] →
      ∃ (s' : State) (o' : CatOp), exec (.catStartPhase i) s = .next s' ∧ o' ∈ s'.cats ∧ o'.phase = .rows ∧ o'.acts = [] ∧ o'.dirs.length = o.nrow) ∧
    (o.phase = .rows → o.row = none → o.wait = none → s.laneFree o 0 = true → o.stopped = true →
      ∃ (s' : State) (o' : CatOp), exec (.catRow i) s = .next s' ∧ s'.catOp? i = some o' ∧ o'.phase = .completing ∧ o'.code = 0x18 ∧ s'.mem = s.mem) ∧
    (∀ r ps s1, o.phase = .rows → o.row = none → o.wait = none → s.laneFree o 0 = true → o.stopped = false → o.tryRow 2100 [] s = (.ok r, ps, s1) → r.code ≠ 0 →
      ∃ (s' : State) (o' : CatOp), exec (.catRow i) s = .next s' ∧ s'.catOp? i = some o' ∧ o'.phase = .completing ∧ o'.code = BitVec.ofNat 8 r.code ∧ o'.grp = r.grp ∧ o'.col = r.col) ∧
    (∀ r ps s1, o.phase = .rows → o.row = none → o.wait = none → s.laneFree o 0 = true → o.stopped = false → o.tryRow 2100 [] s = (.ok r, ps, s1) → r.code = 0 →
      ∃ (s' : State) (o' : CatOp), exec (.catRow i) s = .next s' ∧ s'.catOp? i = some o' ∧ o'.phase = .rows ∧ o'.row = some (r.val, r.flags)) ∧
    (∀ r, o.phase = .rows → o.row = some r → ∃ (s' : State) (g' : Group) (o' : CatOp), exec (.catRowCommit i) s = .next s' ∧ s'.group? o.guid = some g' ∧ s'.catOp? i = some o' ∧
      o'.row = none ∧ s'.mem = s.mem ∧ g'.strands = g.strands ∧
      (o.next + 1 ≠ o.nrow → o'.phase = .rows ∧ o'.next = o.next + 1) ∧ (o.next + 1 = o.nrow → o'.phase = .completing ∧ o'.code = 0) ∧ (o.check = true → g' = g) ∧
      (o.check = false → o.acc = false → g'.bufA = (g.bufWrite .a (o.ooff + o.oz * o.next) (leBytes o.oz (roundTo (mdSat o.md) 0 o.oty r.1 0).1)).bufA ∧
        o'.flags = o.flags ||| (r.2 ||| (roundTo (mdSat o.md) 0 o.oty r.1 0).2))) ∧
    (o.phase = .completing → kcBen o.xd = false → o.tid < g.catStat.length → ∃ (s' : State) (g' : Group) (t' : Strand), exec (.catRunComplete i) s = .next s' ∧ s'.catOp? i = none ∧
      (∀ l ∈ s'.locks, l.id ≠ i) ∧ s'.mem = s.mem ∧ s'.group? o.guid = some g' ∧ g'.catStat[o.tid]? = some (kcStatus o.code.toNat o.kind o.grp o.next o.col) ∧
      s'.strand? o.guid o.strand = some t' ∧ t'.kc = t.kc - 1 ∧ t'.st = t.st ||| o.flags ∧
      t'.catFaults = if o.check = true ∨ o.code = 0 then t.catFaults else addFault i (BitVec.ofNat 6 o.tid) t.catFaults)) ∧
  ∀ (s : State) (u : Nat) (k : BitVec 3) (g : Group) (t : Strand) (tid : BitVec 6) (n : Nat) (rest : List (Nat × BitVec 6)), s.group? u = some g → s.strand? u k.toNat = some t → g.stage = .resident →
    t.catFaults = (n, tid) :: rest → t.boundary = true → t.copyPending = none →
    (t.h = true → exec (.catalogueFaultTrap u k) s = .next s) ∧
    (t.h = false → t.status = .ready → t.fatal = false → exec (.catalogueFaultTrap u k) s = .next (s.modStrand u k.toNat fun _ =>
      { t with catFaults := rest, tpc := t.pc, tcause := 0x4018, tval := tid.setWidth 64, torg := t.pc, h := true, pc := t.tvec, ibuf := [], status := .ready }))

/-! ## Register writes and the ends of scrub and drain -/

/-- R435, R47, R59, R446: a write of a mailbox's command word stores it and runs the command that OP names; a write of another mailbox word stores it; bytes
outside the areas take no write; a one written to DROP of QSTAT clears it (R61), in any host's window, which is deduced (notes/assumptions/79.md). The board
controller switches the rails. That a write at an offset which is no multiple of 8 is ignored is the model's choice (notes/assumptions/29.md). R52, R53: what
the end of a scrub and of a drain leave of a context. -/
def Obligations.MailboxEvents : Prop :=
  (∀ (s : State) (p : BitVec 3) (w : Word),
    let b := s.modWindow p.toNat fun v => { v with ctxBox := v.ctxBox.set 0 w }
    let cmd (op : Nat) (i : Instr) : Prop := natBits w.toNat 7 0 = op → exec (.registerWrite (p.setWidth 4) 0x20000 w) s = exec i b
    cmd 1 (.claim p w) ∧ cmd 2 (.loaddesc p w) ∧ cmd 3 (.loadkey p w) ∧ cmd 4 (.activate p w) ∧ cmd 5 (.suspend p w) ∧ cmd 6 (.resume p w) ∧
    (w.getLsbD 16 = false → cmd 7 (.retireAbort p w)) ∧ (w.getLsbD 16 = true → cmd 7 (.retireFinish p w)) ∧ cmd 8 (.release p w) ∧
    cmd 9 (.addquota p w) ∧ cmd 10 (.addframes p w) ∧ cmd 11 (.setceil p w) ∧ cmd 12 (.query p w)) ∧
  (∀ (s : State) (p : BitVec 3) (w : Word),
    let b := s.modWindow p.toNat fun v => { v with qBox := v.qBox.set 0 w }
    let cmd (op : Nat) (i : Instr) : Prop := natBits w.toNat 7 0 = op → exec (.registerWrite (p.setWidth 4) 0x21000 w) s = exec i b
    cmd 0x21 (.qbind p w) ∧ cmd 0x22 (.qstart p w) ∧ cmd 0x23 (.qstop p w) ∧ cmd 0x24 (.qdrain p w) ∧ cmd 0x25 (.qunbind p w) ∧ cmd 0x26 (.qquery p w) ∧
    cmd 0x27 (.kabort p w) ∧ cmd 0x28 (.khold p w) ∧ cmd 0x29 (.kresume p w) ∧ cmd 0x2A (.ghalt p w) ∧ cmd 0x2B (.gresume p w)) ∧
  (∀ (s : State) (p : BitVec 3) (w : Word) (j : BitVec 19), 1 ≤ j.toNat → j.toNat ≤ 7 →
    exec (.registerWrite (p.setWidth 4) (0x20000 + 8 * j) w) s = .next (s.modWindow p.toNat fun v => { v with ctxBox := v.ctxBox.set j.toNat w }) ∧
    exec (.registerWrite (p.setWidth 4) (0x21000 + 8 * j) w) s = .next (s.modWindow p.toNat fun v => { v with qBox := v.qBox.set j.toNat w })) ∧
  (∀ (s : State) (port : BitVec 4) (o : BitVec 19) (w : Word),
    (8 < port.toNat ∨ port.toNat < 8 ∧ (o.toNat % 8 ≠ 0 ∨ o.toNat < 0x10000 ∨ 0x60000 ≤ o.toNat) → exec (.registerWrite port o w) s = .next s) ∧
    (∀ (p : BitVec 3) (q : Fin 256), w.getLsbD 3 = true →
      exec (.registerWrite (p.setWidth 4) (BitVec.ofNat 19 (0x30010 + 64 * q.val)) w) s = .next (s.modQueue q.val fun q => { q with drop := false })) ∧
    (w.getLsbD 1 = false → exec (.registerWrite 8 1 w) s = if w.getLsbD 0 then exec .pwrOn s else exec .pwrOff s)) ∧
  (∀ (s : State) (cid : BitVec 6), (s.ctx cid.toNat).state = .scrubbing → s.contexts.length = 64 →
    ∃ s' : State, exec (.scrubComplete cid) s = .next s' ∧ (s'.ctx cid.toNat).state = .ready ∧ (s'.ctx cid.toNat).unsrd = 0 ∧ (s'.ctx cid.toNat).cur = 0 ∧
      (s'.ctx cid.toNat).llhit = List.replicate 8 0 ∧ (s'.ctx cid.toNat).llmiss = List.replicate 8 0 ∧
      (s'.ctx cid.toNat).cmd = none ∧ s'.mem = s.mem ∧ (∀ e ∈ s'.mmu.tlb, e.cid ≠ cid.toNat) ∧ (∀ e ∈ s'.mmu.walk, e.cid ≠ cid.toNat) ∧
      (∀ d, d ≠ cid.toNat → s'.ctx d = s.ctx d) ∧ s'.queues = s.queues ∧ s'.groups = s.groups) ∧
  ∀ (s : State) (cid : BitVec 6), (s.ctx cid.toNat).state = .draining → s.drained cid.toNat = true → s.contexts.length = 64 → s.queues.length = 256 →
    ∃ s' : State, exec (.drainComplete cid) s = .next s' ∧ (s'.ctx cid.toNat).state = .retired ∧ (s'.ctx cid.toNat).key = none ∧
      (s'.ctx cid.toNat).cmd = none ∧ s'.mem = s.mem ∧ (∀ q ∈ s'.queues, q.state ≠ .unbound → q.cid ≠ cid.toNat) ∧
      (∀ v ∈ s'.arc.versions, v.cid = cid.toNat → v.state ≠ .installed) ∧ (∀ d, d ≠ cid.toNat → s'.ctx d = s.ctx d) ∧ s'.groups = s.groups

/-! ## Encodings, steps, reset, invariants -/

/-- R184 to R204: decoding the word of a well-formed instruction gives the instruction back, with every operand at every value that the encoding
admits, for every strand instruction and every microcode op. -/
def Obligations.DecodeOfEncode : Prop :=
  ∀ i : Instr, i.wellFormed = true →
    (i.isStrand = true → decode (encode i) = .ok i) ∧ (i.isMicro = true → decodeMicro (encode i) = some i)

/-- R186, R187, R199, R203, R204: a word that decodes is the word of exactly one well-formed instruction: every reserved bit that is set, every function
that is not allocated and every register number out of range is refused. -/
def Obligations.EncodeOfDecode : Prop :=
  ∀ (w : BitVec 32) (i : Instr),
    (decode w = .ok i → i.wellFormed = true ∧ i.isStrand = true ∧ encode i = w) ∧ (decodeMicro w = some i → i.wellFormed = true ∧ i.isMicro = true ∧ encode i = w)

/-- Words that the spec's worked examples print beside their assembly, and the illegal words of its example. -/
def Obligations.DecodeWords : Prop :=
  decode 0x04518740 = .ok (.add 5 6 7 0 1) ∧ decode 0x20102001 = .ok (.addi 1 0 1 1) ∧ decode 0x38410000 = .ok (.lui 4 0x10000) ∧
  decode 0x401603FE = .ok (.beq 22 0 0x3FE) ∧ decode 0x34000120 = .ok (.setmodeImm 0x120) ∧ decode 0x74204300 = .ok (.qscale 2 1 3) ∧
  decode 0x8CB2A101 = .ok (.st 11 10 4 1 1) ∧ decode 0xB4108240 = .ok (.copyTr 1 2 0 1) ∧ decode 0xC0518400 = .ok (.rowrun 5 6 0) ∧
  decode 0xC4414007 = .ok (.catrun 4 5 7) ∧ decode 0xE0300802 = .ok (.srd 3 2) ∧ decode 0xE405C000 = .ok (.tinv 23) ∧
  decode 0x0B20003C = .error 2 ∧ decode 0x0B2000C0 = .error 4 ∧ decode 0x0B200000 = .error 3 ∧
  decodeMicro 0x0B018400 = some (.aap 0xC0 0xC2) ∧ decodeMicro 0x682C0600 = some (.next 0xB 3)

/-- R89, R93, R132, R135: where the bytes at the PC of the first strand of the rotation that may issue decode to an instruction which meets the interlocks
(a prefix with the word after it, R225), the step is that instruction's effect on that strand, with the rotation moved on to its core and slot and the cycle count of that core's groups gone on,
and then the strand's buffer filled ahead. Where an
event of the device may come too, the step is one or the other (notes/assumptions/1.md). -/
def Obligations.StepRunsDecoded : Prop :=
  ∀ (s s0 s1 : State) (p : Seat) (before after : List Seat) (g : Group) (t : Strand) (w : BitVec 32) (i : Instr),
    s.agenda = [] → s.trapDue = none → s.tick.rotation = before ++ p :: after → (∀ q ∈ before, s.tick.tryIssue q = none) →
    s.tick.group? p.uid = some g → g.strands[p.k]? = some t → s.tick.fetchWord g t t.pc = (.word w, s0) → decode w = .ok i →
    s0.fetchPair g t i = (.run i, s1) → s.tick.eligible p.uid p.k g t (s1.issued t i) = true →
    let s2 := ((({ s1.dropAsks p.uid p.k with focus := some (p.uid, p.k) }.passCycles p.core).turnTo p.core p.slot).modStrand p.uid p.k fun t =>
      { t with stepLeft := t.stepLeft.map fun n => n - 1 })
    ∀ s3, exec i s2 = .next s3 →
      let s4 := { s3.topUp p.uid p.k with focus := none, rowFocus := none, latch := none }
      (s.nextEvent = none → step s = .next s4) ∧ (∀ e, s.nextEvent = some e → step s = .next e ∨ step s = .next s4)

/-- R51, R61, R369, R408, R435, R436, R439, R442, R446, R448: what reset leaves, where the spec gives it; and that the invariants below hold there. -/
def Obligations.ResetState : Prop :=
  let s := State.reset
  s.plat.owner = 0xF ∧ s.plat.pend = 0xF ∧ s.plat.phase = 0 ∧ s.plat.on = false ∧ s.plat.plim = 4000 ∧ s.links.modid = 0 ∧
  (∀ c ∈ s.contexts, c.state = .free ∧ c.key = none) ∧
  (∀ q ∈ s.queues, q.state = .unbound ∧ q.head = 0 ∧ q.tail = 0 ∧ q.drop = false ∧ q.fcause = 0) ∧
  (∀ l ∈ s.links.units, l.en = false ∧ l.state = .down ∧ l.retr = 0 ∧ l.crce = 0) ∧
  (∀ v ∈ s.windows, v.ring.en = false ∧ v.ring.head = 0 ∧ v.ring.tail = 0 ∧ v.nonce = [0, 0, 0, 0] ∧ v.atAddr = 0 ∧ v.atStat = 0) ∧
  s.mmu.ring.en = false ∧ s.kernels = [] ∧ s.groups = [] ∧ s.mem.wf = true ∧ Settled s ∧ AgendaOk s ∧ Shaped s

/-- Every step keeps memory's canonical form: cells, host cells and sector tags in rising order, and none that reads as an unlisted one. -/
def Obligations.StepKeepsMemory : Prop :=
  ∀ s s' : State, s.mem.wf = true → step s = .next s' → s'.mem.wf = true

/-- Every step leaves nobody acting, inputs alone on the agenda, and every table of the device with the number of entries that the spec gives it: 64 contexts
(R40), 256 queues (R58), 8 windows (R435), 96 compute cores and 64 stack cores (R12, R15), 48 ports and links (R407, R408), 16 row stacks, and of each strand
48 v, 12 m and 8 n registers (R121). -/
def Obligations.StepKeepsShape : Prop :=
  ∀ s s' : State, Settled s → AgendaOk s → Shaped s → step s = .next s' → Settled s' ∧ AgendaOk s' ∧ Shaped s'

/-- No step faults or is refused: every instruction that a strand issues, every input and every event has its effect or takes the exception that the spec
describes. -/
def Obligations.StepAnswers : Prop :=
  ∀ s : State, AgendaOk s → ∃ s' : State, step s = .next s'
end

