-- ==== Sys2Proof/Laws/State.lean ====
section
/-!
SUPPORT. What each update of the state and of a strand leaves alone, field by field, so that no later proof unfolds a record update;
and how updates of one object combine.
-/
namespace Sys2Proof.Laws

open Sys2Proof Sys2Proof.Machine

/-! ## tick -/

@[simp] theorem tick_agenda (s : State) : (s.tick).agenda = s.agenda := rfl
@[simp] theorem tick_focus (s : State) : (s.tick).focus = s.focus := rfl
@[simp] theorem tick_rowFocus (s : State) : (s.tick).rowFocus = s.rowFocus := rfl
@[simp] theorem tick_turn (s : State) : (s.tick).turn = s.turn := rfl
@[simp] theorem tick_contexts (s : State) : (s.tick).contexts = s.contexts := rfl
@[simp] theorem tick_queues (s : State) : (s.tick).queues = s.queues := rfl
@[simp] theorem tick_served (s : State) : (s.tick).served = s.served := rfl
@[simp] theorem tick_place (s : State) : (s.tick).place = s.place := rfl
@[simp] theorem tick_kernels (s : State) : (s.tick).kernels = s.kernels := rfl
@[simp] theorem tick_groups (s : State) : (s.tick).groups = s.groups := rfl
@[simp] theorem tick_cores (s : State) : (s.tick).cores = s.cores := rfl
@[simp] theorem tick_ops (s : State) : (s.tick).ops = s.ops := rfl
@[simp] theorem tick_locks (s : State) : (s.tick).locks = s.locks := rfl
@[simp] theorem tick_mats (s : State) : (s.tick).mats = s.mats := rfl
@[simp] theorem tick_cats (s : State) : (s.tick).cats = s.cats := rfl
@[simp] theorem tick_mem (s : State) : (s.tick).mem = s.mem := rfl
@[simp] theorem tick_mmu (s : State) : (s.tick).mmu = s.mmu := rfl
@[simp] theorem tick_rows (s : State) : (s.tick).rows = s.rows := rfl
@[simp] theorem tick_arc (s : State) : (s.tick).arc = s.arc := rfl
@[simp] theorem tick_links (s : State) : (s.tick).links = s.links := rfl
@[simp] theorem tick_plat (s : State) : (s.tick).plat = s.plat := rfl
@[simp] theorem tick_windows (s : State) : (s.tick).windows = s.windows := rfl
@[simp] theorem tick_heldCxl (s : State) : (s.tick).heldCxl = s.heldCxl := rfl
@[simp] theorem tick_heldRemote (s : State) : (s.tick).heldRemote = s.heldRemote := rfl
@[simp] theorem tick_llc (s : State) : (s.tick).llc = s.llc := rfl
@[simp] theorem tick_l2 (s : State) : (s.tick).l2 = s.l2 := rfl
@[simp] theorem tick_latch (s : State) : (s.tick).latch = s.latch := rfl
@[simp] theorem tick_answer (s : State) : (s.tick).answer = s.answer := rfl

/-! ## modCtx -/

@[simp] theorem modCtx_agenda (s : State) (c : Nat) (f : Context → Context) : (s.modCtx c f).agenda = s.agenda := rfl
@[simp] theorem modCtx_fresh (s : State) (c : Nat) (f : Context → Context) : (s.modCtx c f).fresh = s.fresh := rfl
@[simp] theorem modCtx_focus (s : State) (c : Nat) (f : Context → Context) : (s.modCtx c f).focus = s.focus := rfl
@[simp] theorem modCtx_rowFocus (s : State) (c : Nat) (f : Context → Context) : (s.modCtx c f).rowFocus = s.rowFocus := rfl
@[simp] theorem modCtx_turn (s : State) (c : Nat) (f : Context → Context) : (s.modCtx c f).turn = s.turn := rfl
@[simp] theorem modCtx_queues (s : State) (c : Nat) (f : Context → Context) : (s.modCtx c f).queues = s.queues := rfl
@[simp] theorem modCtx_served (s : State) (c : Nat) (f : Context → Context) : (s.modCtx c f).served = s.served := rfl
@[simp] theorem modCtx_place (s : State) (c : Nat) (f : Context → Context) : (s.modCtx c f).place = s.place := rfl
@[simp] theorem modCtx_kernels (s : State) (c : Nat) (f : Context → Context) : (s.modCtx c f).kernels = s.kernels := rfl
@[simp] theorem modCtx_groups (s : State) (c : Nat) (f : Context → Context) : (s.modCtx c f).groups = s.groups := rfl
@[simp] theorem modCtx_cores (s : State) (c : Nat) (f : Context → Context) : (s.modCtx c f).cores = s.cores := rfl
@[simp] theorem modCtx_ops (s : State) (c : Nat) (f : Context → Context) : (s.modCtx c f).ops = s.ops := rfl
@[simp] theorem modCtx_locks (s : State) (c : Nat) (f : Context → Context) : (s.modCtx c f).locks = s.locks := rfl
@[simp] theorem modCtx_mats (s : State) (c : Nat) (f : Context → Context) : (s.modCtx c f).mats = s.mats := rfl
@[simp] theorem modCtx_cats (s : State) (c : Nat) (f : Context → Context) : (s.modCtx c f).cats = s.cats := rfl
@[simp] theorem modCtx_mem (s : State) (c : Nat) (f : Context → Context) : (s.modCtx c f).mem = s.mem := rfl
@[simp] theorem modCtx_mmu (s : State) (c : Nat) (f : Context → Context) : (s.modCtx c f).mmu = s.mmu := rfl
@[simp] theorem modCtx_rows (s : State) (c : Nat) (f : Context → Context) : (s.modCtx c f).rows = s.rows := rfl
@[simp] theorem modCtx_arc (s : State) (c : Nat) (f : Context → Context) : (s.modCtx c f).arc = s.arc := rfl
@[simp] theorem modCtx_links (s : State) (c : Nat) (f : Context → Context) : (s.modCtx c f).links = s.links := rfl
@[simp] theorem modCtx_plat (s : State) (c : Nat) (f : Context → Context) : (s.modCtx c f).plat = s.plat := rfl
@[simp] theorem modCtx_windows (s : State) (c : Nat) (f : Context → Context) : (s.modCtx c f).windows = s.windows := rfl
@[simp] theorem modCtx_heldCxl (s : State) (c : Nat) (f : Context → Context) : (s.modCtx c f).heldCxl = s.heldCxl := rfl
@[simp] theorem modCtx_heldRemote (s : State) (c : Nat) (f : Context → Context) : (s.modCtx c f).heldRemote = s.heldRemote := rfl
@[simp] theorem modCtx_llc (s : State) (c : Nat) (f : Context → Context) : (s.modCtx c f).llc = s.llc := rfl
@[simp] theorem modCtx_l2 (s : State) (c : Nat) (f : Context → Context) : (s.modCtx c f).l2 = s.l2 := rfl
@[simp] theorem modCtx_latch (s : State) (c : Nat) (f : Context → Context) : (s.modCtx c f).latch = s.latch := rfl
@[simp] theorem modCtx_answer (s : State) (c : Nat) (f : Context → Context) : (s.modCtx c f).answer = s.answer := rfl

/-! ## modQueue -/

@[simp] theorem modQueue_agenda (s : State) (q : Nat) (f : Queue → Queue) : (s.modQueue q f).agenda = s.agenda := rfl
@[simp] theorem modQueue_fresh (s : State) (q : Nat) (f : Queue → Queue) : (s.modQueue q f).fresh = s.fresh := rfl
@[simp] theorem modQueue_focus (s : State) (q : Nat) (f : Queue → Queue) : (s.modQueue q f).focus = s.focus := rfl
@[simp] theorem modQueue_rowFocus (s : State) (q : Nat) (f : Queue → Queue) : (s.modQueue q f).rowFocus = s.rowFocus := rfl
@[simp] theorem modQueue_turn (s : State) (q : Nat) (f : Queue → Queue) : (s.modQueue q f).turn = s.turn := rfl
@[simp] theorem modQueue_contexts (s : State) (q : Nat) (f : Queue → Queue) : (s.modQueue q f).contexts = s.contexts := rfl
@[simp] theorem modQueue_served (s : State) (q : Nat) (f : Queue → Queue) : (s.modQueue q f).served = s.served := rfl
@[simp] theorem modQueue_place (s : State) (q : Nat) (f : Queue → Queue) : (s.modQueue q f).place = s.place := rfl
@[simp] theorem modQueue_kernels (s : State) (q : Nat) (f : Queue → Queue) : (s.modQueue q f).kernels = s.kernels := rfl
@[simp] theorem modQueue_groups (s : State) (q : Nat) (f : Queue → Queue) : (s.modQueue q f).groups = s.groups := rfl
@[simp] theorem modQueue_cores (s : State) (q : Nat) (f : Queue → Queue) : (s.modQueue q f).cores = s.cores := rfl
@[simp] theorem modQueue_ops (s : State) (q : Nat) (f : Queue → Queue) : (s.modQueue q f).ops = s.ops := rfl
@[simp] theorem modQueue_locks (s : State) (q : Nat) (f : Queue → Queue) : (s.modQueue q f).locks = s.locks := rfl
@[simp] theorem modQueue_mats (s : State) (q : Nat) (f : Queue → Queue) : (s.modQueue q f).mats = s.mats := rfl
@[simp] theorem modQueue_cats (s : State) (q : Nat) (f : Queue → Queue) : (s.modQueue q f).cats = s.cats := rfl
@[simp] theorem modQueue_mem (s : State) (q : Nat) (f : Queue → Queue) : (s.modQueue q f).mem = s.mem := rfl
@[simp] theorem modQueue_mmu (s : State) (q : Nat) (f : Queue → Queue) : (s.modQueue q f).mmu = s.mmu := rfl
@[simp] theorem modQueue_rows (s : State) (q : Nat) (f : Queue → Queue) : (s.modQueue q f).rows = s.rows := rfl
@[simp] theorem modQueue_arc (s : State) (q : Nat) (f : Queue → Queue) : (s.modQueue q f).arc = s.arc := rfl
@[simp] theorem modQueue_links (s : State) (q : Nat) (f : Queue → Queue) : (s.modQueue q f).links = s.links := rfl
@[simp] theorem modQueue_plat (s : State) (q : Nat) (f : Queue → Queue) : (s.modQueue q f).plat = s.plat := rfl
@[simp] theorem modQueue_windows (s : State) (q : Nat) (f : Queue → Queue) : (s.modQueue q f).windows = s.windows := rfl
@[simp] theorem modQueue_heldCxl (s : State) (q : Nat) (f : Queue → Queue) : (s.modQueue q f).heldCxl = s.heldCxl := rfl
@[simp] theorem modQueue_heldRemote (s : State) (q : Nat) (f : Queue → Queue) : (s.modQueue q f).heldRemote = s.heldRemote := rfl
@[simp] theorem modQueue_llc (s : State) (q : Nat) (f : Queue → Queue) : (s.modQueue q f).llc = s.llc := rfl
@[simp] theorem modQueue_l2 (s : State) (q : Nat) (f : Queue → Queue) : (s.modQueue q f).l2 = s.l2 := rfl
@[simp] theorem modQueue_latch (s : State) (q : Nat) (f : Queue → Queue) : (s.modQueue q f).latch = s.latch := rfl
@[simp] theorem modQueue_answer (s : State) (q : Nat) (f : Queue → Queue) : (s.modQueue q f).answer = s.answer := rfl

/-! ## modCore -/

@[simp] theorem modCore_agenda (s : State) (c : Nat) (f : Core → Core) : (s.modCore c f).agenda = s.agenda := rfl
@[simp] theorem modCore_fresh (s : State) (c : Nat) (f : Core → Core) : (s.modCore c f).fresh = s.fresh := rfl
@[simp] theorem modCore_focus (s : State) (c : Nat) (f : Core → Core) : (s.modCore c f).focus = s.focus := rfl
@[simp] theorem modCore_rowFocus (s : State) (c : Nat) (f : Core → Core) : (s.modCore c f).rowFocus = s.rowFocus := rfl
@[simp] theorem modCore_turn (s : State) (c : Nat) (f : Core → Core) : (s.modCore c f).turn = s.turn := rfl
@[simp] theorem modCore_contexts (s : State) (c : Nat) (f : Core → Core) : (s.modCore c f).contexts = s.contexts := rfl
@[simp] theorem modCore_queues (s : State) (c : Nat) (f : Core → Core) : (s.modCore c f).queues = s.queues := rfl
@[simp] theorem modCore_served (s : State) (c : Nat) (f : Core → Core) : (s.modCore c f).served = s.served := rfl
@[simp] theorem modCore_place (s : State) (c : Nat) (f : Core → Core) : (s.modCore c f).place = s.place := rfl
@[simp] theorem modCore_kernels (s : State) (c : Nat) (f : Core → Core) : (s.modCore c f).kernels = s.kernels := rfl
@[simp] theorem modCore_groups (s : State) (c : Nat) (f : Core → Core) : (s.modCore c f).groups = s.groups := rfl
@[simp] theorem modCore_ops (s : State) (c : Nat) (f : Core → Core) : (s.modCore c f).ops = s.ops := rfl
@[simp] theorem modCore_locks (s : State) (c : Nat) (f : Core → Core) : (s.modCore c f).locks = s.locks := rfl
@[simp] theorem modCore_mats (s : State) (c : Nat) (f : Core → Core) : (s.modCore c f).mats = s.mats := rfl
@[simp] theorem modCore_cats (s : State) (c : Nat) (f : Core → Core) : (s.modCore c f).cats = s.cats := rfl
@[simp] theorem modCore_mem (s : State) (c : Nat) (f : Core → Core) : (s.modCore c f).mem = s.mem := rfl
@[simp] theorem modCore_mmu (s : State) (c : Nat) (f : Core → Core) : (s.modCore c f).mmu = s.mmu := rfl
@[simp] theorem modCore_rows (s : State) (c : Nat) (f : Core → Core) : (s.modCore c f).rows = s.rows := rfl
@[simp] theorem modCore_arc (s : State) (c : Nat) (f : Core → Core) : (s.modCore c f).arc = s.arc := rfl
@[simp] theorem modCore_links (s : State) (c : Nat) (f : Core → Core) : (s.modCore c f).links = s.links := rfl
@[simp] theorem modCore_plat (s : State) (c : Nat) (f : Core → Core) : (s.modCore c f).plat = s.plat := rfl
@[simp] theorem modCore_windows (s : State) (c : Nat) (f : Core → Core) : (s.modCore c f).windows = s.windows := rfl
@[simp] theorem modCore_heldCxl (s : State) (c : Nat) (f : Core → Core) : (s.modCore c f).heldCxl = s.heldCxl := rfl
@[simp] theorem modCore_heldRemote (s : State) (c : Nat) (f : Core → Core) : (s.modCore c f).heldRemote = s.heldRemote := rfl
@[simp] theorem modCore_llc (s : State) (c : Nat) (f : Core → Core) : (s.modCore c f).llc = s.llc := rfl
@[simp] theorem modCore_l2 (s : State) (c : Nat) (f : Core → Core) : (s.modCore c f).l2 = s.l2 := rfl
@[simp] theorem modCore_latch (s : State) (c : Nat) (f : Core → Core) : (s.modCore c f).latch = s.latch := rfl
@[simp] theorem modCore_answer (s : State) (c : Nat) (f : Core → Core) : (s.modCore c f).answer = s.answer := rfl

/-! ## modWindow -/

@[simp] theorem modWindow_agenda (s : State) (p : Nat) (f : Window → Window) : (s.modWindow p f).agenda = s.agenda := rfl
@[simp] theorem modWindow_fresh (s : State) (p : Nat) (f : Window → Window) : (s.modWindow p f).fresh = s.fresh := rfl
@[simp] theorem modWindow_focus (s : State) (p : Nat) (f : Window → Window) : (s.modWindow p f).focus = s.focus := rfl
@[simp] theorem modWindow_rowFocus (s : State) (p : Nat) (f : Window → Window) : (s.modWindow p f).rowFocus = s.rowFocus := rfl
@[simp] theorem modWindow_turn (s : State) (p : Nat) (f : Window → Window) : (s.modWindow p f).turn = s.turn := rfl
@[simp] theorem modWindow_contexts (s : State) (p : Nat) (f : Window → Window) : (s.modWindow p f).contexts = s.contexts := rfl
@[simp] theorem modWindow_queues (s : State) (p : Nat) (f : Window → Window) : (s.modWindow p f).queues = s.queues := rfl
@[simp] theorem modWindow_served (s : State) (p : Nat) (f : Window → Window) : (s.modWindow p f).served = s.served := rfl
@[simp] theorem modWindow_place (s : State) (p : Nat) (f : Window → Window) : (s.modWindow p f).place = s.place := rfl
@[simp] theorem modWindow_kernels (s : State) (p : Nat) (f : Window → Window) : (s.modWindow p f).kernels = s.kernels := rfl
@[simp] theorem modWindow_groups (s : State) (p : Nat) (f : Window → Window) : (s.modWindow p f).groups = s.groups := rfl
@[simp] theorem modWindow_cores (s : State) (p : Nat) (f : Window → Window) : (s.modWindow p f).cores = s.cores := rfl
@[simp] theorem modWindow_ops (s : State) (p : Nat) (f : Window → Window) : (s.modWindow p f).ops = s.ops := rfl
@[simp] theorem modWindow_locks (s : State) (p : Nat) (f : Window → Window) : (s.modWindow p f).locks = s.locks := rfl
@[simp] theorem modWindow_mats (s : State) (p : Nat) (f : Window → Window) : (s.modWindow p f).mats = s.mats := rfl
@[simp] theorem modWindow_cats (s : State) (p : Nat) (f : Window → Window) : (s.modWindow p f).cats = s.cats := rfl
@[simp] theorem modWindow_mem (s : State) (p : Nat) (f : Window → Window) : (s.modWindow p f).mem = s.mem := rfl
@[simp] theorem modWindow_mmu (s : State) (p : Nat) (f : Window → Window) : (s.modWindow p f).mmu = s.mmu := rfl
@[simp] theorem modWindow_rows (s : State) (p : Nat) (f : Window → Window) : (s.modWindow p f).rows = s.rows := rfl
@[simp] theorem modWindow_arc (s : State) (p : Nat) (f : Window → Window) : (s.modWindow p f).arc = s.arc := rfl
@[simp] theorem modWindow_links (s : State) (p : Nat) (f : Window → Window) : (s.modWindow p f).links = s.links := rfl
@[simp] theorem modWindow_plat (s : State) (p : Nat) (f : Window → Window) : (s.modWindow p f).plat = s.plat := rfl
@[simp] theorem modWindow_heldCxl (s : State) (p : Nat) (f : Window → Window) : (s.modWindow p f).heldCxl = s.heldCxl := rfl
@[simp] theorem modWindow_heldRemote (s : State) (p : Nat) (f : Window → Window) : (s.modWindow p f).heldRemote = s.heldRemote := rfl
@[simp] theorem modWindow_llc (s : State) (p : Nat) (f : Window → Window) : (s.modWindow p f).llc = s.llc := rfl
@[simp] theorem modWindow_l2 (s : State) (p : Nat) (f : Window → Window) : (s.modWindow p f).l2 = s.l2 := rfl
@[simp] theorem modWindow_latch (s : State) (p : Nat) (f : Window → Window) : (s.modWindow p f).latch = s.latch := rfl
@[simp] theorem modWindow_answer (s : State) (p : Nat) (f : Window → Window) : (s.modWindow p f).answer = s.answer := rfl

/-! ## modGroup -/

@[simp] theorem modGroup_agenda (s : State) (u : Nat) (f : Group → Group) : (s.modGroup u f).agenda = s.agenda := rfl
@[simp] theorem modGroup_fresh (s : State) (u : Nat) (f : Group → Group) : (s.modGroup u f).fresh = s.fresh := rfl
@[simp] theorem modGroup_focus (s : State) (u : Nat) (f : Group → Group) : (s.modGroup u f).focus = s.focus := rfl
@[simp] theorem modGroup_rowFocus (s : State) (u : Nat) (f : Group → Group) : (s.modGroup u f).rowFocus = s.rowFocus := rfl
@[simp] theorem modGroup_turn (s : State) (u : Nat) (f : Group → Group) : (s.modGroup u f).turn = s.turn := rfl
@[simp] theorem modGroup_contexts (s : State) (u : Nat) (f : Group → Group) : (s.modGroup u f).contexts = s.contexts := rfl
@[simp] theorem modGroup_queues (s : State) (u : Nat) (f : Group → Group) : (s.modGroup u f).queues = s.queues := rfl
@[simp] theorem modGroup_served (s : State) (u : Nat) (f : Group → Group) : (s.modGroup u f).served = s.served := rfl
@[simp] theorem modGroup_place (s : State) (u : Nat) (f : Group → Group) : (s.modGroup u f).place = s.place := rfl
@[simp] theorem modGroup_kernels (s : State) (u : Nat) (f : Group → Group) : (s.modGroup u f).kernels = s.kernels := rfl
@[simp] theorem modGroup_cores (s : State) (u : Nat) (f : Group → Group) : (s.modGroup u f).cores = s.cores := rfl
@[simp] theorem modGroup_ops (s : State) (u : Nat) (f : Group → Group) : (s.modGroup u f).ops = s.ops := rfl
@[simp] theorem modGroup_locks (s : State) (u : Nat) (f : Group → Group) : (s.modGroup u f).locks = s.locks := rfl
@[simp] theorem modGroup_mats (s : State) (u : Nat) (f : Group → Group) : (s.modGroup u f).mats = s.mats := rfl
@[simp] theorem modGroup_cats (s : State) (u : Nat) (f : Group → Group) : (s.modGroup u f).cats = s.cats := rfl
@[simp] theorem modGroup_mem (s : State) (u : Nat) (f : Group → Group) : (s.modGroup u f).mem = s.mem := rfl
@[simp] theorem modGroup_mmu (s : State) (u : Nat) (f : Group → Group) : (s.modGroup u f).mmu = s.mmu := rfl
@[simp] theorem modGroup_rows (s : State) (u : Nat) (f : Group → Group) : (s.modGroup u f).rows = s.rows := rfl
@[simp] theorem modGroup_arc (s : State) (u : Nat) (f : Group → Group) : (s.modGroup u f).arc = s.arc := rfl
@[simp] theorem modGroup_links (s : State) (u : Nat) (f : Group → Group) : (s.modGroup u f).links = s.links := rfl
@[simp] theorem modGroup_plat (s : State) (u : Nat) (f : Group → Group) : (s.modGroup u f).plat = s.plat := rfl
@[simp] theorem modGroup_windows (s : State) (u : Nat) (f : Group → Group) : (s.modGroup u f).windows = s.windows := rfl
@[simp] theorem modGroup_heldCxl (s : State) (u : Nat) (f : Group → Group) : (s.modGroup u f).heldCxl = s.heldCxl := rfl
@[simp] theorem modGroup_heldRemote (s : State) (u : Nat) (f : Group → Group) : (s.modGroup u f).heldRemote = s.heldRemote := rfl
@[simp] theorem modGroup_llc (s : State) (u : Nat) (f : Group → Group) : (s.modGroup u f).llc = s.llc := rfl
@[simp] theorem modGroup_l2 (s : State) (u : Nat) (f : Group → Group) : (s.modGroup u f).l2 = s.l2 := rfl
@[simp] theorem modGroup_latch (s : State) (u : Nat) (f : Group → Group) : (s.modGroup u f).latch = s.latch := rfl
@[simp] theorem modGroup_answer (s : State) (u : Nat) (f : Group → Group) : (s.modGroup u f).answer = s.answer := rfl

/-! ## modKernel -/

@[simp] theorem modKernel_agenda (s : State) (u : Nat) (f : Kernel → Kernel) : (s.modKernel u f).agenda = s.agenda := rfl
@[simp] theorem modKernel_fresh (s : State) (u : Nat) (f : Kernel → Kernel) : (s.modKernel u f).fresh = s.fresh := rfl
@[simp] theorem modKernel_focus (s : State) (u : Nat) (f : Kernel → Kernel) : (s.modKernel u f).focus = s.focus := rfl
@[simp] theorem modKernel_rowFocus (s : State) (u : Nat) (f : Kernel → Kernel) : (s.modKernel u f).rowFocus = s.rowFocus := rfl
@[simp] theorem modKernel_turn (s : State) (u : Nat) (f : Kernel → Kernel) : (s.modKernel u f).turn = s.turn := rfl
@[simp] theorem modKernel_contexts (s : State) (u : Nat) (f : Kernel → Kernel) : (s.modKernel u f).contexts = s.contexts := rfl
@[simp] theorem modKernel_queues (s : State) (u : Nat) (f : Kernel → Kernel) : (s.modKernel u f).queues = s.queues := rfl
@[simp] theorem modKernel_served (s : State) (u : Nat) (f : Kernel → Kernel) : (s.modKernel u f).served = s.served := rfl
@[simp] theorem modKernel_place (s : State) (u : Nat) (f : Kernel → Kernel) : (s.modKernel u f).place = s.place := rfl
@[simp] theorem modKernel_groups (s : State) (u : Nat) (f : Kernel → Kernel) : (s.modKernel u f).groups = s.groups := rfl
@[simp] theorem modKernel_cores (s : State) (u : Nat) (f : Kernel → Kernel) : (s.modKernel u f).cores = s.cores := rfl
@[simp] theorem modKernel_ops (s : State) (u : Nat) (f : Kernel → Kernel) : (s.modKernel u f).ops = s.ops := rfl
@[simp] theorem modKernel_locks (s : State) (u : Nat) (f : Kernel → Kernel) : (s.modKernel u f).locks = s.locks := rfl
@[simp] theorem modKernel_mats (s : State) (u : Nat) (f : Kernel → Kernel) : (s.modKernel u f).mats = s.mats := rfl
@[simp] theorem modKernel_cats (s : State) (u : Nat) (f : Kernel → Kernel) : (s.modKernel u f).cats = s.cats := rfl
@[simp] theorem modKernel_mem (s : State) (u : Nat) (f : Kernel → Kernel) : (s.modKernel u f).mem = s.mem := rfl
@[simp] theorem modKernel_mmu (s : State) (u : Nat) (f : Kernel → Kernel) : (s.modKernel u f).mmu = s.mmu := rfl
@[simp] theorem modKernel_rows (s : State) (u : Nat) (f : Kernel → Kernel) : (s.modKernel u f).rows = s.rows := rfl
@[simp] theorem modKernel_arc (s : State) (u : Nat) (f : Kernel → Kernel) : (s.modKernel u f).arc = s.arc := rfl
@[simp] theorem modKernel_links (s : State) (u : Nat) (f : Kernel → Kernel) : (s.modKernel u f).links = s.links := rfl
@[simp] theorem modKernel_plat (s : State) (u : Nat) (f : Kernel → Kernel) : (s.modKernel u f).plat = s.plat := rfl
@[simp] theorem modKernel_windows (s : State) (u : Nat) (f : Kernel → Kernel) : (s.modKernel u f).windows = s.windows := rfl
@[simp] theorem modKernel_heldCxl (s : State) (u : Nat) (f : Kernel → Kernel) : (s.modKernel u f).heldCxl = s.heldCxl := rfl
@[simp] theorem modKernel_heldRemote (s : State) (u : Nat) (f : Kernel → Kernel) : (s.modKernel u f).heldRemote = s.heldRemote := rfl
@[simp] theorem modKernel_llc (s : State) (u : Nat) (f : Kernel → Kernel) : (s.modKernel u f).llc = s.llc := rfl
@[simp] theorem modKernel_l2 (s : State) (u : Nat) (f : Kernel → Kernel) : (s.modKernel u f).l2 = s.l2 := rfl
@[simp] theorem modKernel_latch (s : State) (u : Nat) (f : Kernel → Kernel) : (s.modKernel u f).latch = s.latch := rfl
@[simp] theorem modKernel_answer (s : State) (u : Nat) (f : Kernel → Kernel) : (s.modKernel u f).answer = s.answer := rfl

/-! ## modStrand -/

@[simp] theorem modStrand_agenda (s : State) (u k : Nat) (f : Strand → Strand) : (s.modStrand u k f).agenda = s.agenda := rfl
@[simp] theorem modStrand_fresh (s : State) (u k : Nat) (f : Strand → Strand) : (s.modStrand u k f).fresh = s.fresh := rfl
@[simp] theorem modStrand_focus (s : State) (u k : Nat) (f : Strand → Strand) : (s.modStrand u k f).focus = s.focus := rfl
@[simp] theorem modStrand_rowFocus (s : State) (u k : Nat) (f : Strand → Strand) : (s.modStrand u k f).rowFocus = s.rowFocus := rfl
@[simp] theorem modStrand_turn (s : State) (u k : Nat) (f : Strand → Strand) : (s.modStrand u k f).turn = s.turn := rfl
@[simp] theorem modStrand_contexts (s : State) (u k : Nat) (f : Strand → Strand) : (s.modStrand u k f).contexts = s.contexts := rfl
@[simp] theorem modStrand_queues (s : State) (u k : Nat) (f : Strand → Strand) : (s.modStrand u k f).queues = s.queues := rfl
@[simp] theorem modStrand_served (s : State) (u k : Nat) (f : Strand → Strand) : (s.modStrand u k f).served = s.served := rfl
@[simp] theorem modStrand_place (s : State) (u k : Nat) (f : Strand → Strand) : (s.modStrand u k f).place = s.place := rfl
@[simp] theorem modStrand_kernels (s : State) (u k : Nat) (f : Strand → Strand) : (s.modStrand u k f).kernels = s.kernels := rfl
@[simp] theorem modStrand_cores (s : State) (u k : Nat) (f : Strand → Strand) : (s.modStrand u k f).cores = s.cores := rfl
@[simp] theorem modStrand_ops (s : State) (u k : Nat) (f : Strand → Strand) : (s.modStrand u k f).ops = s.ops := rfl
@[simp] theorem modStrand_locks (s : State) (u k : Nat) (f : Strand → Strand) : (s.modStrand u k f).locks = s.locks := rfl
@[simp] theorem modStrand_mats (s : State) (u k : Nat) (f : Strand → Strand) : (s.modStrand u k f).mats = s.mats := rfl
@[simp] theorem modStrand_cats (s : State) (u k : Nat) (f : Strand → Strand) : (s.modStrand u k f).cats = s.cats := rfl
@[simp] theorem modStrand_mem (s : State) (u k : Nat) (f : Strand → Strand) : (s.modStrand u k f).mem = s.mem := rfl
@[simp] theorem modStrand_mmu (s : State) (u k : Nat) (f : Strand → Strand) : (s.modStrand u k f).mmu = s.mmu := rfl
@[simp] theorem modStrand_rows (s : State) (u k : Nat) (f : Strand → Strand) : (s.modStrand u k f).rows = s.rows := rfl
@[simp] theorem modStrand_arc (s : State) (u k : Nat) (f : Strand → Strand) : (s.modStrand u k f).arc = s.arc := rfl
@[simp] theorem modStrand_links (s : State) (u k : Nat) (f : Strand → Strand) : (s.modStrand u k f).links = s.links := rfl
@[simp] theorem modStrand_plat (s : State) (u k : Nat) (f : Strand → Strand) : (s.modStrand u k f).plat = s.plat := rfl
@[simp] theorem modStrand_windows (s : State) (u k : Nat) (f : Strand → Strand) : (s.modStrand u k f).windows = s.windows := rfl
@[simp] theorem modStrand_heldCxl (s : State) (u k : Nat) (f : Strand → Strand) : (s.modStrand u k f).heldCxl = s.heldCxl := rfl
@[simp] theorem modStrand_heldRemote (s : State) (u k : Nat) (f : Strand → Strand) : (s.modStrand u k f).heldRemote = s.heldRemote := rfl
@[simp] theorem modStrand_llc (s : State) (u k : Nat) (f : Strand → Strand) : (s.modStrand u k f).llc = s.llc := rfl
@[simp] theorem modStrand_l2 (s : State) (u k : Nat) (f : Strand → Strand) : (s.modStrand u k f).l2 = s.l2 := rfl
@[simp] theorem modStrand_latch (s : State) (u k : Nat) (f : Strand → Strand) : (s.modStrand u k f).latch = s.latch := rfl
@[simp] theorem modStrand_answer (s : State) (u k : Nat) (f : Strand → Strand) : (s.modStrand u k f).answer = s.answer := rfl

/-! ## setPlat -/

@[simp] theorem setPlat_agenda (s : State) (f : Platform → Platform) : (s.setPlat f).agenda = s.agenda := rfl
@[simp] theorem setPlat_fresh (s : State) (f : Platform → Platform) : (s.setPlat f).fresh = s.fresh := rfl
@[simp] theorem setPlat_focus (s : State) (f : Platform → Platform) : (s.setPlat f).focus = s.focus := rfl
@[simp] theorem setPlat_rowFocus (s : State) (f : Platform → Platform) : (s.setPlat f).rowFocus = s.rowFocus := rfl
@[simp] theorem setPlat_turn (s : State) (f : Platform → Platform) : (s.setPlat f).turn = s.turn := rfl
@[simp] theorem setPlat_contexts (s : State) (f : Platform → Platform) : (s.setPlat f).contexts = s.contexts := rfl
@[simp] theorem setPlat_queues (s : State) (f : Platform → Platform) : (s.setPlat f).queues = s.queues := rfl
@[simp] theorem setPlat_served (s : State) (f : Platform → Platform) : (s.setPlat f).served = s.served := rfl
@[simp] theorem setPlat_place (s : State) (f : Platform → Platform) : (s.setPlat f).place = s.place := rfl
@[simp] theorem setPlat_kernels (s : State) (f : Platform → Platform) : (s.setPlat f).kernels = s.kernels := rfl
@[simp] theorem setPlat_groups (s : State) (f : Platform → Platform) : (s.setPlat f).groups = s.groups := rfl
@[simp] theorem setPlat_cores (s : State) (f : Platform → Platform) : (s.setPlat f).cores = s.cores := rfl
@[simp] theorem setPlat_ops (s : State) (f : Platform → Platform) : (s.setPlat f).ops = s.ops := rfl
@[simp] theorem setPlat_locks (s : State) (f : Platform → Platform) : (s.setPlat f).locks = s.locks := rfl
@[simp] theorem setPlat_mats (s : State) (f : Platform → Platform) : (s.setPlat f).mats = s.mats := rfl
@[simp] theorem setPlat_cats (s : State) (f : Platform → Platform) : (s.setPlat f).cats = s.cats := rfl
@[simp] theorem setPlat_mem (s : State) (f : Platform → Platform) : (s.setPlat f).mem = s.mem := rfl
@[simp] theorem setPlat_mmu (s : State) (f : Platform → Platform) : (s.setPlat f).mmu = s.mmu := rfl
@[simp] theorem setPlat_rows (s : State) (f : Platform → Platform) : (s.setPlat f).rows = s.rows := rfl
@[simp] theorem setPlat_arc (s : State) (f : Platform → Platform) : (s.setPlat f).arc = s.arc := rfl
@[simp] theorem setPlat_links (s : State) (f : Platform → Platform) : (s.setPlat f).links = s.links := rfl
@[simp] theorem setPlat_windows (s : State) (f : Platform → Platform) : (s.setPlat f).windows = s.windows := rfl
@[simp] theorem setPlat_heldCxl (s : State) (f : Platform → Platform) : (s.setPlat f).heldCxl = s.heldCxl := rfl
@[simp] theorem setPlat_heldRemote (s : State) (f : Platform → Platform) : (s.setPlat f).heldRemote = s.heldRemote := rfl
@[simp] theorem setPlat_llc (s : State) (f : Platform → Platform) : (s.setPlat f).llc = s.llc := rfl
@[simp] theorem setPlat_l2 (s : State) (f : Platform → Platform) : (s.setPlat f).l2 = s.l2 := rfl
@[simp] theorem setPlat_latch (s : State) (f : Platform → Platform) : (s.setPlat f).latch = s.latch := rfl
@[simp] theorem setPlat_answer (s : State) (f : Platform → Platform) : (s.setPlat f).answer = s.answer := rfl

/-! ## setRows -/

@[simp] theorem setRows_agenda (s : State) (f : Rows → Rows) : (s.setRows f).agenda = s.agenda := rfl
@[simp] theorem setRows_fresh (s : State) (f : Rows → Rows) : (s.setRows f).fresh = s.fresh := rfl
@[simp] theorem setRows_focus (s : State) (f : Rows → Rows) : (s.setRows f).focus = s.focus := rfl
@[simp] theorem setRows_rowFocus (s : State) (f : Rows → Rows) : (s.setRows f).rowFocus = s.rowFocus := rfl
@[simp] theorem setRows_turn (s : State) (f : Rows → Rows) : (s.setRows f).turn = s.turn := rfl
@[simp] theorem setRows_contexts (s : State) (f : Rows → Rows) : (s.setRows f).contexts = s.contexts := rfl
@[simp] theorem setRows_queues (s : State) (f : Rows → Rows) : (s.setRows f).queues = s.queues := rfl
@[simp] theorem setRows_served (s : State) (f : Rows → Rows) : (s.setRows f).served = s.served := rfl
@[simp] theorem setRows_place (s : State) (f : Rows → Rows) : (s.setRows f).place = s.place := rfl
@[simp] theorem setRows_kernels (s : State) (f : Rows → Rows) : (s.setRows f).kernels = s.kernels := rfl
@[simp] theorem setRows_groups (s : State) (f : Rows → Rows) : (s.setRows f).groups = s.groups := rfl
@[simp] theorem setRows_cores (s : State) (f : Rows → Rows) : (s.setRows f).cores = s.cores := rfl
@[simp] theorem setRows_ops (s : State) (f : Rows → Rows) : (s.setRows f).ops = s.ops := rfl
@[simp] theorem setRows_locks (s : State) (f : Rows → Rows) : (s.setRows f).locks = s.locks := rfl
@[simp] theorem setRows_mats (s : State) (f : Rows → Rows) : (s.setRows f).mats = s.mats := rfl
@[simp] theorem setRows_cats (s : State) (f : Rows → Rows) : (s.setRows f).cats = s.cats := rfl
@[simp] theorem setRows_mem (s : State) (f : Rows → Rows) : (s.setRows f).mem = s.mem := rfl
@[simp] theorem setRows_mmu (s : State) (f : Rows → Rows) : (s.setRows f).mmu = s.mmu := rfl
@[simp] theorem setRows_arc (s : State) (f : Rows → Rows) : (s.setRows f).arc = s.arc := rfl
@[simp] theorem setRows_links (s : State) (f : Rows → Rows) : (s.setRows f).links = s.links := rfl
@[simp] theorem setRows_plat (s : State) (f : Rows → Rows) : (s.setRows f).plat = s.plat := rfl
@[simp] theorem setRows_windows (s : State) (f : Rows → Rows) : (s.setRows f).windows = s.windows := rfl
@[simp] theorem setRows_heldCxl (s : State) (f : Rows → Rows) : (s.setRows f).heldCxl = s.heldCxl := rfl
@[simp] theorem setRows_heldRemote (s : State) (f : Rows → Rows) : (s.setRows f).heldRemote = s.heldRemote := rfl
@[simp] theorem setRows_llc (s : State) (f : Rows → Rows) : (s.setRows f).llc = s.llc := rfl
@[simp] theorem setRows_l2 (s : State) (f : Rows → Rows) : (s.setRows f).l2 = s.l2 := rfl
@[simp] theorem setRows_latch (s : State) (f : Rows → Rows) : (s.setRows f).latch = s.latch := rfl
@[simp] theorem setRows_answer (s : State) (f : Rows → Rows) : (s.setRows f).answer = s.answer := rfl

/-! ## setLinks -/

@[simp] theorem setLinks_agenda (s : State) (f : Links → Links) : (s.setLinks f).agenda = s.agenda := rfl
@[simp] theorem setLinks_fresh (s : State) (f : Links → Links) : (s.setLinks f).fresh = s.fresh := rfl
@[simp] theorem setLinks_focus (s : State) (f : Links → Links) : (s.setLinks f).focus = s.focus := rfl
@[simp] theorem setLinks_rowFocus (s : State) (f : Links → Links) : (s.setLinks f).rowFocus = s.rowFocus := rfl
@[simp] theorem setLinks_turn (s : State) (f : Links → Links) : (s.setLinks f).turn = s.turn := rfl
@[simp] theorem setLinks_contexts (s : State) (f : Links → Links) : (s.setLinks f).contexts = s.contexts := rfl
@[simp] theorem setLinks_queues (s : State) (f : Links → Links) : (s.setLinks f).queues = s.queues := rfl
@[simp] theorem setLinks_served (s : State) (f : Links → Links) : (s.setLinks f).served = s.served := rfl
@[simp] theorem setLinks_place (s : State) (f : Links → Links) : (s.setLinks f).place = s.place := rfl
@[simp] theorem setLinks_kernels (s : State) (f : Links → Links) : (s.setLinks f).kernels = s.kernels := rfl
@[simp] theorem setLinks_groups (s : State) (f : Links → Links) : (s.setLinks f).groups = s.groups := rfl
@[simp] theorem setLinks_cores (s : State) (f : Links → Links) : (s.setLinks f).cores = s.cores := rfl
@[simp] theorem setLinks_ops (s : State) (f : Links → Links) : (s.setLinks f).ops = s.ops := rfl
@[simp] theorem setLinks_locks (s : State) (f : Links → Links) : (s.setLinks f).locks = s.locks := rfl
@[simp] theorem setLinks_mats (s : State) (f : Links → Links) : (s.setLinks f).mats = s.mats := rfl
@[simp] theorem setLinks_cats (s : State) (f : Links → Links) : (s.setLinks f).cats = s.cats := rfl
@[simp] theorem setLinks_mem (s : State) (f : Links → Links) : (s.setLinks f).mem = s.mem := rfl
@[simp] theorem setLinks_mmu (s : State) (f : Links → Links) : (s.setLinks f).mmu = s.mmu := rfl
@[simp] theorem setLinks_rows (s : State) (f : Links → Links) : (s.setLinks f).rows = s.rows := rfl
@[simp] theorem setLinks_arc (s : State) (f : Links → Links) : (s.setLinks f).arc = s.arc := rfl
@[simp] theorem setLinks_plat (s : State) (f : Links → Links) : (s.setLinks f).plat = s.plat := rfl
@[simp] theorem setLinks_windows (s : State) (f : Links → Links) : (s.setLinks f).windows = s.windows := rfl
@[simp] theorem setLinks_heldCxl (s : State) (f : Links → Links) : (s.setLinks f).heldCxl = s.heldCxl := rfl
@[simp] theorem setLinks_heldRemote (s : State) (f : Links → Links) : (s.setLinks f).heldRemote = s.heldRemote := rfl
@[simp] theorem setLinks_llc (s : State) (f : Links → Links) : (s.setLinks f).llc = s.llc := rfl
@[simp] theorem setLinks_l2 (s : State) (f : Links → Links) : (s.setLinks f).l2 = s.l2 := rfl
@[simp] theorem setLinks_latch (s : State) (f : Links → Links) : (s.setLinks f).latch = s.latch := rfl
@[simp] theorem setLinks_answer (s : State) (f : Links → Links) : (s.setLinks f).answer = s.answer := rfl

/-! ## modUnit -/

@[simp] theorem modUnit_agenda (s : State) (u : Nat) (f : Link → Link) : (s.modUnit u f).agenda = s.agenda := rfl
@[simp] theorem modUnit_fresh (s : State) (u : Nat) (f : Link → Link) : (s.modUnit u f).fresh = s.fresh := rfl
@[simp] theorem modUnit_focus (s : State) (u : Nat) (f : Link → Link) : (s.modUnit u f).focus = s.focus := rfl
@[simp] theorem modUnit_rowFocus (s : State) (u : Nat) (f : Link → Link) : (s.modUnit u f).rowFocus = s.rowFocus := rfl
@[simp] theorem modUnit_turn (s : State) (u : Nat) (f : Link → Link) : (s.modUnit u f).turn = s.turn := rfl
@[simp] theorem modUnit_contexts (s : State) (u : Nat) (f : Link → Link) : (s.modUnit u f).contexts = s.contexts := rfl
@[simp] theorem modUnit_queues (s : State) (u : Nat) (f : Link → Link) : (s.modUnit u f).queues = s.queues := rfl
@[simp] theorem modUnit_served (s : State) (u : Nat) (f : Link → Link) : (s.modUnit u f).served = s.served := rfl
@[simp] theorem modUnit_place (s : State) (u : Nat) (f : Link → Link) : (s.modUnit u f).place = s.place := rfl
@[simp] theorem modUnit_kernels (s : State) (u : Nat) (f : Link → Link) : (s.modUnit u f).kernels = s.kernels := rfl
@[simp] theorem modUnit_groups (s : State) (u : Nat) (f : Link → Link) : (s.modUnit u f).groups = s.groups := rfl
@[simp] theorem modUnit_cores (s : State) (u : Nat) (f : Link → Link) : (s.modUnit u f).cores = s.cores := rfl
@[simp] theorem modUnit_ops (s : State) (u : Nat) (f : Link → Link) : (s.modUnit u f).ops = s.ops := rfl
@[simp] theorem modUnit_locks (s : State) (u : Nat) (f : Link → Link) : (s.modUnit u f).locks = s.locks := rfl
@[simp] theorem modUnit_mats (s : State) (u : Nat) (f : Link → Link) : (s.modUnit u f).mats = s.mats := rfl
@[simp] theorem modUnit_cats (s : State) (u : Nat) (f : Link → Link) : (s.modUnit u f).cats = s.cats := rfl
@[simp] theorem modUnit_mem (s : State) (u : Nat) (f : Link → Link) : (s.modUnit u f).mem = s.mem := rfl
@[simp] theorem modUnit_mmu (s : State) (u : Nat) (f : Link → Link) : (s.modUnit u f).mmu = s.mmu := rfl
@[simp] theorem modUnit_rows (s : State) (u : Nat) (f : Link → Link) : (s.modUnit u f).rows = s.rows := rfl
@[simp] theorem modUnit_arc (s : State) (u : Nat) (f : Link → Link) : (s.modUnit u f).arc = s.arc := rfl
@[simp] theorem modUnit_plat (s : State) (u : Nat) (f : Link → Link) : (s.modUnit u f).plat = s.plat := rfl
@[simp] theorem modUnit_windows (s : State) (u : Nat) (f : Link → Link) : (s.modUnit u f).windows = s.windows := rfl
@[simp] theorem modUnit_heldCxl (s : State) (u : Nat) (f : Link → Link) : (s.modUnit u f).heldCxl = s.heldCxl := rfl
@[simp] theorem modUnit_heldRemote (s : State) (u : Nat) (f : Link → Link) : (s.modUnit u f).heldRemote = s.heldRemote := rfl
@[simp] theorem modUnit_llc (s : State) (u : Nat) (f : Link → Link) : (s.modUnit u f).llc = s.llc := rfl
@[simp] theorem modUnit_l2 (s : State) (u : Nat) (f : Link → Link) : (s.modUnit u f).l2 = s.l2 := rfl
@[simp] theorem modUnit_latch (s : State) (u : Nat) (f : Link → Link) : (s.modUnit u f).latch = s.latch := rfl
@[simp] theorem modUnit_answer (s : State) (u : Nat) (f : Link → Link) : (s.modUnit u f).answer = s.answer := rfl

/-! ## psStatus -/

@[simp] theorem psStatus_agenda (s : State) (c : Byte) : (s.psStatus c).agenda = s.agenda := rfl
@[simp] theorem psStatus_fresh (s : State) (c : Byte) : (s.psStatus c).fresh = s.fresh := rfl
@[simp] theorem psStatus_focus (s : State) (c : Byte) : (s.psStatus c).focus = s.focus := rfl
@[simp] theorem psStatus_rowFocus (s : State) (c : Byte) : (s.psStatus c).rowFocus = s.rowFocus := rfl
@[simp] theorem psStatus_turn (s : State) (c : Byte) : (s.psStatus c).turn = s.turn := rfl
@[simp] theorem psStatus_contexts (s : State) (c : Byte) : (s.psStatus c).contexts = s.contexts := rfl
@[simp] theorem psStatus_queues (s : State) (c : Byte) : (s.psStatus c).queues = s.queues := rfl
@[simp] theorem psStatus_served (s : State) (c : Byte) : (s.psStatus c).served = s.served := rfl
@[simp] theorem psStatus_place (s : State) (c : Byte) : (s.psStatus c).place = s.place := rfl
@[simp] theorem psStatus_kernels (s : State) (c : Byte) : (s.psStatus c).kernels = s.kernels := rfl
@[simp] theorem psStatus_groups (s : State) (c : Byte) : (s.psStatus c).groups = s.groups := rfl
@[simp] theorem psStatus_cores (s : State) (c : Byte) : (s.psStatus c).cores = s.cores := rfl
@[simp] theorem psStatus_ops (s : State) (c : Byte) : (s.psStatus c).ops = s.ops := rfl
@[simp] theorem psStatus_locks (s : State) (c : Byte) : (s.psStatus c).locks = s.locks := rfl
@[simp] theorem psStatus_mats (s : State) (c : Byte) : (s.psStatus c).mats = s.mats := rfl
@[simp] theorem psStatus_cats (s : State) (c : Byte) : (s.psStatus c).cats = s.cats := rfl
@[simp] theorem psStatus_mem (s : State) (c : Byte) : (s.psStatus c).mem = s.mem := rfl
@[simp] theorem psStatus_rows (s : State) (c : Byte) : (s.psStatus c).rows = s.rows := rfl
@[simp] theorem psStatus_arc (s : State) (c : Byte) : (s.psStatus c).arc = s.arc := rfl
@[simp] theorem psStatus_links (s : State) (c : Byte) : (s.psStatus c).links = s.links := rfl
@[simp] theorem psStatus_plat (s : State) (c : Byte) : (s.psStatus c).plat = s.plat := rfl
@[simp] theorem psStatus_windows (s : State) (c : Byte) : (s.psStatus c).windows = s.windows := rfl
@[simp] theorem psStatus_heldCxl (s : State) (c : Byte) : (s.psStatus c).heldCxl = s.heldCxl := rfl
@[simp] theorem psStatus_heldRemote (s : State) (c : Byte) : (s.psStatus c).heldRemote = s.heldRemote := rfl
@[simp] theorem psStatus_llc (s : State) (c : Byte) : (s.psStatus c).llc = s.llc := rfl
@[simp] theorem psStatus_l2 (s : State) (c : Byte) : (s.psStatus c).l2 = s.l2 := rfl
@[simp] theorem psStatus_latch (s : State) (c : Byte) : (s.psStatus c).latch = s.latch := rfl
@[simp] theorem psStatus_answer (s : State) (c : Byte) : (s.psStatus c).answer = s.answer := rfl

/-! ## arcStatus -/

@[simp] theorem arcStatus_agenda (s : State) (c : Byte) : (s.arcStatus c).agenda = s.agenda := rfl
@[simp] theorem arcStatus_fresh (s : State) (c : Byte) : (s.arcStatus c).fresh = s.fresh := rfl
@[simp] theorem arcStatus_focus (s : State) (c : Byte) : (s.arcStatus c).focus = s.focus := rfl
@[simp] theorem arcStatus_rowFocus (s : State) (c : Byte) : (s.arcStatus c).rowFocus = s.rowFocus := rfl
@[simp] theorem arcStatus_turn (s : State) (c : Byte) : (s.arcStatus c).turn = s.turn := rfl
@[simp] theorem arcStatus_contexts (s : State) (c : Byte) : (s.arcStatus c).contexts = s.contexts := rfl
@[simp] theorem arcStatus_queues (s : State) (c : Byte) : (s.arcStatus c).queues = s.queues := rfl
@[simp] theorem arcStatus_served (s : State) (c : Byte) : (s.arcStatus c).served = s.served := rfl
@[simp] theorem arcStatus_place (s : State) (c : Byte) : (s.arcStatus c).place = s.place := rfl
@[simp] theorem arcStatus_kernels (s : State) (c : Byte) : (s.arcStatus c).kernels = s.kernels := rfl
@[simp] theorem arcStatus_groups (s : State) (c : Byte) : (s.arcStatus c).groups = s.groups := rfl
@[simp] theorem arcStatus_cores (s : State) (c : Byte) : (s.arcStatus c).cores = s.cores := rfl
@[simp] theorem arcStatus_ops (s : State) (c : Byte) : (s.arcStatus c).ops = s.ops := rfl
@[simp] theorem arcStatus_locks (s : State) (c : Byte) : (s.arcStatus c).locks = s.locks := rfl
@[simp] theorem arcStatus_mats (s : State) (c : Byte) : (s.arcStatus c).mats = s.mats := rfl
@[simp] theorem arcStatus_cats (s : State) (c : Byte) : (s.arcStatus c).cats = s.cats := rfl
@[simp] theorem arcStatus_mem (s : State) (c : Byte) : (s.arcStatus c).mem = s.mem := rfl
@[simp] theorem arcStatus_mmu (s : State) (c : Byte) : (s.arcStatus c).mmu = s.mmu := rfl
@[simp] theorem arcStatus_rows (s : State) (c : Byte) : (s.arcStatus c).rows = s.rows := rfl
@[simp] theorem arcStatus_links (s : State) (c : Byte) : (s.arcStatus c).links = s.links := rfl
@[simp] theorem arcStatus_plat (s : State) (c : Byte) : (s.arcStatus c).plat = s.plat := rfl
@[simp] theorem arcStatus_windows (s : State) (c : Byte) : (s.arcStatus c).windows = s.windows := rfl
@[simp] theorem arcStatus_heldCxl (s : State) (c : Byte) : (s.arcStatus c).heldCxl = s.heldCxl := rfl
@[simp] theorem arcStatus_heldRemote (s : State) (c : Byte) : (s.arcStatus c).heldRemote = s.heldRemote := rfl
@[simp] theorem arcStatus_llc (s : State) (c : Byte) : (s.arcStatus c).llc = s.llc := rfl
@[simp] theorem arcStatus_l2 (s : State) (c : Byte) : (s.arcStatus c).l2 = s.l2 := rfl
@[simp] theorem arcStatus_latch (s : State) (c : Byte) : (s.arcStatus c).latch = s.latch := rfl
@[simp] theorem arcStatus_answer (s : State) (c : Byte) : (s.arcStatus c).answer = s.answer := rfl

/-! ## dropOp -/

@[simp] theorem dropOp_agenda (s : State) (i : Nat) : (s.dropOp i).agenda = s.agenda := rfl
@[simp] theorem dropOp_fresh (s : State) (i : Nat) : (s.dropOp i).fresh = s.fresh := rfl
@[simp] theorem dropOp_focus (s : State) (i : Nat) : (s.dropOp i).focus = s.focus := rfl
@[simp] theorem dropOp_rowFocus (s : State) (i : Nat) : (s.dropOp i).rowFocus = s.rowFocus := rfl
@[simp] theorem dropOp_turn (s : State) (i : Nat) : (s.dropOp i).turn = s.turn := rfl
@[simp] theorem dropOp_contexts (s : State) (i : Nat) : (s.dropOp i).contexts = s.contexts := rfl
@[simp] theorem dropOp_queues (s : State) (i : Nat) : (s.dropOp i).queues = s.queues := rfl
@[simp] theorem dropOp_served (s : State) (i : Nat) : (s.dropOp i).served = s.served := rfl
@[simp] theorem dropOp_place (s : State) (i : Nat) : (s.dropOp i).place = s.place := rfl
@[simp] theorem dropOp_kernels (s : State) (i : Nat) : (s.dropOp i).kernels = s.kernels := rfl
@[simp] theorem dropOp_groups (s : State) (i : Nat) : (s.dropOp i).groups = s.groups := rfl
@[simp] theorem dropOp_cores (s : State) (i : Nat) : (s.dropOp i).cores = s.cores := rfl
@[simp] theorem dropOp_locks (s : State) (i : Nat) : (s.dropOp i).locks = s.locks := rfl
@[simp] theorem dropOp_mats (s : State) (i : Nat) : (s.dropOp i).mats = s.mats := rfl
@[simp] theorem dropOp_cats (s : State) (i : Nat) : (s.dropOp i).cats = s.cats := rfl
@[simp] theorem dropOp_mem (s : State) (i : Nat) : (s.dropOp i).mem = s.mem := rfl
@[simp] theorem dropOp_mmu (s : State) (i : Nat) : (s.dropOp i).mmu = s.mmu := rfl
@[simp] theorem dropOp_rows (s : State) (i : Nat) : (s.dropOp i).rows = s.rows := rfl
@[simp] theorem dropOp_arc (s : State) (i : Nat) : (s.dropOp i).arc = s.arc := rfl
@[simp] theorem dropOp_links (s : State) (i : Nat) : (s.dropOp i).links = s.links := rfl
@[simp] theorem dropOp_plat (s : State) (i : Nat) : (s.dropOp i).plat = s.plat := rfl
@[simp] theorem dropOp_windows (s : State) (i : Nat) : (s.dropOp i).windows = s.windows := rfl
@[simp] theorem dropOp_heldCxl (s : State) (i : Nat) : (s.dropOp i).heldCxl = s.heldCxl := rfl
@[simp] theorem dropOp_heldRemote (s : State) (i : Nat) : (s.dropOp i).heldRemote = s.heldRemote := rfl
@[simp] theorem dropOp_llc (s : State) (i : Nat) : (s.dropOp i).llc = s.llc := rfl
@[simp] theorem dropOp_l2 (s : State) (i : Nat) : (s.dropOp i).l2 = s.l2 := rfl
@[simp] theorem dropOp_latch (s : State) (i : Nat) : (s.dropOp i).latch = s.latch := rfl
@[simp] theorem dropOp_answer (s : State) (i : Nat) : (s.dropOp i).answer = s.answer := rfl

/-! ## dropLock -/

@[simp] theorem dropLock_agenda (s : State) (i : Nat) : (s.dropLock i).agenda = s.agenda := rfl
@[simp] theorem dropLock_fresh (s : State) (i : Nat) : (s.dropLock i).fresh = s.fresh := rfl
@[simp] theorem dropLock_focus (s : State) (i : Nat) : (s.dropLock i).focus = s.focus := rfl
@[simp] theorem dropLock_rowFocus (s : State) (i : Nat) : (s.dropLock i).rowFocus = s.rowFocus := rfl
@[simp] theorem dropLock_turn (s : State) (i : Nat) : (s.dropLock i).turn = s.turn := rfl
@[simp] theorem dropLock_contexts (s : State) (i : Nat) : (s.dropLock i).contexts = s.contexts := rfl
@[simp] theorem dropLock_queues (s : State) (i : Nat) : (s.dropLock i).queues = s.queues := rfl
@[simp] theorem dropLock_served (s : State) (i : Nat) : (s.dropLock i).served = s.served := rfl
@[simp] theorem dropLock_place (s : State) (i : Nat) : (s.dropLock i).place = s.place := rfl
@[simp] theorem dropLock_kernels (s : State) (i : Nat) : (s.dropLock i).kernels = s.kernels := rfl
@[simp] theorem dropLock_groups (s : State) (i : Nat) : (s.dropLock i).groups = s.groups := rfl
@[simp] theorem dropLock_cores (s : State) (i : Nat) : (s.dropLock i).cores = s.cores := rfl
@[simp] theorem dropLock_ops (s : State) (i : Nat) : (s.dropLock i).ops = s.ops := rfl
@[simp] theorem dropLock_mats (s : State) (i : Nat) : (s.dropLock i).mats = s.mats := rfl
@[simp] theorem dropLock_cats (s : State) (i : Nat) : (s.dropLock i).cats = s.cats := rfl
@[simp] theorem dropLock_mem (s : State) (i : Nat) : (s.dropLock i).mem = s.mem := rfl
@[simp] theorem dropLock_mmu (s : State) (i : Nat) : (s.dropLock i).mmu = s.mmu := rfl
@[simp] theorem dropLock_rows (s : State) (i : Nat) : (s.dropLock i).rows = s.rows := rfl
@[simp] theorem dropLock_arc (s : State) (i : Nat) : (s.dropLock i).arc = s.arc := rfl
@[simp] theorem dropLock_links (s : State) (i : Nat) : (s.dropLock i).links = s.links := rfl
@[simp] theorem dropLock_plat (s : State) (i : Nat) : (s.dropLock i).plat = s.plat := rfl
@[simp] theorem dropLock_windows (s : State) (i : Nat) : (s.dropLock i).windows = s.windows := rfl
@[simp] theorem dropLock_heldCxl (s : State) (i : Nat) : (s.dropLock i).heldCxl = s.heldCxl := rfl
@[simp] theorem dropLock_heldRemote (s : State) (i : Nat) : (s.dropLock i).heldRemote = s.heldRemote := rfl
@[simp] theorem dropLock_llc (s : State) (i : Nat) : (s.dropLock i).llc = s.llc := rfl
@[simp] theorem dropLock_l2 (s : State) (i : Nat) : (s.dropLock i).l2 = s.l2 := rfl
@[simp] theorem dropLock_latch (s : State) (i : Nat) : (s.dropLock i).latch = s.latch := rfl
@[simp] theorem dropLock_answer (s : State) (i : Nat) : (s.dropLock i).answer = s.answer := rfl

/-! ## setTlb -/

@[simp] theorem setTlb_agenda (s : State) (ts : List TlbEntry) : (s.setTlb ts).agenda = s.agenda := rfl
@[simp] theorem setTlb_fresh (s : State) (ts : List TlbEntry) : (s.setTlb ts).fresh = s.fresh := rfl
@[simp] theorem setTlb_focus (s : State) (ts : List TlbEntry) : (s.setTlb ts).focus = s.focus := rfl
@[simp] theorem setTlb_rowFocus (s : State) (ts : List TlbEntry) : (s.setTlb ts).rowFocus = s.rowFocus := rfl
@[simp] theorem setTlb_turn (s : State) (ts : List TlbEntry) : (s.setTlb ts).turn = s.turn := rfl
@[simp] theorem setTlb_contexts (s : State) (ts : List TlbEntry) : (s.setTlb ts).contexts = s.contexts := rfl
@[simp] theorem setTlb_queues (s : State) (ts : List TlbEntry) : (s.setTlb ts).queues = s.queues := rfl
@[simp] theorem setTlb_served (s : State) (ts : List TlbEntry) : (s.setTlb ts).served = s.served := rfl
@[simp] theorem setTlb_place (s : State) (ts : List TlbEntry) : (s.setTlb ts).place = s.place := rfl
@[simp] theorem setTlb_kernels (s : State) (ts : List TlbEntry) : (s.setTlb ts).kernels = s.kernels := rfl
@[simp] theorem setTlb_groups (s : State) (ts : List TlbEntry) : (s.setTlb ts).groups = s.groups := rfl
@[simp] theorem setTlb_cores (s : State) (ts : List TlbEntry) : (s.setTlb ts).cores = s.cores := rfl
@[simp] theorem setTlb_ops (s : State) (ts : List TlbEntry) : (s.setTlb ts).ops = s.ops := rfl
@[simp] theorem setTlb_locks (s : State) (ts : List TlbEntry) : (s.setTlb ts).locks = s.locks := rfl
@[simp] theorem setTlb_mats (s : State) (ts : List TlbEntry) : (s.setTlb ts).mats = s.mats := rfl
@[simp] theorem setTlb_cats (s : State) (ts : List TlbEntry) : (s.setTlb ts).cats = s.cats := rfl
@[simp] theorem setTlb_mem (s : State) (ts : List TlbEntry) : (s.setTlb ts).mem = s.mem := rfl
@[simp] theorem setTlb_rows (s : State) (ts : List TlbEntry) : (s.setTlb ts).rows = s.rows := rfl
@[simp] theorem setTlb_arc (s : State) (ts : List TlbEntry) : (s.setTlb ts).arc = s.arc := rfl
@[simp] theorem setTlb_links (s : State) (ts : List TlbEntry) : (s.setTlb ts).links = s.links := rfl
@[simp] theorem setTlb_plat (s : State) (ts : List TlbEntry) : (s.setTlb ts).plat = s.plat := rfl
@[simp] theorem setTlb_windows (s : State) (ts : List TlbEntry) : (s.setTlb ts).windows = s.windows := rfl
@[simp] theorem setTlb_heldCxl (s : State) (ts : List TlbEntry) : (s.setTlb ts).heldCxl = s.heldCxl := rfl
@[simp] theorem setTlb_heldRemote (s : State) (ts : List TlbEntry) : (s.setTlb ts).heldRemote = s.heldRemote := rfl
@[simp] theorem setTlb_llc (s : State) (ts : List TlbEntry) : (s.setTlb ts).llc = s.llc := rfl
@[simp] theorem setTlb_l2 (s : State) (ts : List TlbEntry) : (s.setTlb ts).l2 = s.l2 := rfl
@[simp] theorem setTlb_latch (s : State) (ts : List TlbEntry) : (s.setTlb ts).latch = s.latch := rfl
@[simp] theorem setTlb_answer (s : State) (ts : List TlbEntry) : (s.setTlb ts).answer = s.answer := rfl

/-! ## modCat -/

@[simp] theorem modCat_agenda (s : State) (i : Nat) (f : CatOp → CatOp) : (s.modCat i f).agenda = s.agenda := rfl
@[simp] theorem modCat_fresh (s : State) (i : Nat) (f : CatOp → CatOp) : (s.modCat i f).fresh = s.fresh := rfl
@[simp] theorem modCat_focus (s : State) (i : Nat) (f : CatOp → CatOp) : (s.modCat i f).focus = s.focus := rfl
@[simp] theorem modCat_rowFocus (s : State) (i : Nat) (f : CatOp → CatOp) : (s.modCat i f).rowFocus = s.rowFocus := rfl
@[simp] theorem modCat_turn (s : State) (i : Nat) (f : CatOp → CatOp) : (s.modCat i f).turn = s.turn := rfl
@[simp] theorem modCat_contexts (s : State) (i : Nat) (f : CatOp → CatOp) : (s.modCat i f).contexts = s.contexts := rfl
@[simp] theorem modCat_queues (s : State) (i : Nat) (f : CatOp → CatOp) : (s.modCat i f).queues = s.queues := rfl
@[simp] theorem modCat_served (s : State) (i : Nat) (f : CatOp → CatOp) : (s.modCat i f).served = s.served := rfl
@[simp] theorem modCat_place (s : State) (i : Nat) (f : CatOp → CatOp) : (s.modCat i f).place = s.place := rfl
@[simp] theorem modCat_kernels (s : State) (i : Nat) (f : CatOp → CatOp) : (s.modCat i f).kernels = s.kernels := rfl
@[simp] theorem modCat_groups (s : State) (i : Nat) (f : CatOp → CatOp) : (s.modCat i f).groups = s.groups := rfl
@[simp] theorem modCat_cores (s : State) (i : Nat) (f : CatOp → CatOp) : (s.modCat i f).cores = s.cores := rfl
@[simp] theorem modCat_ops (s : State) (i : Nat) (f : CatOp → CatOp) : (s.modCat i f).ops = s.ops := rfl
@[simp] theorem modCat_locks (s : State) (i : Nat) (f : CatOp → CatOp) : (s.modCat i f).locks = s.locks := rfl
@[simp] theorem modCat_mats (s : State) (i : Nat) (f : CatOp → CatOp) : (s.modCat i f).mats = s.mats := rfl
@[simp] theorem modCat_mem (s : State) (i : Nat) (f : CatOp → CatOp) : (s.modCat i f).mem = s.mem := rfl
@[simp] theorem modCat_mmu (s : State) (i : Nat) (f : CatOp → CatOp) : (s.modCat i f).mmu = s.mmu := rfl
@[simp] theorem modCat_rows (s : State) (i : Nat) (f : CatOp → CatOp) : (s.modCat i f).rows = s.rows := rfl
@[simp] theorem modCat_arc (s : State) (i : Nat) (f : CatOp → CatOp) : (s.modCat i f).arc = s.arc := rfl
@[simp] theorem modCat_links (s : State) (i : Nat) (f : CatOp → CatOp) : (s.modCat i f).links = s.links := rfl
@[simp] theorem modCat_plat (s : State) (i : Nat) (f : CatOp → CatOp) : (s.modCat i f).plat = s.plat := rfl
@[simp] theorem modCat_windows (s : State) (i : Nat) (f : CatOp → CatOp) : (s.modCat i f).windows = s.windows := rfl
@[simp] theorem modCat_heldCxl (s : State) (i : Nat) (f : CatOp → CatOp) : (s.modCat i f).heldCxl = s.heldCxl := rfl
@[simp] theorem modCat_heldRemote (s : State) (i : Nat) (f : CatOp → CatOp) : (s.modCat i f).heldRemote = s.heldRemote := rfl
@[simp] theorem modCat_llc (s : State) (i : Nat) (f : CatOp → CatOp) : (s.modCat i f).llc = s.llc := rfl
@[simp] theorem modCat_l2 (s : State) (i : Nat) (f : CatOp → CatOp) : (s.modCat i f).l2 = s.l2 := rfl
@[simp] theorem modCat_latch (s : State) (i : Nat) (f : CatOp → CatOp) : (s.modCat i f).latch = s.latch := rfl
@[simp] theorem modCat_answer (s : State) (i : Nat) (f : CatOp → CatOp) : (s.modCat i f).answer = s.answer := rfl

/-! ## turnTo -/

@[simp] theorem turnTo_agenda (s : State) (c k : Nat) : (s.turnTo c k).agenda = s.agenda := rfl
@[simp] theorem turnTo_fresh (s : State) (c k : Nat) : (s.turnTo c k).fresh = s.fresh := rfl
@[simp] theorem turnTo_focus (s : State) (c k : Nat) : (s.turnTo c k).focus = s.focus := rfl
@[simp] theorem turnTo_rowFocus (s : State) (c k : Nat) : (s.turnTo c k).rowFocus = s.rowFocus := rfl
@[simp] theorem turnTo_contexts (s : State) (c k : Nat) : (s.turnTo c k).contexts = s.contexts := rfl
@[simp] theorem turnTo_queues (s : State) (c k : Nat) : (s.turnTo c k).queues = s.queues := rfl
@[simp] theorem turnTo_served (s : State) (c k : Nat) : (s.turnTo c k).served = s.served := rfl
@[simp] theorem turnTo_place (s : State) (c k : Nat) : (s.turnTo c k).place = s.place := rfl
@[simp] theorem turnTo_kernels (s : State) (c k : Nat) : (s.turnTo c k).kernels = s.kernels := rfl
@[simp] theorem turnTo_groups (s : State) (c k : Nat) : (s.turnTo c k).groups = s.groups := rfl
@[simp] theorem turnTo_ops (s : State) (c k : Nat) : (s.turnTo c k).ops = s.ops := rfl
@[simp] theorem turnTo_locks (s : State) (c k : Nat) : (s.turnTo c k).locks = s.locks := rfl
@[simp] theorem turnTo_mats (s : State) (c k : Nat) : (s.turnTo c k).mats = s.mats := rfl
@[simp] theorem turnTo_cats (s : State) (c k : Nat) : (s.turnTo c k).cats = s.cats := rfl
@[simp] theorem turnTo_mem (s : State) (c k : Nat) : (s.turnTo c k).mem = s.mem := rfl
@[simp] theorem turnTo_mmu (s : State) (c k : Nat) : (s.turnTo c k).mmu = s.mmu := rfl
@[simp] theorem turnTo_rows (s : State) (c k : Nat) : (s.turnTo c k).rows = s.rows := rfl
@[simp] theorem turnTo_arc (s : State) (c k : Nat) : (s.turnTo c k).arc = s.arc := rfl
@[simp] theorem turnTo_links (s : State) (c k : Nat) : (s.turnTo c k).links = s.links := rfl
@[simp] theorem turnTo_plat (s : State) (c k : Nat) : (s.turnTo c k).plat = s.plat := rfl
@[simp] theorem turnTo_windows (s : State) (c k : Nat) : (s.turnTo c k).windows = s.windows := rfl
@[simp] theorem turnTo_heldCxl (s : State) (c k : Nat) : (s.turnTo c k).heldCxl = s.heldCxl := rfl
@[simp] theorem turnTo_heldRemote (s : State) (c k : Nat) : (s.turnTo c k).heldRemote = s.heldRemote := rfl
@[simp] theorem turnTo_llc (s : State) (c k : Nat) : (s.turnTo c k).llc = s.llc := rfl
@[simp] theorem turnTo_l2 (s : State) (c k : Nat) : (s.turnTo c k).l2 = s.l2 := rfl
@[simp] theorem turnTo_latch (s : State) (c k : Nat) : (s.turnTo c k).latch = s.latch := rfl
@[simp] theorem turnTo_answer (s : State) (c k : Nat) : (s.turnTo c k).answer = s.answer := rfl

/-! ## calm -/

@[simp] theorem calm_agenda (s : State) : (s.calm).agenda = s.agenda := rfl
@[simp] theorem calm_fresh (s : State) : (s.calm).fresh = s.fresh := rfl
@[simp] theorem calm_turn (s : State) : (s.calm).turn = s.turn := rfl
@[simp] theorem calm_contexts (s : State) : (s.calm).contexts = s.contexts := rfl
@[simp] theorem calm_queues (s : State) : (s.calm).queues = s.queues := rfl
@[simp] theorem calm_served (s : State) : (s.calm).served = s.served := rfl
@[simp] theorem calm_place (s : State) : (s.calm).place = s.place := rfl
@[simp] theorem calm_kernels (s : State) : (s.calm).kernels = s.kernels := rfl
@[simp] theorem calm_groups (s : State) : (s.calm).groups = s.groups := rfl
@[simp] theorem calm_cores (s : State) : (s.calm).cores = s.cores := rfl
@[simp] theorem calm_ops (s : State) : (s.calm).ops = s.ops := rfl
@[simp] theorem calm_locks (s : State) : (s.calm).locks = s.locks := rfl
@[simp] theorem calm_mats (s : State) : (s.calm).mats = s.mats := rfl
@[simp] theorem calm_cats (s : State) : (s.calm).cats = s.cats := rfl
@[simp] theorem calm_mem (s : State) : (s.calm).mem = s.mem := rfl
@[simp] theorem calm_mmu (s : State) : (s.calm).mmu = s.mmu := rfl
@[simp] theorem calm_rows (s : State) : (s.calm).rows = s.rows := rfl
@[simp] theorem calm_arc (s : State) : (s.calm).arc = s.arc := rfl
@[simp] theorem calm_links (s : State) : (s.calm).links = s.links := rfl
@[simp] theorem calm_plat (s : State) : (s.calm).plat = s.plat := rfl
@[simp] theorem calm_windows (s : State) : (s.calm).windows = s.windows := rfl
@[simp] theorem calm_heldCxl (s : State) : (s.calm).heldCxl = s.heldCxl := rfl
@[simp] theorem calm_heldRemote (s : State) : (s.calm).heldRemote = s.heldRemote := rfl
@[simp] theorem calm_llc (s : State) : (s.calm).llc = s.llc := rfl
@[simp] theorem calm_l2 (s : State) : (s.calm).l2 = s.l2 := rfl
@[simp] theorem calm_latch (s : State) : (s.calm).latch = none := rfl
@[simp] theorem calm_answer (s : State) : (s.calm).answer = s.answer := rfl

/-! ## passCycles -/

@[simp] theorem passCycles_agenda (s : State) (c : Nat) : (s.passCycles c).agenda = s.agenda := rfl
@[simp] theorem passCycles_turn (s : State) (c : Nat) : (s.passCycles c).turn = s.turn := rfl
@[simp] theorem passCycles_contexts (s : State) (c : Nat) : (s.passCycles c).contexts = s.contexts := rfl
@[simp] theorem passCycles_queues (s : State) (c : Nat) : (s.passCycles c).queues = s.queues := rfl
@[simp] theorem passCycles_served (s : State) (c : Nat) : (s.passCycles c).served = s.served := rfl
@[simp] theorem passCycles_place (s : State) (c : Nat) : (s.passCycles c).place = s.place := rfl
@[simp] theorem passCycles_kernels (s : State) (c : Nat) : (s.passCycles c).kernels = s.kernels := rfl
@[simp] theorem passCycles_cores (s : State) (c : Nat) : (s.passCycles c).cores = s.cores := rfl
@[simp] theorem passCycles_ops (s : State) (c : Nat) : (s.passCycles c).ops = s.ops := rfl
@[simp] theorem passCycles_locks (s : State) (c : Nat) : (s.passCycles c).locks = s.locks := rfl
@[simp] theorem passCycles_mats (s : State) (c : Nat) : (s.passCycles c).mats = s.mats := rfl
@[simp] theorem passCycles_cats (s : State) (c : Nat) : (s.passCycles c).cats = s.cats := rfl
@[simp] theorem passCycles_mem (s : State) (c : Nat) : (s.passCycles c).mem = s.mem := rfl
@[simp] theorem passCycles_mmu (s : State) (c : Nat) : (s.passCycles c).mmu = s.mmu := rfl
@[simp] theorem passCycles_rows (s : State) (c : Nat) : (s.passCycles c).rows = s.rows := rfl
@[simp] theorem passCycles_arc (s : State) (c : Nat) : (s.passCycles c).arc = s.arc := rfl
@[simp] theorem passCycles_links (s : State) (c : Nat) : (s.passCycles c).links = s.links := rfl
@[simp] theorem passCycles_plat (s : State) (c : Nat) : (s.passCycles c).plat = s.plat := rfl
@[simp] theorem passCycles_windows (s : State) (c : Nat) : (s.passCycles c).windows = s.windows := rfl
@[simp] theorem passCycles_heldCxl (s : State) (c : Nat) : (s.passCycles c).heldCxl = s.heldCxl := rfl
@[simp] theorem passCycles_heldRemote (s : State) (c : Nat) : (s.passCycles c).heldRemote = s.heldRemote := rfl
@[simp] theorem passCycles_llc (s : State) (c : Nat) : (s.passCycles c).llc = s.llc := rfl
@[simp] theorem passCycles_l2 (s : State) (c : Nat) : (s.passCycles c).l2 = s.l2 := rfl
@[simp] theorem passCycles_latch (s : State) (c : Nat) : (s.passCycles c).latch = s.latch := rfl
@[simp] theorem passCycles_answer (s : State) (c : Nat) : (s.passCycles c).answer = s.answer := rfl
@[simp] theorem passCycles_focus (s : State) (c : Nat) : (s.passCycles c).focus = s.focus := rfl
@[simp] theorem passCycles_rowFocus (s : State) (c : Nat) : (s.passCycles c).rowFocus = s.rowFocus := rfl

/-! ## dropLines -/

@[simp] theorem dropLines_agenda (s : State) (p : LlcLine → Bool) : (s.dropLines p).agenda = s.agenda := rfl
@[simp] theorem dropLines_fresh (s : State) (p : LlcLine → Bool) : (s.dropLines p).fresh = s.fresh := rfl
@[simp] theorem dropLines_turn (s : State) (p : LlcLine → Bool) : (s.dropLines p).turn = s.turn := rfl
@[simp] theorem dropLines_contexts (s : State) (p : LlcLine → Bool) : (s.dropLines p).contexts = s.contexts := rfl
@[simp] theorem dropLines_queues (s : State) (p : LlcLine → Bool) : (s.dropLines p).queues = s.queues := rfl
@[simp] theorem dropLines_served (s : State) (p : LlcLine → Bool) : (s.dropLines p).served = s.served := rfl
@[simp] theorem dropLines_place (s : State) (p : LlcLine → Bool) : (s.dropLines p).place = s.place := rfl
@[simp] theorem dropLines_kernels (s : State) (p : LlcLine → Bool) : (s.dropLines p).kernels = s.kernels := rfl
@[simp] theorem dropLines_groups (s : State) (p : LlcLine → Bool) : (s.dropLines p).groups = s.groups := rfl
@[simp] theorem dropLines_cores (s : State) (p : LlcLine → Bool) : (s.dropLines p).cores = s.cores := rfl
@[simp] theorem dropLines_ops (s : State) (p : LlcLine → Bool) : (s.dropLines p).ops = s.ops := rfl
@[simp] theorem dropLines_locks (s : State) (p : LlcLine → Bool) : (s.dropLines p).locks = s.locks := rfl
@[simp] theorem dropLines_mats (s : State) (p : LlcLine → Bool) : (s.dropLines p).mats = s.mats := rfl
@[simp] theorem dropLines_cats (s : State) (p : LlcLine → Bool) : (s.dropLines p).cats = s.cats := rfl
@[simp] theorem dropLines_mem (s : State) (p : LlcLine → Bool) : (s.dropLines p).mem = s.mem := rfl
@[simp] theorem dropLines_mmu (s : State) (p : LlcLine → Bool) : (s.dropLines p).mmu = s.mmu := rfl
@[simp] theorem dropLines_rows (s : State) (p : LlcLine → Bool) : (s.dropLines p).rows = s.rows := rfl
@[simp] theorem dropLines_arc (s : State) (p : LlcLine → Bool) : (s.dropLines p).arc = s.arc := rfl
@[simp] theorem dropLines_links (s : State) (p : LlcLine → Bool) : (s.dropLines p).links = s.links := rfl
@[simp] theorem dropLines_plat (s : State) (p : LlcLine → Bool) : (s.dropLines p).plat = s.plat := rfl
@[simp] theorem dropLines_windows (s : State) (p : LlcLine → Bool) : (s.dropLines p).windows = s.windows := rfl
@[simp] theorem dropLines_heldCxl (s : State) (p : LlcLine → Bool) : (s.dropLines p).heldCxl = s.heldCxl := rfl
@[simp] theorem dropLines_heldRemote (s : State) (p : LlcLine → Bool) : (s.dropLines p).heldRemote = s.heldRemote := rfl
@[simp] theorem dropLines_answer (s : State) (p : LlcLine → Bool) : (s.dropLines p).answer = s.answer := rfl
@[simp] theorem dropLines_focus (s : State) (p : LlcLine → Bool) : (s.dropLines p).focus = s.focus := rfl
@[simp] theorem dropLines_rowFocus (s : State) (p : LlcLine → Bool) : (s.dropLines p).rowFocus = s.rowFocus := rfl
@[simp] theorem dropLines_l2 (s : State) (p : LlcLine → Bool) : (s.dropLines p).l2 = s.l2 := rfl
@[simp] theorem dropLines_latch (s : State) (p : LlcLine → Bool) : (s.dropLines p).latch = s.latch := rfl

/-! ## dropL2 -/

@[simp] theorem dropL2_agenda (s : State) (p : Nat → Nat → Bool) : (s.dropL2 p).agenda = s.agenda := rfl
@[simp] theorem dropL2_fresh (s : State) (p : Nat → Nat → Bool) : (s.dropL2 p).fresh = s.fresh := rfl
@[simp] theorem dropL2_turn (s : State) (p : Nat → Nat → Bool) : (s.dropL2 p).turn = s.turn := rfl
@[simp] theorem dropL2_contexts (s : State) (p : Nat → Nat → Bool) : (s.dropL2 p).contexts = s.contexts := rfl
@[simp] theorem dropL2_queues (s : State) (p : Nat → Nat → Bool) : (s.dropL2 p).queues = s.queues := rfl
@[simp] theorem dropL2_served (s : State) (p : Nat → Nat → Bool) : (s.dropL2 p).served = s.served := rfl
@[simp] theorem dropL2_place (s : State) (p : Nat → Nat → Bool) : (s.dropL2 p).place = s.place := rfl
@[simp] theorem dropL2_kernels (s : State) (p : Nat → Nat → Bool) : (s.dropL2 p).kernels = s.kernels := rfl
@[simp] theorem dropL2_groups (s : State) (p : Nat → Nat → Bool) : (s.dropL2 p).groups = s.groups := rfl
@[simp] theorem dropL2_cores (s : State) (p : Nat → Nat → Bool) : (s.dropL2 p).cores = s.cores := rfl
@[simp] theorem dropL2_ops (s : State) (p : Nat → Nat → Bool) : (s.dropL2 p).ops = s.ops := rfl
@[simp] theorem dropL2_locks (s : State) (p : Nat → Nat → Bool) : (s.dropL2 p).locks = s.locks := rfl
@[simp] theorem dropL2_mats (s : State) (p : Nat → Nat → Bool) : (s.dropL2 p).mats = s.mats := rfl
@[simp] theorem dropL2_cats (s : State) (p : Nat → Nat → Bool) : (s.dropL2 p).cats = s.cats := rfl
@[simp] theorem dropL2_mem (s : State) (p : Nat → Nat → Bool) : (s.dropL2 p).mem = s.mem := rfl
@[simp] theorem dropL2_mmu (s : State) (p : Nat → Nat → Bool) : (s.dropL2 p).mmu = s.mmu := rfl
@[simp] theorem dropL2_rows (s : State) (p : Nat → Nat → Bool) : (s.dropL2 p).rows = s.rows := rfl
@[simp] theorem dropL2_arc (s : State) (p : Nat → Nat → Bool) : (s.dropL2 p).arc = s.arc := rfl
@[simp] theorem dropL2_links (s : State) (p : Nat → Nat → Bool) : (s.dropL2 p).links = s.links := rfl
@[simp] theorem dropL2_plat (s : State) (p : Nat → Nat → Bool) : (s.dropL2 p).plat = s.plat := rfl
@[simp] theorem dropL2_windows (s : State) (p : Nat → Nat → Bool) : (s.dropL2 p).windows = s.windows := rfl
@[simp] theorem dropL2_heldCxl (s : State) (p : Nat → Nat → Bool) : (s.dropL2 p).heldCxl = s.heldCxl := rfl
@[simp] theorem dropL2_heldRemote (s : State) (p : Nat → Nat → Bool) : (s.dropL2 p).heldRemote = s.heldRemote := rfl
@[simp] theorem dropL2_answer (s : State) (p : Nat → Nat → Bool) : (s.dropL2 p).answer = s.answer := rfl
@[simp] theorem dropL2_focus (s : State) (p : Nat → Nat → Bool) : (s.dropL2 p).focus = s.focus := rfl
@[simp] theorem dropL2_rowFocus (s : State) (p : Nat → Nat → Bool) : (s.dropL2 p).rowFocus = s.rowFocus := rfl
@[simp] theorem dropL2_llc (s : State) (p : Nat → Nat → Bool) : (s.dropL2 p).llc = s.llc := rfl
@[simp] theorem dropL2_latch (s : State) (p : Nat → Nat → Bool) : (s.dropL2 p).latch = s.latch := rfl

/-! ## A strand's setV -/

@[simp] theorem strand_setV_m (t : Strand) (r : BitVec 6) (x : VReg) : (t.setV r x).m = t.m := rfl
@[simp] theorem strand_setV_n (t : Strand) (r : BitVec 6) (x : VReg) : (t.setV r x).n = t.n := rfl
@[simp] theorem strand_setV_pc (t : Strand) (r : BitVec 6) (x : VReg) : (t.setV r x).pc = t.pc := rfl
@[simp] theorem strand_setV_vl (t : Strand) (r : BitVec 6) (x : VReg) : (t.setV r x).vl = t.vl := rfl
@[simp] theorem strand_setV_vrows (t : Strand) (r : BitVec 6) (x : VReg) : (t.setV r x).vrows = t.vrows := rfl
@[simp] theorem strand_setV_vcols (t : Strand) (r : BitVec 6) (x : VReg) : (t.setV r x).vcols = t.vcols := rfl
@[simp] theorem strand_setV_vs (t : Strand) (r : BitVec 6) (x : VReg) : (t.setV r x).vs = t.vs := rfl
@[simp] theorem strand_setV_sc (t : Strand) (r : BitVec 6) (x : VReg) : (t.setV r x).sc = t.sc := rfl
@[simp] theorem strand_setV_md (t : Strand) (r : BitVec 6) (x : VReg) : (t.setV r x).md = t.md := rfl
@[simp] theorem strand_setV_st (t : Strand) (r : BitVec 6) (x : VReg) : (t.setV r x).st = t.st := rfl
@[simp] theorem strand_setV_ri (t : Strand) (r : BitVec 6) (x : VReg) : (t.setV r x).ri = t.ri := rfl
@[simp] theorem strand_setV_kl (t : Strand) (r : BitVec 6) (x : VReg) : (t.setV r x).kl = t.kl := rfl
@[simp] theorem strand_setV_ks (t : Strand) (r : BitVec 6) (x : VReg) : (t.setV r x).ks = t.ks := rfl
@[simp] theorem strand_setV_ke (t : Strand) (r : BitVec 6) (x : VReg) : (t.setV r x).ke = t.ke := rfl
@[simp] theorem strand_setV_kr (t : Strand) (r : BitVec 6) (x : VReg) : (t.setV r x).kr = t.kr := rfl
@[simp] theorem strand_setV_kc (t : Strand) (r : BitVec 6) (x : VReg) : (t.setV r x).kc = t.kc := rfl
@[simp] theorem strand_setV_tvec (t : Strand) (r : BitVec 6) (x : VReg) : (t.setV r x).tvec = t.tvec := rfl
@[simp] theorem strand_setV_tpc (t : Strand) (r : BitVec 6) (x : VReg) : (t.setV r x).tpc = t.tpc := rfl
@[simp] theorem strand_setV_tcause (t : Strand) (r : BitVec 6) (x : VReg) : (t.setV r x).tcause = t.tcause := rfl
@[simp] theorem strand_setV_tval (t : Strand) (r : BitVec 6) (x : VReg) : (t.setV r x).tval = t.tval := rfl
@[simp] theorem strand_setV_tscr (t : Strand) (r : BitVec 6) (x : VReg) : (t.setV r x).tscr = t.tscr := rfl
@[simp] theorem strand_setV_h (t : Strand) (r : BitVec 6) (x : VReg) : (t.setV r x).h = t.h := rfl
@[simp] theorem strand_setV_torg (t : Strand) (r : BitVec 6) (x : VReg) : (t.setV r x).torg = t.torg := rfl
@[simp] theorem strand_setV_gens (t : Strand) (r : BitVec 6) (x : VReg) : (t.setV r x).gens = t.gens := rfl
@[simp] theorem strand_setV_status (t : Strand) (r : BitVec 6) (x : VReg) : (t.setV r x).status = t.status := rfl
@[simp] theorem strand_setV_ibuf (t : Strand) (r : BitVec 6) (x : VReg) : (t.setV r x).ibuf = t.ibuf := rfl
@[simp] theorem strand_setV_chans (t : Strand) (r : BitVec 6) (x : VReg) : (t.setV r x).chans = t.chans := rfl
@[simp] theorem strand_setV_catFaults (t : Strand) (r : BitVec 6) (x : VReg) : (t.setV r x).catFaults = t.catFaults := rfl
@[simp] theorem strand_setV_lastChan (t : Strand) (r : BitVec 6) (x : VReg) : (t.setV r x).lastChan = t.lastChan := rfl
@[simp] theorem strand_setV_stepLeft (t : Strand) (r : BitVec 6) (x : VReg) : (t.setV r x).stepLeft = t.stepLeft := rfl

/-! ## A strand's setX -/

@[simp] theorem strand_setX_m (t : Strand) (r : BitVec 6) (x : Word) : (t.setX r x).m = t.m := rfl
@[simp] theorem strand_setX_n (t : Strand) (r : BitVec 6) (x : Word) : (t.setX r x).n = t.n := rfl
@[simp] theorem strand_setX_pc (t : Strand) (r : BitVec 6) (x : Word) : (t.setX r x).pc = t.pc := rfl
@[simp] theorem strand_setX_vl (t : Strand) (r : BitVec 6) (x : Word) : (t.setX r x).vl = t.vl := rfl
@[simp] theorem strand_setX_vrows (t : Strand) (r : BitVec 6) (x : Word) : (t.setX r x).vrows = t.vrows := rfl
@[simp] theorem strand_setX_vcols (t : Strand) (r : BitVec 6) (x : Word) : (t.setX r x).vcols = t.vcols := rfl
@[simp] theorem strand_setX_vs (t : Strand) (r : BitVec 6) (x : Word) : (t.setX r x).vs = t.vs := rfl
@[simp] theorem strand_setX_sc (t : Strand) (r : BitVec 6) (x : Word) : (t.setX r x).sc = t.sc := rfl
@[simp] theorem strand_setX_md (t : Strand) (r : BitVec 6) (x : Word) : (t.setX r x).md = t.md := rfl
@[simp] theorem strand_setX_st (t : Strand) (r : BitVec 6) (x : Word) : (t.setX r x).st = t.st := rfl
@[simp] theorem strand_setX_ri (t : Strand) (r : BitVec 6) (x : Word) : (t.setX r x).ri = t.ri := rfl
@[simp] theorem strand_setX_kl (t : Strand) (r : BitVec 6) (x : Word) : (t.setX r x).kl = t.kl := rfl
@[simp] theorem strand_setX_ks (t : Strand) (r : BitVec 6) (x : Word) : (t.setX r x).ks = t.ks := rfl
@[simp] theorem strand_setX_ke (t : Strand) (r : BitVec 6) (x : Word) : (t.setX r x).ke = t.ke := rfl
@[simp] theorem strand_setX_kr (t : Strand) (r : BitVec 6) (x : Word) : (t.setX r x).kr = t.kr := rfl
@[simp] theorem strand_setX_kc (t : Strand) (r : BitVec 6) (x : Word) : (t.setX r x).kc = t.kc := rfl
@[simp] theorem strand_setX_tvec (t : Strand) (r : BitVec 6) (x : Word) : (t.setX r x).tvec = t.tvec := rfl
@[simp] theorem strand_setX_tpc (t : Strand) (r : BitVec 6) (x : Word) : (t.setX r x).tpc = t.tpc := rfl
@[simp] theorem strand_setX_tcause (t : Strand) (r : BitVec 6) (x : Word) : (t.setX r x).tcause = t.tcause := rfl
@[simp] theorem strand_setX_tval (t : Strand) (r : BitVec 6) (x : Word) : (t.setX r x).tval = t.tval := rfl
@[simp] theorem strand_setX_tscr (t : Strand) (r : BitVec 6) (x : Word) : (t.setX r x).tscr = t.tscr := rfl
@[simp] theorem strand_setX_h (t : Strand) (r : BitVec 6) (x : Word) : (t.setX r x).h = t.h := rfl
@[simp] theorem strand_setX_torg (t : Strand) (r : BitVec 6) (x : Word) : (t.setX r x).torg = t.torg := rfl
@[simp] theorem strand_setX_gens (t : Strand) (r : BitVec 6) (x : Word) : (t.setX r x).gens = t.gens := rfl
@[simp] theorem strand_setX_status (t : Strand) (r : BitVec 6) (x : Word) : (t.setX r x).status = t.status := rfl
@[simp] theorem strand_setX_ibuf (t : Strand) (r : BitVec 6) (x : Word) : (t.setX r x).ibuf = t.ibuf := rfl
@[simp] theorem strand_setX_chans (t : Strand) (r : BitVec 6) (x : Word) : (t.setX r x).chans = t.chans := rfl
@[simp] theorem strand_setX_catFaults (t : Strand) (r : BitVec 6) (x : Word) : (t.setX r x).catFaults = t.catFaults := rfl
@[simp] theorem strand_setX_lastChan (t : Strand) (r : BitVec 6) (x : Word) : (t.setX r x).lastChan = t.lastChan := rfl
@[simp] theorem strand_setX_stepLeft (t : Strand) (r : BitVec 6) (x : Word) : (t.setX r x).stepLeft = t.stepLeft := rfl

/-! ## A strand's setM -/

@[simp] theorem strand_setM_v (t : Strand) (r : BitVec 6) (x : Bits1024) : (t.setM r x).v = t.v := rfl
@[simp] theorem strand_setM_n (t : Strand) (r : BitVec 6) (x : Bits1024) : (t.setM r x).n = t.n := rfl
@[simp] theorem strand_setM_pc (t : Strand) (r : BitVec 6) (x : Bits1024) : (t.setM r x).pc = t.pc := rfl
@[simp] theorem strand_setM_vl (t : Strand) (r : BitVec 6) (x : Bits1024) : (t.setM r x).vl = t.vl := rfl
@[simp] theorem strand_setM_vrows (t : Strand) (r : BitVec 6) (x : Bits1024) : (t.setM r x).vrows = t.vrows := rfl
@[simp] theorem strand_setM_vcols (t : Strand) (r : BitVec 6) (x : Bits1024) : (t.setM r x).vcols = t.vcols := rfl
@[simp] theorem strand_setM_vs (t : Strand) (r : BitVec 6) (x : Bits1024) : (t.setM r x).vs = t.vs := rfl
@[simp] theorem strand_setM_sc (t : Strand) (r : BitVec 6) (x : Bits1024) : (t.setM r x).sc = t.sc := rfl
@[simp] theorem strand_setM_md (t : Strand) (r : BitVec 6) (x : Bits1024) : (t.setM r x).md = t.md := rfl
@[simp] theorem strand_setM_dm (t : Strand) (r : BitVec 6) (x : Bits1024) : (t.setM r x).dm = t.dm := rfl
@[simp] theorem strand_setM_st (t : Strand) (r : BitVec 6) (x : Bits1024) : (t.setM r x).st = t.st := rfl
@[simp] theorem strand_setM_ri (t : Strand) (r : BitVec 6) (x : Bits1024) : (t.setM r x).ri = t.ri := rfl
@[simp] theorem strand_setM_kl (t : Strand) (r : BitVec 6) (x : Bits1024) : (t.setM r x).kl = t.kl := rfl
@[simp] theorem strand_setM_ks (t : Strand) (r : BitVec 6) (x : Bits1024) : (t.setM r x).ks = t.ks := rfl
@[simp] theorem strand_setM_ke (t : Strand) (r : BitVec 6) (x : Bits1024) : (t.setM r x).ke = t.ke := rfl
@[simp] theorem strand_setM_kr (t : Strand) (r : BitVec 6) (x : Bits1024) : (t.setM r x).kr = t.kr := rfl
@[simp] theorem strand_setM_kc (t : Strand) (r : BitVec 6) (x : Bits1024) : (t.setM r x).kc = t.kc := rfl
@[simp] theorem strand_setM_tvec (t : Strand) (r : BitVec 6) (x : Bits1024) : (t.setM r x).tvec = t.tvec := rfl
@[simp] theorem strand_setM_tpc (t : Strand) (r : BitVec 6) (x : Bits1024) : (t.setM r x).tpc = t.tpc := rfl
@[simp] theorem strand_setM_tcause (t : Strand) (r : BitVec 6) (x : Bits1024) : (t.setM r x).tcause = t.tcause := rfl
@[simp] theorem strand_setM_tval (t : Strand) (r : BitVec 6) (x : Bits1024) : (t.setM r x).tval = t.tval := rfl
@[simp] theorem strand_setM_tscr (t : Strand) (r : BitVec 6) (x : Bits1024) : (t.setM r x).tscr = t.tscr := rfl
@[simp] theorem strand_setM_h (t : Strand) (r : BitVec 6) (x : Bits1024) : (t.setM r x).h = t.h := rfl
@[simp] theorem strand_setM_torg (t : Strand) (r : BitVec 6) (x : Bits1024) : (t.setM r x).torg = t.torg := rfl
@[simp] theorem strand_setM_gens (t : Strand) (r : BitVec 6) (x : Bits1024) : (t.setM r x).gens = t.gens := rfl
@[simp] theorem strand_setM_status (t : Strand) (r : BitVec 6) (x : Bits1024) : (t.setM r x).status = t.status := rfl
@[simp] theorem strand_setM_ibuf (t : Strand) (r : BitVec 6) (x : Bits1024) : (t.setM r x).ibuf = t.ibuf := rfl
@[simp] theorem strand_setM_chans (t : Strand) (r : BitVec 6) (x : Bits1024) : (t.setM r x).chans = t.chans := rfl
@[simp] theorem strand_setM_catFaults (t : Strand) (r : BitVec 6) (x : Bits1024) : (t.setM r x).catFaults = t.catFaults := rfl
@[simp] theorem strand_setM_lastChan (t : Strand) (r : BitVec 6) (x : Bits1024) : (t.setM r x).lastChan = t.lastChan := rfl
@[simp] theorem strand_setM_stepLeft (t : Strand) (r : BitVec 6) (x : Bits1024) : (t.setM r x).stepLeft = t.stepLeft := rfl

/-! ## A strand's setN -/

@[simp] theorem strand_setN_v (t : Strand) (r : Nat) (x : Bits1024) : (t.setN r x).v = t.v := rfl
@[simp] theorem strand_setN_m (t : Strand) (r : Nat) (x : Bits1024) : (t.setN r x).m = t.m := rfl
@[simp] theorem strand_setN_pc (t : Strand) (r : Nat) (x : Bits1024) : (t.setN r x).pc = t.pc := rfl
@[simp] theorem strand_setN_vl (t : Strand) (r : Nat) (x : Bits1024) : (t.setN r x).vl = t.vl := rfl
@[simp] theorem strand_setN_vrows (t : Strand) (r : Nat) (x : Bits1024) : (t.setN r x).vrows = t.vrows := rfl
@[simp] theorem strand_setN_vcols (t : Strand) (r : Nat) (x : Bits1024) : (t.setN r x).vcols = t.vcols := rfl
@[simp] theorem strand_setN_vs (t : Strand) (r : Nat) (x : Bits1024) : (t.setN r x).vs = t.vs := rfl
@[simp] theorem strand_setN_sc (t : Strand) (r : Nat) (x : Bits1024) : (t.setN r x).sc = t.sc := rfl
@[simp] theorem strand_setN_md (t : Strand) (r : Nat) (x : Bits1024) : (t.setN r x).md = t.md := rfl
@[simp] theorem strand_setN_dm (t : Strand) (r : Nat) (x : Bits1024) : (t.setN r x).dm = t.dm := rfl
@[simp] theorem strand_setN_st (t : Strand) (r : Nat) (x : Bits1024) : (t.setN r x).st = t.st := rfl
@[simp] theorem strand_setN_ri (t : Strand) (r : Nat) (x : Bits1024) : (t.setN r x).ri = t.ri := rfl
@[simp] theorem strand_setN_kl (t : Strand) (r : Nat) (x : Bits1024) : (t.setN r x).kl = t.kl := rfl
@[simp] theorem strand_setN_ks (t : Strand) (r : Nat) (x : Bits1024) : (t.setN r x).ks = t.ks := rfl
@[simp] theorem strand_setN_ke (t : Strand) (r : Nat) (x : Bits1024) : (t.setN r x).ke = t.ke := rfl
@[simp] theorem strand_setN_kr (t : Strand) (r : Nat) (x : Bits1024) : (t.setN r x).kr = t.kr := rfl
@[simp] theorem strand_setN_kc (t : Strand) (r : Nat) (x : Bits1024) : (t.setN r x).kc = t.kc := rfl
@[simp] theorem strand_setN_tvec (t : Strand) (r : Nat) (x : Bits1024) : (t.setN r x).tvec = t.tvec := rfl
@[simp] theorem strand_setN_tpc (t : Strand) (r : Nat) (x : Bits1024) : (t.setN r x).tpc = t.tpc := rfl
@[simp] theorem strand_setN_tcause (t : Strand) (r : Nat) (x : Bits1024) : (t.setN r x).tcause = t.tcause := rfl
@[simp] theorem strand_setN_tval (t : Strand) (r : Nat) (x : Bits1024) : (t.setN r x).tval = t.tval := rfl
@[simp] theorem strand_setN_tscr (t : Strand) (r : Nat) (x : Bits1024) : (t.setN r x).tscr = t.tscr := rfl
@[simp] theorem strand_setN_h (t : Strand) (r : Nat) (x : Bits1024) : (t.setN r x).h = t.h := rfl
@[simp] theorem strand_setN_torg (t : Strand) (r : Nat) (x : Bits1024) : (t.setN r x).torg = t.torg := rfl
@[simp] theorem strand_setN_gens (t : Strand) (r : Nat) (x : Bits1024) : (t.setN r x).gens = t.gens := rfl
@[simp] theorem strand_setN_status (t : Strand) (r : Nat) (x : Bits1024) : (t.setN r x).status = t.status := rfl
@[simp] theorem strand_setN_ibuf (t : Strand) (r : Nat) (x : Bits1024) : (t.setN r x).ibuf = t.ibuf := rfl
@[simp] theorem strand_setN_chans (t : Strand) (r : Nat) (x : Bits1024) : (t.setN r x).chans = t.chans := rfl
@[simp] theorem strand_setN_catFaults (t : Strand) (r : Nat) (x : Bits1024) : (t.setN r x).catFaults = t.catFaults := rfl
@[simp] theorem strand_setN_lastChan (t : Strand) (r : Nat) (x : Bits1024) : (t.setN r x).lastChan = t.lastChan := rfl
@[simp] theorem strand_setN_stepLeft (t : Strand) (r : Nat) (x : Bits1024) : (t.setN r x).stepLeft = t.stepLeft := rfl

/-! ## A strand's flag -/

@[simp] theorem strand_flag_v (t : Strand) (x : BitVec 6) : (t.flag x).v = t.v := rfl
@[simp] theorem strand_flag_m (t : Strand) (x : BitVec 6) : (t.flag x).m = t.m := rfl
@[simp] theorem strand_flag_n (t : Strand) (x : BitVec 6) : (t.flag x).n = t.n := rfl
@[simp] theorem strand_flag_pc (t : Strand) (x : BitVec 6) : (t.flag x).pc = t.pc := rfl
@[simp] theorem strand_flag_vl (t : Strand) (x : BitVec 6) : (t.flag x).vl = t.vl := rfl
@[simp] theorem strand_flag_vrows (t : Strand) (x : BitVec 6) : (t.flag x).vrows = t.vrows := rfl
@[simp] theorem strand_flag_vcols (t : Strand) (x : BitVec 6) : (t.flag x).vcols = t.vcols := rfl
@[simp] theorem strand_flag_vs (t : Strand) (x : BitVec 6) : (t.flag x).vs = t.vs := rfl
@[simp] theorem strand_flag_sc (t : Strand) (x : BitVec 6) : (t.flag x).sc = t.sc := rfl
@[simp] theorem strand_flag_md (t : Strand) (x : BitVec 6) : (t.flag x).md = t.md := rfl
@[simp] theorem strand_flag_dm (t : Strand) (x : BitVec 6) : (t.flag x).dm = t.dm := rfl
@[simp] theorem strand_flag_ri (t : Strand) (x : BitVec 6) : (t.flag x).ri = t.ri := rfl
@[simp] theorem strand_flag_kl (t : Strand) (x : BitVec 6) : (t.flag x).kl = t.kl := rfl
@[simp] theorem strand_flag_ks (t : Strand) (x : BitVec 6) : (t.flag x).ks = t.ks := rfl
@[simp] theorem strand_flag_ke (t : Strand) (x : BitVec 6) : (t.flag x).ke = t.ke := rfl
@[simp] theorem strand_flag_kr (t : Strand) (x : BitVec 6) : (t.flag x).kr = t.kr := rfl
@[simp] theorem strand_flag_kc (t : Strand) (x : BitVec 6) : (t.flag x).kc = t.kc := rfl
@[simp] theorem strand_flag_tvec (t : Strand) (x : BitVec 6) : (t.flag x).tvec = t.tvec := rfl
@[simp] theorem strand_flag_tpc (t : Strand) (x : BitVec 6) : (t.flag x).tpc = t.tpc := rfl
@[simp] theorem strand_flag_tcause (t : Strand) (x : BitVec 6) : (t.flag x).tcause = t.tcause := rfl
@[simp] theorem strand_flag_tval (t : Strand) (x : BitVec 6) : (t.flag x).tval = t.tval := rfl
@[simp] theorem strand_flag_tscr (t : Strand) (x : BitVec 6) : (t.flag x).tscr = t.tscr := rfl
@[simp] theorem strand_flag_h (t : Strand) (x : BitVec 6) : (t.flag x).h = t.h := rfl
@[simp] theorem strand_flag_torg (t : Strand) (x : BitVec 6) : (t.flag x).torg = t.torg := rfl
@[simp] theorem strand_flag_gens (t : Strand) (x : BitVec 6) : (t.flag x).gens = t.gens := rfl
@[simp] theorem strand_flag_status (t : Strand) (x : BitVec 6) : (t.flag x).status = t.status := rfl
@[simp] theorem strand_flag_ibuf (t : Strand) (x : BitVec 6) : (t.flag x).ibuf = t.ibuf := rfl
@[simp] theorem strand_flag_chans (t : Strand) (x : BitVec 6) : (t.flag x).chans = t.chans := rfl
@[simp] theorem strand_flag_catFaults (t : Strand) (x : BitVec 6) : (t.flag x).catFaults = t.catFaults := rfl
@[simp] theorem strand_flag_lastChan (t : Strand) (x : BitVec 6) : (t.flag x).lastChan = t.lastChan := rfl
@[simp] theorem strand_flag_stepLeft (t : Strand) (x : BitVec 6) : (t.flag x).stepLeft = t.stepLeft := rfl

/-! ## A strand's mark -/

@[simp] theorem strand_mark_v (t : Strand) (r : BitVec 6) : (t.mark r).v = t.v := rfl
@[simp] theorem strand_mark_m (t : Strand) (r : BitVec 6) : (t.mark r).m = t.m := rfl
@[simp] theorem strand_mark_n (t : Strand) (r : BitVec 6) : (t.mark r).n = t.n := rfl
@[simp] theorem strand_mark_pc (t : Strand) (r : BitVec 6) : (t.mark r).pc = t.pc := rfl
@[simp] theorem strand_mark_vl (t : Strand) (r : BitVec 6) : (t.mark r).vl = t.vl := rfl
@[simp] theorem strand_mark_vrows (t : Strand) (r : BitVec 6) : (t.mark r).vrows = t.vrows := rfl
@[simp] theorem strand_mark_vcols (t : Strand) (r : BitVec 6) : (t.mark r).vcols = t.vcols := rfl
@[simp] theorem strand_mark_vs (t : Strand) (r : BitVec 6) : (t.mark r).vs = t.vs := rfl
@[simp] theorem strand_mark_sc (t : Strand) (r : BitVec 6) : (t.mark r).sc = t.sc := rfl
@[simp] theorem strand_mark_md (t : Strand) (r : BitVec 6) : (t.mark r).md = t.md := rfl
@[simp] theorem strand_mark_st (t : Strand) (r : BitVec 6) : (t.mark r).st = t.st := rfl
@[simp] theorem strand_mark_ri (t : Strand) (r : BitVec 6) : (t.mark r).ri = t.ri := rfl
@[simp] theorem strand_mark_kl (t : Strand) (r : BitVec 6) : (t.mark r).kl = t.kl := rfl
@[simp] theorem strand_mark_ks (t : Strand) (r : BitVec 6) : (t.mark r).ks = t.ks := rfl
@[simp] theorem strand_mark_ke (t : Strand) (r : BitVec 6) : (t.mark r).ke = t.ke := rfl
@[simp] theorem strand_mark_kr (t : Strand) (r : BitVec 6) : (t.mark r).kr = t.kr := rfl
@[simp] theorem strand_mark_kc (t : Strand) (r : BitVec 6) : (t.mark r).kc = t.kc := rfl
@[simp] theorem strand_mark_tvec (t : Strand) (r : BitVec 6) : (t.mark r).tvec = t.tvec := rfl
@[simp] theorem strand_mark_tpc (t : Strand) (r : BitVec 6) : (t.mark r).tpc = t.tpc := rfl
@[simp] theorem strand_mark_tcause (t : Strand) (r : BitVec 6) : (t.mark r).tcause = t.tcause := rfl
@[simp] theorem strand_mark_tval (t : Strand) (r : BitVec 6) : (t.mark r).tval = t.tval := rfl
@[simp] theorem strand_mark_tscr (t : Strand) (r : BitVec 6) : (t.mark r).tscr = t.tscr := rfl
@[simp] theorem strand_mark_h (t : Strand) (r : BitVec 6) : (t.mark r).h = t.h := rfl
@[simp] theorem strand_mark_torg (t : Strand) (r : BitVec 6) : (t.mark r).torg = t.torg := rfl
@[simp] theorem strand_mark_gens (t : Strand) (r : BitVec 6) : (t.mark r).gens = t.gens := rfl
@[simp] theorem strand_mark_status (t : Strand) (r : BitVec 6) : (t.mark r).status = t.status := rfl
@[simp] theorem strand_mark_ibuf (t : Strand) (r : BitVec 6) : (t.mark r).ibuf = t.ibuf := rfl
@[simp] theorem strand_mark_chans (t : Strand) (r : BitVec 6) : (t.mark r).chans = t.chans := rfl
@[simp] theorem strand_mark_catFaults (t : Strand) (r : BitVec 6) : (t.mark r).catFaults = t.catFaults := rfl
@[simp] theorem strand_mark_lastChan (t : Strand) (r : BitVec 6) : (t.mark r).lastChan = t.lastChan := rfl
@[simp] theorem strand_mark_stepLeft (t : Strand) (r : BitVec 6) : (t.mark r).stepLeft = t.stepLeft := rfl

/-! ## Updates of one object -/

theorem modAt_modAt {α : Type} (f h : α → α) : ∀ (l : List α) (i : Nat), modAt (modAt l i f) i h = modAt l i fun x => h (f x)
  | [], _ => rfl
  | _ :: _, 0 => rfl
  | a :: as, i + 1 => congrArg (a :: ·) (modAt_modAt f h as i)

theorem modAt_length {α : Type} (f : α → α) : ∀ (l : List α) (i : Nat), (modAt l i f).length = l.length
  | [], _ => rfl
  | _ :: _, 0 => rfl
  | _ :: as, i + 1 => congrArg (· + 1) (modAt_length f as i)

theorem modAt_get {α : Type} (f : α → α) : ∀ (l : List α) (i j : Nat), (modAt l i f)[j]? = if i = j then l[j]?.map f else l[j]?
  | [], i, j => by cases i <;> simp [modAt]
  | a :: as, 0, 0 => rfl
  | a :: as, 0, j + 1 => by simp [modAt]
  | a :: as, i + 1, 0 => by simp [modAt]
  | a :: as, i + 1, j + 1 => by simpa [modAt] using modAt_get f as i j

theorem modFirst_modFirst {α : Type} (p : α → Bool) (f h : α → α) (hf : ∀ a, p a = true → p (f a) = true) :
    ∀ l : List α, modFirst p h (modFirst p f l) = modFirst p (fun a => h (f a)) l
  | [] => rfl
  | a :: as => by
    cases e : p a with
    | true => simp [modFirst, e, hf a e]
    | false => simp [modFirst, e, modFirst_modFirst p f h hf as]

theorem find_modFirst {α : Type} (p : α → Bool) (f : α → α) (hf : ∀ a, p a = true → p (f a) = true) :
    ∀ l : List α, (modFirst p f l).find? p = (l.find? p).map f
  | [] => rfl
  | a :: as => by
    cases e : p a with
    | true => simp [modFirst, e, hf a e]
    | false => simp [modFirst, e, find_modFirst p f hf as]

theorem modFirst_congr {α : Type} {p : α → Bool} {f h : α → α} {a : α} :
    ∀ l : List α, l.find? p = some a → f a = h a → modFirst p f l = modFirst p h l
  | [], hl, _ => by simp at hl
  | b :: bs, hl, hfa => by
    cases e : p b with
    | true => simp [e] at hl; subst hl; simp [modFirst, e, hfa]
    | false => simp [e] at hl; simp [modFirst, e, modFirst_congr bs hl hfa]

/-- Two changes of one group are one change; an update keeps the identity. -/
theorem modGroup_modGroup (s : State) (u : Nat) (f h : Group → Group) (hf : ∀ g, (f g).uid = g.uid) :
    (s.modGroup u f).modGroup u h = s.modGroup u fun g => h (f g) := by
  simp only [State.modGroup]
  rw [modFirst_modFirst]
  intro a ha; simpa [hf] using ha

/-- A change of a group is decided by what it does to that group. -/
theorem modGroup_congr {s : State} {u : Nat} {f h : Group → Group} {g : Group} (hg : s.group? u = some g) (e : f g = h g) :
    s.modGroup u f = s.modGroup u h := by
  simp only [State.modGroup]; rw [modFirst_congr s.groups hg e]

/-- Two changes of one strand are one change. -/
theorem modStrand_modStrand (s : State) (u k : Nat) (f h : Strand → Strand) :
    (s.modStrand u k f).modStrand u k h = s.modStrand u k fun t => h (f t) := by
  exact (modGroup_modGroup s u (fun g => { g with strands := modAt g.strands k f }) (fun g => { g with strands := modAt g.strands k h })
    fun _ => rfl).trans (by simp only [modAt_modAt]; rfl)

/-- The group of an identity after a change of it. -/
theorem group_modGroup (s : State) (u : Nat) (f : Group → Group) (hf : ∀ g, (f g).uid = g.uid) :
    (s.modGroup u f).group? u = (s.group? u).map f := by
  simp only [State.group?, State.modGroup]
  exact find_modFirst _ f (by intro a ha; simpa [hf] using ha) s.groups

theorem modAt_congr {α : Type} {f h : α → α} {a : α} : ∀ (l : List α) (i : Nat), l[i]? = some a → f a = h a → modAt l i f = modAt l i h
  | [], _, hl, _ => by simp at hl
  | b :: bs, 0, hl, e => by simp at hl; subst hl; simp [modAt, e]
  | b :: bs, i + 1, hl, e => by simp at hl; simp [modAt, modAt_congr bs i hl e]

/-- A change of a strand is decided by what it does to that strand. -/
theorem modStrand_congr {s : State} {u k : Nat} {f h : Strand → Strand} {g : Group} {t : Strand} (ha : s.cur? = some (u, k, g, t)) (e : f t = h t) :
    s.modStrand u k f = s.modStrand u k h := by
  simp only [State.cur?, Option.bind_eq_some_iff, Option.map_eq_some_iff, Prod.mk.injEq] at ha
  obtain ⟨⟨u', k'⟩, -, g', hg, t', ht, rfl, rfl, rfl, rfl⟩ := ha
  exact modGroup_congr hg (by rw [modAt_congr _ _ ht e])

/-- A strand after a change of it. -/
theorem strand_modStrand (s : State) (u k : Nat) (f : Strand → Strand) : (s.modStrand u k f).strand? u k = (s.strand? u k).map f := by
  simp only [State.strand?, State.modStrand]
  rw [group_modGroup s u (fun g => { g with strands := modAt g.strands k f }) fun _ => rfl]
  cases s.group? u with
  | none => rfl
  | some g => simp [modAt_get]

/-! ## Registers of a strand -/

theorem low_append {a b : Nat} (h : BitVec a) (l : BitVec b) : (h ++ l).extractLsb' 0 b = l := by
  apply BitVec.eq_of_getLsbD_eq
  intro i hi
  simp [BitVec.getLsbD_append, hi]

theorem high_append {a b : Nat} (h : BitVec a) (l : BitVec b) : (h ++ l).extractLsb' b a = h := by
  apply BitVec.eq_of_getLsbD_eq
  intro i hi
  simp [BitVec.getLsbD_append, hi]

/-- A register after a write of it. -/
theorem vreg_setV (t : Strand) (r : BitVec 6) (x : VReg) (h : r.toNat < t.v.length) : (t.setV r x).vreg r = x := by
  simp [Strand.vreg, Strand.setV, List.getD, h]

/-- The other registers keep their values. -/
theorem vreg_setV_ne (t : Strand) (r q : BitVec 6) (x : VReg) (h : q ≠ r) : (t.setV r x).vreg q = t.vreg q := by
  have hn : r.toNat ≠ q.toNat := fun e => h (BitVec.eq_of_toNat_eq e.symm)
  simp [Strand.vreg, Strand.setV, List.getD, hn]

/-- xN after a write of it. -/
theorem x_setX (t : Strand) (r : BitVec 6) (x : Word) (h : r.toNat < t.v.length) : (t.setX r x).x r = x := by
  rw [Strand.x, Strand.setX, vreg_setV t r _ h]
  exact low_append _ _

/-- The other registers keep their values. -/
theorem vreg_setX_ne (t : Strand) (r q : BitVec 6) (x : Word) (h : q ≠ r) : (t.setX r x).vreg q = t.vreg q := vreg_setV_ne t r q _ h
theorem x_setX_ne (t : Strand) (r q : BitVec 6) (x : Word) (h : q ≠ r) : (t.setX r x).x q = t.x q := by
  rw [Strand.x, vreg_setX_ne t r q x h]; rfl

/-- A write of xN leaves bits 8191:64 of vN (R125). -/
theorem upper_setX (t : Strand) (r : BitVec 6) (x : Word) (h : r.toNat < t.v.length) :
    ((t.setX r x).vreg r).extractLsb' 64 8128 = (t.vreg r).extractLsb' 64 8128 := by
  rw [Strand.setX, vreg_setV t r _ h]
  exact high_append _ _

/-! ## How an instruction of a strand ends -/

/-- An instruction of the strand that acts runs its effect. -/
theorem runM_next {s : State} {u k : Nat} {g : Group} {t : Strand} (h : s.cur? = some (u, k, g, t))
    (f : Nat → Nat → Group → Strand → State → Eff State) : runM f s = .next (State.finish u k t.pc 4 (f u k g t s)) := by
  simp [runM, h]

/-- An effect on the strand alone that completes: the strand stands at the next instruction. -/
theorem runS_done {s : State} {u k : Nat} {g : Group} {t t' : Strand} (h : s.cur? = some (u, k, g, t)) {f : Strand → Eff Strand}
    (hf : f t = .done t') : runS f s = .next (s.modStrand u k fun _ => { t' with pc := nextPc t.pc 4 }) := by
  rw [runS, runM_next h, liftS, hf]
  simp only [Eff.map, State.finish]
  rw [modStrand_modStrand]

/-- An effect on the strand alone that jumps. -/
theorem runS_jump {s : State} {u k : Nat} {g : Group} {t t' : Strand} (h : s.cur? = some (u, k, g, t)) {f : Strand → Eff Strand}
    {a : Word} (hf : f t = .jump t' a) : runS f s = .next (s.modStrand u k fun _ => { t' with pc := a &&& pcMask, ibuf := [] }) := by
  rw [runS, runM_next h, liftS, hf]
  simp only [Eff.map, State.finish]
  rw [modStrand_modStrand]

/-- The strand that acts is a strand of its group. -/
theorem cur_strand {s : State} {u k : Nat} {g : Group} {t : Strand} (h : s.cur? = some (u, k, g, t)) :
    s.focus = some (u, k) ∧ s.group? u = some g ∧ g.strands[k]? = some t := by
  simp only [State.cur?, Option.bind_eq_some_iff, Option.map_eq_some_iff] at h
  obtain ⟨⟨a, b⟩, hf, g', hg, t', ht, e⟩ := h
  cases e
  exact ⟨hf, hg, ht⟩

/-- It still acts after a change of its own state. -/
theorem cur_modStrand {s : State} {u k : Nat} {g : Group} {t : Strand} (h : s.cur? = some (u, k, g, t)) (f : Strand → Strand) :
    (s.modStrand u k f).cur? = some (u, k, { g with strands := modAt g.strands k f }, f t) := by
  obtain ⟨hf, hg, ht⟩ := cur_strand h
  have hg' := group_modGroup s u (fun g => { g with strands := modAt g.strands k f }) fun _ => rfl
  rw [hg] at hg'
  simp only [State.cur?, modStrand_focus, hf, Option.bind_some]
  rw [show (s.modStrand u k f).group? u = _ from hg']
  simp [modAt_get, ht]

end Sys2Proof.Laws
end

