-- ==== Sys2Proof/Laws/Elements.lean ====
section
/-!
SUPPORT. Elements of vector registers: reading after writing, and what the element loops of the operand forms leave (R123, R126, R205).
-/
namespace Sys2Proof.Laws

open Sys2Proof Sys2Proof.Machine Sys2Proof.Safety

/-! ## Elements -/

theorem mul_low_div {w j : Nat} : 2 ^ (w * (j + 1)) = 2 ^ (w * j) * 2 ^ w := by rw [Nat.mul_succ, Nat.pow_add]

/-- The number that `setElem` builds, cut at the element. -/
theorem setElem_split (n e y k w : Nat) (he : n / 2 ^ k % 2 ^ w = e) :
    (n - e * 2 ^ k + y * 2 ^ k) = n / 2 ^ (k + w) * 2 ^ (k + w) + y * 2 ^ k + n % 2 ^ k := by
  have h1 := Nat.div_add_mod n (2 ^ k)
  have h2 := Nat.div_add_mod (n / 2 ^ k) (2 ^ w)
  rw [Nat.div_div_eq_div_mul, ← Nat.pow_add, he] at h2
  have h3 : n = (2 ^ w * (n / 2 ^ (k + w)) + e) * 2 ^ k + n % 2 ^ k := by rw [h2, Nat.mul_comm]; exact h1.symm
  have h4 : 2 ^ (k + w) = 2 ^ k * 2 ^ w := Nat.pow_add ..
  have h5 : (2 ^ w * (n / 2 ^ (k + w)) + e) * 2 ^ k = n / 2 ^ (k + w) * 2 ^ (k + w) + e * 2 ^ k := by rw [h4]; ring
  generalize hq : n / 2 ^ (k + w) * 2 ^ (k + w) = q at *
  generalize e * 2 ^ k = a at *
  omega

/-- Bits below `k` of a number decide its fields below `k`. -/
theorem field_low {n k a w : Nat} (h : a + w ≤ k) : n % 2 ^ k / 2 ^ a % 2 ^ w = n / 2 ^ a % 2 ^ w := by
  obtain ⟨d, rfl⟩ := Nat.exists_eq_add_of_le h
  rw [show a + w + d = a + (w + d) by omega, Nat.pow_add, Nat.mod_mul_right_div_self, Nat.pow_add, Nat.mod_mul_right_mod]

/-- Bits from `k` on of a number decide its fields from `k` on. -/
theorem field_high {n k a w : Nat} (h : k ≤ a) : n / 2 ^ a % 2 ^ w = n / 2 ^ k / 2 ^ (a - k) % 2 ^ w := by
  rw [Nat.div_div_eq_div_mul, ← Nat.pow_add, Nat.add_sub_cancel' h]

/-- An element after a write of an element. -/
theorem elem_setElem (w i j : Nat) (r : VReg) (x : Nat) (hi : (i + 1) * w ≤ 8192) (hj : (j + 1) * w ≤ 8192) :
    elem w (setElem w r i x) j = if i = j then x % 2 ^ w else elem w r j := by
  have hx : x % 2 ^ w < 2 ^ w := Nat.mod_lt _ (by positivity)
  have hs := setElem_split r.toNat (elem w r i) (x % 2 ^ w) (w * i) w (by simp [elem, Nat.shiftRight_eq_div_pow])
  have hlt : r.toNat / 2 ^ (w * i + w) * 2 ^ (w * i + w) + x % 2 ^ w * 2 ^ (w * i) + r.toNat % 2 ^ (w * i) < 2 ^ 8192 := by
    have hle : w * i + w ≤ 8192 := by nlinarith
    have hr : r.toNat < 2 ^ (8192 - (w * i + w)) * 2 ^ (w * i + w) := by
      rw [← Nat.pow_add, Nat.sub_add_cancel hle]; exact r.isLt
    have hq : r.toNat / 2 ^ (w * i + w) + 1 ≤ 2 ^ (8192 - (w * i + w)) := (Nat.div_lt_iff_lt_mul (by positivity)).2 hr
    have hm : r.toNat % 2 ^ (w * i) < 2 ^ (w * i) := Nat.mod_lt _ (by positivity)
    have h2 : 2 ^ 8192 = 2 ^ (8192 - (w * i + w)) * 2 ^ (w * i + w) := by rw [← Nat.pow_add, Nat.sub_add_cancel hle]
    have h3 : 2 ^ (w * i + w) = 2 ^ (w * i) * 2 ^ w := Nat.pow_add ..
    calc _ < r.toNat / 2 ^ (w * i + w) * 2 ^ (w * i + w) + x % 2 ^ w * 2 ^ (w * i) + 2 ^ (w * i) := by omega
      _ = r.toNat / 2 ^ (w * i + w) * 2 ^ (w * i + w) + (x % 2 ^ w + 1) * 2 ^ (w * i) := by ring
      _ ≤ r.toNat / 2 ^ (w * i + w) * 2 ^ (w * i + w) + 2 ^ w * 2 ^ (w * i) := by gcongr; exact hx
      _ = (r.toNat / 2 ^ (w * i + w) + 1) * 2 ^ (w * i + w) := by rw [h3]; ring
      _ ≤ 2 ^ (8192 - (w * i + w)) * 2 ^ (w * i + w) := by gcongr
      _ = 2 ^ 8192 := h2.symm
  have hn : (setElem w r i x).toNat = r.toNat / 2 ^ (w * i + w) * 2 ^ (w * i + w) + x % 2 ^ w * 2 ^ (w * i) + r.toNat % 2 ^ (w * i) := by
    rw [setElem, BitVec.toNat_ofNat, hs, Nat.mod_eq_of_lt hlt]
  simp only [elem, Nat.shiftRight_eq_div_pow, hn]
  have hm : r.toNat % 2 ^ (w * i) < 2 ^ (w * i) := Nat.mod_lt _ (by positivity)
  split
  · next e =>
    subst e
    rw [Nat.pow_add, show r.toNat / (2 ^ (w * i) * 2 ^ w) * (2 ^ (w * i) * 2 ^ w) + x % 2 ^ w * 2 ^ (w * i) + r.toNat % 2 ^ (w * i)
      = (r.toNat / (2 ^ (w * i) * 2 ^ w) * 2 ^ w + x % 2 ^ w) * 2 ^ (w * i) + r.toNat % 2 ^ (w * i) by ring,
      Nat.add_comm, Nat.add_mul_div_right _ _ (by positivity), Nat.div_eq_of_lt hm, Nat.zero_add, Nat.add_comm,
      Nat.add_mul_mod_self_right, Nat.mod_mod]
  · next e =>
    have hlow : (r.toNat / 2 ^ (w * i + w) * 2 ^ (w * i + w) + x % 2 ^ w * 2 ^ (w * i) + r.toNat % 2 ^ (w * i)) % 2 ^ (w * i)
        = r.toNat % 2 ^ (w * i) := by
      rw [Nat.pow_add, show r.toNat / (2 ^ (w * i) * 2 ^ w) * (2 ^ (w * i) * 2 ^ w) + x % 2 ^ w * 2 ^ (w * i) + r.toNat % 2 ^ (w * i)
        = r.toNat % 2 ^ (w * i) + (r.toNat / (2 ^ (w * i) * 2 ^ w) * 2 ^ w + x % 2 ^ w) * 2 ^ (w * i) by ring,
        Nat.add_mul_mod_self_right, Nat.mod_mod]
    have hhigh : (r.toNat / 2 ^ (w * i + w) * 2 ^ (w * i + w) + x % 2 ^ w * 2 ^ (w * i) + r.toNat % 2 ^ (w * i)) / 2 ^ (w * i + w)
        = r.toNat / 2 ^ (w * i + w) := by
      have hb : x % 2 ^ w * 2 ^ (w * i) + r.toNat % 2 ^ (w * i) < 2 ^ (w * i + w) := by
        have : (x % 2 ^ w + 1) * 2 ^ (w * i) ≤ 2 ^ w * 2 ^ (w * i) := Nat.mul_le_mul_right _ hx
        rw [Nat.pow_add, Nat.mul_comm (2 ^ (w * i))]; nlinarith
      rw [Nat.add_assoc, Nat.add_comm, Nat.add_mul_div_right _ _ (by positivity), Nat.div_eq_of_lt hb, Nat.zero_add]
    obtain hji | hij := Nat.lt_or_gt_of_ne (Ne.symm e)
    · have hk : w * j + w ≤ w * i := by nlinarith
      rw [← field_low hk, hlow, field_low hk]
    · have hk : w * i + w ≤ w * j := by nlinarith
      rw [field_high hk, hhigh, ← field_high hk]

/-! ## The element loop -/

/-- The element loop from index `i`: the lanes before each element, and what every element holds after it. -/
theorem elemLoop_from (w : Nat) (act : Nat → Bool) (f : Nat → Lanes → Nat × Lanes) :
    ∀ (n i : Nat) (d : VReg) (l : Lanes), (i + n) * w ≤ 8192 →
      ∃ ls : Nat → Lanes, ls i = l ∧ ls (i + n) = (elemLoop w act f n i d l).2 ∧
        (∀ j, i ≤ j → j < i + n → ls (j + 1) = if act j then (f j (ls j)).2 else ls j) ∧
        (∀ j, (j + 1) * w ≤ 8192 →
          elem w (elemLoop w act f n i d l).1 j = if i ≤ j ∧ j < i + n ∧ act j = true then (f j (ls j)).1 % 2 ^ w else elem w d j) := by
  intro n
  induction n with
  | zero =>
    intro i d l _
    refine ⟨fun _ => l, rfl, rfl, fun j h1 h2 => absurd h2 (by omega), fun j _ => ?_⟩
    rw [if_neg (by omega)]; rfl
  | succ n ih =>
    intro i d l hw
    have hi : (i + 1) * w ≤ 8192 := Nat.le_trans (Nat.mul_le_mul_right w (by omega)) hw
    have hw' : (i + 1 + n) * w ≤ 8192 := by rwa [Nat.add_assoc, Nat.add_comm 1 n]
    by_cases ha : act i = true
    · obtain ⟨ls, h0, h1, h2, h3⟩ := ih (i + 1) (setElem w d i (f i l).1) (f i l).2 hw'
      refine ⟨fun j => if j = i then l else ls j, by simp, ?_, ?_, ?_⟩
      · simp only [elemLoop, ha, if_true]
        rw [if_neg (by omega), ← Nat.add_assoc, Nat.add_right_comm]; exact h1
      · intro j hij hj
        have e' : j + 1 ≠ i := by omega
        by_cases e : j = i
        · subst e; simp [ha, h0]
        · simp only [e, e', if_false]; exact h2 j (by omega) (by omega)
      · intro j hj
        simp only [elemLoop, ha, if_true]
        rw [h3 j hj, elem_setElem w i j d _ hi hj]
        by_cases e : j = i
        · subst e; simp [ha]
        · rw [if_neg (Ne.symm e), if_neg e]
          exact if_congr ⟨fun h => ⟨by omega, by omega, h.2.2⟩, fun h => ⟨by omega, by omega, h.2.2⟩⟩ rfl rfl
    · obtain ⟨ls, h0, h1, h2, h3⟩ := ih (i + 1) d l hw'
      refine ⟨fun j => if j = i then l else ls j, by simp, ?_, ?_, ?_⟩
      · simp only [elemLoop, ha]
        rw [if_neg (by omega), ← Nat.add_assoc, Nat.add_right_comm]; exact h1
      · intro j hij hj
        have e' : j + 1 ≠ i := by omega
        by_cases e : j = i
        · subst e; simp [ha, h0]
        · simp only [e, e', if_false]; exact h2 j (by omega) (by omega)
      · intro j hj
        simp only [elemLoop, ha]
        rw [if_neg Bool.false_ne_true, h3 j hj]
        by_cases e : j = i
        · subst e; rw [if_neg (by omega), if_neg (fun h => ha h.2.2)]
        · rw [if_neg e]
          exact if_congr ⟨fun h => ⟨by omega, by omega, h.2.2⟩, fun h => ⟨by omega, by omega, h.2.2⟩⟩ rfl rfl

/-- The element loop of an instruction, from index 0. -/
theorem elemLoop_loop {w n : Nat} (act : Nat → Bool) (f : Nat → Lanes → Nat × Lanes) (d : VReg) (l : Lanes) (h : n * w ≤ 8192) :
    Loop w act n f d (elemLoop w act f n 0 d l).1 l (elemLoop w act f n 0 d l).2 := by
  obtain ⟨ls, h0, h1, h2, h3⟩ := elemLoop_from w act f n 0 d l (by simpa using h)
  refine ⟨ls, h0, by simpa using h1, fun j hj => h2 j (Nat.zero_le _) (by simpa using hj), fun j hj => ?_⟩
  rw [h3 j hj]; simp

/-- Every element of a fitting shape lies in the register. -/
theorem width_pos (ty : Nat) : 0 < tyWidth ty := by unfold tyWidth; split <;> decide
theorem cap_mul (ty : Nat) : tyCap ty * tyWidth ty ≤ 8192 := Nat.div_mul_le_self ..
theorem el_le_cap {t : Strand} (h : t.shapeBad = false) : t.el ≤ t.cap := by
  simp only [Strand.shapeBad, Bool.and_eq_false_iff, decide_eq_false_iff_not, Nat.not_lt] at h
  unfold Strand.el
  split
  · next e => cases h with
    | inl h => simp [e] at h
    | inr h => exact h
  · exact Nat.min_le_right ..
theorem el_mul {t : Strand} (h : t.shapeBad = false) : t.el * t.w ≤ 8192 :=
  Nat.le_trans (Nat.mul_le_mul_right _ (el_le_cap h)) (cap_mul t.ty)

/-! ## The forms of the typed instructions -/

/-- A meaning over the acting strand alone. -/
theorem becomes_of {i : Instr} {s : State} {u k : Nat} {g : Group} {t t' : Strand} {f : Strand → Eff Strand}
    (he : exec i s = runS f s) (ha : Acts s u k g t) (hf : f t = .done t') : Becomes i s u k t t' := by
  rw [Becomes, he]; exact runS_done ha hf

/-- A vector form over a loop of width t.w. -/
theorem vecForm_of {i : Instr} {s : State} {u k : Nat} {g : Group} {t : Strand} {d : BitVec 6} {op op' : Nat → Lanes → Nat × Lanes}
    {f : Strand → Eff Strand} (he : exec i s = runS f s) (ha : Acts s u k g t) (hf : f t = .done (vecForm t d op')) (hs : t.shapeBad = false)
    (ho : op' = op) : VecForm i s u k t d op := by
  subst ho
  exact ⟨_, _, elemLoop_loop t.active op' (t.vreg d) (lanes0 t) (el_mul hs), becomes_of he ha hf⟩

/-- The vector form of a typed three-operand instruction. -/
theorem typed3_vec {ok : Nat → Bool} {d a b : BitVec 6} {x : BitVec 1} {op : Strand → Nat → Nat → Nat → Nat → Lanes → Nat × Lanes}
    {t : Strand} (h : Ready ok t) :
    typed3 ok d a b 0#1 x op t = .done (vecForm t d fun j l => op t j (elem t.w (t.vreg d) j) (elem t.w (t.vreg a) j) (t.opB b x j) l) := by
  simp [typed3, withType, withShape, h.1, h.2.1, h.2.2]

/-- The scalar form of a typed three-operand instruction. -/
theorem typed3_sca {ok : Nat → Bool} {d a b : BitVec 6} {x : BitVec 1} {op : Strand → Nat → Nat → Nat → Nat → Lanes → Nat × Lanes}
    {t : Strand} (h1 : mdOk t.md = true) (h2 : ok t.ty = true) :
    typed3 ok d a b 1#1 x op t = .done (scalarForm t d fun l => op t 0 (scaB t d) (scaB t a) (scaB t b) l) := by
  simp [typed3, withType, h1, h2, scaB]

/-- A vector form whose meaning is `typed3`: the statement about its elements. -/
theorem vec3_of {i : Instr} {s : State} {u k : Nat} {g : Group} {t : Strand} {ok : Nat → Bool} {d a b : BitVec 6} {x : BitVec 1}
    {op : Strand → Nat → Nat → Nat → Nat → Lanes → Nat × Lanes} {op' : Nat → Lanes → Nat × Lanes}
    (he : exec i s = runS (typed3 ok d a b 0#1 x op) s) (ha : Acts s u k g t) (h : Ready ok t)
    (ho : ∀ j l, op t j (elemB t d j) (elemB t a j) (t.opB b x j) l = op' j l) : VecForm i s u k t d op' :=
  vecForm_of he ha (typed3_vec h) h.2.2 (funext fun j => funext fun l => ho j l)

/-- A scalar form. -/
theorem scalarForm_of {i : Instr} {s : State} {u k : Nat} {g : Group} {t : Strand} {d : BitVec 6} {op : Lanes → Nat × Lanes}
    {f : Strand → Eff Strand} (he : exec i s = runS f s) (ha : Acts s u k g t) (hf : f t = .done (scalarForm t d op)) :
    ScalarForm i s u k t d op := becomes_of he ha (by rw [hf]; rfl)

/-- A scalar form whose meaning is `typed3`. -/
theorem sca3_of {i : Instr} {s : State} {u k : Nat} {g : Group} {t : Strand} {ok : Nat → Bool} {d a b : BitVec 6} {x : BitVec 1}
    {op : Strand → Nat → Nat → Nat → Nat → Lanes → Nat × Lanes} {op' : Lanes → Nat × Lanes}
    (he : exec i s = runS (typed3 ok d a b 1#1 x op) s) (ha : Acts s u k g t) (h : Typed ok t)
    (ho : ∀ l, op t 0 (scaB t d) (scaB t a) (scaB t b) l = op' l) : ScalarForm i s u k t d op' :=
  scalarForm_of he ha ((typed3_sca h.1 h.2).trans (congrArg (fun f => Eff.done (scalarForm t d f)) (funext ho)))

/-- The forms of a typed two-operand instruction. -/
theorem vec2_of {i : Instr} {s : State} {u k : Nat} {g : Group} {t : Strand} {ok : Nat → Bool} {d a : BitVec 6}
    {op : Strand → Nat → Nat → Lanes → Nat × Lanes} {op' : Nat → Lanes → Nat × Lanes}
    (he : exec i s = runS (typed2 ok d a 0#1 op) s) (ha : Acts s u k g t) (h : Ready ok t)
    (ho : ∀ j l, op t j (elemB t a j) l = op' j l) : VecForm i s u k t d op' :=
  vecForm_of he ha (typed3_vec (d := d) (a := a) (b := a) (x := 0#1) (op := fun t i _ x _ l => op t i x l) h) h.2.2
    (funext fun j => funext fun l => ho j l)

theorem sca2_of {i : Instr} {s : State} {u k : Nat} {g : Group} {t : Strand} {ok : Nat → Bool} {d a : BitVec 6}
    {op : Strand → Nat → Nat → Lanes → Nat × Lanes} {op' : Lanes → Nat × Lanes}
    (he : exec i s = runS (typed2 ok d a 1#1 op) s) (ha : Acts s u k g t) (h : Typed ok t)
    (ho : ∀ l, op t 0 (scaB t a) l = op' l) : ScalarForm i s u k t d op' :=
  scalarForm_of he ha ((typed3_sca (d := d) (a := a) (b := a) (x := 0#1) (op := fun t i _ x _ l => op t i x l) h.1 h.2).trans
    (congrArg (fun f => Eff.done (scalarForm t d f)) (funext ho)))

/-! ## Masks and permutes -/

theorem setBit_get (m : Bits1024) (i j : Nat) (b : Bool) (hj : j < 1024) : (setBit m i b).getLsbD j = if i = j then b else m.getLsbD j := by
  have hb : (BitVec.ofNat 1024 (2 ^ i)).getLsbD j = decide (i = j) := by rw [BitVec.getLsbD_ofNat, Nat.testBit_two_pow]; simp [hj]
  unfold setBit
  cases b
  · simp only [Bool.false_eq_true, if_false, BitVec.getLsbD_and, BitVec.getLsbD_not, hb, hj]
    by_cases e : i = j <;> simp [e]
  · simp only [if_true, BitVec.getLsbD_or, hb]
    by_cases e : i = j <;> simp [e]

/-- The mask loop from index `i`. -/
theorem maskLoop_from (act : Nat → Bool) (p : Nat → Lanes → Bool × Lanes) :
    ∀ (n i : Nat) (m : Bits1024) (l : Lanes),
      ∃ ls : Nat → Lanes, ls i = l ∧ ls (i + n) = (maskLoop act p n i m l).2 ∧
        (∀ j, i ≤ j → j < i + n → ls (j + 1) = if act j then (p j (ls j)).2 else ls j) ∧
        (∀ j, j < 1024 →
          (maskLoop act p n i m l).1.getLsbD j = if i ≤ j ∧ j < i + n ∧ act j = true then (p j (ls j)).1 else m.getLsbD j) := by
  intro n
  induction n with
  | zero =>
    intro i m l
    refine ⟨fun _ => l, rfl, rfl, fun j h1 h2 => absurd h2 (by omega), fun j _ => ?_⟩
    rw [if_neg (by omega)]; rfl
  | succ n ih =>
    intro i m l
    by_cases ha : act i = true
    · obtain ⟨ls, h0, h1, h2, h3⟩ := ih (i + 1) (setBit m i (p i l).1) (p i l).2
      refine ⟨fun j => if j = i then l else ls j, by simp, ?_, ?_, ?_⟩
      · simp only [maskLoop, ha, if_true]
        rw [if_neg (by omega), ← Nat.add_assoc, Nat.add_right_comm]; exact h1
      · intro j hij hj
        have e' : j + 1 ≠ i := by omega
        by_cases e : j = i
        · subst e; simp [ha, h0]
        · simp only [e, e', if_false]; exact h2 j (by omega) (by omega)
      · intro j hj
        simp only [maskLoop, ha, if_true]
        rw [h3 j hj, setBit_get _ _ _ _ hj]
        by_cases e : j = i
        · subst e; simp [ha]
        · rw [if_neg (Ne.symm e), if_neg e]
          exact if_congr ⟨fun h => ⟨by omega, by omega, h.2.2⟩, fun h => ⟨by omega, by omega, h.2.2⟩⟩ rfl rfl
    · obtain ⟨ls, h0, h1, h2, h3⟩ := ih (i + 1) m l
      refine ⟨fun j => if j = i then l else ls j, by simp, ?_, ?_, ?_⟩
      · simp only [maskLoop, ha]
        rw [if_neg (by omega), ← Nat.add_assoc, Nat.add_right_comm]; exact h1
      · intro j hij hj
        have e' : j + 1 ≠ i := by omega
        by_cases e : j = i
        · subst e; simp [ha, h0]
        · simp only [e, e', if_false]; exact h2 j (by omega) (by omega)
      · intro j hj
        simp only [maskLoop, ha]
        rw [if_neg Bool.false_ne_true, h3 j hj]
        by_cases e : j = i
        · subst e; rw [if_neg (by omega), if_neg (fun h => ha h.2.2)]
        · rw [if_neg e]
          exact if_congr ⟨fun h => ⟨by omega, by omega, h.2.2⟩, fun h => ⟨by omega, by omega, h.2.2⟩⟩ rfl rfl

/-- A compare's two forms. -/
theorem cmpForm_vec {ok : Nat → Bool} {d a b : BitVec 6} {x : BitVec 1} {p : Strand → Nat → Nat → Lanes → Bool × Lanes}
    {i : Instr} {s : State} {u k : Nat} {g : Group} {t : Strand} {f : Strand → Eff Strand} (he : exec i s = runS f s)
    (ha : Acts s u k g t) (h : Ready ok t) (hf : f t = cmpForm ok d a b 0#1 x p t) :
    MaskForm i s u k t d fun j l => p t (elem t.w (t.vreg a) j) (t.opB b x j) l := by
  obtain ⟨ls, h0, h1, h2, h3⟩ := maskLoop_from t.active (fun i l => p t (elem t.w (t.vreg a) i) (t.opB b x i) l) t.el 0 (t.mask d) (lanes0 t)
  refine ⟨_, ls, h0, fun j hj => h2 j (Nat.zero_le _) (by simpa using hj), fun j hj => by rw [h3 j hj]; simp, becomes_of he ha ?_⟩
  rw [hf]
  simp only [Nat.zero_add] at h1
  simp [cmpForm, withType, withShape, h.1, h.2.1, h.2.2, h1, lanes0]

theorem cmpForm_sca {ok : Nat → Bool} {d a b : BitVec 6} {x : BitVec 1} {p : Strand → Nat → Nat → Lanes → Bool × Lanes}
    {t : Strand} (h : Typed ok t) :
    cmpForm ok d a b 1#1 x p t = .done ((t.setX d (if (p t (scaB t a) (scaB t b) (lanes0 t)).1 then 1 else 0)).flag
      (p t (scaB t a) (scaB t b) (lanes0 t)).2.flags) := by
  simp only [cmpForm, withType, h.1, h.2, scaB, lanes0]
  rfl

/-- A permuting form. -/
theorem permForm_of {ok : Nat → Bool} {d : BitVec 6} {f : Strand → Nat → Option Nat} {i : Instr} {s : State} {u k : Nat} {g : Group}
    {t : Strand} {e : Strand → Eff Strand} (he : exec i s = runS e s) (ha : Acts s u k g t) (h : Ready ok t)
    (hf : e t = permForm ok d f t) : PermForm i s u k t d (f t) := by
  obtain ⟨_, _, _, _, h3⟩ := elemLoop_loop (fun i => (f t i).isSome) (fun i l => ((f t i).getD 0, l)) (t.vreg d)
    ({ flags := 0, gens := [] } : Lanes) (el_mul h.2.2)
  refine ⟨(elemLoop t.w (fun i => (f t i).isSome) (fun i l => ((f t i).getD 0, l)) t.el 0 (t.vreg d) { flags := 0, gens := [] }).1,
    fun j hj => ?_, becomes_of he ha ?_⟩
  rotate_left
  · rw [hf]; simp only [permForm, withType, withShape, h.1, h.2.1, h.2.2]; rfl
  · rw [h3 j hj]
    by_cases hl : j < t.el
    · cases hq : f t j <;> simp [hl, hq]
    · simp [hl]

end Sys2Proof.Laws
end

