-- ==== Sys2Proof/Laws/Memory.lean ====
section
/-!
SUPPORT. Memory: reading bytes and tags after writing them, and the canonical form, which every operation on them keeps.
-/
namespace Sys2Proof.Laws

open Sys2Proof Sys2Proof.Machine

/-! ## Bytes in canonical form -/

/-- The canonical form, as an order and a property of each entry. -/
def CellsOk (cs : List Host.Cell) : Prop := cs.Pairwise (fun c d => c.1 < d.1) ∧ ∀ c ∈ cs, c.2 ≠ 0

theorem cellsWf_iff (cs : List Host.Cell) : cellsWf cs = true ↔ CellsOk cs := by
  unfold CellsOk
  induction cs with
  | nil => simp [cellsWf]
  | cons c t ih =>
    cases t with
    | nil => simp [cellsWf]
    | cons d u =>
      rw [cellsWf, Bool.and_eq_true, Bool.and_eq_true, ih, List.pairwise_cons (a := c)]
      simp only [bne_iff_ne, ne_eq, decide_eq_true_eq, List.mem_cons, forall_eq_or_imp]
      constructor
      · rintro ⟨⟨h1, h2⟩, h3, h4, h5⟩
        exact ⟨⟨⟨h2, fun e he => Nat.lt_trans h2 ((List.pairwise_cons.1 h3).1 e he)⟩, h3⟩, h1, h4, h5⟩
      · rintro ⟨⟨h1, h3⟩, h4, h5, h6⟩
        exact ⟨⟨h4, h1.1⟩, h3, h5, h6⟩

theorem cellsOk_cons {c : Host.Cell} {t : List Host.Cell} : CellsOk (c :: t) ↔ c.2 ≠ 0 ∧ (∀ d ∈ t, c.1 < d.1) ∧ CellsOk t := by
  simp only [CellsOk, List.pairwise_cons, List.mem_cons, forall_eq_or_imp]; tauto

/-- Below every listed address, and between, memory reads 0. -/
theorem cellGet_of_lt {cs : List Host.Cell} {a : Nat} (h : ∀ d ∈ cs, a < d.1) : cellGet cs a = 0 := by
  cases cs with
  | nil => rfl
  | cons c t =>
    have := h c (by simp)
    rw [cellGet, if_neg (by omega), if_pos this]

theorem cellPut_mem {cs : List Host.Cell} {a : Nat} {x : Byte} {c : Host.Cell} (h : c ∈ cellPut cs a x) : c ∈ cs ∨ c.1 = a := by
  induction cs with
  | nil => unfold cellPut at h; split at h <;> simp_all
  | cons d t ih =>
    unfold cellPut at h
    split at h
    · split at h
      · exact .inl h
      · simp only [List.mem_cons] at h ⊢
        rcases h with rfl | h | h
        · exact .inr rfl
        · exact .inl (.inl h)
        · exact .inl (.inr h)
    · split at h
      · split at h
        · exact .inl (List.mem_cons_of_mem _ h)
        · simp only [List.mem_cons] at h ⊢
          rcases h with rfl | h
          · exact .inr rfl
          · exact .inl (.inr h)
      · simp only [List.mem_cons] at h ⊢
        rcases h with h | h
        · exact .inl (.inl h)
        · rcases ih h with h | h
          · exact .inl (.inr h)
          · exact .inr h

theorem cellPut_ok {cs : List Host.Cell} (a : Nat) (x : Byte) (h : CellsOk cs) : CellsOk (cellPut cs a x) := by
  induction cs with
  | nil =>
    unfold cellPut
    split
    · exact h
    · next hx => exact cellsOk_cons.2 ⟨hx, by simp, h⟩
  | cons d t ih =>
    obtain ⟨h1, h2, h3⟩ := cellsOk_cons.1 h
    unfold cellPut
    split
    · split
      · exact h
      · next hl hx =>
        refine cellsOk_cons.2 ⟨hx, fun e he => ?_, h⟩
        rcases List.mem_cons.1 he with rfl | he
        · exact hl
        · exact Nat.lt_trans hl (h2 e he)
    · split
      · next e =>
        split
        · exact h3
        · next hx => exact cellsOk_cons.2 ⟨hx, fun q hq => by have := h2 q hq; omega, h3⟩
      · refine cellsOk_cons.2 ⟨h1, fun q hq => ?_, ih h3⟩
        rcases cellPut_mem hq with hq | hq
        · exact h2 q hq
        · omega

/-- A byte after a write of a byte. -/
theorem cellGet_cellPut {cs : List Host.Cell} (a b : Nat) (x : Byte) (h : CellsOk cs) :
    cellGet (cellPut cs a x) b = if b = a then x else cellGet cs b := by
  induction cs with
  | nil =>
    unfold cellPut
    split
    · next e => subst e; simp [cellGet]
    · by_cases e : b = a
      · simp [cellGet, e]
      · simp [cellGet, e, Ne.symm e]
  | cons d t ih =>
    obtain ⟨h1, h2, h3⟩ := cellsOk_cons.1 h
    unfold cellPut
    by_cases hl : a < d.1
    · simp only [hl, if_true]
      split
      · next e =>
        by_cases hb : b = a
        · rw [if_pos hb, cellGet_of_lt, e]
          intro q hq; rcases List.mem_cons.1 hq with rfl | hq
          · omega
          · have := h2 q hq; omega
        · rw [if_neg hb]
      · rw [cellGet]
        by_cases hb : b = a
        · simp [hb]
        · rw [if_neg (Ne.symm hb), if_neg hb]
          split
          · next hba =>
            rw [cellGet_of_lt]
            intro q hq; rcases List.mem_cons.1 hq with rfl | hq
            · omega
            · have := h2 q hq; omega
          · rfl
    · simp only [hl, if_false]
      by_cases he : a = d.1
      · simp only [he, if_true]
        split
        · next e =>
          by_cases hb : b = d.1
          · rw [if_pos hb, hb, cellGet_of_lt h2, e]
          · rw [if_neg hb, cellGet, if_neg (Ne.symm hb)]
            split
            · next hbd => rw [cellGet_of_lt]; intro q hq; have := h2 q hq; omega
            · rfl
        · rw [cellGet, cellGet]
          by_cases hb : b = d.1
          · simp [hb]
          · rw [if_neg (Ne.symm hb), if_neg hb, if_neg (Ne.symm hb)]
      · simp only [he, if_false]
        rw [cellGet, cellGet, ih h3]
        by_cases hb : b = a
        · subst hb; rw [if_neg (Ne.symm he), if_neg hl]; simp
        · simp [hb]

theorem cellsPut_ok {cs : List Host.Cell} (a : Nat) (xs : List Byte) (h : CellsOk cs) : CellsOk (cellsPut cs a xs) := by
  induction xs generalizing cs a with
  | nil => exact h
  | cons x xs ih => exact ih _ (cellPut_ok _ _ h)

/-- A byte after a write of consecutive bytes. -/
theorem cellGet_cellsPut {cs : List Host.Cell} (a b : Nat) (xs : List Byte) (h : CellsOk cs) :
    cellGet (cellsPut cs a xs) b = if a ≤ b ∧ b < a + xs.length then xs.getD (b - a) 0 else cellGet cs b := by
  induction xs generalizing cs a with
  | nil => rw [if_neg (by simp)]; rfl
  | cons x xs ih =>
    rw [cellsPut, ih _ (cellPut_ok _ _ h), cellGet_cellPut _ _ _ h]
    simp only [List.length_cons]
    by_cases h1 : a + 1 ≤ b ∧ b < a + 1 + xs.length
    · rw [if_pos h1, if_pos (by omega), show b - a = (b - (a + 1)) + 1 by omega, List.getD_cons_succ]
    · rw [if_neg h1]
      by_cases h2 : b = a
      · subst h2; rw [if_pos rfl, if_pos (by omega)]; simp
      · rw [if_neg h2, if_neg (by omega)]

theorem filter_ok {cs : List Host.Cell} (p : Host.Cell → Bool) (h : CellsOk cs) : CellsOk (cs.filter p) :=
  ⟨h.1.filter _, fun c hc => h.2 c (List.mem_filter.1 hc).1⟩
theorem cellsDrop_ok {cs : List Host.Cell} (lo hi : Nat) (h : CellsOk cs) : CellsOk (cellsDrop cs lo hi) := filter_ok _ h

/-! ## Tags -/

/-- Two layers are of different writes and share no byte. -/
def Apart (l m : Layer) : Prop := ¬ (m.key = l.key ∧ m.ver = l.ver ∧ m.sector = l.sector) ∧ m.mask &&& l.mask = 0

theorem Apart.symm {l m : Layer} (h : Apart l m) : Apart m l :=
  ⟨fun ⟨h1, h2, h3⟩ => h.1 ⟨h1.symm, h2.symm, h3.symm⟩, by rw [BitVec.and_comm]; exact h.2⟩

theorem layersWf_iff (ls : List Layer) : layersWf ls = true ↔ ls.Pairwise Apart := by
  induction ls with
  | nil => simp [layersWf]
  | cons l ls ih => simp [layersWf, ih, Apart, or_assoc, imp_iff_not_or]

/-- The layers of a tag in its canonical form. -/
def LayersOk (t : SectorTag) : Prop := t.layers ≠ [] ∧ t.layers.Pairwise Apart

theorem layersOk_iff (t : SectorTag) : (!t.layers.isEmpty && layersWf t.layers) = true ↔ LayersOk t := by
  simp [LayersOk, layersWf_iff]

def TagsOk (ts : List SectorTag) : Prop := ts.Pairwise (fun t u => t.idx < u.idx) ∧ ∀ t ∈ ts, LayersOk t

theorem tagsWf_iff (ts : List SectorTag) : tagsWf ts = true ↔ TagsOk ts := by
  unfold TagsOk
  induction ts with
  | nil => simp [tagsWf]
  | cons c t ih =>
    cases t with
    | nil => rw [tagsWf, layersOk_iff]; simp
    | cons d u =>
      rw [tagsWf, Bool.and_eq_true, Bool.and_eq_true, layersOk_iff, ih, List.pairwise_cons (a := c)]
      simp only [decide_eq_true_eq, List.mem_cons, forall_eq_or_imp]
      constructor
      · rintro ⟨⟨h1, h2⟩, h3, h4, h5⟩
        exact ⟨⟨⟨h2, fun e he => Nat.lt_trans h2 ((List.pairwise_cons.1 h3).1 e he)⟩, h3⟩, h1, h4, h5⟩
      · rintro ⟨⟨h1, h3⟩, h4, h5, h6⟩
        exact ⟨⟨h4, h1.1⟩, h3, h5, h6⟩

theorem tagsOk_cons {c : SectorTag} {t : List SectorTag} : TagsOk (c :: t) ↔ LayersOk c ∧ (∀ d ∈ t, c.idx < d.idx) ∧ TagsOk t := by
  simp only [TagsOk, List.pairwise_cons, List.mem_cons, forall_eq_or_imp]; tauto

theorem tagPut_mem {ts : List SectorTag} {n c : SectorTag} (h : c ∈ tagPut ts n) : c ∈ ts ∨ c = n := by
  induction ts with
  | nil => simp_all [tagPut]
  | cons d t ih =>
    unfold tagPut at h
    split at h
    · simp_all; tauto
    · split at h
      · simp_all; tauto
      · simp only [List.mem_cons] at h ⊢
        rcases h with h | h
        · exact .inl (.inl h)
        · rcases ih h with h | h
          · exact .inl (.inr h)
          · exact .inr h

theorem tagPut_ok {ts : List SectorTag} (n : SectorTag) (h : TagsOk ts) (hn : LayersOk n) : TagsOk (tagPut ts n) := by
  induction ts with
  | nil => exact ⟨by simp [tagPut], by simpa [tagPut] using hn⟩
  | cons d t ih =>
    obtain ⟨h1, h2, h3⟩ := tagsOk_cons.1 h
    unfold tagPut
    split
    · next hl =>
      refine tagsOk_cons.2 ⟨hn, fun e he => ?_, h⟩
      rcases List.mem_cons.1 he with rfl | he
      · exact hl
      · exact Nat.lt_trans hl (h2 e he)
    · split
      · next e => exact tagsOk_cons.2 ⟨hn, fun q hq => by have := h2 q hq; omega, h3⟩
      · refine tagsOk_cons.2 ⟨h1, fun q hq => ?_, ih h3⟩
        rcases tagPut_mem hq with hq | hq
        · exact h2 q hq
        · subst hq; omega

theorem tagGet_tagPut (ts : List SectorTag) (n : SectorTag) (i : Nat) :
    tagGet (tagPut ts n) i = if i = n.idx then some n else tagGet ts i := by
  induction ts with
  | nil =>
    by_cases e : i = n.idx
    · simp [tagPut, tagGet, e]
    · simp [tagPut, tagGet, e, Ne.symm e]
  | cons d t ih =>
    unfold tagPut
    split
    · next hl =>
      rw [tagGet]
      by_cases h : i = n.idx
      · simp [h]
      · rw [if_neg (Ne.symm h), if_neg h]
        split
        · next hi => rw [tagGet, if_neg (by omega), if_pos (by omega)]
        · rfl
    · split
      · next e =>
        rw [tagGet, tagGet]
        by_cases h : i = n.idx
        · simp [h]
        · rw [if_neg (Ne.symm h), if_neg h, if_neg (show ¬ d.idx = i by omega), e]
      · rw [tagGet, tagGet, ih]
        by_cases h : i = n.idx
        · subst h; rw [if_neg (by omega), if_neg (by omega)]; simp
        · simp [h]

theorem tagGet_mem {ts : List SectorTag} {i : Nat} {t : SectorTag} (h : tagGet ts i = some t) : t ∈ ts ∧ t.idx = i := by
  induction ts with
  | nil => simp [tagGet] at h
  | cons d u ih =>
    unfold tagGet at h
    split at h
    · next e => simp only [Option.some.injEq] at h; subst h; exact ⟨by simp, e⟩
    · split at h
      · simp at h
      · exact ⟨List.mem_cons_of_mem _ (ih h).1, (ih h).2⟩

/-- Covering bytes of a sector keeps the layers apart. -/
theorem coverTag_ok {ts : List SectorTag} (key : Option (BitVec 512)) (ver : BitVec 32) (sector idx : Nat) (new : BitVec 32) (gen : Nat) (h : TagsOk ts) :
    LayersOk (State.writeSector.coverTag ts key ver sector idx new gen) := by
  refine ⟨by simp [State.writeSector.coverTag], ?_⟩
  unfold State.writeSector.coverTag
  rcases hg : tagGet ts idx with _ | t
  · simp
  have hls := (h.2 t (tagGet_mem hg).1).2
  simp only
  refine List.pairwise_cons.2 ⟨fun m hm => ?_, ?_⟩
  · obtain ⟨l, hl, rfl⟩ := List.mem_map.1 (List.mem_filter.1 hm).1
    obtain ⟨hl, hn⟩ := List.mem_filter.1 hl
    have hn : ¬ (l.key = key ∧ l.ver = ver ∧ l.sector = sector) := by simpa [or_assoc, imp_iff_not_or] using hn
    refine ⟨hn, ?_⟩
    split
    · next o e =>
      have hne : l ≠ o := by
        have := List.find?_some e
        rintro rfl
        exact hn (by simpa [and_assoc] using this)
      have : Std.Symm Apart := ⟨fun _ _ => Apart.symm⟩
      have := (hls.forall hl (List.mem_of_find?_eq_some e) hne).2
      ext i hi
      have := congrArg (fun x => x.getLsbD i) this
      simp at this ⊢
      intro h1 h2; cases ho : o.mask[i] <;> simp_all
    · ext i hi; simp
  · refine (List.Pairwise.filter _ ?_)
    rw [List.pairwise_map]
    refine (hls.filter _).imp fun {a b} hab => ⟨hab.1, ?_⟩
    ext i hi
    have := congrArg (fun x => x.getLsbD i) hab.2
    simp at this ⊢
    intro h1 h2 h3; simp_all

/-! ## Memory -/

theorem wf_iff (m : Memory) : m.wf = true ↔ CellsOk m.cells ∧ CellsOk m.host ∧ TagsOk m.tags := by
  rw [Memory.wf, Bool.and_eq_true, Bool.and_eq_true, cellsWf_iff, cellsWf_iff, tagsWf_iff, and_assoc]

theorem reset_wf : State.reset.mem.wf = true := by
  rfl

/-- DRAM is keyed by its physical address. -/
theorem homeOf_dram (s : State) {pa : Nat} (h : pa < 2 ^ 40) : s.homeOf pa = pa := by
  simp only [State.homeOf, regionOf, if_pos h]

theorem writeSector_wf {s : State} (key : BitVec 512) (ver : BitVec 32) (pa : Nat) (xs : List Byte) (h : s.mem.wf = true) :
    (s.writeSector key ver pa xs).mem.wf = true := by
  rw [wf_iff] at *
  obtain ⟨h1, h2, h3⟩ := h
  unfold State.writeSector
  split
  · exact ⟨cellsPut_ok _ _ h1, h2, h3⟩
  · exact ⟨cellsPut_ok _ _ h1, h2, tagPut_ok _ h3 (coverTag_ok _ _ _ _ _ _ h3)⟩

theorem writeBytesF_wf (key : BitVec 512) (ver : BitVec 32) (fuel : Nat) :
    ∀ {s : State} (pa : Nat) (xs : List Byte), s.mem.wf = true → (s.writeBytesF key ver pa xs fuel).mem.wf = true := by
  induction fuel with
  | zero => intro s pa xs h; exact h
  | succ n ih =>
    intro s pa xs h
    unfold State.writeBytesF
    split
    · exact h
    · exact ih _ _ (writeSector_wf _ _ _ _ h)

theorem writeBytes_wf {s : State} (key : BitVec 512) (ver : BitVec 32) (pa : Nat) (xs : List Byte) (h : s.mem.wf = true) :
    (s.writeBytes key ver pa xs).mem.wf = true := writeBytesF_wf _ _ _ _ _ h

theorem sysWrite_wf {s : State} (pa : Nat) (xs : List Byte) (h : s.mem.wf = true) : (s.sysWrite pa xs).mem.wf = true := by
  unfold State.sysWrite
  split
  · rw [wf_iff] at *; exact ⟨h.1, cellsPut_ok _ _ h.2.1, h.2.2⟩
  · exact writeBytes_wf _ _ _ _ h

theorem scramble_wf (n : Nat) : ∀ {s : State} (pa : Nat), s.mem.wf = true → (s.scramble pa n).mem.wf = true := by
  induction n with
  | zero => intro s pa h; exact h
  | succ n ih =>
    intro s pa h
    unfold State.scramble
    apply ih
    rw [wf_iff] at *
    exact ⟨cellsDrop_ok _ _ h.1, h.2.1, tagPut_ok _ h.2.2 (by simp [LayersOk])⟩

end Sys2Proof.Laws
end

