-- ==== Sys2Proof/Laws/Ops.lean ====
section
/-!
SUPPORT. What each shared operation can do, said once: byte writes, rings, translation, trap entry, the end of an instruction. A later proof
cites these and unfolds none of the operations.
-/
namespace Sys2Proof.Laws

open Sys2Proof Sys2Proof.Machine

/-! ## What an operation reaches -/

/-- `s'` differs from `s` in memory, the row sets and the counter of free values alone. -/
def MemOnly (s s' : State) : Prop := s' = { s with mem := s'.mem, rows := { s.rows with sets := s'.rows.sets }, fresh := s'.fresh }
/-- A context apart from its counters of the last-level caches (R338). -/
def uncounted (c : Context) : Context := { c with llhit := [], llmiss := [] }
/-- `s'` differs from `s` in those, in the caches, in the banks that are still busy, and in the counters of the last-level caches alone. -/
structure WalkOnly (s s' : State) : Prop where
  rest : s' = { s with
    mem := s'.mem, fresh := s'.fresh, llc := s'.llc, l2 := s'.l2, contexts := s'.contexts,
    rows := { s.rows with sets := s'.rows.sets, tails := s'.rows.tails },
    mmu := { s.mmu with tlb := s'.mmu.tlb, walk := s'.mmu.walk } }
  contexts : s'.contexts.map uncounted = s.contexts.map uncounted

theorem MemOnly.refl (s : State) : MemOnly s s := rfl
theorem WalkOnly.refl (s : State) : WalkOnly s s := ⟨rfl, rfl⟩
theorem MemOnly.trans {s s1 s2 : State} (h : MemOnly s s1) (g : MemOnly s1 s2) : MemOnly s s2 := by
  unfold MemOnly at *
  rw [g, h]
theorem WalkOnly.trans {s s1 s2 : State} (h : WalkOnly s s1) (g : WalkOnly s1 s2) : WalkOnly s s2 :=
  ⟨by rw [g.rest, h.rest], g.contexts.trans h.contexts⟩
theorem MemOnly.walkOnly {s s' : State} (h : MemOnly s s') : WalkOnly s s' := by
  unfold MemOnly at h
  exact ⟨by rw [h], by rw [h]⟩

/-! ## Bytes and rings -/

/-- A write within a sector reaches memory, the marks of row sets and the counter alone (R156, R375). -/
theorem writeSector_memOnly (s : State) (key : BitVec 512) (ver : BitVec 32) (pa : Nat) (xs : List Byte) : MemOnly s (s.writeSector key ver pa xs) := by
  unfold State.writeSector
  split <;> rfl
theorem writeBytesF_memOnly (key : BitVec 512) (ver : BitVec 32) (n : Nat) :
    ∀ (s : State) (pa : Nat) (xs : List Byte), MemOnly s (s.writeBytesF key ver pa xs n) := by
  induction n with
  | zero => exact fun s _ _ => MemOnly.refl s
  | succ n ih =>
    intro s pa xs
    unfold State.writeBytesF
    split
    · exact MemOnly.refl s
    · exact (writeSector_memOnly s key ver pa _).trans (ih _ _ _)
/-- So does a write of any number of bytes. -/
theorem writeBytes_memOnly (s : State) (key : BitVec 512) (ver : BitVec 32) (pa : Nat) (xs : List Byte) : MemOnly s (s.writeBytes key ver pa xs) :=
  writeBytesF_memOnly key ver _ s pa xs
theorem sysWrite_memOnly (s : State) (pa : Nat) (xs : List Byte) : MemOnly s (s.sysWrite pa xs) := by
  unfold State.sysWrite
  split
  · rfl
  · exact writeBytes_memOnly ..
theorem setPte_memOnly (s : State) (c addr : Nat) (e : Word) : MemOnly s (s.setPte c addr e) := writeBytes_memOnly ..
theorem scramble_memOnly (n : Nat) : ∀ (s : State) (pa : Nat), MemOnly s (s.scramble pa n) := by
  induction n with
  | zero => exact fun s _ => MemOnly.refl s
  | succ n ih =>
    intro s pa
    unfold State.scramble
    exact MemOnly.trans (s1 := { s with fresh := _, mem := _ }) rfl (ih _ _)
theorem flushRing_memOnly (n : Nat) : ∀ (s : State) (r : Ring), MemOnly s (s.flushRing r n).1 := by
  induction n with
  | zero => exact fun s _ => MemOnly.refl s
  | succ n ih =>
    intro s r
    unfold State.flushRing
    split
    · exact MemOnly.refl s
    · split
      · exact (sysWrite_memOnly s _ _).trans (ih _ _)
      · exact MemOnly.refl s
theorem flushRing_wf (n : Nat) : ∀ {s : State} (r : Ring), s.mem.wf = true → (s.flushRing r n).1.mem.wf = true := by
  induction n with
  | zero => exact fun _ h => h
  | succ n ih =>
    intro s r h
    unfold State.flushRing
    split
    · exact h
    · split
      · exact ih _ (sysWrite_wf _ _ h)
      · exact h
/-- Posting to a port's ring reaches memory, row sets, the counter and that ring alone (R439). -/
theorem postTo_frame (s : State) (p : Nat) (rec : List Word) :
    ∃ (s1 : State) (r : Ring), MemOnly s s1 ∧ (s.postTo p rec = s ∨ s.postTo p rec = s1.modWindow p fun w => { w with ring := r }) := by
  unfold State.postTo
  dsimp only
  split
  · exact ⟨s, Ring.reset, MemOnly.refl s, .inl rfl⟩
  · exact ⟨_, _, flushRing_memOnly _ _ _, .inr rfl⟩
theorem postTo_wf {s : State} (p : Nat) (rec : List Word) (h : s.mem.wf = true) : (s.postTo p rec).mem.wf = true := by
  unfold State.postTo
  dsimp only
  split
  · exact h
  · exact flushRing_wf _ _ h
/-- Posting to the owner does that to the owner's ring, or keeps the record while there is no owner. -/
theorem postOwner_cases (s : State) (rec : List Word) :
    (s.plat.owner.toNat < 8 ∧ s.postOwner rec = s.postTo s.plat.owner.toNat rec) ∨
    (8 ≤ s.plat.owner.toNat ∧ s.postOwner rec = { s with plat := { s.plat with heldEvents := s.plat.heldEvents ++ [rec] } }) := by
  unfold State.postOwner
  split
  · exact .inl ⟨by assumption, rfl⟩
  · exact .inr ⟨by omega, rfl⟩
theorem postOwner_wf {s : State} (rec : List Word) (h : s.mem.wf = true) : (s.postOwner rec).mem.wf = true := by
  rcases postOwner_cases s rec with ⟨-, e⟩ | ⟨-, e⟩ <;> rw [e]
  · exact postTo_wf _ _ h
  · exact h
/-- Posting to the page service reaches memory, row sets, the counter and its ring alone (R369). -/
theorem postPage_frame (s : State) (rec : List Word) : ∃ (s1 : State) (r : Ring), MemOnly s s1 ∧ s.postPage rec = { s1 with mmu := { s1.mmu with ring := r } } :=
  ⟨_, _, flushRing_memOnly _ _ _, rfl⟩
theorem postPage_wf {s : State} (rec : List Word) (h : s.mem.wf = true) : (s.postPage rec).mem.wf = true := flushRing_wf _ _ h

/-! ## Translation -/

theorem cacheLine_walkOnly (s : State) (w : CacheWay) (cid : Nat) (ver : BitVec 32) (line : Nat) : WalkOnly s (s.cacheLine w cid ver line) := by
  refine ⟨rfl, List.ext_getElem? fun i => ?_⟩
  simp only [State.cacheLine, List.getElem?_map, modAt_get]
  split <;> cases s.contexts[i]? <;> rfl
theorem cacheLines_walkOnly (w : CacheWay) (cid : Nat) (ver : BitVec 32) (n : Nat) :
    ∀ (s : State) (line : Nat), WalkOnly s (s.cacheLines w cid ver line n) := by
  induction n with
  | zero => exact fun s _ => WalkOnly.refl s
  | succ n ih => exact fun s _ => (cacheLine_walkOnly s ..).trans (ih _ _)
/-- An access to the caches reaches them, the banks that are still busy, the counter and the context's counters alone (R142). -/
theorem cacheSpan_walkOnly (s : State) (w : CacheWay) (cid : Nat) (ver : BitVec 32) (pa n : Nat) : WalkOnly s (s.cacheSpan w cid ver pa n) := by
  unfold State.cacheSpan
  split
  · exact WalkOnly.refl s
  · split
    · exact WalkOnly.refl s
    · exact cacheLines_walkOnly ..
theorem setTlb_walkOnly (s : State) (ts : List TlbEntry) : WalkOnly s (s.setTlb ts) := ⟨rfl, rfl⟩
theorem tlbPut_walkOnly (s : State) (e : TlbEntry) : WalkOnly s (s.tlbPut e) := ⟨rfl, rfl⟩
theorem invalPage_walkOnly (s : State) (c va : Nat) (p : Nat → Bool) : WalkOnly s (s.invalPage c va p) := ⟨rfl, rfl⟩
theorem invalAll_walkOnly (s : State) (c : Nat) : WalkOnly s (s.invalAll c) := ⟨rfl, rfl⟩
theorem dropPage_walkOnly (s : State) (c va die : Nat) : WalkOnly s (s.dropPage c va die) := invalPage_walkOnly ..
theorem tick_walkOnly (s : State) : WalkOnly s s.tick := ⟨rfl, rfl⟩
theorem walkPut_walkOnly (s : State) (die cid va : Nat) (path : List (Nat × Word)) : WalkOnly s (s.walkPut die cid va path) := ⟨rfl, rfl⟩
theorem walkTouch_walkOnly (p : Party) (cid : Nat) (reads : List Nat) : ∀ s : State, WalkOnly s (s.walkTouch p cid reads) := by
  induction reads with
  | nil => exact fun s => WalkOnly.refl s
  | cons a as ih => exact fun s => (cacheSpan_walkOnly s ..).trans (ih _)
theorem tlbFill_walkOnly (s : State) (p : Party) (e : TlbEntry) : WalkOnly s (s.tlbFill p e) := by
  cases p
  · exact (tlbPut_walkOnly _ _).trans (tlbPut_walkOnly _ _)
  · exact tlbPut_walkOnly _ _
theorem markLeaf_walkOnly (s : State) (p : Party) (cid addr : Nat) (e e1 : Word) : WalkOnly s (s.markLeaf p cid addr e e1) := by
  unfold State.markLeaf
  split
  · exact WalkOnly.refl s
  · exact (cacheSpan_walkOnly s ..).trans (setPte_memOnly ..).walkOnly
theorem useWalk_walkOnly (s : State) (p : Party) (cid va : Nat) (kind : Acc) (e : Word) (lv addr : Nat) :
    WalkOnly s (s.useWalk p cid va kind e lv addr).2 := by
  unfold State.useWalk
  split
  · exact WalkOnly.refl s
  · split
    · exact (markLeaf_walkOnly ..).trans (tlbFill_walkOnly ..)
    · exact WalkOnly.refl s
theorem translateWalk_walkOnly (s : State) (p : Party) (cid va : Nat) (kind : Acc) : WalkOnly s (s.translateWalk p cid va kind).2 := by
  unfold State.translateWalk
  have h (reads : List Nat) (path : List (Nat × Word)) : WalkOnly s ((s.tick.walkTouch p cid reads).walkPut p.dieOf cid va path) :=
    ((tick_walkOnly s).trans (walkTouch_walkOnly ..)).trans (walkPut_walkOnly ..)
  dsimp only
  split <;> first | exact (h _ _).trans (useWalk_walkOnly ..) | exact h _ _
/-- A translation reaches memory (A and D), the caches and what counts their use alone, unless the context's tables are in error (R355, R359). -/
theorem translate_walkOnly {s : State} {p : Party} {cid : Nat} {va : Word} {kind : Acc} (h : ∀ r d pa, (s.translate p cid va kind).1 ≠ .dead r d pa) :
    WalkOnly s (s.translate p cid va kind).2 := by
  have z : WalkOnly s s.tick := tick_walkOnly s
  revert h
  simp only [State.translate]
  generalize hr : (if BitVec.extractLsb' 57 7 va ≠ 0#7 then (Xlat.trap 0x08 0, s.tick) else _ : Xlat × State) = q
  have hp : WalkOnly s q.2 := by
    rw [← hr]
    split
    · exact z
    · split
      · exact z.trans (translateWalk_walkOnly ..)
      · split
        · split
          · exact z
          · split
            · exact z.trans ((markLeaf_walkOnly ..).trans (tlbFill_walkOnly _ _ _))
            · exact z.trans (translateWalk_walkOnly ..)
        · exact z
  intro h
  match q, hp, h with
  | (.served c, s1), hp, _ => exact hp.trans (dropPage_walkOnly s1 cid va.toNat p.dieOf)
  | (.dead r d pa, s1), _, h => exact absurd rfl (h r d pa)
  | (.ok pa, s1), hp, _ => exact hp
  | (.trap c d, s1), hp, _ => exact hp

/-! ## Traps and the end of an instruction -/

/-- What taking a trap can do: nothing where there is no such strand, the fatal trap of R332, or the entry of R331. -/
theorem takeTrap_cases (s : State) (u k : Nat) (c : Trap) (resume : Word) :
    (s.strand? u k = none ∧ s.takeTrap u k c resume = s) ∨
    (∃ t, s.strand? u k = some t ∧ t.fatal = true ∧ s.takeTrap u k c resume = s.fatalTrap u k c) ∨
    ∃ t, s.strand? u k = some t ∧ t.fatal = false ∧ s.takeTrap u k c resume = s.modStrand u k fun t => t.enter c resume := by
  unfold State.takeTrap
  split
  · exact .inl ⟨by assumption, rfl⟩
  · next t h =>
    cases e : t.fatal
    · exact .inr (.inr ⟨t, h, e, by simp⟩)
    · exact .inr (.inl ⟨t, h, e, by simp⟩)
/-- An abort of a kernel leaves memory, translation, rows, links, platform, windows, contexts and queues. -/
theorem abortKernel_frame (s : State) (u : Nat) (c : Byte) :
    s.abortKernel u c = { s with kernels := (s.abortKernel u c).kernels, groups := (s.abortKernel u c).groups, ops := (s.abortKernel u c).ops, arc := (s.abortKernel u c).arc } := by
  unfold State.abortKernel
  split
  · rfl
  · split <;> rfl
theorem abortKernel_mem (s : State) (u : Nat) (c : Byte) : (s.abortKernel u c).mem = s.mem := by rw [abortKernel_frame]
theorem fatalTrap_wf {s : State} (u k : Nat) (c : Trap) (h : s.mem.wf = true) : (s.fatalTrap u k c).mem.wf = true := by
  unfold State.fatalTrap
  split
  · exact h
  · rw [abortKernel_mem]
    exact postOwner_wf _ h
theorem takeTrap_wf {s : State} (u k : Nat) (c : Trap) (resume : Word) (h : s.mem.wf = true) : (s.takeTrap u k c resume).mem.wf = true := by
  rcases takeTrap_cases s u k c resume with ⟨-, e⟩ | ⟨t, -, -, e⟩ | ⟨t, -, -, e⟩ <;> rw [e]
  · exact h
  · exact fatalTrap_wf _ _ _ h
  · exact h
/-- The strand instructions answer a next state wherever a strand acts, and only there. -/
theorem runM_cases {f : Nat → Nat → Group → Strand → State → Eff State} {s s' : State} (h : runM f s = .next s') :
    ∃ u k g t, s.cur? = some (u, k, g, t) ∧ s' = State.finish u k t.pc 4 (f u k g t s) := by
  unfold runM at h
  split at h
  · exact absurd h (by simp)
  · next u k g t e => exact ⟨u, k, g, t, e, by injection h with h; exact h.symm⟩
/-- The end of an instruction keeps memory's canonical form where its effect does. -/
theorem finish_wf {u k : Nat} {pc len : Word} {e : Eff State}
    (h : match e with
      | .done s | .jump s _ | .settled s | .trap s _ | .trapNext s _ => s.mem.wf = true) : (State.finish u k pc len e).mem.wf = true := by
  cases e <;> simp only [State.finish] <;> first | exact h | exact takeTrap_wf _ _ _ _ h

end Sys2Proof.Laws
end

