-- ==== Sys2Proof/Laws/PerInstr.lean ====
section
/-!
SUPPORT. The family Encoding: for every constructor, decoding the word that `encode` gives a well-formed instruction gives it back
(R184 to R204). A host command and a device event have no word.
-/
namespace Sys2Proof.Laws.Encoding

open Sys2Proof

/-- A well-formed instruction is what its word decodes to, by the decoder of its kind. -/
def Statement (i : Instr) : Prop :=
  i.wellFormed = true → (i.isMicro = true → decodeMicro (encode i) = some i) ∧ (i.isStrand = true → decode (encode i) = .ok i)

theorem fld_eq {n : Nat} (w : BitVec 32) (lo : Nat) (x : BitVec n) (h : w.toNat / 2 ^ lo % 2 ^ n = x.toNat) : fld w lo n = x := by
  apply BitVec.eq_of_toNat_eq; simp [fld, BitVec.extractLsb'_toNat, Nat.shiftRight_eq_div_pow, h]

theorem word_toNat (n : Nat) (h : n < 2 ^ 32) : (word n).toNat = n := by
  rw [word, BitVec.toNat_ofNat, Nat.mod_eq_of_lt h]

theorem wf_func {i : Instr} (h : i.wellFormed = true) : i.funcOk = true := by
  simp only [Instr.wellFormed, Bool.and_eq_true] at h; exact h.1.1.2

theorem form_ok (i : Instr) (b : Bool) (h : i.wellFormed = true) (hb : b = true) : form i b = .ok i := by
  simp only [Instr.wellFormed, Bool.and_eq_true] at h
  simp [form, hb, h.1.1.1.2, h.1.1.1.1]

theorem micro_ok (i : Instr) (b : Bool) (h : i.wellFormed = true) (hb : b = true) : micro i b = some i := by
  simp only [Instr.wellFormed, Bool.and_eq_true] at h
  simp [micro, hb, h.1.2]

theorem strand_of {i : Instr} (n : Nat) (he : encode i = word n) (hn : n < 2 ^ 32) (hm : i.isMicro = false)
    (h : ∀ w : BitVec 32, w.toNat = n → i.wellFormed = true → decodeForm w = .ok i) : Statement i := fun hw =>
  ⟨fun e => (by rw [hm] at e; cases e), fun _ => (by rw [he]; exact h _ (word_toNat n hn) hw)⟩

theorem micro_of {i : Instr} (n : Nat) (he : encode i = word n) (hn : n < 2 ^ 32) (hm : i.isMicro = true)
    (h : ∀ w : BitVec 32, w.toNat = n → i.wellFormed = true → decodeMicroForm w = some i) : Statement i := fun hw =>
  ⟨fun _ => (by rw [he]; exact h _ (word_toNat n hn) hw), fun e => (by simp [Instr.isStrand, hm] at e)⟩

theorem no_word {i : Instr} (hm : i.isMicro = false) (he : encode i = 0#32) : Statement i := fun _ =>
  ⟨fun e => (by rw [hm] at e; cases e), fun e => (by simp [Instr.isStrand, he] at e)⟩

theorem add (d : BitVec 6) (a : BitVec 6) (b : BitVec 6) (s : BitVec 1) (x : BitVec 1) : Statement (.add d a b s x) :=
  strand_of (67108864 + d.toNat * 1048576 + a.toNat * 16384 + b.toNat * 256 + s.toNat * 128 + x.toNat * 64) rfl (by omega) rfl fun wd hw hwf => by
  have h0 : fld wd 26 6 = 1#6 := fld_eq wd 26 _ (by rw [hw]; show _ / 67108864 % 64 = 1; omega)
  have h1 : fld wd 0 6 = 0#6 := fld_eq wd 0 _ (by rw [hw]; show _ / 1 % 64 = 0; omega)
  have h2 : fld wd 20 6 = d := fld_eq wd 20 _ (by rw [hw]; show _ / 1048576 % 64 = _; omega)
  have h3 : fld wd 14 6 = a := fld_eq wd 14 _ (by rw [hw]; show _ / 16384 % 64 = _; omega)
  have h4 : fld wd 8 6 = b := fld_eq wd 8 _ (by rw [hw]; show _ / 256 % 64 = _; omega)
  have h5 : fld wd 7 1 = s := fld_eq wd 7 _ (by rw [hw]; show _ / 128 % 2 = _; omega)
  have h6 : fld wd 6 1 = x := fld_eq wd 6 _ (by rw [hw]; show _ / 64 % 2 = _; omega)
  unfold decodeForm; rw [h0]
  show decodeIarith wd = _
  unfold decodeIarith; rw [h1]
  show form (.add (fld wd 20 6) (fld wd 14 6) (fld wd 8 6) (fld wd 7 1) (fld wd 6 1)) (true) = _
  simp only [h2, h3, h4, h5, h6]
  exact form_ok _ _ hwf rfl
theorem sub (d : BitVec 6) (a : BitVec 6) (b : BitVec 6) (s : BitVec 1) (x : BitVec 1) : Statement (.sub d a b s x) :=
  strand_of (67108865 + d.toNat * 1048576 + a.toNat * 16384 + b.toNat * 256 + s.toNat * 128 + x.toNat * 64) rfl (by omega) rfl fun wd hw hwf => by
  have h0 : fld wd 26 6 = 1#6 := fld_eq wd 26 _ (by rw [hw]; show _ / 67108864 % 64 = 1; omega)
  have h1 : fld wd 0 6 = 1#6 := fld_eq wd 0 _ (by rw [hw]; show _ / 1 % 64 = 1; omega)
  have h2 : fld wd 20 6 = d := fld_eq wd 20 _ (by rw [hw]; show _ / 1048576 % 64 = _; omega)
  have h3 : fld wd 14 6 = a := fld_eq wd 14 _ (by rw [hw]; show _ / 16384 % 64 = _; omega)
  have h4 : fld wd 8 6 = b := fld_eq wd 8 _ (by rw [hw]; show _ / 256 % 64 = _; omega)
  have h5 : fld wd 7 1 = s := fld_eq wd 7 _ (by rw [hw]; show _ / 128 % 2 = _; omega)
  have h6 : fld wd 6 1 = x := fld_eq wd 6 _ (by rw [hw]; show _ / 64 % 2 = _; omega)
  unfold decodeForm; rw [h0]
  show decodeIarith wd = _
  unfold decodeIarith; rw [h1]
  show form (.sub (fld wd 20 6) (fld wd 14 6) (fld wd 8 6) (fld wd 7 1) (fld wd 6 1)) (true) = _
  simp only [h2, h3, h4, h5, h6]
  exact form_ok _ _ hwf rfl
theorem mul (d : BitVec 6) (a : BitVec 6) (b : BitVec 6) (s : BitVec 1) (x : BitVec 1) : Statement (.mul d a b s x) :=
  strand_of (67108866 + d.toNat * 1048576 + a.toNat * 16384 + b.toNat * 256 + s.toNat * 128 + x.toNat * 64) rfl (by omega) rfl fun wd hw hwf => by
  have h0 : fld wd 26 6 = 1#6 := fld_eq wd 26 _ (by rw [hw]; show _ / 67108864 % 64 = 1; omega)
  have h1 : fld wd 0 6 = 2#6 := fld_eq wd 0 _ (by rw [hw]; show _ / 1 % 64 = 2; omega)
  have h2 : fld wd 20 6 = d := fld_eq wd 20 _ (by rw [hw]; show _ / 1048576 % 64 = _; omega)
  have h3 : fld wd 14 6 = a := fld_eq wd 14 _ (by rw [hw]; show _ / 16384 % 64 = _; omega)
  have h4 : fld wd 8 6 = b := fld_eq wd 8 _ (by rw [hw]; show _ / 256 % 64 = _; omega)
  have h5 : fld wd 7 1 = s := fld_eq wd 7 _ (by rw [hw]; show _ / 128 % 2 = _; omega)
  have h6 : fld wd 6 1 = x := fld_eq wd 6 _ (by rw [hw]; show _ / 64 % 2 = _; omega)
  unfold decodeForm; rw [h0]
  show decodeIarith wd = _
  unfold decodeIarith; rw [h1]
  show form (.mul (fld wd 20 6) (fld wd 14 6) (fld wd 8 6) (fld wd 7 1) (fld wd 6 1)) (true) = _
  simp only [h2, h3, h4, h5, h6]
  exact form_ok _ _ hwf rfl
theorem mulh (d : BitVec 6) (a : BitVec 6) (b : BitVec 6) (s : BitVec 1) (x : BitVec 1) : Statement (.mulh d a b s x) :=
  strand_of (67108867 + d.toNat * 1048576 + a.toNat * 16384 + b.toNat * 256 + s.toNat * 128 + x.toNat * 64) rfl (by omega) rfl fun wd hw hwf => by
  have h0 : fld wd 26 6 = 1#6 := fld_eq wd 26 _ (by rw [hw]; show _ / 67108864 % 64 = 1; omega)
  have h1 : fld wd 0 6 = 3#6 := fld_eq wd 0 _ (by rw [hw]; show _ / 1 % 64 = 3; omega)
  have h2 : fld wd 20 6 = d := fld_eq wd 20 _ (by rw [hw]; show _ / 1048576 % 64 = _; omega)
  have h3 : fld wd 14 6 = a := fld_eq wd 14 _ (by rw [hw]; show _ / 16384 % 64 = _; omega)
  have h4 : fld wd 8 6 = b := fld_eq wd 8 _ (by rw [hw]; show _ / 256 % 64 = _; omega)
  have h5 : fld wd 7 1 = s := fld_eq wd 7 _ (by rw [hw]; show _ / 128 % 2 = _; omega)
  have h6 : fld wd 6 1 = x := fld_eq wd 6 _ (by rw [hw]; show _ / 64 % 2 = _; omega)
  unfold decodeForm; rw [h0]
  show decodeIarith wd = _
  unfold decodeIarith; rw [h1]
  show form (.mulh (fld wd 20 6) (fld wd 14 6) (fld wd 8 6) (fld wd 7 1) (fld wd 6 1)) (true) = _
  simp only [h2, h3, h4, h5, h6]
  exact form_ok _ _ hwf rfl
theorem div (d : BitVec 6) (a : BitVec 6) (b : BitVec 6) (s : BitVec 1) (x : BitVec 1) : Statement (.div d a b s x) :=
  strand_of (67108868 + d.toNat * 1048576 + a.toNat * 16384 + b.toNat * 256 + s.toNat * 128 + x.toNat * 64) rfl (by omega) rfl fun wd hw hwf => by
  have h0 : fld wd 26 6 = 1#6 := fld_eq wd 26 _ (by rw [hw]; show _ / 67108864 % 64 = 1; omega)
  have h1 : fld wd 0 6 = 4#6 := fld_eq wd 0 _ (by rw [hw]; show _ / 1 % 64 = 4; omega)
  have h2 : fld wd 20 6 = d := fld_eq wd 20 _ (by rw [hw]; show _ / 1048576 % 64 = _; omega)
  have h3 : fld wd 14 6 = a := fld_eq wd 14 _ (by rw [hw]; show _ / 16384 % 64 = _; omega)
  have h4 : fld wd 8 6 = b := fld_eq wd 8 _ (by rw [hw]; show _ / 256 % 64 = _; omega)
  have h5 : fld wd 7 1 = s := fld_eq wd 7 _ (by rw [hw]; show _ / 128 % 2 = _; omega)
  have h6 : fld wd 6 1 = x := fld_eq wd 6 _ (by rw [hw]; show _ / 64 % 2 = _; omega)
  unfold decodeForm; rw [h0]
  show decodeIarith wd = _
  unfold decodeIarith; rw [h1]
  show form (.div (fld wd 20 6) (fld wd 14 6) (fld wd 8 6) (fld wd 7 1) (fld wd 6 1)) (true) = _
  simp only [h2, h3, h4, h5, h6]
  exact form_ok _ _ hwf rfl
theorem rem (d : BitVec 6) (a : BitVec 6) (b : BitVec 6) (s : BitVec 1) (x : BitVec 1) : Statement (.rem d a b s x) :=
  strand_of (67108869 + d.toNat * 1048576 + a.toNat * 16384 + b.toNat * 256 + s.toNat * 128 + x.toNat * 64) rfl (by omega) rfl fun wd hw hwf => by
  have h0 : fld wd 26 6 = 1#6 := fld_eq wd 26 _ (by rw [hw]; show _ / 67108864 % 64 = 1; omega)
  have h1 : fld wd 0 6 = 5#6 := fld_eq wd 0 _ (by rw [hw]; show _ / 1 % 64 = 5; omega)
  have h2 : fld wd 20 6 = d := fld_eq wd 20 _ (by rw [hw]; show _ / 1048576 % 64 = _; omega)
  have h3 : fld wd 14 6 = a := fld_eq wd 14 _ (by rw [hw]; show _ / 16384 % 64 = _; omega)
  have h4 : fld wd 8 6 = b := fld_eq wd 8 _ (by rw [hw]; show _ / 256 % 64 = _; omega)
  have h5 : fld wd 7 1 = s := fld_eq wd 7 _ (by rw [hw]; show _ / 128 % 2 = _; omega)
  have h6 : fld wd 6 1 = x := fld_eq wd 6 _ (by rw [hw]; show _ / 64 % 2 = _; omega)
  unfold decodeForm; rw [h0]
  show decodeIarith wd = _
  unfold decodeIarith; rw [h1]
  show form (.rem (fld wd 20 6) (fld wd 14 6) (fld wd 8 6) (fld wd 7 1) (fld wd 6 1)) (true) = _
  simp only [h2, h3, h4, h5, h6]
  exact form_ok _ _ hwf rfl
theorem min (d : BitVec 6) (a : BitVec 6) (b : BitVec 6) (s : BitVec 1) (x : BitVec 1) : Statement (.min d a b s x) :=
  strand_of (67108870 + d.toNat * 1048576 + a.toNat * 16384 + b.toNat * 256 + s.toNat * 128 + x.toNat * 64) rfl (by omega) rfl fun wd hw hwf => by
  have h0 : fld wd 26 6 = 1#6 := fld_eq wd 26 _ (by rw [hw]; show _ / 67108864 % 64 = 1; omega)
  have h1 : fld wd 0 6 = 6#6 := fld_eq wd 0 _ (by rw [hw]; show _ / 1 % 64 = 6; omega)
  have h2 : fld wd 20 6 = d := fld_eq wd 20 _ (by rw [hw]; show _ / 1048576 % 64 = _; omega)
  have h3 : fld wd 14 6 = a := fld_eq wd 14 _ (by rw [hw]; show _ / 16384 % 64 = _; omega)
  have h4 : fld wd 8 6 = b := fld_eq wd 8 _ (by rw [hw]; show _ / 256 % 64 = _; omega)
  have h5 : fld wd 7 1 = s := fld_eq wd 7 _ (by rw [hw]; show _ / 128 % 2 = _; omega)
  have h6 : fld wd 6 1 = x := fld_eq wd 6 _ (by rw [hw]; show _ / 64 % 2 = _; omega)
  unfold decodeForm; rw [h0]
  show decodeIarith wd = _
  unfold decodeIarith; rw [h1]
  show form (.min (fld wd 20 6) (fld wd 14 6) (fld wd 8 6) (fld wd 7 1) (fld wd 6 1)) (true) = _
  simp only [h2, h3, h4, h5, h6]
  exact form_ok _ _ hwf rfl
theorem max (d : BitVec 6) (a : BitVec 6) (b : BitVec 6) (s : BitVec 1) (x : BitVec 1) : Statement (.max d a b s x) :=
  strand_of (67108871 + d.toNat * 1048576 + a.toNat * 16384 + b.toNat * 256 + s.toNat * 128 + x.toNat * 64) rfl (by omega) rfl fun wd hw hwf => by
  have h0 : fld wd 26 6 = 1#6 := fld_eq wd 26 _ (by rw [hw]; show _ / 67108864 % 64 = 1; omega)
  have h1 : fld wd 0 6 = 7#6 := fld_eq wd 0 _ (by rw [hw]; show _ / 1 % 64 = 7; omega)
  have h2 : fld wd 20 6 = d := fld_eq wd 20 _ (by rw [hw]; show _ / 1048576 % 64 = _; omega)
  have h3 : fld wd 14 6 = a := fld_eq wd 14 _ (by rw [hw]; show _ / 16384 % 64 = _; omega)
  have h4 : fld wd 8 6 = b := fld_eq wd 8 _ (by rw [hw]; show _ / 256 % 64 = _; omega)
  have h5 : fld wd 7 1 = s := fld_eq wd 7 _ (by rw [hw]; show _ / 128 % 2 = _; omega)
  have h6 : fld wd 6 1 = x := fld_eq wd 6 _ (by rw [hw]; show _ / 64 % 2 = _; omega)
  unfold decodeForm; rw [h0]
  show decodeIarith wd = _
  unfold decodeIarith; rw [h1]
  show form (.max (fld wd 20 6) (fld wd 14 6) (fld wd 8 6) (fld wd 7 1) (fld wd 6 1)) (true) = _
  simp only [h2, h3, h4, h5, h6]
  exact form_ok _ _ hwf rfl
theorem mac (d : BitVec 6) (a : BitVec 6) (b : BitVec 6) (s : BitVec 1) (x : BitVec 1) : Statement (.mac d a b s x) :=
  strand_of (67108872 + d.toNat * 1048576 + a.toNat * 16384 + b.toNat * 256 + s.toNat * 128 + x.toNat * 64) rfl (by omega) rfl fun wd hw hwf => by
  have h0 : fld wd 26 6 = 1#6 := fld_eq wd 26 _ (by rw [hw]; show _ / 67108864 % 64 = 1; omega)
  have h1 : fld wd 0 6 = 8#6 := fld_eq wd 0 _ (by rw [hw]; show _ / 1 % 64 = 8; omega)
  have h2 : fld wd 20 6 = d := fld_eq wd 20 _ (by rw [hw]; show _ / 1048576 % 64 = _; omega)
  have h3 : fld wd 14 6 = a := fld_eq wd 14 _ (by rw [hw]; show _ / 16384 % 64 = _; omega)
  have h4 : fld wd 8 6 = b := fld_eq wd 8 _ (by rw [hw]; show _ / 256 % 64 = _; omega)
  have h5 : fld wd 7 1 = s := fld_eq wd 7 _ (by rw [hw]; show _ / 128 % 2 = _; omega)
  have h6 : fld wd 6 1 = x := fld_eq wd 6 _ (by rw [hw]; show _ / 64 % 2 = _; omega)
  unfold decodeForm; rw [h0]
  show decodeIarith wd = _
  unfold decodeIarith; rw [h1]
  show form (.mac (fld wd 20 6) (fld wd 14 6) (fld wd 8 6) (fld wd 7 1) (fld wd 6 1)) (true) = _
  simp only [h2, h3, h4, h5, h6]
  exact form_ok _ _ hwf rfl
theorem abs (d : BitVec 6) (a : BitVec 6) (s : BitVec 1) : Statement (.abs d a s) :=
  strand_of (67108873 + d.toNat * 1048576 + a.toNat * 16384 + s.toNat * 128) rfl (by omega) rfl fun wd hw hwf => by
  have h0 : fld wd 26 6 = 1#6 := fld_eq wd 26 _ (by rw [hw]; show _ / 67108864 % 64 = 1; omega)
  have h1 : fld wd 0 6 = 9#6 := fld_eq wd 0 _ (by rw [hw]; show _ / 1 % 64 = 9; omega)
  have h2 : fld wd 20 6 = d := fld_eq wd 20 _ (by rw [hw]; show _ / 1048576 % 64 = _; omega)
  have h3 : fld wd 14 6 = a := fld_eq wd 14 _ (by rw [hw]; show _ / 16384 % 64 = _; omega)
  have h4 : fld wd 7 1 = s := fld_eq wd 7 _ (by rw [hw]; show _ / 128 % 2 = _; omega)
  have h5 : fld wd 8 6 = 0#6 := fld_eq wd 8 _ (by rw [hw]; show _ / 256 % 64 = 0; omega)
  have h6 : fld wd 6 1 = 0#1 := fld_eq wd 6 _ (by rw [hw]; show _ / 64 % 2 = 0; omega)
  unfold decodeForm; rw [h0]
  show decodeIarith wd = _
  unfold decodeIarith; rw [h1]
  show form (.abs (fld wd 20 6) (fld wd 14 6) (fld wd 7 1)) (fld wd 8 6 == 0#6 && fld wd 6 1 == 0#1) = _
  simp only [h2, h3, h4, h5, h6]
  exact form_ok _ _ hwf (by decide)
theorem neg (d : BitVec 6) (a : BitVec 6) (s : BitVec 1) : Statement (.neg d a s) :=
  strand_of (67108874 + d.toNat * 1048576 + a.toNat * 16384 + s.toNat * 128) rfl (by omega) rfl fun wd hw hwf => by
  have h0 : fld wd 26 6 = 1#6 := fld_eq wd 26 _ (by rw [hw]; show _ / 67108864 % 64 = 1; omega)
  have h1 : fld wd 0 6 = 10#6 := fld_eq wd 0 _ (by rw [hw]; show _ / 1 % 64 = 10; omega)
  have h2 : fld wd 20 6 = d := fld_eq wd 20 _ (by rw [hw]; show _ / 1048576 % 64 = _; omega)
  have h3 : fld wd 14 6 = a := fld_eq wd 14 _ (by rw [hw]; show _ / 16384 % 64 = _; omega)
  have h4 : fld wd 7 1 = s := fld_eq wd 7 _ (by rw [hw]; show _ / 128 % 2 = _; omega)
  have h5 : fld wd 8 6 = 0#6 := fld_eq wd 8 _ (by rw [hw]; show _ / 256 % 64 = 0; omega)
  have h6 : fld wd 6 1 = 0#1 := fld_eq wd 6 _ (by rw [hw]; show _ / 64 % 2 = 0; omega)
  unfold decodeForm; rw [h0]
  show decodeIarith wd = _
  unfold decodeIarith; rw [h1]
  show form (.neg (fld wd 20 6) (fld wd 14 6) (fld wd 7 1)) (fld wd 8 6 == 0#6 && fld wd 6 1 == 0#1) = _
  simp only [h2, h3, h4, h5, h6]
  exact form_ok _ _ hwf (by decide)
theorem absd (d : BitVec 6) (a : BitVec 6) (b : BitVec 6) (s : BitVec 1) (x : BitVec 1) : Statement (.absd d a b s x) :=
  strand_of (67108875 + d.toNat * 1048576 + a.toNat * 16384 + b.toNat * 256 + s.toNat * 128 + x.toNat * 64) rfl (by omega) rfl fun wd hw hwf => by
  have h0 : fld wd 26 6 = 1#6 := fld_eq wd 26 _ (by rw [hw]; show _ / 67108864 % 64 = 1; omega)
  have h1 : fld wd 0 6 = 11#6 := fld_eq wd 0 _ (by rw [hw]; show _ / 1 % 64 = 11; omega)
  have h2 : fld wd 20 6 = d := fld_eq wd 20 _ (by rw [hw]; show _ / 1048576 % 64 = _; omega)
  have h3 : fld wd 14 6 = a := fld_eq wd 14 _ (by rw [hw]; show _ / 16384 % 64 = _; omega)
  have h4 : fld wd 8 6 = b := fld_eq wd 8 _ (by rw [hw]; show _ / 256 % 64 = _; omega)
  have h5 : fld wd 7 1 = s := fld_eq wd 7 _ (by rw [hw]; show _ / 128 % 2 = _; omega)
  have h6 : fld wd 6 1 = x := fld_eq wd 6 _ (by rw [hw]; show _ / 64 % 2 = _; omega)
  unfold decodeForm; rw [h0]
  show decodeIarith wd = _
  unfold decodeIarith; rw [h1]
  show form (.absd (fld wd 20 6) (fld wd 14 6) (fld wd 8 6) (fld wd 7 1) (fld wd 6 1)) (true) = _
  simp only [h2, h3, h4, h5, h6]
  exact form_ok _ _ hwf rfl
theorem and (d : BitVec 6) (a : BitVec 6) (b : BitVec 6) (s : BitVec 1) (x : BitVec 1) : Statement (.and d a b s x) :=
  strand_of (134217728 + d.toNat * 1048576 + a.toNat * 16384 + b.toNat * 256 + s.toNat * 128 + x.toNat * 64) rfl (by omega) rfl fun wd hw hwf => by
  have h0 : fld wd 26 6 = 2#6 := fld_eq wd 26 _ (by rw [hw]; show _ / 67108864 % 64 = 2; omega)
  have h1 : fld wd 0 6 = 0#6 := fld_eq wd 0 _ (by rw [hw]; show _ / 1 % 64 = 0; omega)
  have h2 : fld wd 20 6 = d := fld_eq wd 20 _ (by rw [hw]; show _ / 1048576 % 64 = _; omega)
  have h3 : fld wd 14 6 = a := fld_eq wd 14 _ (by rw [hw]; show _ / 16384 % 64 = _; omega)
  have h4 : fld wd 8 6 = b := fld_eq wd 8 _ (by rw [hw]; show _ / 256 % 64 = _; omega)
  have h5 : fld wd 7 1 = s := fld_eq wd 7 _ (by rw [hw]; show _ / 128 % 2 = _; omega)
  have h6 : fld wd 6 1 = x := fld_eq wd 6 _ (by rw [hw]; show _ / 64 % 2 = _; omega)
  unfold decodeForm; rw [h0]
  show decodeLogic wd = _
  unfold decodeLogic; rw [h1]
  show form (.and (fld wd 20 6) (fld wd 14 6) (fld wd 8 6) (fld wd 7 1) (fld wd 6 1)) (true) = _
  simp only [h2, h3, h4, h5, h6]
  exact form_ok _ _ hwf rfl
theorem or (d : BitVec 6) (a : BitVec 6) (b : BitVec 6) (s : BitVec 1) (x : BitVec 1) : Statement (.or d a b s x) :=
  strand_of (134217729 + d.toNat * 1048576 + a.toNat * 16384 + b.toNat * 256 + s.toNat * 128 + x.toNat * 64) rfl (by omega) rfl fun wd hw hwf => by
  have h0 : fld wd 26 6 = 2#6 := fld_eq wd 26 _ (by rw [hw]; show _ / 67108864 % 64 = 2; omega)
  have h1 : fld wd 0 6 = 1#6 := fld_eq wd 0 _ (by rw [hw]; show _ / 1 % 64 = 1; omega)
  have h2 : fld wd 20 6 = d := fld_eq wd 20 _ (by rw [hw]; show _ / 1048576 % 64 = _; omega)
  have h3 : fld wd 14 6 = a := fld_eq wd 14 _ (by rw [hw]; show _ / 16384 % 64 = _; omega)
  have h4 : fld wd 8 6 = b := fld_eq wd 8 _ (by rw [hw]; show _ / 256 % 64 = _; omega)
  have h5 : fld wd 7 1 = s := fld_eq wd 7 _ (by rw [hw]; show _ / 128 % 2 = _; omega)
  have h6 : fld wd 6 1 = x := fld_eq wd 6 _ (by rw [hw]; show _ / 64 % 2 = _; omega)
  unfold decodeForm; rw [h0]
  show decodeLogic wd = _
  unfold decodeLogic; rw [h1]
  show form (.or (fld wd 20 6) (fld wd 14 6) (fld wd 8 6) (fld wd 7 1) (fld wd 6 1)) (true) = _
  simp only [h2, h3, h4, h5, h6]
  exact form_ok _ _ hwf rfl
theorem xor (d : BitVec 6) (a : BitVec 6) (b : BitVec 6) (s : BitVec 1) (x : BitVec 1) : Statement (.xor d a b s x) :=
  strand_of (134217730 + d.toNat * 1048576 + a.toNat * 16384 + b.toNat * 256 + s.toNat * 128 + x.toNat * 64) rfl (by omega) rfl fun wd hw hwf => by
  have h0 : fld wd 26 6 = 2#6 := fld_eq wd 26 _ (by rw [hw]; show _ / 67108864 % 64 = 2; omega)
  have h1 : fld wd 0 6 = 2#6 := fld_eq wd 0 _ (by rw [hw]; show _ / 1 % 64 = 2; omega)
  have h2 : fld wd 20 6 = d := fld_eq wd 20 _ (by rw [hw]; show _ / 1048576 % 64 = _; omega)
  have h3 : fld wd 14 6 = a := fld_eq wd 14 _ (by rw [hw]; show _ / 16384 % 64 = _; omega)
  have h4 : fld wd 8 6 = b := fld_eq wd 8 _ (by rw [hw]; show _ / 256 % 64 = _; omega)
  have h5 : fld wd 7 1 = s := fld_eq wd 7 _ (by rw [hw]; show _ / 128 % 2 = _; omega)
  have h6 : fld wd 6 1 = x := fld_eq wd 6 _ (by rw [hw]; show _ / 64 % 2 = _; omega)
  unfold decodeForm; rw [h0]
  show decodeLogic wd = _
  unfold decodeLogic; rw [h1]
  show form (.xor (fld wd 20 6) (fld wd 14 6) (fld wd 8 6) (fld wd 7 1) (fld wd 6 1)) (true) = _
  simp only [h2, h3, h4, h5, h6]
  exact form_ok _ _ hwf rfl
theorem andn (d : BitVec 6) (a : BitVec 6) (b : BitVec 6) (s : BitVec 1) (x : BitVec 1) : Statement (.andn d a b s x) :=
  strand_of (134217731 + d.toNat * 1048576 + a.toNat * 16384 + b.toNat * 256 + s.toNat * 128 + x.toNat * 64) rfl (by omega) rfl fun wd hw hwf => by
  have h0 : fld wd 26 6 = 2#6 := fld_eq wd 26 _ (by rw [hw]; show _ / 67108864 % 64 = 2; omega)
  have h1 : fld wd 0 6 = 3#6 := fld_eq wd 0 _ (by rw [hw]; show _ / 1 % 64 = 3; omega)
  have h2 : fld wd 20 6 = d := fld_eq wd 20 _ (by rw [hw]; show _ / 1048576 % 64 = _; omega)
  have h3 : fld wd 14 6 = a := fld_eq wd 14 _ (by rw [hw]; show _ / 16384 % 64 = _; omega)
  have h4 : fld wd 8 6 = b := fld_eq wd 8 _ (by rw [hw]; show _ / 256 % 64 = _; omega)
  have h5 : fld wd 7 1 = s := fld_eq wd 7 _ (by rw [hw]; show _ / 128 % 2 = _; omega)
  have h6 : fld wd 6 1 = x := fld_eq wd 6 _ (by rw [hw]; show _ / 64 % 2 = _; omega)
  unfold decodeForm; rw [h0]
  show decodeLogic wd = _
  unfold decodeLogic; rw [h1]
  show form (.andn (fld wd 20 6) (fld wd 14 6) (fld wd 8 6) (fld wd 7 1) (fld wd 6 1)) (true) = _
  simp only [h2, h3, h4, h5, h6]
  exact form_ok _ _ hwf rfl
theorem not (d : BitVec 6) (a : BitVec 6) (s : BitVec 1) : Statement (.not d a s) :=
  strand_of (134217732 + d.toNat * 1048576 + a.toNat * 16384 + s.toNat * 128) rfl (by omega) rfl fun wd hw hwf => by
  have h0 : fld wd 26 6 = 2#6 := fld_eq wd 26 _ (by rw [hw]; show _ / 67108864 % 64 = 2; omega)
  have h1 : fld wd 0 6 = 4#6 := fld_eq wd 0 _ (by rw [hw]; show _ / 1 % 64 = 4; omega)
  have h2 : fld wd 20 6 = d := fld_eq wd 20 _ (by rw [hw]; show _ / 1048576 % 64 = _; omega)
  have h3 : fld wd 14 6 = a := fld_eq wd 14 _ (by rw [hw]; show _ / 16384 % 64 = _; omega)
  have h4 : fld wd 7 1 = s := fld_eq wd 7 _ (by rw [hw]; show _ / 128 % 2 = _; omega)
  have h5 : fld wd 8 6 = 0#6 := fld_eq wd 8 _ (by rw [hw]; show _ / 256 % 64 = 0; omega)
  have h6 : fld wd 6 1 = 0#1 := fld_eq wd 6 _ (by rw [hw]; show _ / 64 % 2 = 0; omega)
  unfold decodeForm; rw [h0]
  show decodeLogic wd = _
  unfold decodeLogic; rw [h1]
  show form (.not (fld wd 20 6) (fld wd 14 6) (fld wd 7 1)) (fld wd 8 6 == 0#6 && fld wd 6 1 == 0#1) = _
  simp only [h2, h3, h4, h5, h6]
  exact form_ok _ _ hwf (by decide)
theorem shl (d : BitVec 6) (a : BitVec 6) (b : BitVec 6) (s : BitVec 1) (x : BitVec 1) : Statement (.shl d a b s x) :=
  strand_of (134217733 + d.toNat * 1048576 + a.toNat * 16384 + b.toNat * 256 + s.toNat * 128 + x.toNat * 64) rfl (by omega) rfl fun wd hw hwf => by
  have h0 : fld wd 26 6 = 2#6 := fld_eq wd 26 _ (by rw [hw]; show _ / 67108864 % 64 = 2; omega)
  have h1 : fld wd 0 6 = 5#6 := fld_eq wd 0 _ (by rw [hw]; show _ / 1 % 64 = 5; omega)
  have h2 : fld wd 20 6 = d := fld_eq wd 20 _ (by rw [hw]; show _ / 1048576 % 64 = _; omega)
  have h3 : fld wd 14 6 = a := fld_eq wd 14 _ (by rw [hw]; show _ / 16384 % 64 = _; omega)
  have h4 : fld wd 8 6 = b := fld_eq wd 8 _ (by rw [hw]; show _ / 256 % 64 = _; omega)
  have h5 : fld wd 7 1 = s := fld_eq wd 7 _ (by rw [hw]; show _ / 128 % 2 = _; omega)
  have h6 : fld wd 6 1 = x := fld_eq wd 6 _ (by rw [hw]; show _ / 64 % 2 = _; omega)
  unfold decodeForm; rw [h0]
  show decodeLogic wd = _
  unfold decodeLogic; rw [h1]
  show form (.shl (fld wd 20 6) (fld wd 14 6) (fld wd 8 6) (fld wd 7 1) (fld wd 6 1)) (true) = _
  simp only [h2, h3, h4, h5, h6]
  exact form_ok _ _ hwf rfl
theorem shr (d : BitVec 6) (a : BitVec 6) (b : BitVec 6) (s : BitVec 1) (x : BitVec 1) : Statement (.shr d a b s x) :=
  strand_of (134217734 + d.toNat * 1048576 + a.toNat * 16384 + b.toNat * 256 + s.toNat * 128 + x.toNat * 64) rfl (by omega) rfl fun wd hw hwf => by
  have h0 : fld wd 26 6 = 2#6 := fld_eq wd 26 _ (by rw [hw]; show _ / 67108864 % 64 = 2; omega)
  have h1 : fld wd 0 6 = 6#6 := fld_eq wd 0 _ (by rw [hw]; show _ / 1 % 64 = 6; omega)
  have h2 : fld wd 20 6 = d := fld_eq wd 20 _ (by rw [hw]; show _ / 1048576 % 64 = _; omega)
  have h3 : fld wd 14 6 = a := fld_eq wd 14 _ (by rw [hw]; show _ / 16384 % 64 = _; omega)
  have h4 : fld wd 8 6 = b := fld_eq wd 8 _ (by rw [hw]; show _ / 256 % 64 = _; omega)
  have h5 : fld wd 7 1 = s := fld_eq wd 7 _ (by rw [hw]; show _ / 128 % 2 = _; omega)
  have h6 : fld wd 6 1 = x := fld_eq wd 6 _ (by rw [hw]; show _ / 64 % 2 = _; omega)
  unfold decodeForm; rw [h0]
  show decodeLogic wd = _
  unfold decodeLogic; rw [h1]
  show form (.shr (fld wd 20 6) (fld wd 14 6) (fld wd 8 6) (fld wd 7 1) (fld wd 6 1)) (true) = _
  simp only [h2, h3, h4, h5, h6]
  exact form_ok _ _ hwf rfl
theorem shra (d : BitVec 6) (a : BitVec 6) (b : BitVec 6) (s : BitVec 1) (x : BitVec 1) : Statement (.shra d a b s x) :=
  strand_of (134217735 + d.toNat * 1048576 + a.toNat * 16384 + b.toNat * 256 + s.toNat * 128 + x.toNat * 64) rfl (by omega) rfl fun wd hw hwf => by
  have h0 : fld wd 26 6 = 2#6 := fld_eq wd 26 _ (by rw [hw]; show _ / 67108864 % 64 = 2; omega)
  have h1 : fld wd 0 6 = 7#6 := fld_eq wd 0 _ (by rw [hw]; show _ / 1 % 64 = 7; omega)
  have h2 : fld wd 20 6 = d := fld_eq wd 20 _ (by rw [hw]; show _ / 1048576 % 64 = _; omega)
  have h3 : fld wd 14 6 = a := fld_eq wd 14 _ (by rw [hw]; show _ / 16384 % 64 = _; omega)
  have h4 : fld wd 8 6 = b := fld_eq wd 8 _ (by rw [hw]; show _ / 256 % 64 = _; omega)
  have h5 : fld wd 7 1 = s := fld_eq wd 7 _ (by rw [hw]; show _ / 128 % 2 = _; omega)
  have h6 : fld wd 6 1 = x := fld_eq wd 6 _ (by rw [hw]; show _ / 64 % 2 = _; omega)
  unfold decodeForm; rw [h0]
  show decodeLogic wd = _
  unfold decodeLogic; rw [h1]
  show form (.shra (fld wd 20 6) (fld wd 14 6) (fld wd 8 6) (fld wd 7 1) (fld wd 6 1)) (true) = _
  simp only [h2, h3, h4, h5, h6]
  exact form_ok _ _ hwf rfl
theorem rol (d : BitVec 6) (a : BitVec 6) (b : BitVec 6) (s : BitVec 1) (x : BitVec 1) : Statement (.rol d a b s x) :=
  strand_of (134217736 + d.toNat * 1048576 + a.toNat * 16384 + b.toNat * 256 + s.toNat * 128 + x.toNat * 64) rfl (by omega) rfl fun wd hw hwf => by
  have h0 : fld wd 26 6 = 2#6 := fld_eq wd 26 _ (by rw [hw]; show _ / 67108864 % 64 = 2; omega)
  have h1 : fld wd 0 6 = 8#6 := fld_eq wd 0 _ (by rw [hw]; show _ / 1 % 64 = 8; omega)
  have h2 : fld wd 20 6 = d := fld_eq wd 20 _ (by rw [hw]; show _ / 1048576 % 64 = _; omega)
  have h3 : fld wd 14 6 = a := fld_eq wd 14 _ (by rw [hw]; show _ / 16384 % 64 = _; omega)
  have h4 : fld wd 8 6 = b := fld_eq wd 8 _ (by rw [hw]; show _ / 256 % 64 = _; omega)
  have h5 : fld wd 7 1 = s := fld_eq wd 7 _ (by rw [hw]; show _ / 128 % 2 = _; omega)
  have h6 : fld wd 6 1 = x := fld_eq wd 6 _ (by rw [hw]; show _ / 64 % 2 = _; omega)
  unfold decodeForm; rw [h0]
  show decodeLogic wd = _
  unfold decodeLogic; rw [h1]
  show form (.rol (fld wd 20 6) (fld wd 14 6) (fld wd 8 6) (fld wd 7 1) (fld wd 6 1)) (true) = _
  simp only [h2, h3, h4, h5, h6]
  exact form_ok _ _ hwf rfl
theorem popc (d : BitVec 6) (a : BitVec 6) (s : BitVec 1) : Statement (.popc d a s) :=
  strand_of (134217737 + d.toNat * 1048576 + a.toNat * 16384 + s.toNat * 128) rfl (by omega) rfl fun wd hw hwf => by
  have h0 : fld wd 26 6 = 2#6 := fld_eq wd 26 _ (by rw [hw]; show _ / 67108864 % 64 = 2; omega)
  have h1 : fld wd 0 6 = 9#6 := fld_eq wd 0 _ (by rw [hw]; show _ / 1 % 64 = 9; omega)
  have h2 : fld wd 20 6 = d := fld_eq wd 20 _ (by rw [hw]; show _ / 1048576 % 64 = _; omega)
  have h3 : fld wd 14 6 = a := fld_eq wd 14 _ (by rw [hw]; show _ / 16384 % 64 = _; omega)
  have h4 : fld wd 7 1 = s := fld_eq wd 7 _ (by rw [hw]; show _ / 128 % 2 = _; omega)
  have h5 : fld wd 8 6 = 0#6 := fld_eq wd 8 _ (by rw [hw]; show _ / 256 % 64 = 0; omega)
  have h6 : fld wd 6 1 = 0#1 := fld_eq wd 6 _ (by rw [hw]; show _ / 64 % 2 = 0; omega)
  unfold decodeForm; rw [h0]
  show decodeLogic wd = _
  unfold decodeLogic; rw [h1]
  show form (.popc (fld wd 20 6) (fld wd 14 6) (fld wd 7 1)) (fld wd 8 6 == 0#6 && fld wd 6 1 == 0#1) = _
  simp only [h2, h3, h4, h5, h6]
  exact form_ok _ _ hwf (by decide)
theorem clz (d : BitVec 6) (a : BitVec 6) (s : BitVec 1) : Statement (.clz d a s) :=
  strand_of (134217738 + d.toNat * 1048576 + a.toNat * 16384 + s.toNat * 128) rfl (by omega) rfl fun wd hw hwf => by
  have h0 : fld wd 26 6 = 2#6 := fld_eq wd 26 _ (by rw [hw]; show _ / 67108864 % 64 = 2; omega)
  have h1 : fld wd 0 6 = 10#6 := fld_eq wd 0 _ (by rw [hw]; show _ / 1 % 64 = 10; omega)
  have h2 : fld wd 20 6 = d := fld_eq wd 20 _ (by rw [hw]; show _ / 1048576 % 64 = _; omega)
  have h3 : fld wd 14 6 = a := fld_eq wd 14 _ (by rw [hw]; show _ / 16384 % 64 = _; omega)
  have h4 : fld wd 7 1 = s := fld_eq wd 7 _ (by rw [hw]; show _ / 128 % 2 = _; omega)
  have h5 : fld wd 8 6 = 0#6 := fld_eq wd 8 _ (by rw [hw]; show _ / 256 % 64 = 0; omega)
  have h6 : fld wd 6 1 = 0#1 := fld_eq wd 6 _ (by rw [hw]; show _ / 64 % 2 = 0; omega)
  unfold decodeForm; rw [h0]
  show decodeLogic wd = _
  unfold decodeLogic; rw [h1]
  show form (.clz (fld wd 20 6) (fld wd 14 6) (fld wd 7 1)) (fld wd 8 6 == 0#6 && fld wd 6 1 == 0#1) = _
  simp only [h2, h3, h4, h5, h6]
  exact form_ok _ _ hwf (by decide)
theorem ceq (d : BitVec 6) (a : BitVec 6) (b : BitVec 6) (s : BitVec 1) (x : BitVec 1) : Statement (.ceq d a b s x) :=
  strand_of (201326592 + d.toNat * 1048576 + a.toNat * 16384 + b.toNat * 256 + s.toNat * 128 + x.toNat * 64) rfl (by omega) rfl fun wd hw hwf => by
  have h0 : fld wd 26 6 = 3#6 := fld_eq wd 26 _ (by rw [hw]; show _ / 67108864 % 64 = 3; omega)
  have h1 : fld wd 0 6 = 0#6 := fld_eq wd 0 _ (by rw [hw]; show _ / 1 % 64 = 0; omega)
  have h2 : fld wd 20 6 = d := fld_eq wd 20 _ (by rw [hw]; show _ / 1048576 % 64 = _; omega)
  have h3 : fld wd 14 6 = a := fld_eq wd 14 _ (by rw [hw]; show _ / 16384 % 64 = _; omega)
  have h4 : fld wd 8 6 = b := fld_eq wd 8 _ (by rw [hw]; show _ / 256 % 64 = _; omega)
  have h5 : fld wd 7 1 = s := fld_eq wd 7 _ (by rw [hw]; show _ / 128 % 2 = _; omega)
  have h6 : fld wd 6 1 = x := fld_eq wd 6 _ (by rw [hw]; show _ / 64 % 2 = _; omega)
  unfold decodeForm; rw [h0]
  show decodeIcmp wd = _
  unfold decodeIcmp; rw [h1]
  show form (.ceq (fld wd 20 6) (fld wd 14 6) (fld wd 8 6) (fld wd 7 1) (fld wd 6 1)) (true) = _
  simp only [h2, h3, h4, h5, h6]
  exact form_ok _ _ hwf rfl
theorem cne (d : BitVec 6) (a : BitVec 6) (b : BitVec 6) (s : BitVec 1) (x : BitVec 1) : Statement (.cne d a b s x) :=
  strand_of (201326593 + d.toNat * 1048576 + a.toNat * 16384 + b.toNat * 256 + s.toNat * 128 + x.toNat * 64) rfl (by omega) rfl fun wd hw hwf => by
  have h0 : fld wd 26 6 = 3#6 := fld_eq wd 26 _ (by rw [hw]; show _ / 67108864 % 64 = 3; omega)
  have h1 : fld wd 0 6 = 1#6 := fld_eq wd 0 _ (by rw [hw]; show _ / 1 % 64 = 1; omega)
  have h2 : fld wd 20 6 = d := fld_eq wd 20 _ (by rw [hw]; show _ / 1048576 % 64 = _; omega)
  have h3 : fld wd 14 6 = a := fld_eq wd 14 _ (by rw [hw]; show _ / 16384 % 64 = _; omega)
  have h4 : fld wd 8 6 = b := fld_eq wd 8 _ (by rw [hw]; show _ / 256 % 64 = _; omega)
  have h5 : fld wd 7 1 = s := fld_eq wd 7 _ (by rw [hw]; show _ / 128 % 2 = _; omega)
  have h6 : fld wd 6 1 = x := fld_eq wd 6 _ (by rw [hw]; show _ / 64 % 2 = _; omega)
  unfold decodeForm; rw [h0]
  show decodeIcmp wd = _
  unfold decodeIcmp; rw [h1]
  show form (.cne (fld wd 20 6) (fld wd 14 6) (fld wd 8 6) (fld wd 7 1) (fld wd 6 1)) (true) = _
  simp only [h2, h3, h4, h5, h6]
  exact form_ok _ _ hwf rfl
theorem clt (d : BitVec 6) (a : BitVec 6) (b : BitVec 6) (s : BitVec 1) (x : BitVec 1) : Statement (.clt d a b s x) :=
  strand_of (201326594 + d.toNat * 1048576 + a.toNat * 16384 + b.toNat * 256 + s.toNat * 128 + x.toNat * 64) rfl (by omega) rfl fun wd hw hwf => by
  have h0 : fld wd 26 6 = 3#6 := fld_eq wd 26 _ (by rw [hw]; show _ / 67108864 % 64 = 3; omega)
  have h1 : fld wd 0 6 = 2#6 := fld_eq wd 0 _ (by rw [hw]; show _ / 1 % 64 = 2; omega)
  have h2 : fld wd 20 6 = d := fld_eq wd 20 _ (by rw [hw]; show _ / 1048576 % 64 = _; omega)
  have h3 : fld wd 14 6 = a := fld_eq wd 14 _ (by rw [hw]; show _ / 16384 % 64 = _; omega)
  have h4 : fld wd 8 6 = b := fld_eq wd 8 _ (by rw [hw]; show _ / 256 % 64 = _; omega)
  have h5 : fld wd 7 1 = s := fld_eq wd 7 _ (by rw [hw]; show _ / 128 % 2 = _; omega)
  have h6 : fld wd 6 1 = x := fld_eq wd 6 _ (by rw [hw]; show _ / 64 % 2 = _; omega)
  unfold decodeForm; rw [h0]
  show decodeIcmp wd = _
  unfold decodeIcmp; rw [h1]
  show form (.clt (fld wd 20 6) (fld wd 14 6) (fld wd 8 6) (fld wd 7 1) (fld wd 6 1)) (true) = _
  simp only [h2, h3, h4, h5, h6]
  exact form_ok _ _ hwf rfl
theorem cle (d : BitVec 6) (a : BitVec 6) (b : BitVec 6) (s : BitVec 1) (x : BitVec 1) : Statement (.cle d a b s x) :=
  strand_of (201326595 + d.toNat * 1048576 + a.toNat * 16384 + b.toNat * 256 + s.toNat * 128 + x.toNat * 64) rfl (by omega) rfl fun wd hw hwf => by
  have h0 : fld wd 26 6 = 3#6 := fld_eq wd 26 _ (by rw [hw]; show _ / 67108864 % 64 = 3; omega)
  have h1 : fld wd 0 6 = 3#6 := fld_eq wd 0 _ (by rw [hw]; show _ / 1 % 64 = 3; omega)
  have h2 : fld wd 20 6 = d := fld_eq wd 20 _ (by rw [hw]; show _ / 1048576 % 64 = _; omega)
  have h3 : fld wd 14 6 = a := fld_eq wd 14 _ (by rw [hw]; show _ / 16384 % 64 = _; omega)
  have h4 : fld wd 8 6 = b := fld_eq wd 8 _ (by rw [hw]; show _ / 256 % 64 = _; omega)
  have h5 : fld wd 7 1 = s := fld_eq wd 7 _ (by rw [hw]; show _ / 128 % 2 = _; omega)
  have h6 : fld wd 6 1 = x := fld_eq wd 6 _ (by rw [hw]; show _ / 64 % 2 = _; omega)
  unfold decodeForm; rw [h0]
  show decodeIcmp wd = _
  unfold decodeIcmp; rw [h1]
  show form (.cle (fld wd 20 6) (fld wd 14 6) (fld wd 8 6) (fld wd 7 1) (fld wd 6 1)) (true) = _
  simp only [h2, h3, h4, h5, h6]
  exact form_ok _ _ hwf rfl
theorem cgt (d : BitVec 6) (a : BitVec 6) (b : BitVec 6) (s : BitVec 1) (x : BitVec 1) : Statement (.cgt d a b s x) :=
  strand_of (201326596 + d.toNat * 1048576 + a.toNat * 16384 + b.toNat * 256 + s.toNat * 128 + x.toNat * 64) rfl (by omega) rfl fun wd hw hwf => by
  have h0 : fld wd 26 6 = 3#6 := fld_eq wd 26 _ (by rw [hw]; show _ / 67108864 % 64 = 3; omega)
  have h1 : fld wd 0 6 = 4#6 := fld_eq wd 0 _ (by rw [hw]; show _ / 1 % 64 = 4; omega)
  have h2 : fld wd 20 6 = d := fld_eq wd 20 _ (by rw [hw]; show _ / 1048576 % 64 = _; omega)
  have h3 : fld wd 14 6 = a := fld_eq wd 14 _ (by rw [hw]; show _ / 16384 % 64 = _; omega)
  have h4 : fld wd 8 6 = b := fld_eq wd 8 _ (by rw [hw]; show _ / 256 % 64 = _; omega)
  have h5 : fld wd 7 1 = s := fld_eq wd 7 _ (by rw [hw]; show _ / 128 % 2 = _; omega)
  have h6 : fld wd 6 1 = x := fld_eq wd 6 _ (by rw [hw]; show _ / 64 % 2 = _; omega)
  unfold decodeForm; rw [h0]
  show decodeIcmp wd = _
  unfold decodeIcmp; rw [h1]
  show form (.cgt (fld wd 20 6) (fld wd 14 6) (fld wd 8 6) (fld wd 7 1) (fld wd 6 1)) (true) = _
  simp only [h2, h3, h4, h5, h6]
  exact form_ok _ _ hwf rfl
theorem cge (d : BitVec 6) (a : BitVec 6) (b : BitVec 6) (s : BitVec 1) (x : BitVec 1) : Statement (.cge d a b s x) :=
  strand_of (201326597 + d.toNat * 1048576 + a.toNat * 16384 + b.toNat * 256 + s.toNat * 128 + x.toNat * 64) rfl (by omega) rfl fun wd hw hwf => by
  have h0 : fld wd 26 6 = 3#6 := fld_eq wd 26 _ (by rw [hw]; show _ / 67108864 % 64 = 3; omega)
  have h1 : fld wd 0 6 = 5#6 := fld_eq wd 0 _ (by rw [hw]; show _ / 1 % 64 = 5; omega)
  have h2 : fld wd 20 6 = d := fld_eq wd 20 _ (by rw [hw]; show _ / 1048576 % 64 = _; omega)
  have h3 : fld wd 14 6 = a := fld_eq wd 14 _ (by rw [hw]; show _ / 16384 % 64 = _; omega)
  have h4 : fld wd 8 6 = b := fld_eq wd 8 _ (by rw [hw]; show _ / 256 % 64 = _; omega)
  have h5 : fld wd 7 1 = s := fld_eq wd 7 _ (by rw [hw]; show _ / 128 % 2 = _; omega)
  have h6 : fld wd 6 1 = x := fld_eq wd 6 _ (by rw [hw]; show _ / 64 % 2 = _; omega)
  unfold decodeForm; rw [h0]
  show decodeIcmp wd = _
  unfold decodeIcmp; rw [h1]
  show form (.cge (fld wd 20 6) (fld wd 14 6) (fld wd 8 6) (fld wd 7 1) (fld wd 6 1)) (true) = _
  simp only [h2, h3, h4, h5, h6]
  exact form_ok _ _ hwf rfl
theorem mand (d : BitVec 6) (a : BitVec 6) (b : BitVec 6) : Statement (.mand d a b) :=
  strand_of (268435456 + d.toNat * 1048576 + a.toNat * 16384 + b.toNat * 256) rfl (by omega) rfl fun wd hw hwf => by
  have h0 : fld wd 26 6 = 4#6 := fld_eq wd 26 _ (by rw [hw]; show _ / 67108864 % 64 = 4; omega)
  have h1 : fld wd 0 6 = 0#6 := fld_eq wd 0 _ (by rw [hw]; show _ / 1 % 64 = 0; omega)
  have h2 : fld wd 20 6 = d := fld_eq wd 20 _ (by rw [hw]; show _ / 1048576 % 64 = _; omega)
  have h3 : fld wd 14 6 = a := fld_eq wd 14 _ (by rw [hw]; show _ / 16384 % 64 = _; omega)
  have h4 : fld wd 8 6 = b := fld_eq wd 8 _ (by rw [hw]; show _ / 256 % 64 = _; omega)
  have h5 : fld wd 6 2 = 0#2 := fld_eq wd 6 _ (by rw [hw]; show _ / 64 % 4 = 0; omega)
  unfold decodeForm; rw [h0]
  show decodeMask wd = _
  unfold decodeMask; rw [h1]
  show form (.mand (fld wd 20 6) (fld wd 14 6) (fld wd 8 6)) (fld wd 6 2 == 0#2) = _
  simp only [h2, h3, h4, h5]
  exact form_ok _ _ hwf (by decide)
theorem mor (d : BitVec 6) (a : BitVec 6) (b : BitVec 6) : Statement (.mor d a b) :=
  strand_of (268435457 + d.toNat * 1048576 + a.toNat * 16384 + b.toNat * 256) rfl (by omega) rfl fun wd hw hwf => by
  have h0 : fld wd 26 6 = 4#6 := fld_eq wd 26 _ (by rw [hw]; show _ / 67108864 % 64 = 4; omega)
  have h1 : fld wd 0 6 = 1#6 := fld_eq wd 0 _ (by rw [hw]; show _ / 1 % 64 = 1; omega)
  have h2 : fld wd 20 6 = d := fld_eq wd 20 _ (by rw [hw]; show _ / 1048576 % 64 = _; omega)
  have h3 : fld wd 14 6 = a := fld_eq wd 14 _ (by rw [hw]; show _ / 16384 % 64 = _; omega)
  have h4 : fld wd 8 6 = b := fld_eq wd 8 _ (by rw [hw]; show _ / 256 % 64 = _; omega)
  have h5 : fld wd 6 2 = 0#2 := fld_eq wd 6 _ (by rw [hw]; show _ / 64 % 4 = 0; omega)
  unfold decodeForm; rw [h0]
  show decodeMask wd = _
  unfold decodeMask; rw [h1]
  show form (.mor (fld wd 20 6) (fld wd 14 6) (fld wd 8 6)) (fld wd 6 2 == 0#2) = _
  simp only [h2, h3, h4, h5]
  exact form_ok _ _ hwf (by decide)
theorem mxor (d : BitVec 6) (a : BitVec 6) (b : BitVec 6) : Statement (.mxor d a b) :=
  strand_of (268435458 + d.toNat * 1048576 + a.toNat * 16384 + b.toNat * 256) rfl (by omega) rfl fun wd hw hwf => by
  have h0 : fld wd 26 6 = 4#6 := fld_eq wd 26 _ (by rw [hw]; show _ / 67108864 % 64 = 4; omega)
  have h1 : fld wd 0 6 = 2#6 := fld_eq wd 0 _ (by rw [hw]; show _ / 1 % 64 = 2; omega)
  have h2 : fld wd 20 6 = d := fld_eq wd 20 _ (by rw [hw]; show _ / 1048576 % 64 = _; omega)
  have h3 : fld wd 14 6 = a := fld_eq wd 14 _ (by rw [hw]; show _ / 16384 % 64 = _; omega)
  have h4 : fld wd 8 6 = b := fld_eq wd 8 _ (by rw [hw]; show _ / 256 % 64 = _; omega)
  have h5 : fld wd 6 2 = 0#2 := fld_eq wd 6 _ (by rw [hw]; show _ / 64 % 4 = 0; omega)
  unfold decodeForm; rw [h0]
  show decodeMask wd = _
  unfold decodeMask; rw [h1]
  show form (.mxor (fld wd 20 6) (fld wd 14 6) (fld wd 8 6)) (fld wd 6 2 == 0#2) = _
  simp only [h2, h3, h4, h5]
  exact form_ok _ _ hwf (by decide)
theorem mandn (d : BitVec 6) (a : BitVec 6) (b : BitVec 6) : Statement (.mandn d a b) :=
  strand_of (268435459 + d.toNat * 1048576 + a.toNat * 16384 + b.toNat * 256) rfl (by omega) rfl fun wd hw hwf => by
  have h0 : fld wd 26 6 = 4#6 := fld_eq wd 26 _ (by rw [hw]; show _ / 67108864 % 64 = 4; omega)
  have h1 : fld wd 0 6 = 3#6 := fld_eq wd 0 _ (by rw [hw]; show _ / 1 % 64 = 3; omega)
  have h2 : fld wd 20 6 = d := fld_eq wd 20 _ (by rw [hw]; show _ / 1048576 % 64 = _; omega)
  have h3 : fld wd 14 6 = a := fld_eq wd 14 _ (by rw [hw]; show _ / 16384 % 64 = _; omega)
  have h4 : fld wd 8 6 = b := fld_eq wd 8 _ (by rw [hw]; show _ / 256 % 64 = _; omega)
  have h5 : fld wd 6 2 = 0#2 := fld_eq wd 6 _ (by rw [hw]; show _ / 64 % 4 = 0; omega)
  unfold decodeForm; rw [h0]
  show decodeMask wd = _
  unfold decodeMask; rw [h1]
  show form (.mandn (fld wd 20 6) (fld wd 14 6) (fld wd 8 6)) (fld wd 6 2 == 0#2) = _
  simp only [h2, h3, h4, h5]
  exact form_ok _ _ hwf (by decide)
theorem mnot (d : BitVec 6) (a : BitVec 6) : Statement (.mnot d a) :=
  strand_of (268435460 + d.toNat * 1048576 + a.toNat * 16384) rfl (by omega) rfl fun wd hw hwf => by
  have h0 : fld wd 26 6 = 4#6 := fld_eq wd 26 _ (by rw [hw]; show _ / 67108864 % 64 = 4; omega)
  have h1 : fld wd 0 6 = 4#6 := fld_eq wd 0 _ (by rw [hw]; show _ / 1 % 64 = 4; omega)
  have h2 : fld wd 20 6 = d := fld_eq wd 20 _ (by rw [hw]; show _ / 1048576 % 64 = _; omega)
  have h3 : fld wd 14 6 = a := fld_eq wd 14 _ (by rw [hw]; show _ / 16384 % 64 = _; omega)
  have h4 : fld wd 6 8 = 0#8 := fld_eq wd 6 _ (by rw [hw]; show _ / 64 % 256 = 0; omega)
  unfold decodeForm; rw [h0]
  show decodeMask wd = _
  unfold decodeMask; rw [h1]
  show form (.mnot (fld wd 20 6) (fld wd 14 6)) (fld wd 6 8 == 0#8) = _
  simp only [h2, h3, h4]
  exact form_ok _ _ hwf (by decide)
theorem mset (d : BitVec 6) : Statement (.mset d) :=
  strand_of (268435461 + d.toNat * 1048576) rfl (by omega) rfl fun wd hw hwf => by
  have h0 : fld wd 26 6 = 4#6 := fld_eq wd 26 _ (by rw [hw]; show _ / 67108864 % 64 = 4; omega)
  have h1 : fld wd 0 6 = 5#6 := fld_eq wd 0 _ (by rw [hw]; show _ / 1 % 64 = 5; omega)
  have h2 : fld wd 20 6 = d := fld_eq wd 20 _ (by rw [hw]; show _ / 1048576 % 64 = _; omega)
  have h3 : fld wd 6 14 = 0#14 := fld_eq wd 6 _ (by rw [hw]; show _ / 64 % 16384 = 0; omega)
  unfold decodeForm; rw [h0]
  show decodeMask wd = _
  unfold decodeMask; rw [h1]
  show form (.mset (fld wd 20 6)) (fld wd 6 14 == 0#14) = _
  simp only [h2, h3]
  exact form_ok _ _ hwf (by decide)
theorem mclr (d : BitVec 6) : Statement (.mclr d) :=
  strand_of (268435462 + d.toNat * 1048576) rfl (by omega) rfl fun wd hw hwf => by
  have h0 : fld wd 26 6 = 4#6 := fld_eq wd 26 _ (by rw [hw]; show _ / 67108864 % 64 = 4; omega)
  have h1 : fld wd 0 6 = 6#6 := fld_eq wd 0 _ (by rw [hw]; show _ / 1 % 64 = 6; omega)
  have h2 : fld wd 20 6 = d := fld_eq wd 20 _ (by rw [hw]; show _ / 1048576 % 64 = _; omega)
  have h3 : fld wd 6 14 = 0#14 := fld_eq wd 6 _ (by rw [hw]; show _ / 64 % 16384 = 0; omega)
  unfold decodeForm; rw [h0]
  show decodeMask wd = _
  unfold decodeMask; rw [h1]
  show form (.mclr (fld wd 20 6)) (fld wd 6 14 == 0#14) = _
  simp only [h2, h3]
  exact form_ok _ _ hwf (by decide)
theorem mpopc (d : BitVec 6) (a : BitVec 6) : Statement (.mpopc d a) :=
  strand_of (268435463 + d.toNat * 1048576 + a.toNat * 16384) rfl (by omega) rfl fun wd hw hwf => by
  have h0 : fld wd 26 6 = 4#6 := fld_eq wd 26 _ (by rw [hw]; show _ / 67108864 % 64 = 4; omega)
  have h1 : fld wd 0 6 = 7#6 := fld_eq wd 0 _ (by rw [hw]; show _ / 1 % 64 = 7; omega)
  have h2 : fld wd 20 6 = d := fld_eq wd 20 _ (by rw [hw]; show _ / 1048576 % 64 = _; omega)
  have h3 : fld wd 14 6 = a := fld_eq wd 14 _ (by rw [hw]; show _ / 16384 % 64 = _; omega)
  have h4 : fld wd 6 8 = 0#8 := fld_eq wd 6 _ (by rw [hw]; show _ / 64 % 256 = 0; omega)
  unfold decodeForm; rw [h0]
  show decodeMask wd = _
  unfold decodeMask; rw [h1]
  show form (.mpopc (fld wd 20 6) (fld wd 14 6)) (fld wd 6 8 == 0#8) = _
  simp only [h2, h3, h4]
  exact form_ok _ _ hwf (by decide)
theorem mfirst (d : BitVec 6) (a : BitVec 6) : Statement (.mfirst d a) :=
  strand_of (268435464 + d.toNat * 1048576 + a.toNat * 16384) rfl (by omega) rfl fun wd hw hwf => by
  have h0 : fld wd 26 6 = 4#6 := fld_eq wd 26 _ (by rw [hw]; show _ / 67108864 % 64 = 4; omega)
  have h1 : fld wd 0 6 = 8#6 := fld_eq wd 0 _ (by rw [hw]; show _ / 1 % 64 = 8; omega)
  have h2 : fld wd 20 6 = d := fld_eq wd 20 _ (by rw [hw]; show _ / 1048576 % 64 = _; omega)
  have h3 : fld wd 14 6 = a := fld_eq wd 14 _ (by rw [hw]; show _ / 16384 % 64 = _; omega)
  have h4 : fld wd 6 8 = 0#8 := fld_eq wd 6 _ (by rw [hw]; show _ / 64 % 256 = 0; omega)
  unfold decodeForm; rw [h0]
  show decodeMask wd = _
  unfold decodeMask; rw [h1]
  show form (.mfirst (fld wd 20 6) (fld wd 14 6)) (fld wd 6 8 == 0#8) = _
  simp only [h2, h3, h4]
  exact form_ok _ _ hwf (by decide)
theorem mtox (d : BitVec 6) (a : BitVec 6) : Statement (.mtox d a) :=
  strand_of (268435465 + d.toNat * 1048576 + a.toNat * 16384) rfl (by omega) rfl fun wd hw hwf => by
  have h0 : fld wd 26 6 = 4#6 := fld_eq wd 26 _ (by rw [hw]; show _ / 67108864 % 64 = 4; omega)
  have h1 : fld wd 0 6 = 9#6 := fld_eq wd 0 _ (by rw [hw]; show _ / 1 % 64 = 9; omega)
  have h2 : fld wd 20 6 = d := fld_eq wd 20 _ (by rw [hw]; show _ / 1048576 % 64 = _; omega)
  have h3 : fld wd 14 6 = a := fld_eq wd 14 _ (by rw [hw]; show _ / 16384 % 64 = _; omega)
  have h4 : fld wd 6 8 = 0#8 := fld_eq wd 6 _ (by rw [hw]; show _ / 64 % 256 = 0; omega)
  unfold decodeForm; rw [h0]
  show decodeMask wd = _
  unfold decodeMask; rw [h1]
  show form (.mtox (fld wd 20 6) (fld wd 14 6)) (fld wd 6 8 == 0#8) = _
  simp only [h2, h3, h4]
  exact form_ok _ _ hwf (by decide)
theorem xtom (d : BitVec 6) (a : BitVec 6) : Statement (.xtom d a) :=
  strand_of (268435466 + d.toNat * 1048576 + a.toNat * 16384) rfl (by omega) rfl fun wd hw hwf => by
  have h0 : fld wd 26 6 = 4#6 := fld_eq wd 26 _ (by rw [hw]; show _ / 67108864 % 64 = 4; omega)
  have h1 : fld wd 0 6 = 10#6 := fld_eq wd 0 _ (by rw [hw]; show _ / 1 % 64 = 10; omega)
  have h2 : fld wd 20 6 = d := fld_eq wd 20 _ (by rw [hw]; show _ / 1048576 % 64 = _; omega)
  have h3 : fld wd 14 6 = a := fld_eq wd 14 _ (by rw [hw]; show _ / 16384 % 64 = _; omega)
  have h4 : fld wd 6 8 = 0#8 := fld_eq wd 6 _ (by rw [hw]; show _ / 64 % 256 = 0; omega)
  unfold decodeForm; rw [h0]
  show decodeMask wd = _
  unfold decodeMask; rw [h1]
  show form (.xtom (fld wd 20 6) (fld wd 14 6)) (fld wd 6 8 == 0#8) = _
  simp only [h2, h3, h4]
  exact form_ok _ _ hwf (by decide)
theorem sel (d : BitVec 6) (a : BitVec 6) (b : BitVec 6) : Statement (.sel d a b) :=
  strand_of (335544320 + d.toNat * 1048576 + a.toNat * 16384 + b.toNat * 256) rfl (by omega) rfl fun wd hw hwf => by
  have h0 : fld wd 26 6 = 5#6 := fld_eq wd 26 _ (by rw [hw]; show _ / 67108864 % 64 = 5; omega)
  have h1 : fld wd 0 6 = 0#6 := fld_eq wd 0 _ (by rw [hw]; show _ / 1 % 64 = 0; omega)
  have h2 : fld wd 20 6 = d := fld_eq wd 20 _ (by rw [hw]; show _ / 1048576 % 64 = _; omega)
  have h3 : fld wd 14 6 = a := fld_eq wd 14 _ (by rw [hw]; show _ / 16384 % 64 = _; omega)
  have h4 : fld wd 8 6 = b := fld_eq wd 8 _ (by rw [hw]; show _ / 256 % 64 = _; omega)
  have h5 : fld wd 6 2 = 0#2 := fld_eq wd 6 _ (by rw [hw]; show _ / 64 % 4 = 0; omega)
  unfold decodeForm; rw [h0]
  show decodePerm wd = _
  unfold decodePerm; rw [h1]
  show form (.sel (fld wd 20 6) (fld wd 14 6) (fld wd 8 6)) (fld wd 6 2 == 0#2) = _
  simp only [h2, h3, h4, h5]
  exact form_ok _ _ hwf (by decide)
theorem slup (d : BitVec 6) (a : BitVec 6) (b : BitVec 6) : Statement (.slup d a b) :=
  strand_of (335544385 + d.toNat * 1048576 + a.toNat * 16384 + b.toNat * 256) rfl (by omega) rfl fun wd hw hwf => by
  have h0 : fld wd 26 6 = 5#6 := fld_eq wd 26 _ (by rw [hw]; show _ / 67108864 % 64 = 5; omega)
  have h1 : fld wd 0 6 = 1#6 := fld_eq wd 0 _ (by rw [hw]; show _ / 1 % 64 = 1; omega)
  have h2 : fld wd 20 6 = d := fld_eq wd 20 _ (by rw [hw]; show _ / 1048576 % 64 = _; omega)
  have h3 : fld wd 14 6 = a := fld_eq wd 14 _ (by rw [hw]; show _ / 16384 % 64 = _; omega)
  have h4 : fld wd 8 6 = b := fld_eq wd 8 _ (by rw [hw]; show _ / 256 % 64 = _; omega)
  have h5 : fld wd 6 2 = 1#2 := fld_eq wd 6 _ (by rw [hw]; show _ / 64 % 4 = 1; omega)
  unfold decodeForm; rw [h0]
  show decodePerm wd = _
  unfold decodePerm; rw [h1]
  show form (.slup (fld wd 20 6) (fld wd 14 6) (fld wd 8 6)) (fld wd 6 2 == 1#2) = _
  simp only [h2, h3, h4, h5]
  exact form_ok _ _ hwf (by decide)
theorem sldn (d : BitVec 6) (a : BitVec 6) (b : BitVec 6) : Statement (.sldn d a b) :=
  strand_of (335544386 + d.toNat * 1048576 + a.toNat * 16384 + b.toNat * 256) rfl (by omega) rfl fun wd hw hwf => by
  have h0 : fld wd 26 6 = 5#6 := fld_eq wd 26 _ (by rw [hw]; show _ / 67108864 % 64 = 5; omega)
  have h1 : fld wd 0 6 = 2#6 := fld_eq wd 0 _ (by rw [hw]; show _ / 1 % 64 = 2; omega)
  have h2 : fld wd 20 6 = d := fld_eq wd 20 _ (by rw [hw]; show _ / 1048576 % 64 = _; omega)
  have h3 : fld wd 14 6 = a := fld_eq wd 14 _ (by rw [hw]; show _ / 16384 % 64 = _; omega)
  have h4 : fld wd 8 6 = b := fld_eq wd 8 _ (by rw [hw]; show _ / 256 % 64 = _; omega)
  have h5 : fld wd 6 2 = 1#2 := fld_eq wd 6 _ (by rw [hw]; show _ / 64 % 4 = 1; omega)
  unfold decodeForm; rw [h0]
  show decodePerm wd = _
  unfold decodePerm; rw [h1]
  show form (.sldn (fld wd 20 6) (fld wd 14 6) (fld wd 8 6)) (fld wd 6 2 == 1#2) = _
  simp only [h2, h3, h4, h5]
  exact form_ok _ _ hwf (by decide)
theorem vperm (d : BitVec 6) (a : BitVec 6) (b : BitVec 6) : Statement (.vperm d a b) :=
  strand_of (335544323 + d.toNat * 1048576 + a.toNat * 16384 + b.toNat * 256) rfl (by omega) rfl fun wd hw hwf => by
  have h0 : fld wd 26 6 = 5#6 := fld_eq wd 26 _ (by rw [hw]; show _ / 67108864 % 64 = 5; omega)
  have h1 : fld wd 0 6 = 3#6 := fld_eq wd 0 _ (by rw [hw]; show _ / 1 % 64 = 3; omega)
  have h2 : fld wd 20 6 = d := fld_eq wd 20 _ (by rw [hw]; show _ / 1048576 % 64 = _; omega)
  have h3 : fld wd 14 6 = a := fld_eq wd 14 _ (by rw [hw]; show _ / 16384 % 64 = _; omega)
  have h4 : fld wd 8 6 = b := fld_eq wd 8 _ (by rw [hw]; show _ / 256 % 64 = _; omega)
  have h5 : fld wd 6 2 = 0#2 := fld_eq wd 6 _ (by rw [hw]; show _ / 64 % 4 = 0; omega)
  unfold decodeForm; rw [h0]
  show decodePerm wd = _
  unfold decodePerm; rw [h1]
  show form (.vperm (fld wd 20 6) (fld wd 14 6) (fld wd 8 6)) (fld wd 6 2 == 0#2) = _
  simp only [h2, h3, h4, h5]
  exact form_ok _ _ hwf (by decide)
theorem compr (d : BitVec 6) (a : BitVec 6) : Statement (.compr d a) :=
  strand_of (335544324 + d.toNat * 1048576 + a.toNat * 16384) rfl (by omega) rfl fun wd hw hwf => by
  have h0 : fld wd 26 6 = 5#6 := fld_eq wd 26 _ (by rw [hw]; show _ / 67108864 % 64 = 5; omega)
  have h1 : fld wd 0 6 = 4#6 := fld_eq wd 0 _ (by rw [hw]; show _ / 1 % 64 = 4; omega)
  have h2 : fld wd 20 6 = d := fld_eq wd 20 _ (by rw [hw]; show _ / 1048576 % 64 = _; omega)
  have h3 : fld wd 14 6 = a := fld_eq wd 14 _ (by rw [hw]; show _ / 16384 % 64 = _; omega)
  have h4 : fld wd 6 8 = 0#8 := fld_eq wd 6 _ (by rw [hw]; show _ / 64 % 256 = 0; omega)
  unfold decodeForm; rw [h0]
  show decodePerm wd = _
  unfold decodePerm; rw [h1]
  show form (.compr (fld wd 20 6) (fld wd 14 6)) (fld wd 6 8 == 0#8) = _
  simp only [h2, h3, h4]
  exact form_ok _ _ hwf (by decide)
theorem expnd (d : BitVec 6) (a : BitVec 6) : Statement (.expnd d a) :=
  strand_of (335544325 + d.toNat * 1048576 + a.toNat * 16384) rfl (by omega) rfl fun wd hw hwf => by
  have h0 : fld wd 26 6 = 5#6 := fld_eq wd 26 _ (by rw [hw]; show _ / 67108864 % 64 = 5; omega)
  have h1 : fld wd 0 6 = 5#6 := fld_eq wd 0 _ (by rw [hw]; show _ / 1 % 64 = 5; omega)
  have h2 : fld wd 20 6 = d := fld_eq wd 20 _ (by rw [hw]; show _ / 1048576 % 64 = _; omega)
  have h3 : fld wd 14 6 = a := fld_eq wd 14 _ (by rw [hw]; show _ / 16384 % 64 = _; omega)
  have h4 : fld wd 6 8 = 0#8 := fld_eq wd 6 _ (by rw [hw]; show _ / 64 % 256 = 0; omega)
  unfold decodeForm; rw [h0]
  show decodePerm wd = _
  unfold decodePerm; rw [h1]
  show form (.expnd (fld wd 20 6) (fld wd 14 6)) (fld wd 6 8 == 0#8) = _
  simp only [h2, h3, h4]
  exact form_ok _ _ hwf (by decide)
theorem bcast (d : BitVec 6) (b : BitVec 6) : Statement (.bcast d b) :=
  strand_of (335544390 + d.toNat * 1048576 + b.toNat * 256) rfl (by omega) rfl fun wd hw hwf => by
  have h0 : fld wd 26 6 = 5#6 := fld_eq wd 26 _ (by rw [hw]; show _ / 67108864 % 64 = 5; omega)
  have h1 : fld wd 0 6 = 6#6 := fld_eq wd 0 _ (by rw [hw]; show _ / 1 % 64 = 6; omega)
  have h2 : fld wd 20 6 = d := fld_eq wd 20 _ (by rw [hw]; show _ / 1048576 % 64 = _; omega)
  have h3 : fld wd 8 6 = b := fld_eq wd 8 _ (by rw [hw]; show _ / 256 % 64 = _; omega)
  have h4 : fld wd 14 6 = 0#6 := fld_eq wd 14 _ (by rw [hw]; show _ / 16384 % 64 = 0; omega)
  have h5 : fld wd 6 2 = 1#2 := fld_eq wd 6 _ (by rw [hw]; show _ / 64 % 4 = 1; omega)
  unfold decodeForm; rw [h0]
  show decodePerm wd = _
  unfold decodePerm; rw [h1]
  show form (.bcast (fld wd 20 6) (fld wd 8 6)) (fld wd 14 6 == 0#6 && fld wd 6 2 == 1#2) = _
  simp only [h2, h3, h4, h5]
  exact form_ok _ _ hwf (by decide)
theorem iota (d : BitVec 6) : Statement (.iota d) :=
  strand_of (335544327 + d.toNat * 1048576) rfl (by omega) rfl fun wd hw hwf => by
  have h0 : fld wd 26 6 = 5#6 := fld_eq wd 26 _ (by rw [hw]; show _ / 67108864 % 64 = 5; omega)
  have h1 : fld wd 0 6 = 7#6 := fld_eq wd 0 _ (by rw [hw]; show _ / 1 % 64 = 7; omega)
  have h2 : fld wd 20 6 = d := fld_eq wd 20 _ (by rw [hw]; show _ / 1048576 % 64 = _; omega)
  have h3 : fld wd 6 14 = 0#14 := fld_eq wd 6 _ (by rw [hw]; show _ / 64 % 16384 = 0; omega)
  unfold decodeForm; rw [h0]
  show decodePerm wd = _
  unfold decodePerm; rw [h1]
  show form (.iota (fld wd 20 6)) (fld wd 6 14 == 0#14) = _
  simp only [h2, h3]
  exact form_ok _ _ hwf (by decide)
theorem zip (d : BitVec 6) (a : BitVec 6) (b : BitVec 6) : Statement (.zip d a b) :=
  strand_of (335544328 + d.toNat * 1048576 + a.toNat * 16384 + b.toNat * 256) rfl (by omega) rfl fun wd hw hwf => by
  have h0 : fld wd 26 6 = 5#6 := fld_eq wd 26 _ (by rw [hw]; show _ / 67108864 % 64 = 5; omega)
  have h1 : fld wd 0 6 = 8#6 := fld_eq wd 0 _ (by rw [hw]; show _ / 1 % 64 = 8; omega)
  have h2 : fld wd 20 6 = d := fld_eq wd 20 _ (by rw [hw]; show _ / 1048576 % 64 = _; omega)
  have h3 : fld wd 14 6 = a := fld_eq wd 14 _ (by rw [hw]; show _ / 16384 % 64 = _; omega)
  have h4 : fld wd 8 6 = b := fld_eq wd 8 _ (by rw [hw]; show _ / 256 % 64 = _; omega)
  have h5 : fld wd 6 2 = 0#2 := fld_eq wd 6 _ (by rw [hw]; show _ / 64 % 4 = 0; omega)
  unfold decodeForm; rw [h0]
  show decodePerm wd = _
  unfold decodePerm; rw [h1]
  show form (.zip (fld wd 20 6) (fld wd 14 6) (fld wd 8 6)) (fld wd 6 2 == 0#2) = _
  simp only [h2, h3, h4, h5]
  exact form_ok _ _ hwf (by decide)
theorem unzip (d : BitVec 6) (a : BitVec 6) (b : BitVec 6) : Statement (.unzip d a b) :=
  strand_of (335544329 + d.toNat * 1048576 + a.toNat * 16384 + b.toNat * 256) rfl (by omega) rfl fun wd hw hwf => by
  have h0 : fld wd 26 6 = 5#6 := fld_eq wd 26 _ (by rw [hw]; show _ / 67108864 % 64 = 5; omega)
  have h1 : fld wd 0 6 = 9#6 := fld_eq wd 0 _ (by rw [hw]; show _ / 1 % 64 = 9; omega)
  have h2 : fld wd 20 6 = d := fld_eq wd 20 _ (by rw [hw]; show _ / 1048576 % 64 = _; omega)
  have h3 : fld wd 14 6 = a := fld_eq wd 14 _ (by rw [hw]; show _ / 16384 % 64 = _; omega)
  have h4 : fld wd 8 6 = b := fld_eq wd 8 _ (by rw [hw]; show _ / 256 % 64 = _; omega)
  have h5 : fld wd 6 2 = 0#2 := fld_eq wd 6 _ (by rw [hw]; show _ / 64 % 4 = 0; omega)
  unfold decodeForm; rw [h0]
  show decodePerm wd = _
  unfold decodePerm; rw [h1]
  show form (.unzip (fld wd 20 6) (fld wd 14 6) (fld wd 8 6)) (fld wd 6 2 == 0#2) = _
  simp only [h2, h3, h4, h5]
  exact form_ok _ _ hwf (by decide)
theorem rsum (d : BitVec 6) (a : BitVec 6) : Statement (.rsum d a) :=
  strand_of (402653184 + d.toNat * 1048576 + a.toNat * 16384) rfl (by omega) rfl fun wd hw hwf => by
  have h0 : fld wd 26 6 = 6#6 := fld_eq wd 26 _ (by rw [hw]; show _ / 67108864 % 64 = 6; omega)
  have h1 : fld wd 0 6 = 0#6 := fld_eq wd 0 _ (by rw [hw]; show _ / 1 % 64 = 0; omega)
  have h2 : fld wd 20 6 = d := fld_eq wd 20 _ (by rw [hw]; show _ / 1048576 % 64 = _; omega)
  have h3 : fld wd 14 6 = a := fld_eq wd 14 _ (by rw [hw]; show _ / 16384 % 64 = _; omega)
  have h4 : fld wd 6 8 = 0#8 := fld_eq wd 6 _ (by rw [hw]; show _ / 64 % 256 = 0; omega)
  unfold decodeForm; rw [h0]
  show decodeIred wd = _
  unfold decodeIred; rw [h1]
  show form (.rsum (fld wd 20 6) (fld wd 14 6)) (fld wd 6 8 == 0#8) = _
  simp only [h2, h3, h4]
  exact form_ok _ _ hwf (by decide)
theorem rmin (d : BitVec 6) (a : BitVec 6) : Statement (.rmin d a) :=
  strand_of (402653185 + d.toNat * 1048576 + a.toNat * 16384) rfl (by omega) rfl fun wd hw hwf => by
  have h0 : fld wd 26 6 = 6#6 := fld_eq wd 26 _ (by rw [hw]; show _ / 67108864 % 64 = 6; omega)
  have h1 : fld wd 0 6 = 1#6 := fld_eq wd 0 _ (by rw [hw]; show _ / 1 % 64 = 1; omega)
  have h2 : fld wd 20 6 = d := fld_eq wd 20 _ (by rw [hw]; show _ / 1048576 % 64 = _; omega)
  have h3 : fld wd 14 6 = a := fld_eq wd 14 _ (by rw [hw]; show _ / 16384 % 64 = _; omega)
  have h4 : fld wd 6 8 = 0#8 := fld_eq wd 6 _ (by rw [hw]; show _ / 64 % 256 = 0; omega)
  unfold decodeForm; rw [h0]
  show decodeIred wd = _
  unfold decodeIred; rw [h1]
  show form (.rmin (fld wd 20 6) (fld wd 14 6)) (fld wd 6 8 == 0#8) = _
  simp only [h2, h3, h4]
  exact form_ok _ _ hwf (by decide)
theorem rmax (d : BitVec 6) (a : BitVec 6) : Statement (.rmax d a) :=
  strand_of (402653186 + d.toNat * 1048576 + a.toNat * 16384) rfl (by omega) rfl fun wd hw hwf => by
  have h0 : fld wd 26 6 = 6#6 := fld_eq wd 26 _ (by rw [hw]; show _ / 67108864 % 64 = 6; omega)
  have h1 : fld wd 0 6 = 2#6 := fld_eq wd 0 _ (by rw [hw]; show _ / 1 % 64 = 2; omega)
  have h2 : fld wd 20 6 = d := fld_eq wd 20 _ (by rw [hw]; show _ / 1048576 % 64 = _; omega)
  have h3 : fld wd 14 6 = a := fld_eq wd 14 _ (by rw [hw]; show _ / 16384 % 64 = _; omega)
  have h4 : fld wd 6 8 = 0#8 := fld_eq wd 6 _ (by rw [hw]; show _ / 64 % 256 = 0; omega)
  unfold decodeForm; rw [h0]
  show decodeIred wd = _
  unfold decodeIred; rw [h1]
  show form (.rmax (fld wd 20 6) (fld wd 14 6)) (fld wd 6 8 == 0#8) = _
  simp only [h2, h3, h4]
  exact form_ok _ _ hwf (by decide)
theorem rand (d : BitVec 6) (a : BitVec 6) : Statement (.rand d a) :=
  strand_of (402653187 + d.toNat * 1048576 + a.toNat * 16384) rfl (by omega) rfl fun wd hw hwf => by
  have h0 : fld wd 26 6 = 6#6 := fld_eq wd 26 _ (by rw [hw]; show _ / 67108864 % 64 = 6; omega)
  have h1 : fld wd 0 6 = 3#6 := fld_eq wd 0 _ (by rw [hw]; show _ / 1 % 64 = 3; omega)
  have h2 : fld wd 20 6 = d := fld_eq wd 20 _ (by rw [hw]; show _ / 1048576 % 64 = _; omega)
  have h3 : fld wd 14 6 = a := fld_eq wd 14 _ (by rw [hw]; show _ / 16384 % 64 = _; omega)
  have h4 : fld wd 6 8 = 0#8 := fld_eq wd 6 _ (by rw [hw]; show _ / 64 % 256 = 0; omega)
  unfold decodeForm; rw [h0]
  show decodeIred wd = _
  unfold decodeIred; rw [h1]
  show form (.rand (fld wd 20 6) (fld wd 14 6)) (fld wd 6 8 == 0#8) = _
  simp only [h2, h3, h4]
  exact form_ok _ _ hwf (by decide)
theorem ror (d : BitVec 6) (a : BitVec 6) : Statement (.ror d a) :=
  strand_of (402653188 + d.toNat * 1048576 + a.toNat * 16384) rfl (by omega) rfl fun wd hw hwf => by
  have h0 : fld wd 26 6 = 6#6 := fld_eq wd 26 _ (by rw [hw]; show _ / 67108864 % 64 = 6; omega)
  have h1 : fld wd 0 6 = 4#6 := fld_eq wd 0 _ (by rw [hw]; show _ / 1 % 64 = 4; omega)
  have h2 : fld wd 20 6 = d := fld_eq wd 20 _ (by rw [hw]; show _ / 1048576 % 64 = _; omega)
  have h3 : fld wd 14 6 = a := fld_eq wd 14 _ (by rw [hw]; show _ / 16384 % 64 = _; omega)
  have h4 : fld wd 6 8 = 0#8 := fld_eq wd 6 _ (by rw [hw]; show _ / 64 % 256 = 0; omega)
  unfold decodeForm; rw [h0]
  show decodeIred wd = _
  unfold decodeIred; rw [h1]
  show form (.ror (fld wd 20 6) (fld wd 14 6)) (fld wd 6 8 == 0#8) = _
  simp only [h2, h3, h4]
  exact form_ok _ _ hwf (by decide)
theorem rxor (d : BitVec 6) (a : BitVec 6) : Statement (.rxor d a) :=
  strand_of (402653189 + d.toNat * 1048576 + a.toNat * 16384) rfl (by omega) rfl fun wd hw hwf => by
  have h0 : fld wd 26 6 = 6#6 := fld_eq wd 26 _ (by rw [hw]; show _ / 67108864 % 64 = 6; omega)
  have h1 : fld wd 0 6 = 5#6 := fld_eq wd 0 _ (by rw [hw]; show _ / 1 % 64 = 5; omega)
  have h2 : fld wd 20 6 = d := fld_eq wd 20 _ (by rw [hw]; show _ / 1048576 % 64 = _; omega)
  have h3 : fld wd 14 6 = a := fld_eq wd 14 _ (by rw [hw]; show _ / 16384 % 64 = _; omega)
  have h4 : fld wd 6 8 = 0#8 := fld_eq wd 6 _ (by rw [hw]; show _ / 64 % 256 = 0; omega)
  unfold decodeForm; rw [h0]
  show decodeIred wd = _
  unfold decodeIred; rw [h1]
  show form (.rxor (fld wd 20 6) (fld wd 14 6)) (fld wd 6 8 == 0#8) = _
  simp only [h2, h3, h4]
  exact form_ok _ _ hwf (by decide)
theorem vstrip (d : BitVec 6) (a : BitVec 6) : Statement (.vstrip d a) :=
  strand_of (469762176 + d.toNat * 1048576 + a.toNat * 16384) rfl (by omega) rfl fun wd hw hwf => by
  have h0 : fld wd 26 6 = 7#6 := fld_eq wd 26 _ (by rw [hw]; show _ / 67108864 % 64 = 7; omega)
  have h1 : fld wd 0 6 = 0#6 := fld_eq wd 0 _ (by rw [hw]; show _ / 1 % 64 = 0; omega)
  have h2 : fld wd 20 6 = d := fld_eq wd 20 _ (by rw [hw]; show _ / 1048576 % 64 = _; omega)
  have h3 : fld wd 14 6 = a := fld_eq wd 14 _ (by rw [hw]; show _ / 16384 % 64 = _; omega)
  have h4 : fld wd 6 8 = 2#8 := fld_eq wd 6 _ (by rw [hw]; show _ / 64 % 256 = 2; omega)
  unfold decodeForm; rw [h0]
  show decodeVctl wd = _
  unfold decodeVctl; rw [h1]
  show form (.vstrip (fld wd 20 6) (fld wd 14 6)) (fld wd 6 8 == 2#8) = _
  simp only [h2, h3, h4]
  exact form_ok _ _ hwf (by decide)
theorem vnext (d : BitVec 6) : Statement (.vnext d) :=
  strand_of (469762177 + d.toNat * 1048576) rfl (by omega) rfl fun wd hw hwf => by
  have h0 : fld wd 26 6 = 7#6 := fld_eq wd 26 _ (by rw [hw]; show _ / 67108864 % 64 = 7; omega)
  have h1 : fld wd 0 6 = 1#6 := fld_eq wd 0 _ (by rw [hw]; show _ / 1 % 64 = 1; omega)
  have h2 : fld wd 20 6 = d := fld_eq wd 20 _ (by rw [hw]; show _ / 1048576 % 64 = _; omega)
  have h3 : fld wd 6 14 = 2#14 := fld_eq wd 6 _ (by rw [hw]; show _ / 64 % 16384 = 2; omega)
  unfold decodeForm; rw [h0]
  show decodeVctl wd = _
  unfold decodeVctl; rw [h1]
  show form (.vnext (fld wd 20 6)) (fld wd 6 14 == 2#14) = _
  simp only [h2, h3]
  exact form_ok _ _ hwf (by decide)
theorem shape (d : BitVec 6) (a : BitVec 6) (b : BitVec 6) : Statement (.shape d a b) :=
  strand_of (469762178 + d.toNat * 1048576 + a.toNat * 16384 + b.toNat * 256) rfl (by omega) rfl fun wd hw hwf => by
  have h0 : fld wd 26 6 = 7#6 := fld_eq wd 26 _ (by rw [hw]; show _ / 67108864 % 64 = 7; omega)
  have h1 : fld wd 0 6 = 2#6 := fld_eq wd 0 _ (by rw [hw]; show _ / 1 % 64 = 2; omega)
  have h2 : fld wd 20 6 = d := fld_eq wd 20 _ (by rw [hw]; show _ / 1048576 % 64 = _; omega)
  have h3 : fld wd 14 6 = a := fld_eq wd 14 _ (by rw [hw]; show _ / 16384 % 64 = _; omega)
  have h4 : fld wd 8 6 = b := fld_eq wd 8 _ (by rw [hw]; show _ / 256 % 64 = _; omega)
  have h5 : fld wd 6 2 = 2#2 := fld_eq wd 6 _ (by rw [hw]; show _ / 64 % 4 = 2; omega)
  unfold decodeForm; rw [h0]
  show decodeVctl wd = _
  unfold decodeVctl; rw [h1]
  show form (.shape (fld wd 20 6) (fld wd 14 6) (fld wd 8 6)) (fld wd 6 2 == 2#2) = _
  simp only [h2, h3, h4, h5]
  exact form_ok _ _ hwf (by decide)
theorem vlq (d : BitVec 6) (a : BitVec 6) : Statement (.vlq d a) :=
  strand_of (469762179 + d.toNat * 1048576 + a.toNat * 16384) rfl (by omega) rfl fun wd hw hwf => by
  have h0 : fld wd 26 6 = 7#6 := fld_eq wd 26 _ (by rw [hw]; show _ / 67108864 % 64 = 7; omega)
  have h1 : fld wd 0 6 = 3#6 := fld_eq wd 0 _ (by rw [hw]; show _ / 1 % 64 = 3; omega)
  have h2 : fld wd 20 6 = d := fld_eq wd 20 _ (by rw [hw]; show _ / 1048576 % 64 = _; omega)
  have h3 : fld wd 14 6 = a := fld_eq wd 14 _ (by rw [hw]; show _ / 16384 % 64 = _; omega)
  have h4 : fld wd 6 8 = 2#8 := fld_eq wd 6 _ (by rw [hw]; show _ / 64 % 256 = 2; omega)
  unfold decodeForm; rw [h0]
  show decodeVctl wd = _
  unfold decodeVctl; rw [h1]
  show form (.vlq (fld wd 20 6) (fld wd 14 6)) (fld wd 6 8 == 2#8) = _
  simp only [h2, h3, h4]
  exact form_ok _ _ hwf (by decide)
theorem dcol (d : BitVec 6) (a : BitVec 6) : Statement (.dcol d a) :=
  strand_of (469762180 + d.toNat * 1048576 + a.toNat * 16384) rfl (by omega) rfl fun wd hw hwf => by
  have h0 : fld wd 26 6 = 7#6 := fld_eq wd 26 _ (by rw [hw]; show _ / 67108864 % 64 = 7; omega)
  have h1 : fld wd 0 6 = 4#6 := fld_eq wd 0 _ (by rw [hw]; show _ / 1 % 64 = 4; omega)
  have h2 : fld wd 20 6 = d := fld_eq wd 20 _ (by rw [hw]; show _ / 1048576 % 64 = _; omega)
  have h3 : fld wd 14 6 = a := fld_eq wd 14 _ (by rw [hw]; show _ / 16384 % 64 = _; omega)
  have h4 : fld wd 6 8 = 2#8 := fld_eq wd 6 _ (by rw [hw]; show _ / 64 % 256 = 2; omega)
  unfold decodeForm; rw [h0]
  show decodeVctl wd = _
  unfold decodeVctl; rw [h1]
  show form (.dcol (fld wd 20 6) (fld wd 14 6)) (fld wd 6 8 == 2#8) = _
  simp only [h2, h3, h4]
  exact form_ok _ _ hwf (by decide)
theorem setmode (a : BitVec 6) : Statement (.setmode a) :=
  strand_of (469762181 + a.toNat * 16384) rfl (by omega) rfl fun wd hw hwf => by
  have h0 : fld wd 26 6 = 7#6 := fld_eq wd 26 _ (by rw [hw]; show _ / 67108864 % 64 = 7; omega)
  have h1 : fld wd 0 6 = 5#6 := fld_eq wd 0 _ (by rw [hw]; show _ / 1 % 64 = 5; omega)
  have h2 : fld wd 14 6 = a := fld_eq wd 14 _ (by rw [hw]; show _ / 16384 % 64 = _; omega)
  have h3 : fld wd 20 6 = 0#6 := fld_eq wd 20 _ (by rw [hw]; show _ / 1048576 % 64 = 0; omega)
  have h4 : fld wd 6 8 = 2#8 := fld_eq wd 6 _ (by rw [hw]; show _ / 64 % 256 = 2; omega)
  unfold decodeForm; rw [h0]
  show decodeVctl wd = _
  unfold decodeVctl; rw [h1]
  show form (.setmode (fld wd 14 6)) (fld wd 20 6 == 0#6 && fld wd 6 8 == 2#8) = _
  simp only [h2, h3, h4]
  exact form_ok _ _ hwf (by decide)
theorem getmode (d : BitVec 6) : Statement (.getmode d) :=
  strand_of (469762182 + d.toNat * 1048576) rfl (by omega) rfl fun wd hw hwf => by
  have h0 : fld wd 26 6 = 7#6 := fld_eq wd 26 _ (by rw [hw]; show _ / 67108864 % 64 = 7; omega)
  have h1 : fld wd 0 6 = 6#6 := fld_eq wd 0 _ (by rw [hw]; show _ / 1 % 64 = 6; omega)
  have h2 : fld wd 20 6 = d := fld_eq wd 20 _ (by rw [hw]; show _ / 1048576 % 64 = _; omega)
  have h3 : fld wd 6 14 = 2#14 := fld_eq wd 6 _ (by rw [hw]; show _ / 64 % 16384 = 2; omega)
  unfold decodeForm; rw [h0]
  show decodeVctl wd = _
  unfold decodeVctl; rw [h1]
  show form (.getmode (fld wd 20 6)) (fld wd 6 14 == 2#14) = _
  simp only [h2, h3]
  exact form_ok _ _ hwf (by decide)
theorem setmodeImm (i : BitVec 20) : Statement (.setmodeImm i) :=
  strand_of (872415232 + i.toNat * 1) rfl (by omega) rfl fun wd hw hwf => by
  have h0 : fld wd 26 6 = 13#6 := fld_eq wd 26 _ (by rw [hw]; show _ / 67108864 % 64 = 13; omega)
  have h1 : fld wd 0 20 = i := fld_eq wd 0 _ (by rw [hw]; show _ / 1 % 1048576 = _; omega)
  have h2 : fld wd 20 6 = 0#6 := fld_eq wd 20 _ (by rw [hw]; show _ / 1048576 % 64 = 0; omega)
  unfold decodeForm; rw [h0]
  show form (.setmodeImm (fld wd 0 20)) (fld wd 20 6 == 0#6) = _
  simp only [h1, h2]
  exact form_ok _ _ hwf (by decide)
theorem addi (d : BitVec 6) (a : BitVec 6) (s : BitVec 1) (i : BitVec 13) : Statement (.addi d a s i) :=
  strand_of (536870912 + d.toNat * 1048576 + a.toNat * 16384 + s.toNat * 8192 + i.toNat * 1) rfl (by omega) rfl fun wd hw hwf => by
  have h0 : fld wd 26 6 = 8#6 := fld_eq wd 26 _ (by rw [hw]; show _ / 67108864 % 64 = 8; omega)
  have h1 : fld wd 20 6 = d := fld_eq wd 20 _ (by rw [hw]; show _ / 1048576 % 64 = _; omega)
  have h2 : fld wd 14 6 = a := fld_eq wd 14 _ (by rw [hw]; show _ / 16384 % 64 = _; omega)
  have h3 : fld wd 13 1 = s := fld_eq wd 13 _ (by rw [hw]; show _ / 8192 % 2 = _; omega)
  have h4 : fld wd 0 13 = i := fld_eq wd 0 _ (by rw [hw]; show _ / 1 % 8192 = _; omega)
  unfold decodeForm; rw [h0]
  show form (.addi (fld wd 20 6) (fld wd 14 6) (fld wd 13 1) (fld wd 0 13)) (true) = _
  simp only [h1, h2, h3, h4]
  exact form_ok _ _ hwf rfl
theorem andi (d : BitVec 6) (a : BitVec 6) (s : BitVec 1) (i : BitVec 13) : Statement (.andi d a s i) :=
  strand_of (603979776 + d.toNat * 1048576 + a.toNat * 16384 + s.toNat * 8192 + i.toNat * 1) rfl (by omega) rfl fun wd hw hwf => by
  have h0 : fld wd 26 6 = 9#6 := fld_eq wd 26 _ (by rw [hw]; show _ / 67108864 % 64 = 9; omega)
  have h1 : fld wd 20 6 = d := fld_eq wd 20 _ (by rw [hw]; show _ / 1048576 % 64 = _; omega)
  have h2 : fld wd 14 6 = a := fld_eq wd 14 _ (by rw [hw]; show _ / 16384 % 64 = _; omega)
  have h3 : fld wd 13 1 = s := fld_eq wd 13 _ (by rw [hw]; show _ / 8192 % 2 = _; omega)
  have h4 : fld wd 0 13 = i := fld_eq wd 0 _ (by rw [hw]; show _ / 1 % 8192 = _; omega)
  unfold decodeForm; rw [h0]
  show form (.andi (fld wd 20 6) (fld wd 14 6) (fld wd 13 1) (fld wd 0 13)) (true) = _
  simp only [h1, h2, h3, h4]
  exact form_ok _ _ hwf rfl
theorem ori (d : BitVec 6) (a : BitVec 6) (s : BitVec 1) (i : BitVec 13) : Statement (.ori d a s i) :=
  strand_of (671088640 + d.toNat * 1048576 + a.toNat * 16384 + s.toNat * 8192 + i.toNat * 1) rfl (by omega) rfl fun wd hw hwf => by
  have h0 : fld wd 26 6 = 10#6 := fld_eq wd 26 _ (by rw [hw]; show _ / 67108864 % 64 = 10; omega)
  have h1 : fld wd 20 6 = d := fld_eq wd 20 _ (by rw [hw]; show _ / 1048576 % 64 = _; omega)
  have h2 : fld wd 14 6 = a := fld_eq wd 14 _ (by rw [hw]; show _ / 16384 % 64 = _; omega)
  have h3 : fld wd 13 1 = s := fld_eq wd 13 _ (by rw [hw]; show _ / 8192 % 2 = _; omega)
  have h4 : fld wd 0 13 = i := fld_eq wd 0 _ (by rw [hw]; show _ / 1 % 8192 = _; omega)
  unfold decodeForm; rw [h0]
  show form (.ori (fld wd 20 6) (fld wd 14 6) (fld wd 13 1) (fld wd 0 13)) (true) = _
  simp only [h1, h2, h3, h4]
  exact form_ok _ _ hwf rfl
theorem xori (d : BitVec 6) (a : BitVec 6) (s : BitVec 1) (i : BitVec 13) : Statement (.xori d a s i) :=
  strand_of (738197504 + d.toNat * 1048576 + a.toNat * 16384 + s.toNat * 8192 + i.toNat * 1) rfl (by omega) rfl fun wd hw hwf => by
  have h0 : fld wd 26 6 = 11#6 := fld_eq wd 26 _ (by rw [hw]; show _ / 67108864 % 64 = 11; omega)
  have h1 : fld wd 20 6 = d := fld_eq wd 20 _ (by rw [hw]; show _ / 1048576 % 64 = _; omega)
  have h2 : fld wd 14 6 = a := fld_eq wd 14 _ (by rw [hw]; show _ / 16384 % 64 = _; omega)
  have h3 : fld wd 13 1 = s := fld_eq wd 13 _ (by rw [hw]; show _ / 8192 % 2 = _; omega)
  have h4 : fld wd 0 13 = i := fld_eq wd 0 _ (by rw [hw]; show _ / 1 % 8192 = _; omega)
  unfold decodeForm; rw [h0]
  show form (.xori (fld wd 20 6) (fld wd 14 6) (fld wd 13 1) (fld wd 0 13)) (true) = _
  simp only [h1, h2, h3, h4]
  exact form_ok _ _ hwf rfl
theorem shli (d : BitVec 6) (a : BitVec 6) (s : BitVec 1) (c : BitVec 6) : Statement (.shli d a s c) :=
  strand_of (805306368 + d.toNat * 1048576 + a.toNat * 16384 + s.toNat * 8192 + c.toNat * 1) rfl (by omega) rfl fun wd hw hwf => by
  have h0 : fld wd 26 6 = 12#6 := fld_eq wd 26 _ (by rw [hw]; show _ / 67108864 % 64 = 12; omega)
  have h1 : fld wd 11 2 = 0#2 := fld_eq wd 11 _ (by rw [hw]; show _ / 2048 % 4 = 0; omega)
  have h2 : fld wd 20 6 = d := fld_eq wd 20 _ (by rw [hw]; show _ / 1048576 % 64 = _; omega)
  have h3 : fld wd 14 6 = a := fld_eq wd 14 _ (by rw [hw]; show _ / 16384 % 64 = _; omega)
  have h4 : fld wd 13 1 = s := fld_eq wd 13 _ (by rw [hw]; show _ / 8192 % 2 = _; omega)
  have h5 : fld wd 0 6 = c := fld_eq wd 0 _ (by rw [hw]; show _ / 1 % 64 = _; omega)
  have h6 : fld wd 6 5 = 0#5 := fld_eq wd 6 _ (by rw [hw]; show _ / 64 % 32 = 0; omega)
  unfold decodeForm; rw [h0]
  show decodeShi wd = _
  unfold decodeShi; rw [h1]
  show form (.shli (fld wd 20 6) (fld wd 14 6) (fld wd 13 1) (fld wd 0 6)) (fld wd 6 5 == 0#5) = _
  simp only [h2, h3, h4, h5, h6]
  exact form_ok _ _ hwf (by decide)
theorem shri (d : BitVec 6) (a : BitVec 6) (s : BitVec 1) (c : BitVec 6) : Statement (.shri d a s c) :=
  strand_of (805308416 + d.toNat * 1048576 + a.toNat * 16384 + s.toNat * 8192 + c.toNat * 1) rfl (by omega) rfl fun wd hw hwf => by
  have h0 : fld wd 26 6 = 12#6 := fld_eq wd 26 _ (by rw [hw]; show _ / 67108864 % 64 = 12; omega)
  have h1 : fld wd 11 2 = 1#2 := fld_eq wd 11 _ (by rw [hw]; show _ / 2048 % 4 = 1; omega)
  have h2 : fld wd 20 6 = d := fld_eq wd 20 _ (by rw [hw]; show _ / 1048576 % 64 = _; omega)
  have h3 : fld wd 14 6 = a := fld_eq wd 14 _ (by rw [hw]; show _ / 16384 % 64 = _; omega)
  have h4 : fld wd 13 1 = s := fld_eq wd 13 _ (by rw [hw]; show _ / 8192 % 2 = _; omega)
  have h5 : fld wd 0 6 = c := fld_eq wd 0 _ (by rw [hw]; show _ / 1 % 64 = _; omega)
  have h6 : fld wd 6 5 = 0#5 := fld_eq wd 6 _ (by rw [hw]; show _ / 64 % 32 = 0; omega)
  unfold decodeForm; rw [h0]
  show decodeShi wd = _
  unfold decodeShi; rw [h1]
  show form (.shri (fld wd 20 6) (fld wd 14 6) (fld wd 13 1) (fld wd 0 6)) (fld wd 6 5 == 0#5) = _
  simp only [h2, h3, h4, h5, h6]
  exact form_ok _ _ hwf (by decide)
theorem shrai (d : BitVec 6) (a : BitVec 6) (s : BitVec 1) (c : BitVec 6) : Statement (.shrai d a s c) :=
  strand_of (805310464 + d.toNat * 1048576 + a.toNat * 16384 + s.toNat * 8192 + c.toNat * 1) rfl (by omega) rfl fun wd hw hwf => by
  have h0 : fld wd 26 6 = 12#6 := fld_eq wd 26 _ (by rw [hw]; show _ / 67108864 % 64 = 12; omega)
  have h1 : fld wd 11 2 = 2#2 := fld_eq wd 11 _ (by rw [hw]; show _ / 2048 % 4 = 2; omega)
  have h2 : fld wd 20 6 = d := fld_eq wd 20 _ (by rw [hw]; show _ / 1048576 % 64 = _; omega)
  have h3 : fld wd 14 6 = a := fld_eq wd 14 _ (by rw [hw]; show _ / 16384 % 64 = _; omega)
  have h4 : fld wd 13 1 = s := fld_eq wd 13 _ (by rw [hw]; show _ / 8192 % 2 = _; omega)
  have h5 : fld wd 0 6 = c := fld_eq wd 0 _ (by rw [hw]; show _ / 1 % 64 = _; omega)
  have h6 : fld wd 6 5 = 0#5 := fld_eq wd 6 _ (by rw [hw]; show _ / 64 % 32 = 0; omega)
  unfold decodeForm; rw [h0]
  show decodeShi wd = _
  unfold decodeShi; rw [h1]
  show form (.shrai (fld wd 20 6) (fld wd 14 6) (fld wd 13 1) (fld wd 0 6)) (fld wd 6 5 == 0#5) = _
  simp only [h2, h3, h4, h5, h6]
  exact form_ok _ _ hwf (by decide)
theorem roli (d : BitVec 6) (a : BitVec 6) (s : BitVec 1) (c : BitVec 6) : Statement (.roli d a s c) :=
  strand_of (805312512 + d.toNat * 1048576 + a.toNat * 16384 + s.toNat * 8192 + c.toNat * 1) rfl (by omega) rfl fun wd hw hwf => by
  have h0 : fld wd 26 6 = 12#6 := fld_eq wd 26 _ (by rw [hw]; show _ / 67108864 % 64 = 12; omega)
  have h1 : fld wd 11 2 = 3#2 := fld_eq wd 11 _ (by rw [hw]; show _ / 2048 % 4 = 3; omega)
  have h2 : fld wd 20 6 = d := fld_eq wd 20 _ (by rw [hw]; show _ / 1048576 % 64 = _; omega)
  have h3 : fld wd 14 6 = a := fld_eq wd 14 _ (by rw [hw]; show _ / 16384 % 64 = _; omega)
  have h4 : fld wd 13 1 = s := fld_eq wd 13 _ (by rw [hw]; show _ / 8192 % 2 = _; omega)
  have h5 : fld wd 0 6 = c := fld_eq wd 0 _ (by rw [hw]; show _ / 1 % 64 = _; omega)
  have h6 : fld wd 6 5 = 0#5 := fld_eq wd 6 _ (by rw [hw]; show _ / 64 % 32 = 0; omega)
  unfold decodeForm; rw [h0]
  show decodeShi wd = _
  unfold decodeShi; rw [h1]
  show form (.roli (fld wd 20 6) (fld wd 14 6) (fld wd 13 1) (fld wd 0 6)) (fld wd 6 5 == 0#5) = _
  simp only [h2, h3, h4, h5, h6]
  exact form_ok _ _ hwf (by decide)
theorem lui (d : BitVec 6) (i : BitVec 20) : Statement (.lui d i) :=
  strand_of (939524096 + d.toNat * 1048576 + i.toNat * 1) rfl (by omega) rfl fun wd hw hwf => by
  have h0 : fld wd 26 6 = 14#6 := fld_eq wd 26 _ (by rw [hw]; show _ / 67108864 % 64 = 14; omega)
  have h1 : fld wd 20 6 = d := fld_eq wd 20 _ (by rw [hw]; show _ / 1048576 % 64 = _; omega)
  have h2 : fld wd 0 20 = i := fld_eq wd 0 _ (by rw [hw]; show _ / 1 % 1048576 = _; omega)
  unfold decodeForm; rw [h0]
  show form (.lui (fld wd 20 6) (fld wd 0 20)) (true) = _
  simp only [h1, h2]
  exact form_ok _ _ hwf rfl
theorem adpc (d : BitVec 6) (i : BitVec 20) : Statement (.adpc d i) :=
  strand_of (1006632960 + d.toNat * 1048576 + i.toNat * 1) rfl (by omega) rfl fun wd hw hwf => by
  have h0 : fld wd 26 6 = 15#6 := fld_eq wd 26 _ (by rw [hw]; show _ / 67108864 % 64 = 15; omega)
  have h1 : fld wd 20 6 = d := fld_eq wd 20 _ (by rw [hw]; show _ / 1048576 % 64 = _; omega)
  have h2 : fld wd 0 20 = i := fld_eq wd 0 _ (by rw [hw]; show _ / 1 % 1048576 = _; omega)
  unfold decodeForm; rw [h0]
  show form (.adpc (fld wd 20 6) (fld wd 0 20)) (true) = _
  simp only [h1, h2]
  exact form_ok _ _ hwf rfl
theorem beq (a : BitVec 6) (b : BitVec 6) (o : BitVec 10) : Statement (.beq a b o) :=
  strand_of (1073741824 + a.toNat * 65536 + b.toNat * 1024 + o.toNat * 1) rfl (by omega) rfl fun wd hw hwf => by
  have h0 : fld wd 26 6 = 16#6 := fld_eq wd 26 _ (by rw [hw]; show _ / 67108864 % 64 = 16; omega)
  have h1 : fld wd 22 4 = 0#4 := fld_eq wd 22 _ (by rw [hw]; show _ / 4194304 % 16 = 0; omega)
  have h2 : fld wd 16 6 = a := fld_eq wd 16 _ (by rw [hw]; show _ / 65536 % 64 = _; omega)
  have h3 : fld wd 10 6 = b := fld_eq wd 10 _ (by rw [hw]; show _ / 1024 % 64 = _; omega)
  have h4 : fld wd 0 10 = o := fld_eq wd 0 _ (by rw [hw]; show _ / 1 % 1024 = _; omega)
  unfold decodeForm; rw [h0]
  show decodeBr wd = _
  unfold decodeBr; rw [h1]
  show form (.beq (fld wd 16 6) (fld wd 10 6) (fld wd 0 10)) (true) = _
  simp only [h2, h3, h4]
  exact form_ok _ _ hwf rfl
theorem bne (a : BitVec 6) (b : BitVec 6) (o : BitVec 10) : Statement (.bne a b o) :=
  strand_of (1077936128 + a.toNat * 65536 + b.toNat * 1024 + o.toNat * 1) rfl (by omega) rfl fun wd hw hwf => by
  have h0 : fld wd 26 6 = 16#6 := fld_eq wd 26 _ (by rw [hw]; show _ / 67108864 % 64 = 16; omega)
  have h1 : fld wd 22 4 = 1#4 := fld_eq wd 22 _ (by rw [hw]; show _ / 4194304 % 16 = 1; omega)
  have h2 : fld wd 16 6 = a := fld_eq wd 16 _ (by rw [hw]; show _ / 65536 % 64 = _; omega)
  have h3 : fld wd 10 6 = b := fld_eq wd 10 _ (by rw [hw]; show _ / 1024 % 64 = _; omega)
  have h4 : fld wd 0 10 = o := fld_eq wd 0 _ (by rw [hw]; show _ / 1 % 1024 = _; omega)
  unfold decodeForm; rw [h0]
  show decodeBr wd = _
  unfold decodeBr; rw [h1]
  show form (.bne (fld wd 16 6) (fld wd 10 6) (fld wd 0 10)) (true) = _
  simp only [h2, h3, h4]
  exact form_ok _ _ hwf rfl
theorem blt (a : BitVec 6) (b : BitVec 6) (o : BitVec 10) : Statement (.blt a b o) :=
  strand_of (1082130432 + a.toNat * 65536 + b.toNat * 1024 + o.toNat * 1) rfl (by omega) rfl fun wd hw hwf => by
  have h0 : fld wd 26 6 = 16#6 := fld_eq wd 26 _ (by rw [hw]; show _ / 67108864 % 64 = 16; omega)
  have h1 : fld wd 22 4 = 2#4 := fld_eq wd 22 _ (by rw [hw]; show _ / 4194304 % 16 = 2; omega)
  have h2 : fld wd 16 6 = a := fld_eq wd 16 _ (by rw [hw]; show _ / 65536 % 64 = _; omega)
  have h3 : fld wd 10 6 = b := fld_eq wd 10 _ (by rw [hw]; show _ / 1024 % 64 = _; omega)
  have h4 : fld wd 0 10 = o := fld_eq wd 0 _ (by rw [hw]; show _ / 1 % 1024 = _; omega)
  unfold decodeForm; rw [h0]
  show decodeBr wd = _
  unfold decodeBr; rw [h1]
  show form (.blt (fld wd 16 6) (fld wd 10 6) (fld wd 0 10)) (true) = _
  simp only [h2, h3, h4]
  exact form_ok _ _ hwf rfl
theorem bge (a : BitVec 6) (b : BitVec 6) (o : BitVec 10) : Statement (.bge a b o) :=
  strand_of (1086324736 + a.toNat * 65536 + b.toNat * 1024 + o.toNat * 1) rfl (by omega) rfl fun wd hw hwf => by
  have h0 : fld wd 26 6 = 16#6 := fld_eq wd 26 _ (by rw [hw]; show _ / 67108864 % 64 = 16; omega)
  have h1 : fld wd 22 4 = 3#4 := fld_eq wd 22 _ (by rw [hw]; show _ / 4194304 % 16 = 3; omega)
  have h2 : fld wd 16 6 = a := fld_eq wd 16 _ (by rw [hw]; show _ / 65536 % 64 = _; omega)
  have h3 : fld wd 10 6 = b := fld_eq wd 10 _ (by rw [hw]; show _ / 1024 % 64 = _; omega)
  have h4 : fld wd 0 10 = o := fld_eq wd 0 _ (by rw [hw]; show _ / 1 % 1024 = _; omega)
  unfold decodeForm; rw [h0]
  show decodeBr wd = _
  unfold decodeBr; rw [h1]
  show form (.bge (fld wd 16 6) (fld wd 10 6) (fld wd 0 10)) (true) = _
  simp only [h2, h3, h4]
  exact form_ok _ _ hwf rfl
theorem bltu (a : BitVec 6) (b : BitVec 6) (o : BitVec 10) : Statement (.bltu a b o) :=
  strand_of (1090519040 + a.toNat * 65536 + b.toNat * 1024 + o.toNat * 1) rfl (by omega) rfl fun wd hw hwf => by
  have h0 : fld wd 26 6 = 16#6 := fld_eq wd 26 _ (by rw [hw]; show _ / 67108864 % 64 = 16; omega)
  have h1 : fld wd 22 4 = 4#4 := fld_eq wd 22 _ (by rw [hw]; show _ / 4194304 % 16 = 4; omega)
  have h2 : fld wd 16 6 = a := fld_eq wd 16 _ (by rw [hw]; show _ / 65536 % 64 = _; omega)
  have h3 : fld wd 10 6 = b := fld_eq wd 10 _ (by rw [hw]; show _ / 1024 % 64 = _; omega)
  have h4 : fld wd 0 10 = o := fld_eq wd 0 _ (by rw [hw]; show _ / 1 % 1024 = _; omega)
  unfold decodeForm; rw [h0]
  show decodeBr wd = _
  unfold decodeBr; rw [h1]
  show form (.bltu (fld wd 16 6) (fld wd 10 6) (fld wd 0 10)) (true) = _
  simp only [h2, h3, h4]
  exact form_ok _ _ hwf rfl
theorem bgeu (a : BitVec 6) (b : BitVec 6) (o : BitVec 10) : Statement (.bgeu a b o) :=
  strand_of (1094713344 + a.toNat * 65536 + b.toNat * 1024 + o.toNat * 1) rfl (by omega) rfl fun wd hw hwf => by
  have h0 : fld wd 26 6 = 16#6 := fld_eq wd 26 _ (by rw [hw]; show _ / 67108864 % 64 = 16; omega)
  have h1 : fld wd 22 4 = 5#4 := fld_eq wd 22 _ (by rw [hw]; show _ / 4194304 % 16 = 5; omega)
  have h2 : fld wd 16 6 = a := fld_eq wd 16 _ (by rw [hw]; show _ / 65536 % 64 = _; omega)
  have h3 : fld wd 10 6 = b := fld_eq wd 10 _ (by rw [hw]; show _ / 1024 % 64 = _; omega)
  have h4 : fld wd 0 10 = o := fld_eq wd 0 _ (by rw [hw]; show _ / 1 % 1024 = _; omega)
  unfold decodeForm; rw [h0]
  show decodeBr wd = _
  unfold decodeBr; rw [h1]
  show form (.bgeu (fld wd 16 6) (fld wd 10 6) (fld wd 0 10)) (true) = _
  simp only [h2, h3, h4]
  exact form_ok _ _ hwf rfl
theorem bmany (a : BitVec 6) (o : BitVec 10) : Statement (.bmany a o) :=
  strand_of (1098907648 + a.toNat * 65536 + o.toNat * 1) rfl (by omega) rfl fun wd hw hwf => by
  have h0 : fld wd 26 6 = 16#6 := fld_eq wd 26 _ (by rw [hw]; show _ / 67108864 % 64 = 16; omega)
  have h1 : fld wd 22 4 = 6#4 := fld_eq wd 22 _ (by rw [hw]; show _ / 4194304 % 16 = 6; omega)
  have h2 : fld wd 16 6 = a := fld_eq wd 16 _ (by rw [hw]; show _ / 65536 % 64 = _; omega)
  have h3 : fld wd 0 10 = o := fld_eq wd 0 _ (by rw [hw]; show _ / 1 % 1024 = _; omega)
  have h4 : fld wd 10 6 = 0#6 := fld_eq wd 10 _ (by rw [hw]; show _ / 1024 % 64 = 0; omega)
  unfold decodeForm; rw [h0]
  show decodeBr wd = _
  unfold decodeBr; rw [h1]
  show form (.bmany (fld wd 16 6) (fld wd 0 10)) (fld wd 10 6 == 0#6) = _
  simp only [h2, h3, h4]
  exact form_ok _ _ hwf (by decide)
theorem bmnone (a : BitVec 6) (o : BitVec 10) : Statement (.bmnone a o) :=
  strand_of (1103101952 + a.toNat * 65536 + o.toNat * 1) rfl (by omega) rfl fun wd hw hwf => by
  have h0 : fld wd 26 6 = 16#6 := fld_eq wd 26 _ (by rw [hw]; show _ / 67108864 % 64 = 16; omega)
  have h1 : fld wd 22 4 = 7#4 := fld_eq wd 22 _ (by rw [hw]; show _ / 4194304 % 16 = 7; omega)
  have h2 : fld wd 16 6 = a := fld_eq wd 16 _ (by rw [hw]; show _ / 65536 % 64 = _; omega)
  have h3 : fld wd 0 10 = o := fld_eq wd 0 _ (by rw [hw]; show _ / 1 % 1024 = _; omega)
  have h4 : fld wd 10 6 = 0#6 := fld_eq wd 10 _ (by rw [hw]; show _ / 1024 % 64 = 0; omega)
  unfold decodeForm; rw [h0]
  show decodeBr wd = _
  unfold decodeBr; rw [h1]
  show form (.bmnone (fld wd 16 6) (fld wd 0 10)) (fld wd 10 6 == 0#6) = _
  simp only [h2, h3, h4]
  exact form_ok _ _ hwf (by decide)
theorem j (o : BitVec 26) : Statement (.j o) :=
  strand_of (1140850688 + o.toNat * 1) rfl (by omega) rfl fun wd hw hwf => by
  have h0 : fld wd 26 6 = 17#6 := fld_eq wd 26 _ (by rw [hw]; show _ / 67108864 % 64 = 17; omega)
  have h1 : fld wd 0 26 = o := fld_eq wd 0 _ (by rw [hw]; show _ / 1 % 67108864 = _; omega)
  unfold decodeForm; rw [h0]
  show form (.j (fld wd 0 26)) (true) = _
  simp only [h1]
  exact form_ok _ _ hwf rfl
theorem jal (o : BitVec 26) : Statement (.jal o) :=
  strand_of (1207959552 + o.toNat * 1) rfl (by omega) rfl fun wd hw hwf => by
  have h0 : fld wd 26 6 = 18#6 := fld_eq wd 26 _ (by rw [hw]; show _ / 67108864 % 64 = 18; omega)
  have h1 : fld wd 0 26 = o := fld_eq wd 0 _ (by rw [hw]; show _ / 1 % 67108864 = _; omega)
  unfold decodeForm; rw [h0]
  show form (.jal (fld wd 0 26)) (true) = _
  simp only [h1]
  exact form_ok _ _ hwf rfl
theorem jr (a : BitVec 6) : Statement (.jr a) :=
  strand_of (1275068544 + a.toNat * 16384) rfl (by omega) rfl fun wd hw hwf => by
  have h0 : fld wd 26 6 = 19#6 := fld_eq wd 26 _ (by rw [hw]; show _ / 67108864 % 64 = 19; omega)
  have h1 : fld wd 0 6 = 0#6 := fld_eq wd 0 _ (by rw [hw]; show _ / 1 % 64 = 0; omega)
  have h2 : fld wd 14 6 = a := fld_eq wd 14 _ (by rw [hw]; show _ / 16384 % 64 = _; omega)
  have h3 : fld wd 20 6 = 0#6 := fld_eq wd 20 _ (by rw [hw]; show _ / 1048576 % 64 = 0; omega)
  have h4 : fld wd 6 8 = 2#8 := fld_eq wd 6 _ (by rw [hw]; show _ / 64 % 256 = 2; omega)
  unfold decodeForm; rw [h0]
  show decodeJr wd = _
  unfold decodeJr; rw [h1]
  show form (.jr (fld wd 14 6)) (fld wd 20 6 == 0#6 && fld wd 6 8 == 2#8) = _
  simp only [h2, h3, h4]
  exact form_ok _ _ hwf (by decide)
theorem jalr (d : BitVec 6) (a : BitVec 6) : Statement (.jalr d a) :=
  strand_of (1275068545 + d.toNat * 1048576 + a.toNat * 16384) rfl (by omega) rfl fun wd hw hwf => by
  have h0 : fld wd 26 6 = 19#6 := fld_eq wd 26 _ (by rw [hw]; show _ / 67108864 % 64 = 19; omega)
  have h1 : fld wd 0 6 = 1#6 := fld_eq wd 0 _ (by rw [hw]; show _ / 1 % 64 = 1; omega)
  have h2 : fld wd 20 6 = d := fld_eq wd 20 _ (by rw [hw]; show _ / 1048576 % 64 = _; omega)
  have h3 : fld wd 14 6 = a := fld_eq wd 14 _ (by rw [hw]; show _ / 16384 % 64 = _; omega)
  have h4 : fld wd 6 8 = 2#8 := fld_eq wd 6 _ (by rw [hw]; show _ / 64 % 256 = 2; omega)
  unfold decodeForm; rw [h0]
  show decodeJr wd = _
  unfold decodeJr; rw [h1]
  show form (.jalr (fld wd 20 6) (fld wd 14 6)) (fld wd 6 8 == 2#8) = _
  simp only [h2, h3, h4]
  exact form_ok _ _ hwf (by decide)
theorem loop (l : BitVec 4) (a : BitVec 6) (o : BitVec 10) : Statement (.loop l a o) :=
  strand_of (1342177280 + l.toNat * 4194304 + a.toNat * 65536 + o.toNat * 1) rfl (by omega) rfl fun wd hw hwf => by
  have h0 : fld wd 26 6 = 20#6 := fld_eq wd 26 _ (by rw [hw]; show _ / 67108864 % 64 = 20; omega)
  have h1 : fld wd 22 4 = l := fld_eq wd 22 _ (by rw [hw]; show _ / 4194304 % 16 = _; omega)
  have h2 : fld wd 16 6 = a := fld_eq wd 16 _ (by rw [hw]; show _ / 65536 % 64 = _; omega)
  have h3 : fld wd 0 10 = o := fld_eq wd 0 _ (by rw [hw]; show _ / 1 % 1024 = _; omega)
  have h4 : fld wd 10 6 = 0#6 := fld_eq wd 10 _ (by rw [hw]; show _ / 1024 % 64 = 0; omega)
  unfold decodeForm; rw [h0]
  show (ite _ _ _) = _
  rw [h1, if_neg (by have := wf_func hwf; simp only [Instr.funcOk, decide_eq_true_eq] at this; omega)]
  simp only [h2, h3, h4]
  exact form_ok _ _ hwf (by decide)
theorem rep (c : BitVec 6) (s : BitVec 3) (i : BitVec 3) : Statement (.rep c s i) :=
  strand_of (1409286144 + c.toNat * 1048576 + s.toNat * 131072 + i.toNat * 16384) rfl (by omega) rfl fun wd hw hwf => by
  have h0 : fld wd 26 6 = 21#6 := fld_eq wd 26 _ (by rw [hw]; show _ / 67108864 % 64 = 21; omega)
  have h1 : fld wd 20 6 = c := fld_eq wd 20 _ (by rw [hw]; show _ / 1048576 % 64 = _; omega)
  have h2 : fld wd 17 3 = s := fld_eq wd 17 _ (by rw [hw]; show _ / 131072 % 8 = _; omega)
  have h3 : fld wd 14 3 = i := fld_eq wd 14 _ (by rw [hw]; show _ / 16384 % 8 = _; omega)
  have h4 : fld wd 0 14 = 0#14 := fld_eq wd 0 _ (by rw [hw]; show _ / 1 % 16384 = 0; omega)
  unfold decodeForm; rw [h0]
  show form (.rep (fld wd 20 6) (fld wd 17 3) (fld wd 14 3)) (fld wd 0 14 == 0#14) = _
  simp only [h1, h2, h3, h4]
  exact form_ok _ _ hwf (by decide)
theorem fadd (d : BitVec 6) (a : BitVec 6) (b : BitVec 6) (s : BitVec 1) (x : BitVec 1) : Statement (.fadd d a b s x) :=
  strand_of (1610612736 + d.toNat * 1048576 + a.toNat * 16384 + b.toNat * 256 + s.toNat * 128 + x.toNat * 64) rfl (by omega) rfl fun wd hw hwf => by
  have h0 : fld wd 26 6 = 24#6 := fld_eq wd 26 _ (by rw [hw]; show _ / 67108864 % 64 = 24; omega)
  have h1 : fld wd 0 6 = 0#6 := fld_eq wd 0 _ (by rw [hw]; show _ / 1 % 64 = 0; omega)
  have h2 : fld wd 20 6 = d := fld_eq wd 20 _ (by rw [hw]; show _ / 1048576 % 64 = _; omega)
  have h3 : fld wd 14 6 = a := fld_eq wd 14 _ (by rw [hw]; show _ / 16384 % 64 = _; omega)
  have h4 : fld wd 8 6 = b := fld_eq wd 8 _ (by rw [hw]; show _ / 256 % 64 = _; omega)
  have h5 : fld wd 7 1 = s := fld_eq wd 7 _ (by rw [hw]; show _ / 128 % 2 = _; omega)
  have h6 : fld wd 6 1 = x := fld_eq wd 6 _ (by rw [hw]; show _ / 64 % 2 = _; omega)
  unfold decodeForm; rw [h0]
  show decodeFarith wd = _
  unfold decodeFarith; rw [h1]
  show form (.fadd (fld wd 20 6) (fld wd 14 6) (fld wd 8 6) (fld wd 7 1) (fld wd 6 1)) (true) = _
  simp only [h2, h3, h4, h5, h6]
  exact form_ok _ _ hwf rfl
theorem fsub (d : BitVec 6) (a : BitVec 6) (b : BitVec 6) (s : BitVec 1) (x : BitVec 1) : Statement (.fsub d a b s x) :=
  strand_of (1610612737 + d.toNat * 1048576 + a.toNat * 16384 + b.toNat * 256 + s.toNat * 128 + x.toNat * 64) rfl (by omega) rfl fun wd hw hwf => by
  have h0 : fld wd 26 6 = 24#6 := fld_eq wd 26 _ (by rw [hw]; show _ / 67108864 % 64 = 24; omega)
  have h1 : fld wd 0 6 = 1#6 := fld_eq wd 0 _ (by rw [hw]; show _ / 1 % 64 = 1; omega)
  have h2 : fld wd 20 6 = d := fld_eq wd 20 _ (by rw [hw]; show _ / 1048576 % 64 = _; omega)
  have h3 : fld wd 14 6 = a := fld_eq wd 14 _ (by rw [hw]; show _ / 16384 % 64 = _; omega)
  have h4 : fld wd 8 6 = b := fld_eq wd 8 _ (by rw [hw]; show _ / 256 % 64 = _; omega)
  have h5 : fld wd 7 1 = s := fld_eq wd 7 _ (by rw [hw]; show _ / 128 % 2 = _; omega)
  have h6 : fld wd 6 1 = x := fld_eq wd 6 _ (by rw [hw]; show _ / 64 % 2 = _; omega)
  unfold decodeForm; rw [h0]
  show decodeFarith wd = _
  unfold decodeFarith; rw [h1]
  show form (.fsub (fld wd 20 6) (fld wd 14 6) (fld wd 8 6) (fld wd 7 1) (fld wd 6 1)) (true) = _
  simp only [h2, h3, h4, h5, h6]
  exact form_ok _ _ hwf rfl
theorem fmul (d : BitVec 6) (a : BitVec 6) (b : BitVec 6) (s : BitVec 1) (x : BitVec 1) : Statement (.fmul d a b s x) :=
  strand_of (1610612738 + d.toNat * 1048576 + a.toNat * 16384 + b.toNat * 256 + s.toNat * 128 + x.toNat * 64) rfl (by omega) rfl fun wd hw hwf => by
  have h0 : fld wd 26 6 = 24#6 := fld_eq wd 26 _ (by rw [hw]; show _ / 67108864 % 64 = 24; omega)
  have h1 : fld wd 0 6 = 2#6 := fld_eq wd 0 _ (by rw [hw]; show _ / 1 % 64 = 2; omega)
  have h2 : fld wd 20 6 = d := fld_eq wd 20 _ (by rw [hw]; show _ / 1048576 % 64 = _; omega)
  have h3 : fld wd 14 6 = a := fld_eq wd 14 _ (by rw [hw]; show _ / 16384 % 64 = _; omega)
  have h4 : fld wd 8 6 = b := fld_eq wd 8 _ (by rw [hw]; show _ / 256 % 64 = _; omega)
  have h5 : fld wd 7 1 = s := fld_eq wd 7 _ (by rw [hw]; show _ / 128 % 2 = _; omega)
  have h6 : fld wd 6 1 = x := fld_eq wd 6 _ (by rw [hw]; show _ / 64 % 2 = _; omega)
  unfold decodeForm; rw [h0]
  show decodeFarith wd = _
  unfold decodeFarith; rw [h1]
  show form (.fmul (fld wd 20 6) (fld wd 14 6) (fld wd 8 6) (fld wd 7 1) (fld wd 6 1)) (true) = _
  simp only [h2, h3, h4, h5, h6]
  exact form_ok _ _ hwf rfl
theorem fdiv (d : BitVec 6) (a : BitVec 6) (b : BitVec 6) (s : BitVec 1) (x : BitVec 1) : Statement (.fdiv d a b s x) :=
  strand_of (1610612739 + d.toNat * 1048576 + a.toNat * 16384 + b.toNat * 256 + s.toNat * 128 + x.toNat * 64) rfl (by omega) rfl fun wd hw hwf => by
  have h0 : fld wd 26 6 = 24#6 := fld_eq wd 26 _ (by rw [hw]; show _ / 67108864 % 64 = 24; omega)
  have h1 : fld wd 0 6 = 3#6 := fld_eq wd 0 _ (by rw [hw]; show _ / 1 % 64 = 3; omega)
  have h2 : fld wd 20 6 = d := fld_eq wd 20 _ (by rw [hw]; show _ / 1048576 % 64 = _; omega)
  have h3 : fld wd 14 6 = a := fld_eq wd 14 _ (by rw [hw]; show _ / 16384 % 64 = _; omega)
  have h4 : fld wd 8 6 = b := fld_eq wd 8 _ (by rw [hw]; show _ / 256 % 64 = _; omega)
  have h5 : fld wd 7 1 = s := fld_eq wd 7 _ (by rw [hw]; show _ / 128 % 2 = _; omega)
  have h6 : fld wd 6 1 = x := fld_eq wd 6 _ (by rw [hw]; show _ / 64 % 2 = _; omega)
  unfold decodeForm; rw [h0]
  show decodeFarith wd = _
  unfold decodeFarith; rw [h1]
  show form (.fdiv (fld wd 20 6) (fld wd 14 6) (fld wd 8 6) (fld wd 7 1) (fld wd 6 1)) (true) = _
  simp only [h2, h3, h4, h5, h6]
  exact form_ok _ _ hwf rfl
theorem fsqrt (d : BitVec 6) (a : BitVec 6) (s : BitVec 1) : Statement (.fsqrt d a s) :=
  strand_of (1610612740 + d.toNat * 1048576 + a.toNat * 16384 + s.toNat * 128) rfl (by omega) rfl fun wd hw hwf => by
  have h0 : fld wd 26 6 = 24#6 := fld_eq wd 26 _ (by rw [hw]; show _ / 67108864 % 64 = 24; omega)
  have h1 : fld wd 0 6 = 4#6 := fld_eq wd 0 _ (by rw [hw]; show _ / 1 % 64 = 4; omega)
  have h2 : fld wd 20 6 = d := fld_eq wd 20 _ (by rw [hw]; show _ / 1048576 % 64 = _; omega)
  have h3 : fld wd 14 6 = a := fld_eq wd 14 _ (by rw [hw]; show _ / 16384 % 64 = _; omega)
  have h4 : fld wd 7 1 = s := fld_eq wd 7 _ (by rw [hw]; show _ / 128 % 2 = _; omega)
  have h5 : fld wd 8 6 = 0#6 := fld_eq wd 8 _ (by rw [hw]; show _ / 256 % 64 = 0; omega)
  have h6 : fld wd 6 1 = 0#1 := fld_eq wd 6 _ (by rw [hw]; show _ / 64 % 2 = 0; omega)
  unfold decodeForm; rw [h0]
  show decodeFarith wd = _
  unfold decodeFarith; rw [h1]
  show form (.fsqrt (fld wd 20 6) (fld wd 14 6) (fld wd 7 1)) (fld wd 8 6 == 0#6 && fld wd 6 1 == 0#1) = _
  simp only [h2, h3, h4, h5, h6]
  exact form_ok _ _ hwf (by decide)
theorem fmin (d : BitVec 6) (a : BitVec 6) (b : BitVec 6) (s : BitVec 1) (x : BitVec 1) : Statement (.fmin d a b s x) :=
  strand_of (1610612741 + d.toNat * 1048576 + a.toNat * 16384 + b.toNat * 256 + s.toNat * 128 + x.toNat * 64) rfl (by omega) rfl fun wd hw hwf => by
  have h0 : fld wd 26 6 = 24#6 := fld_eq wd 26 _ (by rw [hw]; show _ / 67108864 % 64 = 24; omega)
  have h1 : fld wd 0 6 = 5#6 := fld_eq wd 0 _ (by rw [hw]; show _ / 1 % 64 = 5; omega)
  have h2 : fld wd 20 6 = d := fld_eq wd 20 _ (by rw [hw]; show _ / 1048576 % 64 = _; omega)
  have h3 : fld wd 14 6 = a := fld_eq wd 14 _ (by rw [hw]; show _ / 16384 % 64 = _; omega)
  have h4 : fld wd 8 6 = b := fld_eq wd 8 _ (by rw [hw]; show _ / 256 % 64 = _; omega)
  have h5 : fld wd 7 1 = s := fld_eq wd 7 _ (by rw [hw]; show _ / 128 % 2 = _; omega)
  have h6 : fld wd 6 1 = x := fld_eq wd 6 _ (by rw [hw]; show _ / 64 % 2 = _; omega)
  unfold decodeForm; rw [h0]
  show decodeFarith wd = _
  unfold decodeFarith; rw [h1]
  show form (.fmin (fld wd 20 6) (fld wd 14 6) (fld wd 8 6) (fld wd 7 1) (fld wd 6 1)) (true) = _
  simp only [h2, h3, h4, h5, h6]
  exact form_ok _ _ hwf rfl
theorem fmax (d : BitVec 6) (a : BitVec 6) (b : BitVec 6) (s : BitVec 1) (x : BitVec 1) : Statement (.fmax d a b s x) :=
  strand_of (1610612742 + d.toNat * 1048576 + a.toNat * 16384 + b.toNat * 256 + s.toNat * 128 + x.toNat * 64) rfl (by omega) rfl fun wd hw hwf => by
  have h0 : fld wd 26 6 = 24#6 := fld_eq wd 26 _ (by rw [hw]; show _ / 67108864 % 64 = 24; omega)
  have h1 : fld wd 0 6 = 6#6 := fld_eq wd 0 _ (by rw [hw]; show _ / 1 % 64 = 6; omega)
  have h2 : fld wd 20 6 = d := fld_eq wd 20 _ (by rw [hw]; show _ / 1048576 % 64 = _; omega)
  have h3 : fld wd 14 6 = a := fld_eq wd 14 _ (by rw [hw]; show _ / 16384 % 64 = _; omega)
  have h4 : fld wd 8 6 = b := fld_eq wd 8 _ (by rw [hw]; show _ / 256 % 64 = _; omega)
  have h5 : fld wd 7 1 = s := fld_eq wd 7 _ (by rw [hw]; show _ / 128 % 2 = _; omega)
  have h6 : fld wd 6 1 = x := fld_eq wd 6 _ (by rw [hw]; show _ / 64 % 2 = _; omega)
  unfold decodeForm; rw [h0]
  show decodeFarith wd = _
  unfold decodeFarith; rw [h1]
  show form (.fmax (fld wd 20 6) (fld wd 14 6) (fld wd 8 6) (fld wd 7 1) (fld wd 6 1)) (true) = _
  simp only [h2, h3, h4, h5, h6]
  exact form_ok _ _ hwf rfl
theorem fabs (d : BitVec 6) (a : BitVec 6) (s : BitVec 1) : Statement (.fabs d a s) :=
  strand_of (1610612743 + d.toNat * 1048576 + a.toNat * 16384 + s.toNat * 128) rfl (by omega) rfl fun wd hw hwf => by
  have h0 : fld wd 26 6 = 24#6 := fld_eq wd 26 _ (by rw [hw]; show _ / 67108864 % 64 = 24; omega)
  have h1 : fld wd 0 6 = 7#6 := fld_eq wd 0 _ (by rw [hw]; show _ / 1 % 64 = 7; omega)
  have h2 : fld wd 20 6 = d := fld_eq wd 20 _ (by rw [hw]; show _ / 1048576 % 64 = _; omega)
  have h3 : fld wd 14 6 = a := fld_eq wd 14 _ (by rw [hw]; show _ / 16384 % 64 = _; omega)
  have h4 : fld wd 7 1 = s := fld_eq wd 7 _ (by rw [hw]; show _ / 128 % 2 = _; omega)
  have h5 : fld wd 8 6 = 0#6 := fld_eq wd 8 _ (by rw [hw]; show _ / 256 % 64 = 0; omega)
  have h6 : fld wd 6 1 = 0#1 := fld_eq wd 6 _ (by rw [hw]; show _ / 64 % 2 = 0; omega)
  unfold decodeForm; rw [h0]
  show decodeFarith wd = _
  unfold decodeFarith; rw [h1]
  show form (.fabs (fld wd 20 6) (fld wd 14 6) (fld wd 7 1)) (fld wd 8 6 == 0#6 && fld wd 6 1 == 0#1) = _
  simp only [h2, h3, h4, h5, h6]
  exact form_ok _ _ hwf (by decide)
theorem fneg (d : BitVec 6) (a : BitVec 6) (s : BitVec 1) : Statement (.fneg d a s) :=
  strand_of (1610612744 + d.toNat * 1048576 + a.toNat * 16384 + s.toNat * 128) rfl (by omega) rfl fun wd hw hwf => by
  have h0 : fld wd 26 6 = 24#6 := fld_eq wd 26 _ (by rw [hw]; show _ / 67108864 % 64 = 24; omega)
  have h1 : fld wd 0 6 = 8#6 := fld_eq wd 0 _ (by rw [hw]; show _ / 1 % 64 = 8; omega)
  have h2 : fld wd 20 6 = d := fld_eq wd 20 _ (by rw [hw]; show _ / 1048576 % 64 = _; omega)
  have h3 : fld wd 14 6 = a := fld_eq wd 14 _ (by rw [hw]; show _ / 16384 % 64 = _; omega)
  have h4 : fld wd 7 1 = s := fld_eq wd 7 _ (by rw [hw]; show _ / 128 % 2 = _; omega)
  have h5 : fld wd 8 6 = 0#6 := fld_eq wd 8 _ (by rw [hw]; show _ / 256 % 64 = 0; omega)
  have h6 : fld wd 6 1 = 0#1 := fld_eq wd 6 _ (by rw [hw]; show _ / 64 % 2 = 0; omega)
  unfold decodeForm; rw [h0]
  show decodeFarith wd = _
  unfold decodeFarith; rw [h1]
  show form (.fneg (fld wd 20 6) (fld wd 14 6) (fld wd 7 1)) (fld wd 8 6 == 0#6 && fld wd 6 1 == 0#1) = _
  simp only [h2, h3, h4, h5, h6]
  exact form_ok _ _ hwf (by decide)
theorem frcp (d : BitVec 6) (a : BitVec 6) (s : BitVec 1) : Statement (.frcp d a s) :=
  strand_of (1610612745 + d.toNat * 1048576 + a.toNat * 16384 + s.toNat * 128) rfl (by omega) rfl fun wd hw hwf => by
  have h0 : fld wd 26 6 = 24#6 := fld_eq wd 26 _ (by rw [hw]; show _ / 67108864 % 64 = 24; omega)
  have h1 : fld wd 0 6 = 9#6 := fld_eq wd 0 _ (by rw [hw]; show _ / 1 % 64 = 9; omega)
  have h2 : fld wd 20 6 = d := fld_eq wd 20 _ (by rw [hw]; show _ / 1048576 % 64 = _; omega)
  have h3 : fld wd 14 6 = a := fld_eq wd 14 _ (by rw [hw]; show _ / 16384 % 64 = _; omega)
  have h4 : fld wd 7 1 = s := fld_eq wd 7 _ (by rw [hw]; show _ / 128 % 2 = _; omega)
  have h5 : fld wd 8 6 = 0#6 := fld_eq wd 8 _ (by rw [hw]; show _ / 256 % 64 = 0; omega)
  have h6 : fld wd 6 1 = 0#1 := fld_eq wd 6 _ (by rw [hw]; show _ / 64 % 2 = 0; omega)
  unfold decodeForm; rw [h0]
  show decodeFarith wd = _
  unfold decodeFarith; rw [h1]
  show form (.frcp (fld wd 20 6) (fld wd 14 6) (fld wd 7 1)) (fld wd 8 6 == 0#6 && fld wd 6 1 == 0#1) = _
  simp only [h2, h3, h4, h5, h6]
  exact form_ok _ _ hwf (by decide)
theorem frsq (d : BitVec 6) (a : BitVec 6) (s : BitVec 1) : Statement (.frsq d a s) :=
  strand_of (1610612746 + d.toNat * 1048576 + a.toNat * 16384 + s.toNat * 128) rfl (by omega) rfl fun wd hw hwf => by
  have h0 : fld wd 26 6 = 24#6 := fld_eq wd 26 _ (by rw [hw]; show _ / 67108864 % 64 = 24; omega)
  have h1 : fld wd 0 6 = 10#6 := fld_eq wd 0 _ (by rw [hw]; show _ / 1 % 64 = 10; omega)
  have h2 : fld wd 20 6 = d := fld_eq wd 20 _ (by rw [hw]; show _ / 1048576 % 64 = _; omega)
  have h3 : fld wd 14 6 = a := fld_eq wd 14 _ (by rw [hw]; show _ / 16384 % 64 = _; omega)
  have h4 : fld wd 7 1 = s := fld_eq wd 7 _ (by rw [hw]; show _ / 128 % 2 = _; omega)
  have h5 : fld wd 8 6 = 0#6 := fld_eq wd 8 _ (by rw [hw]; show _ / 256 % 64 = 0; omega)
  have h6 : fld wd 6 1 = 0#1 := fld_eq wd 6 _ (by rw [hw]; show _ / 64 % 2 = 0; omega)
  unfold decodeForm; rw [h0]
  show decodeFarith wd = _
  unfold decodeFarith; rw [h1]
  show form (.frsq (fld wd 20 6) (fld wd 14 6) (fld wd 7 1)) (fld wd 8 6 == 0#6 && fld wd 6 1 == 0#1) = _
  simp only [h2, h3, h4, h5, h6]
  exact form_ok _ _ hwf (by decide)
theorem fexp2 (d : BitVec 6) (a : BitVec 6) (s : BitVec 1) : Statement (.fexp2 d a s) :=
  strand_of (1610612747 + d.toNat * 1048576 + a.toNat * 16384 + s.toNat * 128) rfl (by omega) rfl fun wd hw hwf => by
  have h0 : fld wd 26 6 = 24#6 := fld_eq wd 26 _ (by rw [hw]; show _ / 67108864 % 64 = 24; omega)
  have h1 : fld wd 0 6 = 11#6 := fld_eq wd 0 _ (by rw [hw]; show _ / 1 % 64 = 11; omega)
  have h2 : fld wd 20 6 = d := fld_eq wd 20 _ (by rw [hw]; show _ / 1048576 % 64 = _; omega)
  have h3 : fld wd 14 6 = a := fld_eq wd 14 _ (by rw [hw]; show _ / 16384 % 64 = _; omega)
  have h4 : fld wd 7 1 = s := fld_eq wd 7 _ (by rw [hw]; show _ / 128 % 2 = _; omega)
  have h5 : fld wd 8 6 = 0#6 := fld_eq wd 8 _ (by rw [hw]; show _ / 256 % 64 = 0; omega)
  have h6 : fld wd 6 1 = 0#1 := fld_eq wd 6 _ (by rw [hw]; show _ / 64 % 2 = 0; omega)
  unfold decodeForm; rw [h0]
  show decodeFarith wd = _
  unfold decodeFarith; rw [h1]
  show form (.fexp2 (fld wd 20 6) (fld wd 14 6) (fld wd 7 1)) (fld wd 8 6 == 0#6 && fld wd 6 1 == 0#1) = _
  simp only [h2, h3, h4, h5, h6]
  exact form_ok _ _ hwf (by decide)
theorem flog2 (d : BitVec 6) (a : BitVec 6) (s : BitVec 1) : Statement (.flog2 d a s) :=
  strand_of (1610612748 + d.toNat * 1048576 + a.toNat * 16384 + s.toNat * 128) rfl (by omega) rfl fun wd hw hwf => by
  have h0 : fld wd 26 6 = 24#6 := fld_eq wd 26 _ (by rw [hw]; show _ / 67108864 % 64 = 24; omega)
  have h1 : fld wd 0 6 = 12#6 := fld_eq wd 0 _ (by rw [hw]; show _ / 1 % 64 = 12; omega)
  have h2 : fld wd 20 6 = d := fld_eq wd 20 _ (by rw [hw]; show _ / 1048576 % 64 = _; omega)
  have h3 : fld wd 14 6 = a := fld_eq wd 14 _ (by rw [hw]; show _ / 16384 % 64 = _; omega)
  have h4 : fld wd 7 1 = s := fld_eq wd 7 _ (by rw [hw]; show _ / 128 % 2 = _; omega)
  have h5 : fld wd 8 6 = 0#6 := fld_eq wd 8 _ (by rw [hw]; show _ / 256 % 64 = 0; omega)
  have h6 : fld wd 6 1 = 0#1 := fld_eq wd 6 _ (by rw [hw]; show _ / 64 % 2 = 0; omega)
  unfold decodeForm; rw [h0]
  show decodeFarith wd = _
  unfold decodeFarith; rw [h1]
  show form (.flog2 (fld wd 20 6) (fld wd 14 6) (fld wd 7 1)) (fld wd 8 6 == 0#6 && fld wd 6 1 == 0#1) = _
  simp only [h2, h3, h4, h5, h6]
  exact form_ok _ _ hwf (by decide)
theorem ftanh (d : BitVec 6) (a : BitVec 6) (s : BitVec 1) : Statement (.ftanh d a s) :=
  strand_of (1610612749 + d.toNat * 1048576 + a.toNat * 16384 + s.toNat * 128) rfl (by omega) rfl fun wd hw hwf => by
  have h0 : fld wd 26 6 = 24#6 := fld_eq wd 26 _ (by rw [hw]; show _ / 67108864 % 64 = 24; omega)
  have h1 : fld wd 0 6 = 13#6 := fld_eq wd 0 _ (by rw [hw]; show _ / 1 % 64 = 13; omega)
  have h2 : fld wd 20 6 = d := fld_eq wd 20 _ (by rw [hw]; show _ / 1048576 % 64 = _; omega)
  have h3 : fld wd 14 6 = a := fld_eq wd 14 _ (by rw [hw]; show _ / 16384 % 64 = _; omega)
  have h4 : fld wd 7 1 = s := fld_eq wd 7 _ (by rw [hw]; show _ / 128 % 2 = _; omega)
  have h5 : fld wd 8 6 = 0#6 := fld_eq wd 8 _ (by rw [hw]; show _ / 256 % 64 = 0; omega)
  have h6 : fld wd 6 1 = 0#1 := fld_eq wd 6 _ (by rw [hw]; show _ / 64 % 2 = 0; omega)
  unfold decodeForm; rw [h0]
  show decodeFarith wd = _
  unfold decodeFarith; rw [h1]
  show form (.ftanh (fld wd 20 6) (fld wd 14 6) (fld wd 7 1)) (fld wd 8 6 == 0#6 && fld wd 6 1 == 0#1) = _
  simp only [h2, h3, h4, h5, h6]
  exact form_ok _ _ hwf (by decide)
theorem fma (d : BitVec 6) (a : BitVec 6) (b : BitVec 6) (s : BitVec 1) (x : BitVec 1) : Statement (.fma d a b s x) :=
  strand_of (1677721600 + d.toNat * 1048576 + a.toNat * 16384 + b.toNat * 256 + s.toNat * 128 + x.toNat * 64) rfl (by omega) rfl fun wd hw hwf => by
  have h0 : fld wd 26 6 = 25#6 := fld_eq wd 26 _ (by rw [hw]; show _ / 67108864 % 64 = 25; omega)
  have h1 : fld wd 0 6 = 0#6 := fld_eq wd 0 _ (by rw [hw]; show _ / 1 % 64 = 0; omega)
  have h2 : fld wd 20 6 = d := fld_eq wd 20 _ (by rw [hw]; show _ / 1048576 % 64 = _; omega)
  have h3 : fld wd 14 6 = a := fld_eq wd 14 _ (by rw [hw]; show _ / 16384 % 64 = _; omega)
  have h4 : fld wd 8 6 = b := fld_eq wd 8 _ (by rw [hw]; show _ / 256 % 64 = _; omega)
  have h5 : fld wd 7 1 = s := fld_eq wd 7 _ (by rw [hw]; show _ / 128 % 2 = _; omega)
  have h6 : fld wd 6 1 = x := fld_eq wd 6 _ (by rw [hw]; show _ / 64 % 2 = _; omega)
  unfold decodeForm; rw [h0]
  show decodeFma wd = _
  unfold decodeFma; rw [h1]
  show form (.fma (fld wd 20 6) (fld wd 14 6) (fld wd 8 6) (fld wd 7 1) (fld wd 6 1)) (true) = _
  simp only [h2, h3, h4, h5, h6]
  exact form_ok _ _ hwf rfl
theorem fms (d : BitVec 6) (a : BitVec 6) (b : BitVec 6) (s : BitVec 1) (x : BitVec 1) : Statement (.fms d a b s x) :=
  strand_of (1677721601 + d.toNat * 1048576 + a.toNat * 16384 + b.toNat * 256 + s.toNat * 128 + x.toNat * 64) rfl (by omega) rfl fun wd hw hwf => by
  have h0 : fld wd 26 6 = 25#6 := fld_eq wd 26 _ (by rw [hw]; show _ / 67108864 % 64 = 25; omega)
  have h1 : fld wd 0 6 = 1#6 := fld_eq wd 0 _ (by rw [hw]; show _ / 1 % 64 = 1; omega)
  have h2 : fld wd 20 6 = d := fld_eq wd 20 _ (by rw [hw]; show _ / 1048576 % 64 = _; omega)
  have h3 : fld wd 14 6 = a := fld_eq wd 14 _ (by rw [hw]; show _ / 16384 % 64 = _; omega)
  have h4 : fld wd 8 6 = b := fld_eq wd 8 _ (by rw [hw]; show _ / 256 % 64 = _; omega)
  have h5 : fld wd 7 1 = s := fld_eq wd 7 _ (by rw [hw]; show _ / 128 % 2 = _; omega)
  have h6 : fld wd 6 1 = x := fld_eq wd 6 _ (by rw [hw]; show _ / 64 % 2 = _; omega)
  unfold decodeForm; rw [h0]
  show decodeFma wd = _
  unfold decodeFma; rw [h1]
  show form (.fms (fld wd 20 6) (fld wd 14 6) (fld wd 8 6) (fld wd 7 1) (fld wd 6 1)) (true) = _
  simp only [h2, h3, h4, h5, h6]
  exact form_ok _ _ hwf rfl
theorem fnma (d : BitVec 6) (a : BitVec 6) (b : BitVec 6) (s : BitVec 1) (x : BitVec 1) : Statement (.fnma d a b s x) :=
  strand_of (1677721602 + d.toNat * 1048576 + a.toNat * 16384 + b.toNat * 256 + s.toNat * 128 + x.toNat * 64) rfl (by omega) rfl fun wd hw hwf => by
  have h0 : fld wd 26 6 = 25#6 := fld_eq wd 26 _ (by rw [hw]; show _ / 67108864 % 64 = 25; omega)
  have h1 : fld wd 0 6 = 2#6 := fld_eq wd 0 _ (by rw [hw]; show _ / 1 % 64 = 2; omega)
  have h2 : fld wd 20 6 = d := fld_eq wd 20 _ (by rw [hw]; show _ / 1048576 % 64 = _; omega)
  have h3 : fld wd 14 6 = a := fld_eq wd 14 _ (by rw [hw]; show _ / 16384 % 64 = _; omega)
  have h4 : fld wd 8 6 = b := fld_eq wd 8 _ (by rw [hw]; show _ / 256 % 64 = _; omega)
  have h5 : fld wd 7 1 = s := fld_eq wd 7 _ (by rw [hw]; show _ / 128 % 2 = _; omega)
  have h6 : fld wd 6 1 = x := fld_eq wd 6 _ (by rw [hw]; show _ / 64 % 2 = _; omega)
  unfold decodeForm; rw [h0]
  show decodeFma wd = _
  unfold decodeFma; rw [h1]
  show form (.fnma (fld wd 20 6) (fld wd 14 6) (fld wd 8 6) (fld wd 7 1) (fld wd 6 1)) (true) = _
  simp only [h2, h3, h4, h5, h6]
  exact form_ok _ _ hwf rfl
theorem fnms (d : BitVec 6) (a : BitVec 6) (b : BitVec 6) (s : BitVec 1) (x : BitVec 1) : Statement (.fnms d a b s x) :=
  strand_of (1677721603 + d.toNat * 1048576 + a.toNat * 16384 + b.toNat * 256 + s.toNat * 128 + x.toNat * 64) rfl (by omega) rfl fun wd hw hwf => by
  have h0 : fld wd 26 6 = 25#6 := fld_eq wd 26 _ (by rw [hw]; show _ / 67108864 % 64 = 25; omega)
  have h1 : fld wd 0 6 = 3#6 := fld_eq wd 0 _ (by rw [hw]; show _ / 1 % 64 = 3; omega)
  have h2 : fld wd 20 6 = d := fld_eq wd 20 _ (by rw [hw]; show _ / 1048576 % 64 = _; omega)
  have h3 : fld wd 14 6 = a := fld_eq wd 14 _ (by rw [hw]; show _ / 16384 % 64 = _; omega)
  have h4 : fld wd 8 6 = b := fld_eq wd 8 _ (by rw [hw]; show _ / 256 % 64 = _; omega)
  have h5 : fld wd 7 1 = s := fld_eq wd 7 _ (by rw [hw]; show _ / 128 % 2 = _; omega)
  have h6 : fld wd 6 1 = x := fld_eq wd 6 _ (by rw [hw]; show _ / 64 % 2 = _; omega)
  unfold decodeForm; rw [h0]
  show decodeFma wd = _
  unfold decodeFma; rw [h1]
  show form (.fnms (fld wd 20 6) (fld wd 14 6) (fld wd 8 6) (fld wd 7 1) (fld wd 6 1)) (true) = _
  simp only [h2, h3, h4, h5, h6]
  exact form_ok _ _ hwf rfl
theorem fceq (d : BitVec 6) (a : BitVec 6) (b : BitVec 6) (s : BitVec 1) (x : BitVec 1) : Statement (.fceq d a b s x) :=
  strand_of (1744830464 + d.toNat * 1048576 + a.toNat * 16384 + b.toNat * 256 + s.toNat * 128 + x.toNat * 64) rfl (by omega) rfl fun wd hw hwf => by
  have h0 : fld wd 26 6 = 26#6 := fld_eq wd 26 _ (by rw [hw]; show _ / 67108864 % 64 = 26; omega)
  have h1 : fld wd 0 6 = 0#6 := fld_eq wd 0 _ (by rw [hw]; show _ / 1 % 64 = 0; omega)
  have h2 : fld wd 20 6 = d := fld_eq wd 20 _ (by rw [hw]; show _ / 1048576 % 64 = _; omega)
  have h3 : fld wd 14 6 = a := fld_eq wd 14 _ (by rw [hw]; show _ / 16384 % 64 = _; omega)
  have h4 : fld wd 8 6 = b := fld_eq wd 8 _ (by rw [hw]; show _ / 256 % 64 = _; omega)
  have h5 : fld wd 7 1 = s := fld_eq wd 7 _ (by rw [hw]; show _ / 128 % 2 = _; omega)
  have h6 : fld wd 6 1 = x := fld_eq wd 6 _ (by rw [hw]; show _ / 64 % 2 = _; omega)
  unfold decodeForm; rw [h0]
  show decodeFcmp wd = _
  unfold decodeFcmp; rw [h1]
  show form (.fceq (fld wd 20 6) (fld wd 14 6) (fld wd 8 6) (fld wd 7 1) (fld wd 6 1)) (true) = _
  simp only [h2, h3, h4, h5, h6]
  exact form_ok _ _ hwf rfl
theorem fcne (d : BitVec 6) (a : BitVec 6) (b : BitVec 6) (s : BitVec 1) (x : BitVec 1) : Statement (.fcne d a b s x) :=
  strand_of (1744830465 + d.toNat * 1048576 + a.toNat * 16384 + b.toNat * 256 + s.toNat * 128 + x.toNat * 64) rfl (by omega) rfl fun wd hw hwf => by
  have h0 : fld wd 26 6 = 26#6 := fld_eq wd 26 _ (by rw [hw]; show _ / 67108864 % 64 = 26; omega)
  have h1 : fld wd 0 6 = 1#6 := fld_eq wd 0 _ (by rw [hw]; show _ / 1 % 64 = 1; omega)
  have h2 : fld wd 20 6 = d := fld_eq wd 20 _ (by rw [hw]; show _ / 1048576 % 64 = _; omega)
  have h3 : fld wd 14 6 = a := fld_eq wd 14 _ (by rw [hw]; show _ / 16384 % 64 = _; omega)
  have h4 : fld wd 8 6 = b := fld_eq wd 8 _ (by rw [hw]; show _ / 256 % 64 = _; omega)
  have h5 : fld wd 7 1 = s := fld_eq wd 7 _ (by rw [hw]; show _ / 128 % 2 = _; omega)
  have h6 : fld wd 6 1 = x := fld_eq wd 6 _ (by rw [hw]; show _ / 64 % 2 = _; omega)
  unfold decodeForm; rw [h0]
  show decodeFcmp wd = _
  unfold decodeFcmp; rw [h1]
  show form (.fcne (fld wd 20 6) (fld wd 14 6) (fld wd 8 6) (fld wd 7 1) (fld wd 6 1)) (true) = _
  simp only [h2, h3, h4, h5, h6]
  exact form_ok _ _ hwf rfl
theorem fclt (d : BitVec 6) (a : BitVec 6) (b : BitVec 6) (s : BitVec 1) (x : BitVec 1) : Statement (.fclt d a b s x) :=
  strand_of (1744830466 + d.toNat * 1048576 + a.toNat * 16384 + b.toNat * 256 + s.toNat * 128 + x.toNat * 64) rfl (by omega) rfl fun wd hw hwf => by
  have h0 : fld wd 26 6 = 26#6 := fld_eq wd 26 _ (by rw [hw]; show _ / 67108864 % 64 = 26; omega)
  have h1 : fld wd 0 6 = 2#6 := fld_eq wd 0 _ (by rw [hw]; show _ / 1 % 64 = 2; omega)
  have h2 : fld wd 20 6 = d := fld_eq wd 20 _ (by rw [hw]; show _ / 1048576 % 64 = _; omega)
  have h3 : fld wd 14 6 = a := fld_eq wd 14 _ (by rw [hw]; show _ / 16384 % 64 = _; omega)
  have h4 : fld wd 8 6 = b := fld_eq wd 8 _ (by rw [hw]; show _ / 256 % 64 = _; omega)
  have h5 : fld wd 7 1 = s := fld_eq wd 7 _ (by rw [hw]; show _ / 128 % 2 = _; omega)
  have h6 : fld wd 6 1 = x := fld_eq wd 6 _ (by rw [hw]; show _ / 64 % 2 = _; omega)
  unfold decodeForm; rw [h0]
  show decodeFcmp wd = _
  unfold decodeFcmp; rw [h1]
  show form (.fclt (fld wd 20 6) (fld wd 14 6) (fld wd 8 6) (fld wd 7 1) (fld wd 6 1)) (true) = _
  simp only [h2, h3, h4, h5, h6]
  exact form_ok _ _ hwf rfl
theorem fcle (d : BitVec 6) (a : BitVec 6) (b : BitVec 6) (s : BitVec 1) (x : BitVec 1) : Statement (.fcle d a b s x) :=
  strand_of (1744830467 + d.toNat * 1048576 + a.toNat * 16384 + b.toNat * 256 + s.toNat * 128 + x.toNat * 64) rfl (by omega) rfl fun wd hw hwf => by
  have h0 : fld wd 26 6 = 26#6 := fld_eq wd 26 _ (by rw [hw]; show _ / 67108864 % 64 = 26; omega)
  have h1 : fld wd 0 6 = 3#6 := fld_eq wd 0 _ (by rw [hw]; show _ / 1 % 64 = 3; omega)
  have h2 : fld wd 20 6 = d := fld_eq wd 20 _ (by rw [hw]; show _ / 1048576 % 64 = _; omega)
  have h3 : fld wd 14 6 = a := fld_eq wd 14 _ (by rw [hw]; show _ / 16384 % 64 = _; omega)
  have h4 : fld wd 8 6 = b := fld_eq wd 8 _ (by rw [hw]; show _ / 256 % 64 = _; omega)
  have h5 : fld wd 7 1 = s := fld_eq wd 7 _ (by rw [hw]; show _ / 128 % 2 = _; omega)
  have h6 : fld wd 6 1 = x := fld_eq wd 6 _ (by rw [hw]; show _ / 64 % 2 = _; omega)
  unfold decodeForm; rw [h0]
  show decodeFcmp wd = _
  unfold decodeFcmp; rw [h1]
  show form (.fcle (fld wd 20 6) (fld wd 14 6) (fld wd 8 6) (fld wd 7 1) (fld wd 6 1)) (true) = _
  simp only [h2, h3, h4, h5, h6]
  exact form_ok _ _ hwf rfl
theorem fcun (d : BitVec 6) (a : BitVec 6) (b : BitVec 6) (s : BitVec 1) (x : BitVec 1) : Statement (.fcun d a b s x) :=
  strand_of (1744830468 + d.toNat * 1048576 + a.toNat * 16384 + b.toNat * 256 + s.toNat * 128 + x.toNat * 64) rfl (by omega) rfl fun wd hw hwf => by
  have h0 : fld wd 26 6 = 26#6 := fld_eq wd 26 _ (by rw [hw]; show _ / 67108864 % 64 = 26; omega)
  have h1 : fld wd 0 6 = 4#6 := fld_eq wd 0 _ (by rw [hw]; show _ / 1 % 64 = 4; omega)
  have h2 : fld wd 20 6 = d := fld_eq wd 20 _ (by rw [hw]; show _ / 1048576 % 64 = _; omega)
  have h3 : fld wd 14 6 = a := fld_eq wd 14 _ (by rw [hw]; show _ / 16384 % 64 = _; omega)
  have h4 : fld wd 8 6 = b := fld_eq wd 8 _ (by rw [hw]; show _ / 256 % 64 = _; omega)
  have h5 : fld wd 7 1 = s := fld_eq wd 7 _ (by rw [hw]; show _ / 128 % 2 = _; omega)
  have h6 : fld wd 6 1 = x := fld_eq wd 6 _ (by rw [hw]; show _ / 64 % 2 = _; omega)
  unfold decodeForm; rw [h0]
  show decodeFcmp wd = _
  unfold decodeFcmp; rw [h1]
  show form (.fcun (fld wd 20 6) (fld wd 14 6) (fld wd 8 6) (fld wd 7 1) (fld wd 6 1)) (true) = _
  simp only [h2, h3, h4, h5, h6]
  exact form_ok _ _ hwf rfl
theorem fclass (d : BitVec 6) (a : BitVec 6) (s : BitVec 1) : Statement (.fclass d a s) :=
  strand_of (1744830469 + d.toNat * 1048576 + a.toNat * 16384 + s.toNat * 128) rfl (by omega) rfl fun wd hw hwf => by
  have h0 : fld wd 26 6 = 26#6 := fld_eq wd 26 _ (by rw [hw]; show _ / 67108864 % 64 = 26; omega)
  have h1 : fld wd 0 6 = 5#6 := fld_eq wd 0 _ (by rw [hw]; show _ / 1 % 64 = 5; omega)
  have h2 : fld wd 20 6 = d := fld_eq wd 20 _ (by rw [hw]; show _ / 1048576 % 64 = _; omega)
  have h3 : fld wd 14 6 = a := fld_eq wd 14 _ (by rw [hw]; show _ / 16384 % 64 = _; omega)
  have h4 : fld wd 7 1 = s := fld_eq wd 7 _ (by rw [hw]; show _ / 128 % 2 = _; omega)
  have h5 : fld wd 8 6 = 0#6 := fld_eq wd 8 _ (by rw [hw]; show _ / 256 % 64 = 0; omega)
  have h6 : fld wd 6 1 = 0#1 := fld_eq wd 6 _ (by rw [hw]; show _ / 64 % 2 = 0; omega)
  unfold decodeForm; rw [h0]
  show decodeFcmp wd = _
  unfold decodeFcmp; rw [h1]
  show form (.fclass (fld wd 20 6) (fld wd 14 6) (fld wd 7 1)) (fld wd 8 6 == 0#6 && fld wd 6 1 == 0#1) = _
  simp only [h2, h3, h4, h5, h6]
  exact form_ok _ _ hwf (by decide)
theorem cvt (d : BitVec 6) (a : BitVec 6) (y : BitVec 5) (s : BitVec 1) : Statement (.cvt d a y s) :=
  strand_of (1811939328 + d.toNat * 1048576 + a.toNat * 16384 + y.toNat * 256 + s.toNat * 128) rfl (by omega) rfl fun wd hw hwf => by
  have h0 : fld wd 26 6 = 27#6 := fld_eq wd 26 _ (by rw [hw]; show _ / 67108864 % 64 = 27; omega)
  have h1 : fld wd 0 6 = 0#6 := fld_eq wd 0 _ (by rw [hw]; show _ / 1 % 64 = 0; omega)
  have h2 : fld wd 20 6 = d := fld_eq wd 20 _ (by rw [hw]; show _ / 1048576 % 64 = _; omega)
  have h3 : fld wd 14 6 = a := fld_eq wd 14 _ (by rw [hw]; show _ / 16384 % 64 = _; omega)
  have h4 : fld wd 8 5 = y := fld_eq wd 8 _ (by rw [hw]; show _ / 256 % 32 = _; omega)
  have h5 : fld wd 7 1 = s := fld_eq wd 7 _ (by rw [hw]; show _ / 128 % 2 = _; omega)
  have h6 : fld wd 13 1 = 0#1 := fld_eq wd 13 _ (by rw [hw]; show _ / 8192 % 2 = 0; omega)
  have h7 : fld wd 6 1 = 0#1 := fld_eq wd 6 _ (by rw [hw]; show _ / 64 % 2 = 0; omega)
  unfold decodeForm; rw [h0]
  show decodeFcvt wd = _
  unfold decodeFcvt; rw [h1]
  show form (.cvt (fld wd 20 6) (fld wd 14 6) (fld wd 8 5) (fld wd 7 1)) (fld wd 13 1 == 0#1 && fld wd 6 1 == 0#1) = _
  simp only [h2, h3, h4, h5, h6, h7]
  exact form_ok _ _ hwf (by decide)
theorem rint (d : BitVec 6) (a : BitVec 6) (s : BitVec 1) : Statement (.rint d a s) :=
  strand_of (1811939329 + d.toNat * 1048576 + a.toNat * 16384 + s.toNat * 128) rfl (by omega) rfl fun wd hw hwf => by
  have h0 : fld wd 26 6 = 27#6 := fld_eq wd 26 _ (by rw [hw]; show _ / 67108864 % 64 = 27; omega)
  have h1 : fld wd 0 6 = 1#6 := fld_eq wd 0 _ (by rw [hw]; show _ / 1 % 64 = 1; omega)
  have h2 : fld wd 20 6 = d := fld_eq wd 20 _ (by rw [hw]; show _ / 1048576 % 64 = _; omega)
  have h3 : fld wd 14 6 = a := fld_eq wd 14 _ (by rw [hw]; show _ / 16384 % 64 = _; omega)
  have h4 : fld wd 7 1 = s := fld_eq wd 7 _ (by rw [hw]; show _ / 128 % 2 = _; omega)
  have h5 : fld wd 8 6 = 0#6 := fld_eq wd 8 _ (by rw [hw]; show _ / 256 % 64 = 0; omega)
  have h6 : fld wd 6 1 = 0#1 := fld_eq wd 6 _ (by rw [hw]; show _ / 64 % 2 = 0; omega)
  unfold decodeForm; rw [h0]
  show decodeFcvt wd = _
  unfold decodeFcvt; rw [h1]
  show form (.rint (fld wd 20 6) (fld wd 14 6) (fld wd 7 1)) (fld wd 8 6 == 0#6 && fld wd 6 1 == 0#1) = _
  simp only [h2, h3, h4, h5, h6]
  exact form_ok _ _ hwf (by decide)
theorem frsum (d : BitVec 6) (a : BitVec 6) : Statement (.frsum d a) :=
  strand_of (1879048192 + d.toNat * 1048576 + a.toNat * 16384) rfl (by omega) rfl fun wd hw hwf => by
  have h0 : fld wd 26 6 = 28#6 := fld_eq wd 26 _ (by rw [hw]; show _ / 67108864 % 64 = 28; omega)
  have h1 : fld wd 0 6 = 0#6 := fld_eq wd 0 _ (by rw [hw]; show _ / 1 % 64 = 0; omega)
  have h2 : fld wd 20 6 = d := fld_eq wd 20 _ (by rw [hw]; show _ / 1048576 % 64 = _; omega)
  have h3 : fld wd 14 6 = a := fld_eq wd 14 _ (by rw [hw]; show _ / 16384 % 64 = _; omega)
  have h4 : fld wd 6 8 = 0#8 := fld_eq wd 6 _ (by rw [hw]; show _ / 64 % 256 = 0; omega)
  unfold decodeForm; rw [h0]
  show decodeFred wd = _
  unfold decodeFred; rw [h1]
  show form (.frsum (fld wd 20 6) (fld wd 14 6)) (fld wd 6 8 == 0#8) = _
  simp only [h2, h3, h4]
  exact form_ok _ _ hwf (by decide)
theorem frmin (d : BitVec 6) (a : BitVec 6) : Statement (.frmin d a) :=
  strand_of (1879048193 + d.toNat * 1048576 + a.toNat * 16384) rfl (by omega) rfl fun wd hw hwf => by
  have h0 : fld wd 26 6 = 28#6 := fld_eq wd 26 _ (by rw [hw]; show _ / 67108864 % 64 = 28; omega)
  have h1 : fld wd 0 6 = 1#6 := fld_eq wd 0 _ (by rw [hw]; show _ / 1 % 64 = 1; omega)
  have h2 : fld wd 20 6 = d := fld_eq wd 20 _ (by rw [hw]; show _ / 1048576 % 64 = _; omega)
  have h3 : fld wd 14 6 = a := fld_eq wd 14 _ (by rw [hw]; show _ / 16384 % 64 = _; omega)
  have h4 : fld wd 6 8 = 0#8 := fld_eq wd 6 _ (by rw [hw]; show _ / 64 % 256 = 0; omega)
  unfold decodeForm; rw [h0]
  show decodeFred wd = _
  unfold decodeFred; rw [h1]
  show form (.frmin (fld wd 20 6) (fld wd 14 6)) (fld wd 6 8 == 0#8) = _
  simp only [h2, h3, h4]
  exact form_ok _ _ hwf (by decide)
theorem frmax (d : BitVec 6) (a : BitVec 6) : Statement (.frmax d a) :=
  strand_of (1879048194 + d.toNat * 1048576 + a.toNat * 16384) rfl (by omega) rfl fun wd hw hwf => by
  have h0 : fld wd 26 6 = 28#6 := fld_eq wd 26 _ (by rw [hw]; show _ / 67108864 % 64 = 28; omega)
  have h1 : fld wd 0 6 = 2#6 := fld_eq wd 0 _ (by rw [hw]; show _ / 1 % 64 = 2; omega)
  have h2 : fld wd 20 6 = d := fld_eq wd 20 _ (by rw [hw]; show _ / 1048576 % 64 = _; omega)
  have h3 : fld wd 14 6 = a := fld_eq wd 14 _ (by rw [hw]; show _ / 16384 % 64 = _; omega)
  have h4 : fld wd 6 8 = 0#8 := fld_eq wd 6 _ (by rw [hw]; show _ / 64 % 256 = 0; omega)
  unfold decodeForm; rw [h0]
  show decodeFred wd = _
  unfold decodeFred; rw [h1]
  show form (.frmax (fld wd 20 6) (fld wd 14 6)) (fld wd 6 8 == 0#8) = _
  simp only [h2, h3, h4]
  exact form_ok _ _ hwf (by decide)
theorem qscale (d : BitVec 6) (a : BitVec 6) (b : BitVec 6) : Statement (.qscale d a b) :=
  strand_of (1946157056 + d.toNat * 1048576 + a.toNat * 16384 + b.toNat * 256) rfl (by omega) rfl fun wd hw hwf => by
  have h0 : fld wd 26 6 = 29#6 := fld_eq wd 26 _ (by rw [hw]; show _ / 67108864 % 64 = 29; omega)
  have h1 : fld wd 0 6 = 0#6 := fld_eq wd 0 _ (by rw [hw]; show _ / 1 % 64 = 0; omega)
  have h2 : fld wd 20 6 = d := fld_eq wd 20 _ (by rw [hw]; show _ / 1048576 % 64 = _; omega)
  have h3 : fld wd 14 6 = a := fld_eq wd 14 _ (by rw [hw]; show _ / 16384 % 64 = _; omega)
  have h4 : fld wd 8 6 = b := fld_eq wd 8 _ (by rw [hw]; show _ / 256 % 64 = _; omega)
  have h5 : fld wd 6 2 = 0#2 := fld_eq wd 6 _ (by rw [hw]; show _ / 64 % 4 = 0; omega)
  unfold decodeForm; rw [h0]
  show decodeQuant wd = _
  unfold decodeQuant; rw [h1]
  show form (.qscale (fld wd 20 6) (fld wd 14 6) (fld wd 8 6)) (fld wd 6 2 == 0#2) = _
  simp only [h2, h3, h4, h5]
  exact form_ok _ _ hwf (by decide)
theorem qpack (d : BitVec 6) (a : BitVec 6) (b : BitVec 6) : Statement (.qpack d a b) :=
  strand_of (1946157057 + d.toNat * 1048576 + a.toNat * 16384 + b.toNat * 256) rfl (by omega) rfl fun wd hw hwf => by
  have h0 : fld wd 26 6 = 29#6 := fld_eq wd 26 _ (by rw [hw]; show _ / 67108864 % 64 = 29; omega)
  have h1 : fld wd 0 6 = 1#6 := fld_eq wd 0 _ (by rw [hw]; show _ / 1 % 64 = 1; omega)
  have h2 : fld wd 20 6 = d := fld_eq wd 20 _ (by rw [hw]; show _ / 1048576 % 64 = _; omega)
  have h3 : fld wd 14 6 = a := fld_eq wd 14 _ (by rw [hw]; show _ / 16384 % 64 = _; omega)
  have h4 : fld wd 8 6 = b := fld_eq wd 8 _ (by rw [hw]; show _ / 256 % 64 = _; omega)
  have h5 : fld wd 6 2 = 0#2 := fld_eq wd 6 _ (by rw [hw]; show _ / 64 % 4 = 0; omega)
  unfold decodeForm; rw [h0]
  show decodeQuant wd = _
  unfold decodeQuant; rw [h1]
  show form (.qpack (fld wd 20 6) (fld wd 14 6) (fld wd 8 6)) (fld wd 6 2 == 0#2) = _
  simp only [h2, h3, h4, h5]
  exact form_ok _ _ hwf (by decide)
theorem qunpk (d : BitVec 6) (a : BitVec 6) (b : BitVec 6) : Statement (.qunpk d a b) :=
  strand_of (1946157058 + d.toNat * 1048576 + a.toNat * 16384 + b.toNat * 256) rfl (by omega) rfl fun wd hw hwf => by
  have h0 : fld wd 26 6 = 29#6 := fld_eq wd 26 _ (by rw [hw]; show _ / 67108864 % 64 = 29; omega)
  have h1 : fld wd 0 6 = 2#6 := fld_eq wd 0 _ (by rw [hw]; show _ / 1 % 64 = 2; omega)
  have h2 : fld wd 20 6 = d := fld_eq wd 20 _ (by rw [hw]; show _ / 1048576 % 64 = _; omega)
  have h3 : fld wd 14 6 = a := fld_eq wd 14 _ (by rw [hw]; show _ / 16384 % 64 = _; omega)
  have h4 : fld wd 8 6 = b := fld_eq wd 8 _ (by rw [hw]; show _ / 256 % 64 = _; omega)
  have h5 : fld wd 6 2 = 0#2 := fld_eq wd 6 _ (by rw [hw]; show _ / 64 % 4 = 0; omega)
  unfold decodeForm; rw [h0]
  show decodeQuant wd = _
  unfold decodeQuant; rw [h1]
  show form (.qunpk (fld wd 20 6) (fld wd 14 6) (fld wd 8 6)) (fld wd 6 2 == 0#2) = _
  simp only [h2, h3, h4, h5]
  exact form_ok _ _ hwf (by decide)
theorem vld (d : BitVec 6) (a : BitVec 6) (k : BitVec 3) (r : BitVec 1) (p : BitVec 2) (o : BitVec 8) : Statement (.vld d a k r p o) :=
  strand_of (2147483648 + d.toNat * 1048576 + a.toNat * 16384 + k.toNat * 2048 + r.toNat * 1024 + p.toNat * 256 + o.toNat * 1) rfl (by omega) rfl fun wd hw hwf => by
  have h0 : fld wd 26 6 = 32#6 := fld_eq wd 26 _ (by rw [hw]; show _ / 67108864 % 64 = 32; omega)
  have h1 : fld wd 20 6 = d := fld_eq wd 20 _ (by rw [hw]; show _ / 1048576 % 64 = _; omega)
  have h2 : fld wd 14 6 = a := fld_eq wd 14 _ (by rw [hw]; show _ / 16384 % 64 = _; omega)
  have h3 : fld wd 11 3 = k := fld_eq wd 11 _ (by rw [hw]; show _ / 2048 % 8 = _; omega)
  have h4 : fld wd 10 1 = r := fld_eq wd 10 _ (by rw [hw]; show _ / 1024 % 2 = _; omega)
  have h5 : fld wd 8 2 = p := fld_eq wd 8 _ (by rw [hw]; show _ / 256 % 4 = _; omega)
  have h6 : fld wd 0 8 = o := fld_eq wd 0 _ (by rw [hw]; show _ / 1 % 256 = _; omega)
  unfold decodeForm; rw [h0]
  show form (.vld (fld wd 20 6) (fld wd 14 6) (fld wd 11 3) (fld wd 10 1) (fld wd 8 2) (fld wd 0 8)) (true) = _
  simp only [h1, h2, h3, h4, h5, h6]
  exact form_ok _ _ hwf rfl
theorem vst (d : BitVec 6) (a : BitVec 6) (k : BitVec 3) (p : BitVec 2) (o : BitVec 8) : Statement (.vst d a k p o) :=
  strand_of (2214592512 + d.toNat * 1048576 + a.toNat * 16384 + k.toNat * 2048 + p.toNat * 256 + o.toNat * 1) rfl (by omega) rfl fun wd hw hwf => by
  have h0 : fld wd 26 6 = 33#6 := fld_eq wd 26 _ (by rw [hw]; show _ / 67108864 % 64 = 33; omega)
  have h1 : fld wd 20 6 = d := fld_eq wd 20 _ (by rw [hw]; show _ / 1048576 % 64 = _; omega)
  have h2 : fld wd 14 6 = a := fld_eq wd 14 _ (by rw [hw]; show _ / 16384 % 64 = _; omega)
  have h3 : fld wd 11 3 = k := fld_eq wd 11 _ (by rw [hw]; show _ / 2048 % 8 = _; omega)
  have h4 : fld wd 8 2 = p := fld_eq wd 8 _ (by rw [hw]; show _ / 256 % 4 = _; omega)
  have h5 : fld wd 0 8 = o := fld_eq wd 0 _ (by rw [hw]; show _ / 1 % 256 = _; omega)
  have h6 : fld wd 10 1 = 0#1 := fld_eq wd 10 _ (by rw [hw]; show _ / 1024 % 2 = 0; omega)
  unfold decodeForm; rw [h0]
  show form (.vst (fld wd 20 6) (fld wd 14 6) (fld wd 11 3) (fld wd 8 2) (fld wd 0 8)) (fld wd 10 1 == 0#1) = _
  simp only [h1, h2, h3, h4, h5, h6]
  exact form_ok _ _ hwf (by decide)
theorem ld (d : BitVec 6) (a : BitVec 6) (k : BitVec 3) (r : BitVec 1) (p : BitVec 2) (o : BitVec 8) : Statement (.ld d a k r p o) :=
  strand_of (2281701376 + d.toNat * 1048576 + a.toNat * 16384 + k.toNat * 2048 + r.toNat * 1024 + p.toNat * 256 + o.toNat * 1) rfl (by omega) rfl fun wd hw hwf => by
  have h0 : fld wd 26 6 = 34#6 := fld_eq wd 26 _ (by rw [hw]; show _ / 67108864 % 64 = 34; omega)
  have h1 : fld wd 20 6 = d := fld_eq wd 20 _ (by rw [hw]; show _ / 1048576 % 64 = _; omega)
  have h2 : fld wd 14 6 = a := fld_eq wd 14 _ (by rw [hw]; show _ / 16384 % 64 = _; omega)
  have h3 : fld wd 11 3 = k := fld_eq wd 11 _ (by rw [hw]; show _ / 2048 % 8 = _; omega)
  have h4 : fld wd 10 1 = r := fld_eq wd 10 _ (by rw [hw]; show _ / 1024 % 2 = _; omega)
  have h5 : fld wd 8 2 = p := fld_eq wd 8 _ (by rw [hw]; show _ / 256 % 4 = _; omega)
  have h6 : fld wd 0 8 = o := fld_eq wd 0 _ (by rw [hw]; show _ / 1 % 256 = _; omega)
  unfold decodeForm; rw [h0]
  show form (.ld (fld wd 20 6) (fld wd 14 6) (fld wd 11 3) (fld wd 10 1) (fld wd 8 2) (fld wd 0 8)) (true) = _
  simp only [h1, h2, h3, h4, h5, h6]
  exact form_ok _ _ hwf rfl
theorem st (d : BitVec 6) (a : BitVec 6) (k : BitVec 3) (p : BitVec 2) (o : BitVec 8) : Statement (.st d a k p o) :=
  strand_of (2348810240 + d.toNat * 1048576 + a.toNat * 16384 + k.toNat * 2048 + p.toNat * 256 + o.toNat * 1) rfl (by omega) rfl fun wd hw hwf => by
  have h0 : fld wd 26 6 = 35#6 := fld_eq wd 26 _ (by rw [hw]; show _ / 67108864 % 64 = 35; omega)
  have h1 : fld wd 20 6 = d := fld_eq wd 20 _ (by rw [hw]; show _ / 1048576 % 64 = _; omega)
  have h2 : fld wd 14 6 = a := fld_eq wd 14 _ (by rw [hw]; show _ / 16384 % 64 = _; omega)
  have h3 : fld wd 11 3 = k := fld_eq wd 11 _ (by rw [hw]; show _ / 2048 % 8 = _; omega)
  have h4 : fld wd 8 2 = p := fld_eq wd 8 _ (by rw [hw]; show _ / 256 % 4 = _; omega)
  have h5 : fld wd 0 8 = o := fld_eq wd 0 _ (by rw [hw]; show _ / 1 % 256 = _; omega)
  have h6 : fld wd 10 1 = 0#1 := fld_eq wd 10 _ (by rw [hw]; show _ / 1024 % 2 = 0; omega)
  unfold decodeForm; rw [h0]
  show form (.st (fld wd 20 6) (fld wd 14 6) (fld wd 11 3) (fld wd 8 2) (fld wd 0 8)) (fld wd 10 1 == 0#1) = _
  simp only [h1, h2, h3, h4, h5, h6]
  exact form_ok _ _ hwf (by decide)
theorem vlds (d : BitVec 6) (a : BitVec 6) (k : BitVec 3) (r : BitVec 1) (p : BitVec 2) (b : BitVec 6) : Statement (.vlds d a k r p b) :=
  strand_of (2415919104 + d.toNat * 1048576 + a.toNat * 16384 + k.toNat * 2048 + r.toNat * 1024 + p.toNat * 256 + b.toNat * 4) rfl (by omega) rfl fun wd hw hwf => by
  have h0 : fld wd 26 6 = 36#6 := fld_eq wd 26 _ (by rw [hw]; show _ / 67108864 % 64 = 36; omega)
  have h1 : fld wd 0 2 = 0#2 := fld_eq wd 0 _ (by rw [hw]; show _ / 1 % 4 = 0; omega)
  have h2 : fld wd 20 6 = d := fld_eq wd 20 _ (by rw [hw]; show _ / 1048576 % 64 = _; omega)
  have h3 : fld wd 14 6 = a := fld_eq wd 14 _ (by rw [hw]; show _ / 16384 % 64 = _; omega)
  have h4 : fld wd 11 3 = k := fld_eq wd 11 _ (by rw [hw]; show _ / 2048 % 8 = _; omega)
  have h5 : fld wd 10 1 = r := fld_eq wd 10 _ (by rw [hw]; show _ / 1024 % 2 = _; omega)
  have h6 : fld wd 8 2 = p := fld_eq wd 8 _ (by rw [hw]; show _ / 256 % 4 = _; omega)
  have h7 : fld wd 2 6 = b := fld_eq wd 2 _ (by rw [hw]; show _ / 4 % 64 = _; omega)
  unfold decodeForm; rw [h0]
  show decodeVldx wd = _
  unfold decodeVldx; rw [h1]
  show form (.vlds (fld wd 20 6) (fld wd 14 6) (fld wd 11 3) (fld wd 10 1) (fld wd 8 2) (fld wd 2 6)) (true) = _
  simp only [h2, h3, h4, h5, h6, h7]
  exact form_ok _ _ hwf rfl
theorem vldi (d : BitVec 6) (a : BitVec 6) (k : BitVec 3) (r : BitVec 1) (p : BitVec 2) (b : BitVec 6) : Statement (.vldi d a k r p b) :=
  strand_of (2415919105 + d.toNat * 1048576 + a.toNat * 16384 + k.toNat * 2048 + r.toNat * 1024 + p.toNat * 256 + b.toNat * 4) rfl (by omega) rfl fun wd hw hwf => by
  have h0 : fld wd 26 6 = 36#6 := fld_eq wd 26 _ (by rw [hw]; show _ / 67108864 % 64 = 36; omega)
  have h1 : fld wd 0 2 = 1#2 := fld_eq wd 0 _ (by rw [hw]; show _ / 1 % 4 = 1; omega)
  have h2 : fld wd 20 6 = d := fld_eq wd 20 _ (by rw [hw]; show _ / 1048576 % 64 = _; omega)
  have h3 : fld wd 14 6 = a := fld_eq wd 14 _ (by rw [hw]; show _ / 16384 % 64 = _; omega)
  have h4 : fld wd 11 3 = k := fld_eq wd 11 _ (by rw [hw]; show _ / 2048 % 8 = _; omega)
  have h5 : fld wd 10 1 = r := fld_eq wd 10 _ (by rw [hw]; show _ / 1024 % 2 = _; omega)
  have h6 : fld wd 8 2 = p := fld_eq wd 8 _ (by rw [hw]; show _ / 256 % 4 = _; omega)
  have h7 : fld wd 2 6 = b := fld_eq wd 2 _ (by rw [hw]; show _ / 4 % 64 = _; omega)
  unfold decodeForm; rw [h0]
  show decodeVldx wd = _
  unfold decodeVldx; rw [h1]
  show form (.vldi (fld wd 20 6) (fld wd 14 6) (fld wd 11 3) (fld wd 10 1) (fld wd 8 2) (fld wd 2 6)) (true) = _
  simp only [h2, h3, h4, h5, h6, h7]
  exact form_ok _ _ hwf rfl
theorem vsts (d : BitVec 6) (a : BitVec 6) (k : BitVec 3) (p : BitVec 2) (b : BitVec 6) : Statement (.vsts d a k p b) :=
  strand_of (2483027968 + d.toNat * 1048576 + a.toNat * 16384 + k.toNat * 2048 + p.toNat * 256 + b.toNat * 4) rfl (by omega) rfl fun wd hw hwf => by
  have h0 : fld wd 26 6 = 37#6 := fld_eq wd 26 _ (by rw [hw]; show _ / 67108864 % 64 = 37; omega)
  have h1 : fld wd 0 2 = 0#2 := fld_eq wd 0 _ (by rw [hw]; show _ / 1 % 4 = 0; omega)
  have h2 : fld wd 20 6 = d := fld_eq wd 20 _ (by rw [hw]; show _ / 1048576 % 64 = _; omega)
  have h3 : fld wd 14 6 = a := fld_eq wd 14 _ (by rw [hw]; show _ / 16384 % 64 = _; omega)
  have h4 : fld wd 11 3 = k := fld_eq wd 11 _ (by rw [hw]; show _ / 2048 % 8 = _; omega)
  have h5 : fld wd 8 2 = p := fld_eq wd 8 _ (by rw [hw]; show _ / 256 % 4 = _; omega)
  have h6 : fld wd 2 6 = b := fld_eq wd 2 _ (by rw [hw]; show _ / 4 % 64 = _; omega)
  have h7 : fld wd 10 1 = 0#1 := fld_eq wd 10 _ (by rw [hw]; show _ / 1024 % 2 = 0; omega)
  unfold decodeForm; rw [h0]
  show decodeVstx wd = _
  unfold decodeVstx; rw [h1]
  show form (.vsts (fld wd 20 6) (fld wd 14 6) (fld wd 11 3) (fld wd 8 2) (fld wd 2 6)) (fld wd 10 1 == 0#1) = _
  simp only [h2, h3, h4, h5, h6, h7]
  exact form_ok _ _ hwf (by decide)
theorem vsti (d : BitVec 6) (a : BitVec 6) (k : BitVec 3) (p : BitVec 2) (b : BitVec 6) : Statement (.vsti d a k p b) :=
  strand_of (2483027969 + d.toNat * 1048576 + a.toNat * 16384 + k.toNat * 2048 + p.toNat * 256 + b.toNat * 4) rfl (by omega) rfl fun wd hw hwf => by
  have h0 : fld wd 26 6 = 37#6 := fld_eq wd 26 _ (by rw [hw]; show _ / 67108864 % 64 = 37; omega)
  have h1 : fld wd 0 2 = 1#2 := fld_eq wd 0 _ (by rw [hw]; show _ / 1 % 4 = 1; omega)
  have h2 : fld wd 20 6 = d := fld_eq wd 20 _ (by rw [hw]; show _ / 1048576 % 64 = _; omega)
  have h3 : fld wd 14 6 = a := fld_eq wd 14 _ (by rw [hw]; show _ / 16384 % 64 = _; omega)
  have h4 : fld wd 11 3 = k := fld_eq wd 11 _ (by rw [hw]; show _ / 2048 % 8 = _; omega)
  have h5 : fld wd 8 2 = p := fld_eq wd 8 _ (by rw [hw]; show _ / 256 % 4 = _; omega)
  have h6 : fld wd 2 6 = b := fld_eq wd 2 _ (by rw [hw]; show _ / 4 % 64 = _; omega)
  have h7 : fld wd 10 1 = 0#1 := fld_eq wd 10 _ (by rw [hw]; show _ / 1024 % 2 = 0; omega)
  unfold decodeForm; rw [h0]
  show decodeVstx wd = _
  unfold decodeVstx; rw [h1]
  show form (.vsti (fld wd 20 6) (fld wd 14 6) (fld wd 11 3) (fld wd 8 2) (fld wd 2 6)) (fld wd 10 1 == 0#1) = _
  simp only [h2, h3, h4, h5, h6, h7]
  exact form_ok _ _ hwf (by decide)
theorem aadd (d : BitVec 6) (a : BitVec 6) (k : BitVec 3) (p : BitVec 2) (b : BitVec 6) : Statement (.aadd d a k p b) :=
  strand_of (2550136832 + d.toNat * 1048576 + a.toNat * 16384 + k.toNat * 2048 + p.toNat * 256 + b.toNat * 4) rfl (by omega) rfl fun wd hw hwf => by
  have h0 : fld wd 26 6 = 38#6 := fld_eq wd 26 _ (by rw [hw]; show _ / 67108864 % 64 = 38; omega)
  have h1 : fld wd 0 2 = 0#2 := fld_eq wd 0 _ (by rw [hw]; show _ / 1 % 4 = 0; omega)
  have h2 : fld wd 20 6 = d := fld_eq wd 20 _ (by rw [hw]; show _ / 1048576 % 64 = _; omega)
  have h3 : fld wd 14 6 = a := fld_eq wd 14 _ (by rw [hw]; show _ / 16384 % 64 = _; omega)
  have h4 : fld wd 11 3 = k := fld_eq wd 11 _ (by rw [hw]; show _ / 2048 % 8 = _; omega)
  have h5 : fld wd 8 2 = p := fld_eq wd 8 _ (by rw [hw]; show _ / 256 % 4 = _; omega)
  have h6 : fld wd 2 6 = b := fld_eq wd 2 _ (by rw [hw]; show _ / 4 % 64 = _; omega)
  have h7 : fld wd 10 1 = 0#1 := fld_eq wd 10 _ (by rw [hw]; show _ / 1024 % 2 = 0; omega)
  unfold decodeForm; rw [h0]
  show decodeAtoma wd = _
  unfold decodeAtoma; rw [h1]
  show form (.aadd (fld wd 20 6) (fld wd 14 6) (fld wd 11 3) (fld wd 8 2) (fld wd 2 6)) (fld wd 10 1 == 0#1) = _
  simp only [h2, h3, h4, h5, h6, h7]
  exact form_ok _ _ hwf (by decide)
theorem amin (d : BitVec 6) (a : BitVec 6) (k : BitVec 3) (p : BitVec 2) (b : BitVec 6) : Statement (.amin d a k p b) :=
  strand_of (2550136833 + d.toNat * 1048576 + a.toNat * 16384 + k.toNat * 2048 + p.toNat * 256 + b.toNat * 4) rfl (by omega) rfl fun wd hw hwf => by
  have h0 : fld wd 26 6 = 38#6 := fld_eq wd 26 _ (by rw [hw]; show _ / 67108864 % 64 = 38; omega)
  have h1 : fld wd 0 2 = 1#2 := fld_eq wd 0 _ (by rw [hw]; show _ / 1 % 4 = 1; omega)
  have h2 : fld wd 20 6 = d := fld_eq wd 20 _ (by rw [hw]; show _ / 1048576 % 64 = _; omega)
  have h3 : fld wd 14 6 = a := fld_eq wd 14 _ (by rw [hw]; show _ / 16384 % 64 = _; omega)
  have h4 : fld wd 11 3 = k := fld_eq wd 11 _ (by rw [hw]; show _ / 2048 % 8 = _; omega)
  have h5 : fld wd 8 2 = p := fld_eq wd 8 _ (by rw [hw]; show _ / 256 % 4 = _; omega)
  have h6 : fld wd 2 6 = b := fld_eq wd 2 _ (by rw [hw]; show _ / 4 % 64 = _; omega)
  have h7 : fld wd 10 1 = 0#1 := fld_eq wd 10 _ (by rw [hw]; show _ / 1024 % 2 = 0; omega)
  unfold decodeForm; rw [h0]
  show decodeAtoma wd = _
  unfold decodeAtoma; rw [h1]
  show form (.amin (fld wd 20 6) (fld wd 14 6) (fld wd 11 3) (fld wd 8 2) (fld wd 2 6)) (fld wd 10 1 == 0#1) = _
  simp only [h2, h3, h4, h5, h6, h7]
  exact form_ok _ _ hwf (by decide)
theorem amax (d : BitVec 6) (a : BitVec 6) (k : BitVec 3) (p : BitVec 2) (b : BitVec 6) : Statement (.amax d a k p b) :=
  strand_of (2550136834 + d.toNat * 1048576 + a.toNat * 16384 + k.toNat * 2048 + p.toNat * 256 + b.toNat * 4) rfl (by omega) rfl fun wd hw hwf => by
  have h0 : fld wd 26 6 = 38#6 := fld_eq wd 26 _ (by rw [hw]; show _ / 67108864 % 64 = 38; omega)
  have h1 : fld wd 0 2 = 2#2 := fld_eq wd 0 _ (by rw [hw]; show _ / 1 % 4 = 2; omega)
  have h2 : fld wd 20 6 = d := fld_eq wd 20 _ (by rw [hw]; show _ / 1048576 % 64 = _; omega)
  have h3 : fld wd 14 6 = a := fld_eq wd 14 _ (by rw [hw]; show _ / 16384 % 64 = _; omega)
  have h4 : fld wd 11 3 = k := fld_eq wd 11 _ (by rw [hw]; show _ / 2048 % 8 = _; omega)
  have h5 : fld wd 8 2 = p := fld_eq wd 8 _ (by rw [hw]; show _ / 256 % 4 = _; omega)
  have h6 : fld wd 2 6 = b := fld_eq wd 2 _ (by rw [hw]; show _ / 4 % 64 = _; omega)
  have h7 : fld wd 10 1 = 0#1 := fld_eq wd 10 _ (by rw [hw]; show _ / 1024 % 2 = 0; omega)
  unfold decodeForm; rw [h0]
  show decodeAtoma wd = _
  unfold decodeAtoma; rw [h1]
  show form (.amax (fld wd 20 6) (fld wd 14 6) (fld wd 11 3) (fld wd 8 2) (fld wd 2 6)) (fld wd 10 1 == 0#1) = _
  simp only [h2, h3, h4, h5, h6, h7]
  exact form_ok _ _ hwf (by decide)
theorem aand (d : BitVec 6) (a : BitVec 6) (k : BitVec 3) (p : BitVec 2) (b : BitVec 6) : Statement (.aand d a k p b) :=
  strand_of (2550136835 + d.toNat * 1048576 + a.toNat * 16384 + k.toNat * 2048 + p.toNat * 256 + b.toNat * 4) rfl (by omega) rfl fun wd hw hwf => by
  have h0 : fld wd 26 6 = 38#6 := fld_eq wd 26 _ (by rw [hw]; show _ / 67108864 % 64 = 38; omega)
  have h1 : fld wd 0 2 = 3#2 := fld_eq wd 0 _ (by rw [hw]; show _ / 1 % 4 = 3; omega)
  have h2 : fld wd 20 6 = d := fld_eq wd 20 _ (by rw [hw]; show _ / 1048576 % 64 = _; omega)
  have h3 : fld wd 14 6 = a := fld_eq wd 14 _ (by rw [hw]; show _ / 16384 % 64 = _; omega)
  have h4 : fld wd 11 3 = k := fld_eq wd 11 _ (by rw [hw]; show _ / 2048 % 8 = _; omega)
  have h5 : fld wd 8 2 = p := fld_eq wd 8 _ (by rw [hw]; show _ / 256 % 4 = _; omega)
  have h6 : fld wd 2 6 = b := fld_eq wd 2 _ (by rw [hw]; show _ / 4 % 64 = _; omega)
  have h7 : fld wd 10 1 = 0#1 := fld_eq wd 10 _ (by rw [hw]; show _ / 1024 % 2 = 0; omega)
  unfold decodeForm; rw [h0]
  show decodeAtoma wd = _
  unfold decodeAtoma; rw [h1]
  show form (.aand (fld wd 20 6) (fld wd 14 6) (fld wd 11 3) (fld wd 8 2) (fld wd 2 6)) (fld wd 10 1 == 0#1) = _
  simp only [h2, h3, h4, h5, h6, h7]
  exact form_ok _ _ hwf (by decide)
theorem aor (d : BitVec 6) (a : BitVec 6) (k : BitVec 3) (p : BitVec 2) (b : BitVec 6) : Statement (.aor d a k p b) :=
  strand_of (2617245696 + d.toNat * 1048576 + a.toNat * 16384 + k.toNat * 2048 + p.toNat * 256 + b.toNat * 4) rfl (by omega) rfl fun wd hw hwf => by
  have h0 : fld wd 26 6 = 39#6 := fld_eq wd 26 _ (by rw [hw]; show _ / 67108864 % 64 = 39; omega)
  have h1 : fld wd 0 2 = 0#2 := fld_eq wd 0 _ (by rw [hw]; show _ / 1 % 4 = 0; omega)
  have h2 : fld wd 20 6 = d := fld_eq wd 20 _ (by rw [hw]; show _ / 1048576 % 64 = _; omega)
  have h3 : fld wd 14 6 = a := fld_eq wd 14 _ (by rw [hw]; show _ / 16384 % 64 = _; omega)
  have h4 : fld wd 11 3 = k := fld_eq wd 11 _ (by rw [hw]; show _ / 2048 % 8 = _; omega)
  have h5 : fld wd 8 2 = p := fld_eq wd 8 _ (by rw [hw]; show _ / 256 % 4 = _; omega)
  have h6 : fld wd 2 6 = b := fld_eq wd 2 _ (by rw [hw]; show _ / 4 % 64 = _; omega)
  have h7 : fld wd 10 1 = 0#1 := fld_eq wd 10 _ (by rw [hw]; show _ / 1024 % 2 = 0; omega)
  unfold decodeForm; rw [h0]
  show decodeAtomb wd = _
  unfold decodeAtomb; rw [h1]
  show form (.aor (fld wd 20 6) (fld wd 14 6) (fld wd 11 3) (fld wd 8 2) (fld wd 2 6)) (fld wd 10 1 == 0#1) = _
  simp only [h2, h3, h4, h5, h6, h7]
  exact form_ok _ _ hwf (by decide)
theorem axor (d : BitVec 6) (a : BitVec 6) (k : BitVec 3) (p : BitVec 2) (b : BitVec 6) : Statement (.axor d a k p b) :=
  strand_of (2617245697 + d.toNat * 1048576 + a.toNat * 16384 + k.toNat * 2048 + p.toNat * 256 + b.toNat * 4) rfl (by omega) rfl fun wd hw hwf => by
  have h0 : fld wd 26 6 = 39#6 := fld_eq wd 26 _ (by rw [hw]; show _ / 67108864 % 64 = 39; omega)
  have h1 : fld wd 0 2 = 1#2 := fld_eq wd 0 _ (by rw [hw]; show _ / 1 % 4 = 1; omega)
  have h2 : fld wd 20 6 = d := fld_eq wd 20 _ (by rw [hw]; show _ / 1048576 % 64 = _; omega)
  have h3 : fld wd 14 6 = a := fld_eq wd 14 _ (by rw [hw]; show _ / 16384 % 64 = _; omega)
  have h4 : fld wd 11 3 = k := fld_eq wd 11 _ (by rw [hw]; show _ / 2048 % 8 = _; omega)
  have h5 : fld wd 8 2 = p := fld_eq wd 8 _ (by rw [hw]; show _ / 256 % 4 = _; omega)
  have h6 : fld wd 2 6 = b := fld_eq wd 2 _ (by rw [hw]; show _ / 4 % 64 = _; omega)
  have h7 : fld wd 10 1 = 0#1 := fld_eq wd 10 _ (by rw [hw]; show _ / 1024 % 2 = 0; omega)
  unfold decodeForm; rw [h0]
  show decodeAtomb wd = _
  unfold decodeAtomb; rw [h1]
  show form (.axor (fld wd 20 6) (fld wd 14 6) (fld wd 11 3) (fld wd 8 2) (fld wd 2 6)) (fld wd 10 1 == 0#1) = _
  simp only [h2, h3, h4, h5, h6, h7]
  exact form_ok _ _ hwf (by decide)
theorem aswp (d : BitVec 6) (a : BitVec 6) (k : BitVec 3) (p : BitVec 2) (b : BitVec 6) : Statement (.aswp d a k p b) :=
  strand_of (2617245698 + d.toNat * 1048576 + a.toNat * 16384 + k.toNat * 2048 + p.toNat * 256 + b.toNat * 4) rfl (by omega) rfl fun wd hw hwf => by
  have h0 : fld wd 26 6 = 39#6 := fld_eq wd 26 _ (by rw [hw]; show _ / 67108864 % 64 = 39; omega)
  have h1 : fld wd 0 2 = 2#2 := fld_eq wd 0 _ (by rw [hw]; show _ / 1 % 4 = 2; omega)
  have h2 : fld wd 20 6 = d := fld_eq wd 20 _ (by rw [hw]; show _ / 1048576 % 64 = _; omega)
  have h3 : fld wd 14 6 = a := fld_eq wd 14 _ (by rw [hw]; show _ / 16384 % 64 = _; omega)
  have h4 : fld wd 11 3 = k := fld_eq wd 11 _ (by rw [hw]; show _ / 2048 % 8 = _; omega)
  have h5 : fld wd 8 2 = p := fld_eq wd 8 _ (by rw [hw]; show _ / 256 % 4 = _; omega)
  have h6 : fld wd 2 6 = b := fld_eq wd 2 _ (by rw [hw]; show _ / 4 % 64 = _; omega)
  have h7 : fld wd 10 1 = 0#1 := fld_eq wd 10 _ (by rw [hw]; show _ / 1024 % 2 = 0; omega)
  unfold decodeForm; rw [h0]
  show decodeAtomb wd = _
  unfold decodeAtomb; rw [h1]
  show form (.aswp (fld wd 20 6) (fld wd 14 6) (fld wd 11 3) (fld wd 8 2) (fld wd 2 6)) (fld wd 10 1 == 0#1) = _
  simp only [h2, h3, h4, h5, h6, h7]
  exact form_ok _ _ hwf (by decide)
theorem acas (d : BitVec 6) (a : BitVec 6) (k : BitVec 3) (p : BitVec 2) (b : BitVec 6) : Statement (.acas d a k p b) :=
  strand_of (2617245699 + d.toNat * 1048576 + a.toNat * 16384 + k.toNat * 2048 + p.toNat * 256 + b.toNat * 4) rfl (by omega) rfl fun wd hw hwf => by
  have h0 : fld wd 26 6 = 39#6 := fld_eq wd 26 _ (by rw [hw]; show _ / 67108864 % 64 = 39; omega)
  have h1 : fld wd 0 2 = 3#2 := fld_eq wd 0 _ (by rw [hw]; show _ / 1 % 4 = 3; omega)
  have h2 : fld wd 20 6 = d := fld_eq wd 20 _ (by rw [hw]; show _ / 1048576 % 64 = _; omega)
  have h3 : fld wd 14 6 = a := fld_eq wd 14 _ (by rw [hw]; show _ / 16384 % 64 = _; omega)
  have h4 : fld wd 11 3 = k := fld_eq wd 11 _ (by rw [hw]; show _ / 2048 % 8 = _; omega)
  have h5 : fld wd 8 2 = p := fld_eq wd 8 _ (by rw [hw]; show _ / 256 % 4 = _; omega)
  have h6 : fld wd 2 6 = b := fld_eq wd 2 _ (by rw [hw]; show _ / 4 % 64 = _; omega)
  have h7 : fld wd 10 1 = 0#1 := fld_eq wd 10 _ (by rw [hw]; show _ / 1024 % 2 = 0; omega)
  unfold decodeForm; rw [h0]
  show decodeAtomb wd = _
  unfold decodeAtomb; rw [h1]
  show form (.acas (fld wd 20 6) (fld wd 14 6) (fld wd 11 3) (fld wd 8 2) (fld wd 2 6)) (fld wd 10 1 == 0#1) = _
  simp only [h2, h3, h4, h5, h6, h7]
  exact form_ok _ _ hwf (by decide)
theorem pref (a : BitVec 6) (k : BitVec 3) (p : BitVec 2) (o : BitVec 8) : Statement (.pref a k p o) :=
  strand_of (2818572288 + a.toNat * 16384 + k.toNat * 2048 + p.toNat * 256 + o.toNat * 1) rfl (by omega) rfl fun wd hw hwf => by
  have h0 : fld wd 26 6 = 42#6 := fld_eq wd 26 _ (by rw [hw]; show _ / 67108864 % 64 = 42; omega)
  have h1 : fld wd 14 6 = a := fld_eq wd 14 _ (by rw [hw]; show _ / 16384 % 64 = _; omega)
  have h2 : fld wd 11 3 = k := fld_eq wd 11 _ (by rw [hw]; show _ / 2048 % 8 = _; omega)
  have h3 : fld wd 8 2 = p := fld_eq wd 8 _ (by rw [hw]; show _ / 256 % 4 = _; omega)
  have h4 : fld wd 0 8 = o := fld_eq wd 0 _ (by rw [hw]; show _ / 1 % 256 = _; omega)
  have h5 : fld wd 20 6 = 0#6 := fld_eq wd 20 _ (by rw [hw]; show _ / 1048576 % 64 = 0; omega)
  have h6 : fld wd 10 1 = 0#1 := fld_eq wd 10 _ (by rw [hw]; show _ / 1024 % 2 = 0; omega)
  unfold decodeForm; rw [h0]
  show form (.pref (fld wd 14 6) (fld wd 11 3) (fld wd 8 2) (fld wd 0 8)) (fld wd 20 6 == 0#6 && fld wd 10 1 == 0#1) = _
  simp only [h1, h2, h3, h4, h5, h6]
  exact form_ok _ _ hwf (by decide)
theorem tld (d : BitVec 6) (a : BitVec 6) (t : BitVec 6) : Statement (.tld d a t) :=
  strand_of (2684354560 + d.toNat * 1048576 + a.toNat * 16384 + t.toNat * 1) rfl (by omega) rfl fun wd hw hwf => by
  have h0 : fld wd 26 6 = 40#6 := fld_eq wd 26 _ (by rw [hw]; show _ / 67108864 % 64 = 40; omega)
  have h1 : fld wd 10 4 = 0#4 := fld_eq wd 10 _ (by rw [hw]; show _ / 1024 % 16 = 0; omega)
  have h2 : fld wd 20 6 = d := fld_eq wd 20 _ (by rw [hw]; show _ / 1048576 % 64 = _; omega)
  have h3 : fld wd 14 6 = a := fld_eq wd 14 _ (by rw [hw]; show _ / 16384 % 64 = _; omega)
  have h4 : fld wd 0 6 = t := fld_eq wd 0 _ (by rw [hw]; show _ / 1 % 64 = _; omega)
  have h5 : fld wd 6 4 = 0#4 := fld_eq wd 6 _ (by rw [hw]; show _ / 64 % 16 = 0; omega)
  unfold decodeForm; rw [h0]
  show decodeTile wd = _
  unfold decodeTile; rw [h1]
  show form (.tld (fld wd 20 6) (fld wd 14 6) (fld wd 0 6)) (fld wd 6 4 == 0#4) = _
  simp only [h2, h3, h4, h5]
  exact form_ok _ _ hwf (by decide)
theorem tst (d : BitVec 6) (a : BitVec 6) (t : BitVec 6) : Statement (.tst d a t) :=
  strand_of (2684355584 + d.toNat * 1048576 + a.toNat * 16384 + t.toNat * 1) rfl (by omega) rfl fun wd hw hwf => by
  have h0 : fld wd 26 6 = 40#6 := fld_eq wd 26 _ (by rw [hw]; show _ / 67108864 % 64 = 40; omega)
  have h1 : fld wd 10 4 = 1#4 := fld_eq wd 10 _ (by rw [hw]; show _ / 1024 % 16 = 1; omega)
  have h2 : fld wd 20 6 = d := fld_eq wd 20 _ (by rw [hw]; show _ / 1048576 % 64 = _; omega)
  have h3 : fld wd 14 6 = a := fld_eq wd 14 _ (by rw [hw]; show _ / 16384 % 64 = _; omega)
  have h4 : fld wd 0 6 = t := fld_eq wd 0 _ (by rw [hw]; show _ / 1 % 64 = _; omega)
  have h5 : fld wd 6 4 = 0#4 := fld_eq wd 6 _ (by rw [hw]; show _ / 64 % 16 = 0; omega)
  unfold decodeForm; rw [h0]
  show decodeTile wd = _
  unfold decodeTile; rw [h1]
  show form (.tst (fld wd 20 6) (fld wd 14 6) (fld wd 0 6)) (fld wd 6 4 == 0#4) = _
  simp only [h2, h3, h4, h5]
  exact form_ok _ _ hwf (by decide)
theorem bld (d : BitVec 6) (a : BitVec 6) (u : BitVec 2) : Statement (.bld d a u) :=
  strand_of (2684356608 + d.toNat * 1048576 + a.toNat * 16384 + u.toNat * 256) rfl (by omega) rfl fun wd hw hwf => by
  have h0 : fld wd 26 6 = 40#6 := fld_eq wd 26 _ (by rw [hw]; show _ / 67108864 % 64 = 40; omega)
  have h1 : fld wd 10 4 = 2#4 := fld_eq wd 10 _ (by rw [hw]; show _ / 1024 % 16 = 2; omega)
  have h2 : fld wd 20 6 = d := fld_eq wd 20 _ (by rw [hw]; show _ / 1048576 % 64 = _; omega)
  have h3 : fld wd 14 6 = a := fld_eq wd 14 _ (by rw [hw]; show _ / 16384 % 64 = _; omega)
  have h4 : fld wd 8 2 = u := fld_eq wd 8 _ (by rw [hw]; show _ / 256 % 4 = _; omega)
  have h5 : fld wd 0 8 = 0#8 := fld_eq wd 0 _ (by rw [hw]; show _ / 1 % 256 = 0; omega)
  unfold decodeForm; rw [h0]
  show decodeTile wd = _
  unfold decodeTile; rw [h1]
  show form (.bld (fld wd 20 6) (fld wd 14 6) (fld wd 8 2)) (fld wd 0 8 == 0#8) = _
  simp only [h2, h3, h4, h5]
  exact form_ok _ _ hwf (by decide)
theorem bst (d : BitVec 6) (a : BitVec 6) (u : BitVec 2) : Statement (.bst d a u) :=
  strand_of (2684357632 + d.toNat * 1048576 + a.toNat * 16384 + u.toNat * 256) rfl (by omega) rfl fun wd hw hwf => by
  have h0 : fld wd 26 6 = 40#6 := fld_eq wd 26 _ (by rw [hw]; show _ / 67108864 % 64 = 40; omega)
  have h1 : fld wd 10 4 = 3#4 := fld_eq wd 10 _ (by rw [hw]; show _ / 1024 % 16 = 3; omega)
  have h2 : fld wd 20 6 = d := fld_eq wd 20 _ (by rw [hw]; show _ / 1048576 % 64 = _; omega)
  have h3 : fld wd 14 6 = a := fld_eq wd 14 _ (by rw [hw]; show _ / 16384 % 64 = _; omega)
  have h4 : fld wd 8 2 = u := fld_eq wd 8 _ (by rw [hw]; show _ / 256 % 4 = _; omega)
  have h5 : fld wd 0 8 = 0#8 := fld_eq wd 0 _ (by rw [hw]; show _ / 1 % 256 = 0; omega)
  unfold decodeForm; rw [h0]
  show decodeTile wd = _
  unfold decodeTile; rw [h1]
  show form (.bst (fld wd 20 6) (fld wd 14 6) (fld wd 8 2)) (fld wd 0 8 == 0#8) = _
  simp only [h2, h3, h4, h5]
  exact form_ok _ _ hwf (by decide)
theorem vspill (d : BitVec 6) (a : BitVec 6) : Statement (.vspill d a) :=
  strand_of (2684358656 + d.toNat * 1048576 + a.toNat * 16384) rfl (by omega) rfl fun wd hw hwf => by
  have h0 : fld wd 26 6 = 40#6 := fld_eq wd 26 _ (by rw [hw]; show _ / 67108864 % 64 = 40; omega)
  have h1 : fld wd 10 4 = 4#4 := fld_eq wd 10 _ (by rw [hw]; show _ / 1024 % 16 = 4; omega)
  have h2 : fld wd 20 6 = d := fld_eq wd 20 _ (by rw [hw]; show _ / 1048576 % 64 = _; omega)
  have h3 : fld wd 14 6 = a := fld_eq wd 14 _ (by rw [hw]; show _ / 16384 % 64 = _; omega)
  have h4 : fld wd 0 10 = 0#10 := fld_eq wd 0 _ (by rw [hw]; show _ / 1 % 1024 = 0; omega)
  unfold decodeForm; rw [h0]
  show decodeTile wd = _
  unfold decodeTile; rw [h1]
  show form (.vspill (fld wd 20 6) (fld wd 14 6)) (fld wd 0 10 == 0#10) = _
  simp only [h2, h3, h4]
  exact form_ok _ _ hwf (by decide)
theorem vfill (a : BitVec 6) : Statement (.vfill a) :=
  strand_of (2684359680 + a.toNat * 16384) rfl (by omega) rfl fun wd hw hwf => by
  have h0 : fld wd 26 6 = 40#6 := fld_eq wd 26 _ (by rw [hw]; show _ / 67108864 % 64 = 40; omega)
  have h1 : fld wd 10 4 = 5#4 := fld_eq wd 10 _ (by rw [hw]; show _ / 1024 % 16 = 5; omega)
  have h2 : fld wd 14 6 = a := fld_eq wd 14 _ (by rw [hw]; show _ / 16384 % 64 = _; omega)
  have h3 : fld wd 20 6 = 0#6 := fld_eq wd 20 _ (by rw [hw]; show _ / 1048576 % 64 = 0; omega)
  have h4 : fld wd 0 10 = 0#10 := fld_eq wd 0 _ (by rw [hw]; show _ / 1 % 1024 = 0; omega)
  unfold decodeForm; rw [h0]
  show decodeTile wd = _
  unfold decodeTile; rw [h1]
  show form (.vfill (fld wd 14 6)) (fld wd 20 6 == 0#6 && fld wd 0 10 == 0#10) = _
  simp only [h2, h3, h4]
  exact form_ok _ _ hwf (by decide)
theorem wait (k : BitVec 8) : Statement (.wait k) :=
  strand_of (2751463424 + k.toNat * 1) rfl (by omega) rfl fun wd hw hwf => by
  have h0 : fld wd 26 6 = 41#6 := fld_eq wd 26 _ (by rw [hw]; show _ / 67108864 % 64 = 41; omega)
  have h1 : fld wd 10 4 = 0#4 := fld_eq wd 10 _ (by rw [hw]; show _ / 1024 % 16 = 0; omega)
  have h2 : fld wd 0 8 = k := fld_eq wd 0 _ (by rw [hw]; show _ / 1 % 256 = _; omega)
  have h3 : fld wd 14 12 = 0#12 := fld_eq wd 14 _ (by rw [hw]; show _ / 16384 % 4096 = 0; omega)
  have h4 : fld wd 8 2 = 0#2 := fld_eq wd 8 _ (by rw [hw]; show _ / 256 % 4 = 0; omega)
  unfold decodeForm; rw [h0]
  show decodeSync wd = _
  unfold decodeSync; rw [h1]
  show form (.wait (fld wd 0 8)) (fld wd 14 12 == 0#12 && fld wd 8 2 == 0#2) = _
  simp only [h2, h3, h4]
  exact form_ok _ _ hwf (by decide)
theorem drain (k : BitVec 8) : Statement (.drain k) :=
  strand_of (2751464448 + k.toNat * 1) rfl (by omega) rfl fun wd hw hwf => by
  have h0 : fld wd 26 6 = 41#6 := fld_eq wd 26 _ (by rw [hw]; show _ / 67108864 % 64 = 41; omega)
  have h1 : fld wd 10 4 = 1#4 := fld_eq wd 10 _ (by rw [hw]; show _ / 1024 % 16 = 1; omega)
  have h2 : fld wd 0 8 = k := fld_eq wd 0 _ (by rw [hw]; show _ / 1 % 256 = _; omega)
  have h3 : fld wd 14 12 = 0#12 := fld_eq wd 14 _ (by rw [hw]; show _ / 16384 % 4096 = 0; omega)
  have h4 : fld wd 8 2 = 0#2 := fld_eq wd 8 _ (by rw [hw]; show _ / 256 % 4 = 0; omega)
  unfold decodeForm; rw [h0]
  show decodeSync wd = _
  unfold decodeSync; rw [h1]
  show form (.drain (fld wd 0 8)) (fld wd 14 12 == 0#12 && fld wd 8 2 == 0#2) = _
  simp only [h2, h3, h4]
  exact form_ok _ _ hwf (by decide)
theorem binit (a : BitVec 6) (n : BitVec 10) : Statement (.binit a n) :=
  strand_of (2885681152 + a.toNat * 16384 + n.toNat * 1) rfl (by omega) rfl fun wd hw hwf => by
  have h0 : fld wd 26 6 = 43#6 := fld_eq wd 26 _ (by rw [hw]; show _ / 67108864 % 64 = 43; omega)
  have h1 : fld wd 10 4 = 0#4 := fld_eq wd 10 _ (by rw [hw]; show _ / 1024 % 16 = 0; omega)
  have h2 : fld wd 14 6 = a := fld_eq wd 14 _ (by rw [hw]; show _ / 16384 % 64 = _; omega)
  have h3 : fld wd 0 10 = n := fld_eq wd 0 _ (by rw [hw]; show _ / 1 % 1024 = _; omega)
  have h4 : fld wd 20 6 = 0#6 := fld_eq wd 20 _ (by rw [hw]; show _ / 1048576 % 64 = 0; omega)
  unfold decodeForm; rw [h0]
  show decodeBar wd = _
  unfold decodeBar; rw [h1]
  show form (.binit (fld wd 14 6) (fld wd 0 10)) (fld wd 20 6 == 0#6) = _
  simp only [h2, h3, h4]
  exact form_ok _ _ hwf (by decide)
theorem bexp (a : BitVec 6) (n : BitVec 10) : Statement (.bexp a n) :=
  strand_of (2885682176 + a.toNat * 16384 + n.toNat * 1) rfl (by omega) rfl fun wd hw hwf => by
  have h0 : fld wd 26 6 = 43#6 := fld_eq wd 26 _ (by rw [hw]; show _ / 67108864 % 64 = 43; omega)
  have h1 : fld wd 10 4 = 1#4 := fld_eq wd 10 _ (by rw [hw]; show _ / 1024 % 16 = 1; omega)
  have h2 : fld wd 14 6 = a := fld_eq wd 14 _ (by rw [hw]; show _ / 16384 % 64 = _; omega)
  have h3 : fld wd 0 10 = n := fld_eq wd 0 _ (by rw [hw]; show _ / 1 % 1024 = _; omega)
  have h4 : fld wd 20 6 = 0#6 := fld_eq wd 20 _ (by rw [hw]; show _ / 1048576 % 64 = 0; omega)
  unfold decodeForm; rw [h0]
  show decodeBar wd = _
  unfold decodeBar; rw [h1]
  show form (.bexp (fld wd 14 6) (fld wd 0 10)) (fld wd 20 6 == 0#6) = _
  simp only [h2, h3, h4]
  exact form_ok _ _ hwf (by decide)
theorem barv (d : BitVec 6) (n : BitVec 10) : Statement (.barv d n) :=
  strand_of (2885683200 + d.toNat * 1048576 + n.toNat * 1) rfl (by omega) rfl fun wd hw hwf => by
  have h0 : fld wd 26 6 = 43#6 := fld_eq wd 26 _ (by rw [hw]; show _ / 67108864 % 64 = 43; omega)
  have h1 : fld wd 10 4 = 2#4 := fld_eq wd 10 _ (by rw [hw]; show _ / 1024 % 16 = 2; omega)
  have h2 : fld wd 20 6 = d := fld_eq wd 20 _ (by rw [hw]; show _ / 1048576 % 64 = _; omega)
  have h3 : fld wd 0 10 = n := fld_eq wd 0 _ (by rw [hw]; show _ / 1 % 1024 = _; omega)
  have h4 : fld wd 14 6 = 0#6 := fld_eq wd 14 _ (by rw [hw]; show _ / 16384 % 64 = 0; omega)
  unfold decodeForm; rw [h0]
  show decodeBar wd = _
  unfold decodeBar; rw [h1]
  show form (.barv (fld wd 20 6) (fld wd 0 10)) (fld wd 14 6 == 0#6) = _
  simp only [h2, h3, h4]
  exact form_ok _ _ hwf (by decide)
theorem bgen (d : BitVec 6) (n : BitVec 10) : Statement (.bgen d n) :=
  strand_of (2885684224 + d.toNat * 1048576 + n.toNat * 1) rfl (by omega) rfl fun wd hw hwf => by
  have h0 : fld wd 26 6 = 43#6 := fld_eq wd 26 _ (by rw [hw]; show _ / 67108864 % 64 = 43; omega)
  have h1 : fld wd 10 4 = 3#4 := fld_eq wd 10 _ (by rw [hw]; show _ / 1024 % 16 = 3; omega)
  have h2 : fld wd 20 6 = d := fld_eq wd 20 _ (by rw [hw]; show _ / 1048576 % 64 = _; omega)
  have h3 : fld wd 0 10 = n := fld_eq wd 0 _ (by rw [hw]; show _ / 1 % 1024 = _; omega)
  have h4 : fld wd 14 6 = 0#6 := fld_eq wd 14 _ (by rw [hw]; show _ / 16384 % 64 = 0; omega)
  unfold decodeForm; rw [h0]
  show decodeBar wd = _
  unfold decodeBar; rw [h1]
  show form (.bgen (fld wd 20 6) (fld wd 0 10)) (fld wd 14 6 == 0#6) = _
  simp only [h2, h3, h4]
  exact form_ok _ _ hwf (by decide)
theorem bwait (d : BitVec 6) (a : BitVec 6) (n : BitVec 10) : Statement (.bwait d a n) :=
  strand_of (2885685248 + d.toNat * 1048576 + a.toNat * 16384 + n.toNat * 1) rfl (by omega) rfl fun wd hw hwf => by
  have h0 : fld wd 26 6 = 43#6 := fld_eq wd 26 _ (by rw [hw]; show _ / 67108864 % 64 = 43; omega)
  have h1 : fld wd 10 4 = 4#4 := fld_eq wd 10 _ (by rw [hw]; show _ / 1024 % 16 = 4; omega)
  have h2 : fld wd 20 6 = d := fld_eq wd 20 _ (by rw [hw]; show _ / 1048576 % 64 = _; omega)
  have h3 : fld wd 14 6 = a := fld_eq wd 14 _ (by rw [hw]; show _ / 16384 % 64 = _; omega)
  have h4 : fld wd 0 10 = n := fld_eq wd 0 _ (by rw [hw]; show _ / 1 % 1024 = _; omega)
  unfold decodeForm; rw [h0]
  show decodeBar wd = _
  unfold decodeBar; rw [h1]
  show form (.bwait (fld wd 20 6) (fld wd 14 6) (fld wd 0 10)) (true) = _
  simp only [h2, h3, h4]
  exact form_ok _ _ hwf rfl
theorem bwaitP (d : BitVec 6) (a : BitVec 6) (n : BitVec 10) : Statement (.bwaitP d a n) :=
  strand_of (2885686272 + d.toNat * 1048576 + a.toNat * 16384 + n.toNat * 1) rfl (by omega) rfl fun wd hw hwf => by
  have h0 : fld wd 26 6 = 43#6 := fld_eq wd 26 _ (by rw [hw]; show _ / 67108864 % 64 = 43; omega)
  have h1 : fld wd 10 4 = 5#4 := fld_eq wd 10 _ (by rw [hw]; show _ / 1024 % 16 = 5; omega)
  have h2 : fld wd 20 6 = d := fld_eq wd 20 _ (by rw [hw]; show _ / 1048576 % 64 = _; omega)
  have h3 : fld wd 14 6 = a := fld_eq wd 14 _ (by rw [hw]; show _ / 16384 % 64 = _; omega)
  have h4 : fld wd 0 10 = n := fld_eq wd 0 _ (by rw [hw]; show _ / 1 % 1024 = _; omega)
  unfold decodeForm; rw [h0]
  show decodeBar wd = _
  unfold decodeBar; rw [h1]
  show form (.bwaitP (fld wd 20 6) (fld wd 14 6) (fld wd 0 10)) (true) = _
  simp only [h2, h3, h4]
  exact form_ok _ _ hwf rfl
theorem sstep (d : BitVec 6) (n : BitVec 6) : Statement (.sstep d n) :=
  strand_of (2885687296 + d.toNat * 1048576 + n.toNat * 1) rfl (by omega) rfl fun wd hw hwf => by
  have h0 : fld wd 26 6 = 43#6 := fld_eq wd 26 _ (by rw [hw]; show _ / 67108864 % 64 = 43; omega)
  have h1 : fld wd 10 4 = 6#4 := fld_eq wd 10 _ (by rw [hw]; show _ / 1024 % 16 = 6; omega)
  have h2 : fld wd 20 6 = d := fld_eq wd 20 _ (by rw [hw]; show _ / 1048576 % 64 = _; omega)
  have h3 : fld wd 0 6 = n := fld_eq wd 0 _ (by rw [hw]; show _ / 1 % 64 = _; omega)
  have h4 : fld wd 14 6 = 0#6 := fld_eq wd 14 _ (by rw [hw]; show _ / 16384 % 64 = 0; omega)
  have h5 : fld wd 6 4 = 0#4 := fld_eq wd 6 _ (by rw [hw]; show _ / 64 % 16 = 0; omega)
  unfold decodeForm; rw [h0]
  show decodeBar wd = _
  unfold decodeBar; rw [h1]
  show form (.sstep (fld wd 20 6) (fld wd 0 6)) (fld wd 14 6 == 0#6 && fld wd 6 4 == 0#4) = _
  simp only [h2, h3, h4, h5]
  exact form_ok _ _ hwf (by decide)
theorem bwaitS (d : BitVec 6) (a : BitVec 6) (n : BitVec 6) : Statement (.bwaitS d a n) :=
  strand_of (2885688320 + d.toNat * 1048576 + a.toNat * 16384 + n.toNat * 1) rfl (by omega) rfl fun wd hw hwf => by
  have h0 : fld wd 26 6 = 43#6 := fld_eq wd 26 _ (by rw [hw]; show _ / 67108864 % 64 = 43; omega)
  have h1 : fld wd 10 4 = 7#4 := fld_eq wd 10 _ (by rw [hw]; show _ / 1024 % 16 = 7; omega)
  have h2 : fld wd 20 6 = d := fld_eq wd 20 _ (by rw [hw]; show _ / 1048576 % 64 = _; omega)
  have h3 : fld wd 14 6 = a := fld_eq wd 14 _ (by rw [hw]; show _ / 16384 % 64 = _; omega)
  have h4 : fld wd 0 6 = n := fld_eq wd 0 _ (by rw [hw]; show _ / 1 % 64 = _; omega)
  have h5 : fld wd 6 4 = 0#4 := fld_eq wd 6 _ (by rw [hw]; show _ / 64 % 16 = 0; omega)
  unfold decodeForm; rw [h0]
  show decodeBar wd = _
  unfold decodeBar; rw [h1]
  show form (.bwaitS (fld wd 20 6) (fld wd 14 6) (fld wd 0 6)) (fld wd 6 4 == 0#4) = _
  simp only [h2, h3, h4, h5]
  exact form_ok _ _ hwf (by decide)
theorem bwaitSP (d : BitVec 6) (a : BitVec 6) (n : BitVec 6) : Statement (.bwaitSP d a n) :=
  strand_of (2885689344 + d.toNat * 1048576 + a.toNat * 16384 + n.toNat * 1) rfl (by omega) rfl fun wd hw hwf => by
  have h0 : fld wd 26 6 = 43#6 := fld_eq wd 26 _ (by rw [hw]; show _ / 67108864 % 64 = 43; omega)
  have h1 : fld wd 10 4 = 8#4 := fld_eq wd 10 _ (by rw [hw]; show _ / 1024 % 16 = 8; omega)
  have h2 : fld wd 20 6 = d := fld_eq wd 20 _ (by rw [hw]; show _ / 1048576 % 64 = _; omega)
  have h3 : fld wd 14 6 = a := fld_eq wd 14 _ (by rw [hw]; show _ / 16384 % 64 = _; omega)
  have h4 : fld wd 0 6 = n := fld_eq wd 0 _ (by rw [hw]; show _ / 1 % 64 = _; omega)
  have h5 : fld wd 6 4 = 0#4 := fld_eq wd 6 _ (by rw [hw]; show _ / 64 % 16 = 0; omega)
  unfold decodeForm; rw [h0]
  show decodeBar wd = _
  unfold decodeBar; rw [h1]
  show form (.bwaitSP (fld wd 20 6) (fld wd 14 6) (fld wd 0 6)) (fld wd 6 4 == 0#4) = _
  simp only [h2, h3, h4, h5]
  exact form_ok _ _ hwf (by decide)
theorem bgenS (d : BitVec 6) (n : BitVec 6) : Statement (.bgenS d n) :=
  strand_of (2885690368 + d.toNat * 1048576 + n.toNat * 1) rfl (by omega) rfl fun wd hw hwf => by
  have h0 : fld wd 26 6 = 43#6 := fld_eq wd 26 _ (by rw [hw]; show _ / 67108864 % 64 = 43; omega)
  have h1 : fld wd 10 4 = 9#4 := fld_eq wd 10 _ (by rw [hw]; show _ / 1024 % 16 = 9; omega)
  have h2 : fld wd 20 6 = d := fld_eq wd 20 _ (by rw [hw]; show _ / 1048576 % 64 = _; omega)
  have h3 : fld wd 0 6 = n := fld_eq wd 0 _ (by rw [hw]; show _ / 1 % 64 = _; omega)
  have h4 : fld wd 14 6 = 0#6 := fld_eq wd 14 _ (by rw [hw]; show _ / 16384 % 64 = 0; omega)
  have h5 : fld wd 6 4 = 0#4 := fld_eq wd 6 _ (by rw [hw]; show _ / 64 % 16 = 0; omega)
  unfold decodeForm; rw [h0]
  show decodeBar wd = _
  unfold decodeBar; rw [h1]
  show form (.bgenS (fld wd 20 6) (fld wd 0 6)) (fld wd 14 6 == 0#6 && fld wd 6 4 == 0#4) = _
  simp only [h2, h3, h4, h5]
  exact form_ok _ _ hwf (by decide)
theorem tshape (d : BitVec 6) (a : BitVec 6) : Statement (.tshape d a) :=
  strand_of (2952790016 + d.toNat * 1048576 + a.toNat * 16384) rfl (by omega) rfl fun wd hw hwf => by
  have h0 : fld wd 26 6 = 44#6 := fld_eq wd 26 _ (by rw [hw]; show _ / 67108864 % 64 = 44; omega)
  have h1 : fld wd 10 4 = 0#4 := fld_eq wd 10 _ (by rw [hw]; show _ / 1024 % 16 = 0; omega)
  have h2 : fld wd 20 6 = d := fld_eq wd 20 _ (by rw [hw]; show _ / 1048576 % 64 = _; omega)
  have h3 : fld wd 14 6 = a := fld_eq wd 14 _ (by rw [hw]; show _ / 16384 % 64 = _; omega)
  have h4 : fld wd 0 10 = 0#10 := fld_eq wd 0 _ (by rw [hw]; show _ / 1 % 1024 = 0; omega)
  unfold decodeForm; rw [h0]
  show decodeMatx wd = _
  unfold decodeMatx; rw [h1]
  show form (.tshape (fld wd 20 6) (fld wd 14 6)) (fld wd 0 10 == 0#10) = _
  simp only [h2, h3, h4]
  exact form_ok _ _ hwf (by decide)
theorem mma (d : BitVec 6) (a : BitVec 6) (k : BitVec 2) (t : BitVec 2) (n : BitVec 3) (e : BitVec 1) (f : BitVec 1) (c : BitVec 1) : Statement (.mma d a k t n e f c) :=
  strand_of (2952791040 + d.toNat * 1048576 + a.toNat * 16384 + k.toNat * 256 + t.toNat * 64 + n.toNat * 8 + e.toNat * 4 + f.toNat * 2 + c.toNat * 1) rfl (by omega) rfl fun wd hw hwf => by
  have h0 : fld wd 26 6 = 44#6 := fld_eq wd 26 _ (by rw [hw]; show _ / 67108864 % 64 = 44; omega)
  have h1 : fld wd 10 4 = 1#4 := fld_eq wd 10 _ (by rw [hw]; show _ / 1024 % 16 = 1; omega)
  have h2 : fld wd 20 6 = d := fld_eq wd 20 _ (by rw [hw]; show _ / 1048576 % 64 = _; omega)
  have h3 : fld wd 14 6 = a := fld_eq wd 14 _ (by rw [hw]; show _ / 16384 % 64 = _; omega)
  have h4 : fld wd 8 2 = k := fld_eq wd 8 _ (by rw [hw]; show _ / 256 % 4 = _; omega)
  have h5 : fld wd 6 2 = t := fld_eq wd 6 _ (by rw [hw]; show _ / 64 % 4 = _; omega)
  have h6 : fld wd 3 3 = n := fld_eq wd 3 _ (by rw [hw]; show _ / 8 % 8 = _; omega)
  have h7 : fld wd 2 1 = e := fld_eq wd 2 _ (by rw [hw]; show _ / 4 % 2 = _; omega)
  have h8 : fld wd 1 1 = f := fld_eq wd 1 _ (by rw [hw]; show _ / 2 % 2 = _; omega)
  have h9 : fld wd 0 1 = c := fld_eq wd 0 _ (by rw [hw]; show _ / 1 % 2 = _; omega)
  unfold decodeForm; rw [h0]
  show decodeMatx wd = _
  unfold decodeMatx; rw [h1]
  show (ite _ _ _) = _
  rw [h4, if_neg (by have := wf_func hwf; simpa [Instr.funcOk] using this)]
  simp only [h2, h3, h5, h6, h7, h8, h9]
  exact form_ok _ _ hwf rfl
theorem crd (d : BitVec 6) (a : BitVec 6) (t : BitVec 2) : Statement (.crd d a t) :=
  strand_of (2952792064 + d.toNat * 1048576 + a.toNat * 16384 + t.toNat * 64) rfl (by omega) rfl fun wd hw hwf => by
  have h0 : fld wd 26 6 = 44#6 := fld_eq wd 26 _ (by rw [hw]; show _ / 67108864 % 64 = 44; omega)
  have h1 : fld wd 10 4 = 2#4 := fld_eq wd 10 _ (by rw [hw]; show _ / 1024 % 16 = 2; omega)
  have h2 : fld wd 20 6 = d := fld_eq wd 20 _ (by rw [hw]; show _ / 1048576 % 64 = _; omega)
  have h3 : fld wd 14 6 = a := fld_eq wd 14 _ (by rw [hw]; show _ / 16384 % 64 = _; omega)
  have h4 : fld wd 6 2 = t := fld_eq wd 6 _ (by rw [hw]; show _ / 64 % 4 = _; omega)
  have h5 : fld wd 8 2 = 0#2 := fld_eq wd 8 _ (by rw [hw]; show _ / 256 % 4 = 0; omega)
  have h6 : fld wd 0 6 = 0#6 := fld_eq wd 0 _ (by rw [hw]; show _ / 1 % 64 = 0; omega)
  unfold decodeForm; rw [h0]
  show decodeMatx wd = _
  unfold decodeMatx; rw [h1]
  show form (.crd (fld wd 20 6) (fld wd 14 6) (fld wd 6 2)) (fld wd 8 2 == 0#2 && fld wd 0 6 == 0#6) = _
  simp only [h2, h3, h4, h5, h6]
  exact form_ok _ _ hwf (by decide)
theorem cwr (d : BitVec 6) (a : BitVec 6) (t : BitVec 2) : Statement (.cwr d a t) :=
  strand_of (2952793088 + d.toNat * 1048576 + a.toNat * 16384 + t.toNat * 64) rfl (by omega) rfl fun wd hw hwf => by
  have h0 : fld wd 26 6 = 44#6 := fld_eq wd 26 _ (by rw [hw]; show _ / 67108864 % 64 = 44; omega)
  have h1 : fld wd 10 4 = 3#4 := fld_eq wd 10 _ (by rw [hw]; show _ / 1024 % 16 = 3; omega)
  have h2 : fld wd 20 6 = d := fld_eq wd 20 _ (by rw [hw]; show _ / 1048576 % 64 = _; omega)
  have h3 : fld wd 14 6 = a := fld_eq wd 14 _ (by rw [hw]; show _ / 16384 % 64 = _; omega)
  have h4 : fld wd 6 2 = t := fld_eq wd 6 _ (by rw [hw]; show _ / 64 % 4 = _; omega)
  have h5 : fld wd 8 2 = 0#2 := fld_eq wd 8 _ (by rw [hw]; show _ / 256 % 4 = 0; omega)
  have h6 : fld wd 0 6 = 0#6 := fld_eq wd 0 _ (by rw [hw]; show _ / 1 % 64 = 0; omega)
  unfold decodeForm; rw [h0]
  show decodeMatx wd = _
  unfold decodeMatx; rw [h1]
  show form (.cwr (fld wd 20 6) (fld wd 14 6) (fld wd 6 2)) (fld wd 8 2 == 0#2 && fld wd 0 6 == 0#6) = _
  simp only [h2, h3, h4, h5, h6]
  exact form_ok _ _ hwf (by decide)
theorem cclr (t : BitVec 2) : Statement (.cclr t) :=
  strand_of (2952794112 + t.toNat * 64) rfl (by omega) rfl fun wd hw hwf => by
  have h0 : fld wd 26 6 = 44#6 := fld_eq wd 26 _ (by rw [hw]; show _ / 67108864 % 64 = 44; omega)
  have h1 : fld wd 10 4 = 4#4 := fld_eq wd 10 _ (by rw [hw]; show _ / 1024 % 16 = 4; omega)
  have h2 : fld wd 6 2 = t := fld_eq wd 6 _ (by rw [hw]; show _ / 64 % 4 = _; omega)
  have h3 : fld wd 14 12 = 0#12 := fld_eq wd 14 _ (by rw [hw]; show _ / 16384 % 4096 = 0; omega)
  have h4 : fld wd 8 2 = 0#2 := fld_eq wd 8 _ (by rw [hw]; show _ / 256 % 4 = 0; omega)
  have h5 : fld wd 0 6 = 0#6 := fld_eq wd 0 _ (by rw [hw]; show _ / 1 % 64 = 0; omega)
  unfold decodeForm; rw [h0]
  show decodeMatx wd = _
  unfold decodeMatx; rw [h1]
  show form (.cclr (fld wd 6 2)) (fld wd 14 12 == 0#12 && fld wd 8 2 == 0#2 && fld wd 0 6 == 0#6) = _
  simp only [h2, h3, h4, h5]
  exact form_ok _ _ hwf (by decide)
theorem ccvt (d : BitVec 6) (a : BitVec 6) (t : BitVec 2) (y : BitVec 5) : Statement (.ccvt d a t y) :=
  strand_of (2952795136 + d.toNat * 1048576 + a.toNat * 16384 + t.toNat * 64 + y.toNat * 1) rfl (by omega) rfl fun wd hw hwf => by
  have h0 : fld wd 26 6 = 44#6 := fld_eq wd 26 _ (by rw [hw]; show _ / 67108864 % 64 = 44; omega)
  have h1 : fld wd 10 4 = 5#4 := fld_eq wd 10 _ (by rw [hw]; show _ / 1024 % 16 = 5; omega)
  have h2 : fld wd 20 6 = d := fld_eq wd 20 _ (by rw [hw]; show _ / 1048576 % 64 = _; omega)
  have h3 : fld wd 14 6 = a := fld_eq wd 14 _ (by rw [hw]; show _ / 16384 % 64 = _; omega)
  have h4 : fld wd 6 2 = t := fld_eq wd 6 _ (by rw [hw]; show _ / 64 % 4 = _; omega)
  have h5 : fld wd 0 5 = y := fld_eq wd 0 _ (by rw [hw]; show _ / 1 % 32 = _; omega)
  have h6 : fld wd 8 2 = 0#2 := fld_eq wd 8 _ (by rw [hw]; show _ / 256 % 4 = 0; omega)
  have h7 : fld wd 5 1 = 0#1 := fld_eq wd 5 _ (by rw [hw]; show _ / 32 % 2 = 0; omega)
  unfold decodeForm; rw [h0]
  show decodeMatx wd = _
  unfold decodeMatx; rw [h1]
  show form (.ccvt (fld wd 20 6) (fld wd 14 6) (fld wd 6 2) (fld wd 0 5)) (fld wd 8 2 == 0#2 && fld wd 5 1 == 0#1) = _
  simp only [h2, h3, h4, h5, h6, h7]
  exact form_ok _ _ hwf (by decide)
theorem copy (t : BitVec 6) (n : BitVec 6) (q : BitVec 2) (g : BitVec 3) : Statement (.copy t n q g) :=
  strand_of (3019898880 + t.toNat * 1048576 + n.toNat * 16384 + q.toNat * 4096 + g.toNat * 512) rfl (by omega) rfl fun wd hw hwf => by
  have h0 : fld wd 26 6 = 45#6 := fld_eq wd 26 _ (by rw [hw]; show _ / 67108864 % 64 = 45; omega)
  have h1 : fld wd 6 3 = 0#3 := fld_eq wd 6 _ (by rw [hw]; show _ / 64 % 8 = 0; omega)
  have h2 : fld wd 20 6 = t := fld_eq wd 20 _ (by rw [hw]; show _ / 1048576 % 64 = _; omega)
  have h3 : fld wd 14 6 = n := fld_eq wd 14 _ (by rw [hw]; show _ / 16384 % 64 = _; omega)
  have h4 : fld wd 12 2 = q := fld_eq wd 12 _ (by rw [hw]; show _ / 4096 % 4 = _; omega)
  have h5 : fld wd 9 3 = g := fld_eq wd 9 _ (by rw [hw]; show _ / 512 % 8 = _; omega)
  have h6 : fld wd 0 6 = 0#6 := fld_eq wd 0 _ (by rw [hw]; show _ / 1 % 64 = 0; omega)
  unfold decodeForm; rw [h0]
  show decodeCopy wd = _
  unfold decodeCopy; rw [h1]
  show form (.copy (fld wd 20 6) (fld wd 14 6) (fld wd 12 2) (fld wd 9 3)) (fld wd 0 6 == 0#6) = _
  simp only [h2, h3, h4, h5, h6]
  exact form_ok _ _ hwf (by decide)
theorem copyTr (t : BitVec 6) (n : BitVec 6) (q : BitVec 2) (g : BitVec 3) : Statement (.copyTr t n q g) :=
  strand_of (3019898944 + t.toNat * 1048576 + n.toNat * 16384 + q.toNat * 4096 + g.toNat * 512) rfl (by omega) rfl fun wd hw hwf => by
  have h0 : fld wd 26 6 = 45#6 := fld_eq wd 26 _ (by rw [hw]; show _ / 67108864 % 64 = 45; omega)
  have h1 : fld wd 6 3 = 1#3 := fld_eq wd 6 _ (by rw [hw]; show _ / 64 % 8 = 1; omega)
  have h2 : fld wd 20 6 = t := fld_eq wd 20 _ (by rw [hw]; show _ / 1048576 % 64 = _; omega)
  have h3 : fld wd 14 6 = n := fld_eq wd 14 _ (by rw [hw]; show _ / 16384 % 64 = _; omega)
  have h4 : fld wd 12 2 = q := fld_eq wd 12 _ (by rw [hw]; show _ / 4096 % 4 = _; omega)
  have h5 : fld wd 9 3 = g := fld_eq wd 9 _ (by rw [hw]; show _ / 512 % 8 = _; omega)
  have h6 : fld wd 0 6 = 0#6 := fld_eq wd 0 _ (by rw [hw]; show _ / 1 % 64 = 0; omega)
  unfold decodeForm; rw [h0]
  show decodeCopy wd = _
  unfold decodeCopy; rw [h1]
  show form (.copyTr (fld wd 20 6) (fld wd 14 6) (fld wd 12 2) (fld wd 9 3)) (fld wd 0 6 == 0#6) = _
  simp only [h2, h3, h4, h5, h6]
  exact form_ok _ _ hwf (by decide)
theorem copyDi (t : BitVec 6) (n : BitVec 6) (q : BitVec 2) (g : BitVec 3) (f : BitVec 3) : Statement (.copyDi t n q g f) :=
  strand_of (3019899008 + t.toNat * 1048576 + n.toNat * 16384 + q.toNat * 4096 + g.toNat * 512 + f.toNat * 1) rfl (by omega) rfl fun wd hw hwf => by
  have h0 : fld wd 26 6 = 45#6 := fld_eq wd 26 _ (by rw [hw]; show _ / 67108864 % 64 = 45; omega)
  have h1 : fld wd 6 3 = 2#3 := fld_eq wd 6 _ (by rw [hw]; show _ / 64 % 8 = 2; omega)
  have h2 : fld wd 20 6 = t := fld_eq wd 20 _ (by rw [hw]; show _ / 1048576 % 64 = _; omega)
  have h3 : fld wd 14 6 = n := fld_eq wd 14 _ (by rw [hw]; show _ / 16384 % 64 = _; omega)
  have h4 : fld wd 12 2 = q := fld_eq wd 12 _ (by rw [hw]; show _ / 4096 % 4 = _; omega)
  have h5 : fld wd 9 3 = g := fld_eq wd 9 _ (by rw [hw]; show _ / 512 % 8 = _; omega)
  have h6 : fld wd 0 3 = f := fld_eq wd 0 _ (by rw [hw]; show _ / 1 % 8 = _; omega)
  have h7 : fld wd 3 3 = 0#3 := fld_eq wd 3 _ (by rw [hw]; show _ / 8 % 8 = 0; omega)
  unfold decodeForm; rw [h0]
  show decodeCopy wd = _
  unfold decodeCopy; rw [h1]
  show form (.copyDi (fld wd 20 6) (fld wd 14 6) (fld wd 12 2) (fld wd 9 3) (fld wd 0 3)) (fld wd 3 3 == 0#3) = _
  simp only [h2, h3, h4, h5, h6, h7]
  exact form_ok _ _ hwf (by decide)
theorem copyPm (t : BitVec 6) (n : BitVec 6) (q : BitVec 2) (g : BitVec 3) (v : BitVec 6) : Statement (.copyPm t n q g v) :=
  strand_of (3019899072 + t.toNat * 1048576 + n.toNat * 16384 + q.toNat * 4096 + g.toNat * 512 + v.toNat * 1) rfl (by omega) rfl fun wd hw hwf => by
  have h0 : fld wd 26 6 = 45#6 := fld_eq wd 26 _ (by rw [hw]; show _ / 67108864 % 64 = 45; omega)
  have h1 : fld wd 6 3 = 3#3 := fld_eq wd 6 _ (by rw [hw]; show _ / 64 % 8 = 3; omega)
  have h2 : fld wd 20 6 = t := fld_eq wd 20 _ (by rw [hw]; show _ / 1048576 % 64 = _; omega)
  have h3 : fld wd 14 6 = n := fld_eq wd 14 _ (by rw [hw]; show _ / 16384 % 64 = _; omega)
  have h4 : fld wd 12 2 = q := fld_eq wd 12 _ (by rw [hw]; show _ / 4096 % 4 = _; omega)
  have h5 : fld wd 9 3 = g := fld_eq wd 9 _ (by rw [hw]; show _ / 512 % 8 = _; omega)
  have h6 : fld wd 0 6 = v := fld_eq wd 0 _ (by rw [hw]; show _ / 1 % 64 = _; omega)
  unfold decodeForm; rw [h0]
  show decodeCopy wd = _
  unfold decodeCopy; rw [h1]
  show form (.copyPm (fld wd 20 6) (fld wd 14 6) (fld wd 12 2) (fld wd 9 3) (fld wd 0 6)) (true) = _
  simp only [h2, h3, h4, h5, h6]
  exact form_ok _ _ hwf rfl
theorem copyCv (t : BitVec 6) (n : BitVec 6) (q : BitVec 2) (g : BitVec 3) (c : BitVec 5) : Statement (.copyCv t n q g c) :=
  strand_of (3019899136 + t.toNat * 1048576 + n.toNat * 16384 + q.toNat * 4096 + g.toNat * 512 + c.toNat * 1) rfl (by omega) rfl fun wd hw hwf => by
  have h0 : fld wd 26 6 = 45#6 := fld_eq wd 26 _ (by rw [hw]; show _ / 67108864 % 64 = 45; omega)
  have h1 : fld wd 6 3 = 4#3 := fld_eq wd 6 _ (by rw [hw]; show _ / 64 % 8 = 4; omega)
  have h2 : fld wd 20 6 = t := fld_eq wd 20 _ (by rw [hw]; show _ / 1048576 % 64 = _; omega)
  have h3 : fld wd 14 6 = n := fld_eq wd 14 _ (by rw [hw]; show _ / 16384 % 64 = _; omega)
  have h4 : fld wd 12 2 = q := fld_eq wd 12 _ (by rw [hw]; show _ / 4096 % 4 = _; omega)
  have h5 : fld wd 9 3 = g := fld_eq wd 9 _ (by rw [hw]; show _ / 512 % 8 = _; omega)
  have h6 : fld wd 0 5 = c := fld_eq wd 0 _ (by rw [hw]; show _ / 1 % 32 = _; omega)
  have h7 : fld wd 5 1 = 0#1 := fld_eq wd 5 _ (by rw [hw]; show _ / 32 % 2 = 0; omega)
  unfold decodeForm; rw [h0]
  show decodeCopy wd = _
  unfold decodeCopy; rw [h1]
  show form (.copyCv (fld wd 20 6) (fld wd 14 6) (fld wd 12 2) (fld wd 9 3) (fld wd 0 5)) (fld wd 5 1 == 0#1) = _
  simp only [h2, h3, h4, h5, h6, h7]
  exact form_ok _ _ hwf (by decide)
theorem close (q : BitVec 2) : Statement (.close q) :=
  strand_of (3154116608 + q.toNat * 4096) rfl (by omega) rfl fun wd hw hwf => by
  have h0 : fld wd 26 6 = 47#6 := fld_eq wd 26 _ (by rw [hw]; show _ / 67108864 % 64 = 47; omega)
  have h1 : fld wd 12 2 = q := fld_eq wd 12 _ (by rw [hw]; show _ / 4096 % 4 = _; omega)
  have h2 : fld wd 14 12 = 0#12 := fld_eq wd 14 _ (by rw [hw]; show _ / 16384 % 4096 = 0; omega)
  have h3 : fld wd 0 12 = 0#12 := fld_eq wd 0 _ (by rw [hw]; show _ / 1 % 4096 = 0; omega)
  unfold decodeForm; rw [h0]
  show form (.close (fld wd 12 2)) (fld wd 14 12 == 0#12 && fld wd 0 12 == 0#12) = _
  simp only [h1, h2, h3]
  exact form_ok _ _ hwf (by decide)
theorem nld (d : BitVec 6) (a : BitVec 6) : Statement (.nld d a) :=
  strand_of (3087007744 + d.toNat * 1048576 + a.toNat * 16384) rfl (by omega) rfl fun wd hw hwf => by
  have h0 : fld wd 26 6 = 46#6 := fld_eq wd 26 _ (by rw [hw]; show _ / 67108864 % 64 = 46; omega)
  have h1 : fld wd 10 4 = 0#4 := fld_eq wd 10 _ (by rw [hw]; show _ / 1024 % 16 = 0; omega)
  have h2 : fld wd 20 6 = d := fld_eq wd 20 _ (by rw [hw]; show _ / 1048576 % 64 = _; omega)
  have h3 : fld wd 14 6 = a := fld_eq wd 14 _ (by rw [hw]; show _ / 16384 % 64 = _; omega)
  have h4 : fld wd 0 10 = 0#10 := fld_eq wd 0 _ (by rw [hw]; show _ / 1 % 1024 = 0; omega)
  unfold decodeForm; rw [h0]
  show decodeNest wd = _
  unfold decodeNest; rw [h1]
  show form (.nld (fld wd 20 6) (fld wd 14 6)) (fld wd 0 10 == 0#10) = _
  simp only [h2, h3, h4]
  exact form_ok _ _ hwf (by decide)
theorem nst (d : BitVec 6) (a : BitVec 6) : Statement (.nst d a) :=
  strand_of (3087008768 + d.toNat * 1048576 + a.toNat * 16384) rfl (by omega) rfl fun wd hw hwf => by
  have h0 : fld wd 26 6 = 46#6 := fld_eq wd 26 _ (by rw [hw]; show _ / 67108864 % 64 = 46; omega)
  have h1 : fld wd 10 4 = 1#4 := fld_eq wd 10 _ (by rw [hw]; show _ / 1024 % 16 = 1; omega)
  have h2 : fld wd 20 6 = d := fld_eq wd 20 _ (by rw [hw]; show _ / 1048576 % 64 = _; omega)
  have h3 : fld wd 14 6 = a := fld_eq wd 14 _ (by rw [hw]; show _ / 16384 % 64 = _; omega)
  have h4 : fld wd 0 10 = 0#10 := fld_eq wd 0 _ (by rw [hw]; show _ / 1 % 1024 = 0; omega)
  unfold decodeForm; rw [h0]
  show decodeNest wd = _
  unfold decodeNest; rw [h1]
  show form (.nst (fld wd 20 6) (fld wd 14 6)) (fld wd 0 10 == 0#10) = _
  simp only [h2, h3, h4]
  exact form_ok _ _ hwf (by decide)
theorem ncnt (d : BitVec 6) (a : BitVec 6) (l : BitVec 3) : Statement (.ncnt d a l) :=
  strand_of (3087009792 + d.toNat * 1048576 + a.toNat * 16384 + l.toNat * 128) rfl (by omega) rfl fun wd hw hwf => by
  have h0 : fld wd 26 6 = 46#6 := fld_eq wd 26 _ (by rw [hw]; show _ / 67108864 % 64 = 46; omega)
  have h1 : fld wd 10 4 = 2#4 := fld_eq wd 10 _ (by rw [hw]; show _ / 1024 % 16 = 2; omega)
  have h2 : fld wd 20 6 = d := fld_eq wd 20 _ (by rw [hw]; show _ / 1048576 % 64 = _; omega)
  have h3 : fld wd 14 6 = a := fld_eq wd 14 _ (by rw [hw]; show _ / 16384 % 64 = _; omega)
  have h4 : fld wd 7 3 = l := fld_eq wd 7 _ (by rw [hw]; show _ / 128 % 8 = _; omega)
  have h5 : fld wd 0 7 = 0#7 := fld_eq wd 0 _ (by rw [hw]; show _ / 1 % 128 = 0; omega)
  unfold decodeForm; rw [h0]
  show decodeNest wd = _
  unfold decodeNest; rw [h1]
  show form (.ncnt (fld wd 20 6) (fld wd 14 6) (fld wd 7 3)) (fld wd 0 7 == 0#7) = _
  simp only [h2, h3, h4, h5]
  exact form_ok _ _ hwf (by decide)
theorem nstr (d : BitVec 6) (a : BitVec 6) (l : BitVec 3) (s : BitVec 2) : Statement (.nstr d a l s) :=
  strand_of (3087010816 + d.toNat * 1048576 + a.toNat * 16384 + l.toNat * 128 + s.toNat * 32) rfl (by omega) rfl fun wd hw hwf => by
  have h0 : fld wd 26 6 = 46#6 := fld_eq wd 26 _ (by rw [hw]; show _ / 67108864 % 64 = 46; omega)
  have h1 : fld wd 10 4 = 3#4 := fld_eq wd 10 _ (by rw [hw]; show _ / 1024 % 16 = 3; omega)
  have h2 : fld wd 20 6 = d := fld_eq wd 20 _ (by rw [hw]; show _ / 1048576 % 64 = _; omega)
  have h3 : fld wd 14 6 = a := fld_eq wd 14 _ (by rw [hw]; show _ / 16384 % 64 = _; omega)
  have h4 : fld wd 7 3 = l := fld_eq wd 7 _ (by rw [hw]; show _ / 128 % 8 = _; omega)
  have h5 : fld wd 5 2 = s := fld_eq wd 5 _ (by rw [hw]; show _ / 32 % 4 = _; omega)
  have h6 : fld wd 0 5 = 0#5 := fld_eq wd 0 _ (by rw [hw]; show _ / 1 % 32 = 0; omega)
  unfold decodeForm; rw [h0]
  show decodeNest wd = _
  unfold decodeNest; rw [h1]
  show form (.nstr (fld wd 20 6) (fld wd 14 6) (fld wd 7 3) (fld wd 5 2)) (fld wd 0 5 == 0#5) = _
  simp only [h2, h3, h4, h5, h6]
  exact form_ok _ _ hwf (by decide)
theorem rowld (d : BitVec 6) (a : BitVec 6) (t : BitVec 6) : Statement (.rowld d a t) :=
  strand_of (3221225472 + d.toNat * 1048576 + a.toNat * 16384 + t.toNat * 1) rfl (by omega) rfl fun wd hw hwf => by
  have h0 : fld wd 26 6 = 48#6 := fld_eq wd 26 _ (by rw [hw]; show _ / 67108864 % 64 = 48; omega)
  have h1 : fld wd 10 4 = 0#4 := fld_eq wd 10 _ (by rw [hw]; show _ / 1024 % 16 = 0; omega)
  have h2 : fld wd 20 6 = d := fld_eq wd 20 _ (by rw [hw]; show _ / 1048576 % 64 = _; omega)
  have h3 : fld wd 14 6 = a := fld_eq wd 14 _ (by rw [hw]; show _ / 16384 % 64 = _; omega)
  have h4 : fld wd 0 6 = t := fld_eq wd 0 _ (by rw [hw]; show _ / 1 % 64 = _; omega)
  have h5 : fld wd 6 4 = 0#4 := fld_eq wd 6 _ (by rw [hw]; show _ / 64 % 16 = 0; omega)
  unfold decodeForm; rw [h0]
  show decodeRow wd = _
  unfold decodeRow; rw [h1]
  show form (.rowld (fld wd 20 6) (fld wd 14 6) (fld wd 0 6)) (fld wd 6 4 == 0#4) = _
  simp only [h2, h3, h4, h5]
  exact form_ok _ _ hwf (by decide)
theorem rowrun (d : BitVec 6) (a : BitVec 6) (t : BitVec 6) : Statement (.rowrun d a t) :=
  strand_of (3221226496 + d.toNat * 1048576 + a.toNat * 16384 + t.toNat * 1) rfl (by omega) rfl fun wd hw hwf => by
  have h0 : fld wd 26 6 = 48#6 := fld_eq wd 26 _ (by rw [hw]; show _ / 67108864 % 64 = 48; omega)
  have h1 : fld wd 10 4 = 1#4 := fld_eq wd 10 _ (by rw [hw]; show _ / 1024 % 16 = 1; omega)
  have h2 : fld wd 20 6 = d := fld_eq wd 20 _ (by rw [hw]; show _ / 1048576 % 64 = _; omega)
  have h3 : fld wd 14 6 = a := fld_eq wd 14 _ (by rw [hw]; show _ / 16384 % 64 = _; omega)
  have h4 : fld wd 0 6 = t := fld_eq wd 0 _ (by rw [hw]; show _ / 1 % 64 = _; omega)
  have h5 : fld wd 6 4 = 0#4 := fld_eq wd 6 _ (by rw [hw]; show _ / 64 % 16 = 0; omega)
  unfold decodeForm; rw [h0]
  show decodeRow wd = _
  unfold decodeRow; rw [h1]
  show form (.rowrun (fld wd 20 6) (fld wd 14 6) (fld wd 0 6)) (fld wd 6 4 == 0#4) = _
  simp only [h2, h3, h4, h5]
  exact form_ok _ _ hwf (by decide)
theorem rowseal (a : BitVec 6) (t : BitVec 6) : Statement (.rowseal a t) :=
  strand_of (3221227520 + a.toNat * 16384 + t.toNat * 1) rfl (by omega) rfl fun wd hw hwf => by
  have h0 : fld wd 26 6 = 48#6 := fld_eq wd 26 _ (by rw [hw]; show _ / 67108864 % 64 = 48; omega)
  have h1 : fld wd 10 4 = 2#4 := fld_eq wd 10 _ (by rw [hw]; show _ / 1024 % 16 = 2; omega)
  have h2 : fld wd 14 6 = a := fld_eq wd 14 _ (by rw [hw]; show _ / 16384 % 64 = _; omega)
  have h3 : fld wd 0 6 = t := fld_eq wd 0 _ (by rw [hw]; show _ / 1 % 64 = _; omega)
  have h4 : fld wd 20 6 = 0#6 := fld_eq wd 20 _ (by rw [hw]; show _ / 1048576 % 64 = 0; omega)
  have h5 : fld wd 6 4 = 0#4 := fld_eq wd 6 _ (by rw [hw]; show _ / 64 % 16 = 0; omega)
  unfold decodeForm; rw [h0]
  show decodeRow wd = _
  unfold decodeRow; rw [h1]
  show form (.rowseal (fld wd 14 6) (fld wd 0 6)) (fld wd 20 6 == 0#6 && fld wd 6 4 == 0#4) = _
  simp only [h2, h3, h4, h5]
  exact form_ok _ _ hwf (by decide)
theorem rowq (d : BitVec 6) (t : BitVec 6) : Statement (.rowq d t) :=
  strand_of (3221228544 + d.toNat * 1048576 + t.toNat * 1) rfl (by omega) rfl fun wd hw hwf => by
  have h0 : fld wd 26 6 = 48#6 := fld_eq wd 26 _ (by rw [hw]; show _ / 67108864 % 64 = 48; omega)
  have h1 : fld wd 10 4 = 3#4 := fld_eq wd 10 _ (by rw [hw]; show _ / 1024 % 16 = 3; omega)
  have h2 : fld wd 20 6 = d := fld_eq wd 20 _ (by rw [hw]; show _ / 1048576 % 64 = _; omega)
  have h3 : fld wd 0 6 = t := fld_eq wd 0 _ (by rw [hw]; show _ / 1 % 64 = _; omega)
  have h4 : fld wd 14 6 = 0#6 := fld_eq wd 14 _ (by rw [hw]; show _ / 16384 % 64 = 0; omega)
  have h5 : fld wd 6 4 = 0#4 := fld_eq wd 6 _ (by rw [hw]; show _ / 64 % 16 = 0; omega)
  unfold decodeForm; rw [h0]
  show decodeRow wd = _
  unfold decodeRow; rw [h1]
  show form (.rowq (fld wd 20 6) (fld wd 0 6)) (fld wd 14 6 == 0#6 && fld wd 6 4 == 0#4) = _
  simp only [h2, h3, h4, h5]
  exact form_ok _ _ hwf (by decide)
theorem catrun (d : BitVec 6) (a : BitVec 6) (t : BitVec 6) : Statement (.catrun d a t) :=
  strand_of (3288334336 + d.toNat * 1048576 + a.toNat * 16384 + t.toNat * 1) rfl (by omega) rfl fun wd hw hwf => by
  have h0 : fld wd 26 6 = 49#6 := fld_eq wd 26 _ (by rw [hw]; show _ / 67108864 % 64 = 49; omega)
  have h1 : fld wd 10 4 = 0#4 := fld_eq wd 10 _ (by rw [hw]; show _ / 1024 % 16 = 0; omega)
  have h2 : fld wd 20 6 = d := fld_eq wd 20 _ (by rw [hw]; show _ / 1048576 % 64 = _; omega)
  have h3 : fld wd 14 6 = a := fld_eq wd 14 _ (by rw [hw]; show _ / 16384 % 64 = _; omega)
  have h4 : fld wd 0 6 = t := fld_eq wd 0 _ (by rw [hw]; show _ / 1 % 64 = _; omega)
  have h5 : fld wd 6 4 = 0#4 := fld_eq wd 6 _ (by rw [hw]; show _ / 64 % 16 = 0; omega)
  unfold decodeForm; rw [h0]
  show decodeCat wd = _
  unfold decodeCat; rw [h1]
  show form (.catrun (fld wd 20 6) (fld wd 14 6) (fld wd 0 6)) (fld wd 6 4 == 0#4) = _
  simp only [h2, h3, h4, h5]
  exact form_ok _ _ hwf (by decide)
theorem catchk (d : BitVec 6) (a : BitVec 6) (t : BitVec 6) : Statement (.catchk d a t) :=
  strand_of (3288335360 + d.toNat * 1048576 + a.toNat * 16384 + t.toNat * 1) rfl (by omega) rfl fun wd hw hwf => by
  have h0 : fld wd 26 6 = 49#6 := fld_eq wd 26 _ (by rw [hw]; show _ / 67108864 % 64 = 49; omega)
  have h1 : fld wd 10 4 = 1#4 := fld_eq wd 10 _ (by rw [hw]; show _ / 1024 % 16 = 1; omega)
  have h2 : fld wd 20 6 = d := fld_eq wd 20 _ (by rw [hw]; show _ / 1048576 % 64 = _; omega)
  have h3 : fld wd 14 6 = a := fld_eq wd 14 _ (by rw [hw]; show _ / 16384 % 64 = _; omega)
  have h4 : fld wd 0 6 = t := fld_eq wd 0 _ (by rw [hw]; show _ / 1 % 64 = _; omega)
  have h5 : fld wd 6 4 = 0#4 := fld_eq wd 6 _ (by rw [hw]; show _ / 64 % 16 = 0; omega)
  unfold decodeForm; rw [h0]
  show decodeCat wd = _
  unfold decodeCat; rw [h1]
  show form (.catchk (fld wd 20 6) (fld wd 14 6) (fld wd 0 6)) (fld wd 6 4 == 0#4) = _
  simp only [h2, h3, h4, h5]
  exact form_ok _ _ hwf (by decide)
theorem catq (d : BitVec 6) (t : BitVec 6) : Statement (.catq d t) :=
  strand_of (3288336384 + d.toNat * 1048576 + t.toNat * 1) rfl (by omega) rfl fun wd hw hwf => by
  have h0 : fld wd 26 6 = 49#6 := fld_eq wd 26 _ (by rw [hw]; show _ / 67108864 % 64 = 49; omega)
  have h1 : fld wd 10 4 = 2#4 := fld_eq wd 10 _ (by rw [hw]; show _ / 1024 % 16 = 2; omega)
  have h2 : fld wd 20 6 = d := fld_eq wd 20 _ (by rw [hw]; show _ / 1048576 % 64 = _; omega)
  have h3 : fld wd 0 6 = t := fld_eq wd 0 _ (by rw [hw]; show _ / 1 % 64 = _; omega)
  have h4 : fld wd 14 6 = 0#6 := fld_eq wd 14 _ (by rw [hw]; show _ / 16384 % 64 = 0; omega)
  have h5 : fld wd 6 4 = 0#4 := fld_eq wd 6 _ (by rw [hw]; show _ / 64 % 16 = 0; omega)
  unfold decodeForm; rw [h0]
  show decodeCat wd = _
  unfold decodeCat; rw [h1]
  show form (.catq (fld wd 20 6) (fld wd 0 6)) (fld wd 14 6 == 0#6 && fld wd 6 4 == 0#4) = _
  simp only [h2, h3, h4, h5]
  exact form_ok _ _ hwf (by decide)
theorem arcin (d : BitVec 6) (a : BitVec 6) (t : BitVec 6) : Statement (.arcin d a t) :=
  strand_of (3288337408 + d.toNat * 1048576 + a.toNat * 16384 + t.toNat * 1) rfl (by omega) rfl fun wd hw hwf => by
  have h0 : fld wd 26 6 = 49#6 := fld_eq wd 26 _ (by rw [hw]; show _ / 67108864 % 64 = 49; omega)
  have h1 : fld wd 10 4 = 3#4 := fld_eq wd 10 _ (by rw [hw]; show _ / 1024 % 16 = 3; omega)
  have h2 : fld wd 20 6 = d := fld_eq wd 20 _ (by rw [hw]; show _ / 1048576 % 64 = _; omega)
  have h3 : fld wd 14 6 = a := fld_eq wd 14 _ (by rw [hw]; show _ / 16384 % 64 = _; omega)
  have h4 : fld wd 0 6 = t := fld_eq wd 0 _ (by rw [hw]; show _ / 1 % 64 = _; omega)
  have h5 : fld wd 6 4 = 0#4 := fld_eq wd 6 _ (by rw [hw]; show _ / 64 % 16 = 0; omega)
  unfold decodeForm; rw [h0]
  show decodeCat wd = _
  unfold decodeCat; rw [h1]
  show form (.arcin (fld wd 20 6) (fld wd 14 6) (fld wd 0 6)) (fld wd 6 4 == 0#4) = _
  simp only [h2, h3, h4, h5]
  exact form_ok _ _ hwf (by decide)
theorem arcout (d : BitVec 6) (a : BitVec 6) (t : BitVec 6) : Statement (.arcout d a t) :=
  strand_of (3288338432 + d.toNat * 1048576 + a.toNat * 16384 + t.toNat * 1) rfl (by omega) rfl fun wd hw hwf => by
  have h0 : fld wd 26 6 = 49#6 := fld_eq wd 26 _ (by rw [hw]; show _ / 67108864 % 64 = 49; omega)
  have h1 : fld wd 10 4 = 4#4 := fld_eq wd 10 _ (by rw [hw]; show _ / 1024 % 16 = 4; omega)
  have h2 : fld wd 20 6 = d := fld_eq wd 20 _ (by rw [hw]; show _ / 1048576 % 64 = _; omega)
  have h3 : fld wd 14 6 = a := fld_eq wd 14 _ (by rw [hw]; show _ / 16384 % 64 = _; omega)
  have h4 : fld wd 0 6 = t := fld_eq wd 0 _ (by rw [hw]; show _ / 1 % 64 = _; omega)
  have h5 : fld wd 6 4 = 0#4 := fld_eq wd 6 _ (by rw [hw]; show _ / 64 % 16 = 0; omega)
  unfold decodeForm; rw [h0]
  show decodeCat wd = _
  unfold decodeCat; rw [h1]
  show form (.arcout (fld wd 20 6) (fld wd 14 6) (fld wd 0 6)) (fld wd 6 4 == 0#4) = _
  simp only [h2, h3, h4, h5]
  exact form_ok _ _ hwf (by decide)
theorem arcstat (d : BitVec 6) (a : BitVec 6) : Statement (.arcstat d a) :=
  strand_of (3288339456 + d.toNat * 1048576 + a.toNat * 16384) rfl (by omega) rfl fun wd hw hwf => by
  have h0 : fld wd 26 6 = 49#6 := fld_eq wd 26 _ (by rw [hw]; show _ / 67108864 % 64 = 49; omega)
  have h1 : fld wd 10 4 = 5#4 := fld_eq wd 10 _ (by rw [hw]; show _ / 1024 % 16 = 5; omega)
  have h2 : fld wd 20 6 = d := fld_eq wd 20 _ (by rw [hw]; show _ / 1048576 % 64 = _; omega)
  have h3 : fld wd 14 6 = a := fld_eq wd 14 _ (by rw [hw]; show _ / 16384 % 64 = _; omega)
  have h4 : fld wd 0 10 = 0#10 := fld_eq wd 0 _ (by rw [hw]; show _ / 1 % 1024 = 0; omega)
  unfold decodeForm; rw [h0]
  show decodeCat wd = _
  unfold decodeCat; rw [h1]
  show form (.arcstat (fld wd 20 6) (fld wd 14 6)) (fld wd 0 10 == 0#10) = _
  simp only [h2, h3, h4]
  exact form_ok _ _ hwf (by decide)
theorem stage (a : BitVec 6) (t : BitVec 6) : Statement (.stage a t) :=
  strand_of (3288340480 + a.toNat * 16384 + t.toNat * 1) rfl (by omega) rfl fun wd hw hwf => by
  have h0 : fld wd 26 6 = 49#6 := fld_eq wd 26 _ (by rw [hw]; show _ / 67108864 % 64 = 49; omega)
  have h1 : fld wd 10 4 = 6#4 := fld_eq wd 10 _ (by rw [hw]; show _ / 1024 % 16 = 6; omega)
  have h2 : fld wd 14 6 = a := fld_eq wd 14 _ (by rw [hw]; show _ / 16384 % 64 = _; omega)
  have h3 : fld wd 0 6 = t := fld_eq wd 0 _ (by rw [hw]; show _ / 1 % 64 = _; omega)
  have h4 : fld wd 20 6 = 0#6 := fld_eq wd 20 _ (by rw [hw]; show _ / 1048576 % 64 = 0; omega)
  have h5 : fld wd 6 4 = 0#4 := fld_eq wd 6 _ (by rw [hw]; show _ / 64 % 16 = 0; omega)
  unfold decodeForm; rw [h0]
  show decodeCat wd = _
  unfold decodeCat; rw [h1]
  show form (.stage (fld wd 14 6) (fld wd 0 6)) (fld wd 20 6 == 0#6 && fld wd 6 4 == 0#4) = _
  simp only [h2, h3, h4, h5]
  exact form_ok _ _ hwf (by decide)
theorem hint (a : BitVec 6) (t : BitVec 6) : Statement (.hint a t) :=
  strand_of (3288341504 + a.toNat * 16384 + t.toNat * 1) rfl (by omega) rfl fun wd hw hwf => by
  have h0 : fld wd 26 6 = 49#6 := fld_eq wd 26 _ (by rw [hw]; show _ / 67108864 % 64 = 49; omega)
  have h1 : fld wd 10 4 = 7#4 := fld_eq wd 10 _ (by rw [hw]; show _ / 1024 % 16 = 7; omega)
  have h2 : fld wd 14 6 = a := fld_eq wd 14 _ (by rw [hw]; show _ / 16384 % 64 = _; omega)
  have h3 : fld wd 0 6 = t := fld_eq wd 0 _ (by rw [hw]; show _ / 1 % 64 = _; omega)
  have h4 : fld wd 20 6 = 0#6 := fld_eq wd 20 _ (by rw [hw]; show _ / 1048576 % 64 = 0; omega)
  have h5 : fld wd 6 4 = 0#4 := fld_eq wd 6 _ (by rw [hw]; show _ / 64 % 16 = 0; omega)
  unfold decodeForm; rw [h0]
  show decodeCat wd = _
  unfold decodeCat; rw [h1]
  show form (.hint (fld wd 14 6) (fld wd 0 6)) (fld wd 20 6 == 0#6 && fld wd 6 4 == 0#4) = _
  simp only [h2, h3, h4, h5]
  exact form_ok _ _ hwf (by decide)
theorem tsetw (a : BitVec 6) (w : BitVec 4) (t : BitVec 6) : Statement (.tsetw a w t) :=
  strand_of (3623878656 + a.toNat * 16384 + w.toNat * 64 + t.toNat * 1) rfl (by omega) rfl fun wd hw hwf => by
  have h0 : fld wd 26 6 = 54#6 := fld_eq wd 26 _ (by rw [hw]; show _ / 67108864 % 64 = 54; omega)
  have h1 : fld wd 10 4 = 0#4 := fld_eq wd 10 _ (by rw [hw]; show _ / 1024 % 16 = 0; omega)
  have h2 : fld wd 14 6 = a := fld_eq wd 14 _ (by rw [hw]; show _ / 16384 % 64 = _; omega)
  have h3 : fld wd 6 4 = w := fld_eq wd 6 _ (by rw [hw]; show _ / 64 % 16 = _; omega)
  have h4 : fld wd 0 6 = t := fld_eq wd 0 _ (by rw [hw]; show _ / 1 % 64 = _; omega)
  have h5 : fld wd 20 6 = 0#6 := fld_eq wd 20 _ (by rw [hw]; show _ / 1048576 % 64 = 0; omega)
  unfold decodeForm; rw [h0]
  show decodeTbl wd = _
  unfold decodeTbl; rw [h1]
  show form (.tsetw (fld wd 14 6) (fld wd 6 4) (fld wd 0 6)) (fld wd 20 6 == 0#6) = _
  simp only [h2, h3, h4, h5]
  exact form_ok _ _ hwf (by decide)
theorem tgetw (d : BitVec 6) (w : BitVec 4) (t : BitVec 6) : Statement (.tgetw d w t) :=
  strand_of (3623879680 + d.toNat * 1048576 + w.toNat * 64 + t.toNat * 1) rfl (by omega) rfl fun wd hw hwf => by
  have h0 : fld wd 26 6 = 54#6 := fld_eq wd 26 _ (by rw [hw]; show _ / 67108864 % 64 = 54; omega)
  have h1 : fld wd 10 4 = 1#4 := fld_eq wd 10 _ (by rw [hw]; show _ / 1024 % 16 = 1; omega)
  have h2 : fld wd 20 6 = d := fld_eq wd 20 _ (by rw [hw]; show _ / 1048576 % 64 = _; omega)
  have h3 : fld wd 6 4 = w := fld_eq wd 6 _ (by rw [hw]; show _ / 64 % 16 = _; omega)
  have h4 : fld wd 0 6 = t := fld_eq wd 0 _ (by rw [hw]; show _ / 1 % 64 = _; omega)
  have h5 : fld wd 14 6 = 0#6 := fld_eq wd 14 _ (by rw [hw]; show _ / 16384 % 64 = 0; omega)
  unfold decodeForm; rw [h0]
  show decodeTbl wd = _
  unfold decodeTbl; rw [h1]
  show form (.tgetw (fld wd 20 6) (fld wd 6 4) (fld wd 0 6)) (fld wd 14 6 == 0#6) = _
  simp only [h2, h3, h4, h5]
  exact form_ok _ _ hwf (by decide)
theorem tstat (d : BitVec 6) (t : BitVec 6) : Statement (.tstat d t) :=
  strand_of (3623880704 + d.toNat * 1048576 + t.toNat * 1) rfl (by omega) rfl fun wd hw hwf => by
  have h0 : fld wd 26 6 = 54#6 := fld_eq wd 26 _ (by rw [hw]; show _ / 67108864 % 64 = 54; omega)
  have h1 : fld wd 10 4 = 2#4 := fld_eq wd 10 _ (by rw [hw]; show _ / 1024 % 16 = 2; omega)
  have h2 : fld wd 20 6 = d := fld_eq wd 20 _ (by rw [hw]; show _ / 1048576 % 64 = _; omega)
  have h3 : fld wd 0 6 = t := fld_eq wd 0 _ (by rw [hw]; show _ / 1 % 64 = _; omega)
  have h4 : fld wd 14 6 = 0#6 := fld_eq wd 14 _ (by rw [hw]; show _ / 16384 % 64 = 0; omega)
  have h5 : fld wd 6 4 = 0#4 := fld_eq wd 6 _ (by rw [hw]; show _ / 64 % 16 = 0; omega)
  unfold decodeForm; rw [h0]
  show decodeTbl wd = _
  unfold decodeTbl; rw [h1]
  show form (.tstat (fld wd 20 6) (fld wd 0 6)) (fld wd 14 6 == 0#6 && fld wd 6 4 == 0#4) = _
  simp only [h2, h3, h4, h5]
  exact form_ok _ _ hwf (by decide)
theorem tbind (d : BitVec 6) (t : BitVec 6) : Statement (.tbind d t) :=
  strand_of (3623881728 + d.toNat * 1048576 + t.toNat * 1) rfl (by omega) rfl fun wd hw hwf => by
  have h0 : fld wd 26 6 = 54#6 := fld_eq wd 26 _ (by rw [hw]; show _ / 67108864 % 64 = 54; omega)
  have h1 : fld wd 10 4 = 3#4 := fld_eq wd 10 _ (by rw [hw]; show _ / 1024 % 16 = 3; omega)
  have h2 : fld wd 20 6 = d := fld_eq wd 20 _ (by rw [hw]; show _ / 1048576 % 64 = _; omega)
  have h3 : fld wd 0 6 = t := fld_eq wd 0 _ (by rw [hw]; show _ / 1 % 64 = _; omega)
  have h4 : fld wd 14 6 = 0#6 := fld_eq wd 14 _ (by rw [hw]; show _ / 16384 % 64 = 0; omega)
  have h5 : fld wd 6 4 = 0#4 := fld_eq wd 6 _ (by rw [hw]; show _ / 64 % 16 = 0; omega)
  unfold decodeForm; rw [h0]
  show decodeTbl wd = _
  unfold decodeTbl; rw [h1]
  show form (.tbind (fld wd 20 6) (fld wd 0 6)) (fld wd 14 6 == 0#6 && fld wd 6 4 == 0#4) = _
  simp only [h2, h3, h4, h5]
  exact form_ok _ _ hwf (by decide)
theorem tretTn (t : BitVec 6) : Statement (.tretTn t) :=
  strand_of (3623882752 + t.toNat * 1) rfl (by omega) rfl fun wd hw hwf => by
  have h0 : fld wd 26 6 = 54#6 := fld_eq wd 26 _ (by rw [hw]; show _ / 67108864 % 64 = 54; omega)
  have h1 : fld wd 10 4 = 4#4 := fld_eq wd 10 _ (by rw [hw]; show _ / 1024 % 16 = 4; omega)
  have h2 : fld wd 0 6 = t := fld_eq wd 0 _ (by rw [hw]; show _ / 1 % 64 = _; omega)
  have h3 : fld wd 14 12 = 0#12 := fld_eq wd 14 _ (by rw [hw]; show _ / 16384 % 4096 = 0; omega)
  have h4 : fld wd 6 4 = 0#4 := fld_eq wd 6 _ (by rw [hw]; show _ / 64 % 16 = 0; omega)
  unfold decodeForm; rw [h0]
  show decodeTbl wd = _
  unfold decodeTbl; rw [h1]
  show form (.tretTn (fld wd 0 6)) (fld wd 14 12 == 0#12 && fld wd 6 4 == 0#4) = _
  simp only [h2, h3, h4]
  exact form_ok _ _ hwf (by decide)
theorem tver (a : BitVec 6) (t : BitVec 6) : Statement (.tver a t) :=
  strand_of (3623883776 + a.toNat * 16384 + t.toNat * 1) rfl (by omega) rfl fun wd hw hwf => by
  have h0 : fld wd 26 6 = 54#6 := fld_eq wd 26 _ (by rw [hw]; show _ / 67108864 % 64 = 54; omega)
  have h1 : fld wd 10 4 = 5#4 := fld_eq wd 10 _ (by rw [hw]; show _ / 1024 % 16 = 5; omega)
  have h2 : fld wd 14 6 = a := fld_eq wd 14 _ (by rw [hw]; show _ / 16384 % 64 = _; omega)
  have h3 : fld wd 0 6 = t := fld_eq wd 0 _ (by rw [hw]; show _ / 1 % 64 = _; omega)
  have h4 : fld wd 20 6 = 0#6 := fld_eq wd 20 _ (by rw [hw]; show _ / 1048576 % 64 = 0; omega)
  have h5 : fld wd 6 4 = 0#4 := fld_eq wd 6 _ (by rw [hw]; show _ / 64 % 16 = 0; omega)
  unfold decodeForm; rw [h0]
  show decodeTbl wd = _
  unfold decodeTbl; rw [h1]
  show form (.tver (fld wd 14 6) (fld wd 0 6)) (fld wd 20 6 == 0#6 && fld wd 6 4 == 0#4) = _
  simp only [h2, h3, h4, h5]
  exact form_ok _ _ hwf (by decide)
theorem trap (c : BitVec 10) : Statement (.trap c) :=
  strand_of (3758096384 + c.toNat * 1) rfl (by omega) rfl fun wd hw hwf => by
  have h0 : fld wd 26 6 = 56#6 := fld_eq wd 26 _ (by rw [hw]; show _ / 67108864 % 64 = 56; omega)
  have h1 : fld wd 10 4 = 0#4 := fld_eq wd 10 _ (by rw [hw]; show _ / 1024 % 16 = 0; omega)
  have h2 : fld wd 0 10 = c := fld_eq wd 0 _ (by rw [hw]; show _ / 1 % 1024 = _; omega)
  have h3 : fld wd 14 12 = 0#12 := fld_eq wd 14 _ (by rw [hw]; show _ / 16384 % 4096 = 0; omega)
  unfold decodeForm; rw [h0]
  show decodeSys wd = _
  unfold decodeSys; rw [h1]
  show form (.trap (fld wd 0 10)) (fld wd 14 12 == 0#12) = _
  simp only [h2, h3]
  exact form_ok _ _ hwf (by decide)
theorem tret : Statement .tret :=
  strand_of (3758097408) rfl (by omega) rfl fun wd hw hwf => by
  have h0 : fld wd 26 6 = 56#6 := fld_eq wd 26 _ (by rw [hw]; show _ / 67108864 % 64 = 56; omega)
  have h1 : fld wd 10 4 = 1#4 := fld_eq wd 10 _ (by rw [hw]; show _ / 1024 % 16 = 1; omega)
  have h2 : fld wd 14 12 = 0#12 := fld_eq wd 14 _ (by rw [hw]; show _ / 16384 % 4096 = 0; omega)
  have h3 : fld wd 0 10 = 0#10 := fld_eq wd 0 _ (by rw [hw]; show _ / 1 % 1024 = 0; omega)
  unfold decodeForm; rw [h0]
  show decodeSys wd = _
  unfold decodeSys; rw [h1]
  show form (.tret) (fld wd 14 12 == 0#12 && fld wd 0 10 == 0#10) = _
  simp only [h2, h3]
  exact form_ok _ _ hwf (by decide)
theorem srd (d : BitVec 6) (n : BitVec 10) : Statement (.srd d n) :=
  strand_of (3758098432 + d.toNat * 1048576 + n.toNat * 1) rfl (by omega) rfl fun wd hw hwf => by
  have h0 : fld wd 26 6 = 56#6 := fld_eq wd 26 _ (by rw [hw]; show _ / 67108864 % 64 = 56; omega)
  have h1 : fld wd 10 4 = 2#4 := fld_eq wd 10 _ (by rw [hw]; show _ / 1024 % 16 = 2; omega)
  have h2 : fld wd 20 6 = d := fld_eq wd 20 _ (by rw [hw]; show _ / 1048576 % 64 = _; omega)
  have h3 : fld wd 0 10 = n := fld_eq wd 0 _ (by rw [hw]; show _ / 1 % 1024 = _; omega)
  have h4 : fld wd 14 6 = 0#6 := fld_eq wd 14 _ (by rw [hw]; show _ / 16384 % 64 = 0; omega)
  unfold decodeForm; rw [h0]
  show decodeSys wd = _
  unfold decodeSys; rw [h1]
  show form (.srd (fld wd 20 6) (fld wd 0 10)) (fld wd 14 6 == 0#6) = _
  simp only [h2, h3, h4]
  exact form_ok _ _ hwf (by decide)
theorem swr (a : BitVec 6) (n : BitVec 10) : Statement (.swr a n) :=
  strand_of (3758099456 + a.toNat * 16384 + n.toNat * 1) rfl (by omega) rfl fun wd hw hwf => by
  have h0 : fld wd 26 6 = 56#6 := fld_eq wd 26 _ (by rw [hw]; show _ / 67108864 % 64 = 56; omega)
  have h1 : fld wd 10 4 = 3#4 := fld_eq wd 10 _ (by rw [hw]; show _ / 1024 % 16 = 3; omega)
  have h2 : fld wd 14 6 = a := fld_eq wd 14 _ (by rw [hw]; show _ / 16384 % 64 = _; omega)
  have h3 : fld wd 0 10 = n := fld_eq wd 0 _ (by rw [hw]; show _ / 1 % 1024 = _; omega)
  have h4 : fld wd 20 6 = 0#6 := fld_eq wd 20 _ (by rw [hw]; show _ / 1048576 % 64 = 0; omega)
  unfold decodeForm; rw [h0]
  show decodeSys wd = _
  unfold decodeSys; rw [h1]
  show form (.swr (fld wd 14 6) (fld wd 0 10)) (fld wd 20 6 == 0#6) = _
  simp only [h2, h3, h4]
  exact form_ok _ _ hwf (by decide)
theorem enq (d : BitVec 6) (a : BitVec 6) : Statement (.enq d a) :=
  strand_of (3758100480 + d.toNat * 1048576 + a.toNat * 16384) rfl (by omega) rfl fun wd hw hwf => by
  have h0 : fld wd 26 6 = 56#6 := fld_eq wd 26 _ (by rw [hw]; show _ / 67108864 % 64 = 56; omega)
  have h1 : fld wd 10 4 = 4#4 := fld_eq wd 10 _ (by rw [hw]; show _ / 1024 % 16 = 4; omega)
  have h2 : fld wd 20 6 = d := fld_eq wd 20 _ (by rw [hw]; show _ / 1048576 % 64 = _; omega)
  have h3 : fld wd 14 6 = a := fld_eq wd 14 _ (by rw [hw]; show _ / 16384 % 64 = _; omega)
  have h4 : fld wd 0 10 = 0#10 := fld_eq wd 0 _ (by rw [hw]; show _ / 1 % 1024 = 0; omega)
  unfold decodeForm; rw [h0]
  show decodeSys wd = _
  unfold decodeSys; rw [h1]
  show form (.enq (fld wd 20 6) (fld wd 14 6)) (fld wd 0 10 == 0#10) = _
  simp only [h2, h3, h4]
  exact form_ok _ _ hwf (by decide)
theorem dmrd (d : BitVec 6) : Statement (.dmrd d) :=
  strand_of (3758101504 + d.toNat * 1048576) rfl (by omega) rfl fun wd hw hwf => by
  have h0 : fld wd 26 6 = 56#6 := fld_eq wd 26 _ (by rw [hw]; show _ / 67108864 % 64 = 56; omega)
  have h1 : fld wd 10 4 = 5#4 := fld_eq wd 10 _ (by rw [hw]; show _ / 1024 % 16 = 5; omega)
  have h2 : fld wd 20 6 = d := fld_eq wd 20 _ (by rw [hw]; show _ / 1048576 % 64 = _; omega)
  have h3 : fld wd 14 6 = 0#6 := fld_eq wd 14 _ (by rw [hw]; show _ / 16384 % 64 = 0; omega)
  have h4 : fld wd 0 10 = 0#10 := fld_eq wd 0 _ (by rw [hw]; show _ / 1 % 1024 = 0; omega)
  unfold decodeForm; rw [h0]
  show decodeSys wd = _
  unfold decodeSys; rw [h1]
  show form (.dmrd (fld wd 20 6)) (fld wd 14 6 == 0#6 && fld wd 0 10 == 0#10) = _
  simp only [h2, h3, h4]
  exact form_ok _ _ hwf (by decide)
theorem dmclr (a : BitVec 6) : Statement (.dmclr a) :=
  strand_of (3758102528 + a.toNat * 16384) rfl (by omega) rfl fun wd hw hwf => by
  have h0 : fld wd 26 6 = 56#6 := fld_eq wd 26 _ (by rw [hw]; show _ / 67108864 % 64 = 56; omega)
  have h1 : fld wd 10 4 = 6#4 := fld_eq wd 10 _ (by rw [hw]; show _ / 1024 % 16 = 6; omega)
  have h2 : fld wd 14 6 = a := fld_eq wd 14 _ (by rw [hw]; show _ / 16384 % 64 = _; omega)
  have h3 : fld wd 20 6 = 0#6 := fld_eq wd 20 _ (by rw [hw]; show _ / 1048576 % 64 = 0; omega)
  have h4 : fld wd 0 10 = 0#10 := fld_eq wd 0 _ (by rw [hw]; show _ / 1 % 1024 = 0; omega)
  unfold decodeForm; rw [h0]
  show decodeSys wd = _
  unfold decodeSys; rw [h1]
  show form (.dmclr (fld wd 14 6)) (fld wd 20 6 == 0#6 && fld wd 0 10 == 0#10) = _
  simp only [h2, h3, h4]
  exact form_ok _ _ hwf (by decide)
theorem brk (c : BitVec 9) : Statement (.brk c) :=
  strand_of (3758103552 + c.toNat * 1) rfl (by omega) rfl fun wd hw hwf => by
  have h0 : fld wd 26 6 = 56#6 := fld_eq wd 26 _ (by rw [hw]; show _ / 67108864 % 64 = 56; omega)
  have h1 : fld wd 10 4 = 7#4 := fld_eq wd 10 _ (by rw [hw]; show _ / 1024 % 16 = 7; omega)
  have h2 : fld wd 0 9 = c := fld_eq wd 0 _ (by rw [hw]; show _ / 1 % 512 = _; omega)
  have h3 : fld wd 9 1 = 0#1 := fld_eq wd 9 _ (by rw [hw]; show _ / 512 % 2 = 0; omega)
  have h4 : fld wd 14 12 = 0#12 := fld_eq wd 14 _ (by rw [hw]; show _ / 16384 % 4096 = 0; omega)
  unfold decodeForm; rw [h0]
  show decodeSys wd = _
  unfold decodeSys; rw [h1]
  show (ite _ _ _) = _
  rw [h3, if_pos (by decide)]
  simp only [h2, h4]
  exact form_ok _ _ hwf (by decide)
theorem brkDbg (c : BitVec 9) : Statement (.brkDbg c) :=
  strand_of (3758104064 + c.toNat * 1) rfl (by omega) rfl fun wd hw hwf => by
  have h0 : fld wd 26 6 = 56#6 := fld_eq wd 26 _ (by rw [hw]; show _ / 67108864 % 64 = 56; omega)
  have h1 : fld wd 10 4 = 7#4 := fld_eq wd 10 _ (by rw [hw]; show _ / 1024 % 16 = 7; omega)
  have h2 : fld wd 0 9 = c := fld_eq wd 0 _ (by rw [hw]; show _ / 1 % 512 = _; omega)
  have h3 : fld wd 9 1 = 1#1 := fld_eq wd 9 _ (by rw [hw]; show _ / 512 % 2 = 1; omega)
  have h4 : fld wd 14 12 = 0#12 := fld_eq wd 14 _ (by rw [hw]; show _ / 16384 % 4096 = 0; omega)
  unfold decodeForm; rw [h0]
  show decodeSys wd = _
  unfold decodeSys; rw [h1]
  show (ite _ _ _) = _
  rw [h3, if_neg (by decide)]
  simp only [h2, h4]
  exact form_ok _ _ hwf (by decide)
theorem idle : Statement .idle :=
  strand_of (3758104576) rfl (by omega) rfl fun wd hw hwf => by
  have h0 : fld wd 26 6 = 56#6 := fld_eq wd 26 _ (by rw [hw]; show _ / 67108864 % 64 = 56; omega)
  have h1 : fld wd 10 4 = 8#4 := fld_eq wd 10 _ (by rw [hw]; show _ / 1024 % 16 = 8; omega)
  have h2 : fld wd 0 1 = 0#1 := fld_eq wd 0 _ (by rw [hw]; show _ / 1 % 2 = 0; omega)
  have h3 : fld wd 14 12 = 0#12 := fld_eq wd 14 _ (by rw [hw]; show _ / 16384 % 4096 = 0; omega)
  have h4 : fld wd 1 9 = 0#9 := fld_eq wd 1 _ (by rw [hw]; show _ / 2 % 512 = 0; omega)
  unfold decodeForm; rw [h0]
  show decodeSys wd = _
  unfold decodeSys; rw [h1]
  show (ite _ _ _) = _
  rw [h2, if_pos (by decide)]
  simp only [h3, h4]
  exact form_ok _ _ hwf (by decide)
theorem idleEnd : Statement .idleEnd :=
  strand_of (3758104577) rfl (by omega) rfl fun wd hw hwf => by
  have h0 : fld wd 26 6 = 56#6 := fld_eq wd 26 _ (by rw [hw]; show _ / 67108864 % 64 = 56; omega)
  have h1 : fld wd 10 4 = 8#4 := fld_eq wd 10 _ (by rw [hw]; show _ / 1024 % 16 = 8; omega)
  have h2 : fld wd 0 1 = 1#1 := fld_eq wd 0 _ (by rw [hw]; show _ / 1 % 2 = 1; omega)
  have h3 : fld wd 14 12 = 0#12 := fld_eq wd 14 _ (by rw [hw]; show _ / 16384 % 4096 = 0; omega)
  have h4 : fld wd 1 9 = 0#9 := fld_eq wd 1 _ (by rw [hw]; show _ / 2 % 512 = 0; omega)
  unfold decodeForm; rw [h0]
  show decodeSys wd = _
  unfold decodeSys; rw [h1]
  show (ite _ _ _) = _
  rw [h2, if_neg (by decide)]
  simp only [h3, h4]
  exact form_ok _ _ hwf (by decide)
theorem tinv (a : BitVec 6) : Statement (.tinv a) :=
  strand_of (3825205248 + a.toNat * 16384) rfl (by omega) rfl fun wd hw hwf => by
  have h0 : fld wd 26 6 = 57#6 := fld_eq wd 26 _ (by rw [hw]; show _ / 67108864 % 64 = 57; omega)
  have h1 : fld wd 10 4 = 0#4 := fld_eq wd 10 _ (by rw [hw]; show _ / 1024 % 16 = 0; omega)
  have h2 : fld wd 14 6 = a := fld_eq wd 14 _ (by rw [hw]; show _ / 16384 % 64 = _; omega)
  have h3 : fld wd 20 6 = 0#6 := fld_eq wd 20 _ (by rw [hw]; show _ / 1048576 % 64 = 0; omega)
  have h4 : fld wd 0 10 = 0#10 := fld_eq wd 0 _ (by rw [hw]; show _ / 1 % 1024 = 0; omega)
  unfold decodeForm; rw [h0]
  show decodeMmu wd = _
  unfold decodeMmu; rw [h1]
  show form (.tinv (fld wd 14 6)) (fld wd 20 6 == 0#6 && fld wd 0 10 == 0#10) = _
  simp only [h2, h3, h4]
  exact form_ok _ _ hwf (by decide)
theorem pgshare (d : BitVec 6) (a : BitVec 6) : Statement (.pgshare d a) :=
  strand_of (3825206272 + d.toNat * 1048576 + a.toNat * 16384) rfl (by omega) rfl fun wd hw hwf => by
  have h0 : fld wd 26 6 = 57#6 := fld_eq wd 26 _ (by rw [hw]; show _ / 67108864 % 64 = 57; omega)
  have h1 : fld wd 10 4 = 1#4 := fld_eq wd 10 _ (by rw [hw]; show _ / 1024 % 16 = 1; omega)
  have h2 : fld wd 20 6 = d := fld_eq wd 20 _ (by rw [hw]; show _ / 1048576 % 64 = _; omega)
  have h3 : fld wd 14 6 = a := fld_eq wd 14 _ (by rw [hw]; show _ / 16384 % 64 = _; omega)
  have h4 : fld wd 0 10 = 0#10 := fld_eq wd 0 _ (by rw [hw]; show _ / 1 % 1024 = 0; omega)
  unfold decodeForm; rw [h0]
  show decodeMmu wd = _
  unfold decodeMmu; rw [h1]
  show form (.pgshare (fld wd 20 6) (fld wd 14 6)) (fld wd 0 10 == 0#10) = _
  simp only [h2, h3, h4]
  exact form_ok _ _ hwf (by decide)
theorem pgdrop (a : BitVec 6) : Statement (.pgdrop a) :=
  strand_of (3825207296 + a.toNat * 16384) rfl (by omega) rfl fun wd hw hwf => by
  have h0 : fld wd 26 6 = 57#6 := fld_eq wd 26 _ (by rw [hw]; show _ / 67108864 % 64 = 57; omega)
  have h1 : fld wd 10 4 = 2#4 := fld_eq wd 10 _ (by rw [hw]; show _ / 1024 % 16 = 2; omega)
  have h2 : fld wd 14 6 = a := fld_eq wd 14 _ (by rw [hw]; show _ / 16384 % 64 = _; omega)
  have h3 : fld wd 20 6 = 0#6 := fld_eq wd 20 _ (by rw [hw]; show _ / 1048576 % 64 = 0; omega)
  have h4 : fld wd 0 10 = 0#10 := fld_eq wd 0 _ (by rw [hw]; show _ / 1 % 1024 = 0; omega)
  unfold decodeForm; rw [h0]
  show decodeMmu wd = _
  unfold decodeMmu; rw [h1]
  show form (.pgdrop (fld wd 14 6)) (fld wd 20 6 == 0#6 && fld wd 0 10 == 0#10) = _
  simp only [h2, h3, h4]
  exact form_ok _ _ hwf (by decide)
theorem migr (d : BitVec 6) (a : BitVec 6) : Statement (.migr d a) :=
  strand_of (3825208320 + d.toNat * 1048576 + a.toNat * 16384) rfl (by omega) rfl fun wd hw hwf => by
  have h0 : fld wd 26 6 = 57#6 := fld_eq wd 26 _ (by rw [hw]; show _ / 67108864 % 64 = 57; omega)
  have h1 : fld wd 10 4 = 3#4 := fld_eq wd 10 _ (by rw [hw]; show _ / 1024 % 16 = 3; omega)
  have h2 : fld wd 20 6 = d := fld_eq wd 20 _ (by rw [hw]; show _ / 1048576 % 64 = _; omega)
  have h3 : fld wd 14 6 = a := fld_eq wd 14 _ (by rw [hw]; show _ / 16384 % 64 = _; omega)
  have h4 : fld wd 0 10 = 0#10 := fld_eq wd 0 _ (by rw [hw]; show _ / 1 % 1024 = 0; omega)
  unfold decodeForm; rw [h0]
  show decodeMmu wd = _
  unfold decodeMmu; rw [h1]
  show form (.migr (fld wd 20 6) (fld wd 14 6)) (fld wd 0 10 == 0#10) = _
  simp only [h2, h3, h4]
  exact form_ok _ _ hwf (by decide)
theorem llcfl (a : BitVec 6) : Statement (.llcfl a) :=
  strand_of (3825209344 + a.toNat * 16384) rfl (by omega) rfl fun wd hw hwf => by
  have h0 : fld wd 26 6 = 57#6 := fld_eq wd 26 _ (by rw [hw]; show _ / 67108864 % 64 = 57; omega)
  have h1 : fld wd 10 4 = 4#4 := fld_eq wd 10 _ (by rw [hw]; show _ / 1024 % 16 = 4; omega)
  have h2 : fld wd 14 6 = a := fld_eq wd 14 _ (by rw [hw]; show _ / 16384 % 64 = _; omega)
  have h3 : fld wd 20 6 = 0#6 := fld_eq wd 20 _ (by rw [hw]; show _ / 1048576 % 64 = 0; omega)
  have h4 : fld wd 0 10 = 0#10 := fld_eq wd 0 _ (by rw [hw]; show _ / 1 % 1024 = 0; omega)
  unfold decodeForm; rw [h0]
  show decodeMmu wd = _
  unfold decodeMmu; rw [h1]
  show form (.llcfl (fld wd 14 6)) (fld wd 20 6 == 0#6 && fld wd 0 10 == 0#10) = _
  simp only [h2, h3, h4]
  exact form_ok _ _ hwf (by decide)
theorem aap (p : BitVec 9) (q : BitVec 9) : Statement (.aap p q) :=
  micro_of (134217728 + p.toNat * 262144 + q.toNat * 512) rfl (by omega) rfl fun wd hw hwf => by
  have h0 : fld wd 27 5 = 1#5 := fld_eq wd 27 _ (by rw [hw]; show _ / 134217728 % 32 = 1; omega)
  have h1 : fld wd 18 9 = p := fld_eq wd 18 _ (by rw [hw]; show _ / 262144 % 512 = _; omega)
  have h2 : fld wd 9 9 = q := fld_eq wd 9 _ (by rw [hw]; show _ / 512 % 512 = _; omega)
  have h3 : fld wd 0 9 = 0#9 := fld_eq wd 0 _ (by rw [hw]; show _ / 1 % 512 = 0; omega)
  unfold decodeMicroForm; rw [h0]
  show micro (.aap (fld wd 18 9) (fld wd 9 9)) (fld wd 0 9 == 0#9) = _
  simp only [h1, h2, h3]
  exact micro_ok _ _ hwf (by decide)
theorem tra (p : BitVec 9) (q : BitVec 9) (r : BitVec 9) : Statement (.tra p q r) :=
  micro_of (268435456 + p.toNat * 262144 + q.toNat * 512 + r.toNat * 1) rfl (by omega) rfl fun wd hw hwf => by
  have h0 : fld wd 27 5 = 2#5 := fld_eq wd 27 _ (by rw [hw]; show _ / 134217728 % 32 = 2; omega)
  have h1 : fld wd 18 9 = p := fld_eq wd 18 _ (by rw [hw]; show _ / 262144 % 512 = _; omega)
  have h2 : fld wd 9 9 = q := fld_eq wd 9 _ (by rw [hw]; show _ / 512 % 512 = _; omega)
  have h3 : fld wd 0 9 = r := fld_eq wd 0 _ (by rw [hw]; show _ / 1 % 512 = _; omega)
  unfold decodeMicroForm; rw [h0]
  show micro (.tra (fld wd 18 9) (fld wd 9 9) (fld wd 0 9)) (true) = _
  simp only [h1, h2, h3]
  exact micro_ok _ _ hwf rfl
theorem dnot (p : BitVec 9) (q : BitVec 9) : Statement (.dnot p q) :=
  micro_of (402653184 + p.toNat * 262144 + q.toNat * 512) rfl (by omega) rfl fun wd hw hwf => by
  have h0 : fld wd 27 5 = 3#5 := fld_eq wd 27 _ (by rw [hw]; show _ / 134217728 % 32 = 3; omega)
  have h1 : fld wd 18 9 = p := fld_eq wd 18 _ (by rw [hw]; show _ / 262144 % 512 = _; omega)
  have h2 : fld wd 9 9 = q := fld_eq wd 9 _ (by rw [hw]; show _ / 512 % 512 = _; omega)
  have h3 : fld wd 0 9 = 0#9 := fld_eq wd 0 _ (by rw [hw]; show _ / 1 % 512 = 0; omega)
  unfold decodeMicroForm; rw [h0]
  show micro (.dnot (fld wd 18 9) (fld wd 9 9)) (fld wd 0 9 == 0#9) = _
  simp only [h1, h2, h3]
  exact micro_ok _ _ hwf (by decide)
theorem zero (p : BitVec 9) : Statement (.zero p) :=
  micro_of (536870912 + p.toNat * 262144) rfl (by omega) rfl fun wd hw hwf => by
  have h0 : fld wd 27 5 = 4#5 := fld_eq wd 27 _ (by rw [hw]; show _ / 134217728 % 32 = 4; omega)
  have h1 : fld wd 18 9 = p := fld_eq wd 18 _ (by rw [hw]; show _ / 262144 % 512 = _; omega)
  have h2 : fld wd 0 18 = 0#18 := fld_eq wd 0 _ (by rw [hw]; show _ / 1 % 262144 = 0; omega)
  unfold decodeMicroForm; rw [h0]
  show micro (.zero (fld wd 18 9)) (fld wd 0 18 == 0#18) = _
  simp only [h1, h2]
  exact micro_ok _ _ hwf (by decide)
theorem ones (p : BitVec 9) : Statement (.ones p) :=
  micro_of (671088640 + p.toNat * 262144) rfl (by omega) rfl fun wd hw hwf => by
  have h0 : fld wd 27 5 = 5#5 := fld_eq wd 27 _ (by rw [hw]; show _ / 134217728 % 32 = 5; omega)
  have h1 : fld wd 18 9 = p := fld_eq wd 18 _ (by rw [hw]; show _ / 262144 % 512 = _; omega)
  have h2 : fld wd 0 18 = 0#18 := fld_eq wd 0 _ (by rw [hw]; show _ / 1 % 262144 = 0; omega)
  unfold decodeMicroForm; rw [h0]
  show micro (.ones (fld wd 18 9)) (fld wd 0 18 == 0#18) = _
  simp only [h1, h2]
  exact micro_ok _ _ hwf (by decide)
theorem lshl (p : BitVec 9) (q : BitVec 9) : Statement (.lshl p q) :=
  micro_of (805306368 + p.toNat * 262144 + q.toNat * 512) rfl (by omega) rfl fun wd hw hwf => by
  have h0 : fld wd 27 5 = 6#5 := fld_eq wd 27 _ (by rw [hw]; show _ / 134217728 % 32 = 6; omega)
  have h1 : fld wd 18 9 = p := fld_eq wd 18 _ (by rw [hw]; show _ / 262144 % 512 = _; omega)
  have h2 : fld wd 9 9 = q := fld_eq wd 9 _ (by rw [hw]; show _ / 512 % 512 = _; omega)
  have h3 : fld wd 0 9 = 0#9 := fld_eq wd 0 _ (by rw [hw]; show _ / 1 % 512 = 0; omega)
  unfold decodeMicroForm; rw [h0]
  show micro (.lshl (fld wd 18 9) (fld wd 9 9)) (fld wd 0 9 == 0#9) = _
  simp only [h1, h2, h3]
  exact micro_ok _ _ hwf (by decide)
theorem lshr (p : BitVec 9) (q : BitVec 9) : Statement (.lshr p q) :=
  micro_of (939524096 + p.toNat * 262144 + q.toNat * 512) rfl (by omega) rfl fun wd hw hwf => by
  have h0 : fld wd 27 5 = 7#5 := fld_eq wd 27 _ (by rw [hw]; show _ / 134217728 % 32 = 7; omega)
  have h1 : fld wd 18 9 = p := fld_eq wd 18 _ (by rw [hw]; show _ / 262144 % 512 = _; omega)
  have h2 : fld wd 9 9 = q := fld_eq wd 9 _ (by rw [hw]; show _ / 512 % 512 = _; omega)
  have h3 : fld wd 0 9 = 0#9 := fld_eq wd 0 _ (by rw [hw]; show _ / 1 % 512 = 0; omega)
  unfold decodeMicroForm; rw [h0]
  show micro (.lshr (fld wd 18 9) (fld wd 9 9)) (fld wd 0 9 == 0#9) = _
  simp only [h1, h2, h3]
  exact micro_ok _ _ hwf (by decide)
theorem rdl (q : BitVec 9) : Statement (.rdl q) :=
  micro_of (1073741824 + q.toNat * 512) rfl (by omega) rfl fun wd hw hwf => by
  have h0 : fld wd 27 5 = 8#5 := fld_eq wd 27 _ (by rw [hw]; show _ / 134217728 % 32 = 8; omega)
  have h1 : fld wd 9 9 = q := fld_eq wd 9 _ (by rw [hw]; show _ / 512 % 512 = _; omega)
  have h2 : fld wd 18 9 = 0#9 := fld_eq wd 18 _ (by rw [hw]; show _ / 262144 % 512 = 0; omega)
  have h3 : fld wd 0 9 = 0#9 := fld_eq wd 0 _ (by rw [hw]; show _ / 1 % 512 = 0; omega)
  unfold decodeMicroForm; rw [h0]
  show micro (.rdl (fld wd 9 9)) (fld wd 18 9 == 0#9 && fld wd 0 9 == 0#9) = _
  simp only [h1, h2, h3]
  exact micro_ok _ _ hwf (by decide)
theorem wrl (p : BitVec 9) (s : BitVec 9) : Statement (.wrl p s) :=
  micro_of (1207959552 + p.toNat * 262144 + s.toNat * 512) rfl (by omega) rfl fun wd hw hwf => by
  have h0 : fld wd 27 5 = 9#5 := fld_eq wd 27 _ (by rw [hw]; show _ / 134217728 % 32 = 9; omega)
  have h1 : fld wd 18 9 = p := fld_eq wd 18 _ (by rw [hw]; show _ / 262144 % 512 = _; omega)
  have h2 : fld wd 9 9 = s := fld_eq wd 9 _ (by rw [hw]; show _ / 512 % 512 = _; omega)
  have h3 : fld wd 0 9 = 0#9 := fld_eq wd 0 _ (by rw [hw]; show _ / 1 % 512 = 0; omega)
  unfold decodeMicroForm; rw [h0]
  show micro (.wrl (fld wd 18 9) (fld wd 9 9)) (fld wd 0 9 == 0#9) = _
  simp only [h1, h2, h3]
  exact micro_ok _ _ hwf (by decide)
theorem cnt (q : BitVec 9) : Statement (.cnt q) :=
  micro_of (1342177280 + q.toNat * 512) rfl (by omega) rfl fun wd hw hwf => by
  have h0 : fld wd 27 5 = 10#5 := fld_eq wd 27 _ (by rw [hw]; show _ / 134217728 % 32 = 10; omega)
  have h1 : fld wd 9 9 = q := fld_eq wd 9 _ (by rw [hw]; show _ / 512 % 512 = _; omega)
  have h2 : fld wd 18 9 = 0#9 := fld_eq wd 18 _ (by rw [hw]; show _ / 262144 % 512 = 0; omega)
  have h3 : fld wd 0 9 = 0#9 := fld_eq wd 0 _ (by rw [hw]; show _ / 1 % 512 = 0; omega)
  unfold decodeMicroForm; rw [h0]
  show micro (.cnt (fld wd 9 9)) (fld wd 18 9 == 0#9 && fld wd 0 9 == 0#9) = _
  simp only [h1, h2, h3]
  exact micro_ok _ _ hwf (by decide)
theorem wacc (i : BitVec 2) (f : BitVec 6) : Statement (.wacc i f) :=
  micro_of (1476395008 + i.toNat * 16777216 + f.toNat * 262144) rfl (by omega) rfl fun wd hw hwf => by
  have h0 : fld wd 27 5 = 11#5 := fld_eq wd 27 _ (by rw [hw]; show _ / 134217728 % 32 = 11; omega)
  have h1 : fld wd 24 2 = i := fld_eq wd 24 _ (by rw [hw]; show _ / 16777216 % 4 = _; omega)
  have h2 : fld wd 18 6 = f := fld_eq wd 18 _ (by rw [hw]; show _ / 262144 % 64 = _; omega)
  have h3 : fld wd 26 1 = 0#1 := fld_eq wd 26 _ (by rw [hw]; show _ / 67108864 % 2 = 0; omega)
  have h4 : fld wd 0 18 = 0#18 := fld_eq wd 0 _ (by rw [hw]; show _ / 1 % 262144 = 0; omega)
  unfold decodeMicroForm; rw [h0]
  show (ite _ _ _) = _
  rw [h3, if_pos (by decide)]
  simp only [h1, h2, h4]
  exact micro_ok _ _ hwf (by decide)
theorem waccNeg (i : BitVec 2) (f : BitVec 6) : Statement (.waccNeg i f) :=
  micro_of (1543503872 + i.toNat * 16777216 + f.toNat * 262144) rfl (by omega) rfl fun wd hw hwf => by
  have h0 : fld wd 27 5 = 11#5 := fld_eq wd 27 _ (by rw [hw]; show _ / 134217728 % 32 = 11; omega)
  have h1 : fld wd 24 2 = i := fld_eq wd 24 _ (by rw [hw]; show _ / 16777216 % 4 = _; omega)
  have h2 : fld wd 18 6 = f := fld_eq wd 18 _ (by rw [hw]; show _ / 262144 % 64 = _; omega)
  have h3 : fld wd 26 1 = 1#1 := fld_eq wd 26 _ (by rw [hw]; show _ / 67108864 % 2 = 1; omega)
  have h4 : fld wd 0 18 = 0#18 := fld_eq wd 0 _ (by rw [hw]; show _ / 1 % 262144 = 0; omega)
  unfold decodeMicroForm; rw [h0]
  show (ite _ _ _) = _
  rw [h3, if_neg (by decide)]
  simp only [h1, h2, h4]
  exact micro_ok _ _ hwf (by decide)
theorem bit (k : BitVec 9) (q : BitVec 9) : Statement (.bit k q) :=
  micro_of (1610612736 + k.toNat * 262144 + q.toNat * 512) rfl (by omega) rfl fun wd hw hwf => by
  have h0 : fld wd 27 5 = 12#5 := fld_eq wd 27 _ (by rw [hw]; show _ / 134217728 % 32 = 12; omega)
  have h1 : fld wd 18 9 = k := fld_eq wd 18 _ (by rw [hw]; show _ / 262144 % 512 = _; omega)
  have h2 : fld wd 9 9 = q := fld_eq wd 9 _ (by rw [hw]; show _ / 512 % 512 = _; omega)
  have h3 : fld wd 0 9 = 0#9 := fld_eq wd 0 _ (by rw [hw]; show _ / 1 % 512 = 0; omega)
  unfold decodeMicroForm; rw [h0]
  show micro (.bit (fld wd 18 9) (fld wd 9 9)) (fld wd 0 9 == 0#9) = _
  simp only [h1, h2, h3]
  exact micro_ok _ _ hwf (by decide)
theorem next (b : BitVec 9) (n : BitVec 9) : Statement (.next b n) :=
  micro_of (1744830464 + b.toNat * 262144 + n.toNat * 512) rfl (by omega) rfl fun wd hw hwf => by
  have h0 : fld wd 27 5 = 13#5 := fld_eq wd 27 _ (by rw [hw]; show _ / 134217728 % 32 = 13; omega)
  have h1 : fld wd 18 9 = b := fld_eq wd 18 _ (by rw [hw]; show _ / 262144 % 512 = _; omega)
  have h2 : fld wd 9 9 = n := fld_eq wd 9 _ (by rw [hw]; show _ / 512 % 512 = _; omega)
  have h3 : fld wd 0 9 = 0#9 := fld_eq wd 0 _ (by rw [hw]; show _ / 1 % 512 = 0; omega)
  unfold decodeMicroForm; rw [h0]
  show micro (.next (fld wd 18 9) (fld wd 9 9)) (fld wd 0 9 == 0#9) = _
  simp only [h1, h2, h3]
  exact micro_ok _ _ hwf (by decide)
theorem yield : Statement .yield :=
  micro_of (2013265920) rfl (by omega) rfl fun wd hw hwf => by
  have h0 : fld wd 27 5 = 15#5 := fld_eq wd 27 _ (by rw [hw]; show _ / 134217728 % 32 = 15; omega)
  have h1 : fld wd 0 27 = 0#27 := fld_eq wd 0 _ (by rw [hw]; show _ / 1 % 134217728 = 0; omega)
  unfold decodeMicroForm; rw [h0]
  show micro (.yield) (fld wd 0 27 == 0#27) = _
  simp only [h1]
  exact micro_ok _ _ hwf (by decide)
theorem stop : Statement .stop :=
  micro_of (2147483648) rfl (by omega) rfl fun wd hw hwf => by
  have h0 : fld wd 27 5 = 16#5 := fld_eq wd 27 _ (by rw [hw]; show _ / 134217728 % 32 = 16; omega)
  have h1 : fld wd 0 27 = 0#27 := fld_eq wd 0 _ (by rw [hw]; show _ / 1 % 134217728 = 0; omega)
  unfold decodeMicroForm; rw [h0]
  show micro (.stop) (fld wd 0 27 == 0#27) = _
  simp only [h1]
  exact micro_ok _ _ hwf (by decide)
theorem claim (port : BitVec 3) (word : BitVec 64) : Statement (.claim port word) := no_word rfl rfl
theorem loaddesc (port : BitVec 3) (word : BitVec 64) : Statement (.loaddesc port word) := no_word rfl rfl
theorem loadkey (port : BitVec 3) (word : BitVec 64) : Statement (.loadkey port word) := no_word rfl rfl
theorem activate (port : BitVec 3) (word : BitVec 64) : Statement (.activate port word) := no_word rfl rfl
theorem suspend (port : BitVec 3) (word : BitVec 64) : Statement (.suspend port word) := no_word rfl rfl
theorem resume (port : BitVec 3) (word : BitVec 64) : Statement (.resume port word) := no_word rfl rfl
theorem retireAbort (port : BitVec 3) (word : BitVec 64) : Statement (.retireAbort port word) := no_word rfl rfl
theorem retireFinish (port : BitVec 3) (word : BitVec 64) : Statement (.retireFinish port word) := no_word rfl rfl
theorem release (port : BitVec 3) (word : BitVec 64) : Statement (.release port word) := no_word rfl rfl
theorem addquota (port : BitVec 3) (word : BitVec 64) : Statement (.addquota port word) := no_word rfl rfl
theorem addframes (port : BitVec 3) (word : BitVec 64) : Statement (.addframes port word) := no_word rfl rfl
theorem setceil (port : BitVec 3) (word : BitVec 64) : Statement (.setceil port word) := no_word rfl rfl
theorem query (port : BitVec 3) (word : BitVec 64) : Statement (.query port word) := no_word rfl rfl
theorem qbind (port : BitVec 3) (word : BitVec 64) : Statement (.qbind port word) := no_word rfl rfl
theorem qstart (port : BitVec 3) (word : BitVec 64) : Statement (.qstart port word) := no_word rfl rfl
theorem qstop (port : BitVec 3) (word : BitVec 64) : Statement (.qstop port word) := no_word rfl rfl
theorem qdrain (port : BitVec 3) (word : BitVec 64) : Statement (.qdrain port word) := no_word rfl rfl
theorem qunbind (port : BitVec 3) (word : BitVec 64) : Statement (.qunbind port word) := no_word rfl rfl
theorem qquery (port : BitVec 3) (word : BitVec 64) : Statement (.qquery port word) := no_word rfl rfl
theorem qtail (port : BitVec 3) (qid : BitVec 8) (word : BitVec 64) : Statement (.qtail port qid word) := no_word rfl rfl
theorem kabort (port : BitVec 3) (word : BitVec 64) : Statement (.kabort port word) := no_word rfl rfl
theorem khold (port : BitVec 3) (word : BitVec 64) : Statement (.khold port word) := no_word rfl rfl
theorem kresume (port : BitVec 3) (word : BitVec 64) : Statement (.kresume port word) := no_word rfl rfl
theorem ghalt (port : BitVec 3) (word : BitVec 64) : Statement (.ghalt port word) := no_word rfl rfl
theorem gresume (port : BitVec 3) (word : BitVec 64) : Statement (.gresume port word) := no_word rfl rfl
theorem resolve (port : BitVec 3) (word : BitVec 64) : Statement (.resolve port word) := no_word rfl rfl
theorem failpg (port : BitVec 3) (word : BitVec 64) : Statement (.failpg port word) := no_word rfl rfl
theorem inval (port : BitVec 3) (word : BitVec 64) : Statement (.inval port word) := no_word rfl rfl
theorem invall (port : BitVec 3) (word : BitVec 64) : Statement (.invall port word) := no_word rfl rfl
theorem rsalloc (port : BitVec 3) (word : BitVec 64) : Statement (.rsalloc port word) := no_word rfl rfl
theorem rsfree (port : BitVec 3) (word : BitVec 64) : Statement (.rsfree port word) := no_word rfl rfl
theorem rsquery (port : BitVec 3) (word : BitVec 64) : Statement (.rsquery port word) := no_word rfl rfl
theorem rscfg (port : BitVec 3) (word : BitVec 64) : Statement (.rscfg port word) := no_word rfl rfl
theorem rrcfg (port : BitVec 3) (word : BitVec 64) : Statement (.rrcfg port word) := no_word rfl rfl
theorem aradopt (port : BitVec 3) (word : BitVec 64) : Statement (.aradopt port word) := no_word rfl rfl
theorem arpurge (port : BitVec 3) (word : BitVec 64) : Statement (.arpurge port word) := no_word rfl rfl
theorem arquery (port : BitVec 3) (word : BitVec 64) : Statement (.arquery port word) := no_word rfl rfl
theorem modid (port : BitVec 3) (word : BitVec 64) : Statement (.modid port word) := no_word rfl rfl
theorem linkEnable (port : BitVec 3) (link : BitVec 4) : Statement (.linkEnable port link) := no_word rfl rfl
theorem linkDisable (port : BitVec 3) (link : BitVec 4) : Statement (.linkDisable port link) := no_word rfl rfl
theorem rtr (port : BitVec 3) (link : BitVec 4) : Statement (.rtr port link) := no_word rfl rfl
theorem ownClaim (port : BitVec 3) (word : BitVec 64) : Statement (.ownClaim port word) := no_word rfl rfl
theorem ownGive (port : BitVec 3) (word : BitVec 64) : Statement (.ownGive port word) := no_word rfl rfl
theorem ownTake (port : BitVec 3) (word : BitVec 64) : Statement (.ownTake port word) := no_word rfl rfl
theorem ownRelease (port : BitVec 3) (word : BitVec 64) : Statement (.ownRelease port word) := no_word rfl rfl
theorem giveExpiry : Statement .giveExpiry := no_word rfl rfl
theorem ownerPortLoss : Statement .ownerPortLoss := no_word rfl rfl
theorem report (port : BitVec 3) (word : BitVec 64) : Statement (.report port word) := no_word rfl rfl
theorem session (port : BitVec 3) (word : BitVec 64) : Statement (.session port word) := no_word rfl rfl
theorem pwrOn : Statement .pwrOn := no_word rfl rfl
theorem pwrOff : Statement .pwrOff := no_word rfl rfl
theorem rst : Statement .rst := no_word rfl rfl
theorem ownrel : Statement .ownrel := no_word rfl rfl
theorem registerWrite (port : BitVec 4) (offset : BitVec 19) (word : BitVec 64) : Statement (.registerWrite port offset word) := no_word rfl rfl
theorem bootPhase (ok : Bool) : Statement (.bootPhase ok) := no_word rfl rfl
theorem memoryPhase (ok : Bool) : Statement (.memoryPhase ok) := no_word rfl rfl
theorem archivePhase (ok : Bool) : Statement (.archivePhase ok) := no_word rfl rfl
theorem linksPhase (ok : Bool) : Statement (.linksPhase ok) := no_word rfl rfl
theorem throttleChange (sensor : BitVec 5) (reading : Reading) : Statement (.throttleChange sensor reading) := no_word rfl rfl
theorem scrubComplete (cid : BitVec 6) : Statement (.scrubComplete cid) := no_word rfl rfl
theorem drainComplete (cid : BitVec 6) : Statement (.drainComplete cid) := no_word rfl rfl
theorem recordFetch (qid : BitVec 8) : Statement (.recordFetch qid) := no_word rfl rfl
theorem admission : Statement .admission := no_word rfl rfl
theorem waitClauseRecheck (qid : BitVec 8) : Statement (.waitClauseRecheck qid) := no_word rfl rfl
theorem enqCommit (op : Nat) : Statement (.enqCommit op) := no_word rfl rfl
theorem snapshotsHeld (kernel : Nat) : Statement (.snapshotsHeld kernel) := no_word rfl rfl
theorem groupPlace (kernel : Nat) : Statement (.groupPlace kernel) := no_word rfl rfl
theorem groupRestore (group : Nat) : Statement (.groupRestore group) := no_word rfl rfl
theorem preemption (group : Nat) : Statement (.preemption group) := no_word rfl rfl
theorem groupSave (group : Nat) : Statement (.groupSave group) := no_word rfl rfl
theorem superstepYield (group : Nat) : Statement (.superstepYield group) := no_word rfl rfl
theorem groupEnd (group : Nat) : Statement (.groupEnd group) := no_word rfl rfl
theorem kernelEnd (kernel : Nat) : Statement (.kernelEnd kernel) := no_word rfl rfl
theorem strandWake (group : Nat) (strand : BitVec 3) : Statement (.strandWake group strand) := no_word rfl rfl
theorem idleTimeout (group : Nat) (strand : BitVec 3) : Statement (.idleTimeout group strand) := no_word rfl rfl
theorem bwaitTimeout (group : Nat) (strand : BitVec 3) : Statement (.bwaitTimeout group strand) := no_word rfl rfl
theorem barvArrival (op : Nat) : Statement (.barvArrival op) := no_word rfl rfl
theorem sstepArrival (op : Nat) : Statement (.sstepArrival op) := no_word rfl rfl
theorem copyFaultTrap (group : Nat) (strand : BitVec 3) : Statement (.copyFaultTrap group strand) := no_word rfl rfl
theorem catalogueFaultTrap (group : Nat) (strand : BitVec 3) : Statement (.catalogueFaultTrap group strand) := no_word rfl rfl
theorem loadComplete (op : Nat) : Statement (.loadComplete op) := no_word rfl rfl
theorem storeComplete (op : Nat) : Statement (.storeComplete op) := no_word rfl rfl
theorem atomicComplete (op : Nat) : Statement (.atomicComplete op) := no_word rfl rfl
theorem batchCloseTimeout (group : Nat) (strand : BitVec 3) (channel : BitVec 2) : Statement (.batchCloseTimeout group strand channel) := no_word rfl rfl
theorem nestBatch (group : Nat) (strand : BitVec 3) (channel : BitVec 2) : Statement (.nestBatch group strand channel) := no_word rfl rfl
theorem copyComplete (group : Nat) (strand : BitVec 3) (channel : BitVec 2) : Statement (.copyComplete group strand channel) := no_word rfl rfl
theorem matrixOpStart (core : BitVec 8) : Statement (.matrixOpStart core) := no_word rfl rfl
theorem matrixOpRetire (core : BitVec 8) : Statement (.matrixOpRetire core) := no_word rfl rfl
theorem tableWalk (die : BitVec 5) (cid : BitVec 6) (va : BitVec 64) (kind : BitVec 2) : Statement (.tableWalk die cid va kind) := no_word rfl rfl
theorem heldRecordWrite (ring : BitVec 4) : Statement (.heldRecordWrite ring) := no_word rfl rfl
theorem cowResolution (die : BitVec 5) (entry : BitVec 12) : Statement (.cowResolution die entry) := no_word rfl rfl
theorem frameCopy (die : BitVec 5) (entry : BitVec 12) : Statement (.frameCopy die entry) := no_word rfl rfl
theorem migrationCopy (op : Nat) : Statement (.migrationCopy op) := no_word rfl rfl
theorem migrationSwitch (op : Nat) : Statement (.migrationSwitch op) := no_word rfl rfl
theorem demandStaging (page : BitVec 45) : Statement (.demandStaging page) := no_word rfl rfl
theorem stagingComplete (page : BitVec 45) : Statement (.stagingComplete page) := no_word rfl rfl
theorem accessionCheck (op : Nat) : Statement (.accessionCheck op) := no_word rfl rfl
theorem pageProgram (op : Nat) (verified : Bool) : Statement (.pageProgram op verified) := no_word rfl rfl
theorem installPoint (op : Nat) : Statement (.installPoint op) := no_word rfl rfl
theorem deaccession (op : Nat) : Statement (.deaccession op) := no_word rfl rfl
theorem weeding (stack : BitVec 3) : Statement (.weeding stack) := no_word rfl rfl
theorem weedingCopy (stack : BitVec 3) : Statement (.weedingCopy stack) := no_word rfl rfl
theorem erase (stack : BitVec 3) (block : BitVec 19) : Statement (.erase stack block) := no_word rfl rfl
theorem catStartPhase (op : Nat) : Statement (.catStartPhase op) := no_word rfl rfl
theorem catRow (op : Nat) : Statement (.catRow op) := no_word rfl rfl
theorem catRowCommit (op : Nat) : Statement (.catRowCommit op) := no_word rfl rfl
theorem catRunComplete (op : Nat) : Statement (.catRunComplete op) := no_word rfl rfl
theorem rowPreparation (op : Nat) : Statement (.rowPreparation op) := no_word rfl rfl
theorem rowHold (op : Nat) : Statement (.rowHold op) := no_word rfl rfl
theorem waveStart (op : Nat) (stack : BitVec 4) : Statement (.waveStart op stack) := no_word rfl rfl
theorem rowldPlaneStep (op : Nat) (stack : BitVec 4) : Statement (.rowldPlaneStep op stack) := no_word rfl rfl
theorem rowsealStep (op : Nat) (stack : BitVec 4) : Statement (.rowsealStep op stack) := no_word rfl rfl
theorem asealStep (op : Nat) (stack : BitVec 4) : Statement (.asealStep op stack) := no_word rfl rfl
theorem forcedSwitch (stack : BitVec 4) : Statement (.forcedSwitch stack) := no_word rfl rfl
theorem rowPreemptStop (op : Nat) (stack : BitVec 4) : Statement (.rowPreemptStop op stack) := no_word rfl rfl
theorem rowRetire (op : Nat) : Statement (.rowRetire op) := no_word rfl rfl
theorem refreshDue (stack : BitVec 4) (pch : BitVec 8) (bank : BitVec 4) : Statement (.refreshDue stack pch bank) := no_word rfl rfl
theorem postponedRefresh (stack : BitVec 4) (pch : BitVec 8) (bank : BitVec 4) : Statement (.postponedRefresh stack pch bank) := no_word rfl rfl
theorem allBankRefresh (stack : BitVec 4) (pch : BitVec 8) : Statement (.allBankRefresh stack pch) := no_word rfl rfl
theorem refreshEnd (stack : BitVec 4) (pch : BitVec 8) (bank : BitVec 4) : Statement (.refreshEnd stack pch bank) := no_word rfl rfl
theorem serviceGap (stack : BitVec 4) : Statement (.serviceGap stack) := no_word rfl rfl
theorem hostCxlMemAccess (port : BitVec 3) (addr : BitVec 46) (write : Bool) (size : BitVec 6) (data : BitVec 512) : Statement (.hostCxlMemAccess port addr write size data) := no_word rfl rfl
theorem heldCxlTimeout (op : Nat) : Statement (.heldCxlTimeout op) := no_word rfl rfl
theorem remoteAccess (link : BitVec 4) (scid : BitVec 6) (addr : BitVec 40) (ver : BitVec 32) (kind : RemoteKind) (size : BitVec 6) (data : BitVec 256) : Statement (.remoteAccess link scid addr ver kind size data) := no_word rfl rfl
theorem trainingEnd (unit : BitVec 6) (width : BitVec 2) (peer : BitVec 8) (peerLink : BitVec 4) : Statement (.trainingEnd unit width peer peerLink) := no_word rfl rfl
theorem trainingTimeout (unit : BitVec 6) : Statement (.trainingTimeout unit) := no_word rfl rfl
theorem realignmentDue (unit : BitVec 6) : Statement (.realignmentDue unit) := no_word rfl rfl
theorem deferralExpiry (unit : BitVec 6) : Statement (.deferralExpiry unit) := no_word rfl rfl
theorem checkFailureLimit (unit : BitVec 6) : Statement (.checkFailureLimit unit) := no_word rfl rfl
theorem retrainingEnd (unit : BitVec 6) (width : BitVec 2) : Statement (.retrainingEnd unit width) := no_word rfl rfl
theorem retrainingTimeout (unit : BitVec 6) : Statement (.retrainingTimeout unit) := no_word rfl rfl
theorem verticalBusFailure (die : BitVec 5) : Statement (.verticalBusFailure die) := no_word rfl rfl
theorem illegalInstruction (detail : BitVec 4) (tval : BitVec 64) : Statement (.illegalInstruction detail tval) := no_word rfl rfl
theorem rowSetZeroingEnd (rsid : BitVec 10) : Statement (.rowSetZeroingEnd rsid) := no_word rfl rfl
theorem invalidationComplete (op : Nat) : Statement (.invalidationComplete op) := no_word rfl rfl
theorem attestationCommandEnd (port : BitVec 3) : Statement (.attestationCommandEnd port) := no_word rfl rfl
theorem flitCheckFailure (link : BitVec 4) : Statement (.flitCheckFailure link) := no_word rfl rfl
theorem softError (addr : BitVec 40) (bit : BitVec 3) : Statement (.softError addr bit) := no_word rfl rfl

end Sys2Proof.Laws.Encoding

namespace Sys2Proof.Laws

open Encoding

theorem Encoding.seal (p : BitVec 9) : Statement (.seal p) :=
  micro_of (1879048192 + p.toNat * 262144) rfl (by omega) rfl fun wd hw hwf => by
  have h0 : fld wd 27 5 = 14#5 := fld_eq wd 27 _ (by rw [hw]; show _ / 134217728 % 32 = 14; omega)
  have h1 : fld wd 18 9 = p := fld_eq wd 18 _ (by rw [hw]; show _ / 262144 % 512 = _; omega)
  have h2 : fld wd 0 18 = 0#18 := fld_eq wd 0 _ (by rw [hw]; show _ / 1 % 262144 = 0; omega)
  unfold decodeMicroForm; rw [h0]
  show micro (.seal (fld wd 18 9)) (fld wd 0 18 == 0#18) = _
  simp only [h1, h2]
  exact micro_ok _ _ hwf (by decide)

end Sys2Proof.Laws
end

