-- ==== Sys2Proof/Tests/Slice0.lean ====
section
/-!
SUPPORT. The writer's own tests: ill-formed terms that the checks refuse, words of the spec's worked examples, and for every statement a concrete
state and operands that meet its hypotheses.
-/
namespace Sys2Proof.Tests

open Sys2Proof Sys2Proof.Machine Sys2Proof.Safety Sys2Proof.Laws

-- The kernel checks one evaluation after the other.
set_option Elab.async false

/-! ## WellFormed refuses ill-formed terms -/

/-- A register number out of range (R187). -/
theorem test_wf_register : (Instr.add 48 0 0 0 0).wellFormed = false ∧ (Instr.mand 12 0 0).wellFormed = false ∧ (Instr.nld 8 0).wellFormed = false := by decide
/-- A field that the form reserves (R186). -/
theorem test_wf_reserved : (Instr.add 1 2 3 1 1).reservedOk = false ∧ (Instr.add 1 2 3 1 1).wellFormed = false := by decide
/-- A function that is not allocated (R199). -/
theorem test_wf_function : (Instr.loop 6 0 0).wellFormed = false ∧ (Instr.mma 0 0 3 0 0 0 0 0).wellFormed = false := by decide
/-- A row specifier of a reserved class or of `t:16` (R204). -/
theorem test_wf_specifier : (Instr.zero 0x1FF).specsOk = false ∧ (Instr.zero 0x1FF).wellFormed = false := by decide
/-- A command whose word holds another command's OP (R47). -/
theorem test_wf_command : (Instr.claim 0 0x02).wellFormed = false ∧ (Instr.retireAbort 0 0x10007).wellFormed = false := by decide

/-! ## Register forms -/

/-- A device in which strand 0 of the group 0 acts. -/
def act (t : Strand) : State := { State.reset.placedBase t with focus := some (0, 0) }

theorem acts (t : Strand) : Acts (act t) 0 0 (placedGroup t) t := rfl

/-- A strand at 0x1000 with a mode word and a vector length. -/
def strandMd (md : BitVec 20) (vl : BitVec 11) : Strand := { Strand.placed 0x1000 0 0 with md := md, vl := vl }
/-- The same under a shape. -/
def strandSh (md : BitVec 20) (r c : BitVec 11) : Strand := { strandMd md 0 with vrows := r, vcols := c }

/-- IntegerArithmetic: s8 at the full length of 1,024, u64 with saturation, and a shape of the whole register. -/
theorem wit_IntegerArithmetic : Acts (act (strandMd 0x0 1024)) 0 0 (placedGroup (strandMd 0x0 1024)) (strandMd 0x0 1024) ∧ Ready tyInt (strandMd 0x0 1024) ∧
    Ready tyInt (strandMd 0x20E0 128) ∧ Ready tyInt (strandSh 0x8000 32 32) ∧ Typed tyInt (strandMd 0xE0 0) := ⟨rfl, by decide⟩
/-- IntegerFit: each clause at a bound of s8 and of u64. -/
theorem wit_IntegerFit : (tyMin 0 ≤ -128 ∧ (-128 : Int) ≤ tyMax 0) ∧ (tyMin 7 ≤ 2 ^ 64 - 1 ∧ (2 ^ 64 - 1 : Int) ≤ tyMax 7) ∧ ((-129 : Int) < tyMin 0) ∧
    (tyMax 0 < 128) ∧ (tyMax 7 < 2 ^ 64) := by decide +kernel
/-- R164 by hand: 127 + 1 under s8 wraps to 0x80, and saturates to 0x7F with SAT. -/
theorem test_fit : (fitInt false 0 128 ⟨0, []⟩).1 = 0x80 ∧ fitInt true 0 128 ⟨0, []⟩ = (0x7F, ⟨fSAT, []⟩) := by decide +kernel

/-- A strand whose x6 holds a value. -/
def withX6 (t : Strand) (v : Word) : Strand := t.setX 6 v

/-- IntegerDivision: divisors that are zero and not, with and without the divide trap, in both forms. -/
theorem wit_IntegerDivision :
    (Acts (act (strandMd 0x40 4)) 0 0 (placedGroup (strandMd 0x40 4)) (strandMd 0x40 4) ∧ Ready tyInt (strandMd 0x40 4) ∧ mdDzt (strandMd 0x40 4).md = false ∧
      Typed tyInt (strandMd 0x40 4)) ∧
    (Typed tyInt (withX6 (strandMd 0x4040 4) 1) ∧ scaI (withX6 (strandMd 0x4040 4) 1) 6 ≠ 0) ∧
    (Typed tyInt (strandMd 0x4040 4) ∧ mdDzt (strandMd 0x4040 4).md = true ∧ scaI (strandMd 0x4040 4) 6 = 0) ∧
    (Ready tyInt (strandMd 0x4040 4) ∧ (strandMd 0x4040 4).active 3 = true ∧ 3 < (strandMd 0x4040 4).el ∧ opBI (strandMd 0x4040 4) 6 0 3 = 0) ∧
    (Ready tyInt (strandMd 0x4040 0) ∧ ∀ j, (strandMd 0x4040 0).active j = true → opBI (strandMd 0x4040 0) 6 0 j ≠ 0) :=
  ⟨⟨rfl, by decide +kernel⟩, by decide +kernel, by decide +kernel, by decide +kernel, by decide +kernel, fun j h => absurd h (by simp [Strand.active, Strand.el, strandMd, mdSh])⟩
/-- LogicAndShifts: R207 accepts b8 codes for Bits. -/
theorem wit_LogicAndShifts : Ready tyBits (strandMd 0x1A0 1024) ∧ Typed tyBits (strandMd 0x1A0 0) ∧ Ready tyBits (strandMd 0x60 128) := by decide +kernel
/-- Immediates: a strand that acts, an integer type and a type of Bits. -/
theorem wit_Immediates : Acts (act (strandMd 0x0 1024)) 0 0 (placedGroup (strandMd 0x0 1024)) (strandMd 0x0 1024) ∧ Ready tyInt (strandMd 0x0 1024) ∧
    Ready tyBits (strandMd 0x120 512) := ⟨rfl, by decide +kernel⟩
theorem wit_IntegerCompares : Ready tyInt (strandMd 0x0 1024) ∧ Typed tyInt (strandMd 0xE0 0) := by decide +kernel
theorem wit_MaskAndPermutes : mdOk (strandMd 0xC 1024).md = true ∧ Ready (fun _ => true) (strandMd 0x1E0 1024) ∧ Ready tyInt (strandMd 0xE0 128) := by decide +kernel
theorem wit_Reductions : Ready tyInt (strandMd 0x0 1024) ∧ Ready tyInt (strandMd 0x0 0) ∧ Ready tyFP (strandMd 0x160 128) ∧ Ready tyFP (strandMd 0x1C0 0) := by decide +kernel
/-- VectorControl: a shape of 1,024 by 1,024 and one beyond it; a mode word with round 5 and one with round 6. -/
theorem wit_VectorControl : mdOk (strandMd 0x0 0).md = true ∧
    (((withX6 (strandMd 0 0) 1024).x 6).toNat ≤ 1024 ∧ ¬ ((withX6 (strandMd 0 0) 1025).x 6).toNat ≤ 1024) ∧
    (mdOk (((withX6 (strandMd 0 0) 0x1400).x 6).setWidth 20) = true ∧ mdOk (((withX6 (strandMd 0 0) 0x1800).x 6).setWidth 20) = false) ∧
    mdOk 0xFDEC = false ∧ mdOk 0xF5EC = true := by decide +kernel
/-- ControlFlow: a target at the top of the address space and one beyond; a count that ends a loop and one that does not. -/
theorem wit_ControlFlow : mdOk (strandMd 0x0 0).md = true ∧ (strandMd 0 0).x 1 = (strandMd 0 0).x 2 ∧ (withX6 (strandMd 0 0) 1).x 6 ≠ (strandMd 0 0).x 2 ∧
    (((withX6 (strandMd 0 0) 0x1FFFFFFFFFFFFFC).x 6).toNat % 4 = 0 ∧ ((withX6 (strandMd 0 0) 0x1FFFFFFFFFFFFFC).x 6).toNat < 2 ^ 57) ∧
    ¬ (((withX6 (strandMd 0 0) 0x200000000000000).x 6).toNat < 2 ^ 57) ∧ nestCnt ((strandMd 0 0).nest 1) 0 = 0 ∧
    nestCnt (((strandMd 0 0).setN 1 (nestSetCnt 0 5 1)).nest 1) 5 ≠ 0 := by decide +kernel
theorem wit_FloatArithmetic : Ready tyFP (strandMd 0x100 512) ∧ Typed tyFP (strandMd 0x140 0) ∧ (strandMd 0x140 0).ty ≠ 11 ∧ Ready tyFP (strandMd 0x1C0 1024) ∧
    Ready tyFP (strandMd 0x160 128) := by decide +kernel
theorem wit_FusedMultiplyAdd : Ready tyFP (strandMd 0x1C0 1024) ∧ Typed tyFP (strandMd 0x140 0) ∧ Ready tyFP (strandMd 0x100 512) := by decide +kernel
theorem wit_FloatSignsAndCompares : Ready tyFP (strandMd 0x1C0 1024) ∧ Typed tyFP (strandMd 0x100 0) ∧ (strandMd 0x100 0).ty ≠ 11 := by decide +kernel
/-- ApproximateFunctions: both forms; under f32 a zero, an infinity and a NaN, whose results are fixed, and 1.5, whose are not. -/
theorem wit_ApproximateFunctions : Ready (fun ty => tyFP ty && ty != 11) (strandMd 0x1C0 1024) ∧ Typed (fun ty => tyFP ty && ty != 11) (strandMd 0x140 0) ∧
    (tyFP 10 && 10 != 11) = true ∧ decodeVal 10 0x7F800000 = .inf false ∧ decodeVal 10 0x7F800001 = .nan true ∧
    (match decodeVal 10 0 with
      | .fin _ 0 _ => true
      | _ => false) = true ∧
    (match decodeVal 10 0x3FC00000 with
      | .fin _ m _ => decide (m ≠ 0)
      | _ => false) = true := by decide +kernel
/-- Conversions: f32 to e4m3 in both forms; f64 as type and as target; a shape that fits f32's 256 elements and not f32 from u8's 1,024. -/
theorem wit_Conversions : (mdOk (strandMd 0x140 256).md = true ∧ (12 : BitVec 5) ≠ 11 ∧ (strandMd 0x140 256).ty ≠ 11 ∧ (strandMd 0x140 256).shapeBad = false) ∧
    (strandMd 0x160 0).ty = 11 ∧ (mdOk (strandSh 0x8080 32 32).md = true ∧ (strandSh 0x8080 32 32).shapeBad = false ∧ mdSh (strandSh 0x8080 32 32).md = true ∧
      tyCap 10 < (strandSh 0x8080 32 32).el ∧ (strandSh 0x8080 32 32).el ≤ tyCap 12) ∧ Ready tyFloat (strandMd 0x1A0 1024) ∧ Typed tyFloat (strandMd 0x100 0) := by decide +kernel
/-- Quantiser: PW of e4m3 with the largest SBASE, and two bad ones. -/
theorem wit_Quantiser : Ready tyQuant (strandMd 0x140 256) ∧ Ready tyQuant (strandMd 0x100 512) ∧
    (12 ≤ (0xFF0C : Word).toNat % 32 ∧ (0xFF0C : Word).toNat % 32 ≤ 15 ∧ (0xFF0C : Word).toNat / 32 % 8 = 0 ∧ (0xFF0C : Word).toNat < 2 ^ 16) ∧
    (0x2C : Word).toNat / 32 % 8 ≠ 0 ∧ ¬ (12 ≤ (0xB : Word).toNat % 32) := by decide +kernel

/-! ## Memory forms -/

/-- The same device with page 0 mapped to the frame at 0x6000. -/
def here (t : Strand) : State := { act t with mem := (State.reset.placeCode 0).mem }
theorem hereActs (t : Strand) : Acts (here t) 0 0 (placedGroup t) t := rfl
/-- Its kernel has partitions of 256 KiB, 256 KiB and one tile. -/
def hereBuf (t : Strand) : State := { here t with kernels := [{ placedKernel with record := (List.replicate 16 0).set 3 0x0000003000400040 }] }
theorem hereBufActs (t : Strand) : Acts (hereBuf t) 0 0 (placedGroup t) t := rfl
theorem fst_eq {α β : Type} {p : α × β} {a : α} (h : p.1 = a) : p = (a, p.2) := by cases p; cases h; rfl
theorem snd_eq {α β : Type} {p : α × β} {b : β} (h : p.2 = b) : p = (p.1, b) := by cases p; cases h; rfl
/-- The address that a successful access gives. -/
def gives {ε α β : Type} (p : Except ε α × β) : Option α := match p.1 with
  | .ok a => some a
  | .error _ => none
theorem gives_eq {ε α β : Type} {p : Except ε α × β} {a : α} (h : gives p = some a) : p = (.ok a, p.2) := by
  rcases p with ⟨e | b, s⟩ <;> cases h; rfl

/-- ScalarMemory: the last aligned element of the mapped page, for reading and writing; an unaligned address. -/
theorem wit_ScalarMemory : Typed tyBits (withX6 (strandMd 0x60 0) 0xFF8) ∧ Typed tyInt (withX6 (strandMd 0x60 0) 0xFF8) ∧
    (∃ s1, (here (withX6 (strandMd 0x60 0) 0xFF8)).locateEl (.core 0) 0 .read 8 0xFF8 = (.ok 0x6FF8, s1)) ∧
    (∃ s1, (here (withX6 (strandMd 0x60 0) 0xFF8)).locateEl (.core 0) 0 .write 8 0xFF8 = (.ok 0x6FF8, s1)) ∧
    (∃ s1, (here (withX6 (strandMd 0x60 0) 0xFF8)).locateEl (.core 0) 0 .write 8 0xFF8 true = (.ok 0x6FF8, s1)) ∧ (0xFF9 : Word).toNat % 8 ≠ 0 :=
  ⟨by decide +kernel, by decide +kernel, ⟨_, gives_eq (by decide +kernel)⟩, ⟨_, gives_eq (by decide +kernel)⟩, ⟨_, gives_eq (by decide +kernel)⟩, by decide⟩

/-- VectorMemory: two elements located, and a second one beyond the address space, which traps. -/
theorem wit_VectorMemory :
    let t := withX6 (strandMd 0x40 2) 0xFFC
    Ready (fun ty => ty != 14) t ∧ Ready tyBits t ∧ Acts (here t) 0 0 (placedGroup t) t ∧
    (∃ s1, locateLoop (.core 0) 0 .read 4 t.active (fun j => 0xFF8 + BitVec.ofNat 64 (j * 4)) 2 0 (here t) [] = (s1, [(0, 0xFF8, 0x6FF8), (1, 0xFFC, 0x6FFC)], none)) ∧
    (∃ s1 f c e, locateLoop (.core 0) 0 .write 4 t.active (fun j => t.x 6 + BitVec.ofNat 64 j * 0x200000000000000) 2 0 (here t) [] = (s1, [(0, 0xFFC, 0x6FFC)], some (1, f)) ∧
      f.what = .trap c e) :=
  ⟨by decide +kernel, by decide +kernel, rfl, ⟨_, snd_eq (by decide +kernel)⟩,
    ⟨_, { va := 0x200000000000FFC, kind := .write, what := .trap 0x08 0 }, 0x08, 0, snd_eq (by decide +kernel), rfl⟩⟩

/-- A bound entry of s32 (R111): two elements from 0x40, 4 bytes apart. -/
def entryWords : List Word := [0x40, 0x1002, 0, 0, 2, 1, 1, 1, 1, 1, 4, 0, 0, 0, 0, 0]
/-- The acting group with that entry as tensors 1 and 2. -/
def tensorGroup (t : Strand) : Group :=
  { placedGroup t with shelf := ((placedGroup t).shelf.set 1 { words := entryWords, state := 2, bcode := 0 }).set 2 { words := entryWords, state := 2, bcode := 0 } }
def hereT (t : Strand) : State := { hereBuf t with groups := [tensorGroup t] }
/-- The acting group on a stack core. -/
def stackGroup (t : Strand) : Group := { placedGroup t with core := 96 }
def onStack (t : Strand) : State := { here t with groups := [stackGroup t] }

/-- TileAndBuffer: an element of the tensor and one beyond it, the last element of a partition, both core types, and requests that TSHAPE grants and that it does not. -/
theorem wit_TileAndBuffer :
    let t := strandMd 0x40 3
    Acts (hereT t) 0 0 (tensorGroup t) t ∧ Ready (fun _ => true) t ∧ Acts (onStack t) 0 0 (stackGroup t) t ∧ isStackCore (stackGroup t).core = true ∧
    isStackCore (tensorGroup t).core = false ∧
    (((tensorGroup t).entry 1).bound = true ∧ ((tensorGroup t).entry 1).words = entryWords ∧ entLayout entryWords = 0 ∧ entFmt entryWords = t.ty ∧ t.ty ≠ 14) ∧
    (tileAddr t entryWords 0 2 = none ∧
     ∃ s1, locateLoop (.core 0) 0 .read 4 (fun j => t.active j && (tileAddr t entryWords 0 j).isSome) (fun j => ((tileAddr t entryWords 0 j).getD (0, 0)).1) 3 0 (hereT t) [] =
       (s1, [(0, 0x40, 0x6040), (1, 0x44, 0x6044)], none)) ∧
    bufLoop .write .w 4 ((hereT t).partSize (tensorGroup t) .w) t.active 0x3FFF4 3 0 [] = ([(0, 0x3FFF4), (1, 0x3FFF8), (2, 0x3FFFC)], none) ∧
    ((0x0002000000010001 : Word).toNat / 2 ^ 48 % 4 = 2 ∧ (0x0000000000010001 : Word).toNat / 2 ^ 32 % 2 ^ 16 = 0) ∧
    (0x0000002000C000C0 : Word).toNat / 2 ^ 51 = 0 :=
  ⟨rfl, by decide +kernel, rfl, by decide, by decide, by decide +kernel, ⟨by decide +kernel, ⟨_, snd_eq (by decide +kernel)⟩⟩, by decide +kernel, by decide, by decide⟩

/-- Spills: a spill of one register at an aligned address within the page, a fill from a header of zeros, and an address that is not aligned. -/
theorem wit_Spills :
    let t : Strand := { strandMd 0 0 with dm := 1 }
    (∃ s1, probeLoop (.core 0) 0 .write 16 0x40 1088 (here t) [] = (.ok [(0x40, 0x6040, 1088)], s1)) ∧ (0x40 : Nat) % 64 = 0 ∧
    (∃ s1 s2, (here t).locate (.core 0) 0 0x40 .read = (.ok 0x6040, s1) ∧ s1.uncorrectable 0x6040 = false ∧
      probeLoop (.core 0) 0 .read 16 0x40 (64 + 1024 * ((List.range 48).filter fun r =>
        (leNat ((s1.cacheSpan (.load 0 0 6) 0 0 0x6040 6).readPlace (placedGroup t) 0 false (.phys 0x6040) 6).1).testBit r).length) s1 [] = (.ok [(0x40, 0x6040, 64)], s2)) ∧ (0x41 : Nat) % 64 ≠ 0 :=
  ⟨⟨_, gives_eq (by decide +kernel)⟩, by decide, ⟨_, _, fst_eq (by decide +kernel), by decide +kernel, gives_eq (by decide +kernel)⟩, by decide⟩
/-- Addresses that no window gives a second name: outside the window of the others, or the same sector. -/
theorem alone_sector {s : State} {pa n a : Nat} (h : pa / 32 = a / 32) (e : (pa + n - 1) / 32 = pa / 32) :
    ∀ x, pa ≤ x → x < pa + n → s.homeOf x / 32 = s.homeOf a / 32 → x / 32 = a / 32 := by intros; omega
/-- Bytes of DRAM beside a write: one that was written under the same key and version, and one of a block in which nothing is written. -/
theorem keeps_layer {s : State} {key : BitVec 512} {ver : BitVec 32} {pa n a : Nat} (h : pa + n ≤ 2 ^ 40) (ha : a < 2 ^ 40)
    (e : (s.layerOf a).all (fun l => l.is key ver a) = true) : KeepsByte s key ver pa n a :=
  ⟨fun x h1 h2 => by rw [homeOf_dram s (by omega), homeOf_dram s ha]; exact id, .inr (.inl fun l hl => by rw [hl] at e; exact e)⟩
theorem keeps_block {s : State} {key : BitVec 512} {ver : BitVec 32} {pa n a : Nat} (h : pa + n ≤ 2 ^ 40) (ha : a < 2 ^ 40)
    (e : ∀ x, pa ≤ x → x < pa + n → x / 16 ≠ a / 16) : KeepsByte s key ver pa n a :=
  ⟨fun x h1 h2 => by rw [homeOf_dram s (by omega), homeOf_dram s ha]; exact id, .inr (.inr e)⟩
/-- MemoryReadAfterWrite: a byte of the write, the next one, of the same block, and the first of the next block. -/
theorem wit_MemoryReadAfterWrite : State.reset.mem.wf = true ∧ (here (strandMd 0 0)).mem.wf = true ∧
    (∀ x, 0x6000 ≤ x → x < 0x6000 + 8 → (here (strandMd 0 0)).homeOf x / 32 = (here (strandMd 0 0)).homeOf 0x6000 / 32 → x / 32 = 0x6000 / 32) ∧
    KeepsByte (here (strandMd 0 0)) 0 0 0x6000 8 0x6008 ∧ KeepsByte (here (strandMd 0 0)) 1 0 0x6000 16 0x6010 :=
  ⟨by decide +kernel, by decide +kernel, alone_sector (by decide) (by decide), keeps_layer (by decide) (by decide) (by decide +kernel),
    keeps_block (by decide) (by decide) (by intros; omega)⟩

/-! ## Operations in flight, waits, barriers -/

/-- An operation in flight of the acting strand. -/
def op (w : OpWork) : Op := { id := 7, guid := 0, strand := 0, cid := 0, ver := 0, scope := 0, dist := 7, work := w, rd := [], wr := [], after := [], failed := false, pc := 0, ri := 0, elems := false }
def inFlight (w : OpWork) (t : Strand) : State := { here t with ops := [op w] }
/-- An earlier operation of the strand still writes the bytes of a later one. -/
def twoOps (t : Strand) : State :=
  let st : OpWork := .store [{ loc := .phys 0x6000, va := 0, data := [1], mask := [0xFF] }]
  { here t with ops := [op st, { op st with id := 8 }] }

/-- LoadStoreCompletion: a load, a store and an atomic that may complete, and an operation that is held back. -/
theorem wit_LoadStoreCompletion :
    let t := strandMd 0x60 0
    let ld : OpWork := .load [{ loc := .phys 0x6000, va := 0, bytes := 8, shift := 0, width := 64, out := 64, sx := true, dst := .scalar 6 }] false
    let st : OpWork := .store [{ loc := .phys 0x6000, va := 0, data := [1, 2], mask := List.replicate 2 0xFF }]
    let am : OpWork := .atomic .cas 3 (.phys 0x6000) 8 1 2 6
    (here t).mem.wf = true ∧ remoteOf (here t) 0x6000 = none ∧
    ((inFlight ld t).op? 7 = some (op ld) ∧ (inFlight ld t).opReady (op ld) = true ∧ (inFlight ld t).badPlace (.phys 0x6000) 8 = false) ∧
    ((inFlight st t).op? 7 = some (op st) ∧ (inFlight st t).opReady (op st) = true) ∧
    ((inFlight am t).op? 7 = some (op am) ∧ (inFlight am t).opReady (op am) = true ∧ (3 : BitVec 5).toNat < 8 ∧ 8 = 2 ^ ((3 : BitVec 5).toNat % 4)) ∧
    (inFlight ld t).group? 0 = some (placedGroup t) ∧ (inFlight ld t).strand? 0 0 = some t ∧
    ((inFlight st t).keyOf 0 = 0 ∧ KeepsByte (inFlight st t) 0 0 0x6000 2 0x6002 ∧ KeepsByte (inFlight am t) 0 0 0x6000 8 0x6010) ∧
    (∃ o, (twoOps t).op? 8 = some o ∧ (twoOps t).opReady o = false) :=
  ⟨by decide +kernel, by decide +kernel, ⟨rfl, by decide +kernel, by decide +kernel⟩, ⟨rfl, by decide +kernel⟩, ⟨rfl, by decide +kernel, by decide, by decide⟩, rfl, rfl,
    ⟨by decide +kernel, keeps_layer (by decide) (by decide) (by decide +kernel), keeps_block (by decide) (by decide) (by intros; omega)⟩, ⟨_, rfl, by decide +kernel⟩⟩

/-- WaitsAndSupersteps: counters at 0, and KE3 at 1 where bit 5 names it; a superstep barrier whose test passes and one whose test fails. -/
theorem wit_WaitsAndSupersteps :
    (∀ o ∈ (here (strandMd 0 0)).ops, o.guid = 0 → o.strand = 0 → o.groupWrite (here (strandMd 0 0)) = false) ∧
    (op (.store [{ loc := .phys 0x6000, va := 0, data := [1], mask := [0xFF] }])).groupWrite (here (strandMd 0 0)) = true ∧
    (let t := strandMd 0 0; t.kl = 0 ∧ t.ks = 0 ∧ t.ke.getD 3 0 = 0 ∧ t.kr = 0 ∧ t.kc = 0) ∧
    (let t : Strand := { strandMd 0 0 with ke := [0, 0, 0, 1] }; (0x20 : BitVec 8).getLsbD 5 = true ∧ t.ke.getD 3 0 ≠ 0) ∧
    (here (strandMd 0 0)).kernel? 0 = some placedKernel ∧ (placedKernel.ssb[(63 : BitVec 6).toNat]?).isSome = true ∧
    ((0 : BitVec 16) - 0x8001).toNat < 2 ^ 15 ∧ ¬ ((0 : BitVec 16) - 1).toNat < 2 ^ 15 := by decide +kernel

/-- The acting group with its 16 barriers, each of one expected arrival, in a context whose allotment is 1. -/
def barGroup (t : Strand) : Group := { placedGroup t with bars := List.replicate 16 { Bar.zero with exp := 1 } }
def withBars (t : Strand) : State := { here t with groups := [barGroup t], contexts := State.reset.contexts.set 0 { placedContext with ba := 1 } }

/-- NamedBarriers: the last barrier of the allotment and the first beyond it; counts of 0, 1 and 1,023; an arrival of each kind that is due. -/
theorem wit_NamedBarriers :
    let t := strandMd 0 0
    let due (w : OpWork) : State := { withBars t with ops := [op w], kernels := [placedKernel] }
    Acts (withBars t) 0 0 (barGroup t) t ∧
    ((15 : BitVec 10).toNat < 16 * ((withBars t).ctx 0).ba.toNat ∧ ¬ (16 : BitVec 10).toNat < 16 * ((withBars t).ctx 0).ba.toNat) ∧
    ((0x3FF : Word).setWidth 10 ≠ (0 : BitVec 10) ∧ (0x400 : Word).setWidth 10 = (0 : BitVec 10)) ∧
    (((due (.barv 15 6)).op? 7 = some (op (.barv 15 6)) ∧ (due (.barv 15 6)).arrivalDue (op (.barv 15 6)) = true) ∧
     (due (.barv 15 6)).group? 0 = some (barGroup t) ∧ (barGroup t).strands[0]? = some t ∧ (barGroup t).bars[15]? = some { Bar.zero with exp := 1 }) ∧
    ((due (.sstep 63)).op? 7 = some (op (.sstep 63)) ∧ (due (.sstep 63)).arrivalDue (op (.sstep 63)) = true ∧ (due (.sstep 63)).kernel? 0 = some placedKernel ∧
     placedKernel.ssb[63]? = some { gen := 0, xerr := false, exp := 1, cnt := 0, fail := false } ∧ t.status ≠ .ended ∧ ∀ n, n < 256 → ((due (.sstep 63)).queue n).held = none) :=
  ⟨rfl, by decide +kernel, by decide, ⟨⟨rfl, by decide +kernel⟩, rfl, rfl, by decide +kernel⟩, ⟨rfl, by decide +kernel, rfl, by decide +kernel, by decide +kernel, by decide +kernel⟩⟩

/-! ## Matrix unit, nest registers, copy engine -/

/-- Registers of an MMA of one row and one column over a length of 32, with rows of 32 bytes (R260). -/
def mmaStrand : Strand := (strandMd 0 0).setX 7 0x0000002000200020
def mmaOp (started : Bool) : MatOp :=
  { id := 7, guid := 0, strand := 0, ccvt := false, xd := 0, xa := 0x0000002000200020, d := 6, f := 0, nest := 0, md := 0, started := started, panels := [],
    gens := [], pos := 0, chunk := 0, flags := 0, count := 0 }
def withMat (started : Bool) : State :=
  { hereBuf mmaStrand with mats := [mmaOp started], locks := [{ id := 7, guid := 0, strand := 0, rd := [], wr := [] }] }

/-- MatrixIssue: an MMA that passes and one of length 0; a CCVT that passes and one of a tile that the group does not have; the last row of a tile; a head that
starts and one that retires. -/
theorem wit_MatrixIssue :
    let s := hereBuf mmaStrand
    let g := placedGroup mmaStrand
    let o : MatOp := { mmaOp false with id := s.fresh }
    mdOk mmaStrand.md = true ∧ (mmaStrand.x 7 = o.xa ∧ mmaStrand.x 6 = o.xd) ∧
    (mmaCheck s g o = none ∧ ∃ tr, mmaCheck s g { o with xa := 0 } = some tr) ∧
    (ccvtCheck s g { o with ccvt := true, xa := 0x2000000, f := 0xC } = none ∧ ∃ tr, ccvtCheck s g { o with ccvt := true, xa := 0x2000000, f := 0x4C } = some tr) ∧
    (isStackCore g.core = false ∧ s.hasTile g 0 = true ∧ isStackCore (stackGroup mmaStrand).core = true) ∧
    ((withMat false).headMat 0 = some (mmaOp false) ∧ (withMat false).group? 0 = some g ∧ (withMat false).longReady 7 0 0 [] [] = true ∧ g.stage = .resident) ∧
    (withMat true).headMat 0 = some (mmaOp true) ∧ ((withMat true).locks.find? fun l => l.id == 7).isSome = true ∧ (mmaOp true).chunk ≤ (mmaOp true).chunks ∧ { mmaOp true with chunk := 1 }.chunk ≤ (mmaOp true).chunks :=
  ⟨by decide, by decide +kernel, ⟨by decide +kernel, ⟨_, rfl⟩⟩, ⟨by decide +kernel, ⟨_, rfl⟩⟩, by decide +kernel, ⟨rfl, rfl, by decide +kernel, rfl⟩, rfl, by decide +kernel, by decide +kernel, by decide +kernel⟩

/-- NestRegisters: an image at an aligned address; counts of 1, 2^24 and one beyond; strides of -2^39 and 2^39. -/
theorem wit_NestRegisters :
    let t := strandMd 0 0
    (∃ s1, (here t).locateEl (.core 0) 0 .read 128 0x80 = (.ok 0x6080, s1)) ∧ (∃ s1, (here t).locateEl (.core 0) 0 .write 128 0xF80 = (.ok 0x6F80, s1)) ∧
    (1 ≤ (0x1000000 : Word).toNat ∧ (0x1000000 : Word).toNat ≤ 2 ^ 24) ∧ ¬ (0x1000001 : Word).toNat ≤ 2 ^ 24 ∧
    (-(2 ^ 39) ≤ (0xFFFFFF8000000000 : Word).toInt ∧ (0xFFFFFF8000000000 : Word).toInt < 2 ^ 39) ∧ ¬ (0x8000000000 : Word).toInt < 2 ^ 39 ∧ 984 + 40 ≤ 1024 :=
  ⟨⟨_, gives_eq (by decide +kernel)⟩, ⟨_, gives_eq (by decide +kernel)⟩, by decide +kernel, by decide +kernel, by decide +kernel, by decide +kernel, by decide⟩

/-- A copy of tensor 1 to tensor 2 with a nest of one iteration. -/
def copyCmd (pos : Nat) : CopyCmd :=
  { id := 7, src := entryWords, dst := entryWords, nest := 0, round := 0, xf := 0, arg := 0, idx := 0, pos := pos, codes := [], flags := 0, failed := false }
/-- A channel 0 whose running command stands at an iteration. -/
def copyStrand (pos : Nat) : Strand :=
  { strandMd 0 0 with chans := { Channel.empty with closed := [{ cmds := [copyCmd pos], cqb := 0, failed := false }] } :: List.replicate 3 Channel.empty, ke := [1, 0, 0, 0] }
/-- A channel that a fault has halted. -/
def haltedStrand : Strand :=
  { copyStrand 0 with chans := { Channel.empty with halt := some { va := 0, cause := 0x08, detail := 0, acc := 2, pos := 0, taken := false } } :: List.replicate 3 Channel.empty }

/-- CopyIssue: a command that passes and one whose source is row-tiled; a command with an iteration to go, one that is done, and a halted channel. -/
theorem wit_CopyIssue :
    let t := copyStrand 0
    let g := tensorGroup t
    let s := hereT t
    (mdOk t.md = true ∧ (g.entry 1).bound = true ∧ (g.entry 2).bound = true ∧ (g.entry 1).words = entryWords) ∧
    (copyCheck s g { copyCmd 0 with id := s.fresh } 1 2 = none ∧ (copyCheck s g { copyCmd 0 with src := entryWords.set 1 0x1022 } 1 2).isSome = true) ∧
    ((t.chan 0).closed = [{ cmds := [copyCmd 0], cqb := 0, failed := false }] ∧ (t.chan 0).halt = none ∧ (t.chan 0).held = none ∧ (copyCmd 0).pos < (copyCmd 0).total) ∧
    (s.chanTurn 0 0 g t 0 = true ∧ s.chanTurn 0 0 g t 1 = false) ∧
    (let ts := (List.range (copyCmd 0).batchLen).flatMap fun j => iterTouch (copyCmd 0) ((copyCmd 0).pos + j)
     ∃ ps s1, pagesOf false (.core 0) 0 ts s = (.ok ps, s1) ∧
      (∀ x ∈ ts, s.placeWaits (paOf ps x.kind x.va) 1 = false ∧ s.placeWaits (paOf ps x.kind (x.va + x.n - 1)) 1 = false) ∧
      ∀ x ∈ ts, x.kind = .read → s1.badPlace (.phys (paOf ps .read x.va)) x.n = false) ∧
    (copyCmd 1).total ≤ (copyCmd 1).pos ∧ (0 : Word).getLsbD 15 = false ∧
    (haltedStrand.copyPending.isSome = true ∧ haltedStrand.boundary = true ∧ haltedStrand.h = false ∧ haltedStrand.status ≠ .ended) :=
  ⟨by decide +kernel, by decide +kernel, by decide +kernel, by decide +kernel, ⟨[⟨0, .write, 0x6000, false⟩, ⟨0, .read, 0x6000, false⟩], _, gives_eq (by decide +kernel), by decide +kernel, by decide +kernel⟩,
    by decide +kernel, by decide +kernel⟩

/-! ## Row instructions and microcode -/

/-- A bit-plane tensor of one plane stack of four rows at 0. -/
def planeWords : List Word := [0, 0x1224, 0, 0, 8192, 1, 1, 1, 1, 1, 0, 0, 0, 0, 0, 0]
def rowTensorGroup (t : Strand) : Group := { placedGroup t with shelf := (placedGroup t).shelf.set 1 { words := planeWords, state := 2, bcode := 0 } }
/-- ROWSEAL of that tensor. -/
def sealOp (xa : Word) : RowOp :=
  { id := 0, guid := 0, strand := 0, cid := 0, kind := 2, tid := 1, xd := 0, xa := xa, ea := planeWords, eb := none, ec := none, ew := none, eo := none, sat := false,
    phase := .prep, prog := [], window := [], code := 0, widx := 0, uns := false, ce := false, flags := 0, steps := 0, runs := [], held := [], pages := [], wait := none,
    failed := false }
/-- RowIssue: a row instruction that passes, and one with a reserved bit. -/
theorem wit_RowIssue :
    let t := strandMd 0 0
    mdOk t.md = true ∧ (rowNames 2 0 0 1) = [(0, 1)] ∧ rowCheck { here t with groups := [rowTensorGroup t] } (rowTensorGroup t) [(0, 1)] (sealOp 0) = none ∧
    rowCheck { here t with groups := [rowTensorGroup t] } (rowTensorGroup t) [(0, 1)] (sealOp 1) = some rowTrap := by decide +kernel

/-- A wave of one subarray, with four rows of operand a at 0x6000. -/
def waveSlice : Slice := { q := 0, sub := 0, a := [0x6000, 0x6400, 0x6800, 0x6C00], b := [], c := [] }
def waveReg : SliceReg := { cr := 5, acc := 7, out := [] }
def waveRun (pc lp : Nat) (la : Option Nat) (phase : RunPhase) (wrote : List Nat) : StackRun :=
  { stk := 0, waves := [[waveSlice]], wave := 0, phase := phase, pc := pc, lp := lp, la := la, regs := [waveReg], outs := [],
    snap := { wave := 0, pc := 0, lp := 0, la := none, regs := [waveReg], outs := [] }, since := 4095, noForce := false, wrote := wrote, pos := 0, stop := none, paused := false, late := 0 }
def waveOp (kind : Nat) (xd : Word) (phase : RowPhase) (r : StackRun) : RowOp :=
  { sealOp 0 with id := 3, kind := kind, xd := xd, phase := phase, window := List.replicate 1024 0xA5, runs := [r], eo := some [0, 0x1004, 0, 0, 1032], steps := 9 }
/-- A resident group whose strand waits, with that row instruction first on row stack 0; a second one waits behind it. -/
def rowDevice (o : RowOp) : State :=
  let o2 : RowOp := { o with id := 4, phase := .prepared, runs := [] }
  let rows : Rows := { State.reset.rows with ops := [o, o2], seq := State.reset.rows.seq.set 0 [3, 4] }
  { here waitingStrand with focus := none, groups := [rowTensorGroup waitingStrand], rowFocus := some (3, 0), rows := rows }
def microOp (pc lp : Nat) (la : Option Nat) : RowOp := waveOp 1 0 .running (waveRun pc lp la .steps [])

theorem rowActs (pc lp : Nat) (la : Option Nat) :
    RowActs (rowDevice (microOp pc lp la)) 3 0 (microOp pc lp la) (waveRun pc lp la .steps []) := ⟨rfl, rfl, rfl⟩

/-- MicroRowWrites: `a:0`, `a:1`, `a:3` as rows, and the last lane row of the window. -/
theorem wit_MicroRowWrites :
    let o := microOp 2 0 none
    (rowDevice o).mem.wf = true ∧ (waveRun 2 0 none .steps []).slices = [waveSlice] ∧ o.dup = false ∧ rowAt o 0 waveSlice 0 = .row 0x6000 ∧
    rowAt o 0 waveSlice 1 = .row 0x6400 ∧ rowAt o 0 waveSlice 3 = .row 0x6C00 ∧ specStops o 0 0 = false ∧ specStops o 0 1 = false ∧ specStops o 0 3 = false ∧
    1024 * ((0 : BitVec 9).toNat + 1) ≤ o.window.length ∧ (511 : BitVec 9).toNat + 0 < 8 * o.window.length := by decide +kernel
/-- MicroControl: `t:16` by its loop index; NEXT at a count not reached, within and before the program, and at one reached; STOP with and without ASEAL. -/
theorem wit_MicroControl :
    specStops (microOp 2 1 none) 1 0xEF = true ∧ (1 < (2 : BitVec 9).toNat ∧ (waveRun 2 1 (some 2) .steps []).pc < (3 : BitVec 9).toNat) ∧
    (2 : BitVec 9).toNat ≤ (waveRun 2 1 (some 2) .steps []).pc ∧ (1 : BitVec 9).toNat ≤ 1 ∧
    ((microOp 2 0 none).aseal = false ∧ (waveOp 1 0x100000000 .running (waveRun 2 0 none .steps [0])).aseal = true ∧ (waveRun 2 0 none .steps [0]).wrote ≠ []) ∧
    (specStops (microOp 2 0 none) 0 3 = false ∧ rowAt (microOp 2 0 none) 0 waveSlice 3 = .row 0x6C00 ∧ (microOp 2 0 none).dup = false ∧
      (waveOp 1 0x80000000 .running (waveRun 2 0 none .steps [])).dup = true ∧ (waveRun 2 0 none .steps []).half = false) := by decide +kernel
/-- MicroRegisters: room for exactly one more row in the output, and no output tensor. -/
theorem wit_MicroRegisters :
    (waveRun 2 0 none .steps []).slices = [waveSlice] ∧ (waveRun 2 0 none .steps []).regs = [waveReg] ∧ specStops (microOp 2 0 none) 0 0 = false ∧
    ((microOp 2 0 none).eo.isSome = true ∧ 8 + 1024 * (waveReg.out.length + 1) ≤ { microOp 2 0 none with xd := 0 }.rs) ∧
    { microOp 2 0 none with eo := none }.eo = none := by decide +kernel

/-! ## System instructions -/

/-- SystemRegisters: numbers that are not listed and the highest that is; registers that no write reaches; MODE H; a barrier at the allotment and the last below it. -/
theorem wit_SystemRegisters :
    sysregOk 0x006 = false ∧ sysregOk 0x3FF = false ∧ sysregOk 0x041 = true ∧ (0x030#10 ≤ (0x041 : BitVec 10)) ∧ (0x010#10 ≤ (0x01A : BitVec 10)) ∧
    (0x001#10 ≤ (0x003 : BitVec 10) ∧ (0x003 : BitVec 10) ≤ 0x003#10) ∧ (strandMd 0 0).h = false ∧ { strandMd 0 0 with h := true }.h = true ∧
    ((0x023 : BitVec 10).toNat = 0x020 + 3 ∧ (0x8010 : Word).getLsbD 15 = true ∧ 16 * ((withBars (strandMd 0 0)).ctx 0).ba.toNat ≤ natBits (0x8010 : Word).toNat 9 0 ∧
      ¬ 16 * ((withBars (strandMd 0 0)).ctx 0).ba.toNat ≤ natBits (0x800F : Word).toNat 9 0) ∧
    ((here (strandMd 0 0)).kernel? 0).isSome = true := by decide +kernel

/-- A strand in a handler, and one whose handler stands at the top of the address space. -/
def inHandler (tpc : Word) : Strand := { strandMd 0 0 with h := true, tpc := tpc }
def withHandler : Strand := { strandMd 0 0 with tvec := 0x1FFFFFFFFFFFFFC }
/-- TrapsAndReturns: a trap that is taken, two that are fatal, a return to a good address and to a bad one; each kind of check that an instruction makes of MD. -/
theorem wit_TrapsAndReturns :
    withHandler.fatal = false ∧ (inHandler 0).fatal = true ∧ (strandMd 0 0).fatal = true ∧ badTarget (inHandler 0x40).tpc = false ∧
    badTarget (inHandler 0x42).tpc = true ∧ ((here (strandMd 0 0)).kernel? 0).map (fun q => decide (q.stage ≠ .draining)) = some true ∧
    (placedGroup (strandMd 0 0)).stage = .resident ∧
    (mdOk (strandMd 0x200 0).md = false ∧ mdOk (strandMd 0xD 0).md = false) ∧ (mdOk (strandMd 0x140 0).md = true ∧ tyInt (strandMd 0x140 0).ty = false) ∧
    (mdOk (strandMd 0xE0 0).md = true ∧ tyFP (strandMd 0xE0 0).ty = false) ∧
    ((strandSh 0x8000 33 32).shapeBad = true ∧ Typed tyInt (strandSh 0x8000 33 32)) ∧ (strandSh 0x8140 257 1).shapeBad = true ∧ Typed tyFP (strandSh 0x8140 257 1) := by
  decide +kernel

/-- An invalidation of page 1 that waits. -/
def invalOp : Op := op (.inval (some 1) false)
/-- DirtyMapAndInvalidation: the highest page and the first operand beyond; an invalidation that completes. -/
theorem wit_DirtyMapAndInvalidation :
    (natBits (0x01FFFFFFFFFFF001 : Word).toNat 63 57 = 0 ∧ natBits (0x01FFFFFFFFFFF001 : Word).toNat 11 1 = 0) ∧ natBits (0x0200000000000000 : Word).toNat 63 57 ≠ 0 ∧
    (natBits (0x01FFFFFFFFE00000 : Word).toNat 63 57 = 0 ∧ natBits (0x01FFFFFFFFE00000 : Word).toNat 20 1 = 0) ∧ natBits (0x100000 : Word).toNat 20 1 ≠ 0 ∧
    ((inFlight (.inval (some 1) false) (strandMd 0 0)).op? 7 = some invalOp ∧ (inFlight (.inval (some 1) false) (strandMd 0 0)).mmu.psCmd ≠ some 7 ∧
      (let s := inFlight (.inval none false) (strandMd 0 0); ({ s with mmu := { s.mmu with psCmd := some 7 } } : State).mmu.psCmd = some 7)) := by decide +kernel

/-- Page 0 is mapped, page 1 has an empty entry, page 2 is copy-on-write, page 3 in the archive, and the 2 MiB from 0x200000 are one leaf; the context's free list holds one frame; a POOL window may be open. -/
def mapped (pool : Bool) (ffln : BitVec 32) : State :=
  let m := ((((State.reset.placeCode 0).writeBytes 0 0 0x5008 (leBytes 8 0 ++ leBytes 8 0x60BF ++ leBytes 8 0x23B)).writeBytes 0 0 0x4008
    (leBytes 8 0x20003F)).writeBytes 0 0 0x7000 (leBytes 8 0 ++ leBytes 24 0x8000)).mem
  let c : Context := { placedContext with fflh := 7, ffln := ffln }
  let l : Links := { State.reset.links with pwcfg := State.reset.links.pwcfg.set 0 (if pool then 0x8000000000000000 else 0) }
  { act (strandMd 0 0) with mem := m, contexts := State.reset.contexts.set 0 c, links := l }
/-- A fault that the host serves, with the strand that waits for it. -/
def servedPend (cow : Option CowLock) (code : Byte) : Pend :=
  { die := 0, idx := 0, cid := 0, page := 2, code := code, acc := 3, hint := none, waiters := [.strand 0 0], cow := cow, arc := none }
/-- A resolution of page 2, which maps the frame at 0x6000. -/
def cowAt (since target : Option Nat) : Option CowLock := some { frame := 0x6000, since := since, leaf := 0x60BF, addr := 0x5010, target := target }
theorem ok_eq {ε α : Type} {x : Except ε α} {a : α} (h : x.toOption = some a) : x = .ok a := by
  cases x <;> cases h; rfl
/-- MappingInstructions: pages that may not be named; a page that is not mapped; one that may be shared, dropped or moved; each status. -/
theorem wit_MappingInstructions :
    let e : Word := 0x603F
    ((mapped false 1).l1Look 0 0x200000 = .ok none ∧ (mapped false 1).l1Look 0 0 = .ok (some 0x5000) ∧ (mapped false 1).l1Look 0 0x1000 = .ok (some 0x5008)) ∧
    badPage 0x1 = true ∧ badPage 0x200000000000000 = true ∧ badPage 0x1000 = false ∧ (mapped false 1).walk 0 0x1000 = .absent ∧
    (mapped false 1).walk 0 0 = .leaf e 1 0x5000 ∧ (mapped false 1).groupBad e 0x5000 = none ∧
    (pteTier e = 0 ∧ (mapped false 1).dramOk 0 0x6000 = true ∧ (mapped false 1).rowSetFrame 0x6000 = false ∧ (mapped false 1).inReadingRoom (subOf 0x6000) = false) ∧
    pteV ((mapped false 1).pte 0 0x5000) = true ∧ ((mapped false 1).pageLocked 0 0 = false ∧ ({ mapped false 1 with mmu := { (mapped false 1).mmu with pend := [servedPend (cowAt (some 1) none) 0x43] } } : State).pageLocked 0 2 = true ∧ (mapped false 1).headBad 0 = false) ∧
    pteV ((mapped false 1).pte 0 0x5008) = false ∧
    (mapped false 1).anyPool = false ∧ (mapped true 1).anyPool = true ∧ (mapped true 0).headHas 0 1 = false ∧ (mapped false 1).headHas 0 0 = true ∧
    ((mapped false 1).walk 0 0x2000 = .leaf 0x60BF 1 0x5010 ∧ pteCow 0x60BF = true) ∧
    ((mapped false 1).walk 0 0x3000 = .leaf 0x23B 1 0x5018 ∧ pteTier 0x23B = 2) ∧
    ((mapped false 1).walk 0 0x200000 = .leaf 0x20003F 2 0x4008 ∧ (mapped false 1).dramOk 0 0x200000 = true) :=
  ⟨⟨ok_eq (by decide +kernel), ok_eq (by decide +kernel), ok_eq (by decide +kernel)⟩, by decide +kernel⟩
/-- Queue 0 of the acting context with a ring at 0 and records between head and tail. -/
def withQueue (q : Queue) : State := { here (strandMd 0 0) with queues := State.reset.queues.set 0 q }
def ownQueue (state : QueueState) (feed : Nat) (tail : BitVec 32) : Queue := { Queue.reset with state := state, feed := feed, cid := 0, log2n := 6, tail := tail }
/-- The commit of an ENQ of the record at 0x6000 to the slot at 0x6F80. -/
def enqDevice (q : Queue) : State := { withQueue q with ops := [op (.enq 0 (.phys 0x6000) q.tail (.phys 0x6F80) 6)] }
/-- Enqueue: a queue of another feed, one that drains, one that is full, and the last free slot. -/
theorem wit_Enqueue :
    (∃ s1, (withQueue (ownQueue .active 8 31)).locateEl (.core 0) 0 .read 128 0x80 = (.ok 0x6080, s1) ∧ s1.enqStatus 0 0 = 0 ∧
      ∃ s2, s1.locateEl (.core 0) 0 .write 128 (BitVec.ofNat 64 ((s1.queue 0).slotVa (s1.queue 0).tail)) = (.ok 0x6F80, s2)) ∧
    (∃ s1, (withQueue (ownQueue .active 0 31)).locateEl (.core 0) 0 .read 128 0x80 = (.ok 0x6080, s1) ∧ s1.enqStatus 0 0 ≠ 0) ∧
    (let s := enqDevice (ownQueue .active 8 31)
     KeepsByte s 0 0 0x6F80 128 0x7000 ∧ s.op? 7 = some (op (.enq 0 (.phys 0x6000) 31 (.phys 0x6F80) 6)) ∧ s.opReady (op (.enq 0 (.phys 0x6000) 31 (.phys 0x6F80) 6)) = true ∧
     s.badPlace (.phys 0x6000) 128 = false ∧ remoteOf s 0x6000 = none ∧ remoteOf s 0x6F80 = none ∧ (6 : BitVec 6).toNat < (strandMd 0 0).v.length ∧ 0 < s.queues.length ∧
     s.locWaits (.phys 0x6F80) 128 = false ∧ s.keyOf 0 = 0) ∧
    (((ownQueue .active 8 64).tail - (ownQueue .active 8 64).head).toNat = 2 ^ (ownQueue .active 8 64).log2n ∧
     ((ownQueue .active 8 63).tail - (ownQueue .active 8 63).head).toNat ≠ 2 ^ (ownQueue .active 8 63).log2n ∧
     (ownQueue .draining 8 0).state ≠ .unbound ∧ (ownQueue .draining 8 0).state ≠ .active ∧ (ownQueue .draining 8 0).state ≠ .stopped) :=
  ⟨⟨_, gives_eq (by decide +kernel), by decide +kernel, _, gives_eq (by decide +kernel)⟩, ⟨_, gives_eq (by decide +kernel), by decide +kernel⟩,
    ⟨keeps_block (by decide) (by decide) (by intros; omega), by decide +kernel⟩, by decide +kernel⟩

/-! ## Tensor entries, catalogue engine, archive, REP -/

/-- TensorEntries: the last entry in each of its states, and words that pass every check of R112 and that fail one. -/
theorem wit_TensorEntries : (63 : BitVec 6).toNat < (placedGroup (strandMd 0 0)).shelf.length ∧ ((placedGroup (strandMd 0 0)).entry 63).state = 0 ∧
    ((tensorGroup (strandMd 0 0)).entry 1).state = 2 ∧ bindCode entryWords = 0 ∧ bindCode (entryWords.set 1 0x0002) ≠ 0 ∧
    ({ words := entryWords, state := 1, bcode := 0 } : Shelf).state ≠ 0 ∧ ({ words := entryWords, state := 1, bcode := 0 } : Shelf).state ≠ 2 := by decide +kernel

/-- A catalogue of e4m3 with two rows of 32 elements. -/
def catWords : List Word := [0, 0x204C, 0, 0, 32, 2, 1, 1, 1, 1, 0, 0, 0, 0, 0, 0]
def catGroup (core : Nat) (t : Strand) : Group :=
  { placedGroup t with core := core, shelf := (placedGroup t).shelf.set 1 { words := catWords, state := 2, bcode := 0 } }
/-- A device in which the context has a block of one page at 0, which is not staged. -/
def oneVersion : Version :=
  { id := 9, cid := 0, baddr := 0, npg := 1, ver := 0, key := 0, kfp := 0, seq := 0, state := .installed, xbits := [], prio := 0, hint := none, index := 0 }
def archived : State :=
  { hereBuf (strandMd 0x140 0) with
    arc := { State.reset.arc with versions := [oneVersion], pages := [{ ast := 0, lpg := 0, vid := 9, page := 0, data := [] }] } }
/-- CatalogueAndArchiveIssue: an engine operation over the last row, a row beyond, a barrier beyond the allotment; both core types; operands of the archive instructions. -/
theorem wit_CatalogueAndArchiveIssue :
    (entLayout catWords = 2 ∧ catFmt (entFmt catWords) = true ∧ entStr catWords 0 = 0 ∧ entSaddr catWords = 0 ∧ ¬ entLayout entryWords = 2) ∧
    (natBits (0x1000001 : Word).toNat 23 0 + natBits (0x1000001 : Word).toNat 47 24 ≤ entExt catWords 1 ∧ natBits (0x1000001 : Word).toNat 47 24 ≠ 0) ∧
    ¬ natBits (0x2000001 : Word).toNat 23 0 + natBits (0x2000001 : Word).toNat 47 24 ≤ entExt catWords 1 ∧
    ((0x4001000000000 : Word).getLsbD 50 = true ∧ ¬ natBits (0x4100000000000 : Word).toNat 49 40 < 16 * ((withBars (strandMd 0 0)).ctx 0).ba.toNat) ∧
    (mdOk (strandMd 0x140 0).md = true ∧ 8 ≤ mdType (strandMd 0x140 0).md ∧ mdType (strandMd 0x140 0).md ≤ 10) ∧
    (isStackCore (catGroup 96 (strandMd 0x140 0)).core = true ∧ isStackCore (catGroup 0 (strandMd 0x140 0)).core = false ∧
      ((catGroup 96 (strandMd 0x140 0)).entry 1).state = 2) ∧
    (0 + 4 * entExt catWords 0 ≤ 128 ∧ 128 + 4 * 1 ≤ (hereBuf (strandMd 0x140 0)).partSize (placedGroup (strandMd 0x140 0)) .a) ∧
    (entBase catWords % 4096 = 0 ∧ ((0x200000 : Word).toNat % 2 ^ 21 = 0 ∧ (0x200000 : Word).toNat < 2 ^ 57 ∧ 0x200000 + 16384 * 1 ≤ 2 ^ 57)) ∧
    (natBits (0x100000000 : Word).toNat 63 32 ≠ 0 ∧ natBits (0xFFFFFFFF : Word).toNat 63 32 = 0) ∧
    (archived.readableAt 0 0 = some oneVersion ∧ archived.blockAt 0 0 Version.isBlock = some oneVersion ∧ archived.version? 9 = some oneVersion ∧ oneVersion.npg = 0 + 1 ∧
      (archived.pageOf 9 0).map (fun p => archived.staged? p.addr) = some none ∧ oneVersion.state ≠ .old) ∧
    archived.blockAt 0 0 (fun v => decide (v.state = .installing)) = none ∧ archived.readableAt 0 16384 = none := by decide +kernel

/-- A device whose strand stands at a REP, with the word of `w` after it. -/
def repDevice (w : Nat) (ri : BitVec 6) : State :=
  let t : Strand := { Strand.placed 0 0 0 with ri := ri }
  { here t with mem := ((State.reset.placeCode 0x54380000).writeBytes 0 0 0x6004 (leBytes 4 w)).mem }
/-- RepIteration: the pair of ADD v5, v6, x7 at its first iteration, at its last and beyond; a word that does not decode, one that may not be prefixed, and one
whose stepped register leaves the file. -/
theorem wit_RepIteration :
    (∃ s1, (repDevice 0x04518740 0).secondWord (placedGroup { Strand.placed 0 0 0 with ri := 0 }) { Strand.placed 0 0 0 with ri := 0 } = (.word 0x04518740, s1)) ∧
    decode 0x04518740 = .ok (.add 5 6 7 0 1) ∧ (repBody (.add 5 6 7 0 1)).isSome = true ∧ stepOk 4 (Instr.add 5 6 7 0 1).fields = true ∧
    stepInRange 4 (Instr.add 5 6 7 0 1).fields 3 = true ∧ stepInRange 4 (Instr.add 47 6 7 0 1).fields 1 = false ∧ stepInRange 4 (Instr.add 47 6 7 0 1).fields 0 = true ∧
    decode (stepWord 4 0x04518740 3) = .ok (.add 8 6 7 0 1) ∧ decode 0 = .error 1 ∧ (repBody (.j 0)).isNone = true ∧ decode 0x44000000 = .ok (.j 0) :=
  ⟨⟨_, fst_eq (by decide +kernel)⟩, rfl, rfl, by decide +kernel, by decide +kernel, by decide +kernel, by decide +kernel, rfl,
    rfl, rfl, rfl⟩

/-! ## Queues, kernels, groups -/

/-- A record of one group of one strand, and one whose KIND is not allocated (R64). -/
def goodRecord : List Word := [1, 0, 0x100010001, 0, 0, 0, 0, 0, 0, 0, 0, 0, 0, 0, 0, 0]
def badRecord : List Word := goodRecord.set 0 2
/-- Page 0 is mapped to a frame that begins with these words; page 1 is not mapped; queue 0 is active with one record. -/
def launch (words : List Word) (q : Queue) : State :=
  let m := (((State.reset.placeCode 0).writeBytes 0 0 0x5008 (leBytes 8 0)).writeBytes 0 0 0x6000 (words.flatMap fun w => leBytes 8 w.toNat)).mem
  { here (strandMd 0 0) with focus := none, groups := [], mem := m, queues := State.reset.queues.set 0 q }
def oneRecord (base : Word) (held : Option Held) : Queue := { Queue.reset with state := .active, cid := 0, log2n := 6, tail := 1, base := base, held := held }
/-- A held record with one clause, which for the word 0x10002 waits for a superstep of queue 0's kernel of TAG 1. -/
def heldRecord (c : Word) : Held := { words := (goodRecord.set 0 0x101).set 8 c, met := [false] }

/-- The fetch of the record at HEAD of queue 0, from a ring at `base`. -/
def fetched (words : List Word) (base : Word) : Option (List Word) × State := ((launch words (oneRecord base none)).dropAsk (.queue 0)).readRecord 0
/-- LaunchEvents: a record that cannot be read, one that is refused and one that is taken; a clause that is malformed; the queue that is admitted; a kernel
whose snapshots are held, and one that ends. -/
theorem wit_LaunchEvents :
    (let q := oneRecord 0 none; q.head ≠ q.tail ∧ q.state = .active ∧ q.held = none ∧ (launch goodRecord q).admits q.cid = true ∧ (launch goodRecord q).headHeld 0 = false) ∧
    (∃ s1, fetched goodRecord 0x1000 = (none, s1) ∧ (s1.queue 0).state = .active) ∧
    (∃ s1, fetched badRecord 0 = (some badRecord, s1) ∧ recordOk badRecord = false) ∧
    (let r := (heldRecord 0xFF).words
     ∃ s1, fetched r 0 = (some r, s1) ∧ recordOk r = true ∧ ∃ s2, s1.evalClauses 0 r (List.replicate (recBits r 0 10 8) false) 0 = (none, s2)) ∧
    (∃ s1, fetched goodRecord 0 = (some goodRecord, s1) ∧ recordOk goodRecord = true ∧
      ∃ s2, s1.evalClauses 0 goodRecord (List.replicate (recBits goodRecord 0 10 8) false) 0 = (some [], s2)) ∧
    (let s := launch goodRecord (oneRecord 0 (some (heldRecord 0xFF)))
     (∃ s1, s.evalClauses 0 (heldRecord 0x10002).words (heldRecord 0x10002).met 0 = (some [false], s1)) ∧ (s.queue 0).held = some (heldRecord 0xFF) ∧ (heldRecord 0xFF).met.all id = false ∧ ∃ s1, s.evalClauses 0 (heldRecord 0xFF).words (heldRecord 0xFF).met 0 = (none, s1) ∧ s1.cwHeld 0 (heldRecord 0xFF).words = false) ∧
    (launch goodRecord (oneRecord 0 (some { words := goodRecord, met := [] }))).nextQueue = some 0 ∧
    (({ placedKernel with stage := .admitted } : Kernel).stagesOk [64] = true ∧ ({ placedKernel with stage := .admitted } : Kernel).stagesOk [65] = false) ∧
    (∃ s1, readSpans 0 [(0, 64)] (launch goodRecord Queue.reset) [] = ((.bytes [], [(goodRecord.take 8).flatMap fun w => leBytes 8 w.toNat]), s1)) ∧
    (let s : State := { launch goodRecord Queue.reset with kernels := [{ placedKernel with stage := .draining }] }
     s.kernel? 0 = some { placedKernel with stage := .draining } ∧ s.groupsOf 0 = [] ∧ (∀ o ∈ s.arc.ops, o.kuid ≠ 0) ∧ s.cwHeld 0 placedKernel.record = false) :=
  ⟨by decide +kernel, ⟨_, fst_eq (by decide +kernel), by decide +kernel⟩, ⟨_, fst_eq (by decide +kernel), by decide +kernel⟩,
    ⟨_, fst_eq (by decide +kernel), by decide +kernel, _, fst_eq (by decide +kernel)⟩, ⟨_, fst_eq (by decide +kernel), by decide +kernel, _, fst_eq (by decide +kernel)⟩,
    ⟨⟨_, fst_eq (by decide +kernel)⟩, by decide +kernel, by decide +kernel, ⟨_, fst_eq (by decide +kernel), by decide +kernel⟩⟩, by decide +kernel, by decide +kernel,
    ⟨_, fst_eq (by decide +kernel)⟩, by decide +kernel⟩

/-- A kernel of two groups that has snapshots and places its first one. -/
def placingKernel : Kernel :=
  { placedKernel with record := goodRecord.set 2 0x100010002, stage := .placing, nextL := 0, snap := some { table := [64], image := [], params := [] } }
def roomContext : Context := { placedContext with saveb := 0x100, saven := 1091, ba := 1 }
def placing (k : Kernel) (gs : List Group) : State := { here (strandMd 0 0) with focus := none, kernels := [k], groups := gs, contexts := State.reset.contexts.set 0 roomContext }
/-- A group at a stage, with a strand in a status. -/
def groupAt (stage : GroupStage) (st : StrandStatus) : Group := { placedGroup { strandMd 0 0 with status := st } with stage := stage, l := 0 }
/-- A group whose strand has arrived at superstep barrier 3 in the phase that it waits out. -/
def waitingGroup : Group :=
  let g := groupAt .resident (.waiting (.superstep 3 0 false 6 none))
  { g with strands := g.strands.map fun t => { t with arrived := (List.replicate 64 none).set 3 (some 0) } }
def residentKernel (nextL : Nat) : Kernel := { placingKernel with stage := .resident, nextL := nextL }
/-- A kernel of a higher level for which no core has room. -/
def rival : State :=
  let big : Kernel := { placingKernel with uid := 1, qid := 1, record := goodRecord.set 3 0x000000C000000000 }
  let one (e : Nat) : Group := { groupAt .resident .ready with uid := e, core := e, slots := List.range 8, cb := 0 }
  let q (lv : BitVec 3) : Queue := { Queue.reset with state := .active, cid := 0, level := lv }
  let qs := (State.reset.queues.set 0 (q 0)).set 1 (q 1)
  let cs := State.reset.contexts.set 0 { roomContext with pceil := 7 }
  { placing (residentKernel 2) ((List.range 160).map one) with kernels := [residentKernel 2, big], queues := qs, contexts := cs }

/-- GroupEvents: a group to place and one to restore, from a good frame; a group that goes back to its frame, makes room, yields, is saved, aborted and done; a
strand that wakes. -/
theorem wit_GroupEvents :
    ((placing placingKernel []).placer = some placingKernel ∧ (placing placingKernel []).chooseCore placingKernel = some 1 ∧
      (placing placingKernel []).fit ((placing placingKernel []).onCore 1) placingKernel 1 = some ([0], 0, 0, 0) ∧ placingKernel.stage = .placing ∧
      (placing placingKernel []).nextSaved placingKernel = none) ∧
    (let s := placing (residentKernel 2) [groupAt .saved .ready]
     s.placer = some (residentKernel 2) ∧ s.nextSaved (residentKernel 2) = some (groupAt .saved .ready) ∧ s.badFrame 0 (residentKernel 2).frameCount = none ∧
     ({ s with mem := { s.mem with flips := [(0x40, 0), (0x41, 0)] } } : State).badFrame 0 (residentKernel 2).frameCount = some 0x40) ∧
    (rival.canSave (groupAt .resident .ready) = true ∧ (groupAt .resident .ready).stepped = false ∧ (∃ q ∈ rival.kernels, rival.yieldsTo (groupAt .resident .ready) (residentKernel 2) q = true)) ∧
    ({ groupAt .resident .ready with step := true, strands := [{ strandMd 0 0 with stepLeft := some 0 }] } : Group).stepped = true ∧
    (let g := waitingGroup
     (placing (residentKernel 1) [g]).canSave g = true ∧ (residentKernel 1).nextL < (residentKernel 1).groupCount ∧
     ((placing (residentKernel 1) [g]).waitsStep g 0 (g.strands.getD 0 (strandMd 0 0))).isSome = true) ∧
    (let s := placing (residentKernel 2) [groupAt .stopping .ready]
     s.atPoints (groupAt .stopping .ready) = true ∧ s.saveRun 0 (residentKernel 2).frameCount = some 0x100 ∧ s.goodRun 0x100 (residentKernel 2).frameCount = true ∧
     ({ s with rows := { s.rows with retired := [subOf 0x100000] } } : State).goodRun 0x100 (residentKernel 2).frameCount = false) ∧
    (placing (residentKernel 2) [groupAt .aborting .ready]).abortedQuiet (groupAt .aborting .ready) = true ∧
    (placing (residentKernel 2) [groupAt .resident .ended]).groupDone (groupAt .resident .ended) = true ∧
    (let s := placing (residentKernel 2) [groupAt .resident (.waiting (.counters 0xFF true))]
     s.waitOver 0 0 (strandMd 0 0) 0xFF true = true ∧ { s with ops := [op (.store [{ loc := .phys 0x6000, va := 0, data := [1], mask := [0xFF] }])] }.waitOver 0 0 (strandMd 0 0) 0 true = false) ∧
    ((groupAt .resident (.waiting (.barrier 0 0 false 6 true none))).strands.map fun t => t.status) = [.waiting (.barrier 0 0 false 6 true none)] ∧
    ((groupAt .resident (.waiting (.barrier 0 0 false 6 false (some true)))).strands.map fun t => t.status) = [.waiting (.barrier 0 0 false 6 false (some true))] := by decide +kernel

/-! ## Host commands -/

/-- Port 0 owns the device; context 0 in a state. -/
def owned (c : Context) : State := { State.reset with plat := { State.reset.plat with owner := 0, phase := 5, on := true }, contexts := State.reset.contexts.set 0 c }
def ctxIn (st : CtxState) : Context := { placedContext with state := st }
def busyCtx : Context := { ctxIn .ready with cmd := some { port := 0, word := 0, op1 := 0 } }
/-- A descriptor in host memory from byte 2^51 (R41): ROOT at 0x1000, a barrier allotment of 1, a save area of 1,091 frames from 0x100000. -/
def descHost : State :=
  { owned (ctxIn .claimed) with mem := { State.reset.mem with host := [(2 ^ 51 + 1, 0x10), (2 ^ 51 + 32, 1), (2 ^ 51 + 42, 0x10), (2 ^ 51 + 48, 0x43), (2 ^ 51 + 49, 0x04)] } }
/-- A key record whose session is not established. -/
def keyHost : State := { owned (ctxIn .claimed) with mem := { State.reset.mem with host := [(2 ^ 51, 1)] } }
def hostArg : Word := 0x2000000000000000

theorem ok_some {ε α : Type} {x : Except ε α} (h : x.toOption.isSome = true) : ∃ a, x = .ok a := by
  cases x with
  | ok a => exact ⟨a, rfl⟩
  | error e => cases h
/-- ContextCommands: the owner and another port; a command in progress; each state; the largest quota that fits; descriptors that pass and fail. -/
theorem wit_ContextCommands :
    (∃ last, (mapped false 1).lastPage 0 ((((mapped false 1).ctx 0).fflh).toNat * 4096) ((((mapped false 1).ctx 0).ffln).toNat + 1) = .ok last) ∧
    (State.reset.contexts.length = 64 ∧ State.reset.windows.length = 8 ∧ State.reset.plat.owner.toNat ≠ (0 : BitVec 3).toNat) ∧
    ((owned busyCtx).plat.owner.toNat = (0 : BitVec 3).toNat ∧ ((owned busyCtx).ctx 0).cmd.isSome = true ∧ (0x01 : Word).getLsbD 16 = false) ∧
    (natBits (0x0C : Word).toNat 63 14 = 0 ∧ ((owned Context.reset).ctx 0).cmd = none ∧ ((owned Context.reset).ctx 0).state = .free ∧ (0x01 : Word).toNat / 2 ^ 16 = 0 ∧
      (0x10001 : Word).toNat / 2 ^ 16 = 1 ∧ cidOf 0x10001 = 0 ∧ ((owned busyCtx).ctx 63).state = .free) ∧
    (natBits hostArg.toNat 63 62 = 0 ∧ natBits hostArg.toNat 15 14 = 0 ∧ descHost.descOk (wordsOf 8 (descHost.sysRead (natBits hostArg.toNat 61 16 * 64) 64)) = true ∧
      keyHost.descOk (wordsOf 8 (keyHost.sysRead (natBits hostArg.toNat 61 16 * 64) 64)) = false) ∧
    (let r := keyHost.sysRead (natBits hostArg.toNat 61 16 * 64) 128
     r.getD 0 0 = 1 ∧ (∀ b ∈ (r.drop 2).take 6, b = 0) ∧ ∀ b ∈ r.drop 80, b = 0) ∧
    ((ctxIn .claimed).desc = true ∧ (ctxIn .claimed).key.isSome = true ∧ Context.reset.desc = false) ∧
    ((ctxIn .claimed).wq.toInt + (natBits (0x00FFFFFFFFFF0009 : Word).toNat 56 16 : Nat) < 2 ^ 40 ∧ natBits (0x00FFFFFFFFFF0009 : Word).toNat 63 57 = 0) ∧
    (natBits (0x0007000000000009 : Word).toNat 63 56 = 0 ∧ (0x7000B : Word).toNat / 2 ^ 19 = 0 ∧ natBits (0x7000A : Word).toNat 63 56 = 0 ∧ natBits (0x7000A : Word).toNat 55 16 * 4096 = 0x7000) ∧
    ((0x10101 : Word).getLsbD 16 = true ∧ cidOf 0x10101 ≠ 0 ∧ ((owned (ctxIn .ready)).ctx 0).cmd = none ∧ (if (0x10101 : Word).getLsbD 16 then 0 else cidOf 0x10101) = 0) ∧
    ((owned (ctxIn .claimed)).goodFrame 0x7000 = true ∧ (owned (ctxIn .claimed)).badList 0x7000 = false ∧ (ctxIn .claimed).fflh = 0) :=
  ⟨ok_some (by decide +kernel), by decide +kernel⟩

def ownedQ (q : Queue) (k : Kernel) (g : Group) : State := { owned (ctxIn .running) with queues := State.reset.queues.set 0 q, kernels := [k], groups := [g] }
def tagKernel (held : Bool) : Kernel := { residentKernel 2 with held := held }
/-- QueueCommands: the ends of a ring's size; each state; a kernel held and not; a group to halt and one to resume; the four cases of a tail write. -/
theorem wit_QueueCommands :
    (State.reset.queues.length = 256 ∧ (ownedQ Queue.reset (tagKernel false) (groupAt .resident .ready)).plat.owner.toNat = 0) ∧
    (natBits (0x1000000021 : Word).toNat 36 32 = 16 ∧ natBits (0x0400000021 : Word).toNat 36 32 = 4 ∧ natBits (0x1000000021 : Word).toNat 63 37 = 0 ∧
      natBits (0x10000021 : Word).toNat 28 25 ≤ 8 ∧ 0x200000 % Nat.max 4096 (128 * 2 ^ 14) = 0 ∧ CtxState.running.early = true) ∧
    (let s := ownedQ (ownQueue .stopped 8 0) (tagKernel false) (groupAt .resident .ready)
     (s.queue 0).state = .stopped ∧ s.nadm 0 ≠ 0 ∧ { s with kernels := [] }.nadm 0 = 0 ∧ s.tagged 0 0 = some (tagKernel false) ∧ (tagKernel false).stage ≠ .draining ∧
     s.kernel? 0 = some (tagKernel false) ∧ s.tagged 0 1 = none ∧ 0 < (tagKernel false).groupCount ∧ s.groupAt 0 0 = some (groupAt .resident .ready) ∧
     s.group? 0 = some (groupAt .resident .ready) ∧ (groupAt .resident .ready).halt = false) ∧
    (tagKernel true).held = true ∧ ({ groupAt .saved .ready with halt := true } : Group).halt = true ∧
    ((ownQueue .active 8 3).head ≠ (ownQueue .active 8 3).tail ∧ (ownQueue .active 8 0).head = (ownQueue .active 8 0).tail) ∧
    (((64 : BitVec 32) - 0).toNat ≤ 2 ^ 6 ∧ ((3 : BitVec 32) - 0).toNat ≤ ((64 : BitVec 32) - 0).toNat ∧ 2 ^ 6 < ((65 : BitVec 32) - 0).toNat ∧
      ((2 : BitVec 32) - 0).toNat < ((3 : BitVec 32) - 0).toNat) ∧
    (ownQueue .active 0 3).feed = (0 : BitVec 3).toNat := by decide +kernel

def swapped : Strand := { strandMd 0 0 with status := .swapped 0x2000 3 none }
def serving (cow : Option CowLock) (code : Byte) : State :=
  let s := mapped false 1
  { s with focus := none, groups := [placedGroup swapped], plat := (owned Context.reset).plat, mmu := { s.mmu with pend := [servedPend cow code] } }
def rowSet (zeroing freeing : Bool) : RowSet :=
  { id := 5, cid := 0, stk := 0, pcbase := 0, log2pc := 0, nsub := 1, subs := [4096 * 31], mark := .allocated, zeroing := zeroing, freeing := freeing }

/-- A catalogue run or check of two rows, from tensor 1, at a phase. -/
def catOp (kind : Nat) (phase : CatPhase) (row : Option (Val × BitVec 6)) (stopped : Bool) : CatOp :=
  { id := 7, guid := 0, strand := 0, cid := 0, kind := kind, engine := 0, tid := 1, entry := catWords, xd := 0, xa := 0x2000000, md := 0x140, phase := phase, acts := [],
    dirs := [none, none], next := 0, row := row, seen := [], olds := [], code := 0, grp := 0, col := 0, flags := 0, wait := none, stopped := stopped, failed := false }
/-- The catalogue: each row's directory word names its one word from byte 0x40, whose header has a form. -/
def catDevice (o : CatOp) (header : Word) : State :=
  let t := { strandMd 0x140 0 with kc := 1 }
  let ws : List Word := [0x2000000008, 0x2000000008, 0, 0, 0, 0, 0, 0, header, 0, 0, 0]
  let m := ((State.reset.placeCode 0).writeBytes 0 0 0x6000 (ws.flatMap fun w => leBytes 8 w.toNat)).mem
  { hereBuf t with focus := none, mem := m, groups := [catGroup 96 t], cats := [o] }

/-- The device with a microprogram of a word that does not decode and STOP. -/
def progDevice (o : RowOp) : State :=
  { rowDevice o with mem := ((rowDevice o).writeBytes 0 0 0x6000 (leBytes 4 0 ++ leBytes 4 0x80000000)).mem }
/-- The device with the subarray of the rows in a row set. -/
def setDevice (o : RowOp) : State := { rowDevice o with rows := { (rowDevice o).rows with sets := [{ rowSet false false with subs := [6] }] } }
theorem fst_ex {α β γ : Type} {p : α × β × γ} {a : α} (h : p.1 = a) : ∃ b c, p = (a, b, c) := ⟨p.2.1, p.2.2, by rw [← h]⟩

/-- RowScheduling: a row instruction that is prepared, and one whose program does not decode; its homes; a wave that starts, a program that holds others up for
4,096 cycles, a group that stops; a plane step in each direction; a doubled ASEAL; one that retires with a code. -/
theorem wit_RowScheduling :
    (let o := waveOp 2 0 .prep (waveRun 0 0 none .wave [])
     (setDevice o).rowOp? 3 = some o ∧ (setDevice o).longReady 3 0 0 (rowReads o) (rowWrites o) = true ∧ (rowTensorGroup waitingStrand).stage = .resident ∧
     (setDevice o).group? 0 = some (rowTensorGroup waitingStrand) ∧ ∃ o1 s1, prepRow (rowTensorGroup waitingStrand) { o with code := 0 } (setDevice o) = (.ready, o1, s1)) ∧
    (let o := waveOp 1 0 .prep (waveRun 0 0 none .wave [])
     ∃ o1 s1, prepRow (rowTensorGroup waitingStrand) { o with code := 0 } (progDevice o) = (.code 1 0, o1, s1)) ∧
    (let o := waveOp 2 0 .prepared (waveRun 0 0 none .wave [])
     (rowDevice o).holdsLater o = false ∧ (rowDevice o).holdsLater { o with id := 4 } = true) ∧
    heldRows { waveOp 2 0 .prepared (waveRun 0 0 none .wave []) with pages := [{ page := 0, write := true, pa := 0x6000 }] } ≠ [] ∧
    (let r := waveRun 0 0 none .wave []
     (rowDevice (waveOp 2 0 .running r)).stepReady 3 (0 : BitVec 4).toNat = some (waveOp 2 0 .running r, r)) ∧
    (let r := waveRun 2 0 none .steps []
     (microOp 2 0 none).run? (0 : BitVec 4).toNat = some r ∧ (rowDevice (microOp 2 0 none)).rows.seq[(0 : BitVec 4).toNat]? = some [3, 4] ∧ 4096 ≤ { r with since := 4096 }.since ∧ r.noForce = false ∧ r.phase = .steps) ∧
    (let s := { rowDevice (microOp 2 0 none) with groups := [{ rowTensorGroup waitingStrand with stage := .stopping }] }
     s.group? 0 = some { rowTensorGroup waitingStrand with stage := .stopping } ∧ (waveRun 2 0 none .steps []).paused = false ∧
       s.rowGoes (microOp 2 0 none) { rowTensorGroup waitingStrand with stage := .stopping } = false) ∧
    (let r := waveRun 3 0 none .steps []
     (rowDevice (waveOp 2 0 .running r)).stepReady 3 (0 : BitVec 4).toNat = some (waveOp 2 0 .running r, r) ∧ r.slices = [waveSlice] ∧ waveSlice.a[r.pc]? = some 0x6C00 ∧
     (rowDevice (waveOp 2 0 .running r)).mem.wf = true ∧ (waveOp 0 0 .running r).toLinear = false ∧ (rowDevice (waveOp 0 0 .running r)).outWaits (waveOp 0 0 .running r) = false ∧ { waveOp 0 0 .running r with xa := 0x40 }.toLinear = true) ∧
    (let r := waveRun 0 0 none .aseal [0, 3]
     (rowDevice (waveOp 1 0x100000000 .running { r with pos := 1 })).stepReady 3 (0 : BitVec 4).toNat = some (waveOp 1 0x100000000 .running { r with pos := 1 }, { r with pos := 1 }) ∧
     r.wrote[1]? = some 3 ∧ waveSlice.a[3 % 2 ^ 20]? = some 0x6C00) ∧
    (let o := { waveOp 2 0 .retiring (waveRun 0 0 none .wave []) with code := 3 }
     (rowDevice o).rowOp? 3 = some o ∧ (rowDevice o).strand? 0 0 = some waitingStrand ∧ o.code ≠ 0 ∧ o.options.getLsbD 50 = false ∧ o.tid < (rowTensorGroup waitingStrand).rowStat.length) :=
  ⟨⟨by decide +kernel, by decide +kernel, rfl, rfl, fst_ex (by decide +kernel)⟩, fst_ex (by decide +kernel), by decide +kernel⟩

/-- A device that the owner's commands find idle, with a row set, and with two subarrays a bank for row sets. -/
def regionDevice (sets : List RowSet) (busy : Option Nat) : State :=
  { owned (ctxIn .ready) with rows := { State.reset.rows with sets := sets, nr := 2, busy := busy } }
/-- ServiceCommands: the owner and another port; a fault of context 0 to resolve, named by its own context and by another; pages with reserved bits; a row set
to allocate, one to free, one that another context owns; the last configuration that fits. -/
theorem wit_ServiceCommands :
    ((serving none 0x11).plat.owner.toNat = (0 : BitVec 3).toNat ∧ State.reset.plat.owner.toNat ≠ (0 : BitVec 3).toNat) ∧
    (let s := serving none 0x11
     s.mmu.psCmd = none ∧ s.mmu.queue = [] ∧ ({ s with mmu := { s.mmu with psCmd := some 7 } }.mmu.psCmd).isSome = true ∧ natBits (0x80000000 : Word).toNat 63 31 ≠ 0 ∧ natBits (0x7FF83FFF : Word).toNat 63 31 = 0 ∧
     s.pend? (natBits (0 : Word).toNat 18 14) (natBits (0 : Word).toNat 30 19) = some (servedPend none 0x11) ∧ (servedPend none 0x11).cid = natBits (0 : Word).toNat 13 8 ∧
     (servedPend none 0x11).cid ≠ natBits (0x100 : Word).toNat 13 8 ∧ (servedPend none 0x11).waiters = [.strand 0 0] ∧ s.strand? 0 0 = some swapped ∧
     swapped.status = .swapped 0x2000 3 none) ∧
    (natBits (0xFFFFFFFFFFF80000 : Word).toNat 18 14 = 0 ∧ natBits (0x3F0F : Word).toNat 63 14 = 0) ∧
    ((regionDevice [] none).rows.busy = none ∧ (regionDevice [] (some 5)).rows.busy.isSome = true ∧ natBits (0x3FF3FFF : Word).toNat 15 14 = 0 ∧
     natBits (0x3FF3FFF : Word).toNat 63 26 = 0) ∧
    (natBits (0x80000000 : Word).toNat 63 37 = 0 ∧ natBits (0x80000000 : Word).toNat 31 28 = 8 ∧ 0 % 2 ^ 8 = 0 ∧ (regionDevice [] none).freeRsid = some 0 ∧
     ((regionDevice [] none).pickSubs 0 0 1 (16 * 2 ^ 0)).isSome = true ∧ ((regionDevice [] none).ctx 0).state.early = true ∧ ((owned (ctxIn .draining)).ctx 0).state.early = false) ∧
    (let s := regionDevice [rowSet false false] none
     s.setOfId? 5 = some (rowSet false false) ∧ (rowSet false false).cid = 0 ∧ (rowSet false false).freeing = false ∧ s.computing (rowSet false false) = false ∧
     (rowSet false true).freeing = true) ∧
    ((owned Context.reset).contexts.all (fun x => decide (x.state = .free)) = true ∧ ¬(owned (ctxIn .ready)).contexts.all (fun x => decide (x.state = .free)) = true ∧
     natBits (0x1E : Word).toNat 5 0 + 2 * State.reset.arc.units.toNat ≤ 32) := by decide +kernel

/-- A load of a bank's row waits behind the wave that runs in the bank. -/
def gapOp : Op := { op (.load [{ loc := .phys 0, va := 0, bytes := 1, shift := 0, width := 8, out := 64, sx := false, dst := .scalar 1 }] false) with id := 9 }
def gapDevice : State :=
  let s := rowDevice (microOp 2 0 none)
  { s with ops := [gapOp], rows := { s.rows with gap := s.rows.gap.set 0 4 } }
/-- Pseudo-channel 0 of row stack 0 in some state of refresh. -/
def refreshing (f : Refresh) : State := { owned (ctxIn .ready) with plat := { (owned (ctxIn .ready)).plat with on := true }, rows := { State.reset.rows with refresh := [f] } }
def idleRefresh : Refresh := { stk := 0, pch := 0, postponed := [], banks := [], due := false, all := false, next := 0, since := 0 }
/-- RowStackEvents: a set that is zeroed for its context, one that is freed; refreshes that are due, postponed, forced and done; a gap with a waiting access; a
bit of a sealed and of an unsealed row. -/
theorem wit_RowStackEvents :
    ((regionDevice [rowSet true false] none).setOfId? (5 : BitVec 10).toNat = some (rowSet true false) ∧ (regionDevice [rowSet false true] (some 5)).rows.busy = some (rowSet false true).id ∧
     (regionDevice [rowSet false true] none).mem.wf = true) ∧
    (let f := { idleRefresh with postponed := [0, 1, 2, 3, 4, 5, 6, 7] }
     (refreshing f).plat.on = true ∧ (refreshing f).refreshAt (0 : BitVec 4).toNat (0 : BitVec 8).toNat = f ∧ f.all = false ∧ f.postponed.length = 8) ∧
    (let f := { idleRefresh with postponed := [0, 1, 2, 3, 4, 5, 6] }
     (refreshing f).refreshAt 0 0 = f ∧ f.postponed.length < 8 ∧ (0 : BitVec 4).toNat = f.next ∧ (15 : BitVec 4).toNat ≠ f.next ∧ (refreshing f).bankBusy 0 0 0 = false ∧
     { refreshing f with ops := [gapOp] }.bankBusy 0 0 0 = true ∧ (refreshing f).bankTail 0 0 0 1 = false ∧
     (let x : State := { refreshing f with rows := { (refreshing f).rows with tails := [((0, 0, 0), 1)] } }; x.bankTail 0 0 0 1 = true ∧ x.bankTail 0 0 0 0 = false) ∧
     (f.postponed.find? fun b => !f.banks.contains b && !(refreshing f).bankBusy 0 0 b && !(refreshing f).bankTail 0 0 b 1) = some 0 ∧ f.due = false) ∧
    (refreshing { idleRefresh with due := true }).refreshAt 0 0 = { idleRefresh with due := true } ∧
    (refreshing { idleRefresh with all := true }).refreshAt 0 0 = { idleRefresh with all := true } ∧
    (4 ≤ gapDevice.rows.gap.getD (0 : BitVec 4).toNat 0 ∧ gapDevice.gapHeads (0 : BitVec 4).toNat = [.op gapOp] ∧ gapDevice.rows.refresh = []) ∧
    (let s : State := { State.reset with mem := { State.reset.mem with unsealed := [] } }
     s.rowSealed 0 = true ∧ (0, 7) ∉ s.mem.flips ∧ (0, 7) ∈ ({ s with mem := { s.mem with flips := [(0, 7)] } } : State).mem.flips ∧
     ({ s with mem := { s.mem with unsealed := [0] } } : State).rowSealed 1023 = false ∧ ({ s with mem := { s.mem with unsealed := [0] } } : State).mem.wf = true) := by decide +kernel

/-- Link 0 leads to module 0, through remote window 0; it is in a state. -/
def linked (l : Link) : State :=
  let s := owned (ctxIn .running)
  let k : Links := { s.links with units := s.links.units.set 0 l, rtbl := s.links.rtbl.set 0 1, rwin := s.links.rwin.set 0 0x8000000000000000, rbind := s.links.rbind.set 0 0x8000000000000000 }
  { s with links := k, mmu := { s.mmu with counts := [{ frame := 0x6000, count := 1, cid := 0 }] } }
def linkIn (st : LinkSt) (wid : BitVec 2) : Link := { Link.reset with en := true, state := st, wid := wid, prev := .up }
/-- A load by the link, for which a superstep arrival waits. -/
def awaitedLoad : State :=
  let it : LoadItem := { loc := .phys 0x8000000000000, va := 0, bytes := 1, shift := 0, width := 8, out := 64, sx := false, dst := .scalar 1 }
  { linked (linkIn .up 0) with ops := [op (.load [it] false), { op (.sstep 0) with id := 8, after := [7] }] }

/-- PlatformEvents: the device without an owner, owned, given, before and after bring-up; the attestation mailbox idle and in use; the ends of the clock's range. -/
theorem wit_PlatformEvents :
    (let s := { owned Context.reset with plat := { (owned Context.reset).plat with owner := 0xF } }
     s.plat.lockout = false ∧ s.plat.phase = 5 ∧ s.plat.owner = 0xF ∧ s.plat.heldEvents = [] ∧ s.plat.owner.toNat ≠ (7 : BitVec 3).toNat) ∧
    (natBits (0x72 : Word).toNat 63 8 = 0 ∧ (0x72 : Word).toNat / 2 ^ 8 = 0 ∧ ((0x72 : Word).extractLsb' 4 4 : BitVec 4) = 7 ∧ (7 : BitVec 4) ≠ (owned Context.reset).plat.owner ∧
     ((0x100 : Word).toNat / 2 ^ 8 ≠ 0) ∧ (owned Context.reset).plat.owner.toNat = (0 : BitVec 3).toNat ∧ (owned Context.reset).plat.owner.toNat < 8) ∧
    (let x := { (owned Context.reset).plat with pend := 7 }
     x.pend.toNat = (7 : BitVec 3).toNat ∧ x.heldEvents = [] ∧ x.pend.toNat ≠ (0 : BitVec 3).toNat) ∧
    ((State.reset.window (0 : BitVec 3).toNat).atCmd = none ∧ State.reset.windows.length = 8 ∧ (({ Window.reset with atCmd := some 0x502 } : Window).atCmd).isSome = true ∧
     natBits (0xF0F : Word).toNat 7 4 = 0 ∧ natBits (0xF0F : Word).toNat 63 12 = 0 ∧ natBits (0x1000 : Word).toNat 63 12 ≠ 0 ∧ natBits (0xF02 : Word).toNat 3 0 ≠ 1 ∧
     natBits (0xF02 : Word).toNat 11 8 < State.reset.plat.sessions.length) ∧
    (State.reset.plat.on = false ∧ (refreshing idleRefresh).plat.on = true) ∧
    (∀ p ∈ [1, 2, 3, 4], ({ State.reset with plat := { State.reset.plat with phase := BitVec.ofNat 3 p } } : State).plat.phase = BitVec.ofNat 3 p) ∧
    (let s := { owned Context.reset with links := { (owned Context.reset).links with units := (owned Context.reset).links.units.set 40 (linkIn .degraded 0) } }
     (s.unit (40 + s.plat.owner.toNat)).state = .degraded ∧ ((owned Context.reset).unit 40).state ≠ .up ∧ ((owned Context.reset).unit 40).state ≠ .degraded) ∧
    (linkIn .training 0).state = .training ∧ ((31 : BitVec 5).toNat < State.reset.plat.temps.length ∧ (7 : BitVec 5).toNat < 8 ∧ State.reset.plat.measures.length = 8 ∧
      100 < (101 : BitVec 8).toNat ∧ State.reset.plat.plim.toNat < (4001 : BitVec 12).toNat ∧ ¬ State.reset.plat.plim.toNat < (4000 : BitVec 12).toNat ∧
      1100 ≤ (1100 : BitVec 12).toNat ∧ (1900 : BitVec 12).toNat ≤ 1900) := by
  decide +kernel

/-- LinkEvents: a link down, up with and without an awaited access, in training, in retraining at a width, and failed; an access by a binding, by none, and to
a frame of another context; a host's access that is refused, held and performed. -/
theorem wit_LinkEvents :
    ((47 : BitVec 6).toNat < 48 ∧ (linked Link.reset).links.units.length = 48 ∧ (linked Link.reset).plat.owner.toNat = (0 : BitVec 3).toNat ∧
     ((linked Link.reset).unit 0).en = false ∧ ((linked Link.reset).unit 0).state = .down) ∧
    (((linked (linkIn .up 0)).unit 0).state = .up ∧ (linked (linkIn .up 0)).awaitedOn 0 = false ∧ (awaitedLoad.unit 0).state = .up ∧ awaitedLoad.awaitedOn 0 = true ∧
     ({ linkIn .up 0 with defer := true } : Link).defer = true) ∧
    ((2 : BitVec 2) ≠ 3 ∧ 16 ≤ (39 : BitVec 6).toNat ∧ (39 : BitVec 6).toNat < 40 ∧ (15 : BitVec 6).toNat < 16 ∧ (2 : BitVec 2).toNat ≤ (linkIn .retraining 2).wid.toNat ∧
     (linkIn .retraining 1).wid.toNat < (2 : BitVec 2).toNat ∧ (linkIn .retraining 1).state = .retraining) ∧
    ((23 : BitVec 5).toNat < 24 ∧ ((linked Link.reset).unit (16 + (23 : BitVec 5).toNat)).state ≠ .failed) ∧
    (let s := linked (linkIn .up 0)
     (32 : BitVec 6) ≠ 0 ∧ (32 : BitVec 6).toNat ≤ 32 ∧ s.binding (s.unit 0).peer 0 = some 0 ∧ s.binding (s.unit 0).peer 63 = none ∧ s.frameTag (0x6FE0 / 4096 * 4096) = some 0 ∧
     s.frameTag 0x7000 ≠ some 0 ∧ 0x6FE0 + 32 ≤ 2 ^ 40 ∧ s.goodFrame 0x6FE0 = true ∧ s.goodFrame (0x6FE0 + 32 - 1) = true ∧ s.frameTag ((0x6FE0 + 32 - 1) / 4096 * 4096) = some 0 ∧
     s.badPlace (.phys 0x6FE0) 32 = false ∧ ({ s with mem := { s.mem with flips := [(0x6FE0, 0), (0x6FE0, 1)] } } : State).badPlace (.phys 0x6FE0) 32 = true ∧ ((linked (linkIn .retraining 0)).unit 0).state = .retraining ∧ s.homeWaits s.fresh 0x6FE0 32 = false ∧ remoteSize .read 32 = 32 ∧ remoteSize .write 0 = 32 ∧ remoteSize (.atomic 0 3) 0 = 8 ∧
     atomicNew (remoteFn 0) 3 (leNat (s.readBytes (s.keyOf 0) 0 0x6FE0 8)) 5 0 ≠ none ∧
     ({ s with rows := { s.rows with ops := [{ microOp 0 0 none with held := [27] }] } } : State).homeWaits s.fresh 0x6FE0 32 = true) ∧
    (let s := { owned placedContext with links := { (owned placedContext).links with units := (owned placedContext).links.units.set 40 (linkIn .up 0) } }
     (s.unit (40 + (0 : BitVec 3).toNat)).state = .up ∧ (s.unit (40 + (0 : BitVec 3).toNat)).io = false ∧ ({ linkIn .up 0 with io := true } : Link).io = true ∧ s.cxlRefused 0 0x6000 64 = false ∧ s.cxlRefused 0 (2 ^ 40 - 1) 64 = true ∧ s.cxlRefused 1 0x6000 64 = true ∧
     s.homeWaits s.fresh 0x6000 64 = false ∧ s.badPlace (.phys 0x6000) 64 = false ∧ s.holder? 0x6000 64 = none ∧
     (let x : State := { s with rows := { s.rows with ops := [{ microOp 0 0 none with held := [24] }] } }
      x.homeWaits x.fresh 0x6000 64 = true ∧ (x.holder? 0x6000 64).isSome = true)) ∧
    (({ State.reset with heldCxl := [{ id := 5, port := 0, addr := 0x6000, write := false, size := 0, data := 0 }] } : State).heldCxl.find? (fun h => h.id == 5)).isSome = true := by
  decide +kernel

/-- A page that moves, from DRAM, on behalf of the strand. -/
def moving (tier : BitVec 2) (target : Option Nat) : Migration :=
  { id := 3, guid := 0, strand := 0, cid := 0, page := 0, oldLeaf := 0x603F, tier := tier, target := target, d := 6 }
def movingDevice (ffln : BitVec 32) (m : Migration) : State := { mapped false ffln with mmu := { State.reset.mmu with migs := [m] } }
def shared : State :=
  let s := serving (cowAt (some 1) none) 0x43
  { s with mmu := { s.mmu with counts := [{ frame := 0x6000, count := 2, cid := 0 }] } }
theorem shared_next : (shared.nextDram 0 0).2 = some 0x8000 ∧ (shared.nextDram 0 0).1.pend? 0 0 = some (servedPend (cowAt (some 1) none) 0x43) := by decide +kernel
def headed : State := movingDevice 1 (moving 0 none)
theorem headed_next : (headed.headFrame 0 8 0).2 = some 0x8000 ∧ (headed.headFrame 0 8 0).1.migration? 3 = some (moving 0 none) := by decide +kernel
/-- Two resolutions on one frame, of which the other reached the lock first. -/
def contended : State :=
  let s := serving (cowAt (some 2) none) 0x43
  { s with mmu := { s.mmu with pend := s.mmu.pend ++ [{ servedPend (cowAt (some 1) none) 0x43 with idx := 1, page := 9 }] } }

/-- PagingEvents: each kind of walk; held records of the device's ring and of a port's; a copy-on-write fault before its frame's lock, behind another's, under
it with its leaf gone, last and shared, and copied; a migration with no frame, with one, and copied. -/
theorem wit_PagingEvents :
    (∃ s1, shared.nextDram 0 0 = (s1, some 0x8000) ∧ s1.pend? 0 0 = some (servedPend (cowAt (some 1) none) 0x43)) ∧
    (∃ s1, (movingDevice 0 (moving 0 none)).headFrame 0 8 0 = (s1, none)) ∧ (∃ s1, headed.headFrame 0 8 0 = (s1, some 0x8000) ∧ s1.migration? 3 = some (moving 0 none)) ∧
    ((23 : BitVec 5).toNat < 24 ∧ (mapped false 1).walkable 0 = true ∧ accOf 1 = some .fetch ∧ accOf 2 = some .read ∧ accOf 3 = some .write) ∧
    (let r : Ring := { base := 0, log2n := 4, en := true, head := 0, tail := 15, held := [[0, 0, 0, 0]] }
     r.held = [[0, 0, 0, 0]] ∧ r.en = true ∧ (r.tail - r.head).toNat < 2 ^ r.log2n.toNat) ∧
    ((7 : BitVec 4).toNat < State.reset.windows.length ∧ (7 : BitVec 4).toNat < 8 ∧ (State.reset.window (7 : BitVec 4).toNat).ring.en = false) ∧
    (let p := servedPend (cowAt none none) 0x43
     (serving (cowAt none none) 0x43).pend? 0 0 = some p ∧ p.code = 0x43 ∧ (serving (cowAt none none) 0x43).mmu.queue = []) ∧
    (let p := servedPend (cowAt (some 2) none) 0x43
     contended.pend? 0 0 = some p ∧ contended.holdsLock p = false) ∧
    (let p := servedPend (cowAt (some 1) none) 0x43
     let s := serving (cowAt (some 1) none) 0x43
     s.pend? 0 0 = some p ∧ s.holdsLock p = true ∧ s.cowLeaf p 0x6000 = some (0x60BF, 0x5010) ∧ s.cowLeaf { p with page := 1 } 0x6000 = none ∧ s.frameCount 0 0x6000 = 0) ∧
    (let p := servedPend (cowAt (some 1) none) 0x43
     shared.pend? 0 0 = some p ∧ shared.holdsLock p = true ∧ shared.cowLeaf p 0x6000 = some (0x60BF, 0x5010) ∧ shared.frameCount 0 0x6000 ≠ 0 ∧ shared.frameCount 0 0x6000 ≠ 0xFFFF ∧
     shared.mmu.queue = []) ∧
    (let s := serving (cowAt (some 1) (some 0x8000)) 0x43
     s.pend? 0 0 = some (servedPend (cowAt (some 1) (some 0x8000)) 0x43) ∧ s.spanHeld 0x6000 4096 = false) ∧
    (let s := movingDevice 0 (moving 0 none)
     s.migration? 3 = some (moving 0 none) ∧ s.frameBusy 0x6000 = false ∧ s.spanHeld 0x6000 4096 = false ∧ pteAddr (moving 0 none).oldLeaf = 0x6000) ∧
    (let s := movingDevice 1 (moving 0 (some 0x8000))
     s.migration? 3 = some (moving 0 (some 0x8000)) ∧ s.strand? 0 0 = some (strandMd 0 0) ∧ s.mmu.pend = [] ∧ (6 : BitVec 6).toNat < (strandMd 0 0).v.length) :=
  ⟨⟨_, snd_eq shared_next.1, shared_next.2⟩, ⟨_, snd_eq (by decide +kernel)⟩, ⟨_, snd_eq headed_next.1, headed_next.2⟩, by decide +kernel⟩

/-- ARCIN (kind 2) of one page to the base 0, or ARCOUT (3), from tensor 1. -/
def arcOpOf (kind : Nat) (vid : Option Nat) (count : Nat) : ArcOp :=
  { id := 7, guid := 0, strand := 0, cid := 0, kind := kind, tid := 1, entry := catWords, xd := 1, xa := 0, vid := vid, data := List.replicate 16384 7, count := count, tries := 14,
    code := none, wait := none, abort := false, kuid := 0 }
/-- A device with that operation, with versions and with archive pages of them; the leaf of page 0 is valid, those of the block at 0x200000 are not. -/
def arcDevice (os : List ArcOp) (vs : List Version) (ps : List ArcPage) : State :=
  { hereBuf (strandMd 0x140 0) with
    focus := none, mem := ((((State.reset.placeCode 0).writeBytes 0 0 0x5008 (leBytes 24 0)).writeBytes 0 0 0x4008 (leBytes 8 0x9001)).writeBytes 0 0 0x9000 (leBytes 32 0)).mem
    contexts := State.reset.contexts.set 0 { placedContext with wq := 1 }, plat := (owned Context.reset).plat
    arc := { State.reset.arc with ops := os, versions := vs, pages := ps } }
def installing : Version := { oneVersion with npg := 1, state := .installing }
def installed : Version := { oneVersion with npg := 1 }
/-- An archive page of version 9, the first of its erase block. -/
def onePage : ArcPage := { ast := 0, lpg := 0, vid := 9, page := 0, data := [] }
/-- A pending fault of an archive page: the strand's page 3, which is mapped to archive page 0. -/
def archiveFault (ready : List Staged) : State :=
  { mapped false 1 with
    focus := none, mmu := { State.reset.mmu with pend := [{ servedPend none 0x41 with page := 3, arc := some 0 }] }
    arc := { State.reset.arc with versions := [installed], pages := [onePage], staged := ready } }
/-- A device in which weeding is due on stack 0: few erase blocks are free, and one is full. -/
def weedDevice (n : Nat) : State :=
  let opened : List EraseBlock := (List.range n).map fun i => { ast := 0, pos := i + 1, cond := .opened, count := 0 }
  { State.reset with arc := { State.reset.arc with blocks := { ast := 0, pos := 0, cond := .full, count := 4 } :: opened } }
theorem weed_used (n : Nat) : ((weedDevice n).usedBlocks 0).length = n + 1 := by
  simp only [weedDevice, State.usedBlocks]
  rw [List.filter_eq_self.2]
  · simp
  · simp
theorem weed_one (n : Nat) : (weedDevice n).weedable 0 = [{ ast := 0, pos := 0, cond := .full, count := 4 }] := by
  simp only [State.weedable]
  simp [weedDevice]
theorem some_pair {α β : Type} {o : Option (α × β)} (h : o.isSome = true) : ∃ a b, o = some (a, b) := by
  obtain ⟨⟨a, b⟩, h⟩ := Option.isSome_iff_exists.mp h
  exact ⟨a, b, h⟩
theorem some_ne {β : Type} {o : Option (Nat × β)} {n : Nat} (h : (o.map fun p => decide (p.1 ≠ n)) = some true) : ∃ a b, o = some (a, b) ∧ a ≠ n := by
  obtain ⟨⟨a, b⟩, h, e⟩ := Option.map_eq_some_iff.mp h
  exact ⟨a, b, h, of_decide_eq_true e⟩
theorem some_first {α β : Type} {o : Option (α × β)} {a : α} (h : o.map Prod.fst = some a) : ∃ b, o = some (a, b) := by
  obtain ⟨⟨x, b⟩, e, rfl⟩ := Option.map_eq_some_iff.mp h
  exact ⟨b, e⟩
theorem weed_due (n : Nat) (h : eraseBlocks - (n + 1) < 4096 + 1024) : (weedDevice n).weedDue 0 = true := by
  unfold State.weedDue State.freeBlocks
  rw [weed_used, decide_eq_true h, Bool.true_or]
/-- A device in which a block is weeded. -/
def weedingDevice (ps : List ArcPage) (count : Nat) : State :=
  { State.reset with
    arc := { State.reset.arc with
      versions := [{ installed with state := .unowned }], pages := ps, blocks := [{ ast := 0, pos := 0, cond := .full, count := count }], heads := State.reset.arc.heads.set 0 256,
      victims := State.reset.arc.victims.set 0 (some 0) } }
/-- The victim's page has a staged copy, which a load in flight still reads. -/
def readCopy : State :=
  let s := weedingDevice [] 2999
  { s with
    ops := [op (.load [{ loc := .phys 0x8000, va := 0, bytes := 1, shift := 0, width := 8, out := 64, sx := false, dst := .scalar 1 }] false)]
    arc := { s.arc with staged := [{ page := 0, stk := 0, frame := 0x8000, prio := 0, step := 0, cid := 0, ready := true }] } }
/-- A version of no owner whose fingerprint is that of context 0's key, which may adopt it. -/
def adoptable : Version := { installed with state := .unowned, kfp := fingerprint 0, baddr := 0x200000 }
def adoptDevice : State := arcDevice [] [adoptable] []
theorem adopt_found : adoptDevice.arc.versions.find? (fun v => decide (v.state = .unowned) && v.baddr == 0x200000 && v.kfp == fingerprint (adoptDevice.keyOf 0)) = some adoptable := by
  have h : adoptDevice.keyOf 0 = 0 := rfl
  rw [h]
  simp [adoptDevice, arcDevice, adoptable]
/-- ArchiveEvents: an accession that is accepted and one that is not; a page programmed and the last one; the leaves free and not; a deaccession of a block, of
none, and of one that installs; a page staged on demand; weeding; each archive command. -/
theorem wit_ArchiveEvents :
    (∃ s1, (arcDevice [arcOpOf 2 none 0] [] []).tableIndex 0 0 = some (0, s1)) ∧
    (∃ lpg s1, (arcDevice [arcOpOf 2 (some 9) 0] [installing] []).takeLog (pageStack installing.baddr 0) false = some (lpg, s1)) ∧
    (∃ lpg s1, (weedingDevice [onePage] 2999).takeLog 0 true = some (lpg, s1) ∧ lpg ≠ onePage.lpg) ∧
    ((weedDevice 520000).weedDue 0 = true ∧ (weedDevice 520000).arc.victims.getD 0 none = none ∧ ∃ b, (weedDevice 520000).weedable 0 = [b]) ∧
    (adoptDevice.plat.owner.toNat = (0 : BitVec 3).toNat ∧ (adoptDevice.ctx 0).keyed = true ∧ (adoptDevice.ctx 1).keyed = false ∧ natBits (0x10000 : Word).toNat 15 14 = 0 ∧
     natBits (0x10000 : Word).toNat 51 16 * 2 ^ 21 = 0x200000 ∧ adoptDevice.version? 9 = some adoptable ∧ adoptDevice.leavesFree 0 0x200000 1 none = true ∧ adoptDevice.l1Dead 0 0x200000 4 = none ∧ adoptDevice.arc.busy = none ∧
     adoptDevice.entryVersion 0 (fun v => decide (v.state = .unowned)) = some adoptable ∧ adoptDevice.entryVersion 0 Version.live = some adoptable ∧
     ∀ v ∈ adoptDevice.arc.versions, v.index = 1 → v.state ≠ .unowned) ∧
    (let s := arcDevice [arcOpOf 2 none 0] [] []
     s.arcOp? 7 = some (arcOpOf 2 none 0) ∧ s.arcEarlier (arcOpOf 2 none 0) = false ∧
     s.longReady 7 0 0 [catMemRange 0 (entBase (arcOpOf 2 none 0).entry) (entBase (arcOpOf 2 none 0).entry + 16384 * 1)] [] = true ∧ s.arcinCode (arcOpOf 2 none 0) = 0 ∧
     0 < s.contexts.length) ∧
    (arcDevice [arcOpOf 2 none 0] [installed] []).arcinCode (arcOpOf 2 none 0) ≠ 0 ∧
    (let s := arcDevice [arcOpOf 2 (some 9) 0] [installing] []
     s.version? 9 = some installing ∧ (arcOpOf 2 (some 9) 0).data ≠ [] ∧ (arcOpOf 2 (some 9) 0).count < installing.npg ∧ (arcOpOf 2 (some 9) 0).tries < 15 ∧
     s.weedFirst (pageStack installing.baddr 0) = false) ∧
    (let s := arcDevice [arcOpOf 2 (some 9) 1] [installing] []
     installing.npg ≤ (arcOpOf 2 (some 9) 1).count ∧ (∀ x ∈ s.arc.versions, x.cid = 0 → x.baddr = 0 → x.state ≠ .old) ∧ s.leavesFree 0 0 1 none = false ∧ s.l1Dead 0 0 4 = none ∧
       s.leavesFree 0 0x200000 1 none = true ∧ s.l1Dead 0 0x200000 4 = none) ∧
    (let s := arcDevice [arcOpOf 3 none 0] [installed] []
     s.arcEarlier (arcOpOf 3 none 0) = false ∧ (∀ x ∈ s.arc.versions, x.cid = 0 → x.baddr = 0 → x.state ≠ .installing) ∧
     s.arc.versions.find? (fun v => v.cid == 0 && v.baddr == 0 && decide (v.state = .installed)) = some installed) ∧
    (∀ x ∈ (arcDevice [arcOpOf 3 none 0] [] []).arc.versions, x.cid = 0 → x.baddr = 0 → x.state ≠ .installed) ∧
    (∃ x ∈ (arcDevice [arcOpOf 3 none 0] [installing] []).arc.versions, x.cid = 0 ∧ x.baddr = 0 ∧ x.state = .installing) ∧
    (let s := archiveFault []
     s.sweepRoom = s ∧ s.arcPage? (0 * 16384) = some onePage ∧ s.version? 9 = some installed ∧ installed.readable = true ∧ s.pendsOn 0 ≠ [] ∧ (s.freeSlot 0).isSome = true) ∧
    (let t : Staged := { page := 0, stk := 0, frame := 0x8000, prio := 0, step := 0, cid := 0, ready := false }
     let s := { archiveFault [t] with mmu := State.reset.mmu }
     s.sweepRoom = s ∧ s.arc.staged = [t] ∧ t.ready = false ∧ s.mmu.pend = [] ∧ s.arc.ops = []) ∧
    (let s := weedingDevice [onePage] 2999
     (0 : BitVec 3).toNat < s.arc.victims.length ∧ s.arc.victims.getD 0 none = some 0 ∧ s.midPage 0 = false ∧ (s.blockPages 0 0).filter (fun x => s.pageKept x) = [onePage] ∧
     (weedingDevice [] 2999).keptIn 0 0 = 0 ∧ (weedingDevice [] 2999).sweepRoom.blockStaged 0 0 = false ∧ readCopy.sweepRoom.blockStaged 0 0 = true ∧ s.eraseBlock? 0 0 = some { ast := 0, pos := 0, cond := .full, count := 2999 }) :=
  ⟨some_first (by decide +kernel), some_pair (by decide +kernel), some_ne (by decide +kernel), ⟨weed_due _ (by decide +kernel), rfl, _, weed_one _⟩,
    ⟨by decide +kernel, by decide +kernel, by decide +kernel, by decide +kernel, by decide +kernel, by rfl, by decide +kernel, by decide +kernel, rfl, by rfl, by rfl,
      by simp [adoptDevice, arcDevice, adoptable, installed, oneVersion]⟩,
    ⟨rfl, by decide +kernel⟩, by decide +kernel⟩

/-- The code of the row that an attempt decodes. -/
def rowCode (p : Except CatStop RowEnd × List PageAt × State) : Option Nat := p.1.toOption.map fun r => r.code
theorem rowCode_eq {p : Except CatStop RowEnd × List PageAt × State} {c : Nat} (h : rowCode p = some c) : ∃ r ps s1, p = (.ok r, ps, s1) ∧ r.code = c := by
  obtain ⟨x, ps, s1⟩ := p
  cases x with
  | error e => cases h
  | ok r => exact ⟨r, ps, s1, rfl, by simpa [rowCode, Except.toOption] using h⟩
/-- A strand in which a catalogue run has left a fault. -/
def faulted (t : Strand) : Strand := { t with catFaults := [(7, 3)] }
/-- CatalogueEvents: a check that starts and a run; rows that decode, fail and follow a stop; a row that commits and the last one; a completion; each state of
the strand at a fault. -/
theorem wit_CatalogueEvents :
    (let o := catOp 1 .start none false
     let s := catDevice o 2
     s.catOp? 7 = some o ∧ s.group? 0 = some (catGroup 96 { strandMd 0x140 0 with kc := 1 }) ∧ s.strand? 0 0 = some { strandMd 0x140 0 with kc := 1 } ∧ o.check = true ∧
     s.longReady o.id o.guid o.strand (o.reads (entBase o.entry + 2 ^ 40)) o.writes = true ∧ s.cats = [o] ∧ (catOp 0 .start none false).check = false) ∧
    ((catOp 0 .rows none true).stopped = true ∧ (catOp 0 .rows none true).row = none ∧ (catOp 0 .rows none true).wait = none ∧ (catDevice (catOp 0 .rows none true) 2).laneFree (catOp 0 .rows none true) 0 = true) ∧
    (let o := catOp 0 .rows none false
     let row (h : Word) (code : Nat) : Prop := ∃ r ps s1, o.tryRow 2100 [] (catDevice o h) = (.ok r, ps, s1) ∧ r.code = code
     row 3 0x11 ∧ row 2 0) ∧
    (let o := catOp 0 .rows (some (.fin false 0 0, 0)) false
     o.row = some (.fin false 0 0, 0) ∧ o.next + 1 ≠ o.nrow ∧ { o with next := 1 }.next + 1 = o.nrow ∧ o.acc = false) ∧
    (let o := catOp 0 .completing none false
     kcBen o.xd = false ∧ o.tid < (catGroup 96 (strandMd 0x140 0)).catStat.length) ∧
    (let t := faulted withHandler
     (act t).group? 0 = some (placedGroup t) ∧ (act t).strand? 0 (0 : BitVec 3).toNat = some t ∧ (placedGroup t).stage = .resident ∧ t.catFaults = [(7, 3)] ∧ t.boundary = true ∧ t.h = false ∧
     t.status = .ready ∧ t.fatal = false) ∧
    ((faulted (inHandler 0)).boundary = true ∧ (faulted (inHandler 0)).h = true) :=
  ⟨by decide +kernel, by decide +kernel, ⟨rowCode_eq (by decide +kernel), rowCode_eq (by decide +kernel)⟩, by decide +kernel,
    by decide +kernel, by decide +kernel, by decide +kernel⟩
/-- MailboxEvents: the last words of the mailboxes; ports and offsets that no register has; the rails; a scrub and a drain that end. -/
theorem wit_MailboxEvents :
    ((0x10001 : Word).getLsbD 16 = true ∧ (0xFFFF : Word).getLsbD 16 = false ∧ natBits (0x100000C : Word).toNat 7 0 = 12 ∧ natBits (0x2B : Word).toNat 7 0 = 0x2B) ∧
    (1 ≤ (7 : BitVec 19).toNat ∧ (7 : BitVec 19).toNat ≤ 7 ∧ 8 < (9 : BitVec 4).toNat ∧ (7 : BitVec 4).toNat < 8 ∧ (0x20004 : BitVec 19).toNat % 8 ≠ 0 ∧ (0xFFF8 : BitVec 19).toNat < 0x10000 ∧
      0x60000 ≤ (0x60000 : BitVec 19).toNat ∧ (1 : Word).getLsbD 1 = false ∧ (8 : Word).getLsbD 3 = true) ∧
    (((owned (ctxIn .scrubbing)).ctx 0).state = .scrubbing ∧ (owned (ctxIn .scrubbing)).contexts.length = 64) ∧
    (((owned (ctxIn .draining)).ctx 0).state = .draining ∧ (owned (ctxIn .draining)).drained 0 = true ∧ (owned (ctxIn .draining)).queues.length = 256) := by decide +kernel

/-! ## Encodings, steps, reset, invariants -/

/-- DecodeOfEncode: one well-formed instruction of each decoder at the highest operands that its encoding admits. -/
theorem wit_DecodeOfEncode : (Instr.add 47 47 47 1 0).wellFormed = true ∧ (Instr.add 47 47 47 1 0).isStrand = true ∧ (Instr.tra 0xC1 0xC2 0xC3).wellFormed = true ∧
    (Instr.tra 0xC1 0xC2 0xC3).isMicro = true := ⟨by decide, rfl, by decide, rfl⟩
/-- EncodeOfDecode: words of the spec's examples. -/
theorem wit_EncodeOfDecode : decode 0x04518740 = .ok (.add 5 6 7 0 1) ∧ decodeMicro 0x130584C3 = some (.tra 0xC1 0xC2 0xC3) := ⟨rfl, rfl⟩

/-- ADDI x1, x0, 1 at the PC of the only strand of a device. -/
def oneStep : State := State.reset.withFetchWord 32 0x20102001
/-- Two strands at that instruction, of which the first one's x1 waits for a load. -/
def twoStep : State :=
  let it : LoadItem := { loc := .buf .a 0, va := 0, bytes := 1, shift := 0, width := 8, out := 64, sx := false, dst := .scalar 1 }
  { oneStep with
    ops := [op (.load [it] false)], groups := oneStep.groups.map fun (g : Group) => { g with slots := [0, 1], strands := g.strands ++ g.strands } }
def seat (k : Nat) : Seat := { uid := 0, k := k, core := 0, slot := k }
theorem fst_and {α β : Type} {p : α × β} {a : α} {P : β → Prop} (h : p.1 = a) (g : P p.2) : ∃ b, p = (a, b) ∧ P b := ⟨p.2, by rw [← h], g⟩
theorem event_some {s : State} (h : s.tick.effects.isEmpty = false) : ∃ e, s.nextEvent = some e := by
  unfold State.nextEvent
  split
  · simp_all
  · exact ⟨_, rfl⟩
  · exact ⟨_, List.getElem?_eq_getElem (Nat.mod_lt _ (by simp))⟩
/-- StepRunsDecoded: the only strand of a device, with no event of the device to come; and the second strand of a rotation, with a load under way. -/
theorem wit_StepRunsDecoded :
    (let s := oneStep
     let g := (s.groups.head?).getD (placedGroup (strandMd 0 0))
     let t := (g.strands.head?).getD (strandMd 0 0)
     s.agenda = [] ∧ s.trapDue = none ∧ s.nextEvent = none ∧ s.tick.rotation = [] ++ seat 0 :: [] ∧ s.tick.group? 0 = some g ∧ g.strands[0]? = some t ∧
     ∃ s0, s.tick.fetchWord g t t.pc = (.word 0x20102001, s0) ∧ (s0.fetchPair g t (.addi 1 0 1 1) = (.run (.addi 1 0 1 1), s0) ∧ s.tick.eligible 0 0 g t (s0.issued t (.addi 1 0 1 1)) = true)) ∧
    (let s := twoStep
     let g := (s.groups.head?).getD (placedGroup (strandMd 0 0))
     let t := (g.strands.head?).getD (strandMd 0 0)
     s.agenda = [] ∧ s.trapDue = none ∧ (∃ e, s.nextEvent = some e) ∧ s.tick.rotation = [seat 0] ++ seat 1 :: [] ∧ (s.tick.tryIssue (seat 0)).isNone = true ∧ s.tick.group? 0 = some g ∧
     g.strands[1]? = some t ∧
     ∃ s0, s.tick.fetchWord g t t.pc = (.word 0x20102001, s0) ∧ (s0.fetchPair g t (.addi 1 0 1 1) = (.run (.addi 1 0 1 1), s0) ∧ s.tick.eligible 0 1 g t (s0.issued t (.addi 1 0 1 1)) = true)) :=
  ⟨⟨by decide +kernel, by decide +kernel, by decide +kernel, by decide +kernel, rfl, rfl, fst_and (by decide +kernel) ⟨rfl, by decide +kernel⟩⟩,
    ⟨by decide +kernel, by decide +kernel, event_some (by decide +kernel), by decide +kernel, by decide +kernel, rfl, rfl, fst_and (by decide +kernel) ⟨rfl, by decide +kernel⟩⟩⟩
/-- The device takes a next step. -/
def steps (s : State) : Bool := match step s with
  | .next _ => true
  | _ => false
theorem steps_next {s : State} (h : steps s = true) : ∃ s', step s = .next s' := by
  unfold steps at h
  split at h
  · exact ⟨_, by assumption⟩
  · simp at h
theorem wit_StepKeepsMemory : oneStep.mem.wf = true ∧ ∃ s', step oneStep = .next s' := ⟨by decide +kernel, steps_next (by decide +kernel)⟩
theorem wit_StepKeepsShape : Settled oneStep ∧ AgendaOk oneStep ∧ Shaped oneStep ∧ ∃ s', step oneStep = .next s' :=
  ⟨by decide +kernel, by decide +kernel, by decide +kernel, steps_next (by decide +kernel)⟩
theorem wit_StepAnswers : AgendaOk State.reset ∧ AgendaOk oneStep := by decide +kernel
/-- The instruction that the strand's first step ran: x1 is 1, and the PC is past it (R189, R208). -/
theorem test_step_addi : (match step oneStep with
    | .next s => (s.groups.head?.bind fun g => g.strands.head?).map fun t => (t.x 1, t.pc)
    | _ => none) = some (1, 4) := by decide +kernel

/-! ## Words -/

/-- Integer instructions: the fields of R184 and the words of the worked programs. -/
theorem test_decode_integer : decode 0x04518740 = .ok (.add 5 6 7 0 1) ∧ decode 0x06D00100 = .ok (.add 45 0 1 0 0) ∧ decode 0x0430C281 = .ok (.sub 3 3 2 1 0) ∧
    decode 0x20102001 = .ok (.addi 1 0 1 1) ∧ decode 0x2542E0FF = .ok (.andi 20 11 1 255) ∧ decode 0x3841_0000 = .ok (.lui 4 0x10000) ∧ decode 0x30104009 = .ok (.shli 1 1 0 9) ∧
    decode 0x30D0A830 = .ok (.shri 13 2 1 48) ∧ decode 0x0CB0AF03 = .ok (.cle 11 2 47 0 0) := ⟨rfl, rfl, rfl, rfl, rfl, rfl, rfl, rfl, rfl⟩
/-- Masks, permutes, reductions and the control of vectors, by the fields of the opcode table. -/
theorem test_decode_vector : decode 0x10B28903 = .ok (.mandn 11 10 9) ∧ decode 0x14108303 = .ok (.vperm 1 2 3) ∧ decode 0x18108002 = .ok (.rmax 1 2) ∧
    decode 0x1C008382 = .ok (.shape 0 2 3) ∧ decode 0x34000120 = .ok (.setmodeImm 0x120) ∧ decode 0x10C28903 = .error 3 :=
  ⟨rfl, rfl, rfl, rfl, rfl, rfl⟩
/-- Branches, jumps and loops: the words of the worked programs; LOOP by the opcode table. -/
theorem test_decode_control : decode 0x401603FE = .ok (.beq 22 0 0x3FE) ∧ decode 0x44000014 = .ok (.j 0x14) ∧ decode 0x4C0BC080 = .ok (.jr 47) ∧
    decode 0x54380000 = .ok (.rep 3 4 0) ∧ decode 0x508303FF = .ok (.loop 2 3 0x3FF) := ⟨rfl, rfl, rfl, rfl, rfl⟩
/-- Floating point, conversions and the quantiser. -/
theorem test_decode_float : decode 0x60108380 = .ok (.fadd 1 2 3 1 0) ∧ decode 0x64108300 = .ok (.fma 1 2 3 0 0) ∧ decode 0x68508342 = .ok (.fclt 5 2 3 0 1) ∧
    decode 0x6C108A00 = .ok (.cvt 1 2 10 0) ∧ decode 0x70408000 = .ok (.frsum 4 2) ∧ decode 0x74204300 = .ok (.qscale 2 1 3) := ⟨rfl, rfl, rfl, rfl, rfl, rfl⟩
/-- Loads, stores, atomics, tile and spill transfers, waits and barriers. -/
theorem test_decode_memory : decode 0x8020E100 = .ok (.vld 2 3 4 0 1 0) ∧ decode 0x84646240 = .ok (.vst 6 17 4 2 0x40) ∧ decode 0x8CB2A101 = .ok (.st 11 10 4 1 1) ∧
    decode 0x90127905 = .ok (.vldi 1 9 7 0 1 1) ∧ decode 0x9810A10C = .ok (.aadd 1 2 4 1 3) ∧ decode 0x9C10A00F = .ok (.acas 1 2 4 0 3) ∧ decode 0xA800A1FF = .ok (.pref 2 4 1 255) ∧
    decode 0xA010803F = .ok (.tld 1 2 63) ∧ decode 0xA0A00900 = .ok (.bld 10 0 1) ∧ decode 0xA0109000 = .ok (.vspill 1 2) ∧ decode 0xA4000080 = .ok (.wait 0x80) ∧
    decode 0xAC0083FF = .ok (.binit 2 0x3FF) ∧ decode 0xAD001800 = .ok (.sstep 16 0) := ⟨rfl, rfl, rfl, rfl, rfl, rfl, rfl, rfl, rfl, rfl, rfl, rfl, rfl⟩
/-- Matrix, copy, row and catalogue instructions, tensor entries. -/
theorem test_decode_engines : decode 0xB061C000 = .ok (.tshape 6 7) ∧ decode 0xB0414451 = .ok (.mma 4 5 0 1 2 0 0 1) ∧ decode 0xB4108240 = .ok (.copyTr 1 2 0 1) ∧
    decode 0xB410BF0A = .ok (.copyCv 1 2 3 7 10) ∧ decode 0xB8104C40 = .ok (.nstr 1 1 0 2) ∧ decode 0xC0518400 = .ok (.rowrun 5 6 0) ∧ decode 0xC4414007 = .ok (.catrun 4 5 7) ∧
    decode 0xC4414C09 = .ok (.arcin 4 5 9) ∧ decode 0xC4025807 = .ok (.stage 9 7) ∧ decode 0xD8100C3F = .ok (.tbind 1 63) := ⟨rfl, rfl, rfl, rfl, rfl, rfl, rfl, rfl, rfl, rfl⟩
/-- System instructions, and words that do not decode. -/
theorem test_decode_system : decode 0xE0300802 = .ok (.srd 3 2) ∧ decode 0xE00BCC00 = .ok (.swr 47 0) ∧ decode 0xE0000400 = .ok .tret ∧ decode 0xE0002001 = .ok .idleEnd ∧
    decode 0xE061D000 = .ok (.enq 6 7) ∧ decode 0xE405C000 = .ok (.tinv 23) ∧ decode 0xE0101400 = .ok (.dmrd 1) ∧ decode 0xE4108400 = .ok (.pgshare 1 2) ∧
    decode 0x0B20003C = .error 2 ∧ decode 0x0B2000C0 = .error 4 ∧ decode 0x0B200000 = .error 3 := ⟨rfl, rfl, rfl, rfl, rfl, rfl, rfl, rfl, rfl, rfl, rfl⟩
/-- Microcode: the words of the worked program. -/
theorem test_decode_micro : decodeMicro 0x0B018400 = some (.aap 0xC0 0xC2) ∧ decodeMicro 0x0B0C4000 = some (.aap 0xC3 0x20) ∧ decodeMicro 0x130584C3 = some (.tra 0xC1 0xC2 0xC3) ∧
    decodeMicro 0x1A818200 = some (.dnot 0xA0 0xC1) ∧ decodeMicro 0x23000000 = some (.zero 0xC0) ∧ decodeMicro 0x682C0600 = some (.next 0xB 3) ∧
    decodeMicro 0x80000000 = some .stop := ⟨rfl, rfl, rfl, rfl, rfl, rfl, rfl⟩

/-! ## The spec's worked results -/

/-- The strand after an instruction. -/
def after (i : Instr) (t : Strand) : Strand := match exec i (act t) with
  | .next s => (s.strand? 0 0).getD t
  | _ => t
/-- A strand with values in v1 to v3. -/
def strandV (md : BitVec 20) (vl : BitVec 11) (v1 v2 v3 : Nat) : Strand :=
  { strandMd md vl with v := (((List.replicate 48 0).set 1 (BitVec.ofNat 8192 v1)).set 2 (BitVec.ofNat 8192 v2)).set 3 (BitVec.ofNat 8192 v3) }
/-- The low bits of a vector register. -/
def low (t : Strand) (r n : Nat) : Nat := (t.v.getD r 0).toNat % 2 ^ n

/-- The example of R208: ABS and NEG of −128, ABSD of −128 and 127 under s8, with and without MD.SAT. -/
theorem test_abs_s8 : low (after (.abs 4 1 0) (strandV 0x0 1 0x80 0 0)) 4 8 = 0x80 ∧ low (after (.absd 4 1 2 0 0) (strandV 0x0 1 0x80 0x7F 0)) 4 8 = 0xFF ∧
    low (after (.abs 4 1 0) (strandV 0x2000 1 0x80 0 0)) 4 8 = 0x7F ∧ (after (.abs 4 1 0) (strandV 0x2000 1 0x80 0 0)).st = fSAT ∧
    (after (.abs 4 1 0) (strandV 0x0 1 0x80 0 0)).st = 0 := by decide +kernel
/-- The example of R208: NEG of 5 under n8. -/
theorem test_neg_n8 : low (after (.neg 4 1 0) (strandV 0x80 1 5 0 0)) 4 8 = 251 ∧ low (after (.neg 4 1 0) (strandV 0x2080 1 5 0 0)) 4 8 = 0 := by decide +kernel
/-- The example of R183: quotients and remainders under s8 of (−128, 7, −7, 100) by (−1, 0, 2, −3). -/
theorem test_div_s8 : low (after (.div 4 1 2 0 0) (strandV 0x0 4 0x64F90780 0xFD0200FF 0)) 4 32 = 0xDFFDFF80 ∧
    low (after (.rem 4 1 2 0 0) (strandV 0x0 4 0x64F90780 0xFD0200FF 0)) 4 32 = 0x01FF0700 ∧ (after (.div 4 1 2 0 0) (strandV 0x0 4 0x64F90780 0xFD0200FF 0)).st = fDZ := by decide +kernel
/-- The example of R213: CLT of (200, 5) and (100, 6) under n8 and s8. -/
theorem test_clt : (after (.clt 2 1 2 0 0) (strandV 0x80 2 0x05C8 0x0664 0)).m.getD 2 0 &&& 3 = 2 ∧ (after (.clt 2 1 2 0 0) (strandV 0x0 2 0x05C8 0x0664 0)).m.getD 2 0 &&& 3 = 3 := by
  decide +kernel
/-- The example of R232: FMA of 1 + 2^−7 by itself onto −(1 + 2^−6) under bf16. -/
theorem test_fma_bf16 : low (after (.fma 3 1 2 0 0) (strandV 0x120 1 0x3F81 0x3F81 0xBF82)) 3 16 = 0x3880 ∧ (after (.fma 3 1 2 0 0) (strandV 0x120 1 0x3F81 0x3F81 0xBF82)).st = 0 := by
  decide +kernel
/-- The example of R237: CVT of four f32 values to bf16. -/
theorem test_cvt_bf16 : low (after (.cvt 2 1 9 0) (strandV 0x140 4 0xFF8000007F7FFFFF3F8180003F800001 0 0)) 2 64 = 0xFF807F803F823F80 ∧
    low (after (.cvt 2 1 9 0) (strandV 0x2140 4 0xFF8000007F7FFFFF3F8180003F800001 0 0)) 2 64 = 0xFF807F7F3F823F80 := by decide +kernel
/-- The example of R182: a fixed-tree sum under f32 of 1, 2^24, 1, −2^24 and 1. -/
theorem test_frsum : low (after (.frsum 4 1) (strandV 0x140 5 0x3F800000CB8000003F8000004B8000003F800000 0 0)) 4 32 = 0x40000000 ∧
    (after (.frsum 4 1) (strandV 0x140 5 0x3F800000CB8000003F8000004B8000003F800000 0 0)).st = fNX := by decide +kernel
/-- The example of R180: the scale of a block that begins 1000, 3 for e4m3, and its packed codes. -/
theorem test_quantise : low (after (.qscale 2 1 3) (strandV 0x140 32 0x40400000447A0000 0 12)) 2 520 / 2 ^ 512 = 0x82 ∧
    low (after (.qpack 4 1 2) (after (.qscale 2 1 3) (strandV 0x140 32 0x40400000447A0000 0 12))) 4 16 = 0x2C70 := by decide +kernel
/-- The example of R215: SLUP and SLDN by 3 of (10, …, 17) under s32. -/
theorem test_slide : low (after (.slup 4 1 2) (strandV 0x40 8 0x11000000100000000F0000000E0000000D0000000C0000000B0000000A 3 0)) 4 256 = 0x0E0000000D0000000C0000000B0000000A000000000000000000000000 ∧
    low (after (.sldn 4 1 2) (strandV 0x40 8 0x11000000100000000F0000000E0000000D0000000C0000000B0000000A 3 0)) 4 256 = 0x11000000100000000F0000000E0000000D := by decide +kernel
/-- The example of R260: the grant of TSHAPE to a group of CLASS 0 with WNEED 256, ANEED 64 and CNEED 96. -/
theorem test_tshape : tileGrant false 64 256 96 0x00041388012C0064 = 0x0008288027020064 := by decide +kernel
/-- The example of R332: a zero divisor in lane 2 under MD.DZT, its trap and the return from it. -/
theorem test_divide_trap :
    let t := { strandV 0x4000 4 0x64F90780 0xFD0001FF 0 with tvec := 0x40000, pc := 0x10000 }
    let t1 := after (.div 4 1 2 0 0) t
    (t1.tpc = 0x10004 ∧ t1.tcause = 0x05 ∧ t1.h = true ∧ t1.pc = 0x40000 ∧ low t1 4 16 = 0x0780) ∧ ((after .tret t1).pc = 0x10004 ∧ (after .tret t1).h = false) := by decide +kernel
/-- The example of R257: BWAIT names b37 where BA = 2 allots b0 to b31. -/
theorem test_barrier_trap : ((match exec (.bwait 6 5 37) { act { strandMd 0 0 with tvec := 0x40000 } with contexts := State.reset.contexts.set 0 { placedContext with ba := 2 } } with
    | .next s => s.strand? 0 0
    | _ => none).map fun (t : Strand) => (t.dm, t.x 6, t.h, t.pc)) = some (0, 0, true, 0x40000) := by decide +kernel
/-- The example of R58: a tail that runs past the ring, and one of another port. -/
theorem test_queue_tail :
    let s : State := { State.reset with queues := State.reset.queues.set 40 { Queue.reset with state := .active, feed := 3, log2n := 4, head := 14, tail := 20 } }
    let q (port : BitVec 3) : Option Queue := match exec (.qtail port 40 35) s with
      | .next s => s.queues[40]?
      | _ => none
    (q 3).map (fun q => (q.state, q.fcause, q.tail, q.drop)) = some (.faulted, 2, 20, false) ∧ (q 5).map (fun q => (q.state, q.tail, q.drop)) = some (.active, 20, true) := by decide +kernel

end Sys2Proof.Tests
end

section
/-!
The state after reset: each table holds its reset entries alone, so a property of one entry is a property of the table.
-/
namespace Sys2Proof.Proofs

open Sys2Proof Sys2Proof.Machine Sys2Proof.Safety

theorem reset_context {c : Context} (h : c ∈ State.reset.contexts) : c = Context.reset := List.eq_of_mem_replicate h
theorem reset_queue {q : Queue} (h : q ∈ State.reset.queues) : q = Queue.reset := List.eq_of_mem_replicate h
theorem reset_window {v : Window} (h : v ∈ State.reset.windows) : v = Window.reset := List.eq_of_mem_replicate h
theorem reset_link {l : Link} (h : l ∈ State.reset.links.units) : l = Link.reset := List.eq_of_mem_replicate h

theorem reset_settled : Settled State.reset := ⟨rfl, rfl, rfl⟩
theorem reset_agendaOk : AgendaOk State.reset := fun _ h => nomatch h
/-- 96 compute cores and 64 stack cores (R12, R15). -/
theorem reset_cores : State.reset.cores.length = 160 :=
  List.length_append.trans (congrArg₂ (· + ·) List.length_replicate List.length_replicate)
/-- The tables that are replicated have their length by construction; there is no group yet. -/
theorem reset_shaped : Shaped State.reset :=
  ⟨List.length_replicate, List.length_replicate, List.length_replicate, reset_cores, List.length_replicate,
    List.length_replicate, List.length_replicate, List.length_replicate, List.length_replicate, List.length_replicate, fun _ h => nomatch h⟩

/-- Settles O57: the registers by computation, each table by its one entry, the invariants by the lemmas above. -/
theorem resetState : Obligations.ResetState := by
  unfold Obligations.ResetState
  refine ⟨rfl, rfl, rfl, rfl, rfl, rfl, ?contexts, ?queues, ?links, ?windows, rfl, rfl, rfl, Laws.reset_wf, reset_settled, reset_agendaOk, reset_shaped⟩
  case contexts =>
    intro c hc
    rw [reset_context hc]
    exact ⟨rfl, rfl⟩
  case queues =>
    intro q hq
    rw [reset_queue hq]
    exact ⟨rfl, rfl, rfl, rfl, rfl⟩
  case links =>
    intro l hl
    rw [reset_link hl]
    exact ⟨rfl, rfl, rfl, rfl⟩
  case windows =>
    intro v hv
    rw [reset_window hv]
    exact ⟨rfl, rfl, rfl, rfl, rfl, rfl⟩

end Sys2Proof.Proofs
end

section
/-!
How an instruction of a strand that acts ends, in the words of the statements; then the named barriers (R97 to R105, R257): what each
instruction does to the record it names, and what an arrival does to the barrier and to those who wait for it.
-/
namespace Sys2Proof.Proofs

open Sys2Proof Sys2Proof.Machine Sys2Proof.Safety

/-! ## How an instruction ends -/

section Ends

variable {i : Instr} {s : State} {u k : Nat} {g : Group} {t : Strand} {f : Nat → Nat → Group → Strand → State → Eff State}

theorem issues_of_done (ha : Acts s u k g t) (he : exec i s = runM f s) {s' : State} (hf : f u k g t s = .done s') : Issues i s u k t s' := by
  rw [Issues, he, Laws.runM_next ha, hf, State.finish]

theorem traps_of_trap (ha : Acts s u k g t) (he : exec i s = runM f s) {c : Trap} (hf : f u k g t s = .trap s c) : Traps i s u k t c := by
  rw [Traps, he, Laws.runM_next ha, hf, State.finish]

/-- An effect that completes with a change of the strand alone. -/
theorem becomes_of_done (ha : Acts s u k g t) (he : exec i s = runM f s) {h : Strand → Strand} (hf : f u k g t s = .done (s.modStrand u k h)) :
    Becomes i s u k t (h t) := by
  rw [Becomes, he, Laws.runM_next ha, hf, State.finish, Laws.modStrand_modStrand]
  exact congrArg _ (Laws.modStrand_congr ha rfl)

/-- An effect that leaves the strand at the instruction, with a change of the strand alone. -/
theorem exec_of_settled (ha : Acts s u k g t) (he : exec i s = runM f s) {h : Strand → Strand} (hf : f u k g t s = .settled (s.modStrand u k h)) :
    exec i s = .next (s.modStrand u k fun _ => h t) := by
  rw [he, Laws.runM_next ha, hf, State.finish]
  exact congrArg _ (Laws.modStrand_congr ha rfl)

end Ends

/-! ## The checks of a barrier instruction (R45, R101) -/

theorem withBarrier_of_allotted {n : BitVec 10} {g : Group} {s : State} (h : n.toNat < 16 * (s.ctx g.cid).ba.toNat) (f : Bar → Eff State) :
    withBarrier n g s f = f (g.bars.getD n.toNat Bar.zero) := if_neg (Nat.not_le.2 h)

theorem withBarrier_of_not_allotted {n : BitVec 10} {g : Group} {s : State} (h : ¬ n.toNat < 16 * (s.ctx g.cid).ba.toNat) (f : Bar → Eff State) :
    withBarrier n g s f = .trap s (trapOf 0x10 0 (BitVec.ofNat 64 n.toNat)) := if_pos (Nat.not_lt.1 h)

theorem low10 (v : Word) : v.extractLsb' 0 10 = v.setWidth 10 := rfl

theorem withCount_of_ne {v : Word} (h : v.setWidth 10 ≠ (0 : BitVec 10)) (s : State) (f : Eff State) : withCount v s f = f :=
  if_neg (low10 v ▸ h)

theorem withCount_of_eq {v : Word} (h : v.setWidth 10 = (0 : BitVec 10)) (s : State) (f : Eff State) : withCount v s f = .trap s (trapOf 0x11 0 v) :=
  if_pos (low10 v ▸ h)

/-! ## The barrier instructions (R101, R102) -/

/-- What BINIT leaves of a record, GEN alone kept. -/
theorem init_fields (v : Word) : v.extractLsb' 10 11 = (v >>> 10).setWidth 11 := by
  ext j hj
  simp [Nat.add_comm]

/-- A field put above the bits that a word uses adds its value there. -/
theorem toNat_or_shiftLeft {w lo : Nat} {a : Word} (x : BitVec w) (ha : a.toNat < 2 ^ lo) (hx : lo + w ≤ 64) :
    (a ||| x.setWidth 64 <<< lo).toNat = a.toNat + 2 ^ lo * x.toNat := by
  have hb : x.toNat < 2 ^ w := x.isLt
  have hp : 2 ^ lo * x.toNat < 2 ^ 64 :=
    calc 2 ^ lo * x.toNat < 2 ^ lo * 2 ^ w := Nat.mul_lt_mul_of_pos_left hb (Nat.two_pow_pos lo)
      _ = 2 ^ (lo + w) := (Nat.pow_add 2 lo w).symm
      _ ≤ 2 ^ 64 := Nat.pow_le_pow_right (by decide) hx
  have hw : x.toNat < 2 ^ 64 := Nat.lt_of_lt_of_le hb (Nat.pow_le_pow_right (by decide) (by omega))
  have hs : (x.setWidth 64 <<< lo).toNat = x.toNat <<< lo := by
    rw [BitVec.toNat_shiftLeft, BitVec.toNat_setWidth, Nat.mod_eq_of_lt hw, Nat.shiftLeft_eq, Nat.mul_comm, Nat.mod_eq_of_lt hp]
  rw [BitVec.toNat_or, hs, Nat.or_comm, ← Nat.shiftLeft_add_eq_or_of_lt ha, Nat.shiftLeft_eq, Nat.mul_comm, Nat.add_comm]

/-- The record of R98, field by field. -/
theorem record_fields (b : Bar) : b.record = b.gen.setWidth 64 ||| (b.exp.setWidth 64 <<< 16) ||| (b.cnt.setWidth 64 <<< 26) |||
    ((BitVec.ofBool b.xerr).setWidth 64 <<< 36) ||| (b.tmo.setWidth 64 <<< 37) := by
  have h0 : (b.gen.setWidth 64).toNat = b.gen.toNat := by rw [BitVec.toNat_setWidth]; exact Nat.mod_eq_of_lt (by omega)
  have hg := b.gen.isLt
  have he := b.exp.isLt
  have hc := b.cnt.isLt
  have hx : (BitVec.ofBool b.xerr).toNat = b.xerr.toNat := BitVec.toNat_ofBool _
  have hx2 := b.xerr.toNat_lt
  have ht := b.tmo.isLt
  have h1 := toNat_or_shiftLeft (lo := 16) b.exp (a := b.gen.setWidth 64) (by omega) (by decide)
  have h2 := toNat_or_shiftLeft (lo := 26) b.cnt (a := b.gen.setWidth 64 ||| b.exp.setWidth 64 <<< 16) (by omega) (by decide)
  have h3 := toNat_or_shiftLeft (lo := 36) (BitVec.ofBool b.xerr) (by rw [h2]; omega) (by decide)
  have h4 := toNat_or_shiftLeft (lo := 37) b.tmo (by rw [h3]; omega) (by decide)
  apply BitVec.eq_of_toNat_eq
  rw [h4, h3, h2, h1, h0, hx, Bar.record, BitVec.toNat_ofNat]
  exact Nat.mod_eq_of_lt (by omega)

theorem waitResult_false (x : Bool) : waitResult false x = if x then 2 else 0 := by
  cases x <;> rfl

theorem exec_binit (a : BitVec 6) (n : BitVec 10) (s : State) : exec (.binit a n) s =
    runM (fun u _ g t s => withBarrier n g s fun b => withCount (t.x a) s <| .done (s.modGroup u fun g => g.setBar n.toNat
      { b with exp := (t.x a).extractLsb' 0 10, tmo := (t.x a).extractLsb' 10 11, cnt := 0, xerr := false, fail := false } false)) s := rfl
theorem exec_bexp (a : BitVec 6) (n : BitVec 10) (s : State) : exec (.bexp a n) s =
    runM (fun u _ g t s => withBarrier n g s fun b => withCount (t.x a) s <|
      let b1 := { b with exp := (t.x a).extractLsb' 0 10 }
      .done (s.modGroup u fun g => if b1.exp.toNat ≤ b1.cnt.toNat then g.setBar n.toNat b1.complete true else g.setBar n.toNat b1 false)) s := rfl
theorem exec_barv (d : BitVec 6) (n : BitVec 10) (s : State) : exec (.barv d n) s =
    runM (fun u k g _ s => withBarrier n g s fun _ =>
      .done ((s.pushOp u k g.cid Way.group (.barv n.toNat d) [] [] (s.writeIds u k)).modStrand u k fun t => t.mark d)) s := rfl
theorem exec_bgen (d : BitVec 6) (n : BitVec 10) (s : State) : exec (.bgen d n) s =
    runM (fun u k g _ s => withBarrier n g s fun b => .done (s.modStrand u k fun t => t.setX d b.record)) s := rfl
theorem exec_bwait (d a : BitVec 6) (n : BitVec 10) (s : State) : exec (.bwait d a n) s = runM (bwaitE false d a n) s := rfl
theorem exec_bwaitP (d a : BitVec 6) (n : BitVec 10) (s : State) : exec (.bwaitP d a n) s = runM (bwaitE true d a n) s := rfl

theorem genTest_phase (gen : BitVec 16) (v : Word) : genTest gen (v.setWidth 16) true = (gen.getLsbD 0 != v.getLsbD 0) := by
  simp [genTest]

section Instructions

variable {s : State} {u k : Nat} {g : Group} {t : Strand} {d a : BitVec 6} {n : BitVec 10}

/-- Every barrier instruction names a barrier of the allotment, or traps (R45). -/
theorem traps_of_not_allotted (ha : Acts s u k g t) (h : ¬ n.toNat < 16 * (s.ctx g.cid).ba.toNat) :
    ∀ i ∈ [Instr.binit a n, .bexp a n, .barv d n, .bgen d n, .bwait d a n, .bwaitP d a n], Traps i s u k t (trapOf 0x10 0 (BitVec.ofNat 64 n.toNat)) := by
  simp only [List.forall_mem_cons]
  refine ⟨traps_of_trap ha (exec_binit ..) ?_, traps_of_trap ha (exec_bexp ..) ?_, traps_of_trap ha (exec_barv ..) ?_,
    traps_of_trap ha (exec_bgen ..) ?_, traps_of_trap ha (exec_bwait ..) ?_, traps_of_trap ha (exec_bwaitP ..) ?_, fun _ h => nomatch h⟩ <;> exact withBarrier_of_not_allotted h _

variable (ha : Acts s u k g t) (hal : n.toNat < 16 * (s.ctx g.cid).ba.toNat)
include ha hal

theorem binit_issues (hv : (t.x a).setWidth 10 ≠ (0 : BitVec 10)) :
    Issues (.binit a n) s u k t (s.modGroup u fun g' => g'.setBar n.toNat
      { gen := (g.bars.getD n.toNat Bar.zero).gen, exp := (t.x a).setWidth 10, cnt := 0, xerr := false, tmo := (t.x a >>> 10).setWidth 11, fail := false } false) := by
  rw [← init_fields]
  refine issues_of_done ha (exec_binit ..) ?_
  exact (withBarrier_of_allotted hal _).trans (withCount_of_ne hv _ _)

theorem binit_traps (hv : (t.x a).setWidth 10 = (0 : BitVec 10)) : Traps (.binit a n) s u k t (trapOf 0x11 0 (t.x a)) := by
  refine traps_of_trap ha (exec_binit ..) ?_
  exact (withBarrier_of_allotted hal _).trans (withCount_of_eq hv _ _)

theorem bexp_traps (hv : (t.x a).setWidth 10 = (0 : BitVec 10)) : Traps (.bexp a n) s u k t (trapOf 0x11 0 (t.x a)) := by
  refine traps_of_trap ha (exec_bexp ..) ?_
  exact (withBarrier_of_allotted hal _).trans (withCount_of_eq hv _ _)

/-- BEXP above the count changes EXP alone. -/
theorem bexp_issues_open (hv : (t.x a).setWidth 10 ≠ (0 : BitVec 10))
    (hc : (g.bars.getD n.toNat Bar.zero).cnt.toNat < ((t.x a).setWidth 10 : BitVec 10).toNat) :
    Issues (.bexp a n) s u k t (s.modGroup u fun g' => g'.setBar n.toNat { g.bars.getD n.toNat Bar.zero with exp := (t.x a).setWidth 10 } false) := by
  refine issues_of_done ha (exec_bexp ..) ?_
  refine (withBarrier_of_allotted hal _).trans ((withCount_of_ne hv _ _).trans ?_)
  simp only [low10, if_neg (Nat.not_le.2 hc)]

/-- BEXP that the count has reached completes the barrier. -/
theorem bexp_issues_complete (hv : (t.x a).setWidth 10 ≠ (0 : BitVec 10))
    (hc : ((t.x a).setWidth 10 : BitVec 10).toNat ≤ (g.bars.getD n.toNat Bar.zero).cnt.toNat) :
    Issues (.bexp a n) s u k t (s.modGroup u fun g' => g'.setBar n.toNat
      ({ g.bars.getD n.toNat Bar.zero with exp := (t.x a).setWidth 10 } : Bar).complete true) := by
  refine issues_of_done ha (exec_bexp ..) ?_
  refine (withBarrier_of_allotted hal _).trans ((withCount_of_ne hv _ _).trans ?_)
  simp only [low10, if_pos hc]

theorem barv_issues : Issues (.barv d n) s u k t
    ((s.pushOp u k g.cid Way.group (.barv n.toNat d) [] [] (s.writeIds u k)).modStrand u k fun t => t.mark d) := by
  refine issues_of_done ha (exec_barv ..) ?_
  exact withBarrier_of_allotted hal _

theorem bgen_becomes : Becomes (.bgen d n) s u k t (t.setX d (g.bars.getD n.toNat Bar.zero).record) := by
  refine becomes_of_done ha (exec_bgen ..) (h := fun t => t.setX d (g.bars.getD n.toNat Bar.zero).record) ?_
  exact withBarrier_of_allotted hal _

/-- A wait whose test passes at once gives XERR. -/
theorem bwaitE_passes {i : Instr} {phase : Bool} (he : exec i s = runM (bwaitE phase d a n) s)
    (hp : genTest (g.bars.getD n.toNat Bar.zero).gen ((t.x a).setWidth 16) phase = true) :
    Becomes i s u k t (t.setX d (if (g.bars.getD n.toNat Bar.zero).xerr then 2 else 0)) := by
  rw [← waitResult_false]
  exact becomes_of_done ha he (h := fun t => t.setX d (waitResult false (g.bars.getD n.toNat Bar.zero).xerr))
    ((withBarrier_of_allotted hal _).trans (if_pos hp))

/-- Another wait holds the strand at the instruction. -/
theorem bwaitE_waits {i : Instr} {phase : Bool} (he : exec i s = runM (bwaitE phase d a n) s)
    (hp : genTest (g.bars.getD n.toNat Bar.zero).gen ((t.x a).setWidth 16) phase = false) :
    exec i s = .next (s.modStrand u k fun _ => { t.mark d with
      status := .waiting (.barrier n.toNat ((t.x a).setWidth 16) phase d (decide ((g.bars.getD n.toNat Bar.zero).tmo ≠ 0)) none) }) :=
  exec_of_settled ha he (h := fun t' => { t'.mark d with
      status := .waiting (.barrier n.toNat ((t.x a).setWidth 16) phase d (decide ((g.bars.getD n.toNat Bar.zero).tmo ≠ 0)) none) })
    ((withBarrier_of_allotted hal _).trans (if_neg (Bool.eq_false_iff.1 hp)))

end Instructions

/-! ## An arrival at a named barrier (R101, R102, R107, R108) -/

@[simp] theorem onBarrier_v (t : Strand) (b : Nat) (bar : Bar) : (t.onBarrier b bar).v = t.v := by
  unfold Strand.onBarrier Strand.wakeIdle
  split
  · split <;> rfl
  · split <;> rfl

/-- A completion tells the strand whose test it makes pass. -/
theorem onBarrier_passes {t : Strand} {b : Nat} {v : BitVec 16} {ph tmo : Bool} {d : BitVec 6} {bar : Bar}
    (ht : t.status = .waiting (.barrier b v ph d tmo none)) (hp : genTest bar.gen v ph = true) :
    (t.onBarrier b bar).status = .waiting (.barrier b v ph d tmo (some bar.xerr)) := by
  simp only [Strand.onBarrier, ht, hp, and_self, if_true]

/-- The record after the arrival that makes its count EXP (R102). -/
def completedBar (bar : Bar) (failed : Bool) : Bar := { bar with gen := bar.gen + 1, cnt := 0, xerr := bar.fail || failed, fail := false }

section Arrive

variable {g : Group} {b : Nat} {bar : Bar} (failed : Bool) (hb : g.bars[b]? = some bar)

@[simp] theorem arrive_uid (g : Group) (b : Nat) (failed : Bool) : (g.arrive b failed).uid = g.uid := by
  unfold Group.arrive
  split
  · rfl
  · dsimp only
    split <;> rfl

include hb

theorem arrive_completes (hc : bar.cnt.toNat + 1 = bar.exp.toNat) :
    g.arrive b failed = g.setBar b (completedBar bar failed) true := by
  simp only [Group.arrive, hb, hc, if_true, Bar.complete, completedBar]

theorem arrive_counts (hc : bar.cnt.toNat + 1 ≠ bar.exp.toNat) :
    g.arrive b failed = g.setBar b { bar with cnt := bar.cnt + 1, fail := bar.fail || failed } false := by
  simp only [Group.arrive, hb, hc, if_false]

theorem arrive_bars : (g.arrive b failed).bars = if bar.cnt.toNat + 1 = bar.exp.toNat then
    g.bars.set b { bar with gen := bar.gen + 1, cnt := 0, xerr := bar.fail || failed, fail := false }
    else g.bars.set b { bar with cnt := bar.cnt + 1, fail := bar.fail || failed } := by
  split
  · next hc => rw [arrive_completes failed hb hc, Group.setBar, completedBar]
  · next hc => rw [arrive_counts failed hb hc, Group.setBar]

/-- An arrival leaves each strand its registers. -/
theorem arrive_strand_v {k : Nat} {t : Strand} (ht : g.strands[k]? = some t) : ∃ t', (g.arrive b failed).strands[k]? = some t' ∧ t'.v = t.v := by
  by_cases hc : bar.cnt.toNat + 1 = bar.exp.toNat
  · rw [arrive_completes failed hb hc]
    exact ⟨_, (List.getElem?_map ..).trans (congrArg _ ht), onBarrier_v ..⟩
  · rw [arrive_counts failed hb hc]
    exact ⟨t, ht, rfl⟩

end Arrive

theorem landX_v {t t' : Strand} (h : t'.v = t.v) (d : BitVec 6) (x : Word) : (t'.landX d x).v = (t.setX d x).v := by
  simp only [Strand.landX, Strand.setX, Strand.setV, Strand.vreg, h]

theorem op_dropOp (s : State) (n : Nat) : (s.dropOp n).op? n = none := by
  simp [State.op?, State.dropOp]

theorem group_dropOp (s : State) (n u : Nat) : (s.dropOp n).group? u = s.group? u := by
  rw [State.group?, Laws.dropOp_groups, State.group?]

theorem group_modStrand {s : State} {u : Nat} {g : Group} (hg : s.group? u = some g) (k : Nat) (f : Strand → Strand) :
    (s.modStrand u k f).group? u = some { g with strands := modAt g.strands k f } := by
  exact (Laws.group_modGroup s u (fun g => { g with strands := modAt g.strands k f }) fun _ => rfl).trans (congrArg _ hg)

/-- BARV_ARRIVAL of an arrival that nothing holds back any more (R100). -/
theorem exec_barvArrival {s : State} {n : Nat} {o : Op} {g : Group} {b : Nat} {d : BitVec 6} (ho : s.op? n = some o) (hw : o.work = .barv b d)
    (hg : s.group? o.guid = some g) (hd : s.arrivalDue o = true) :
    exec (.barvArrival n) s = .next (((s.modGroup o.guid fun g => g.arrive b o.failed).modStrand o.guid o.strand
      fun t => t.landX d ((g.bars.getD b Bar.zero).gen.setWidth 64)).dropOp n) := by
  rw [show exec (.barvArrival n) s = execBarvArrival n s from rfl]
  simp only [execBarvArrival, ho, hw, hg, hd, if_true]

/-- What the arrival of a strand leaves of its group. -/
theorem barvArrival_group {s : State} {n : Nat} {o : Op} {g : Group} {t : Strand} {b : Nat} {d : BitVec 6} {bar : Bar} (ho : s.op? n = some o)
    (hw : o.work = .barv b d) (hg : s.group? o.guid = some g) (ht : g.strands[o.strand]? = some t) (hd : s.arrivalDue o = true) (hb : g.bars[b]? = some bar) :
    ∃ s' g', exec (.barvArrival n) s = .next s' ∧ s'.op? n = none ∧ s'.mem = s.mem ∧ s'.group? o.guid = some g' ∧
      (if bar.cnt.toNat + 1 = bar.exp.toNat then
        g'.bars = g.bars.set b { bar with gen := bar.gen + 1, cnt := 0, xerr := bar.fail || o.failed, fail := false }
      else g'.bars = g.bars.set b { bar with cnt := bar.cnt + 1, fail := bar.fail || o.failed }) ∧
      (∀ t', g'.strands[o.strand]? = some t' → t'.v = (t.setX d (bar.gen.setWidth 64)).v) ∧
      (∀ j w v ph r tmo, g.strands[j]? = some w → j ≠ o.strand → w.status = .waiting (.barrier b v ph r tmo none) →
        bar.cnt.toNat + 1 = bar.exp.toNat → genTest (bar.gen + 1) v ph = true →
        ∃ w', g'.strands[j]? = some w' ∧ w'.status = .waiting (.barrier b v ph r tmo (some (bar.fail || o.failed)))) := by
  have hgen : (g.bars.getD b Bar.zero).gen = bar.gen := by rw [List.getD_eq_getElem?_getD, hb, Option.getD_some]
  have hg1 : (s.modGroup o.guid fun g => g.arrive b o.failed).group? o.guid = some (g.arrive b o.failed) := by
    rw [Laws.group_modGroup s _ _ fun g => arrive_uid g b o.failed, hg, Option.map_some]
  have hg2 := group_modStrand hg1 o.strand fun t => t.landX d ((g.bars.getD b Bar.zero).gen.setWidth 64)
  refine ⟨_, _, exec_barvArrival ho hw hg hd, op_dropOp .., rfl, (group_dropOp ..).trans hg2, ?bars, ?strand, ?waiting⟩
  case bars =>
    have h := arrive_bars o.failed hb
    split at h
    · next hc => rw [if_pos hc]; exact h
    · next hc => rw [if_neg hc]; exact h
  case strand =>
    intro t' ht'
    obtain ⟨t1, ht1, hv⟩ := arrive_strand_v o.failed hb ht
    simp only [Laws.modAt_get, if_true, ht1, Option.map_some, Option.some.injEq] at ht'
    rw [← ht', hgen, landX_v hv]
  case waiting =>
    intro j w v ph r tmo hj hne hst hc hp
    rw [arrive_completes o.failed hb hc]
    refine ⟨w.onBarrier b (completedBar bar o.failed), ?_, onBarrier_passes (bar := completedBar bar o.failed) hst hp⟩
    simp [Group.setBar, Laws.modAt_get, hne.symm, hj]

/-! ## An arrival at a superstep barrier (R107) -/

theorem recheckAll_of_none_held {s : State} (h : ∀ n, n < 256 → (s.queue n).held = none) (c : Nat) : s.recheckAll c = s := by
  rw [State.recheckAll, List.filter_eq_nil_iff.2, List.foldl_nil]
  intro n hn
  simp [h n (List.mem_range.1 hn)]

theorem kernel_modKernel (s : State) (u : Nat) (f : Kernel → Kernel) (hf : ∀ k, (f k).uid = k.uid) : (s.modKernel u f).kernel? u = (s.kernel? u).map f :=
  Laws.find_modFirst _ f (by intro k hk; simpa [hf] using hk) s.kernels

theorem kernel_modSsb {s : State} {u : Nat} {q : Kernel} (hk : s.kernel? u = some q) (j : Nat) (b : SBar) :
    (s.modKernel u fun k => { k with ssb := k.ssb.set j b }).kernel? u = some { q with ssb := q.ssb.set j b } :=
  (kernel_modKernel s u (fun k => { k with ssb := k.ssb.set j b }) fun _ => rfl).trans (congrArg _ hk)

/-- A change of every group that keeps the identities changes the group of an identity. -/
theorem find_uid_map (f : Group → Group) (hf : ∀ g, (f g).uid = g.uid) (u : Nat) (l : List Group) :
    (l.map f).find? (fun g => g.uid == u) = (l.find? fun g => g.uid == u).map f := by
  rw [List.find?_map, show ((fun g => g.uid == u) ∘ f) = fun g => g.uid == u from funext fun g => by simp [hf]]

theorem onSuperstep_ended {t : Strand} {j : Nat} {bar : SBar} : (t.onSuperstep j bar).status = .ended ↔ t.status = .ended := by
  unfold Strand.onSuperstep Strand.wakeIdle
  split
  · next h =>
    split
    · simp [h]
    · simp [h]
  · split
    · next h => simp [h]
    · rfl

/-- How a completion of superstep barrier `j` of kernel `u` tells the strands of a group. -/
def tellSuperstep (u j : Nat) (bar : SBar) (g : Group) : Group :=
  if g.kuid == u then { g with strands := g.strands.map fun t => t.onSuperstep j bar } else g

/-- The completion where no queue of the device holds a record. -/
theorem sstepDone_of_none_held {s : State} (h : ∀ n, n < 256 → (s.queue n).held = none) (u j : Nat) (bar : SBar) :
    s.sstepDone u j bar = { s.modKernel u fun k => { k with ssb := k.ssb.set j bar } with groups := s.groups.map (tellSuperstep u j bar) } := by
  unfold State.sstepDone
  dsimp only
  split
  · rw [recheckAll_of_none_held]
    · rfl
    · exact h
  · rfl

/-- An arrival keeps the strand of every identity, ended or not. -/
theorem tellSuperstep_strand {u j : Nat} {bar : SBar} {g : Group} {k : Nat} {t : Strand} (ht : g.strands[k]? = some t) :
    ∃ t', (tellSuperstep u j bar g).strands[k]? = some t' ∧ (t'.status = .ended ↔ t.status = .ended) := by
  unfold tellSuperstep
  split
  · exact ⟨_, (List.getElem?_map ..).trans (congrArg _ ht), onSuperstep_ended⟩
  · exact ⟨t, ht, .rfl⟩

/-- What an arrival at a barrier that counts leaves: the barrier, memory, and the strands as ended or not as they were. -/
theorem sstepArrive_kernel {s : State} {u j : Nat} {q : Kernel} {b : SBar} (failed : Bool) (hk : s.kernel? u = some q) (hb : q.ssb[j]? = some b) (he : b.exp ≠ 0)
    (hq : b.cnt + 1 = b.exp → ∀ n, n < 256 → (s.queue n).held = none) :
    ∃ q', (s.sstepArrive u j failed).kernel? u = some q' ∧
      (if b.cnt + 1 = b.exp then q'.ssb = q.ssb.set j { b with gen := b.gen + 1, cnt := 0, xerr := b.fail || failed, fail := false }
       else q'.ssb = q.ssb.set j { b with cnt := b.cnt + 1, fail := b.fail || failed }) ∧
      (s.sstepArrive u j failed).mem = s.mem ∧
      ∀ v k t, s.strand? v k = some t → ∃ t', (s.sstepArrive u j failed).strand? v k = some t' ∧ (t'.status = .ended ↔ t.status = .ended) := by
  have hf : ((s.kernel? u).bind fun k => k.ssb[j]?) = some b := by rw [hk, Option.bind_some, hb]
  by_cases hc : b.cnt + 1 = b.exp
  · have e : s.sstepArrive u j failed = s.sstepDone u j { b with gen := b.gen + 1, cnt := 0, xerr := b.fail || failed, fail := false } := by
      simp only [State.sstepArrive, hf, he, hc, if_true, if_false, SBar.complete]
    rw [e, sstepDone_of_none_held (hq hc)]
    refine ⟨_, kernel_modSsb hk j _, by rw [if_pos hc], rfl, ?_⟩
    intro v k t ht
    simp only [State.strand?, Option.bind_eq_some_iff] at ht ⊢
    obtain ⟨g, hg, ht⟩ := ht
    obtain ⟨t', ht', hs⟩ := tellSuperstep_strand ht
    exact ⟨t', ⟨_, (find_uid_map _ (fun g => by unfold tellSuperstep; split <;> rfl) v s.groups).trans (congrArg _ hg), ht'⟩, hs⟩
  · have e : s.sstepArrive u j failed = s.modKernel u fun k => { k with ssb := k.ssb.set j { b with cnt := b.cnt + 1, fail := b.fail || failed } } := by
      simp only [State.sstepArrive, hf, he, hc, if_false]
    rw [e]
    refine ⟨_, kernel_modSsb hk j _, by rw [if_neg hc], rfl, ?_⟩
    exact fun v k t ht => ⟨t, ht, .rfl⟩

/-- SSTEP_ARRIVAL of a strand that has not ended, once nothing holds the arrival back (R107). -/
theorem sstepArrival_kernel {s : State} {n : Nat} {o : Op} {g : Group} {t : Strand} {j : Nat} {q : Kernel} {b : SBar} (ho : s.op? n = some o)
    (hg : s.group? o.guid = some g) (ht : g.strands[o.strand]? = some t) (hd : s.arrivalDue o = true) (hw : o.work = .sstep j)
    (hk : s.kernel? g.kuid = some q) (hb : q.ssb[j]? = some b) (he : b.exp ≠ 0) (hne : t.status ≠ .ended)
    (hq : b.cnt + 1 = b.exp → ∀ n, n < 256 → (s.queue n).held = none) :
    ∃ s' q', exec (.sstepArrival n) s = .next s' ∧ s'.op? n = none ∧ s'.mem = s.mem ∧ s'.kernel? g.kuid = some q' ∧
      (if b.cnt + 1 = b.exp then q'.ssb = q.ssb.set j { b with gen := b.gen + 1, cnt := 0, xerr := b.fail || o.failed, fail := false }
       else q'.ssb = q.ssb.set j { b with cnt := b.cnt + 1, fail := b.fail || o.failed }) := by
  let s0 := s.modStrand o.guid o.strand fun t => { t with arrived := t.arrived.set j (some (s.ssb g j).gen) }
  have hs0 : s0.strand? o.guid o.strand = some { t with arrived := t.arrived.set j (some (s.ssb g j).gen) } := by
    rw [Laws.strand_modStrand, State.strand?, hg, Option.bind_some, ht, Option.map_some]
  obtain ⟨q', hk', hssb, hmem, hst⟩ := sstepArrive_kernel (s := s0) o.failed hk hb he hq
  obtain ⟨t', ht', hend⟩ := hst _ _ _ hs0
  refine ⟨(s0.sstepArrive g.kuid j o.failed).dropOp n, q', ?_, op_dropOp _ _, hmem, hk', hssb⟩
  have hd' : ((s0.sstepArrive g.kuid j o.failed).dropOp n).strand? o.guid o.strand = some t' := ht'
  rw [show exec (.sstepArrival n) s = execSstepArrival n s from rfl]
  unfold execSstepArrival
  simp only [ho, hw, hg, hd, if_true]
  rw [hd']
  exact if_neg fun h => hne (hend.1 h.1)

/-! ## The statement -/

/-- Settles O24: each instruction by its lemma above, the arrivals by theirs. -/
theorem namedBarriers : Obligations.NamedBarriers := by
  unfold Obligations.NamedBarriers
  refine ⟨?instructions, ?arrivals⟩
  case instructions =>
    intro s u k g t d a n ha bar v allotted init put wait
    have hwait {i : Instr} {phase : Bool} (hal : allotted) (he : exec i s = runM (bwaitE phase d a n) s) :
        wait i phase (genTest bar.gen (v.setWidth 16) phase) := ⟨bwaitE_passes ha hal he, bwaitE_waits ha hal he⟩
    refine ⟨fun hal => ⟨fun hv => ⟨binit_issues ha hal hv, bexp_issues_open ha hal hv, bexp_issues_complete ha hal hv⟩,
      fun hv => ⟨binit_traps ha hal hv, bexp_traps ha hal hv⟩, barv_issues ha hal, ?bgen, hwait hal (exec_bwait ..), genTest_phase .. ▸ hwait hal (exec_bwaitP ..)⟩,
      traps_of_not_allotted ha⟩
    case bgen =>
      rw [← record_fields bar]
      exact bgen_becomes ha hal
  case arrivals =>
    intro s n o g t b d bar q sb ho hg ht hd
    exact ⟨fun hw hb => barvArrival_group ho hw hg ht hd hb, sstepArrival_kernel ho hg ht hd⟩

end Sys2Proof.Proofs
end

section
/-!
The end of a drain can write memory, against the last clause of O52: the entries of the drained context leave the pending-fault tables, and the
requests of other contexts that waited for an entry take one (R368); the record of an absent page among them goes to the ring of the page
service, which lies in memory (R369).
-/
namespace Sys2Proof.Proofs

open Sys2Proof Sys2Proof.Machine Sys2Proof.Safety

/-- The pending-fault table of die 0, full of entries of context 0. -/
def fullTable : List Pend :=
  (List.range 4096).map fun i => { die := 0, idx := i, cid := 0, page := i, code := 0x40, acc := 2, hint := none, waiters := [], cow := none, arc := none }

/-- An absent page of context 1 that waits for an entry. -/
def waitingRequest : FaultReq := { die := 0, cid := 1, page := 5, code := 0x40, acc := 2, hint := none, waiter := .snap 0 }

/-- Context 0 is draining with nothing left to end, its entries fill the table of die 0, and the ring of the page service has room. -/
def drainingState : State :=
  { State.reset with
    contexts := State.reset.contexts.set 0 { Context.reset with state := .draining },
    mmu := { State.reset.mmu with pend := fullTable, queue := [waitingRequest], ring := { Ring.reset with en := true, log2n := 6 } } }

/-- The bytes of memory that an outcome leaves. -/
def cellsAfter : Res → List Host.Cell
  | .next s => s.mem.cells
  | _ => []

theorem drainingState_contexts_length : drainingState.contexts.length = 64 := List.length_set.trans List.length_replicate

theorem drainingState_drained : drainingState.drained 0 = true := by decide +kernel

/-- The record of the absent page is in memory, which held no byte. -/
theorem cellsAfter_drainComplete : cellsAfter (exec (.drainComplete 0) drainingState) ≠ drainingState.mem.cells := by decide +kernel

/-- Refutes O52: a request of another context that waits behind the drained context's entries has its record written to memory. -/
theorem not_mailboxEvents : ¬ Obligations.MailboxEvents := by
  unfold Obligations.MailboxEvents
  rintro ⟨-, -, -, -, -, hdrain⟩
  obtain ⟨s', hs', -, -, -, hmem, -⟩ := hdrain drainingState 0 rfl drainingState_drained drainingState_contexts_length List.length_replicate
  apply cellsAfter_drainComplete
  rw [hs', ← hmem, cellsAfter]

end Sys2Proof.Proofs
end

section
/-!
The context commands (R40 to R54, R443): the checks of R48 in their order, then what each command leaves.
-/
namespace Sys2Proof.Proofs

open Sys2Proof Sys2Proof.Machine Sys2Proof.Safety

/-! ## Entries of the tables after a change -/

theorem ctx_modCtx {s : State} {c : Nat} (hc : c < s.contexts.length) (f : Context → Context) : (s.modCtx c f).ctx c = f (s.ctx c) := by
  simp [State.ctx, State.modCtx, List.getD_eq_getElem?_getD, Laws.modAt_get, hc]

theorem modCtx_length (s : State) (c : Nat) (f : Context → Context) : (s.modCtx c f).contexts.length = s.contexts.length := Laws.modAt_length ..

theorem ctx_ctxReply (s : State) (p n code slot c : Nat) : (s.ctxReply p n code slot).ctx c = s.ctx c := rfl

theorem window_modWindow {s : State} {p : Nat} (hp : p < s.windows.length) (f : Window → Window) : (s.modWindow p f).window p = f (s.window p) := by
  simp [State.window, State.modWindow, List.getD_eq_getElem?_getD, Laws.modAt_get, hp]

theorem queue_modQueue {s : State} {n : Nat} (f : Queue → Queue) (m : Nat) :
    (s.modQueue n f).queue m = if n = m ∧ m < s.queues.length then f (s.queue m) else s.queue m := by
  by_cases hm : m < s.queues.length
  · by_cases hn : n = m <;> simp [State.queue, State.modQueue, List.getD_eq_getElem?_getD, Laws.modAt_get, hm, hn]
  · simp [State.queue, State.modQueue, List.getD_eq_getElem?_getD, Laws.modAt_get, hm]

/-- A fold keeps what each of its steps keeps. -/
theorem foldl_keeps {α β : Type} (π : State → β) {f : State → α → State} (h : ∀ s a, π (f s a) = π s) : ∀ (l : List α) (s : State), π (l.foldl f s) = π s
  | [], _ => rfl
  | a :: l, s => (foldl_keeps π h l (f s a)).trans (h s a)

/-! ## Fields of a command word -/

theorem cidOf_lt (w : Word) : cidOf w < 64 := Nat.mod_lt _ (by decide)

/-- The bits of a word from `lo` up are what is left of it. -/
theorem natBits_top (w : Word) {lo : Nat} (h : lo ≤ 64) : natBits w.toNat 63 lo = argFrom w lo := by
  have hw : w.toNat < 2 ^ lo * 2 ^ (64 - lo) := by
    rw [← Nat.pow_add, Nat.add_sub_cancel' h]
    exact w.isLt
  rw [natBits, argFrom, Nat.shiftRight_eq_div_pow]
  exact Nat.mod_eq_of_lt (Nat.div_lt_of_lt_mul hw)

theorem argFrom_succ (w : Word) (lo : Nat) : argFrom w (lo + 1) = argFrom w lo / 2 := by
  rw [argFrom, argFrom, Nat.pow_succ, Nat.div_div_eq_div_mul]

theorem bit_eq_argFrom (w : Word) (i : Nat) : natBit w.toNat i = decide (argFrom w i % 2 = 1) := by
  rw [natBit, argFrom, Nat.testBit_eq_decide_div_mod_eq]

/-! ## The checks of a command (R48) -/

section Checks

variable {s s1 : State} {n c : Nat} {port : BitVec 3} {w : Word} {bad : Bool} {f : State → CmdEnd}

theorem ctxCommandAt_of_not_owner (ho : s.plat.owner.toNat ≠ port.toNat) : ctxCommandAt n port w bad f s = .next (s.ctxReply port.toNat n 2 0) := if_pos ho

theorem ctxCommandAt_of_busy (ho : s.plat.owner.toNat = port.toNat) (hb : (s.ctx n).cmd.isSome = true) :
    ctxCommandAt n port w bad f s = .next (s.ctxReply port.toNat n 6 0) := by
  rw [ctxCommandAt, if_neg (not_not.2 ho), if_pos hb]

variable (ho : s.plat.owner.toNat = port.toNat) (hf : (s.ctx n).cmd = none)
include ho hf

theorem ctxCommandAt_of_bad (hb : bad = true) : ctxCommandAt n port w bad f s = .next (s.ctxReply port.toNat n 3 0) := by
  simp [ctxCommandAt, ho, hf, hb]

variable (hb : bad = false) (hr : natBits w.toNat 15 14 = 0)
include hb hr

theorem ctxCommandAt_of_fail (he : f s = .fail c) : ctxCommandAt n port w bad f s = .next (s.ctxReply port.toNat n c 0) := by
  simp [ctxCommandAt, ho, hf, hb, hr, he]

theorem ctxCommandAt_of_done (he : f s = .done s1) : ctxCommandAt n port w bad f s = .next (s1.ctxReply port.toNat n 0 0) := by
  simp [ctxCommandAt, ho, hf, hb, hr, he]

theorem ctxCommandAt_of_later (he : f s = .later s1) : ctxCommandAt n port w bad f s =
    .next (s1.ctxBegin n { port := port.toNat, word := w, op1 := wordAt (s.window port.toNat).ctxBox 1 }) := by
  simp [ctxCommandAt, ho, hf, hb, hr, he]

end Checks

theorem inState_of {s : State} {c : Nat} {p : CtxState → Bool} (h : p (s.ctx c).state = true) (f : CmdEnd) : inState c p s f = f := if_pos h
theorem inState_of_not {s : State} {c : Nat} {p : CtxState → Bool} (h : p (s.ctx c).state = false) (f : CmdEnd) : inState c p s f = .fail 1 :=
  if_neg (Bool.eq_false_iff.1 h)

/-! ## Commands that are refused (R48, R49) -/

/-- The outcome is that of a command to the context that the word names. -/
def IsCtxCommand (port : BitVec 3) (w : Word) (s : State) (r : Res) : Prop := ∃ bad f, r = ctxCommandAt (cidOf w) port w bad f s

theorem isCtxCommand_ctxCommand (port : BitVec 3) (w : Word) (s : State) (bad : Bool) (f : State → CmdEnd) : IsCtxCommand port w s (ctxCommand port w bad f s) :=
  ⟨bad, f, rfl⟩

/-- The commands of the owner other than CLAIM, SUSPEND and QUERY. -/
def plainCommands (port : BitVec 3) (w : Word) : List Instr :=
  [.loaddesc port w, .loadkey port w, .activate port w, .resume port w, .retireAbort port w, .retireFinish port w, .release port w, .addquota port w,
    .addframes port w, .setceil port w]

theorem plainCommands_isCtxCommand (port : BitVec 3) (w : Word) (s : State) : ∀ i ∈ plainCommands port w, IsCtxCommand port w s (exec i s) := by
  simp only [plainCommands, List.forall_mem_cons]
  change IsCtxCommand port w s (execLoaddesc port w s) ∧ IsCtxCommand port w s (execLoadkey port w s) ∧ IsCtxCommand port w s (execActivate port w s) ∧
    IsCtxCommand port w s (execResume port w s) ∧ IsCtxCommand port w s (execRetireAbort port w s) ∧ IsCtxCommand port w s (execRetireFinish port w s) ∧
    IsCtxCommand port w s (execRelease port w s) ∧ IsCtxCommand port w s (execAddquota port w s) ∧ IsCtxCommand port w s (execAddframes port w s) ∧
    IsCtxCommand port w s (execSetceil port w s) ∧ ∀ i ∈ [], _
  have h (bad : Bool) (f : State → CmdEnd) := isCtxCommand_ctxCommand port w s bad f
  exact ⟨h .., h .., h .., h .., h .., h .., h .., h .., h .., h .., fun _ h => nomatch h⟩

section Refused

variable {s : State} {port : BitVec 3} {w : Word}

theorem plainCommands_not_owner (ho : s.plat.owner.toNat ≠ port.toNat) :
    ∀ i ∈ plainCommands port w, exec i s = .next (s.ctxReply port.toNat (cidOf w) 2 0) := by
  intro i hi
  obtain ⟨bad, f, e⟩ := plainCommands_isCtxCommand port w s i hi
  rw [e, ctxCommandAt_of_not_owner ho]

theorem plainCommands_busy (ho : s.plat.owner.toNat = port.toNat) (hb : (s.ctx (cidOf w)).cmd.isSome = true) :
    ∀ i ∈ plainCommands port w, exec i s = .next (s.ctxReply port.toNat (cidOf w) 6 0) := by
  intro i hi
  obtain ⟨bad, f, e⟩ := plainCommands_isCtxCommand port w s i hi
  rw [e, ctxCommandAt_of_busy ho hb]

end Refused

/-! ## CLAIM (R47, R51) -/

/-- A slot as CLAIM leaves it (R51). -/
def claimedSlot (s : State) : Context := { Context.reset with state := .claimed, owner := s.plat.owner }

section Claim

variable {s : State} {port : BitVec 3} {w : Word}

theorem execClaim_named (h : w.getLsbD 16 = false) : exec (.claim port w) s =
    ctxCommandAt (cidOf w) port w (decide (argFrom w 17 ≠ 0))
      (fun s => inState (cidOf w) (fun x => decide (x = .free)) s (.done (s.modCtx (cidOf w) fun _ => claimedSlot s))) s := by
  have h' : natBit w.toNat 16 = false := h
  rw [show exec (.claim port w) s = execClaim port w s from rfl]
  simp only [execClaim, h', Bool.false_and, Bool.or_false, if_true]
  rfl

/-- An any-slot CLAIM is granted where its word is as R47 has it and context 0 has no command in progress; else it is a command to context 0 (R48). -/
def anyClaimOk (s : State) (port : BitVec 3) (w : Word) : Prop :=
  s.plat.owner.toNat = port.toNat ∧ (decide (argFrom w 17 ≠ 0) || decide (cidOf w ≠ 0)) = false ∧ natBits w.toNat 15 14 = 0 ∧ (s.ctx 0).cmd = none

theorem execClaim_any_refused (h : w.getLsbD 16 = true) (hn : ¬ anyClaimOk s port w) :
    exec (.claim port w) s = ctxCommandAt 0 port w true (fun _ => .fail 3) s := by
  have h' : natBit w.toNat 16 = true := h
  rw [show exec (.claim port w) s = execClaim port w s from rfl]
  simp only [execClaim, h', Bool.true_and, Bool.true_eq_false, if_false]
  exact if_neg hn

theorem claim_not_owner (ho : s.plat.owner.toNat ≠ port.toNat) :
    exec (.claim port w) s = .next (s.ctxReply port.toNat (if w.getLsbD 16 then 0 else cidOf w) 2 0) := by
  cases h : w.getLsbD 16 with
  | true => rw [execClaim_any_refused h fun hn => ho hn.1, ctxCommandAt_of_not_owner ho, if_pos rfl]
  | false => rw [execClaim_named h, ctxCommandAt_of_not_owner ho, if_neg Bool.false_ne_true]

theorem claim_busy (ho : s.plat.owner.toNat = port.toNat) (hb : (s.ctx (if w.getLsbD 16 then 0 else cidOf w)).cmd.isSome = true) :
    exec (.claim port w) s = .next (s.ctxReply port.toNat (if w.getLsbD 16 then 0 else cidOf w) 6 0) := by
  cases h : w.getLsbD 16 with
  | true =>
    rw [h, if_pos rfl] at hb
    rw [execClaim_any_refused h fun hn => by simp [hn.2.2.2] at hb, ctxCommandAt_of_busy ho hb, if_pos rfl]
  | false =>
    rw [h, if_neg Bool.false_ne_true] at hb
    rw [execClaim_named h, ctxCommandAt_of_busy ho hb, if_neg Bool.false_ne_true]

/-- An any-slot CLAIM that names a context (R47). -/
theorem claim_any_named (ho : s.plat.owner.toNat = port.toNat) (h : w.getLsbD 16 = true) (hc : cidOf w ≠ 0) (hf : (s.ctx 0).cmd = none) :
    exec (.claim port w) s = .next (s.ctxReply port.toNat 0 3 0) := by
  rw [execClaim_any_refused h fun hn => by simpa [hc] using hn.2.1, ctxCommandAt_of_bad ho hf rfl]

/-- The free slots. -/
def freeSlots (s : State) : List Nat := (List.range 64).filter fun c => decide ((s.ctx c).state = .free)

theorem mem_freeSlots {s : State} {n : Nat} : n ∈ freeSlots s ↔ n < 64 ∧ (s.ctx n).state = .free := by
  simp [freeSlots]

/-- The slot that an any-slot CLAIM grants. -/
def grantedSlot (s : State) : Nat := (freeSlots s).getD ((Config.freeWord s.fresh).toNat % (freeSlots s).length) 0

theorem grantedSlot_mem {s : State} (h : freeSlots s ≠ []) : grantedSlot s ∈ freeSlots s := by
  have hl : (Config.freeWord s.fresh).toNat % (freeSlots s).length < (freeSlots s).length := Nat.mod_lt _ (List.length_pos_iff.2 h)
  rw [grantedSlot, List.getD_eq_getElem?_getD, List.getElem?_eq_getElem hl, Option.getD_some]
  exact List.getElem_mem hl

theorem claim_any_granted (h : w.getLsbD 16 = true) (hok : anyClaimOk s port w) (hne : freeSlots s ≠ []) :
    exec (.claim port w) s = .next ((s.tick.modCtx (grantedSlot s) fun _ => claimedSlot s).ctxReply port.toNat 0 0 (grantedSlot s)) := by
  have h' : natBit w.toNat 16 = true := h
  rw [show exec (.claim port w) s = execClaim port w s from rfl]
  simp only [execClaim, h', Bool.true_and, Bool.true_eq_false, if_false]
  exact (if_pos hok).trans (if_neg (by rw [List.isEmpty_iff]; exact hne))

end Claim

/-! ## The mailbox's answer -/

theorem ctxReply_window {s : State} {p : Nat} (hp : p < s.windows.length) (n code slot : Nat) :
    (s.ctxReply p n code slot).window p = { s.window p with ctxStat := (s.window p).ctxStat.set n (statusWord code slot) } :=
  window_modWindow hp _

/-! ## What the parts of a command leave alone -/

theorem ctx_ctxBegin {s : State} {n : Nat} (hn : n < s.contexts.length) (m : Cmd) : (s.ctxBegin n m).ctx n = { s.ctx n with cmd := some m } :=
  ctx_modCtx hn _

/-- Row instructions that go on change the row stacks alone (R307). -/
theorem resumeRows_keeps {β : Type} (π : State → β) (h : ∀ s r, π { s with rows := r } = π s) (s : State) (u : Nat) : π (s.resumeRows u) = π s := by
  unfold State.resumeRows
  exact foldl_keeps π (fun s o => foldl_keeps π (fun s r => (h _ _).trans (h _ _)) _ s) _ s

/-- Groups that go on change themselves and the row stacks alone (R92, R307). -/
theorem unstick_keeps {β : Type} (π : State → β) (hr : ∀ s r, π { s with rows := r } = π s) (hg : ∀ s gs, π { s with groups := gs } = π s)
    (s : State) (p : Group → Bool) : π (s.unstick p) = π s := by
  unfold State.unstick
  exact (foldl_keeps π (fun s (g : Group) => resumeRows_keeps π hr s g.uid) _ _).trans (hg _ _)

theorem unstick_contexts (s : State) (p : Group → Bool) : (s.unstick p).contexts = s.contexts :=
  unstick_keeps State.contexts (fun _ _ => rfl) (fun _ _ => rfl) s p
theorem unstick_mem (s : State) (p : Group → Bool) : (s.unstick p).mem = s.mem :=
  unstick_keeps State.mem (fun _ _ => rfl) (fun _ _ => rfl) s p

theorem ctx_of_contexts_eq {s s' : State} (h : s'.contexts = s.contexts) (c : Nat) : s'.ctx c = s.ctx c := by
  rw [State.ctx, h, State.ctx]

/-- The descriptor as LOADDESC latches it (R41). -/
def latchDesc (d : List Word) (x : Context) : Context :=
  { x with
    desc := true, pceil := (wordAt d 0).extractLsb' 0 3, root := (wordAt d 0).extractLsb' 12 40, fflh := (wordAt d 1).extractLsb' 12 40,
    ffln := (wordAt d 2).extractLsb' 0 32, flow := (wordAt d 2).extractLsb' 32 32, wq := (wordAt d 3).extractLsb' 0 41,
    ba := (wordAt d 4).extractLsb' 0 7, saveb := (wordAt d 5).extractLsb' 12 40, saven := (wordAt d 6).extractLsb' 0 32,
    armed := true, latched := d }

/-- The checks of a wrapped key record (R443). -/
theorem record_ok {w : Word} {r : List Byte} (ha : argFrom w 62 = 0) (h0 : r.getD 0 0 = 1) (h2 : ∀ b ∈ (r.drop 2).take 6, b = 0) (h80 : ∀ b ∈ r.drop 80, b = 0) :
    (decide (argFrom w 62 ≠ 0) || decide (r.getD 0 0 ≠ 1) || !(((r.drop 2).take 6).all fun b => b == 0) || !((r.drop 80).all fun b => b == 0)) = false := by
  have e2 : (((r.drop 2).take 6).all fun b => b == 0) = true := List.all_eq_true.2 fun b hb => beq_iff_eq.2 (h2 b hb)
  have e80 : ((r.drop 80).all fun b => b == 0) = true := List.all_eq_true.2 fun b hb => beq_iff_eq.2 (h80 b hb)
  rw [e2, e80, h0, ha]
  rfl

/-! ## The commands of the owner (R47, R51) -/

section Commands

variable {s : State} {port : BitVec 3} {w : Word} (ho : s.plat.owner.toNat = port.toNat) (hf : (s.ctx (cidOf w)).cmd = none) (hr : natBits w.toNat 15 14 = 0)
include ho hf hr

theorem claim_done (ha : argFrom w 16 = 0) (hst : (s.ctx (cidOf w)).state = .free) :
    exec (.claim port w) s = .next ((s.modCtx (cidOf w) fun _ => claimedSlot s).ctxReply port.toNat (cidOf w) 0 0) := by
  rw [execClaim_named ((bit_eq_argFrom w 16).trans (by simp [ha]))]
  exact ctxCommandAt_of_done ho hf (by simp [argFrom_succ w 16, ha]) hr (inState_of (by simp [hst]) _)

theorem claim_taken (ha : argFrom w 16 = 0) (hst : (s.ctx (cidOf w)).state ≠ .free) :
    exec (.claim port w) s = .next (s.ctxReply port.toNat (cidOf w) 1 0) := by
  rw [execClaim_named ((bit_eq_argFrom w 16).trans (by simp [ha]))]
  exact ctxCommandAt_of_fail ho hf (by simp [argFrom_succ w 16, ha]) hr (inState_of_not (by simp [hst]) _)

omit hr in
theorem loaddesc_bad (hd : s.descOk (wordsOf 8 (s.sysRead (natBits w.toNat 61 16 * 64) 64)) = false) :
    exec (.loaddesc port w) s = .next (s.ctxReply port.toNat (cidOf w) 3 0) := by
  rw [show exec (.loaddesc port w) s = execLoaddesc port w s from rfl, execLoaddesc]
  exact ctxCommandAt_of_bad ho hf (by simp [hd])

theorem activate_begins (ha : argFrom w 16 = 0) (hst : (s.ctx (cidOf w)).state = .claimed) (hd : (s.ctx (cidOf w)).desc = true)
    (hk : (s.ctx (cidOf w)).key.isSome = true) : exec (.activate port w) s = .next ((s.modCtx (cidOf w) fun x => { x with state := .scrubbing }).ctxBegin (cidOf w)
      { port := port.toNat, word := w, op1 := wordAt (s.window port.toNat).ctxBox 1 }) := by
  rw [show exec (.activate port w) s = execActivate port w s from rfl, execActivate]
  exact ctxCommandAt_of_later ho hf (by simp [ha]) hr ((inState_of (by simp [hst]) _).trans (if_pos ⟨hd, hk⟩))

theorem activate_unloaded (ha : argFrom w 16 = 0) (hst : (s.ctx (cidOf w)).state = .claimed)
    (hl : (s.ctx (cidOf w)).desc = false ∨ (s.ctx (cidOf w)).key = none) : exec (.activate port w) s = .next (s.ctxReply port.toNat (cidOf w) 5 0) := by
  rw [show exec (.activate port w) s = execActivate port w s from rfl, execActivate]
  refine ctxCommandAt_of_fail ho hf (by simp [ha]) hr ((inState_of (by simp [hst]) _).trans (if_neg ?_))
  rintro ⟨hd, hk⟩
  rcases hl with h | h
  · simp [h] at hd
  · simp [h] at hk

theorem resume_done (ha : argFrom w 16 = 0) (hst : (s.ctx (cidOf w)).state = .suspended) :
    exec (.resume port w) s = .next (((s.modCtx (cidOf w) fun x => { x with state := .ready }).unstick
      fun g => g.cid == cidOf w && s.unheldKernel g).ctxReply port.toNat (cidOf w) 0 0) := by
  rw [show exec (.resume port w) s = execResume port w s from rfl, execResume]
  exact ctxCommandAt_of_done ho hf (by simp [ha]) hr (inState_of (by simp [hst]) _)

theorem resume_not_suspended (ha : argFrom w 16 = 0) (hst : (s.ctx (cidOf w)).state ≠ .suspended) :
    exec (.resume port w) s = .next (s.ctxReply port.toNat (cidOf w) 1 0) := by
  rw [show exec (.resume port w) s = execResume port w s from rfl, execResume]
  exact ctxCommandAt_of_fail ho hf (by simp [ha]) hr (inState_of_not (by simp [hst]) _)

theorem release_retired (ha : argFrom w 16 = 0) (hst : (s.ctx (cidOf w)).state = .retired) :
    exec (.release port w) s = .next ((s.modCtx (cidOf w) fun _ => Context.reset).ctxReply port.toNat (cidOf w) 0 0) := by
  rw [show exec (.release port w) s = execRelease port w s from rfl, execRelease]
  exact ctxCommandAt_of_done ho hf (by simp [ha]) hr ((if_neg (by simp [hst])).trans (if_pos hst))

theorem retireAbort_begins (ha : argFrom w 16 = 0) (hst : (s.ctx (cidOf w)).state.live = true) :
    exec (.retireAbort port w) s = .next ((s.drainContext (cidOf w) true 0x01).ctxBegin (cidOf w)
      { port := port.toNat, word := w, op1 := wordAt (s.window port.toNat).ctxBox 1 }) := by
  rw [show exec (.retireAbort port w) s = execRetireAbort port w s from rfl, execRetireAbort]
  exact ctxCommandAt_of_later ho hf (by simp [ha]) hr (inState_of hst _)

theorem retireAbort_not_live (ha : argFrom w 16 = 0) (hst : (s.ctx (cidOf w)).state.live = false) :
    exec (.retireAbort port w) s = .next (s.ctxReply port.toNat (cidOf w) 1 0) := by
  rw [show exec (.retireAbort port w) s = execRetireAbort port w s from rfl, execRetireAbort]
  exact ctxCommandAt_of_fail ho hf (by simp [ha]) hr (inState_of_not hst _)

theorem retireFinish_begins (ha : argFrom w 16 = 1) (hst : (s.ctx (cidOf w)).state.live = true) :
    exec (.retireFinish port w) s = .next (((s.drainContext (cidOf w) false 0x01).unstick fun g => g.cid == cidOf w && s.unheldKernel g).ctxBegin (cidOf w)
      { port := port.toNat, word := w, op1 := wordAt (s.window port.toNat).ctxBox 1 }) := by
  rw [show exec (.retireFinish port w) s = execRetireFinish port w s from rfl, execRetireFinish]
  exact ctxCommandAt_of_later ho hf (by simp [ha]) hr (inState_of hst _)

theorem addquota_done (ha : argFrom w 57 = 0) (hst : (s.ctx (cidOf w)).state.early = true) (hq : (s.ctx (cidOf w)).wq.toInt + (natBits w.toNat 56 16 : Nat) < 2 ^ 40) :
    exec (.addquota port w) s = .next ((s.modCtx (cidOf w) fun y =>
      { y with wq := BitVec.ofInt 41 ((s.ctx (cidOf w)).wq.toInt + (natBits w.toNat 56 16 : Nat)) }).ctxReply port.toNat (cidOf w) 0 0) := by
  rw [show exec (.addquota port w) s = execAddquota port w s from rfl, execAddquota]
  exact ctxCommandAt_of_done ho hf (by simp [ha]; omega) hr (inState_of hst _)

theorem addframes_done (ha : argFrom w 56 = 0) (hst : (s.ctx (cidOf w)).state.early = true) (hg : s.goodFrame (natBits w.toNat 55 16 * 4096) = true) :
    exec (.addframes port w) s = .next ((s.addFrames (cidOf w) (natBits w.toNat 55 16 * 4096)).ctxReply port.toNat (cidOf w) 0 0) := by
  rw [show exec (.addframes port w) s = execAddframes port w s from rfl, execAddframes]
  exact ctxCommandAt_of_done ho hf (by simp [ha, hg]) hr (inState_of hst _)

theorem setceil_done (ha : argFrom w 19 = 0) (hst : (s.ctx (cidOf w)).state.early = true) :
    exec (.setceil port w) s = .next ((s.modCtx (cidOf w) fun x => { x with pceil := w.extractLsb' 16 3 }).ctxReply port.toNat (cidOf w) 0 0) := by
  rw [show exec (.setceil port w) s = execSetceil port w s from rfl, execSetceil]
  exact ctxCommandAt_of_done ho hf (by simp [ha]) hr (inState_of hst _)

theorem loadkey_done {key : BitVec 512} (ha : argFrom w 62 = 0) (hst : (s.ctx (cidOf w)).state = .claimed)
    (h0 : (s.sysRead (natBits w.toNat 61 16 * 64) 128).getD 0 0 = 1) (h2 : ∀ b ∈ ((s.sysRead (natBits w.toNat 61 16 * 64) 128).drop 2).take 6, b = 0)
    (h80 : ∀ b ∈ (s.sysRead (natBits w.toNat 61 16 * 64) 128).drop 80, b = 0) (hk : s.unwrapKey (s.sysRead (natBits w.toNat 61 16 * 64) 128) = .ok key) :
    exec (.loadkey port w) s = .next ((s.modCtx (cidOf w) fun x => { x with key := some key }).ctxReply port.toNat (cidOf w) 0 0) := by
  rw [show exec (.loadkey port w) s = execLoadkey port w s from rfl, execLoadkey]
  exact ctxCommandAt_of_done ho hf (record_ok ha h0 h2 h80) hr ((inState_of (by simp [hst]) _).trans (by simp only [hk]))

theorem loadkey_fails {e : Nat} (ha : argFrom w 62 = 0) (hst : (s.ctx (cidOf w)).state = .claimed)
    (h0 : (s.sysRead (natBits w.toNat 61 16 * 64) 128).getD 0 0 = 1) (h2 : ∀ b ∈ ((s.sysRead (natBits w.toNat 61 16 * 64) 128).drop 2).take 6, b = 0)
    (h80 : ∀ b ∈ (s.sysRead (natBits w.toNat 61 16 * 64) 128).drop 80, b = 0) (hk : s.unwrapKey (s.sysRead (natBits w.toNat 61 16 * 64) 128) = .error e) :
    exec (.loadkey port w) s = .next (s.ctxReply port.toNat (cidOf w) e 0) := by
  rw [show exec (.loadkey port w) s = execLoadkey port w s from rfl, execLoadkey]
  exact ctxCommandAt_of_fail ho hf (record_ok ha h0 h2 h80) hr ((inState_of (by simp [hst]) _).trans (by simp only [hk]))

theorem loaddesc_done (ha : argFrom w 62 = 0) (hst : (s.ctx (cidOf w)).state = .claimed)
    (hd : s.descOk (wordsOf 8 (s.sysRead (natBits w.toNat 61 16 * 64) 64)) = true) :
    exec (.loaddesc port w) s = .next (((s.tick.modCtx (cidOf w) (latchDesc (wordsOf 8 (s.sysRead (natBits w.toNat 61 16 * 64) 64)))).frameLow
      (cidOf w) s.someDie 0).ctxReply port.toNat (cidOf w) 0 0) := by
  rw [show exec (.loaddesc port w) s = execLoaddesc port w s from rfl, execLoaddesc]
  exact ctxCommandAt_of_done ho hf (by simp [ha, hd]) hr (inState_of (by simp [hst]) _)

theorem suspend_begins (ha : argFrom w 16 = 0) (hst : (s.ctx (cidOf w)).state = .ready ∨ (s.ctx (cidOf w)).state = .running) :
    exec (.suspend port w) s = .next (((((s.modCtx (cidOf w) fun x => { x with state := .suspended }).saveAll fun g => g.cid == cidOf w)).ctxBegin (cidOf w)
      { port := port.toNat, word := w, op1 := wordAt (s.window port.toNat).ctxBox 1 }).settleSuspend (cidOf w)) := by
  rw [show exec (.suspend port w) s = execSuspend port w s from rfl, execSuspend, ctxCommand,
    ctxCommandAt_of_later ho hf (by simp [ha]) hr (inState_of (by simpa using hst) _)]

end Commands

/-! ## What LOADDESC leaves (R41, R42) -/

theorem memOnly_contexts {s s' : State} (h : Laws.MemOnly s s') : s'.contexts = s.contexts := by
  unfold Laws.MemOnly at h
  rw [h]
theorem memOnly_queues {s s' : State} (h : Laws.MemOnly s s') : s'.queues = s.queues := by
  unfold Laws.MemOnly at h
  rw [h]
theorem memOnly_kernels {s s' : State} (h : Laws.MemOnly s s') : s'.kernels = s.kernels := by
  unfold Laws.MemOnly at h
  rw [h]

theorem postPage_contexts (s : State) (r : List Word) : (s.postPage r).contexts = s.contexts := by
  obtain ⟨s1, q, h, e⟩ := Laws.postPage_frame s r
  rw [e]
  exact (memOnly_contexts h : s1.contexts = s.contexts)

/-- The frame-low event disarms itself and leaves the slot otherwise. -/
theorem ctx_frameLow {s : State} {c : Nat} (hc : c < s.contexts.length) (die : Nat) (w1 : Word) :
    ∃ b, (s.frameLow c die w1).ctx c = { s.ctx c with armed := b } := by
  unfold State.frameLow
  dsimp only
  split
  · exact ⟨false, (ctx_of_contexts_eq (postPage_contexts _ _) c).trans (ctx_modCtx hc _)⟩
  · exact ⟨_, rfl⟩

/-! ## What SUSPEND leaves (R53, R90) -/

/-- A change of the first element that `p` accepts shows in no search that passes over it before and after. -/
theorem find_modFirst_of_disjoint {α : Type} {p q : α → Bool} {f : α → α} (h : ∀ a, p a = true → q a = false ∧ q (f a) = false) :
    ∀ l : List α, (modFirst p f l).find? q = l.find? q
  | [] => rfl
  | a :: as => by
    cases e : p a with
    | true => simp [modFirst, e, h a e]
    | false => simp [modFirst, e, List.find?_cons, find_modFirst_of_disjoint h as]

theorem group_modGroup_ne {u v : Nat} (h : v ≠ u) (s : State) (f : Group → Group) (hf : ∀ g, (f g).uid = g.uid) : (s.modGroup v f).group? u = s.group? u :=
  find_modFirst_of_disjoint (by intro g hg; simp_all) s.groups

/-- A fold over elements one of which takes an object to where every further one leaves it. -/
theorem foldl_reaches {α β : Type} {get : State → Option β} {f : State → α → State} {hit : α → Prop} {a b : β}
    (first : ∀ s x, hit x → get s = some a → get (f s x) = some b) (again : ∀ s x, hit x → get s = some b → get (f s x) = some b)
    (other : ∀ s x, ¬ hit x → get (f s x) = get s) (l : List α) (hl : ∃ x ∈ l, hit x) (s : State) (hs : get s = some a) : get (l.foldl f s) = some b := by
  have stays (l : List α) : ∀ s, get s = some b → get (l.foldl f s) = some b := by
    induction l with
    | nil => exact fun s h => h
    | cons x l ih =>
      intro s h
      by_cases hx : hit x
      · exact ih _ (again s x hx h)
      · exact ih _ ((other s x hx).trans h)
  induction l generalizing s with
  | nil => simp at hl
  | cons x l ih =>
    by_cases hx : hit x
    · exact stays l _ (first s x hx hs)
    · refine ih ?_ _ ((other s x hx).trans hs)
      obtain ⟨y, hy, hh⟩ := hl
      rcases List.mem_cons.1 hy with rfl | hy
      · exact absurd hh hx
      · exact ⟨y, hy, hh⟩

/-- A group that SUSPEND or KHOLD stops (R90, R92). -/
def heldBack (g : Group) : Group := { g with stage := .stopping, reason := 3 }

theorem group_requestSave_ne {u v : Nat} (h : v ≠ u) (s : State) (r : BitVec 2) : (s.requestSave v r).group? u = s.group? u :=
  group_modGroup_ne h s _ fun g => by split <;> [rfl; (split <;> rfl)]

theorem group_requestSave (s : State) (u : Nat) : (s.requestSave u 3).group? u = (s.group? u).map fun g =>
    if g.stage = .resident then heldBack g else if g.stage = .stopping ∧ g.reason = 0 ∧ (3 : BitVec 2) = 3 then { g with reason := 3 } else g :=
  Laws.group_modGroup s u _ fun g => by split <;> [rfl; (split <;> rfl)]

theorem group_of_find {s : State} {u : Nat} {g : Group} (hg : s.group? u = some g) : g ∈ s.groups ∧ g.uid = u :=
  ⟨List.mem_of_find?_eq_some hg, beq_iff_eq.1 (List.find?_some (p := fun g : Group => g.uid == u) hg)⟩

/-- Every resident group that `p` selects is stopped. -/
theorem saveAll_stops {s : State} {u : Nat} {g : Group} {p : Group → Bool} (hg : s.group? u = some g) (hp : p g = true) (hr : g.stage = .resident) :
    (s.saveAll p).group? u = some (heldBack g) := by
  obtain ⟨hm, hu⟩ := group_of_find hg
  refine foldl_reaches (get := fun s => s.group? u) (hit := fun h : Group => h.uid = u) ?_ ?_ (fun s x hx => group_requestSave_ne hx s 3) _
    ⟨g, List.mem_filter.2 ⟨hm, hp⟩, hu⟩ s hg
  · intro s x hx hs
    simp only [hx, group_requestSave, hs, Option.map_some, hr, if_true]
  · intro s x hx hs
    simp only [hx, group_requestSave, hs, Option.map_some]
    simp [heldBack]

theorem saveAll_contexts (s : State) (p : Group → Bool) : (s.saveAll p).contexts = s.contexts := by
  unfold State.saveAll
  exact foldl_keeps State.contexts (f := fun s (g : Group) => s.requestSave g.uid 3) (fun _ _ => rfl) _ s

theorem ctxEnd_groups (s : State) (c code : Nat) : (s.ctxEnd c code).groups = s.groups := by
  unfold State.ctxEnd
  split <;> rfl

theorem settleSuspend_groups (s : State) (c : Nat) : (s.settleSuspend c).groups = s.groups := by
  unfold State.settleSuspend
  split
  · split
    · exact ctxEnd_groups ..
    · rfl
  · rfl

theorem ctxEnd_state {s : State} {c : Nat} (hc : c < s.contexts.length) (code : Nat) : ((s.ctxEnd c code).ctx c).state = (s.ctx c).state := by
  unfold State.ctxEnd
  split
  · rfl
  · exact (congrArg Context.state (ctx_modCtx hc fun x => { x with cmd := none }) :)

theorem settleSuspend_state {s : State} {c : Nat} (hc : c < s.contexts.length) : ((s.settleSuspend c).ctx c).state = (s.ctx c).state := by
  unfold State.settleSuspend
  split
  · split
    · exact ctxEnd_state hc _
    · rfl
  · rfl

/-! ## What the end of services leaves (R368, R371) -/

/-- A kernel apart from the served fault of its snapshot. -/
def unwaited (k : Kernel) : Kernel := { k with wait := false, failed := false }

/-- `s'` has the contexts and the queues of `s`, and its kernels but for the served faults of their snapshots. -/
structure SameTables (s s' : State) : Prop where
  contexts : s'.contexts = s.contexts
  queues : s'.queues = s.queues
  kernels : s'.kernels.map unwaited = s.kernels.map unwaited

theorem SameTables.refl (s : State) : SameTables s s := ⟨rfl, rfl, rfl⟩
theorem SameTables.trans {s s1 s2 : State} (h : SameTables s s1) (g : SameTables s1 s2) : SameTables s s2 :=
  ⟨g.contexts.trans h.contexts, g.queues.trans h.queues, g.kernels.trans h.kernels⟩
theorem SameTables.of_mmu (s : State) (m : Mmu) : SameTables s { s with mmu := m } := ⟨rfl, rfl, rfl⟩
theorem SameTables.of_memOnly {s s' : State} (h : Laws.MemOnly s s') : SameTables s s' :=
  ⟨memOnly_contexts h, memOnly_queues h, congrArg _ (memOnly_kernels h)⟩

/-- A fold is related as its steps are. -/
theorem foldl_rel {α : Type} {R : State → State → Prop} (refl : ∀ s, R s s) (trans : ∀ {a b c}, R a b → R b c → R a c) {f : State → α → State}
    (h : ∀ s a, R s (f s a)) : ∀ (l : List α) (s : State), R s (l.foldl f s)
  | [], s => refl s
  | a :: l, s => trans (h s a) (foldl_rel refl trans h l (f s a))

theorem map_modFirst {α β : Type} {p : α → Bool} {f : α → α} {π : α → β} (h : ∀ a, π (f a) = π a) : ∀ l : List α, (modFirst p f l).map π = l.map π
  | [] => rfl
  | a :: as => by
    cases e : p a with
    | true => simp [modFirst, e, h]
    | false => simp [modFirst, e, map_modFirst h as]

theorem tellWaiter_sameTables (s : State) (replay : Bool) (x : Waiter) : SameTables s (s.tellWaiter replay x) := by
  cases x with
  | snap u => exact ⟨rfl, rfl, map_modFirst (f := fun k : Kernel => { k with wait := false, failed := k.failed || !replay }) (fun _ => rfl) s.kernels⟩
  | strand g k => exact ⟨rfl, rfl, rfl⟩
  | chan g k c => exact ⟨rfl, rfl, rfl⟩
  | cat i => exact ⟨rfl, rfl, rfl⟩
  | row i => exact ⟨rfl, rfl, rfl⟩
  | arc i => exact ⟨rfl, rfl, rfl⟩

theorem postPage_sameTables (s : State) (r : List Word) : SameTables s (s.postPage r) := by
  obtain ⟨s1, q, h, e⟩ := Laws.postPage_frame s r
  have h1 := SameTables.of_memOnly h
  rw [e]
  exact ⟨h1.contexts, h1.queues, h1.kernels⟩

theorem takePend_sameTables {s s' : State} {r : FaultReq} (h : s.takePend r = some s') : SameTables s s' := by
  unfold State.takePend at h
  dsimp only at h
  split at h
  · cases h
    exact tellWaiter_sameTables ..
  · split at h
    · cases h
      exact ⟨rfl, rfl, rfl⟩
    · obtain ⟨i, -, h⟩ := Option.map_eq_some_iff.1 h
      split at h <;> cases h
      · exact (SameTables.of_mmu s _).trans (postPage_sameTables ..)
      · exact ⟨rfl, rfl, rfl⟩

theorem serveQueue_sameTables (s : State) : SameTables s s.serveQueue := by
  unfold State.serveQueue
  refine (SameTables.of_mmu s _).trans (foldl_rel SameTables.refl SameTables.trans ?_ _ _)
  intro s r
  cases h : s.takePend r with
  | none => exact ⟨rfl, rfl, rfl⟩
  | some s' => exact takePend_sameTables h

theorem freeFaults_sameTables (s : State) (c : Nat) : SameTables s (s.freeFaults c) :=
  (SameTables.of_mmu s _).trans (serveQueue_sameTables _)

/-- A kernel keeps its stage and its status. -/
theorem SameTables.kernel {s s' : State} (h : SameTables s s') {u : Nat} {k : Kernel} (hk : s.kernel? u = some k) :
    ∃ k', s'.kernel? u = some k' ∧ k'.stage = k.stage ∧ k'.status = k.status := by
  have look (l : List Kernel) : (l.map unwaited).find? (fun k => k.uid == u) = (l.find? fun k => k.uid == u).map unwaited := List.find?_map ..
  have e : (s'.kernel? u).map unwaited = some (unwaited k) := by
    rw [State.kernel?, ← look, h.kernels, look, ← State.kernel?, hk, Option.map_some]
  obtain ⟨k', hk', hu⟩ := Option.map_eq_some_iff.1 e
  exact ⟨k', hk', (congrArg Kernel.stage hu :), (congrArg Kernel.status hu :)⟩

/-! ## Draining a context (R51, R54) -/

/-- A kernel that aborts (R82). -/
def abortedKernel (k : Kernel) (status : Byte) : Kernel := { k with stage := .draining, status := some (k.status.getD status) }

theorem kernel_modKernel_ne {u v : Nat} (h : v ≠ u) (s : State) (f : Kernel → Kernel) (hf : ∀ k, (f k).uid = k.uid) :
    (s.modKernel v f).kernel? u = s.kernel? u :=
  find_modFirst_of_disjoint (by intro k hk; simp_all) s.kernels

theorem kernel_abortKernel {s : State} {u : Nat} {k : Kernel} (hk : s.kernel? u = some k) (hd : k.stage ≠ .draining) (status : Byte) :
    (s.abortKernel u status).kernel? u = some (abortedKernel k status) := by
  have e : (s.modKernel u fun k => abortedKernel k status).kernel? u = (s.kernel? u).map fun k => abortedKernel k status :=
    kernel_modKernel s u _ fun _ => rfl
  rw [hk] at e
  simp only [State.abortKernel, hk, hd, if_false]
  exact e

theorem abortKernel_draining {s : State} {u : Nat} {k : Kernel} (hk : s.kernel? u = some k) (hd : k.stage = .draining) (status : Byte) :
    s.abortKernel u status = s := by
  simp only [State.abortKernel, hk, hd, if_true]

theorem kernel_abortKernel_ne {u v : Nat} (h : v ≠ u) (s : State) (status : Byte) : (s.abortKernel v status).kernel? u = s.kernel? u := by
  unfold State.abortKernel
  split
  · rfl
  · split
    · rfl
    · exact kernel_modKernel_ne h s _ fun _ => rfl

theorem abortKernel_contexts (s : State) (u : Nat) (status : Byte) : (s.abortKernel u status).contexts = s.contexts := by rw [Laws.abortKernel_frame]
theorem abortKernel_queues (s : State) (u : Nat) (status : Byte) : (s.abortKernel u status).queues = s.queues := by rw [Laws.abortKernel_frame]

theorem kernel_of_find {s : State} {u : Nat} {k : Kernel} (hk : s.kernel? u = some k) : k ∈ s.kernels ∧ k.uid = u :=
  ⟨List.mem_of_find?_eq_some hk, beq_iff_eq.1 (List.find?_some (p := fun k : Kernel => k.uid == u) hk)⟩

/-- A queue of the context drains with status 0x40 (R72). -/
def drainQueue (c : Nat) (q : Queue) : Queue := if q.cid == c && decide (q.state ≠ .unbound) then { q with state := .draining, dstatus := 0x40 } else q

/-- The context and its queues at the start of a drain, before its kernels abort. -/
def drainStart (s : State) (c : Nat) (abort : Bool) : State :=
  { s.modCtx c fun x => { x with state := .draining, aborting := abort } with queues := s.queues.map (drainQueue c) }
/-- Every kernel of the context aborts. -/
def abortKernels (s : State) (c : Nat) (status : Byte) : State := (s.kernels.filter fun k => k.cid == c).foldl (fun s k => s.abortKernel k.uid status) s

theorem drainContext_abort (s : State) (c : Nat) (status : Byte) :
    s.drainContext c true status = (abortKernels (drainStart s c true) c status).freeFaults c := rfl

theorem abortKernels_contexts (s : State) (c : Nat) (status : Byte) : (abortKernels s c status).contexts = s.contexts :=
  foldl_keeps State.contexts (f := fun s (k : Kernel) => s.abortKernel k.uid status) (fun s k => abortKernel_contexts s k.uid status) _ s
theorem abortKernels_queues (s : State) (c : Nat) (status : Byte) : (abortKernels s c status).queues = s.queues :=
  foldl_keeps State.queues (f := fun s (k : Kernel) => s.abortKernel k.uid status) (fun s k => abortKernel_queues s k.uid status) _ s

theorem abortKernels_kernel {s : State} {c u : Nat} {k : Kernel} (hk : s.kernel? u = some k) (hc : k.cid = c) (hd : k.stage ≠ .draining) (status : Byte) :
    (abortKernels s c status).kernel? u = some (abortedKernel k status) := by
  obtain ⟨hm, hu⟩ := kernel_of_find hk
  refine foldl_reaches (get := fun s => s.kernel? u) (hit := fun j : Kernel => j.uid = u) ?_ ?_ (fun s x hx => kernel_abortKernel_ne hx s status) _
    ⟨k, List.mem_filter.2 ⟨hm, by simpa using hc⟩, hu⟩ s hk
  · intro s x hx hs
    rw [hx]
    exact kernel_abortKernel hs hd status
  · intro s x hx hs
    rw [hx, abortKernel_draining hs rfl]
    exact hs

theorem drainContext_contexts (s : State) (c : Nat) (abort : Bool) (status : Byte) :
    (s.drainContext c abort status).contexts = (s.modCtx c fun x => { x with state := .draining, aborting := abort }).contexts := by
  cases abort with
  | true => rw [drainContext_abort, (freeFaults_sameTables _ c).contexts, abortKernels_contexts]; rfl
  | false => rfl

theorem drainContext_queues (s : State) (c : Nat) (abort : Bool) (status : Byte) : (s.drainContext c abort status).queues = s.queues.map (drainQueue c) := by
  cases abort with
  | true => rw [drainContext_abort, (freeFaults_sameTables _ c).queues, abortKernels_queues]; rfl
  | false => rfl

theorem drainContext_ctx {s : State} {c : Nat} (hc : c < s.contexts.length) (abort : Bool) (status : Byte) :
    (s.drainContext c abort status).ctx c = { s.ctx c with state := .draining, aborting := abort } :=
  (ctx_of_contexts_eq (drainContext_contexts ..) c).trans (ctx_modCtx hc _)

/-- In abort mode each kernel of the context that was not draining drains with the status (R54). -/
theorem drainContext_kernel {s : State} {c u : Nat} {k : Kernel} (hk : s.kernel? u = some k) (hc : k.cid = c) (hd : k.stage ≠ .draining) (status : Byte) :
    ∃ k', (s.drainContext c true status).kernel? u = some k' ∧ k'.stage = .draining ∧ k'.status = some (k.status.getD status) :=
  (freeFaults_sameTables _ c).kernel (abortKernels_kernel (s := drainStart s c true) hk hc hd status)

/-! ## What discarding a record leaves (R72) -/

/-- `s'` has the contexts of `s`, in whatever state; its queues are bound to the same contexts, and what was unbound is so. -/
structure KeepsBindings (s s' : State) : Prop where
  contexts : s'.contexts.length = s.contexts.length
  cid : ∀ n, (s'.queue n).cid = (s.queue n).cid
  unbound : ∀ n, (s.queue n).state = .unbound → (s'.queue n).state = .unbound

theorem KeepsBindings.refl (s : State) : KeepsBindings s s := ⟨rfl, fun _ => rfl, fun _ h => h⟩
theorem KeepsBindings.trans {s s1 s2 : State} (h : KeepsBindings s s1) (g : KeepsBindings s1 s2) : KeepsBindings s s2 :=
  ⟨g.contexts.trans h.contexts, fun n => (g.cid n).trans (h.cid n), fun n hn => g.unbound n (h.unbound n hn)⟩

theorem KeepsBindings.of_queues {s s' : State} (hc : s'.contexts.length = s.contexts.length) (hq : s'.queues = s.queues) : KeepsBindings s s' := by
  refine ⟨hc, fun n => ?_, fun n h => ?_⟩
  · rw [State.queue, hq, State.queue]
  · rw [State.queue, hq]
    exact h

theorem KeepsBindings.of_memOnly {s s' : State} (h : Laws.MemOnly s s') : KeepsBindings s s' :=
  .of_queues (congrArg _ (memOnly_contexts h)) (memOnly_queues h)

theorem KeepsBindings.of_walkOnly {s s' : State} (h : Laws.WalkOnly s s') : KeepsBindings s s' := by
  have hl := congrArg List.length h.contexts
  rw [List.length_map, List.length_map] at hl
  exact .of_queues hl (by rw [h.rest])

/-- A change of a queue that neither binds nor unbinds it. -/
theorem KeepsBindings.of_modQueue (s : State) (n : Nat) {f : Queue → Queue} (hc : ∀ q, (f q).cid = q.cid) (hs : ∀ q, (f q).state = q.state) :
    KeepsBindings s (s.modQueue n f) := by
  refine ⟨rfl, fun m => ?_, fun m h => ?_⟩ <;> rw [queue_modQueue] <;> split
  · exact hc _
  · rfl
  · rw [hs]
    exact h
  · exact h

theorem postOwner_keepsBindings (s : State) (r : List Word) : KeepsBindings s (s.postOwner r) := by
  rcases Laws.postOwner_cases s r with ⟨-, e⟩ | ⟨-, e⟩ <;> rw [e]
  · obtain ⟨s1, q, hm, e | e⟩ := Laws.postTo_frame s s.plat.owner.toNat r <;> rw [e]
    · exact .refl s
    · exact (KeepsBindings.of_memOnly hm).trans (.of_queues rfl rfl)
  · exact .of_queues rfl rfl

theorem drainQueue_cid (c : Nat) (q : Queue) : (drainQueue c q).cid = q.cid := by
  unfold drainQueue
  split <;> rfl

theorem drainQueue_unbound {c : Nat} {q : Queue} (h : q.state = .unbound) : drainQueue c q = q := by
  simp [drainQueue, h]

theorem drainContext_queue (s : State) (c : Nat) (abort : Bool) (status : Byte) (n : Nat) : (s.drainContext c abort status).queue n = drainQueue c (s.queue n) := by
  have hr : drainQueue c Queue.reset = Queue.reset := drainQueue_unbound rfl
  rw [State.queue, drainContext_queues, ← hr, List.getD_map, State.queue]

theorem drainContext_keepsBindings (s : State) (c : Nat) (abort : Bool) (status : Byte) : KeepsBindings s (s.drainContext c abort status) := by
  refine ⟨?_, fun n => ?_, fun n h => ?_⟩
  · rw [drainContext_contexts]
    exact Laws.modAt_length _ s.contexts c
  · rw [drainContext_queue, drainQueue_cid]
  · rw [drainContext_queue, drainQueue_unbound h, h]

theorem contextError_keepsBindings (s : State) (c reason detail pa : Nat) : KeepsBindings s (s.contextError c reason detail pa) := by
  unfold State.contextError
  split
  · exact (postOwner_keepsBindings ..).trans (drainContext_keepsBindings ..)
  · exact .refl s

/-- A translation reaches what `translate_walkOnly` says, and then the context where its tables are in error (R337, R355). -/
theorem translate_reaches (s : State) (p : Party) (cid : Nat) (va : Word) (kind : Acc) :
    ∃ s1, Laws.WalkOnly s s1 ∧ ((s.translate p cid va kind).2 = s1 ∨ ∃ r d pa, (s.translate p cid va kind).2 = s1.contextError cid r d pa) := by
  have z : Laws.WalkOnly s s.tick := Laws.tick_walkOnly s
  simp only [State.translate]
  generalize hr : (if BitVec.extractLsb' 57 7 va ≠ 0#7 then (Xlat.trap 0x08 0, s.tick) else _ : Xlat × State) = q
  have hq : Laws.WalkOnly s q.2 := by
    rw [← hr]
    split
    · exact z
    · split
      · exact z.trans (Laws.translateWalk_walkOnly ..)
      · split
        · split
          · exact z
          · split
            · exact z.trans ((Laws.markLeaf_walkOnly ..).trans (Laws.tlbFill_walkOnly ..))
            · exact z.trans (Laws.translateWalk_walkOnly ..)
        · exact z
  obtain ⟨x, s1⟩ := q
  cases x with
  | ok pa => exact ⟨s1, hq, .inl rfl⟩
  | trap c d => exact ⟨s1, hq, .inl rfl⟩
  | served c => exact ⟨_, hq.trans (Laws.dropPage_walkOnly s1 cid va.toNat p.dieOf), .inl rfl⟩
  | dead r d pa => exact ⟨s1, hq, .inr ⟨r, d, pa, rfl⟩⟩

theorem translate_keepsBindings (s : State) (p : Party) (cid : Nat) (va : Word) (kind : Acc) : KeepsBindings s (s.translate p cid va kind).2 := by
  obtain ⟨s1, hw, e | ⟨r, d, pa, e⟩⟩ := translate_reaches s p cid va kind <;> rw [e]
  · exact .of_walkOnly hw
  · exact (KeepsBindings.of_walkOnly hw).trans (contextError_keepsBindings ..)

theorem dispatchAt_keepsBindings (s : State) (cid va : Nat) (kind : Acc) : KeepsBindings s (s.dispatchAt cid va kind).2 := by
  have ht := translate_keepsBindings s (.unit 0) cid (BitVec.ofNat 64 va) kind
  unfold State.dispatchAt
  split
  · split
    · split
      · next e =>
        rw [e] at ht
        split <;> exact ht
      · next e => rwa [e] at ht
    · exact .refl s
  · exact contextError_keepsBindings ..
  · exact .refl s

theorem remoteSectors_keepsBindings (read : Bool) (n : Nat) : ∀ (s : State) (pa : Nat), KeepsBindings s (s.remoteSectors read pa n) := by
  induction n with
  | zero => exact fun s _ => .refl s
  | succ n ih =>
    intro s pa
    unfold State.remoteSectors
    refine KeepsBindings.trans ?_ (ih _ _)
    exact .of_queues rfl rfl

theorem countSpan_keepsBindings (s : State) (cid pa n : Nat) : KeepsBindings s (s.countSpan cid pa n) := by
  refine foldl_rel KeepsBindings.refl KeepsBindings.trans (fun s j => ?_) _ s
  dsimp only [State.countUnsealed]
  split
  · exact .of_queues (Laws.modAt_length ..) rfl
  · exact .refl s

theorem unitRead_keepsBindings (s : State) (x : CacheWay) (cid : Nat) (ver : BitVec 32) (pa n : Nat) : KeepsBindings s (s.unitRead x cid ver pa n).2 := by
  have h0 := (KeepsBindings.of_walkOnly (Laws.cacheSpan_walkOnly s x cid ver pa n)).trans (countSpan_keepsBindings _ cid pa n)
  dsimp only [State.unitRead]
  split
  · exact h0.trans (remoteSectors_keepsBindings ..)
  · exact h0

theorem writeHome_keepsBindings (s : State) (key : BitVec 512) (ver : BitVec 32) (pa : Nat) (xs : List Byte) : KeepsBindings s (s.writeHome key ver pa xs) := by
  unfold State.writeHome
  split
  · exact .refl s
  · split
    · exact (remoteSectors_keepsBindings ..).trans (.of_memOnly (Laws.writeBytes_memOnly ..))
    · exact .of_memOnly (Laws.writeBytes_memOnly ..)

theorem writeCw_keepsBindings (s : State) (cid : Nat) (r : List Word) (status : Byte) : KeepsBindings s (s.writeCw cid r status) := by
  have hd := dispatchAt_keepsBindings s cid (cwOf r) .write
  unfold State.writeCw
  split
  · exact .refl s
  · split
    · next e =>
      rw [e] at hd
      exact hd.trans ((KeepsBindings.of_walkOnly (Laws.cacheSpan_walkOnly ..)).trans (writeHome_keepsBindings ..))
    · next e => rwa [e] at hd

theorem readRecord_keepsBindings (s : State) (n : Nat) : KeepsBindings s (s.readRecord n).2 := by
  have hd := dispatchAt_keepsBindings s (s.queue n).cid ((s.queue n).slotVa (s.queue n).head) .read
  unfold State.readRecord
  dsimp only
  split
  · next e =>
    rw [e] at hd
    split
    · exact hd.trans (contextError_keepsBindings ..)
    · exact hd.trans (unitRead_keepsBindings ..)
  · next e => rwa [e] at hd

theorem discardHead_keepsBindings (s : State) (n : Nat) (status : Byte) : KeepsBindings s (s.discardHead n status) := by
  have hr := readRecord_keepsBindings s n
  have hp (s : State) : KeepsBindings s (s.passHead n) := .of_modQueue s n (fun _ => rfl) fun _ => rfl
  unfold State.discardHead
  split
  · next e =>
    rw [e] at hr
    exact hr.trans ((writeCw_keepsBindings ..).trans (hp _))
  · next e =>
    rw [e] at hr
    exact hr.trans (hp _)

theorem discardAll_keepsBindings (n : Nat) (status : Byte) (k : Nat) : ∀ s : State, KeepsBindings s (s.discardAll n status k) := by
  induction k with
  | zero => exact fun s => .refl s
  | succ k ih =>
    intro s
    unfold State.discardAll
    split
    · exact .refl s
    · exact (discardHead_keepsBindings s n status).trans (ih _)

theorem qEnd_keepsBindings (s : State) (n code : Nat) : KeepsBindings s (s.qEnd n code) := by
  unfold State.qEnd
  split
  · exact .refl s
  · exact KeepsBindings.trans (KeepsBindings.of_modQueue s n (f := fun x => { x with cmd := none }) (fun _ => rfl) fun _ => rfl) (KeepsBindings.of_queues rfl rfl)

/-! ## RELEASE from claimed (R51, R72) -/

/-- A queue loses its records, its command and its binding. -/
def releaseQueue (s : State) (n : Nat) : State := ((s.discardAll n 0x40 65536).qEnd n 1).modQueue n Queue.unbind

/-- What a release of queues leaves of each queue: it is unbound, or it is none of them and bound as it was. -/
structure Released (ns : List Nat) (s s' : State) : Prop where
  contexts : s'.contexts.length = s.contexts.length
  queue : ∀ m, (s'.queue m).state = .unbound ∨ m ∉ ns ∧ (s'.queue m).cid = (s.queue m).cid ∧ (s.queue m).state ≠ .unbound

theorem releaseQueue_released (s : State) (n : Nat) : Released [n] s (releaseQueue s n) := by
  have h := (discardAll_keepsBindings n 0x40 65536 s).trans (qEnd_keepsBindings _ n 1)
  refine ⟨h.contexts, fun m => ?_⟩
  rw [releaseQueue, queue_modQueue]
  split
  · exact .inl rfl
  · next hm =>
    by_cases hu : (((s.discardAll n 0x40 65536).qEnd n 1).queue m).state = .unbound
    · exact .inl hu
    · refine .inr ⟨fun hmem => hm ⟨(List.mem_singleton.1 hmem).symm, ?_⟩, h.cid m, fun hs => hu (h.unbound m hs)⟩
      by_contra hlen
      exact hu (by rw [State.queue, List.getD_eq_default _ _ (Nat.not_lt.1 hlen)]; rfl)

theorem releaseQueues_released : ∀ (ns : List Nat) (s : State), Released ns s (ns.foldl releaseQueue s)
  | [], s => ⟨rfl, fun m => by
      by_cases h : (s.queue m).state = .unbound
      · exact .inl h
      · exact .inr ⟨List.not_mem_nil, rfl, h⟩⟩
  | n :: ns, s => by
    have h1 := releaseQueue_released s n
    have h2 := releaseQueues_released ns (releaseQueue s n)
    refine ⟨h2.contexts.trans h1.contexts, fun m => (h2.queue m).imp id ?_⟩
    rintro ⟨hm, hc, hb⟩
    obtain hu | ⟨hn, hc1, hb1⟩ := h1.queue m
    · exact absurd hu hb
    · exact ⟨by simpa [hm] using hn, hc.trans hc1, hb1⟩

theorem mem_queuesOf {s : State} {c n : Nat} : n ∈ s.queuesOf c ↔ n < 256 ∧ (s.queue n).state ≠ .unbound ∧ (s.queue n).cid = c := by
  simp [State.queuesOf]

/-- No queue of the device is bound to the released context any more. -/
theorem releaseQueues_unbound (s : State) (c : Nat) {n : Nat} (hn : n < 256) (hc : (((s.queuesOf c).foldl releaseQueue s).queue n).cid = c) :
    (((s.queuesOf c).foldl releaseQueue s).queue n).state = .unbound := by
  obtain hu | ⟨hm, hcid, hb⟩ := (releaseQueues_released (s.queuesOf c) s).queue n
  · exact hu
  · exact absurd (mem_queuesOf.2 ⟨hn, hb, hcid.symm.trans hc⟩) hm

theorem release_claimed {s : State} {port : BitVec 3} {w : Word} (ho : s.plat.owner.toNat = port.toNat) (hf : (s.ctx (cidOf w)).cmd = none)
    (hr : natBits w.toNat 15 14 = 0) (ha : argFrom w 16 = 0) (hst : (s.ctx (cidOf w)).state = .claimed) :
    exec (.release port w) s = .next ((((s.queuesOf (cidOf w)).foldl releaseQueue s).modCtx (cidOf w) fun _ => Context.reset).ctxReply port.toNat (cidOf w) 0 0) := by
  rw [show exec (.release port w) s = execRelease port w s from rfl, execRelease]
  exact ctxCommandAt_of_done ho hf (by simp [ha]) hr (if_pos hst)

/-! ## ADDFRAMES (R42) -/

/-- The frames that a list page brings, the page itself among them. -/
def pageFrames (s : State) (c page : Nat) : Nat := ((List.range 511).filter fun i => decide (pteAddr (s.pte c (page + 8 * (i + 1))) ≠ 0)).length + 1

/-- FFLN and the arming of the frame-low event once a page is appended. -/
def withFrames (n : Nat) (x : Context) : Context :=
  { x with ffln := x.ffln + BitVec.ofNat 32 n, armed := x.armed || decide (x.flow.toNat ≤ (x.ffln + BitVec.ofNat 32 n).toNat) }

theorem addFrames_empty {s : State} {c page : Nat} (hb : s.badList page = false) (hl : (s.ctx c).fflh = 0) :
    s.addFrames c page = (s.modCtx c fun x => { x with fflh := BitVec.ofNat 40 (page / 4096) }).modCtx c (withFrames (pageFrames s c page)) := by
  simp only [State.addFrames, hb, hl, if_true]
  rfl

theorem addFrames_appended {s : State} {c page last : Nat} (hb : s.badList page = false) (hl : (s.ctx c).fflh ≠ 0)
    (hlast : s.lastPage c ((s.ctx c).fflh.toNat * 4096) ((s.ctx c).ffln.toNat + 1) = .ok last) :
    s.addFrames c page = (s.setPte c last (pteSetFrame (s.pte c last) page)).modCtx c (withFrames (pageFrames s c page)) := by
  simp only [State.addFrames, hb, hl, hlast, if_false]
  rfl

/-- Where the page can be appended, FFLN rises by its frames; an empty list begins with it, and memory stays. -/
theorem addFrames_slot {s : State} {c page : Nat} (hc : c < s.contexts.length) (hb : s.badList page = false)
    (hl : (s.ctx c).fflh = 0 ∨ ∃ last, s.lastPage c ((s.ctx c).fflh.toNat * 4096) ((s.ctx c).ffln.toNat + 1) = .ok last) :
    ((s.addFrames c page).ctx c).ffln = (s.ctx c).ffln + BitVec.ofNat 32 (pageFrames s c page) ∧
      ((s.ctx c).fflh = 0 → ((s.addFrames c page).ctx c).fflh = BitVec.ofNat 40 (page / 4096) ∧ (s.addFrames c page).mem = s.mem) := by
  by_cases h0 : (s.ctx c).fflh = 0
  · have hc1 : c < (s.modCtx c fun x => { x with fflh := BitVec.ofNat 40 (page / 4096) }).contexts.length := by
      rw [modCtx_length]
      exact hc
    rw [addFrames_empty hb h0, ctx_modCtx hc1, ctx_modCtx hc]
    exact ⟨rfl, fun _ => ⟨rfl, rfl⟩⟩
  · obtain ⟨last, hlast⟩ := hl.resolve_left h0
    have hm := memOnly_contexts (Laws.setPte_memOnly s c last (pteSetFrame (s.pte c last) page))
    rw [addFrames_appended hb h0 hlast, ctx_modCtx (by rw [hm]; exact hc), ctx_of_contexts_eq hm]
    exact ⟨rfl, fun h => absurd h h0⟩

/-! ## What each command leaves -/

/-- QUERY of a well-formed word (R50). -/
theorem query_answers {s : State} {port : BitVec 3} {w : Word} (ha : argFrom w 14 = 0) : exec (.query port w) s =
    .next ((s.modWindow port.toNat fun v => { v with ctxBox := v.ctxBox.headD 0 :: (s.ctx (cidOf w)).answer }).ctxReply port.toNat (cidOf w) 0 0) := by
  rw [show exec (.query port w) s = execQuery port w s from rfl, execQuery]
  exact if_neg (not_not.2 ha)

section Effects

variable {s : State} {port : BitVec 3} {w : Word} (hc : cidOf w < s.contexts.length) (ho : s.plat.owner.toNat = port.toNat)
  (hf : (s.ctx (cidOf w)).cmd = none) (hr : natBits w.toNat 15 14 = 0)
include hc ho hf hr

theorem loaddesc_slot (ha : argFrom w 62 = 0) (hst : (s.ctx (cidOf w)).state = .claimed)
    (hd : s.descOk (wordsOf 8 (s.sysRead (natBits w.toNat 61 16 * 64) 64)) = true) :
    ∃ (s' : State) (b : Bool), exec (.loaddesc port w) s = .next s' ∧
      s'.ctx (cidOf w) = { latchDesc (wordsOf 8 (s.sysRead (natBits w.toNat 61 16 * 64) 64)) (s.ctx (cidOf w)) with armed := b } := by
  have hc1 : cidOf w < (s.tick.modCtx (cidOf w) (latchDesc (wordsOf 8 (s.sysRead (natBits w.toNat 61 16 * 64) 64)))).contexts.length := by
    rw [modCtx_length]
    exact hc
  obtain ⟨b, hb⟩ := ctx_frameLow hc1 s.someDie 0
  refine ⟨_, b, loaddesc_done ho hf hr ha hst hd, ?_⟩
  rw [ctx_ctxReply, hb, ctx_modCtx (s := s.tick) hc]
  rfl

theorem suspend_slot (ha : argFrom w 16 = 0) (hst : (s.ctx (cidOf w)).state = .ready ∨ (s.ctx (cidOf w)).state = .running) :
    ∃ s', exec (.suspend port w) s = .next s' ∧ (s'.ctx (cidOf w)).state = .suspended ∧
      ∀ u g, s.group? u = some g → g.cid = cidOf w → g.stage = .resident → ∃ g', s'.group? u = some g' ∧ g'.stage = .stopping ∧ g'.reason = 3 := by
  have hl : ((s.modCtx (cidOf w) fun x => { x with state := .suspended }).saveAll fun g => g.cid == cidOf w).contexts =
      (s.modCtx (cidOf w) fun x => { x with state := .suspended }).contexts := saveAll_contexts ..
  have hc1 : cidOf w < ((s.modCtx (cidOf w) fun x => { x with state := .suspended }).saveAll fun g => g.cid == cidOf w).contexts.length := by
    rw [hl, modCtx_length]
    exact hc
  refine ⟨_, suspend_begins ho hf hr ha hst, ?_, fun u g hg hgc hgs => ⟨heldBack g, ?_, rfl, rfl⟩⟩
  · rw [settleSuspend_state, ctx_ctxBegin hc1, ctx_of_contexts_eq hl, ctx_modCtx hc]
    rw [State.ctxBegin, State.modWindow, modCtx_length]
    exact hc1
  · rw [State.group?, settleSuspend_groups]
    exact saveAll_stops (s := s.modCtx (cidOf w) fun x => { x with state := .suspended }) hg (by simpa using hgc) hgs

theorem retireAbort_slot (ha : argFrom w 16 = 0) (hst : (s.ctx (cidOf w)).state.live = true) :
    ∃ s', exec (.retireAbort port w) s = .next s' ∧ (s'.ctx (cidOf w)).state = .draining ∧ (s'.ctx (cidOf w)).cmd.isSome = true ∧
      ∀ u k, s.kernel? u = some k → k.cid = cidOf w → k.stage ≠ .draining →
        ∃ k', s'.kernel? u = some k' ∧ k'.stage = .draining ∧ k'.status = some (k.status.getD 0x01) := by
  have hc1 : cidOf w < (s.drainContext (cidOf w) true 0x01).contexts.length := by
    rw [drainContext_contexts, modCtx_length]
    exact hc
  refine ⟨_, retireAbort_begins ho hf hr ha hst, ?_, ?_, fun u k hk hkc hd => drainContext_kernel hk hkc hd 0x01⟩
  · rw [ctx_ctxBegin hc1, drainContext_ctx hc]
  · rw [ctx_ctxBegin hc1]
    rfl

theorem retireFinish_slot (ha : argFrom w 16 = 1) (hst : (s.ctx (cidOf w)).state.live = true) :
    ∃ s', exec (.retireFinish port w) s = .next s' ∧ (s'.ctx (cidOf w)).state = .draining ∧ (s'.ctx (cidOf w)).cmd.isSome = true ∧ s'.mem = s.mem := by
  have hu : ((s.drainContext (cidOf w) false 0x01).unstick fun g => g.cid == cidOf w && s.unheldKernel g).contexts =
      (s.drainContext (cidOf w) false 0x01).contexts := unstick_contexts ..
  have hc1 : cidOf w < ((s.drainContext (cidOf w) false 0x01).unstick fun g => g.cid == cidOf w && s.unheldKernel g).contexts.length := by
    rw [hu, drainContext_contexts, modCtx_length]
    exact hc
  refine ⟨_, retireFinish_begins ho hf hr ha hst, ?_, ?_, unstick_mem ..⟩
  · rw [ctx_ctxBegin hc1, ctx_of_contexts_eq hu, drainContext_ctx hc]
  · rw [ctx_ctxBegin hc1]
    rfl

theorem activate_slot (ha : argFrom w 16 = 0) (hst : (s.ctx (cidOf w)).state = .claimed) (hd : (s.ctx (cidOf w)).desc = true)
    (hk : (s.ctx (cidOf w)).key.isSome = true) :
    ∃ s', exec (.activate port w) s = .next s' ∧ (s'.ctx (cidOf w)).state = .scrubbing ∧ (s'.ctx (cidOf w)).cmd.isSome = true ∧ s'.mem = s.mem := by
  have hc1 : cidOf w < (s.modCtx (cidOf w) fun x => { x with state := .scrubbing }).contexts.length := by
    rw [modCtx_length]
    exact hc
  refine ⟨_, activate_begins ho hf hr ha hst hd hk, ?_, ?_, rfl⟩
  · rw [ctx_ctxBegin hc1, ctx_modCtx hc]
  · rw [ctx_ctxBegin hc1]
    rfl

theorem resume_slot (ha : argFrom w 16 = 0) (hst : (s.ctx (cidOf w)).state = .suspended) :
    ∃ s', exec (.resume port w) s = .next s' ∧ (s'.ctx (cidOf w)).state = .ready ∧ (s'.ctx (cidOf w)).cmd.isSome = false ∧ s'.mem = s.mem := by
  refine ⟨_, resume_done ho hf hr ha hst, ?_, ?_, unstick_mem ..⟩ <;> rw [ctx_ctxReply, ctx_of_contexts_eq (unstick_contexts ..), ctx_modCtx hc]
  exact congrArg Option.isSome hf

theorem release_slot (ha : argFrom w 16 = 0) (hst : (s.ctx (cidOf w)).state = .claimed) :
    ∃ s', exec (.release port w) s = .next s' ∧ s'.ctx (cidOf w) = Context.reset ∧
      ∀ n, n < 256 → (s'.queue n).cid = cidOf w → (s'.queue n).state = .unbound := by
  have hl := (releaseQueues_released (s.queuesOf (cidOf w)) s).contexts
  refine ⟨_, release_claimed ho hf hr ha hst, ?_, fun n hn hq => releaseQueues_unbound s (cidOf w) hn hq⟩
  rw [ctx_ctxReply, ctx_modCtx (by rw [hl]; exact hc)]

theorem addframes_slot (ha : argFrom w 56 = 0) (hst : (s.ctx (cidOf w)).state.early = true) (hg : s.goodFrame (natBits w.toNat 55 16 * 4096) = true)
    (hb : s.badList (natBits w.toNat 55 16 * 4096) = false)
    (hl : (s.ctx (cidOf w)).fflh = 0 ∨ ∃ last, s.lastPage (cidOf w) ((s.ctx (cidOf w)).fflh.toNat * 4096) ((s.ctx (cidOf w)).ffln.toNat + 1) = .ok last) :
    ∃ s', exec (.addframes port w) s = .next s' ∧
      (s'.ctx (cidOf w)).ffln = (s.ctx (cidOf w)).ffln + BitVec.ofNat 32 (pageFrames s (cidOf w) (natBits w.toNat 55 16 * 4096)) ∧
      ((s.ctx (cidOf w)).fflh = 0 → (s'.ctx (cidOf w)).fflh = BitVec.ofNat 40 (natBits w.toNat 55 16 * 4096 / 4096) ∧ s'.mem = s.mem) :=
  ⟨_, addframes_done ho hf hr ha hst hg, addFrames_slot hc hb hl⟩

end Effects

/-- An any-slot CLAIM takes a free slot, and status word 0 names it (R48). -/
theorem claim_any_slot {s : State} {port : BitVec 3} {w : Word} (hlen : s.contexts.length = 64) (hp : port.toNat < s.windows.length)
    (ho : s.plat.owner.toNat = port.toNat) (hf : (s.ctx (cidOf w)).cmd = none) (hr : natBits w.toNat 15 14 = 0) (ha : argFrom w 16 = 1) (h0 : cidOf w = 0)
    {free : Nat} (hfree : free < 64) (hst : (s.ctx free).state = .free) :
    ∃ (s' : State) (n : Nat), exec (.claim port w) s = .next s' ∧ n < 64 ∧ (s.ctx n).state = .free ∧ (s'.ctx n).state = .claimed ∧
      s'.window port.toNat = { s.window port.toNat with ctxStat := (s.window port.toNat).ctxStat.set 0 (BitVec.ofNat 64 (2 ^ 16 * n)) } := by
  have hany : w.getLsbD 16 = true := (bit_eq_argFrom w 16).trans (by simp [ha])
  have hok : anyClaimOk s port w := ⟨ho, by simp [argFrom_succ w 16, ha, h0], hr, h0 ▸ hf⟩
  have hmem := grantedSlot_mem (List.ne_nil_of_mem (mem_freeSlots.2 ⟨hfree, hst⟩))
  obtain ⟨hn, hs⟩ := mem_freeSlots.1 hmem
  refine ⟨_, grantedSlot s, claim_any_granted hany hok (List.ne_nil_of_mem hmem), hn, hs, ?_, ?_⟩
  · rw [ctx_ctxReply, ctx_modCtx (s := s.tick) (by rw [Laws.tick_contexts, hlen]; exact hn)]
    rfl
  · refine (ctxReply_window hp 0 0 (grantedSlot s)).trans ?_
    rw [statusWord, Nat.zero_add]

/-! ## The statement -/

theorem state_live_iff {x : CtxState} : x.live = true ↔ x = .ready ∨ x = .running ∨ x = .suspended := by
  simp [CtxState.live, or_assoc]
theorem state_early_iff {x : CtxState} : x.early = true ↔ x = .claimed ∨ x = .scrubbing ∨ x = .ready ∨ x = .running ∨ x = .suspended := by
  simp [CtxState.early, or_assoc]

/-- Settles O43: the refusals by the checks of R48, each command by its lemma. -/
theorem contextCommands : Obligations.ContextCommands := by
  unfold Obligations.ContextCommands
  intro s port w hlen hwin c x fails done becomes early live rec128 desc page any rest
  have hc : c < s.contexts.length := hlen ▸ cidOf_lt w
  have hp : port.toNat < s.windows.length := hwin ▸ port.isLt
  refine ⟨fun ho => ⟨plainCommands_not_owner ho, claim_not_owner ho⟩,
    fun ho => ⟨plainCommands_busy ho, claim_busy ho, claim_any_named ho⟩,
    fun h => query_answers ((natBits_top w (by decide)).symm.trans h), fun ho hf hr => ?_⟩
  have top {lo : Nat} (h : natBits w.toNat 63 lo = 0) (hlo : lo ≤ 64) : argFrom w lo = 0 := (natBits_top w hlo).symm.trans h
  refine ⟨claim_done ho hf hr, claim_taken ho hf hr, fun ha h0 free => claim_any_slot hlen hp ho hf hr ha h0, ?loaddesc,
    fun _ hd => loaddesc_bad ho hf hd, ?loadkey, fun ha => ⟨?activate, activate_unloaded ho hf hr ha, resume_slot hc ho hf hr ha, resume_not_suspended ho hf hr ha,
      suspend_slot hc ho hf hr ha, release_retired ho hf hr ha, release_slot hc ho hf hr ha, ?retire, ?notLive⟩,
    fun ha hst => retireFinish_slot hc ho hf hr ha (state_live_iff.2 hst), ?addquota, ?addframes, fun ha hst => setceil_done ho hf hr ha (state_early_iff.2 hst)⟩
  case loaddesc =>
    intro ha hst hd
    obtain ⟨s', b, hs', hy⟩ := loaddesc_slot hc ho hf hr (top ha (by decide)) hst hd
    refine ⟨s', hs', ?_⟩
    intro y
    rw [show y = _ from hy]
    exact ⟨rfl, hst, rfl, rfl, rfl, rfl, rfl, rfl, rfl, rfl, rfl⟩
  case loadkey =>
    intro ha hst h0 h2 h80
    have ha' := top ha (by decide)
    exact ⟨fun key => loadkey_done ho hf hr ha' hst h0 h2 h80, fun e => loadkey_fails ho hf hr ha' hst h0 h2 h80⟩
  case activate => exact fun hst hd hk => activate_slot hc ho hf hr ha hst hd hk
  case retire => exact fun hst => retireAbort_slot hc ho hf hr ha (state_live_iff.2 hst)
  case notLive => exact fun hst => retireAbort_not_live ho hf hr ha (Bool.eq_false_iff.2 fun h => hst (state_live_iff.1 h))
  case addquota => exact fun ha hst => addquota_done ho hf hr (top ha (by decide)) (state_early_iff.2 hst)
  case addframes => exact fun ha hst => addframes_slot hc ho hf hr (top ha (by decide)) (state_early_iff.2 hst)

end Sys2Proof.Proofs
end

section
/-!
The queue commands and the kernel commands (R59 to R63, R72, R82, R83, R95, R96): the checks of R48 in their order, then what each command
leaves; and the write of a queue's tail (R62).
-/
namespace Sys2Proof.Proofs

open Sys2Proof Sys2Proof.Machine Sys2Proof.Safety

/-! ## The checks of a queue command (R48, R59) -/

theorem qidOf_lt (w : Word) : qidOf w < 256 := Nat.mod_lt _ (by decide)

/-- A change of a queue is decided by what it does to that queue. -/
theorem modQueue_congr {s : State} {n : Nat} {f h : Queue → Queue} (e : f (s.queue n) = h (s.queue n)) : s.modQueue n f = s.modQueue n h := by
  have hl : modAt s.queues n f = modAt s.queues n h := by
    refine List.ext_getElem? fun j => ?_
    rw [Laws.modAt_get, Laws.modAt_get]
    split
    · next hj =>
      subst hj
      cases hq : s.queues[n]? with
      | none => rfl
      | some q =>
        rw [State.queue, List.getD_eq_getElem?_getD, hq] at e
        exact congrArg some e
    · rfl
  rw [State.modQueue, hl, State.modQueue]

theorem queue_modQueue_same {s : State} {n : Nat} (hn : n < s.queues.length) (f : Queue → Queue) : (s.modQueue n f).queue n = f (s.queue n) := by
  rw [queue_modQueue, if_pos ⟨rfl, hn⟩]

theorem queue_of_queues_eq {s s' : State} (h : s'.queues = s.queues) (n : Nat) : s'.queue n = s.queue n := by
  rw [State.queue, h, State.queue]

theorem queue_qBegin {s : State} {n : Nat} (hn : n < s.queues.length) (c : Cmd) : (s.qBegin n c).queue n = { s.queue n with cmd := some c } :=
  queue_modQueue_same hn _

theorem inQueue_of {n : Nat} {p : Queue → Bool} {s : State} (h : p (s.queue n) = true) (f : CmdEnd) : inQueue n p s f = f := if_pos h
theorem inQueue_of_not {n : Nat} {p : Queue → Bool} {s : State} (h : p (s.queue n) = false) (f : CmdEnd) : inQueue n p s f = .fail 1 :=
  if_neg (Bool.eq_false_iff.1 h)

/-- The command that stays in progress once word `w` is written to mailbox word 0 of a port. -/
def mailCmd (s : State) (port : BitVec 3) (w : Word) : Cmd := { port := port.toNat, word := w, op1 := wordAt (s.window port.toNat).qBox 1 }

section Checks

variable {s s1 : State} {c : Nat} {port : BitVec 3} {w : Word} {bad : Bool} {f : State → CmdEnd}

theorem qCommand_of_not_owner (ho : s.plat.owner.toNat ≠ port.toNat) : qCommand port w bad f s = .next (s.qReply port.toNat (qidOf w) 2) := if_pos ho

theorem qCommand_of_busy (ho : s.plat.owner.toNat = port.toNat) (hb : (s.queue (qidOf w)).cmd.isSome = true) :
    qCommand port w bad f s = .next (s.qReply port.toNat (qidOf w) 6) := by
  rw [qCommand, if_neg (not_not.2 ho), if_pos hb]

variable (ho : s.plat.owner.toNat = port.toNat) (hf : (s.queue (qidOf w)).cmd = none) (hb : bad = false)
include ho hf hb

theorem qCommand_of_fail (he : f s = .fail c) : qCommand port w bad f s = .next (s.qReply port.toNat (qidOf w) c) := by
  simp [qCommand, ho, hf, hb, he]

theorem qCommand_of_done (he : f s = .done s1) : qCommand port w bad f s = .next (s1.qReply port.toNat (qidOf w) 0) := by
  simp [qCommand, ho, hf, hb, he]

theorem qCommand_of_later (he : f s = .later s1) : qCommand port w bad f s = .next (s1.qBegin (qidOf w) (mailCmd s port w)) := by
  simp [qCommand, ho, hf, hb, he, mailCmd]

end Checks

/-- The commands that bind, start, stop and unbind a queue. -/
def stateCommands (port : BitVec 3) (w : Word) : List Instr := [.qbind port w, .qstart port w, .qstop port w, .qunbind port w]

/-- The outcome is that of a command to the queue that the word names. -/
def IsQueueCommand (port : BitVec 3) (w : Word) (s : State) (r : Res) : Prop := ∃ bad f, r = qCommand port w bad f s

theorem execQbind_isQueueCommand (port : BitVec 3) (w : Word) (s : State) : IsQueueCommand port w s (execQbind port w s) := by
  unfold execQbind
  exact ⟨_, _, rfl⟩
theorem execQstart_isQueueCommand (port : BitVec 3) (w : Word) (s : State) : IsQueueCommand port w s (execQstart port w s) := by
  unfold execQstart
  exact ⟨_, _, rfl⟩
theorem execQstop_isQueueCommand (port : BitVec 3) (w : Word) (s : State) : IsQueueCommand port w s (execQstop port w s) := by
  unfold execQstop
  exact ⟨_, _, rfl⟩
theorem execQunbind_isQueueCommand (port : BitVec 3) (w : Word) (s : State) : IsQueueCommand port w s (execQunbind port w s) := by
  unfold execQunbind
  exact ⟨_, _, rfl⟩
theorem stateCommands_isQueueCommand (port : BitVec 3) (w : Word) (s : State) : ∀ i ∈ stateCommands port w, IsQueueCommand port w s (exec i s) := by
  simp only [stateCommands, List.forall_mem_cons]
  exact ⟨execQbind_isQueueCommand .., execQstart_isQueueCommand .., execQstop_isQueueCommand .., execQunbind_isQueueCommand .., fun _ h => nomatch h⟩

theorem stateCommands_not_owner {s : State} {port : BitVec 3} {w : Word} (ho : s.plat.owner.toNat ≠ port.toNat) :
    ∀ i ∈ stateCommands port w, exec i s = .next (s.qReply port.toNat (qidOf w) 2) := by
  intro i hi
  obtain ⟨bad, f, e⟩ := stateCommands_isQueueCommand port w s i hi
  rw [e, qCommand_of_not_owner ho]

theorem stateCommands_busy {s : State} {port : BitVec 3} {w : Word} (ho : s.plat.owner.toNat = port.toNat) (hb : (s.queue (qidOf w)).cmd.isSome = true) :
    ∀ i ∈ stateCommands port w, exec i s = .next (s.qReply port.toNat (qidOf w) 6) := by
  intro i hi
  obtain ⟨bad, f, e⟩ := stateCommands_isQueueCommand port w s i hi
  rw [e, qCommand_of_busy ho hb]

/-! ## The queue commands (R59, R60, R72) -/

/-- QQUERY of a well-formed word: the answer stands in the mailbox, and no queue changes (R60). -/
theorem qquery_answers {s : State} {port : BitVec 3} {w : Word} (hp : port.toNat < s.windows.length) (ha : argFrom w 16 = 0) :
    let q := s.queue (qidOf w)
    ∃ s', exec (.qquery port w) s = .next s' ∧ s'.queues = s.queues ∧ (s'.window port.toNat).qBox =
      [(s.window port.toNat).qBox.headD 0, s.qstat (qidOf w), q.head.setWidth 64, q.tail.setWidth 64,
        if q.state = .unbound then 0 else BitVec.ofNat 64 (q.cid + 2 ^ 6 * q.level.toNat + 2 ^ 9 * q.feed + 2 ^ 16 * q.log2n), if q.state = .unbound then 0 else q.base, 0, 0] := by
  intro q
  refine ⟨_, (show exec (.qquery port w) s = execQquery port w s from rfl).trans (if_neg (not_not.2 ha)), rfl, ?_⟩
  rw [State.qReply, window_modWindow ((Laws.modAt_length _ _ _).symm ▸ hp), window_modWindow hp]

section Commands

variable {s : State} {port : BitVec 3} {w : Word} (ho : s.plat.owner.toNat = port.toNat) (hf : (s.queue (qidOf w)).cmd = none)
include ho hf

/-- The fields of QBIND as its checks want them (R58, R59). -/
theorem qbind_done (h31 : natBits w.toNat 31 29 = 0) (h63 : natBits w.toNat 63 37 = 0) (hfeed : natBits w.toNat 28 25 ≤ 8)
    (hlo : 4 ≤ natBits w.toNat 36 32) (hhi : natBits w.toNat 36 32 ≤ 16) (h11 : natBits (wordAt (s.window port.toNat).qBox 1).toNat 11 0 = 0)
    (h57 : natBits (wordAt (s.window port.toNat).qBox 1).toNat 63 57 = 0)
    (hbase : natBits (wordAt (s.window port.toNat).qBox 1).toNat 56 12 * 4096 % Nat.max 4096 (128 * 2 ^ natBits w.toNat 36 32) = 0)
    (hst : (s.queue (qidOf w)).state = .unbound) (hx : (s.ctx (natBits w.toNat 21 16)).state.early = true) :
    exec (.qbind port w) s = .next ((s.modQueue (qidOf w) fun q => { q with
      state := .stopped, cid := natBits w.toNat 21 16, level := w.extractLsb' 22 3, feed := natBits w.toNat 28 25, log2n := natBits w.toNat 36 32,
      base := BitVec.ofNat 64 (natBits (wordAt (s.window port.toNat).qBox 1).toNat 56 12 * 4096), head := 0, tail := 0, held := none,
      lastTag := none }).qReply port.toNat (qidOf w) 0) := by
  rw [show exec (.qbind port w) s = execQbind port w s from rfl, execQbind]
  have hl : (BitVec.ofNat 3 (natBits w.toNat 24 22) : BitVec 3) = w.extractLsb' 22 3 := by
    apply BitVec.eq_of_toNat_eq
    simp [natBits]
  rw [← hl]
  refine qCommand_of_done ho hf ?_ (if_pos ⟨hst, hx⟩)
  simp only [h31, h63, h11, h57, hbase]
  simp
  omega

theorem qstart_stopped (ha : argFrom w 16 = 0) (hst : (s.queue (qidOf w)).state = .stopped) :
    exec (.qstart port w) s = .next ((s.modQueue (qidOf w) fun q => { q with state := .active }).qReply port.toNat (qidOf w) 0) := by
  rw [show exec (.qstart port w) s = execQstart port w s from rfl, execQstart, qCommand_of_done ho hf (by simp [ha]) (inQueue_of (by simp [hst]) _)]
  exact congrArg (fun s : State => Host.Outcome.next (s.qReply port.toNat (qidOf w) 0)) (modQueue_congr (by simp [hst]))

theorem qstart_faulted (ha : argFrom w 16 = 0) (hst : (s.queue (qidOf w)).state = .faulted) :
    exec (.qstart port w) s =
      .next ((s.modQueue (qidOf w) fun q => { q with state := .active, fcause := 0, held := none }).qReply port.toNat (qidOf w) 0) := by
  rw [show exec (.qstart port w) s = execQstart port w s from rfl, execQstart, qCommand_of_done ho hf (by simp [ha]) (inQueue_of (by simp [hst]) _)]
  exact congrArg (fun s : State => Host.Outcome.next (s.qReply port.toNat (qidOf w) 0)) (modQueue_congr (by simp [hst]))

theorem qstart_refused (ha : argFrom w 16 = 0) (hst : (s.queue (qidOf w)).state ≠ .stopped ∧ (s.queue (qidOf w)).state ≠ .faulted) :
    exec (.qstart port w) s = .next (s.qReply port.toNat (qidOf w) 1) := by
  rw [show exec (.qstart port w) s = execQstart port w s from rfl, execQstart]
  exact qCommand_of_fail ho hf (by simp [ha]) (inQueue_of_not (by simp [hst]) _)

theorem qstop_active (ha : argFrom w 16 = 0) (hst : (s.queue (qidOf w)).state = .active) :
    exec (.qstop port w) s = .next ((s.modQueue (qidOf w) fun q => { q with state := .stopped }).qReply port.toNat (qidOf w) 0) := by
  rw [show exec (.qstop port w) s = execQstop port w s from rfl, execQstop]
  exact qCommand_of_done ho hf (by simp [ha]) (inQueue_of (by simp [hst]) _)

theorem qunbind_idle (ha : argFrom w 16 = 0) (hst : (s.queue (qidOf w)).state = .stopped) (hk : s.nadm (qidOf w) = 0) :
    exec (.qunbind port w) s = .next ((s.modQueue (qidOf w) Queue.unbind).qReply port.toNat (qidOf w) 0) := by
  rw [show exec (.qunbind port w) s = execQunbind port w s from rfl, execQunbind]
  exact qCommand_of_done ho hf (by simp [ha]) (inQueue_of (by simp [hst, hk]) _)

theorem qunbind_refused (ha : argFrom w 16 = 0) (hk : s.nadm (qidOf w) ≠ 0) :
    exec (.qunbind port w) s = .next (s.qReply port.toNat (qidOf w) 1) := by
  rw [show exec (.qunbind port w) s = execQunbind port w s from rfl, execQunbind]
  exact qCommand_of_fail ho hf (by simp [ha]) (inQueue_of_not (by simp [hk]) _)

/-- QDRAIN begins, and settles at once where nothing is left (R72). -/
theorem qdrain_begins (ha : argFrom w 16 = 0)
    (hst : (s.queue (qidOf w)).state = .stopped ∨ (s.queue (qidOf w)).state = .active ∨ (s.queue (qidOf w)).state = .faulted) :
    exec (.qdrain port w) s = .next (((s.modQueue (qidOf w) fun q => { q with state := .draining, dstatus := 0x41 }).qBegin (qidOf w)
      (mailCmd s port w)).settleDrain (qidOf w)) := by
  rw [show exec (.qdrain port w) s = execQdrain port w s from rfl, execQdrain,
    qCommand_of_later ho hf (by simp [ha]) (inQueue_of (by simpa [or_assoc] using hst) _)]

omit ho hf in
/-- A queue as QDRAIN finds it when it settles. -/
theorem queue_qdrain (hn : qidOf w < s.queues.length) :
    ((s.modQueue (qidOf w) fun q => { q with state := .draining, dstatus := 0x41 }).qBegin (qidOf w) (mailCmd s port w)).queue (qidOf w) =
      { s.queue (qidOf w) with state := .draining, dstatus := 0x41, cmd := some (mailCmd s port w) } := by
  rw [queue_qBegin ((Laws.modAt_length _ _ _).symm ▸ hn), queue_modQueue_same hn]

theorem qdrain_nonempty (hn : qidOf w < s.queues.length) (ha : argFrom w 16 = 0)
    (hst : (s.queue (qidOf w)).state = .stopped ∨ (s.queue (qidOf w)).state = .active ∨ (s.queue (qidOf w)).state = .faulted)
    (he : (s.queue (qidOf w)).head ≠ (s.queue (qidOf w)).tail) :
    ∃ s', exec (.qdrain port w) s = .next s' ∧ (s'.queue (qidOf w)).state = .draining ∧ (s'.queue (qidOf w)).dstatus = 0x41 ∧
      (s'.queue (qidOf w)).cmd.isSome = true ∧ (s'.queue (qidOf w)).head = (s.queue (qidOf w)).head := by
  have hq := queue_qdrain (port := port) hn
  refine ⟨_, qdrain_begins ho hf ha hst, ?_⟩
  rw [State.settleDrain, if_neg (by rw [hq]; exact fun h => he h.2.1), hq]
  exact ⟨rfl, rfl, rfl, rfl⟩

theorem qdrain_empty (hn : qidOf w < s.queues.length) (ha : argFrom w 16 = 0)
    (hst : (s.queue (qidOf w)).state = .stopped ∨ (s.queue (qidOf w)).state = .active ∨ (s.queue (qidOf w)).state = .faulted)
    (he : (s.queue (qidOf w)).head = (s.queue (qidOf w)).tail) (hk : s.nadm (qidOf w) = 0) (hx : (s.ctx (s.queue (qidOf w)).cid).state = .running) :
    ∃ s', exec (.qdrain port w) s = .next s' ∧ (s'.queue (qidOf w)).state = .stopped ∧ (s'.queue (qidOf w)).cmd = none := by
  refine ⟨_, qdrain_begins ho hf ha hst, ?_⟩
  have hq := queue_qdrain (port := port) hn
  generalize hs1 : (s.modQueue (qidOf w) fun q => { q with state := .draining, dstatus := 0x41 }).qBegin (qidOf w) (mailCmd s port w) = s1 at hq
  have hk1 : s1.nadm (qidOf w) = 0 := hs1 ▸ hk
  have hx1 : (s1.ctx (s.queue (qidOf w)).cid).state = .running := hs1 ▸ hx
  have hn1 : qidOf w < s1.queues.length := by
    rw [← hs1, State.qBegin, Laws.modWindow_queues, State.modQueue, Laws.modAt_length]
    exact (Laws.modAt_length _ _ _).symm ▸ hn
  have hn2 : qidOf w < (s1.modQueue (qidOf w) fun q => { q with state := .stopped, held := none }).queues.length := (Laws.modAt_length _ _ _).symm ▸ hn1
  have hc : ((s1.modQueue (qidOf w) fun q => { q with state := .stopped, held := none }).queue (qidOf w)).cmd = some (mailCmd s port w) := by
    rw [queue_modQueue_same hn1, hq]
  rw [State.settleDrain, if_pos (by rw [hq]; exact ⟨rfl, he, hk1, by simp [hx1], by simp [hx1]⟩), State.qEnd, hc]
  change (((s1.modQueue (qidOf w) fun q => { q with state := .stopped, held := none }).modQueue (qidOf w) fun x => { x with cmd := none }).queue
    (qidOf w)).state = .stopped ∧ (((s1.modQueue (qidOf w) fun q => { q with state := .stopped, held := none }).modQueue (qidOf w)
      fun x => { x with cmd := none }).queue (qidOf w)).cmd = none
  rw [queue_modQueue_same hn2, queue_modQueue_same hn1]
  exact ⟨rfl, rfl⟩

end Commands

/-! ## The end of a kernel command (R83, R95) -/

theorem settleKernelCmd_idle {s : State} {n : Nat} (h : (s.queue n).cmd = none) : s.settleKernelCmd n = s := by
  rw [State.settleKernelCmd, h]

theorem qEnd_keeps {β : Type} (π : State → β) (hq : ∀ s q, π { s with queues := q } = π s) (hw : ∀ s v, π { s with windows := v } = π s)
    (s : State) (n code : Nat) : π (s.qEnd n code) = π s := by
  unfold State.qEnd
  split
  · rfl
  · exact (hw _ _).trans (hq _ _)

theorem settleKernelCmd_cases (s : State) (n : Nat) : s.settleKernelCmd n = s ∨ ∃ code, s.settleKernelCmd n = s.qEnd n code := by
  unfold State.settleKernelCmd
  split
  · exact .inl rfl
  · split
    · split
      · exact .inr ⟨1, rfl⟩
      · split
        · exact .inr ⟨1, rfl⟩
        · split
          · split
            · exact .inr ⟨0, rfl⟩
            · exact .inl rfl
          · split
            · exact .inr ⟨1, rfl⟩
            · split
              · exact .inr ⟨0, rfl⟩
              · exact .inl rfl
    · exact .inl rfl

/-- The end of a kernel command changes the queue and the window alone. -/
theorem settleKernelCmd_keeps {β : Type} (π : State → β) (hq : ∀ s q, π { s with queues := q } = π s) (hw : ∀ s v, π { s with windows := v } = π s)
    (s : State) (n : Nat) : π (s.settleKernelCmd n) = π s := by
  rcases settleKernelCmd_cases s n with e | ⟨code, e⟩ <;> rw [e]
  exact qEnd_keeps π hq hw s n code

/-- A command on a kernel goes on while a group of it that the command names has not come to rest. -/
theorem settleKernelCmd_goes_on {s : State} {n : Nat} {c : Cmd} {k : Kernel} {g : Group} (hc : (s.queue n).cmd = some c)
    (ht : s.tagged n (argFrom c.word 16) = some k) (hk : k.stage ≠ .draining) (hg : s.groupAt k.uid (natBits c.op1.toNat 51 0) = some g)
    (hr : g.rests = false) : s.settleKernelCmd n = s := by
  have hall : (s.groupsOf k.uid).all Group.rests = false := by
    have hp := List.find?_some (p := fun g : Group => g.kuid == k.uid && g.l == natBits c.op1.toNat 51 0) hg
    rw [Bool.and_eq_true] at hp
    exact List.all_eq_false.2 ⟨g, List.mem_filter.2 ⟨List.mem_of_find?_eq_some hg, hp.1⟩, by simp [hr]⟩
  have hs : ¬(g.stage = .saved ∧ g.halt = true) := fun h => by simp [Group.rests, h.1] at hr
  simp only [State.settleKernelCmd, hc, ht, hk, hall, hg, hs, if_false, Bool.false_eq_true, ite_self]

/-! ## The kernel commands (R82, R83) -/

theorem kernel_modKernel_of {s : State} {u : Nat} {k : Kernel} (hk : s.kernel? u = some k) (f : Kernel → Kernel) (hf : ∀ k, (f k).uid = k.uid) :
    (s.modKernel u f).kernel? u = some (f k) := by
  rw [kernel_modKernel s u f hf, hk, Option.map_some]

section KernelCommands

variable {s s1 : State} {port : BitVec 3} {w : Word} {k : Kernel} {p : Kernel → Bool} {f : Kernel → State → CmdEnd}

variable (ho : s.plat.owner.toNat = port.toNat) (hf : (s.queue (qidOf w)).cmd = none)
include ho hf

theorem kCommand_untagged (ht : s.tagged (qidOf w) (argFrom w 16) = none) : kCommand port w p f s = .next (s.qReply port.toNat (qidOf w) 3) := by
  unfold kCommand
  dsimp only
  rw [qCommand_of_fail (c := 3) ho hf rfl (by simp only [ht])]
  exact congrArg Host.Outcome.next (settleKernelCmd_idle hf)

variable (ht : s.tagged (qidOf w) (argFrom w 16) = some k)
include ht

theorem kCommand_refused (hp : p k = false) : kCommand port w p f s = .next (s.qReply port.toNat (qidOf w) 1) := by
  unfold kCommand
  dsimp only
  rw [qCommand_of_fail (c := 1) ho hf rfl (by simp only [ht, hp, Bool.false_eq_true, and_false, if_false])]
  exact congrArg Host.Outcome.next (settleKernelCmd_idle hf)

variable (hd : k.stage ≠ .draining) (hp : p k = true)
include hd hp

theorem kCommand_done (he : f k s = .done s1) (hc : (s1.queue (qidOf w)).cmd = none) : kCommand port w p f s = .next (s1.qReply port.toNat (qidOf w) 0) := by
  unfold kCommand
  dsimp only
  rw [qCommand_of_done (s1 := s1) ho hf rfl (by simp only [ht]; exact (if_pos ⟨hd, hp⟩).trans he)]
  exact congrArg Host.Outcome.next (settleKernelCmd_idle hc)

theorem kCommand_later (he : f k s = .later s1) :
    kCommand port w p f s = .next ((s1.qBegin (qidOf w) (mailCmd s port w)).settleKernelCmd (qidOf w)) := by
  unfold kCommand
  dsimp only
  rw [qCommand_of_later (s1 := s1) ho hf rfl (by simp only [ht]; exact (if_pos ⟨hd, hp⟩).trans he)]

end KernelCommands

section KernelEffects

variable {s : State} {port : BitVec 3} {w : Word} (ho : s.plat.owner.toNat = port.toNat) (hf : (s.queue (qidOf w)).cmd = none)
include ho hf

theorem kernelCommands_untagged (ht : s.tagged (qidOf w) (argFrom w 16) = none) :
    ∀ i ∈ [Instr.kabort port w, .khold port w, .kresume port w], exec i s = .next (s.qReply port.toNat (qidOf w) 3) := by
  simp only [List.forall_mem_cons]
  exact ⟨kCommand_untagged ho hf ht, kCommand_untagged ho hf ht, kCommand_untagged ho hf ht, fun _ h => nomatch h⟩

variable {k : Kernel} (ht : s.tagged (qidOf w) (argFrom w 16) = some k) (hd : k.stage ≠ .draining) (hk : s.kernel? k.uid = some k)
include ht

theorem khold_held (hh : k.held = true) : exec (.khold port w) s = .next (s.qReply port.toNat (qidOf w) 1) :=
  kCommand_refused ho hf ht (by simp [hh])

include hd

theorem kabort_done : exec (.kabort port w) s = .next ((s.abortKernel k.uid 0x02).qReply port.toNat (qidOf w) 0) :=
  kCommand_done ho hf ht hd rfl rfl (by rw [queue_of_queues_eq (abortKernel_queues ..)]; exact hf)

include hk

theorem khold_stops (hh : k.held = false) : ∃ s' k', exec (.khold port w) s = .next s' ∧ s'.kernel? k.uid = some k' ∧ k'.held = true ∧
    ∀ u g, s.group? u = some g → g.kuid = k.uid → g.stage = .resident → ∃ g', s'.group? u = some g' ∧ g'.stage = .stopping ∧ g'.reason = 3 := by
  refine ⟨_, { k with held := true }, kCommand_later ho hf ht hd (by simp [hh]) rfl, ?_, rfl, fun u g hg hgk hgs => ⟨heldBack g, ?_, rfl, rfl⟩⟩
  · refine (settleKernelCmd_keeps (fun s => s.kernel? k.uid) (fun _ _ => rfl) (fun _ _ => rfl) _ _).trans ?_
    have hs : ((s.modKernel k.uid fun k => { k with held := true }).saveAll fun g => g.kuid == k.uid).kernel? k.uid =
        (s.modKernel k.uid fun k => { k with held := true }).kernel? k.uid :=
      foldl_keeps (fun s => s.kernel? k.uid) (f := fun s (g : Group) => s.requestSave g.uid 3) (fun _ _ => rfl) _ _
    exact hs.trans (kernel_modKernel_of hk (fun k => { k with held := true }) fun _ => rfl)
  · refine (settleKernelCmd_keeps (fun s => s.group? u) (fun _ _ => rfl) (fun _ _ => rfl) _ _).trans ?_
    exact saveAll_stops (s := s.modKernel k.uid fun k => { k with held := true }) hg (by simpa using hgk) hgs

theorem kresume_releases (hh : k.held = true) :
    ∃ s' k', exec (.kresume port w) s = .next s' ∧ s'.kernel? k.uid = some k' ∧ k'.held = false ∧ s'.mem = s.mem := by
  refine ⟨_, { k with held := false }, kCommand_done ho hf ht hd hh rfl ?_, ?_, rfl, unstick_mem ..⟩
  · rw [queue_of_queues_eq (unstick_keeps State.queues (fun _ _ => rfl) (fun _ _ => rfl) ..)]
    exact hf
  · exact (unstick_keeps (fun s => s.kernel? k.uid) (fun _ _ => rfl) (fun _ _ => rfl) ..).trans
      (kernel_modKernel_of hk (fun k => { k with held := false }) fun _ => rfl)

end KernelEffects

/-! ## GHALT and GRESUME (R95, R96) -/

section GroupCommands

variable {s s1 : State} {port : BitVec 3} {w : Word} {bad : Word → Bool} {f : Group → Word → State → CmdEnd} {k : Kernel} {g : Group}
  (ho : s.plat.owner.toNat = port.toNat) (hf : (s.queue (qidOf w)).cmd = none) (hb : bad (wordAt (s.window port.toNat).qBox 1) = false)
  (ht : s.tagged (qidOf w) (argFrom w 16) = some k) (hl : natBits (wordAt (s.window port.toNat).qBox 1).toNat 51 0 < k.groupCount)
  (hg : s.groupAt k.uid (natBits (wordAt (s.window port.toNat).qBox 1).toNat 51 0) = some g) (ha : g.stage ≠ .aborting)
include ho hf hb ht hl hg ha

theorem gCommand_done (he : f g (wordAt (s.window port.toNat).qBox 1) s = .done s1) (hc : (s1.queue (qidOf w)).cmd = none) :
    gCommand port w bad f s = .next (s1.qReply port.toNat (qidOf w) 0) := by
  unfold gCommand
  dsimp only
  rw [qCommand_of_done (s1 := s1) ho hf hb (by simp only [ht, Nat.not_le.2 hl, hg, ha, if_false, he])]
  exact congrArg Host.Outcome.next (settleKernelCmd_idle hc)

theorem gCommand_later (he : f g (wordAt (s.window port.toNat).qBox 1) s = .later s1) :
    gCommand port w bad f s = .next ((s1.qBegin (qidOf w) (mailCmd s port w)).settleKernelCmd (qidOf w)) := by
  unfold gCommand
  dsimp only
  rw [qCommand_of_later (s1 := s1) ho hf hb (by simp only [ht, Nat.not_le.2 hl, hg, ha, if_false, he])]

end GroupCommands

/-- Where two searches of a list find the same element, a change of it that keeps the second search's property shows in that search. -/
theorem find_modFirst_of_same {α : Type} {p q : α → Bool} {f : α → α} {a : α} (hf : q (f a) = true) :
    ∀ l : List α, l.find? p = some a → l.find? q = some a → (modFirst p f l).find? q = some (f a)
  | [], h, _ => by simp at h
  | b :: l, hp, hq => by
    cases ep : p b with
    | true =>
      simp only [List.find?_cons, ep, Option.some.injEq] at hp
      subst hp
      simp [modFirst, ep, hf]
    | false =>
      cases eq : q b with
      | true =>
        simp only [List.find?_cons, eq, Option.some.injEq] at hq
        subst hq
        have := List.find?_some hp
        simp [ep] at this
      | false =>
        simp only [List.find?_cons, ep] at hp
        simp only [List.find?_cons, eq] at hq
        simp [modFirst, ep, eq, find_modFirst_of_same hf l hp hq]

/-- The group of an index after a change of that group. -/
theorem groupAt_modGroup {s : State} {u l : Nat} {g : Group} {f : Group → Group} (hg : s.groupAt u l = some g) (hu : s.group? g.uid = some g)
    (hk : (f g).kuid = g.kuid) (hl : (f g).l = g.l) : (s.modGroup g.uid f).groupAt u l = some (f g) := by
  refine find_modFirst_of_same (p := fun h : Group => h.uid == g.uid) ?_ s.groups hu hg
  have hp := List.find?_some (p := fun h : Group => h.kuid == u && h.l == l) hg
  rwa [hk, hl]

/-- A change of a group to a given one of its identity. -/
theorem group_modGroup_of {s : State} {u : Nat} {g : Group} (hg : s.group? u = some g) {f : Group → Group} (hf : (f g).uid = g.uid) :
    (s.modGroup u f).group? u = some (f g) := by
  have hu : g.uid = u := (group_of_find hg).2
  exact find_modFirst_of_same (by simp [hf, hu]) s.groups hg hg

/-- A resident group that a debugger halts (R95). -/
def halted (g : Group) : Group := { g with stage := .stopping, reason := 2, halt := true }

theorem requestSave_halt {s : State} {u : Nat} {g : Group} (hg : s.group? u = some g) (hr : g.stage = .resident) :
    (s.requestSave u 2).modGroup u (fun g => { g with halt := true }) = s.modGroup u halted := by
  rw [State.requestSave, Laws.modGroup_modGroup s u _ _ fun g => by split <;> [rfl; (split <;> rfl)]]
  exact Laws.modGroup_congr hg (by simp [hr, halted])

/-- A group that GRESUME lets go, with the mask and the step of operand word `o` (R95). -/
def resumed (o : Word) (g : Group) : Group :=
  { g with
    halt := false, step := natBit o.toNat 52, mask := o.extractLsb' 56 8,
    strands := (List.range g.strands.length).map fun j =>
      { g.strands.getD j (Strand.placed 0 g.l j) with stepLeft := if natBit o.toNat 52 then some (if (o.extractLsb' 56 8).getLsbD j then 1 else 0) else none } }

theorem resumed_stepLeft {o : Word} {g : Group} {j : Nat} {t : Strand} (h : (resumed o g).strands[j]? = some t) :
    t.stepLeft = if o.getLsbD 52 then some (if (o.extractLsb' 56 8).getLsbD j then 1 else 0) else none := by
  simp only [resumed, List.getElem?_map, Option.map_eq_some_iff] at h
  obtain ⟨i, hi, rfl⟩ := h
  obtain ⟨hj, hi⟩ := List.getElem?_eq_some_iff.1 hi
  rw [List.getElem_range] at hi
  subst hi
  rfl

section GroupEffects

variable {s : State} {port : BitVec 3} {w : Word} {k : Kernel} {g : Group} (ho : s.plat.owner.toNat = port.toNat) (hf : (s.queue (qidOf w)).cmd = none)
  (ht : s.tagged (qidOf w) (argFrom w 16) = some k) (hl : natBits (wordAt (s.window port.toNat).qBox 1).toNat 51 0 < k.groupCount)
  (hg : s.groupAt k.uid (natBits (wordAt (s.window port.toNat).qBox 1).toNat 51 0) = some g) (hu : s.group? g.uid = some g)
include ho hf ht hl hg hu

theorem ghalt_stops (hn : qidOf w < s.queues.length) (hd : k.stage ≠ .draining) (hb : natBits (wordAt (s.window port.toNat).qBox 1).toNat 63 52 = 0)
    (hr : g.stage = .resident) (hh : g.halt = false) :
    ∃ s' g', exec (.ghalt port w) s = .next s' ∧ s'.group? g.uid = some g' ∧ g'.stage = .stopping ∧ g'.reason = 2 ∧ g'.halt = true ∧
      (s'.queue (qidOf w)).cmd.isSome = true ∧ s'.mem = s.mem := by
  have hq : ((s.modGroup g.uid halted).qBegin (qidOf w) (mailCmd s port w)).queue (qidOf w) = { s.queue (qidOf w) with cmd := some (mailCmd s port w) } :=
    queue_qBegin (s := s.modGroup g.uid halted) hn _
  have hstay : ((s.modGroup g.uid halted).qBegin (qidOf w) (mailCmd s port w)).settleKernelCmd (qidOf w) =
      (s.modGroup g.uid halted).qBegin (qidOf w) (mailCmd s port w) :=
    settleKernelCmd_goes_on (congrArg Queue.cmd hq) ht hd (groupAt_modGroup hg hu rfl rfl) (by simp [halted, Group.rests])
  have he : execGhalt port w s = .next (((s.modGroup g.uid halted).qBegin (qidOf w) (mailCmd s port w)).settleKernelCmd (qidOf w)) := by
    refine gCommand_later ho hf (by simp [hb]) ht hl hg (by simp [hr]) ?_
    rw [if_neg (by simp [hh]), if_neg (by simp [hr]), if_neg (by simp [hr]), requestSave_halt hu hr]
  rw [hstay] at he
  exact ⟨_, halted g, he, group_modGroup_of hu rfl, rfl, rfl, rfl, by rw [hq]; rfl, rfl⟩

theorem gresume_frees (hb : natBits (wordAt (s.window port.toNat).qBox 1).toNat 55 53 = 0) (hs : g.stage = .saved) (hh : g.halt = true) :
    ∃ s', exec (.gresume port w) s = .next s' ∧ s'.group? g.uid = some (resumed (wordAt (s.window port.toNat).qBox 1) g) := by
  let g1 := resumed (wordAt (s.window port.toNat).qBox 1) g
  have hm : Laws.MemOnly (s.modGroup g.uid fun _ => g1) ((s.modGroup g.uid fun _ => g1).rewriteHeader g1) := by
    unfold State.rewriteHeader State.putFrameWord
    exact Laws.writeBytes_memOnly ..
  have hq : ((s.modGroup g.uid fun _ => g1).rewriteHeader g1).queues = s.queues := (memOnly_queues hm :)
  have hgs : ((s.modGroup g.uid fun _ => g1).rewriteHeader g1).groups = (s.modGroup g.uid fun _ => g1).groups := by
    unfold Laws.MemOnly at hm
    rw [hm]
  have he : execGresume port w s = .next (((s.modGroup g.uid fun _ => g1).rewriteHeader g1).qReply port.toNat (qidOf w) 0) := by
    refine gCommand_done ho hf (by simp [hb]) ht hl hg (by simp [hs]) (if_pos ⟨hs, hh⟩) ?_
    rw [queue_of_queues_eq hq]
    exact hf
  refine ⟨_, he, ?_⟩
  change ((s.modGroup g.uid fun _ => g1).rewriteHeader g1).groups.find? _ = _
  rw [hgs]
  exact group_modGroup_of hu (f := fun _ => g1) rfl

end GroupEffects

/-! ## The tail write (R62) -/

section Tail

variable {s : State} {port : BitVec 3} {qid : BitVec 8} {w : Word}

theorem qtail_dropped (h : (s.queue qid.toNat).state = .unbound ∨ (s.queue qid.toNat).feed ≠ port.toNat) :
    exec (.qtail port qid w) s = .next (s.modQueue qid.toNat fun q => { q with drop := true }) :=
  (show exec (.qtail port qid w) s = execQtail port qid w s from rfl).trans (congrArg Host.Outcome.next (if_pos h))

theorem qtail_moves (hb : (s.queue qid.toNat).state ≠ .unbound) (hf : (s.queue qid.toNat).feed = port.toNat)
    (hn : (w.extractLsb' 0 32 - (s.queue qid.toNat).head).toNat ≤ 2 ^ (s.queue qid.toNat).log2n)
    (ht : ((s.queue qid.toNat).tail - (s.queue qid.toNat).head).toNat ≤ (w.extractLsb' 0 32 - (s.queue qid.toNat).head).toNat) :
    exec (.qtail port qid w) s = .next (s.modQueue qid.toNat fun q => { q with tail := w.extractLsb' 0 32 }) := by
  rw [show exec (.qtail port qid w) s = execQtail port qid w s from rfl, execQtail]
  simp only [hb, hf, Nat.not_lt.2 hn, Nat.not_lt.2 ht, ne_eq, not_true_eq_false, or_self, if_false]

variable (hst : (s.queue qid.toNat).state = .stopped ∨ (s.queue qid.toNat).state = .active) (hf : (s.queue qid.toNat).feed = port.toNat)
include hst hf

theorem qtail_overfull (hn : 2 ^ (s.queue qid.toNat).log2n < (w.extractLsb' 0 32 - (s.queue qid.toNat).head).toNat) :
    exec (.qtail port qid w) s = .next (s.modQueue qid.toNat fun q => { q with state := .faulted, fcause := 2 }) := by
  have hb : (s.queue qid.toNat).state ≠ .unbound := by rcases hst with h | h <;> simp [h]
  rw [show exec (.qtail port qid w) s = execQtail port qid w s from rfl, execQtail]
  simp only [hb, hf, hn, hst, ne_eq, not_true_eq_false, or_self, if_false, if_true]

theorem qtail_backward (hn : (w.extractLsb' 0 32 - (s.queue qid.toNat).head).toNat ≤ 2 ^ (s.queue qid.toNat).log2n)
    (ht : (w.extractLsb' 0 32 - (s.queue qid.toNat).head).toNat < ((s.queue qid.toNat).tail - (s.queue qid.toNat).head).toNat) :
    exec (.qtail port qid w) s = .next (s.modQueue qid.toNat fun q => { q with state := .faulted, fcause := 3 }) := by
  have hb : (s.queue qid.toNat).state ≠ .unbound := by rcases hst with h | h <;> simp [h]
  rw [show exec (.qtail port qid w) s = execQtail port qid w s from rfl, execQtail]
  simp only [hb, hf, Nat.not_lt.2 hn, ht, hst, ne_eq, not_true_eq_false, or_self, if_false, if_true]

end Tail

/-! ## The statement -/

/-- Settles O44: the refusals by the checks of R48, each command and each case of the tail write by its lemma. -/
theorem queueCommands : Obligations.QueueCommands := by
  unfold Obligations.QueueCommands
  intro s port w hlen hwin n q fails done op1 tag l all
  have hn : n < s.queues.length := hlen ▸ qidOf_lt w
  have hp : port.toNat < s.windows.length := hwin ▸ port.isLt
  refine ⟨stateCommands_not_owner, stateCommands_busy, qquery_answers hp, fun ho hf => ?_, fun qid => ?tail⟩
  case tail => exact ⟨qtail_dropped, qtail_moves, qtail_overfull, qtail_backward⟩
  refine ⟨qbind_done ho hf, qstart_stopped ho hf, qstart_faulted ho hf, qstart_refused ho hf, qstop_active ho hf, qunbind_idle ho hf,
    fun ha _ => qunbind_refused ho hf ha, qdrain_nonempty ho hf hn, qdrain_empty ho hf hn, fun k ht hd hk => ?kernel, kernelCommands_untagged ho hf⟩
  refine ⟨kabort_done ho hf ht hd, khold_stops ho hf ht hd hk, kresume_releases ho hf ht hd hk, khold_held ho hf ht,
    fun g hb hl hg hu hr hh => ghalt_stops ho hf ht hl hg hu hn hd hb hr hh, fun g hb hl hg hu hs hh => ?_⟩
  obtain ⟨s', hs', hg'⟩ := gresume_frees ho hf ht hl hg hu hb hs hh
  exact ⟨s', _, hs', hg', hs, rfl, rfl, rfl, by simp [resumed], fun j t => resumed_stepLeft⟩

end Sys2Proof.Proofs
end

section
/-!
What a write of bytes under a key and a version leaves (R117, R156): each byte of it reads as written under them, and a byte that the write
neither names through another POOL window nor takes from its 16-byte block reads as before.
-/
namespace Sys2Proof.Proofs

open Sys2Proof Sys2Proof.Machine Sys2Proof.Safety

/-! ## Sectors (R156, R372, R407) -/

/-- The bytes of a sector lie side by side in one sector of their home. -/
theorem homeOf_sector (s : State) (k : Nat) : ∃ h, ∀ j, j < 32 → s.homeOf (32 * k + j) = 32 * h + j := by
  have stays (hp : ∀ j, j < 32 → ∀ p w o, regionOf s (32 * k + j) ≠ .pool p w o) : ∃ h, ∀ j, j < 32 → s.homeOf (32 * k + j) = 32 * h + j := by
    refine ⟨k, fun j hj => ?_⟩
    unfold State.homeOf
    split
    · next e => exact absurd e (hp j hj _ _ _)
    · rfl
  by_cases hd : 32 * k < 2 ^ 40
  · refine stays fun j hj p w o => ?_
    rw [regionOf, if_pos (by omega)]
    exact Region.noConfusion
  by_cases hr : 2 ^ 51 ≤ 32 * k ∧ 32 * k < 2 ^ 51 + 16 * 2 ^ 40
  · refine stays fun j hj p w o => ?_
    rw [regionOf, if_neg (by omega), if_pos (by omega)]
    split <;> exact Region.noConfusion
  by_cases hw : 2 ^ 48 ≤ 32 * k ∧ 32 * k < 2 ^ 48 + 32 * 2 ^ 43
  · obtain ⟨d, hd⟩ := Nat.exists_eq_add_of_le hw.1
    have hreg {j : Nat} (hj : j < 32) : regionOf s (32 * k + j) =
        if (wordAt s.links.pwcfg (d / 2 ^ 43)).getLsbD 63 && decide (d % 2 ^ 43 + j < natBits (wordAt s.links.pwcfg (d / 2 ^ 43)).toNat 22 0 * 2 ^ 21) then
          .pool (d / 2 ^ 43 / 4) (d / 2 ^ 43 % 4) (d % 2 ^ 43 + j) else .none := by
      rw [regionOf, if_neg (by omega), if_neg (by omega), if_pos (by omega), hd, Nat.add_assoc, Nat.add_sub_cancel_left,
        show (d + j) / 2 ^ 43 = d / 2 ^ 43 by omega, show (d + j) % 2 ^ 43 = d % 2 ^ 43 + j by omega]
    obtain ⟨wi, hwi⟩ : ∃ wi, d / 2 ^ 43 = wi := ⟨_, rfl⟩
    obtain ⟨off, hoff⟩ : ∃ off, d % 2 ^ 43 = off := ⟨_, rfl⟩
    rw [hwi, hoff] at hreg
    by_cases hin : (wordAt s.links.pwcfg wi).getLsbD 63 = true ∧ off < natBits (wordAt s.links.pwcfg wi).toNat 22 0 * 2 ^ 21
    · obtain ⟨f, hf⟩ : ∃ f, natBits (wordAt s.links.pwbase (4 * (wi / 4) + wi % 4)).toNat 63 21 = f := ⟨_, rfl⟩
      refine ⟨2 ^ 75 + wi / 4 * 2 ^ 59 + (f * 2 ^ 21 + off) % 2 ^ 64 / 32, fun j hj => ?_⟩
      unfold State.homeOf
      rw [hreg hj, if_pos (by rw [hin.1, Bool.true_and, decide_eq_true_eq]; omega)]
      dsimp only
      rw [hf]
      omega
    · refine stays fun j hj p w o => ?_
      rw [hreg hj, if_neg]
      · exact Region.noConfusion
      · rw [Bool.and_eq_true, decide_eq_true_eq]
        exact fun h => hin ⟨h.1, by omega⟩
  · refine stays fun j hj p w o => ?_
    rw [regionOf, if_neg (by omega), if_neg (by omega), if_neg (by omega)]
    exact Region.noConfusion

/-- Two bytes of one sector lie as far apart at home, and in one sector there. -/
theorem homeOf_of_sector {s : State} {a b : Nat} (h : a / 32 = b / 32) :
    s.homeOf a / 32 = s.homeOf b / 32 ∧ s.homeOf a % 32 = a % 32 ∧ s.homeOf b % 32 = b % 32 := by
  obtain ⟨H, hH⟩ := homeOf_sector s (a / 32)
  have ha := hH (a % 32) (by omega)
  have hb := hH (b % 32) (by omega)
  rw [show 32 * (a / 32) + a % 32 = a by omega] at ha
  rw [show 32 * (a / 32) + b % 32 = b by omega] at hb
  omega

theorem plainRow_of_sector {s : State} {a b : Nat} (h : a / 32 = b / 32) : s.plainRow a = s.plainRow b := by
  have hs : subOf a = subOf b := by
    simp only [subOf, natBits, Nat.shiftRight_eq_div_pow]
    omega
  have hl : decide (a < 2 ^ 40) = decide (b < 2 ^ 40) := by
    rw [decide_eq_decide]
    omega
  rw [State.plainRow, State.plainRow, hs, hl]

theorem lt_of_plainRow {s : State} {a : Nat} (h : s.plainRow a = true) : a < 2 ^ 40 := by
  rw [State.plainRow, Bool.and_eq_true, decide_eq_true_eq] at h
  exact h.1

/-! ## The layers of a sector (R117) -/

/-- The bits of a mask of consecutive bytes. -/
theorem maskBits_getLsbD (o n i : Nat) : (maskBits o n).getLsbD i = decide (i < 32 ∧ o ≤ i ∧ i < o + n) := by
  rw [maskBits, BitVec.getLsbD_ofNat, Nat.testBit_mul_two_pow, Nat.testBit_two_pow_sub_one]
  by_cases h1 : i < 32 <;> by_cases h2 : o ≤ i <;> simp [h1, h2]
  omega

/-- The layers of a sector as memory lists them. -/
def layersAt (ts : List SectorTag) (i : Nat) : List Layer := match tagGet ts i with | some t => t.layers | none => []

theorem layersAt_apart {ts : List SectorTag} (h : Laws.TagsOk ts) (i : Nat) : (layersAt ts i).Pairwise Laws.Apart := by
  unfold layersAt
  split
  · next t e => exact (h.2 t (Laws.tagGet_mem e).1).2
  · exact .nil

/-- A layer of a key, a version and a sector. -/
def Layer.mine (key : Option (BitVec 512)) (ver : BitVec 32) (sector : Nat) (l : Layer) : Bool := l.key == key && l.ver == ver && l.sector == sector

/-- The bytes that the layer of a key, a version and a sector holds. -/
def mineMask (ls : List Layer) (key : Option (BitVec 512)) (ver : BitVec 32) (sector : Nat) : BitVec 32 :=
  match ls.find? (Layer.mine key ver sector) with | some l => l.mask | none => 0

/-- The layer that a write extends. -/
def frontLayer (ls : List Layer) (key : Option (BitVec 512)) (ver : BitVec 32) (sector : Nat) (new : BitVec 32) (name : Nat) : Layer :=
  { key := key, ver := ver, sector := sector, mask := mineMask ls key ver sector ||| new, name := name }

/-- The layers that a write takes bytes from. -/
def otherLayers (ls : List Layer) (key : Option (BitVec 512)) (ver : BitVec 32) (sector : Nat) (new : BitVec 32) : List Layer :=
  ((ls.filter fun l => !Layer.mine key ver sector l).map fun l => { l with mask := l.mask &&& ~~~new }).filter fun l => l.mask != 0

theorem coverTag_layers (ts : List SectorTag) (key : Option (BitVec 512)) (ver : BitVec 32) (sector idx : Nat) (new : BitVec 32) (name : Nat) :
    (State.writeSector.coverTag ts key ver sector idx new name).layers =
      frontLayer (layersAt ts idx) key ver sector new name :: otherLayers (layersAt ts idx) key ver sector new := rfl

/-- No two layers of a sector hold one byte. -/
theorem eq_of_apart {ls : List Layer} (h : ls.Pairwise Laws.Apart) {l m : Layer} (hl : l ∈ ls) (hm : m ∈ ls)
    (hb : (∃ j, l.mask.getLsbD j = true ∧ m.mask.getLsbD j = true) ∨ m.key = l.key ∧ m.ver = l.ver ∧ m.sector = l.sector) : l = m := by
  by_contra hne
  have : Std.Symm Laws.Apart := ⟨fun _ _ => Laws.Apart.symm⟩
  obtain ⟨hk, hz⟩ := h.forall hl hm hne
  rcases hb with ⟨j, h1, h2⟩ | hk'
  · have := congrArg (fun x => x.getLsbD j) hz
    simp [h1, h2] at this
  · exact hk hk'

theorem exists_of_mineMask {ls : List Layer} {key : Option (BitVec 512)} {ver : BitVec 32} {sector j : Nat}
    (h : (mineMask ls key ver sector).getLsbD j = true) : ∃ l ∈ ls, Layer.mine key ver sector l = true ∧ l.mask.getLsbD j = true := by
  unfold mineMask at h
  split at h
  · next l e => exact ⟨l, List.mem_of_find?_eq_some e, List.find?_some e, h⟩
  · simp at h

theorem exists_of_mem_otherLayers {ls : List Layer} {key : Option (BitVec 512)} {ver : BitVec 32} {sector j : Nat} {new : BitVec 32} {m : Layer}
    (hm : m ∈ otherLayers ls key ver sector new) (hb : m.mask.getLsbD j = true) :
    ∃ l ∈ ls, Layer.mine key ver sector l = false ∧ l.mask.getLsbD j = true ∧ m = { l with mask := l.mask &&& ~~~new } := by
  obtain ⟨l, hl, rfl⟩ := List.mem_map.1 (List.mem_filter.1 hm).1
  obtain ⟨hl, hn⟩ := List.mem_filter.1 hl
  refine ⟨l, hl, by simpa using hn, ?_, rfl⟩
  rw [BitVec.getLsbD_and, Bool.and_eq_true] at hb
  exact hb.1

/-- In a sector whose layers lie apart, the one that holds a byte of the writer is the one that the write extends. -/
theorem mineMask_of_mem {ls : List Layer} (h : ls.Pairwise Laws.Apart) {key : Option (BitVec 512)} {ver : BitVec 32} {sector : Nat} {l : Layer} (hl : l ∈ ls)
    (hm : Layer.mine key ver sector l = true) : mineMask ls key ver sector = l.mask := by
  unfold mineMask
  split
  · next m e =>
    have hm' := List.find?_some e
    simp only [Layer.mine, Bool.and_eq_true, beq_iff_eq] at hm hm'
    rw [eq_of_apart h hl (List.mem_of_find?_eq_some e) (.inr ⟨hm'.1.1.trans hm.1.1.symm, hm'.1.2.trans hm.1.2.symm, hm'.2.trans hm.2.symm⟩)]
  · next e => exact absurd hm (List.find?_eq_none.1 e l hl)

/-- The layer that holds a byte outside a write, once the write is done: the extended one where it was that of the writer, the shortened one elsewhere. -/
theorem find_layer_outside {ls : List Layer} (h : ls.Pairwise Laws.Apart) (key : Option (BitVec 512)) (ver : BitVec 32) (sector : Nat) {new : BitVec 32}
    (name : Nat) {j : Nat} (hj : new.getLsbD j = false) :
    (frontLayer ls key ver sector new name :: otherLayers ls key ver sector new).find? (fun l => l.mask.getLsbD j) =
      (ls.find? fun l => l.mask.getLsbD j).map fun l =>
        if Layer.mine key ver sector l then frontLayer ls key ver sector new name else { l with mask := l.mask &&& ~~~new } := by
  have hfront : (frontLayer ls key ver sector new name).mask.getLsbD j = (mineMask ls key ver sector).getLsbD j := by simp [frontLayer, hj]
  cases hf : ls.find? fun l => l.mask.getLsbD j with
  | none =>
    have hnone : ∀ l ∈ ls, ¬ l.mask.getLsbD j = true := List.find?_eq_none.1 hf
    refine List.find?_eq_none.2 fun m hm hb => ?_
    rcases List.mem_cons.1 hm with rfl | hm
    · obtain ⟨l, hl, -, hlb⟩ := exists_of_mineMask (hfront ▸ hb)
      exact hnone l hl hlb
    · obtain ⟨l, hl, -, hlb, -⟩ := exists_of_mem_otherLayers hm hb
      exact hnone l hl hlb
  | some l =>
    have hl := List.mem_of_find?_eq_some hf
    have hlb : l.mask.getLsbD j = true := List.find?_some (p := fun l : Layer => l.mask.getLsbD j) hf
    cases hm : Layer.mine key ver sector l with
    | true =>
      rw [List.find?_cons_of_pos (by rw [hfront, mineMask_of_mem h hl hm]; exact hlb), Option.map_some, if_pos hm]
    | false =>
      have hnf : ¬ (frontLayer ls key ver sector new name).mask.getLsbD j = true := by
        rw [hfront]
        intro hb
        obtain ⟨m, hm', hmm, hmb⟩ := exists_of_mineMask hb
        rw [eq_of_apart h hl hm' (.inl ⟨j, hlb, hmb⟩), hmm] at hm
        cases hm
      rw [List.find?_cons_of_neg (p := fun l : Layer => l.mask.getLsbD j) hnf, Option.map_some, if_neg (by simp [hm])]
      have hbit : (l.mask &&& ~~~new).getLsbD j = true := by
        rw [BitVec.getLsbD_and, BitVec.getLsbD_not, hlb, hj, decide_eq_true (BitVec.lt_of_getLsbD hlb)]
        rfl
      have hmem : { l with mask := l.mask &&& ~~~new } ∈ otherLayers ls key ver sector new := by
        refine List.mem_filter.2 ⟨List.mem_map.2 ⟨l, List.mem_filter.2 ⟨hl, by simp [hm]⟩, rfl⟩, ?_⟩
        refine bne_iff_ne.2 fun hz => ?_
        dsimp only at hz
        rw [hz] at hbit
        simp at hbit
      cases hf' : (otherLayers ls key ver sector new).find? fun l => l.mask.getLsbD j with
      | none => exact absurd hbit (List.find?_eq_none.1 hf' _ hmem)
      | some m =>
        have hmb : m.mask.getLsbD j = true := List.find?_some (p := fun l : Layer => l.mask.getLsbD j) hf'
        obtain ⟨l', hl', -, hlb', rfl⟩ := exists_of_mem_otherLayers (List.mem_of_find?_eq_some hf') hmb
        rw [eq_of_apart h hl hl' (.inl ⟨j, hlb, hlb'⟩)]

/-! ## Bytes read under another key (R117) -/

theorem cellsGet_get (cs : List Host.Cell) (a : Nat) {n i : Nat} (h : i < n) : (cellsGet cs a n)[i]? = some (cellGet cs (a + i)) := by
  induction n generalizing a i with
  | zero => omega
  | succ n ih =>
    cases i with
    | zero => rfl
    | succ i => rw [cellsGet, List.getElem?_cons_succ, ih (a + 1) (by omega), Nat.add_right_comm, Nat.add_assoc]

/-- What a byte decrypts to depends on the bytes of its 16-byte block alone, and on which of them its layer holds. -/
theorem wrongByte_congr {l m : Layer} (hk : l.key = m.key) (hv : l.ver = m.ver) (hs : l.sector = m.sector) (hn : l.name = m.name) (key : BitVec 512)
    (tweak : BitVec 128) {xs ys : List Byte} {off : Nat} (hm : l.mask.extractLsb' (16 * (off / 16)) 16 = m.mask.extractLsb' (16 * (off / 16)) 16)
    (hb : ∀ i, i < 16 → xs[16 * (off / 16) + i]? = ys[16 * (off / 16) + i]?) : l.wrongByte key tweak xs off = m.wrongByte key tweak ys off := by
  have hblock : (xs.drop (16 * (off / 16))).take 16 = (ys.drop (16 * (off / 16))).take 16 := by
    refine List.ext_getElem? fun i => ?_
    rw [List.getElem?_take, List.getElem?_take]
    split
    · next hi => rw [List.getElem?_drop, List.getElem?_drop, hb i hi]
    · rfl
  have hlist (b : BitVec 16) : ((List.range 16).map fun i => if b.getLsbD i then xs.getD (16 * (off / 16) + i) 0 else 0) =
      (List.range 16).map fun i => if b.getLsbD i then ys.getD (16 * (off / 16) + i) 0 else 0 := by
    refine List.map_congr_left fun i hi => ?_
    rw [List.getD_eq_getElem?_getD, List.getD_eq_getElem?_getD, hb i (List.mem_range.1 hi)]
  simp only [Layer.wrongByte, hk, hv, hs, hn, hm, hblock, hlist]

/-! ## A write within a sector -/

/-- A byte reads under a key and a version as it was written: its row is plaintext, or what holds it was written under them. -/
def ReadsAs (s : State) (key : BitVec 512) (ver : BitVec 32) (a : Nat) : Prop :=
  s.plainRow a = true ∨ ∀ l, s.layerOf a = some l → l.is key ver a = true

/-- A byte reads in `s'` as in `s`, and still as it was written where it did. -/
def KeepsReading (s s' : State) (key : BitVec 512) (ver : BitVec 32) (b : Nat) : Prop :=
  s'.readByte key ver b = s.readByte key ver b ∧ (ReadsAs s key ver b → ReadsAs s' key ver b)

/-- The reading of a byte rests on its row, its layer, and the bytes beside it in its sector. -/
theorem keepsReading_of_same {s s' : State} {b : Nat} (hp : s'.plainRow b = s.plainRow b) (hl : s'.layerOf b = s.layerOf b) (hh : s'.homeOf b = s.homeOf b)
    (hb : s.plainRow b = true → cellGet s'.mem.cells b = cellGet s.mem.cells b)
    (hs : s.plainRow b = false → ∀ a, a / 32 = s.homeOf b / 32 → cellGet s'.mem.cells a = cellGet s.mem.cells a) {key : BitVec 512} {ver : BitVec 32} :
    KeepsReading s s' key ver b := by
  constructor
  · rw [State.readByte, State.readByte, hp, hl, hh]
    split
    · next h => exact hb h
    · next h =>
      have hs := hs (Bool.eq_false_iff.2 h)
      obtain ⟨-, hmb, -⟩ := homeOf_of_sector (s := s) (a := b) (b := b) rfl
      split
      · rfl
      · split
        · exact hs _ rfl
        · refine wrongByte_congr rfl rfl rfl rfl key _ rfl fun i hi => ?_
          rw [cellsGet_get _ _ (by omega), cellsGet_get _ _ (by omega), hs _ (by omega)]
  · rw [ReadsAs, ReadsAs, hp, hl]
    exact id

section Sector

variable (s : State) (key : BitVec 512) (ver : BitVec 32) (pa : Nat) (xs : List Byte)

theorem writeSector_links : (s.writeSector key ver pa xs).links = s.links := by
  unfold State.writeSector
  split <;> rfl

theorem writeSector_homeOf (a : Nat) : (s.writeSector key ver pa xs).homeOf a = s.homeOf a := by
  simp only [State.homeOf, regionOf, writeSector_links]

theorem writeSector_plainRow (a : Nat) : (s.writeSector key ver pa xs).plainRow a = s.plainRow a := by
  unfold State.writeSector
  split
  · simp only [State.plainRow, State.setOf, List.find?_map, Option.isSome_map]
    congr 3
    funext r
    simp only [Function.comp_apply]
    split <;> rfl
  · rfl

variable {s pa}

/-- The layer that holds a byte, after a write to a row that is not plaintext. -/
theorem writeSector_layerOf (hp : s.plainRow pa = false) (a : Nat) : (s.writeSector key ver pa xs).layerOf a =
    if s.homeOf a / 32 = s.homeOf pa / 32 then
      (frontLayer (layersAt s.mem.tags (s.homeOf pa / 32)) (some key) ver (pa / 32) (maskBits (pa % 32) xs.length) 0 ::
        otherLayers (layersAt s.mem.tags (s.homeOf pa / 32)) (some key) ver (pa / 32) (maskBits (pa % 32) xs.length)).find? fun l => l.mask.getLsbD (a % 32)
    else s.layerOf a := by
  have ht : (s.writeSector key ver pa xs).mem.tags = tagPut s.mem.tags
      (State.writeSector.coverTag s.mem.tags (some key) ver (pa / 32) (s.homeOf pa / 32) (maskBits (pa % 32) xs.length) 0) := by
    rw [State.writeSector, if_neg (by simp [hp])]
  rw [State.layerOf, writeSector_homeOf, ht, Laws.tagGet_tagPut,
    show (State.writeSector.coverTag s.mem.tags (some key) ver (pa / 32) (s.homeOf pa / 32) (maskBits (pa % 32) xs.length) 0).idx = s.homeOf pa / 32 from rfl]
  by_cases h : s.homeOf a / 32 = s.homeOf pa / 32
  · rw [if_pos h, if_pos h, Option.bind_some, coverTag_layers]
  · rw [if_neg h, if_neg h, State.layerOf]

theorem layerOf_eq_find (a : Nat) : s.layerOf a = (layersAt s.mem.tags (s.homeOf a / 32)).find? fun l => l.mask.getLsbD (a % 32) := by
  unfold State.layerOf layersAt
  cases tagGet s.mem.tags (s.homeOf a / 32) <;> rfl

variable (hwf : s.mem.wf = true)
include hwf

theorem writeSector_cell_plain (hp : s.plainRow pa = true) (a : Nat) : cellGet (s.writeSector key ver pa xs).mem.cells a =
    if pa ≤ a ∧ a < pa + xs.length then xs.getD (a - pa) 0 else cellGet s.mem.cells a := by
  rw [State.writeSector, if_pos hp]
  exact Laws.cellGet_cellsPut _ _ _ ((Laws.wf_iff _).1 hwf).1

theorem writeSector_cell (hp : s.plainRow pa = false) (a : Nat) : cellGet (s.writeSector key ver pa xs).mem.cells a =
    if s.homeOf pa ≤ a ∧ a < s.homeOf pa + xs.length then xs.getD (a - s.homeOf pa) 0 else cellGet s.mem.cells a := by
  rw [State.writeSector, if_neg (by simp [hp])]
  exact Laws.cellGet_cellsPut _ _ _ ((Laws.wf_iff _).1 hwf).1

variable {xs} (hlen : pa % 32 + xs.length ≤ 32)
include hlen

/-- A byte of the write reads as written, and goes on doing so. -/
theorem writeSector_reads {b : Nat} (hlo : pa ≤ b) (hhi : b < pa + xs.length) :
    (s.writeSector key ver pa xs).readByte key ver b = xs.getD (b - pa) 0 ∧ ReadsAs (s.writeSector key ver pa xs) key ver b := by
  have hsec : pa / 32 = b / 32 := by omega
  obtain ⟨hh, hma, hmb⟩ := homeOf_of_sector (s := s) hsec
  cases hp : s.plainRow pa with
  | true =>
    have hpb : (s.writeSector key ver pa xs).plainRow b = true := by rw [writeSector_plainRow, ← plainRow_of_sector hsec, hp]
    rw [State.readByte, if_pos hpb, writeSector_cell_plain key ver xs hwf hp, if_pos ⟨hlo, hhi⟩]
    exact ⟨rfl, .inl hpb⟩
  | false =>
    have hpb : ¬ (s.writeSector key ver pa xs).plainRow b = true := by rw [writeSector_plainRow, ← plainRow_of_sector hsec, hp]; simp
    have hl : (s.writeSector key ver pa xs).layerOf b =
        some (frontLayer (layersAt s.mem.tags (s.homeOf pa / 32)) (some key) ver (pa / 32) (maskBits (pa % 32) xs.length) 0) := by
      rw [writeSector_layerOf key ver xs hp, if_pos hh.symm, List.find?_cons_of_pos]
      rw [frontLayer, BitVec.getLsbD_or, maskBits_getLsbD, decide_eq_true (by omega), Bool.or_true]
    have his : Layer.is (frontLayer (layersAt s.mem.tags (s.homeOf pa / 32)) (some key) ver (pa / 32) (maskBits (pa % 32) xs.length) 0) key ver b = true := by
      simp [Layer.is, frontLayer, hsec]
    refine ⟨?_, .inr fun l h => ?_⟩
    · rw [State.readByte, if_neg hpb, hl]
      dsimp only
      rw [if_pos his, writeSector_homeOf, writeSector_cell key ver xs hwf hp, if_pos (by omega), show s.homeOf b - s.homeOf pa = b - pa by omega]
    · rw [hl, Option.some.injEq] at h
      exact h ▸ his

variable {b : Nat}

omit hlen in
/-- The layer of a byte of the written sector that the write leaves out. -/
theorem writeSector_layerOf_outside (hp : s.plainRow pa = false) (hh : s.homeOf b / 32 = s.homeOf pa / 32) (hsec : pa / 32 = b / 32)
    (hout : ¬ (pa ≤ b ∧ b < pa + xs.length)) : (s.writeSector key ver pa xs).layerOf b = (s.layerOf b).map fun l =>
      if l.is key ver b then frontLayer (layersAt s.mem.tags (s.homeOf pa / 32)) (some key) ver (pa / 32) (maskBits (pa % 32) xs.length) 0
      else { l with mask := l.mask &&& ~~~(maskBits (pa % 32) xs.length) } := by
  have hbit : (maskBits (pa % 32) xs.length).getLsbD (b % 32) = false := by
    rw [maskBits_getLsbD, decide_eq_false_iff_not]
    omega
  have hapart := layersAt_apart ((Laws.wf_iff _).1 hwf).2.2 (s.homeOf pa / 32)
  have hmine (l : Layer) : Layer.mine (some key) ver (pa / 32) l = l.is key ver b := by rw [Layer.mine, Layer.is, hsec]
  rw [writeSector_layerOf key ver xs hp, if_pos hh, find_layer_outside hapart (some key) ver (pa / 32) 0 hbit, layerOf_eq_find, hh]
  simp only [hmine]

omit hlen in
/-- A byte of the written sector that the write leaves out, and whose reading it keeps (R117). -/
theorem writeSector_keeps_beside (hp : s.plainRow pa = false) (hh : s.homeOf b / 32 = s.homeOf pa / 32) (hsec : pa / 32 = b / 32)
    (hout : ¬ (pa ≤ b ∧ b < pa + xs.length)) (hk : KeepsByte s key ver pa xs.length b) : KeepsReading s (s.writeSector key ver pa xs) key ver b := by
  have hpb : (s.writeSector key ver pa xs).plainRow b = s.plainRow b := writeSector_plainRow ..
  have hnb : s.plainRow b = false := by rw [← plainRow_of_sector hsec, hp]
  have hlay := writeSector_layerOf_outside key ver hwf hp hh hsec hout
  have hfront : Layer.is (frontLayer (layersAt s.mem.tags (s.homeOf pa / 32)) (some key) ver (pa / 32) (maskBits (pa % 32) xs.length) 0) key ver b = true := by
    simp [Layer.is, frontLayer, hsec]
  obtain ⟨-, hmpa, hmb⟩ := homeOf_of_sector (s := s) hsec
  have hcell (a : Nat) (ha : ¬ (s.homeOf pa ≤ a ∧ a < s.homeOf pa + xs.length)) :
      cellGet (s.writeSector key ver pa xs).mem.cells a = cellGet s.mem.cells a := by
    rw [writeSector_cell key ver xs hwf hp, if_neg ha]
  constructor
  · rw [State.readByte, State.readByte, hpb, if_neg (by simp [hnb]), if_neg (by simp [hnb]), hlay, writeSector_homeOf]
    cases hlb : s.layerOf b with
    | none => rfl
    | some l =>
      rw [Option.map_some]
      cases his : l.is key ver b with
      | true =>
        simp only [if_true, hfront]
        rw [if_pos his]
        exact hcell _ (by omega)
      | false =>
        simp only [Bool.false_eq_true, if_false]
        rw [if_neg (by simpa [Layer.is] using his), if_neg (by simp [his])]
        have hblock : ∀ x, pa ≤ x → x < pa + xs.length → x / 16 ≠ b / 16 := by
          rcases hk.2 with h | h | h
          · simp [hnb] at h
          · simp [h l hlb] at his
          · exact h
        have hclear {i : Nat} (hi : i < 16) : ¬ (pa % 32 ≤ 16 * (b % 32 / 16) + i ∧ 16 * (b % 32 / 16) + i < pa % 32 + xs.length) := by
          intro hin
          exact hblock (pa / 32 * 32 + (16 * (b % 32 / 16) + i)) (by omega) (by omega) (by omega)
        refine wrongByte_congr (l := { l with mask := l.mask &&& ~~~(maskBits (pa % 32) xs.length) }) (m := l) rfl rfl rfl rfl key _ ?_ fun i hi => ?_
        · ext i hi
          have := maskBits_getLsbD (pa % 32) xs.length (16 * (b % 32 / 16) + i)
          rw [decide_eq_false (fun h => hclear hi h.2)] at this
          simp [this]
          omega
        · have := hclear hi
          rw [cellsGet_get _ _ (by omega), cellsGet_get _ _ (by omega), hcell _ (by omega)]
  · refine fun h => .inr fun l' hl' => ?_
    rw [hlay] at hl'
    obtain ⟨l, hlb, rfl⟩ := Option.map_eq_some_iff.1 hl'
    rw [if_pos ((h.resolve_left (by simp [hnb])) l hlb)]
    exact hfront

/-- A byte outside the write that the write does not name by another address and whose reading it keeps (R117, R407). -/
theorem writeSector_keeps (hne : xs ≠ []) (hout : ¬ (pa ≤ b ∧ b < pa + xs.length)) (hk : KeepsByte s key ver pa xs.length b) :
    KeepsReading s (s.writeSector key ver pa xs) key ver b := by
  have hsame (h : s.homeOf pa / 32 = s.homeOf b / 32) : pa / 32 = b / 32 :=
    hk.1 pa (Nat.le_refl _) (Nat.lt_add_of_pos_right (List.length_pos_iff.2 hne)) h
  have hpb : (s.writeSector key ver pa xs).plainRow b = s.plainRow b := writeSector_plainRow ..
  cases hp : s.plainRow pa with
  | true =>
    have ht : (s.writeSector key ver pa xs).mem.tags = s.mem.tags := by rw [State.writeSector, if_pos hp]
    have hlay : (s.writeSector key ver pa xs).layerOf b = s.layerOf b := by rw [State.layerOf, writeSector_homeOf, ht, State.layerOf]
    have hcell (a : Nat) (ha : ¬ (pa ≤ a ∧ a < pa + xs.length)) : cellGet (s.writeSector key ver pa xs).mem.cells a = cellGet s.mem.cells a := by
      rw [writeSector_cell_plain key ver xs hwf hp, if_neg ha]
    refine keepsReading_of_same hpb hlay (writeSector_homeOf ..) (fun _ => hcell b hout) fun hnb a ha => hcell a fun hin => ?_
    have hhome : s.homeOf pa = pa := Laws.homeOf_dram s (lt_of_plainRow hp)
    have hsec := hsame (by omega)
    rw [← plainRow_of_sector hsec, hp] at hnb
    cases hnb
  | false =>
    obtain ⟨-, hmpa, -⟩ := homeOf_of_sector (s := s) (a := pa) (b := pa) rfl
    by_cases hh : s.homeOf b / 32 = s.homeOf pa / 32
    · exact writeSector_keeps_beside key ver hwf hp hh (hsame hh.symm) hout hk
    have hcell (a : Nat) (ha : a / 32 = s.homeOf b / 32) : cellGet (s.writeSector key ver pa xs).mem.cells a = cellGet s.mem.cells a := by
      rw [writeSector_cell key ver xs hwf hp, if_neg (by omega)]
    refine keepsReading_of_same hpb (by rw [writeSector_layerOf key ver xs hp, if_neg hh]) (writeSector_homeOf ..) (fun hb => hcell b ?_) fun _ => hcell
    rw [Laws.homeOf_dram s (lt_of_plainRow hb)]

end Sector

/-! ## A write of any length -/

/-- What a write leaves of a byte that a later part of it does not name. -/
theorem keepsByte_of_readsAs {s : State} {key : BitVec 512} {ver : BitVec 32} {pa n b : Nat} (hr : ReadsAs s key ver b)
    (hname : ∀ x, pa ≤ x → x < pa + n → s.homeOf x / 32 = s.homeOf b / 32 → x / 32 = b / 32) : KeepsByte s key ver pa n b :=
  ⟨hname, hr.imp_right .inl⟩

/-- A byte of the write reads as written; a byte that the write keeps reads as before. -/
theorem writeBytesF_readByte (key : BitVec 512) (ver : BitVec 32) (fuel : Nat) : ∀ (s : State) (pa : Nat) (xs : List Byte), s.mem.wf = true → xs.length ≤ fuel →
    (∀ b, pa ≤ b → b < pa + xs.length → (∀ x, pa ≤ x → x < pa + xs.length → s.homeOf x / 32 = s.homeOf b / 32 → x / 32 = b / 32) →
      (s.writeBytesF key ver pa xs fuel).readByte key ver b = xs.getD (b - pa) 0) ∧
    ∀ b, ¬ (pa ≤ b ∧ b < pa + xs.length) → KeepsByte s key ver pa xs.length b → (s.writeBytesF key ver pa xs fuel).readByte key ver b = s.readByte key ver b := by
  induction fuel with
  | zero =>
    intro s pa xs _ hf
    exact ⟨fun b h1 h2 => by omega, fun _ _ _ => rfl⟩
  | succ fuel ih =>
    intro s pa xs hwf hf
    by_cases hxs : xs = []
    · subst hxs
      exact ⟨fun b h1 h2 => by rw [List.length_nil] at h2; omega, fun _ _ _ => rfl⟩
    have hstep : s.writeBytesF key ver pa xs (fuel + 1) =
        (s.writeSector key ver pa (xs.take (32 - pa % 32))).writeBytesF key ver (pa + (32 - pa % 32)) (xs.drop (32 - pa % 32)) fuel := by
      obtain ⟨x, ys, rfl⟩ := List.exists_cons_of_ne_nil hxs
      rfl
    have hpos : 0 < xs.length := List.length_pos_iff.2 hxs
    have hm : 0 < 32 - pa % 32 := by omega
    generalize hmd : 32 - pa % 32 = m at hstep hm
    have hcl : (xs.take m).length = Nat.min m xs.length := List.length_take
    have hdl : (xs.drop m).length = xs.length - m := List.length_drop
    have hmin : Nat.min m xs.length = if m ≤ xs.length then m else xs.length := rfl
    have hlen : pa % 32 + (xs.take m).length ≤ 32 := by
      rw [hcl, hmin]
      split <;> omega
    have hne : xs.take m ≠ [] := by
      rw [← List.length_pos_iff, hcl, hmin]
      split <;> omega
    obtain ⟨ihw, ihk⟩ := ih (s.writeSector key ver pa (xs.take m)) (pa + m) (xs.drop m) (Laws.writeSector_wf _ _ _ _ hwf) (by omega)
    simp only [writeSector_homeOf] at ihw
    rw [hstep]
    refine ⟨fun b hlo hhi hname => ?_, fun b hout hk => ?_⟩
    · by_cases hb : b < pa + m
      · obtain ⟨hr, hra⟩ := writeSector_reads key ver hwf hlen hlo (by rw [hcl, hmin]; split <;> omega)
        rw [ihk b (by omega) (keepsByte_of_readsAs hra fun x h1 h2 => by
          simp only [writeSector_homeOf]
          exact hname x (by omega) (by omega)), hr]
        simp only [List.getD_eq_getElem?_getD, List.getElem?_take]
        rw [if_pos (by omega)]
      · rw [ihw b (by omega) (by omega) fun x h1 h2 => hname x (by omega) (by omega)]
        simp only [List.getD_eq_getElem?_getD, List.getElem?_drop]
        rw [show m + (b - (pa + m)) = b - pa by omega]
    · have hk1 : KeepsByte s key ver pa (xs.take m).length b :=
        ⟨fun x h1 h2 => hk.1 x h1 (by rw [hcl, hmin] at h2; split at h2 <;> omega),
          hk.2.imp_right fun h => h.imp_right fun h x h1 h2 => h x h1 (by rw [hcl, hmin] at h2; split at h2 <;> omega)⟩
      obtain ⟨hr, hra⟩ := writeSector_keeps key ver hwf hlen hne (b := b) (by rw [hcl, hmin]; split <;> omega) hk1
      rw [ihk b (by omega) ⟨fun x h1 h2 => by simp only [writeSector_homeOf]; exact hk.1 x (by omega) (by omega), ?_⟩, hr]
      rcases hk.2 with h | h | h
      · exact (hra (.inl h)).imp_right .inl
      · exact (hra (.inr h)).imp_right .inl
      · exact .inr (.inr fun x h1 h2 => h x (by omega) (by omega))

theorem writeBytes_reads {s : State} (hwf : s.mem.wf = true) (key : BitVec 512) (ver : BitVec 32) {pa b : Nat} {xs : List Byte} (hlo : pa ≤ b)
    (hhi : b < pa + xs.length) (hname : ∀ x, pa ≤ x → x < pa + xs.length → s.homeOf x / 32 = s.homeOf b / 32 → x / 32 = b / 32) :
    (s.writeBytes key ver pa xs).readByte key ver b = xs.getD (b - pa) 0 :=
  (writeBytesF_readByte key ver (xs.length + 1) s pa xs hwf (Nat.le_succ _)).1 b hlo hhi hname

theorem writeBytes_keeps {s : State} (hwf : s.mem.wf = true) {key : BitVec 512} {ver : BitVec 32} {pa b : Nat} {xs : List Byte}
    (hout : ¬ (pa ≤ b ∧ b < pa + xs.length)) (hk : KeepsByte s key ver pa xs.length b) :
    (s.writeBytes key ver pa xs).readByte key ver b = s.readByte key ver b :=
  (writeBytesF_readByte key ver (xs.length + 1) s pa xs hwf (Nat.le_succ _)).2 b hout hk

end Sys2Proof.Proofs
end

section
/-!
ENQ (R343, R63): what its issue puts in flight, and what its commit leaves of the queue, of the strand and of memory.
-/
namespace Sys2Proof.Proofs

open Sys2Proof Sys2Proof.Machine Sys2Proof.Safety

/-! ## What an access to the caches leaves (R141, R142, R380) -/

/-- `s'` differs from `s` in the caches, in what counts their use and in the banks that are still busy alone; every key stays. -/
structure CachesOnly (s s' : State) : Prop where
  rest : s' = { s with fresh := s'.fresh, llc := s'.llc, l2 := s'.l2, contexts := s'.contexts, rows := { s.rows with tails := s'.rows.tails } }
  keys : ∀ c, s'.keyOf c = s.keyOf c

namespace CachesOnly

theorem refl (s : State) : CachesOnly s s := ⟨rfl, fun _ => rfl⟩
theorem trans {s s1 s2 : State} (h : CachesOnly s s1) (g : CachesOnly s1 s2) : CachesOnly s s2 :=
  ⟨by rw [g.rest, h.rest], fun c => (g.keys c).trans (h.keys c)⟩

variable {s s' : State} (h : CachesOnly s s')
include h

theorem mem : s'.mem = s.mem := by rw [h.rest]
theorem links : s'.links = s.links := by rw [h.rest]
theorem sets : s'.rows.sets = s.rows.sets := by rw [h.rest]
theorem queues : s'.queues = s.queues := by rw [h.rest]
theorem groups : s'.groups = s.groups := by rw [h.rest]

end CachesOnly

/-- A change of a context that keeps its key. -/
theorem keyOf_modCtx (s : State) (c : Nat) {f : Context → Context} (hf : ∀ x, (f x).key = x.key) (i : Nat) : (s.modCtx c f).keyOf i = s.keyOf i := by
  simp only [State.keyOf, State.ctx, State.modCtx, List.getD_eq_getElem?_getD, Laws.modAt_get]
  split
  · cases s.contexts[i]? with
    | none => rfl
    | some x => simp [hf]
  · rfl

theorem cacheLine_cachesOnly (s : State) (w : CacheWay) (cid : Nat) (ver : BitVec 32) (line : Nat) : CachesOnly s (s.cacheLine w cid ver line) :=
  ⟨rfl, keyOf_modCtx s cid fun _ => rfl⟩

theorem cacheLines_cachesOnly (w : CacheWay) (cid : Nat) (ver : BitVec 32) (n : Nat) : ∀ (s : State) (line : Nat), CachesOnly s (s.cacheLines w cid ver line n) := by
  induction n with
  | zero => exact fun s _ => .refl s
  | succ n ih => exact fun s _ => (cacheLine_cachesOnly s ..).trans (ih _ _)

theorem cacheSpan_cachesOnly (s : State) (w : CacheWay) (cid : Nat) (ver : BitVec 32) (pa n : Nat) : CachesOnly s (s.cacheSpan w cid ver pa n) := by
  unfold State.cacheSpan
  split
  · exact .refl s
  · split
    · exact .refl s
    · exact cacheLines_cachesOnly ..

theorem cacheWork_cachesOnly (s : State) (o : Op) : CachesOnly s (s.cacheWork o) := by
  unfold State.cacheWork
  split
  · exact .refl s
  · refine foldl_rel CachesOnly.refl CachesOnly.trans (fun s a => ?_) _ s
    dsimp only [State.cacheTouch]
    split
    · exact cacheSpan_cachesOnly ..
    · exact .refl s

theorem countUnsealed_cachesOnly (s : State) (cid : Nat) (loc : Place) : CachesOnly s (s.countUnsealed cid loc) := by
  unfold State.countUnsealed
  split
  · split
    · exact ⟨rfl, keyOf_modCtx s cid fun _ => rfl⟩
    · exact .refl s
  · exact .refl s

/-! ## What a reading depends on (R117, R407) -/

section Same

variable {s s' : State} (hl : s'.links = s.links)
include hl

theorem homeOf_congr (a : Nat) : s'.homeOf a = s.homeOf a := by
  simp only [State.homeOf, regionOf, hl]
theorem remoteOf_congr (a : Nat) : remoteOf s' a = remoteOf s a := by
  simp only [remoteOf, regionOf, hl]

variable (hm : s'.mem = s.mem) (hs : s'.rows.sets = s.rows.sets)
include hm hs

theorem readByte_congr (key : BitVec 512) (ver : BitVec 32) (a : Nat) : s'.readByte key ver a = s.readByte key ver a := by
  have hp : s'.plainRow a = s.plainRow a := by rw [State.plainRow, State.setOf, hs, State.plainRow, State.setOf]
  have hlay : s'.layerOf a = s.layerOf a := by rw [State.layerOf, homeOf_congr hl, hm, State.layerOf]
  rw [State.readByte, hp, hlay, homeOf_congr hl, hm, State.readByte]

theorem keepsByte_congr {key : BitVec 512} {ver : BitVec 32} {pa n a : Nat} (h : KeepsByte s key ver pa n a) : KeepsByte s' key ver pa n a := by
  unfold KeepsByte at h ⊢
  simp only [State.plainRow, State.setOf, State.layerOf, homeOf_congr hl, hm, hs] at h ⊢
  exact h

end Same

theorem readBytes_length (s : State) (key : BitVec 512) (ver : BitVec 32) (pa n : Nat) : (s.readBytes key ver pa n).length = n := by
  induction n generalizing pa with
  | zero => rfl
  | succ n ih => rw [State.readBytes, List.length_cons, ih]

theorem readBytes_getD (s : State) (key : BitVec 512) (ver : BitVec 32) (pa : Nat) {n i : Nat} (h : i < n) (x : Byte) :
    (s.readBytes key ver pa n).getD i x = s.readByte key ver (pa + i) := by
  induction n generalizing pa i with
  | zero => omega
  | succ n ih =>
    cases i with
    | zero => rfl
    | succ i => rw [State.readBytes, List.getD_cons_succ, ih (pa + 1) (by omega), Nat.add_right_comm, Nat.add_assoc]

/-! ## The issue -/

/-- An operation that is put in flight stands last, under the counter's value. -/
theorem pushOp_appends (b : State) (u k cid : Nat) (w : Way) (work : OpWork) (rd wr : List Range) (after : List Nat) :
    ∃ o : Op, o.id = b.fresh ∧ o.work = work ∧ b.pushOp u k cid w work rd wr after = { b with fresh := b.fresh + 1, ops := b.ops ++ [o] } := by
  refine ⟨_, ?_, ?_, rfl⟩ <;> rfl

/-- An ENQ that puts a record in flight: the operation stands last, the strand goes on with KS risen (R343). -/
theorem enq_issues {s b : State} {u k : Nat} {g : Group} {t : Strand} {d a : BitVec 6} {qid : Nat} {loc p : Place} {slot : BitVec 32} {rd wr : List Range}
    (ha : Acts s u k g t) (he : enqE d a u k g t s = .done ((b.pushOp u k g.cid Way.enq (.enq qid loc slot p d) rd wr []).modStrand u k
      fun t => { t.mark d with ks := t.ks + 1 })) :
    ∃ o : Op, o.id = b.fresh ∧ o.work = .enq qid loc slot p d ∧ exec (.enq d a) s =
      .next (({ b with fresh := b.fresh + 1, ops := b.ops ++ [o] } : State).modStrand u k fun t' => { t'.mark d with ks := t'.ks + 1, pc := nextPc t.pc 4 }) := by
  obtain ⟨o, hi, hw, hb⟩ := pushOp_appends b u k g.cid Way.enq (.enq qid loc slot p d) rd wr []
  refine ⟨o, hi, hw, ?_⟩
  rw [show exec (.enq d a) s = runM (enqE d a) s from rfl, Laws.runM_next ha, he, State.finish, Laws.modStrand_modStrand, hb]

section Issue

variable {s s1 s2 : State} {u k : Nat} {g : Group} {t : Strand} {d a : BitVec 6} {pa ring : Nat}
  (hl : s.locateEl (.core g.core) g.cid .read 128 (t.x a) = (.ok pa, s1))
include hl

/-- Of a record that the queue refuses no ring slot is located. -/
theorem enqE_refused (hc : s1.enqStatus g.cid (natBits (t.x d).toNat 7 0) ≠ 0) : enqE d a u k g t s =
    .done ((s1.pushOp u k g.cid Way.enq (.enq (natBits (t.x d).toNat 7 0) (.phys pa) (s1.queue (natBits (t.x d).toNat 7 0)).tail (.buf .w 0) d)
      (rangesOf (.virt g.cid) 128 [(t.x a).toNat]) [] []).modStrand u k fun t => { t.mark d with ks := t.ks + 1 }) := by
  simp only [enqE, hl]
  exact if_pos hc

theorem enqE_taken (hc : s1.enqStatus g.cid (natBits (t.x d).toNat 7 0) = 0)
    (hr : s1.locateEl (.core g.core) g.cid .write 128 (BitVec.ofNat 64 ((s1.queue (natBits (t.x d).toNat 7 0)).slotVa (s1.queue (natBits (t.x d).toNat 7 0)).tail)) =
      (.ok ring, s2)) : enqE d a u k g t s =
    .done ((s2.pushOp u k g.cid Way.enq (.enq (natBits (t.x d).toNat 7 0) (.phys pa) (s1.queue (natBits (t.x d).toNat 7 0)).tail (.phys ring) d)
      (rangesOf (.virt g.cid) 128 [(t.x a).toNat])
      (rangesOf (.virt g.cid) 128 [(s1.queue (natBits (t.x d).toNat 7 0)).slotVa (s1.queue (natBits (t.x d).toNat 7 0)).tail]) []).modStrand u k
        fun t => { t.mark d with ks := t.ks + 1 }) := by
  simp only [enqE, hl]
  rw [if_neg (not_not.2 hc)]
  simp only [hr]

end Issue

/-! ## The end of a commit -/

/-- The end of an ENQ that is operation `i`: xD takes the status and the tail, KS falls, the operation is done (R343). -/
def enqEnd (s : State) (i : Nat) (o : Op) (loc : Place) (d : BitVec 6) (status : Nat) (tail : BitVec 32) : State :=
  (s.modStrand o.guid o.strand fun t =>
    (t.put { loc := loc, va := o.rd.foldl (fun (_ : Nat) (r : Range) => r.lo) 0, bytes := 8, shift := 0, width := 64, out := 64, sx := false, dst := .scalar d.toNat }
      (status + 2 ^ 32 * tail.toNat)).fallS).dropOp i

/-- The fall of KS may wake the strand, and changes no other register. -/
theorem fallS_registers (t : Strand) : t.fallS.v = t.v ∧ t.fallS.ks = t.ks - 1 ∧ t.fallS.pc = t.pc := by
  unfold Strand.fallS Strand.wakeIdle
  split <;> exact ⟨rfl, rfl, rfl⟩

/-- A scalar that is loaded goes to xN alone. -/
theorem put_scalar (t : Strand) {i : LoadItem} {d : BitVec 6} (h : i.dst = .scalar d.toNat) (x : Nat) :
    (t.put i x).v = (t.setX d (BitVec.ofNat 64 x)).v ∧ (t.put i x).ks = t.ks ∧ (t.put i x).pc = t.pc := by
  unfold Strand.put
  rw [h]
  exact ⟨rfl, rfl, rfl⟩

theorem x_of_v_eq {t t' : Strand} (h : t'.v = t.v) (r : BitVec 6) : t'.x r = t.x r := by
  rw [Strand.x, Strand.vreg, h, Strand.x, Strand.vreg]

theorem enqEnd_strand {s : State} {o : Op} {t : Strand} {d : BitVec 6} (ht : s.strand? o.guid o.strand = some t) (hd : d.toNat < t.v.length) (i : Nat) (loc : Place)
    (status : Nat) (tail : BitVec 32) : ∃ t', (enqEnd s i o loc d status tail).strand? o.guid o.strand = some t' ∧
      t'.x d = BitVec.ofNat 64 (status + 2 ^ 32 * tail.toNat) ∧ t'.ks = t.ks - 1 ∧ t'.pc = t.pc := by
  refine ⟨_, (Laws.strand_modStrand s o.guid o.strand _).trans (congrArg _ ht), ?_⟩
  generalize hi : (LoadItem.mk loc (o.rd.foldl (fun (_ : Nat) (r : Range) => r.lo) 0) 8 0 64 64 false (.scalar d.toNat)) = item
  generalize status + 2 ^ 32 * tail.toNat = x
  obtain ⟨hv, hk, hp⟩ := put_scalar t (i := item) (d := d) (by rw [← hi]) x
  obtain ⟨fv, fk, fp⟩ := fallS_registers (t.put item x)
  exact ⟨(x_of_v_eq (fv.trans hv) d).trans (Laws.x_setX t d _ hd), fk.trans (by rw [hk]), fp.trans hp⟩

/-! ## The commit -/

theorem placeLost_of_local {s : State} {pa : Nat} (h : remoteOf s pa = none) : s.placeLost (.phys pa) = false := by
  simp only [State.placeLost, State.remoteIs, h]

section Status

variable {s : State} {cid qid : Nat}

theorem enqStatus_unfed (h : (s.queue qid).state = .unbound ∨ (s.queue qid).feed ≠ 8 ∨ (s.queue qid).cid ≠ cid) : s.enqStatus cid qid = 3 := if_pos h

theorem enqStatus_closed (hb : (s.queue qid).state ≠ .unbound) (hf : (s.queue qid).feed = 8) (hc : (s.queue qid).cid = cid)
    (hs : (s.queue qid).state ≠ .active ∧ (s.queue qid).state ≠ .stopped) : s.enqStatus cid qid = 2 :=
  (if_neg (by simp [hb, hf, hc])).trans (if_pos hs)

variable (hf : (s.queue qid).feed = 8 ∧ (s.queue qid).cid = cid) (ho : (s.queue qid).state = .active ∨ (s.queue qid).state = .stopped)
include hf ho

theorem enqStatus_open : s.enqStatus cid qid = if ((s.queue qid).tail - (s.queue qid).head).toNat = 2 ^ (s.queue qid).log2n then 1 else 0 := by
  refine (if_neg ?_).trans (if_neg ?_)
  · rcases ho with h | h <;> simp [h, hf]
  · rcases ho with h | h <;> simp [h]

end Status

section Commit

variable {s : State} {i qid pa ring : Nat} {slot : BitVec 32} {p : Place} {d : BitVec 6} {o : Op} {g : Group} (ho : s.op? i = some o)
  (hw : o.work = .enq qid (.phys pa) slot p d) (hr : s.opReady o = true) (hg : s.group? o.guid = some g) (hb : s.badPlace (.phys pa) 128 = false)
include ho hw hr hg hb

theorem enqCommit_refused {c : Nat} (hc : s.enqStatus o.cid qid = c) (h0 : c ≠ 0) : exec (.enqCommit i) s = .next (enqEnd s i o (.phys pa) d c 0) := by
  rw [show exec (.enqCommit i) s = execEnqCommit i s from rfl, execEnqCommit, opStep]
  simp only [ho, hr, hw, hg, hb, hc, h0, if_true, if_false, ne_eq, not_false_eq_true, Bool.false_eq_true, Option.getD_some]
  rfl

/-- The state in which the record of an ENQ is read. -/
def enqRead (s : State) (o : Op) (pa : Nat) : State := (s.cacheWork o).countUnsealed o.cid (.phys pa)

omit ho hw hr hg hb in
theorem enqRead_cachesOnly (s : State) (o : Op) (pa : Nat) : CachesOnly s (enqRead s o pa) :=
  (cacheWork_cachesOnly s o).trans (countUnsealed_cachesOnly ..)

/-- The state once the record is in the ring slot at `ring`. -/
def enqCopied (s : State) (o : Op) (g : Group) (pa ring : Nat) : State :=
  (enqRead s o pa).writeBytes (s.keyOf g.cid) 0 ring ((enqRead s o pa).readBytes (s.keyOf g.cid) 0 pa 128)

/-- A record that is taken is copied to its slot, and TAIL moves. -/
theorem enqCommit_taken (hc : s.enqStatus o.cid qid = 0) (hp : p = .phys ring) (hs : slot = (s.queue qid).tail) (hl : remoteOf s pa = none)
    (hlr : remoteOf s ring = none) (hq : s.locWaits (.phys ring) 128 = false) :
    exec (.enqCommit i) s = .next (enqEnd ((enqCopied s o g pa ring).modQueue qid fun q => { q with tail := q.tail + 1 }) i o (.phys pa) d 0 (s.queue qid).tail) := by
  have h := enqRead_cachesOnly s o pa
  have hslot : s.enqSlot g qid slot p = (.ok (.phys ring), s) := by
    rw [State.enqSlot, if_pos ⟨hs.symm, by simp [hp]⟩, hp]
  have hread : (enqRead s o pa).readPlace g 0 false (.phys pa) 128 = ((enqRead s o pa).readBytes (s.keyOf g.cid) 0 pa 128, enqRead s o pa) := by
    simp only [State.readPlace, remoteOf_congr h.links, hl, h.keys, Option.isSome_none, Bool.false_eq_true, if_false]
  have hlost : (enqRead s o pa).placeLost (.phys ring) = false := placeLost_of_local ((remoteOf_congr h.links ring).trans hlr)
  have hwrite (bs : List Byte) : (enqRead s o pa).writePlace g 0 (.phys ring) bs = (enqRead s o pa).writeBytes (s.keyOf g.cid) 0 ring bs := by
    simp only [State.writePlace, State.writeHome, State.remoteIs, remoteOf_congr h.links, hlr, h.keys, Option.isSome_none, Bool.false_eq_true, if_false]
  have htail : ((enqRead s o pa).queue qid).tail = (s.queue qid).tail := by rw [State.queue, h.queues, State.queue]
  rw [show exec (.enqCommit i) s = execEnqCommit i s from rfl, execEnqCommit, opStep]
  simp only [ho, hr, hw, hg, hb, hc, placeLost_of_local hl, hslot, hq, if_true, if_false, ne_eq, not_true_eq_false, Bool.false_eq_true, Option.getD_some]
  rw [show (s.cacheWork o).countUnsealed o.cid (.phys pa) = enqRead s o pa from rfl, hread]
  simp only [hlost, hwrite, htail, Bool.false_eq_true, if_false]
  rfl

end Commit

/-! ## What a taken record leaves of memory -/

section Copied

variable {s : State} {o : Op} {g : Group} {pa ring b : Nat} (hwf : s.mem.wf = true)
include hwf

theorem enqCopied_reads (hlo : ring ≤ b) (hhi : b < ring + 128)
    (hname : ∀ x, ring ≤ x → x < ring + 128 → s.homeOf x / 32 = s.homeOf b / 32 → x / 32 = b / 32) :
    (enqCopied s o g pa ring).readByte (s.keyOf g.cid) 0 b = s.readByte (s.keyOf g.cid) 0 (pa + (b - ring)) := by
  have h := enqRead_cachesOnly s o pa
  have hlen := readBytes_length (enqRead s o pa) (s.keyOf g.cid) 0 pa 128
  rw [enqCopied, writeBytes_reads (h.mem ▸ hwf) _ _ hlo (by rw [hlen]; exact hhi) (by simpa only [hlen, homeOf_congr h.links] using hname),
    readBytes_getD _ _ _ _ (by omega), readByte_congr h.links h.mem h.sets]

theorem enqCopied_keeps (hout : ¬ (ring ≤ b ∧ b < ring + 128)) (hk : KeepsByte s (s.keyOf g.cid) 0 ring 128 b) :
    (enqCopied s o g pa ring).readByte (s.keyOf g.cid) 0 b = s.readByte (s.keyOf g.cid) 0 b := by
  have h := enqRead_cachesOnly s o pa
  have hlen := readBytes_length (enqRead s o pa) (s.keyOf g.cid) 0 pa 128
  rw [enqCopied, writeBytes_keeps (h.mem ▸ hwf) (by rw [hlen]; exact hout) (by rw [hlen]; exact keepsByte_congr h.links h.mem h.sets hk),
    readByte_congr h.links h.mem h.sets]

end Copied

theorem enqCopied_tables (s : State) (o : Op) (g : Group) (pa ring : Nat) :
    (enqCopied s o g pa ring).queues = s.queues ∧ (enqCopied s o g pa ring).groups = s.groups := by
  have h := enqRead_cachesOnly s o pa
  have hm : Laws.MemOnly (enqRead s o pa) (enqCopied s o g pa ring) := Laws.writeBytes_memOnly ..
  refine ⟨(memOnly_queues hm).trans h.queues, ?_⟩
  unfold Laws.MemOnly at hm
  rw [hm]
  exact h.groups

/-! ## The statement -/

/-- Settles O36: the issue by the two ends of `enqE`, the commit by the status of R63, and the copy by the rules of byte writes. -/
theorem enqueue : Obligations.Enqueue := by
  unfold Obligations.Enqueue
  refine ⟨fun s s1 s2 u k g t d a pa ring ha hl => ⟨fun hc => enq_issues ha (enqE_refused hl hc), fun hc hr => enq_issues ha (enqE_taken hl hc hr)⟩, ?_⟩
  intro s i qid pa ring slot p d o g t ho hw hr hg ht hd hb hl q gives
  have hrefused {c : Nat} (hc : s.enqStatus o.cid qid = c) (h0 : c ≠ 0) : ∃ s', gives s' c ∧ s'.mem = s.mem :=
    ⟨_, ⟨enqCommit_refused ho hw hr hg hb hc h0, op_dropOp .., enqEnd_strand ht hd i _ c 0⟩, rfl⟩
  refine ⟨fun h => hrefused (enqStatus_unfed h) (by decide), fun ⟨h1, h2, h3⟩ hs => hrefused (enqStatus_closed h1 h2 h3 hs) (by decide),
    fun hf hs hn => hrefused ((enqStatus_open hf hs).trans (if_pos hn)) (by decide), fun hf hs hn hlen hp hsl hlr hq hwf => ?_⟩
  obtain ⟨hqs, hgs⟩ := enqCopied_tables s o g pa ring
  have ht' : ((enqCopied s o g pa ring).modQueue qid fun q => { q with tail := q.tail + 1 }).strand? o.guid o.strand = some t := by
    change (((enqCopied s o g pa ring).groups.find? _).bind _) = _
    rw [hgs]
    exact ht
  have hread (b : Nat) : (enqEnd ((enqCopied s o g pa ring).modQueue qid fun q => { q with tail := q.tail + 1 }) i o (.phys pa) d 0 (s.queue qid).tail).readByte
      (s.keyOf g.cid) 0 b = (enqCopied s o g pa ring).readByte (s.keyOf g.cid) 0 b := readByte_congr rfl rfl rfl ..
  have hend := enqEnd_strand ht' hd i (.phys pa) 0 (s.queue qid).tail
  rw [Nat.zero_add] at hend
  refine ⟨_, ⟨enqCommit_taken ho hw hr hg hb ((enqStatus_open hf hs).trans (if_neg hn)) hp hsl hl hlr hq, op_dropOp .., hend⟩, ?_,
    fun b hlo hhi hname => (hread b).trans (enqCopied_reads hwf hlo hhi hname), fun b hout hk => (hread b).trans (enqCopied_keeps hwf hout hk)⟩
  have htail : (((enqCopied s o g pa ring).modQueue qid fun q => { q with tail := q.tail + 1 }).queue qid).tail = ((enqCopied s o g pa ring).queue qid).tail + 1 := by
    rw [queue_modQueue, if_pos ⟨rfl, by rw [hqs]; exact hlen⟩]
  refine htail.trans ?_
  rw [State.queue, hqs]
  rfl

end Sys2Proof.Proofs
end

section
/-!
A launch record from its fetch to the end of its kernel (R61, R65 to R69, R73, R74, R80). The end of a kernel evaluates wait clauses again, and
with them walks tables and may meet a fatal context error: what none of that changes is said once, for every part of it.
-/
namespace Sys2Proof.Proofs

open Sys2Proof Sys2Proof.Machine Sys2Proof.Safety

/-! ## The fetch of a record (R65) -/

section Fetch

variable {s s1 s2 : State} {qid : BitVec 8} {r : List Word} (hne : (s.queue qid.toNat).head ≠ (s.queue qid.toNat).tail) (hst : (s.queue qid.toNat).state = .active)
  (hh : (s.queue qid.toNat).held = none) (ha : s.admits (s.queue qid.toNat).cid = true) (hhd : s.headHeld qid.toNat = false)
include hne hst hh ha hhd

theorem recordFetch_unread (hr : (s.dropAsk (.queue qid.toNat)).readRecord qid.toNat = (none, s1)) (hs1 : (s1.queue qid.toNat).state = .active) :
    exec (.recordFetch qid) s = .next (s1.modQueue qid.toNat fun q => { q with state := .faulted, fcause := 1 }) := by
  rw [show exec (.recordFetch qid) s = execRecordFetch qid s from rfl]
  simp only [execRecordFetch, hne, hst, hh, ha, hhd, hr, hs1, reduceCtorEq, and_self, or_true, not_true_eq_false, or_self, if_false, if_true, Bool.false_eq_true]

variable (hr : (s.dropAsk (.queue qid.toNat)).readRecord qid.toNat = (some r, s1))
include hr

theorem recordFetch_bad (hok : recordOk r = false) : exec (.recordFetch qid) s = .next (s1.reject qid.toNat r 0x42) := by
  rw [show exec (.recordFetch qid) s = execRecordFetch qid s from rfl]
  simp only [execRecordFetch, hne, hst, hh, ha, hhd, hr, hok, reduceCtorEq, and_self, or_true, not_true_eq_false, or_self, if_false, if_true, Bool.false_eq_true, Bool.not_false]

variable (hok : recordOk r = true)
include hok

theorem recordFetch_malformed (he : s1.evalClauses (s.queue qid.toNat).cid r (List.replicate (recBits r 0 10 8) false) 0 = (none, s2)) :
    exec (.recordFetch qid) s = .next (s2.reject qid.toNat r 0x43) := by
  rw [show exec (.recordFetch qid) s = execRecordFetch qid s from rfl]
  simp only [execRecordFetch, hne, hst, hh, ha, hhd, hr, hok, he, reduceCtorEq, and_self, or_true, not_true_eq_false, or_self, if_false, Bool.false_eq_true, Bool.not_true]

theorem recordFetch_held {l : List Bool} (he : s1.evalClauses (s.queue qid.toNat).cid r (List.replicate (recBits r 0 10 8) false) 0 = (some l, s2)) :
    exec (.recordFetch qid) s = .next (s2.modQueue qid.toNat fun q => { q with held := some { words := r, met := l } }) := by
  rw [show exec (.recordFetch qid) s = execRecordFetch qid s from rfl]
  simp only [execRecordFetch, hne, hst, hh, ha, hhd, hr, hok, he, reduceCtorEq, and_self, or_true, not_true_eq_false, or_self, if_false, Bool.false_eq_true, Bool.not_true]

end Fetch

/-! ## The wait clauses (R67) -/

section Recheck

variable {s s1 : State} {qid : BitVec 8} {h : Held} (hh : (s.queue qid.toNat).held = some h) (hst : (s.queue qid.toNat).state = .active)
  (ha : s.admits (s.queue qid.toNat).cid = true) (hm : h.met.all id = false)
include hh hst ha hm

theorem waitClauseRecheck_evaluated {l : List Bool} (he : s.evalClauses (s.queue qid.toNat).cid h.words h.met 0 = (some l, s1)) :
    let s2 := s1.modQueue qid.toNat fun q => { q with held := some { h with met := l } }
    exec (.waitClauseRecheck qid) s =
      .next (if l.all id then s2.dropAsk (.queue qid.toNat) else s2.askClauses qid.toNat (s.queue qid.toNat).cid h.words l) := by
  rw [show exec (.waitClauseRecheck qid) s = .next (s.recheckQueue qid.toNat) from rfl]
  simp only [State.recheckQueue, hh, hst, ha, hm, he, and_self, if_true]

theorem waitClauseRecheck_malformed (he : s.evalClauses (s.queue qid.toNat).cid h.words h.met 0 = (none, s1))
    (hc : s1.cwHeld (s.queue qid.toNat).cid h.words = false) : exec (.waitClauseRecheck qid) s = .next (s1.reject qid.toNat h.words 0x43) := by
  rw [show exec (.waitClauseRecheck qid) s = .next (s.recheckQueue qid.toNat) from rfl]
  simp only [State.recheckQueue, hh, hst, ha, hm, he, hc, and_self, if_true, Bool.false_eq_true, if_false]

end Recheck

/-! ## Admission (R66, R69) -/

/-- The greatest value of a function over a list is reached by no element above it. -/
theorem le_foldl_max {α : Type} (f : α → Nat) : ∀ (l : List α) (b : Nat), b ≤ l.foldl (fun m a => Nat.max m (f a)) b ∧ ∀ a ∈ l, f a ≤ l.foldl (fun m a => Nat.max m (f a)) b
  | [], b => ⟨Nat.le_refl b, fun _ h => nomatch h⟩
  | x :: l, b => by
    obtain ⟨hb, hl⟩ := le_foldl_max f l (Nat.max b (f x))
    refine ⟨Nat.le_trans (Nat.le_max_left ..) hb, fun a ha => ?_⟩
    rcases List.mem_cons.1 ha with rfl | ha
    · exact Nat.le_trans (Nat.le_max_right ..) hb
    · exact hl a ha

/-- The queue whose turn it is has an admissible head, and none of a higher effective priority has. -/
theorem nextQueue_highest {s : State} {n : Nat} (h : s.nextQueue = some n) :
    s.admissible n = true ∧ ∀ m, m < 256 → s.admissible m = true → s.prioOf m ≤ s.prioOf n := by
  let ns := (List.range 256).filter s.admissible
  let p := ns.foldl (fun m n => Nat.max m (s.prioOf n)) 0
  have hmem : n ∈ ns.filter fun n => s.prioOf n == p := by
    unfold State.nextQueue at h
    dsimp only at h
    split at h
    · next e =>
      cases h
      exact List.mem_of_find?_eq_some e
    · exact List.mem_of_head? h
  obtain ⟨hn, hp⟩ := List.mem_filter.1 hmem
  refine ⟨(List.mem_filter.1 hn).2, fun m hm ha => ?_⟩
  rw [beq_iff_eq.1 hp]
  exact (le_foldl_max s.prioOf ns 0).2 m (List.mem_filter.2 ⟨List.mem_range.2 hm, ha⟩)

theorem admission_admits {s : State} {n : Nat} {h : Held} (hn : s.nextQueue = some n) (hh : (s.queue n).held = some h) :
    ∃ (s' : State) (k : Kernel), exec .admission s = .next s' ∧ s'.kernels = s.kernels ++ [k] ∧ k.qid = n ∧ k.cid = (s.queue n).cid ∧
      k.record = h.words ∧ k.stage = .admitted ∧ s'.served = s.served.set (s.prioOf n) n ∧ s'.mem = s.mem ∧
      (n < s.queues.length → (s'.queue n).head = (s.queue n).head + 1 ∧ (s'.queue n).held = none) := by
  have he : exec .admission s = execAdmission s := rfl
  simp only [execAdmission, hn, hh] at he
  refine ⟨_, _, he, rfl, rfl, rfl, rfl, rfl, rfl, rfl, fun hlt => ?_⟩
  rw [State.passHead, queue_modQueue_same (by exact hlt)]
  exact ⟨rfl, rfl⟩

/-! ## Snapshots (R73, R74) -/

section Snapshots

variable {s s1 : State} {uid : Nat} {k : Kernel} {b t i p : List Byte} (hk : s.kernel? uid = some k) (hst : k.stage = .admitted) (hw : k.wait = false) (hf : k.failed = false)
  (hr : readSpans k.cid k.spans s [] = ((.bytes b, [t, i, p]), s1))
include hk hst hw hf hr

/-- The words of a stage table that has been read. -/
def stageTable (t : List Byte) : List (BitVec 32) := (List.range 16).map fun j => BitVec.ofNat 32 (leNat ((t.drop (4 * j)).take 4))

theorem snapshotsHeld_placing (hok : k.stagesOk (stageTable t) = true) : exec (.snapshotsHeld uid) s =
    .next ((s1.dropAsk (.snap uid)).modKernel uid fun k => { k with stage := .placing, snap := some { table := stageTable t, image := wordsOf 1024 i, params := p } }) := by
  rw [show exec (.snapshotsHeld uid) s = execSnapshotsHeld uid s from rfl]
  unfold stageTable at *
  simp only [execSnapshotsHeld, hk, hst, hw, hf, hr, hok, ne_eq, not_true_eq_false, Bool.false_eq_true, or_self, if_false, if_true]

theorem snapshotsHeld_fails (hok : k.stagesOk (stageTable t) = false) : exec (.snapshotsHeld uid) s = .next (s1.failKernel uid 0x05) := by
  rw [show exec (.snapshotsHeld uid) s = execSnapshotsHeld uid s from rfl]
  unfold stageTable at *
  simp only [execSnapshotsHeld, hk, hst, hw, hf, hr, hok, ne_eq, not_true_eq_false, Bool.false_eq_true, or_self, if_false]

end Snapshots

/-! ## What the accesses of the dispatcher leave (R65, R337) -/

/-- What only the end of a kernel and RELEASE change: the step count of each context, the TAG of each queue's last kernel, and which kernels there are. -/
def launchIds (s : State) : List (BitVec 32) × List (Option (BitVec 48)) × List Nat :=
  (s.contexts.map fun x => x.cur, s.queues.map fun q => q.lastTag, s.kernels.map fun k => k.uid)

theorem launchIds_of {s s' : State} (hc : s'.contexts.map (fun x => x.cur) = s.contexts.map fun x => x.cur)
    (hq : s'.queues.map (fun q => q.lastTag) = s.queues.map fun q => q.lastTag) (hk : s'.kernels.map (fun k => k.uid) = s.kernels.map fun k => k.uid) :
    launchIds s' = launchIds s := by
  rw [launchIds, hc, hq, hk, launchIds]

theorem launchIds_of_memOnly {s s' : State} (h : Laws.MemOnly s s') : launchIds s' = launchIds s := by
  rw [launchIds, memOnly_contexts h, memOnly_queues h, memOnly_kernels h, launchIds]

/-- A projection through another one has the same values where that one has. -/
theorem map_of_map_eq {α β γ : Type} {f : α → β} {g : β → γ} {h : α → γ} (e : ∀ a, g (f a) = h a) {l l' : List α} (hl : l'.map f = l.map f) : l'.map h = l.map h := by
  have e' : h = g ∘ f := funext fun a => (e a).symm
  rw [e', ← List.map_map, hl, List.map_map]

theorem launchIds_of_walkOnly {s s' : State} (h : Laws.WalkOnly s s') : launchIds s' = launchIds s :=
  launchIds_of (map_of_map_eq (f := Laws.uncounted) (g := Context.cur) (fun _ => rfl) h.contexts) (by rw [h.rest]) (by rw [h.rest])

theorem map_modAt {α β : Type} {f : α → α} {π : α → β} (h : ∀ a, π (f a) = π a) : ∀ (l : List α) (i : Nat), (modAt l i f).map π = l.map π
  | [], _ => rfl
  | a :: l, 0 => congrArg (· :: l.map π) (h a)
  | a :: l, i + 1 => congrArg (π a :: ·) (map_modAt h l i)

theorem launchIds_modQueue (s : State) (n : Nat) {f : Queue → Queue} (hf : ∀ q, (f q).lastTag = q.lastTag) : launchIds (s.modQueue n f) = launchIds s :=
  launchIds_of rfl (map_modAt hf s.queues n) rfl

theorem launchIds_modCtx (s : State) (c : Nat) {f : Context → Context} (hf : ∀ x, (f x).cur = x.cur) : launchIds (s.modCtx c f) = launchIds s :=
  launchIds_of (map_modAt hf s.contexts c) rfl rfl

theorem launchIds_postOwner (s : State) (r : List Word) : launchIds (s.postOwner r) = launchIds s := by
  rcases Laws.postOwner_cases s r with ⟨-, e⟩ | ⟨-, e⟩ <;> rw [e]
  · obtain ⟨s1, q, hm, e | e⟩ := Laws.postTo_frame s s.plat.owner.toNat r <;> rw [e]
    have h := launchIds_of_memOnly hm
    exact h
  · rfl

theorem launchIds_postTo (s : State) (p : Nat) (r : List Word) : launchIds (s.postTo p r) = launchIds s := by
  obtain ⟨s1, q, hm, e | e⟩ := Laws.postTo_frame s p r <;> rw [e]
  have h := launchIds_of_memOnly hm
  exact h

theorem abortKernel_uids (s : State) (u : Nat) (status : Byte) : (s.abortKernel u status).kernels.map (fun k => k.uid) = s.kernels.map fun k => k.uid := by
  unfold State.abortKernel
  split
  · rfl
  · split
    · rfl
    · exact map_modFirst (f := fun k => abortedKernel k status) (fun _ => rfl) s.kernels

theorem drainContext_uids (s : State) (c : Nat) (abort : Bool) (status : Byte) :
    (s.drainContext c abort status).kernels.map (fun k => k.uid) = s.kernels.map fun k => k.uid := by
  cases abort with
  | false => rfl
  | true =>
    rw [drainContext_abort]
    have hs := (freeFaults_sameTables (abortKernels (drainStart s c true) c status) c).kernels
    refine (map_of_map_eq (g := Kernel.uid) (fun _ => rfl) hs).trans ?_
    exact foldl_keeps (fun s => s.kernels.map fun k => k.uid) (f := fun s (k : Kernel) => s.abortKernel k.uid status)
      (fun s k => abortKernel_uids s k.uid status) _ (drainStart s c true)

theorem drainQueue_lastTag (c : Nat) (q : Queue) : (drainQueue c q).lastTag = q.lastTag := by
  unfold drainQueue
  split <;> rfl

theorem launchIds_contextError (s : State) (c reason detail pa : Nat) : launchIds (s.contextError c reason detail pa) = launchIds s := by
  unfold State.contextError
  split
  · refine (launchIds_of ?_ ?_ (drainContext_uids ..)).trans (launchIds_postOwner ..)
    · rw [drainContext_contexts]
      exact map_modAt (f := fun x : Context => { x with state := .draining, aborting := true }) (fun _ => rfl) _ c
    · rw [drainContext_queues, List.map_map]
      exact List.map_congr_left fun q _ => drainQueue_lastTag c q
  · rfl

theorem launchIds_translate (s : State) (p : Party) (cid : Nat) (va : Word) (kind : Acc) : launchIds (s.translate p cid va kind).2 = launchIds s := by
  obtain ⟨s1, hw, e | ⟨r, d, pa, e⟩⟩ := translate_reaches s p cid va kind <;> rw [e]
  · exact launchIds_of_walkOnly hw
  · exact (launchIds_contextError ..).trans (launchIds_of_walkOnly hw)

theorem launchIds_locate (s : State) (p : Party) (cid : Nat) (va : Word) (kind : Acc) (returns : Bool) :
    launchIds (s.locate p cid va kind returns).2 = launchIds s := by
  have ht := launchIds_translate s p cid va kind
  unfold State.locate
  split
  · next e =>
    rw [e] at ht
    unfold State.remoteCheck
    split
    · exact ht
    · split
      · split <;> exact ht
      · split <;> exact ht
  · exact ht

theorem launchIds_dispatchAt (s : State) (cid va : Nat) (kind : Acc) : launchIds (s.dispatchAt cid va kind).2 = launchIds s := by
  have ht := launchIds_translate s (.unit 0) cid (BitVec.ofNat 64 va) kind
  unfold State.dispatchAt
  split
  · split
    · split
      · next e =>
        rw [e] at ht
        split <;> exact ht
      · next e => rwa [e] at ht
    · rfl
  · exact launchIds_contextError ..
  · rfl

theorem launchIds_remoteSectors (read : Bool) (n : Nat) : ∀ (s : State) (pa : Nat), launchIds (s.remoteSectors read pa n) = launchIds s := by
  induction n with
  | zero => exact fun _ _ => rfl
  | succ n ih =>
    intro s pa
    unfold State.remoteSectors
    exact (ih _ _).trans rfl

theorem launchIds_countSpan (s : State) (cid pa n : Nat) : launchIds (s.countSpan cid pa n) = launchIds s := by
  refine foldl_keeps launchIds (fun s j => ?_) _ s
  dsimp only [State.countUnsealed]
  split
  · exact launchIds_modCtx s cid fun _ => rfl
  · rfl

theorem launchIds_unitRead (s : State) (x : CacheWay) (cid : Nat) (ver : BitVec 32) (pa n : Nat) : launchIds (s.unitRead x cid ver pa n).2 = launchIds s := by
  have h0 := (launchIds_countSpan (s.cacheSpan x cid ver pa n) cid pa n).trans (launchIds_of_walkOnly (Laws.cacheSpan_walkOnly s x cid ver pa n))
  dsimp only [State.unitRead]
  split
  · exact (launchIds_remoteSectors ..).trans h0
  · exact h0

theorem launchIds_writeHome (s : State) (key : BitVec 512) (ver : BitVec 32) (pa : Nat) (xs : List Byte) : launchIds (s.writeHome key ver pa xs) = launchIds s := by
  have hw (s : State) : launchIds (s.writeBytes key ver pa xs) = launchIds s := launchIds_of_memOnly (Laws.writeBytes_memOnly ..)
  unfold State.writeHome
  split
  · rfl
  · split
    · exact (hw _).trans (launchIds_remoteSectors ..)
    · exact hw s

theorem launchIds_writeCw (s : State) (cid : Nat) (r : List Word) (status : Byte) : launchIds (s.writeCw cid r status) = launchIds s := by
  have hd := launchIds_dispatchAt s cid (cwOf r) .write
  unfold State.writeCw
  split
  · rfl
  · split
    · next e =>
      rw [e] at hd
      exact (launchIds_writeHome ..).trans ((launchIds_of_walkOnly (Laws.cacheSpan_walkOnly ..)).trans hd)
    · next e => rwa [e] at hd

/-! ## What the wait clauses leave (R67) -/

theorem launchIds_clause (s : State) (cid : Nat) (a b : Word) : launchIds (s.clause cid a b).2 = launchIds s := by
  have hl := launchIds_locate s (.unit 0) cid (BitVec.ofNat 64 (natBits a.toNat 56 3 * 8)) .read (decide (Acc.read ≠ .write))
  unfold State.clause
  dsimp only
  split
  · rfl
  · split <;> rfl
  · split
    · next e =>
      rw [e] at hl
      split
      · exact hl
      · exact (launchIds_unitRead ..).trans hl
    · next e => rwa [e] at hl

theorem launchIds_evalClauses (cid : Nat) (r : List Word) : ∀ (ms : List Bool) (s : State) (i : Nat), launchIds (s.evalClauses cid r ms i).2 = launchIds s
  | [], _, _ => rfl
  | true :: ms, s, i => by
    have ih := launchIds_evalClauses cid r ms s (i + 1)
    rw [State.evalClauses]
    split <;> next e => rwa [e] at ih
  | false :: ms, s, i => by
    have hc := launchIds_clause s cid (wordAt r (8 + 2 * i)) (wordAt r (9 + 2 * i))
    rw [State.evalClauses]
    split
    · next e => rwa [e] at hc
    · next s1 _ e =>
      rw [e] at hc
      have ih := launchIds_evalClauses cid r ms s1 (i + 1)
      split <;> next e' => rw [e'] at ih; exact ih.trans hc

theorem launchIds_reject (s : State) (n : Nat) (r : List Word) (status : Byte) : launchIds (s.reject n r status) = launchIds s :=
  (launchIds_postOwner ..).trans ((launchIds_modQueue _ n (f := fun q => { q with head := q.head + 1, held := none }) fun _ => rfl).trans (launchIds_writeCw ..))

theorem launchIds_dispatchAsk (s : State) (n cid va : Nat) (kind : Acc) : launchIds (s.dispatchAsk n cid va kind) = launchIds s := by
  unfold State.dispatchAsk
  split
  · unfold State.askGap
    dsimp only
    split <;> rfl
  · rfl

theorem launchIds_askClauses (s : State) (n cid : Nat) (r : List Word) (met : List Bool) : launchIds (s.askClauses n cid r met) = launchIds s := by
  refine foldl_keeps launchIds (fun s i => ?_) _ s
  split
  · exact launchIds_dispatchAsk ..
  · rfl

theorem launchIds_recheckQueue (s : State) (n : Nat) : launchIds (s.recheckQueue n) = launchIds s := by
  unfold State.recheckQueue
  split
  · next h _ =>
    have he := launchIds_evalClauses (s.queue n).cid h.words h.met s 0
    split
    · split
      · next e =>
        rw [e] at he
        split
        · exact he
        · exact (launchIds_reject ..).trans he
      · next l s1 e =>
        rw [e] at he
        have hm := (launchIds_modQueue s1 n (f := fun q => { q with held := some { h with met := l } }) fun _ => rfl).trans he
        dsimp only
        split
        · exact hm
        · exact (launchIds_askClauses ..).trans hm
    · rfl
  · rfl

theorem launchIds_recheckAll (s : State) (cid : Nat) : launchIds (s.recheckAll cid) = launchIds s :=
  foldl_keeps launchIds launchIds_recheckQueue _ s

/-! ## The end of a kernel (R80, R81) -/

theorem launchIds_qEnd (s : State) (n code : Nat) : launchIds (s.qEnd n code) = launchIds s := by
  unfold State.qEnd
  split
  · rfl
  · exact launchIds_modQueue s n fun _ => rfl

theorem launchIds_settleKernelCmd (s : State) (n : Nat) : launchIds (s.settleKernelCmd n) = launchIds s := by
  rcases settleKernelCmd_cases s n with e | ⟨code, e⟩ <;> rw [e]
  exact launchIds_qEnd ..

theorem launchIds_settleDrain (s : State) (n : Nat) : launchIds (s.settleDrain n) = launchIds s := by
  unfold State.settleDrain
  dsimp only
  split
  · exact (launchIds_qEnd ..).trans (launchIds_modQueue s n fun _ => rfl)
  · rfl

theorem cur_of_launchIds {s s' : State} (h : launchIds s' = launchIds s) (c : Nat) : (s'.ctx c).cur = (s.ctx c).cur ∧ s'.contexts.length = s.contexts.length := by
  have hc : s'.contexts.map (fun x => x.cur) = s.contexts.map fun x => x.cur := congrArg Prod.fst h
  refine ⟨?_, by simpa using congrArg List.length hc⟩
  rw [State.ctx, State.ctx, ← List.getD_map (f := Context.cur), ← List.getD_map (f := Context.cur)]
  exact congrArg (fun l : List (BitVec 32) => l.getD c Context.reset.cur) hc

theorem lastTag_of_launchIds {s s' : State} (h : launchIds s' = launchIds s) (n : Nat) :
    (s'.queue n).lastTag = (s.queue n).lastTag ∧ s'.queues.length = s.queues.length := by
  have hq : s'.queues.map (fun q => q.lastTag) = s.queues.map fun q => q.lastTag := congrArg (fun x => x.2.1) h
  refine ⟨?_, by simpa using congrArg List.length hq⟩
  rw [State.queue, State.queue, ← List.getD_map (f := Queue.lastTag), ← List.getD_map (f := Queue.lastTag)]
  exact congrArg (fun l : List (Option (BitVec 48)) => l.getD n Queue.reset.lastTag) hq

theorem kernel_none_iff {s : State} {u : Nat} : s.kernel? u = none ↔ u ∉ s.kernels.map fun k => k.uid := by
  simp [State.kernel?]

theorem kernel_none_of_launchIds {s s' : State} (h : launchIds s' = launchIds s) {u : Nat} (hu : s.kernel? u = none) : s'.kernel? u = none := by
  have hk : s'.kernels.map (fun k => k.uid) = s.kernels.map fun k => k.uid := congrArg (fun x => x.2.2) h
  rw [kernel_none_iff, hk]
  exact kernel_none_iff.1 hu

/-- The device once the completion word and the completion event of an ended kernel have gone out. -/
def kernelReported (s : State) (uid : Nat) (k : Kernel) : State :=
  let s1 := (s.dropAsk (.queue k.qid)).settleKernelCmd k.qid
  let s2 : State := { s1 with cores := s1.cores.map fun (c : Core) => { c with replicas := c.replicas.filter fun (r : Replica) => r.kuid != uid } }
  let s3 := s2.writeCw k.cid k.record (k.status.getD 0)
  if (wordAt k.record 0).getLsbD 21 then s3.postCompletion k (completionWord k.record (k.status.getD 0)) else s3

theorem launchIds_kernelReported (s : State) (uid : Nat) (k : Kernel) : launchIds (kernelReported s uid k) = launchIds s := by
  have h1 : launchIds ((s.dropAsk (.queue k.qid)).settleKernelCmd k.qid) = launchIds s := launchIds_settleKernelCmd (s.dropAsk (.queue k.qid)) k.qid
  have h3 (s' : State) (h : launchIds s' = launchIds s) : launchIds (s'.writeCw k.cid k.record (k.status.getD 0)) = launchIds s := (launchIds_writeCw ..).trans h
  unfold kernelReported
  dsimp only
  split
  · unfold State.postCompletion
    dsimp only
    split
    · exact (launchIds_postTo ..).trans (h3 _ h1)
    · exact (launchIds_postOwner ..).trans (h3 _ h1)
  · exact h3 _ h1

/-- The device once an ended kernel is gone: its context has counted it, its queue keeps its TAG. -/
def kernelGone (s : State) (uid : Nat) (k : Kernel) : State :=
  let s5 : State := { s with kernels := s.kernels.filter fun (q : Kernel) => q.uid != uid }
  (s5.modCtx k.cid fun x => { x with cur := x.cur + 1 }).modQueue k.qid fun q => { q with lastTag := some k.tag }

theorem kernelEnd_ends {s : State} {uid : Nat} {k : Kernel} (hk : s.kernel? uid = some k) (hst : k.stage = .draining) (hg : s.groupsOf uid = [])
    (ha : ∀ o ∈ s.arc.ops, o.kuid ≠ uid) (hc : s.cwHeld k.cid k.record = false) :
    exec (.kernelEnd uid) s = .next (((kernelGone (kernelReported s uid k) uid k).recheckAll k.cid).settleDrain k.qid) := by
  have harc : (s.arc.ops.any fun o => o.kuid == uid) = false := List.any_eq_false.2 fun o ho => by simpa using ha o ho
  rw [show exec (.kernelEnd uid) s = execKernelEnd uid s from rfl]
  simp only [execKernelEnd, hk, hst, hg, harc, hc, ne_eq, not_true_eq_false, List.isEmpty_nil, Bool.true_eq_false, Bool.false_eq_true, or_self, if_false]
  rfl

/-! ## The statement -/

/-- Settles O41: the fetch, the clauses, the admission and the snapshots by their lemmas; what the end of a kernel leaves, through all that follows it. -/
theorem launchEvents : Obligations.LaunchEvents := by
  unfold Obligations.LaunchEvents
  refine ⟨fun s s1 qid r hne hst hh ha hhd => ⟨recordFetch_unread hne hst hh ha hhd, recordFetch_bad hne hst hh ha hhd, fun hr hok =>
      ⟨fun s2 => recordFetch_malformed hne hst hh ha hhd hr hok, fun l s2 => recordFetch_held hne hst hh ha hhd hr hok⟩⟩,
    fun s s1 qid h l hh hst ha hm => ⟨waitClauseRecheck_evaluated hh hst ha hm, waitClauseRecheck_malformed hh hst ha hm⟩,
    fun s n hn => ⟨(nextQueue_highest hn).1, (nextQueue_highest hn).2, fun h => admission_admits hn⟩,
    fun s s1 uid k b t i p hk hst hw hf hr => ⟨snapshotsHeld_placing hk hst hw hf hr, snapshotsHeld_fails hk hst hw hf hr⟩, ?_⟩
  intro s uid k hk hst hg ha hc
  have hrep := launchIds_kernelReported s uid k
  have hend : launchIds (((kernelGone (kernelReported s uid k) uid k).recheckAll k.cid).settleDrain k.qid) = launchIds (kernelGone (kernelReported s uid k) uid k) :=
    (launchIds_settleDrain ..).trans (launchIds_recheckAll ..)
  refine ⟨_, kernelEnd_ends hk hst hg ha hc, kernel_none_of_launchIds hend ?_, fun hq => (lastTag_of_launchIds hend k.qid).1.trans ?_,
    fun hx => (cur_of_launchIds hend k.cid).1.trans ?_⟩
  · rw [kernel_none_iff]
    simp [kernelGone]
  · rw [kernelGone, queue_modQueue_same]
    exact (lastTag_of_launchIds hrep k.qid).2.symm ▸ hq
  · rw [← (cur_of_launchIds hrep k.cid).1]
    exact congrArg Context.cur (ctx_modCtx (s := { kernelReported s uid k with kernels := (kernelReported s uid k).kernels.filter fun q => q.uid != uid })
      ((cur_of_launchIds hrep k.cid).2.symm ▸ hx) fun x => { x with cur := x.cur + 1 })

end Sys2Proof.Proofs
end

section
/-!
Placing, saving, restoring and ending a group (R71, R75, R76, R82, R85, R88, R90 to R95), and the end of a strand's wait (R87, R101, R345).
-/
namespace Sys2Proof.Proofs

open Sys2Proof Sys2Proof.Machine Sys2Proof.Safety

/-! ## Placement (R75, R76, R85) -/

section Placement

variable {s : State} {k : Kernel} {e w a c : Nat} {slots : List Nat} (hp : s.placer = some k) (hc : s.chooseCore k = some e)
  (hf : s.fit (s.onCore e) k e = some (slots, w, a, c))
include hp hc hf

theorem groupPlace_places {snap : Snapshot} (hsn : k.snap = some snap) (hst : k.stage = .placing) (hn : s.nextSaved k = none) :
    ∃ (s0 : State) (g : Group), exec (.groupPlace k.uid) s = .next (s0.topUpAll s.fresh (k.spgm1 + 1)) ∧ s0.groups = s.groups ++ [g] ∧ s0.mem = s.mem ∧ s0.place = e ∧
      g.uid = s.fresh ∧ g.kuid = k.uid ∧ g.cid = k.cid ∧ g.l = k.nextL ∧ g.stage = .resident ∧ g.core = e ∧ g.slots = slots ∧ g.wb = w ∧ g.ab = a ∧ g.cb = c ∧
      g.strands = (List.range (k.spgm1 + 1)).map fun j =>
        Strand.placed (BitVec.ofNat 64 (recBits k.record 1 56 6 * 64 + (snap.table.getD (k.nextL / (k.gx * k.gy * k.gz)) 0).toNat)) k.nextL j := by
  have he : exec (.groupPlace k.uid) s = execGroupPlace k.uid s := rfl
  simp only [execGroupPlace, hp, hc, hf, hsn, hst, hn, Option.isNone_none, and_self, if_true] at he
  exact ⟨_, _, he, rfl, rfl, rfl, rfl, rfl, rfl, rfl, rfl, rfl, rfl, rfl, rfl, rfl, rfl⟩

end Placement

/-! ## Restoring (R93, R105, R120) -/

/-- Where a group is, and the arrivals that wait for its restore. -/
def seat (g : Group) : Nat × GroupStage × Nat × List Nat × Nat × List (Nat × Bool) := (g.uid, g.stage, g.core, g.slots, g.restores, g.late)

theorem seat_foldl {α : Type} {f : Group → α → Group} (h : ∀ g a, seat (f g a) = seat g) : ∀ (l : List α) (g : Group), seat (l.foldl f g) = seat g
  | [], _ => rfl
  | a :: l, g => (seat_foldl h l (f g a)).trans (h g a)

theorem seat_bufWrite (g : Group) (b : Buf) (off : Nat) (xs : List Byte) : seat (g.bufWrite b off xs) = seat g := by
  cases b <;> rfl

theorem seat_arrive (g : Group) (b : Nat) (failed : Bool) : seat (g.arrive b failed) = seat g := by
  unfold Group.arrive
  split
  · rfl
  · dsimp only
    split <;> rfl

theorem seat_loadGroup (s : State) (g : Group) (k : Kernel) : seat (s.loadGroup g k) = seat g := by
  unfold State.loadGroup
  exact (seat_foldl (fun g _ => seat_bufWrite g ..) ..).trans rfl

theorem reseedMats_mem (s : State) (uid : Nat) : (s.reseedMats uid).mem = s.mem := by
  refine foldl_keeps State.mem (fun s m => ?_) _ s
  split <;> rfl

theorem seat_modStrand (s : State) (uid j : Nat) (f : Strand → Strand) : ((s.modStrand uid j f).group? uid).map seat = (s.group? uid).map seat := by
  rw [State.modStrand, Laws.group_modGroup s uid (fun g => { g with strands := modAt g.strands j f }) fun _ => rfl, Option.map_map]
  rfl

theorem reseedMats_seat (s : State) (uid : Nat) : ((s.reseedMats uid).group? uid).map seat = (s.group? uid).map seat := by
  refine foldl_keeps (fun s => (s.group? uid).map seat) (fun s m => ?_) _ s
  split
  · exact (seat_modStrand ..).trans rfl
  · rfl

/-- A restored group after the arrivals that waited is where it came to (R105). -/
theorem seat_arrivals {α : Type} {s s1 : State} {uid : Nat} {g g2 : Group} {f : Group → α → Group} (hg : s.group? uid = some g)
    (hf : ∀ g x, seat (f g x) = seat g) (hu : g2.uid = g.uid) (l : List α) (h : s1.groups = (s.modGroup uid fun _ => l.foldl f g2).groups) :
    (s1.group? uid).map seat = some (seat g2) := by
  have hs : seat (l.foldl f g2) = seat g2 := seat_foldl hf l g2
  rw [State.group?, h, ← State.group?, group_modGroup_of hg (f := fun _ => l.foldl f g2) ((congrArg Prod.fst hs).trans hu), Option.map_some, hs]

section Restoring

variable {s : State} {k : Kernel} {e w a c uid : Nat} {slots : List Nat} {g g' : Group} (hp : s.placer = some k) (hc : s.chooseCore k = some e)
  (hf : s.fit (s.onCore e) k e = some (slots, w, a, c)) (hg : s.group? uid = some g) (hn : s.nextSaved k = some g') (hu : g'.uid = uid)
include hp hc hf hg hn hu

theorem groupRestore_badFrame {pa : Nat} (hb : s.badFrame g.frame k.frameCount = some pa) :
    exec (.groupRestore uid) s = .next (s.contextError g.cid 1 0 pa) := by
  rw [show exec (.groupRestore uid) s = execGroupRestore uid s from rfl]
  simp only [execGroupRestore, hg, hp, hc, hn, hf, hu, hb, if_true]

theorem groupRestore_restores (hb : s.badFrame g.frame k.frameCount = none) :
    ∃ s0 : State, exec (.groupRestore uid) s = .next ((s0.resumeRows uid).topUpAll uid g.strands.length) ∧
      (s0.group? uid).map seat = some (g.uid, .resident, e, slots, g.restores + 1, []) ∧ s0.mem = s.mem := by
  have he : exec (.groupRestore uid) s = execGroupRestore uid s := rfl
  simp only [execGroupRestore, hg, hp, hc, hn, hf, hu, hb, if_true] at he
  have hload : (s.loadGroup g k).uid = g.uid := congrArg Prod.fst (seat_loadGroup s g k)
  refine ⟨_, he, (reseedMats_seat ..).trans ((seat_arrivals hg ?_ ?_ g.late rfl).trans ?_), (reseedMats_mem ..).trans rfl⟩
  · exact fun g x => seat_arrive g x.1 x.2
  · exact hload
  · rw [seat, hload]

end Restoring

/-! ## What the settling of waiting commands leaves (R51, R53, R96) -/

section Settle

variable {β : Type} (π : State → β) (hc : ∀ s x, π { s with contexts := x } = π s) (hq : ∀ s q, π { s with queues := q } = π s)
  (hw : ∀ s v, π { s with windows := v } = π s)
include hc

theorem settleCtx_keeps (s : State) (c : Nat) : π (s.settleCtx c) = π s := by
  unfold State.settleCtx
  split
  · exact hc ..
  · rfl

include hw

theorem ctxEnd_keeps (s : State) (c code : Nat) : π (s.ctxEnd c code) = π s := by
  unfold State.ctxEnd
  split
  · rfl
  · exact (hw ..).trans (hc ..)

theorem settleSuspend_keeps (s : State) (c : Nat) : π (s.settleSuspend c) = π s := by
  unfold State.settleSuspend
  split
  · split
    · exact ctxEnd_keeps π hc hw ..
    · rfl
  · rfl

include hq

theorem settleSaved_keeps (s : State) (c q : Nat) : π (s.settleSaved c q) = π s :=
  (settleKernelCmd_keeps π hq hw _ _).trans (settleSuspend_keeps π hc hw s c)

end Settle

/-! ## Making room (R71, R90, R94, R95) -/

/-- The event stops the resident group for the reason, and changes neither its strands nor memory (R90). -/
def StopsGroup (s : State) (uid : Nat) (g : Group) (i : Instr) (reason : BitVec 2) (halt : Bool) : Prop :=
  ∃ (s' : State) (g' : Group), exec i s = .next s' ∧ s'.group? uid = some g' ∧ g'.stage = .stopping ∧ g'.reason = reason ∧ g'.halt = halt ∧ g'.strands = g.strands ∧ s'.mem = s.mem

section MakingRoom

variable {s : State} {uid : Nat} {g : Group} {k : Kernel} (hg : s.group? uid = some g) (hr : g.stage = .resident)
include hg hr

theorem group_requestSave_resident (reason : BitVec 2) : (s.requestSave uid reason).group? uid = some { g with stage := .stopping, reason := reason } := by
  refine (group_modGroup_of hg ?_).trans (congrArg some (if_pos hr))
  rw [if_pos hr]

variable (hk : s.kernel? g.kuid = some k)
include hk

theorem preemption_stepped (hs : g.stepped = true) : StopsGroup s uid g (.preemption uid) 2 true := by
  have he : exec (.preemption uid) s = execPreemption uid s := rfl
  simp only [execPreemption, hg, hk, hr, hs, ne_eq, not_true_eq_false, if_false, if_true] at he
  exact ⟨_, _, he, group_modGroup_of (group_requestSave_resident hg hr 2) (f := fun g => { g with halt := true }) rfl, rfl, rfl, rfl, rfl, rfl⟩

theorem preemption_yields (hs : g.stepped = false) (hv : s.canSave g = true) (hy : ∃ q ∈ s.kernels, s.yieldsTo g k q = true) :
    StopsGroup s uid g (.preemption uid) 0 g.halt := by
  have hany : (s.kernels.any fun q => s.yieldsTo g k q) = true := List.any_eq_true.2 hy
  have he : exec (.preemption uid) s = execPreemption uid s := rfl
  simp only [execPreemption, hg, hk, hr, hs, hv, hany, ne_eq, not_true_eq_false, Bool.false_eq_true, Bool.and_self, if_false, if_true] at he
  exact ⟨_, _, he, group_requestSave_resident hg hr 0, rfl, rfl, rfl, rfl, rfl⟩

theorem superstepYield_stops (hv : s.canSave g = true)
    (ho : k.nextL < k.groupCount ∨ ∃ h ∈ s.groups, h.kuid = k.uid ∧ h.stage = .saved ∧ s.advanced h = true)
    (hw : ∀ j t, g.strands[j]? = some t → (s.waitsStep g j t).isSome = true) : StopsGroup s uid g (.superstepYield uid) 1 g.halt := by
  have hall : ((List.range g.strands.length).map fun j => (g.strands[j]?).bind fun t => s.waitsStep g j t).all Option.isSome = true := by
    rw [List.all_map, List.all_eq_true]
    intro j hj
    have hj := List.getElem?_eq_getElem (List.mem_range.1 hj)
    rw [Function.comp, hj]
    exact hw j _ hj
  have hother : k.nextL < k.groupCount ∨ (s.groups.any fun h => h.kuid == k.uid && decide (h.stage = .saved) && s.advanced h) = true := by
    refine ho.imp_right fun ⟨h, hm, hku, hst, had⟩ => List.any_eq_true.2 ⟨h, hm, ?_⟩
    simp [hku, hst, had]
  have he : exec (.superstepYield uid) s = execSuperstepYield uid s := rfl
  simp only [execSuperstepYield, hg, hk] at he
  rw [if_pos ⟨hr, hall, hother, hv⟩] at he
  refine ⟨_, _, he, group_modGroup_of (group_requestSave_resident hg hr 1) (f := fun g' => { g' with yieldOn := _ }) rfl, rfl, rfl, rfl, rfl, rfl⟩

end MakingRoom

/-! ## Saving (R91, R92) -/

theorem saveStrand_memOnly (s : State) (g : Group) (j : Nat) (t : Strand) : Laws.MemOnly s (s.saveStrand g j t) := by
  refine .trans (.trans (.trans ?_ (Laws.writeBytes_memOnly ..)) (Laws.scramble_memOnly ..)) (Laws.writeBytes_memOnly ..)
  refine foldl_rel Laws.MemOnly.refl .trans (fun s i => ?_) _ s
  split
  · exact Laws.writeBytes_memOnly ..
  · exact .refl s

theorem saveFrame_memOnly (s : State) (g : Group) (k : Kernel) : Laws.MemOnly s (s.saveFrame g k) := by
  unfold State.saveFrame
  refine .trans ?_ (foldl_rel Laws.MemOnly.refl .trans (fun s n => Laws.writeBytes_memOnly ..) _ _)
  refine .trans (.trans (Laws.writeBytes_memOnly ..) (Laws.writeBytes_memOnly ..)) (foldl_rel Laws.MemOnly.refl .trans (fun s j => ?_) _ _)
  split
  · exact saveStrand_memOnly ..
  · exact .refl s

theorem group_of_memOnly {s s' : State} (h : Laws.MemOnly s s') (u : Nat) : s'.group? u = s.group? u := by
  unfold Laws.MemOnly at h
  rw [h]
  rfl

/-- A group as the frame at `f` holds it (R92, R102, R281). -/
def framedGroup (g : Group) (f : Nat) : Group :=
  { g with strands := g.strands.map fun t => t.atSave g.cqb, frame := f, step := if g.halt then false else g.step }

/-- What the device keeps of a group that its frame holds. -/
def savedGroup (g : Group) (f : Nat) : Group :=
  { framedGroup g f with
    stage := .saved, core := 160, slots := [], bufW := [], bufA := [], bufC := [], lines := [],
    strands := (framedGroup g f).strands.map fun t => { t with ibuf := [], stepLeft := if g.halt then none else t.stepLeft } }

theorem saveTo_reaches (s : State) (g : Group) (k : Kernel) (f : Nat) :
    ∃ s1 : State, (∀ u, s1.group? u = s.group? u) ∧ s1.mem = (s.saveFrame (framedGroup g f) k).mem ∧
      s.saveTo g k f = ((s1.modGroup g.uid fun _ => savedGroup g f).settleCtx g.cid).settleSaved g.cid k.qid := by
  refine ⟨_, fun u => ?_, ?_, rfl⟩
  · exact group_of_memOnly (saveFrame_memOnly s (framedGroup g f) k) u
  · rfl

section Saving

variable {s : State} {uid : Nat} {g : Group} {k : Kernel} {f : Nat} (hg : s.group? uid = some g)
include hg

theorem saveTo_saves (k : Kernel) (f : Nat) :
    (s.saveTo g k f).group? uid = some (savedGroup g f) ∧ (s.saveTo g k f).mem = (s.saveFrame (framedGroup g f) k).mem := by
  obtain ⟨s1, hs1, hm, e⟩ := saveTo_reaches s g k f
  have hg1 : s1.group? g.uid = some g := by rw [hs1, (group_of_find hg).2, hg]
  rw [e, ← (group_of_find hg).2]
  constructor
  · exact (settleSaved_keeps (fun s => s.group? g.uid) (fun _ _ => rfl) (fun _ _ => rfl) (fun _ _ => rfl) ..).trans
      ((settleCtx_keeps (fun s => s.group? g.uid) (fun _ _ => rfl) ..).trans (group_modGroup_of hg1 (f := fun _ => savedGroup g f) rfl))
  · exact (settleSaved_keeps State.mem (fun _ _ => rfl) (fun _ _ => rfl) (fun _ _ => rfl) ..).trans ((settleCtx_keeps State.mem (fun _ _ => rfl) ..).trans hm)

variable (hk : s.kernel? g.kuid = some k) (hst : g.stage = .stopping) (hp : s.atPoints g = true) (hf : s.saveRun g.cid k.frameCount = some f)
include hk hst hp hf

theorem groupSave_frame : exec (.groupSave uid) s = .next (if s.goodRun f k.frameCount then s.saveTo g k f else s.contextError g.cid 3 0 (f * 4096)) := by
  rw [show exec (.groupSave uid) s = execGroupSave uid s from rfl]
  simp only [execGroupSave, hg, hk, hst, hp, hf, true_or, and_self, if_true]

end Saving

/-! ## The end of a group (R82, R88) -/

theorem admitRows_keeps {β : Type} (π : State → β) (h : ∀ s r, π { s with rows := r } = π s) (s : State) : π s.admitRows = π s := by
  refine foldl_keeps π (fun s o => ?_) _ s
  split
  · exact (foldl_keeps π (fun s _ => h ..) _ _).trans (h ..)
  · exact h ..

theorem dropRowOp_keeps {β : Type} (π : State → β) (h : ∀ s r, π { s with rows := r } = π s) (s : State) (i : Nat) : π (s.dropRowOp i) = π s := by
  unfold State.dropRowOp
  split
  · rfl
  · exact (admitRows_keeps π h _).trans ((h _ _).trans (h _ _))

theorem dropGroup_group (s : State) (g : Group) : (s.dropGroup g).group? g.uid = none := by
  unfold State.dropGroup
  refine (settleCtx_keeps (fun s => s.group? g.uid) (fun _ _ => rfl) ..).trans ?_
  simp [State.group?]

theorem dropGroup_keeps {β : Type} (π : State → β) (hr : ∀ s r, π { s with rows := r } = π s) (hc : ∀ s x, π { s with contexts := x } = π s)
    (hd : ∀ s gs ops ls ms cs m a, π { s with groups := gs, ops := ops, locks := ls, mats := ms, cats := cs, mmu := m, arc := a } = π s) (s : State) (g : Group) :
    π (s.dropGroup g) = π s := by
  unfold State.dropGroup
  exact (settleCtx_keeps π hc ..).trans ((hd ..).trans (foldl_keeps π (fun s (o : RowOp) => dropRowOp_keeps π hr s o.id) _ s))

section Ending

variable {s : State} {uid : Nat} {g : Group} {k : Kernel} (hg : s.group? uid = some g) (hk : s.kernel? g.kuid = some k)
include hg hk

theorem groupEnd_aborted (hst : g.stage = .aborting) (hq : s.abortedQuiet g = true) :
    ∃ s', exec (.groupEnd uid) s = .next s' ∧ s'.group? uid = none ∧ s'.mem = s.mem := by
  have hu := (group_of_find hg).2
  have hidle : (s.rows.ops.filter fun o => o.guid == uid && o.stopped) = [] := by
    simp only [State.abortedQuiet, Bool.and_eq_true, Bool.not_eq_true', List.any_eq_false, hu] at hq
    refine List.filter_eq_nil_iff.2 fun o ho h => hq.2 o ho ?_
    exact (Bool.and_eq_true _ _ ▸ h).1
  have he : exec (.groupEnd uid) s = execGroupEnd uid s := rfl
  simp only [execGroupEnd, hg, hk, hst, hq, hidle, List.isEmpty_nil, Bool.not_true, Bool.false_eq_true, if_false, if_true] at he
  refine ⟨_, he, ?_, ?_⟩
  · refine (settleSaved_keeps (fun s => s.group? uid) (fun _ _ => rfl) (fun _ _ => rfl) (fun _ _ => rfl) ..).trans ?_
    exact hu ▸ dropGroup_group s g
  · exact (settleSaved_keeps State.mem (fun _ _ => rfl) (fun _ _ => rfl) (fun _ _ => rfl) ..).trans
      (dropGroup_keeps State.mem (fun _ _ => rfl) (fun _ _ => rfl) (fun _ _ _ _ _ _ _ _ => rfl) s g)

/-- A kernel once one more of its groups has ended; with the last one it drains (R80). -/
def endedOne (k : Kernel) : Kernel :=
  if k.ended + 1 = k.groupCount then { k with ended := k.ended + 1, stage := .draining, status := some (k.status.getD 0) } else { k with ended := k.ended + 1 }

omit hg hk in
theorem endedOne_uid (k : Kernel) : (endedOne k).uid = k.uid := by
  unfold endedOne
  split <;> rfl

theorem groupEnd_done (ha : g.stage ≠ .aborting) (hs : g.stage ≠ .saved) (hd : s.groupDone g = true) :
    ∃ s', exec (.groupEnd uid) s = .next s' ∧ s'.group? uid = none ∧ s'.kernel? k.uid = some (endedOne k) ∧ s'.mem = s.mem := by
  have hu := (group_of_find hg).2
  have he : exec (.groupEnd uid) s = execGroupEnd uid s := rfl
  simp only [execGroupEnd, hg, hk, ha, hs, hd, ne_eq, not_false_eq_true, and_self, if_false, if_true] at he
  have hku : s.kernel? k.uid = some k := (kernel_of_find hk).2 ▸ hk
  have hdk : (s.dropGroup g).kernel? k.uid = some k :=
    (dropGroup_keeps (fun s => s.kernel? k.uid) (fun _ _ => rfl) (fun _ _ => rfl) (fun _ _ _ _ _ _ _ _ => rfl) s g).trans hku
  refine ⟨_, he, ?_, ?_, ?_⟩
  · refine (settleSaved_keeps (fun s => s.group? uid) (fun _ _ => rfl) (fun _ _ => rfl) (fun _ _ => rfl) ..).trans ?_
    exact hu ▸ dropGroup_group s g
  · refine (settleSaved_keeps (fun s => s.kernel? k.uid) (fun _ _ => rfl) (fun _ _ => rfl) (fun _ _ => rfl) ..).trans ?_
    exact kernel_modKernel_of hdk endedOne endedOne_uid
  · exact (settleSaved_keeps State.mem (fun _ _ => rfl) (fun _ _ => rfl) (fun _ _ => rfl) ..).trans
      (dropGroup_keeps State.mem (fun _ _ => rfl) (fun _ _ => rfl) (fun _ _ _ _ _ _ _ _ => rfl) s g)

end Ending

/-! ## The end of a wait (R87, R101, R104, R345) -/

section Wake

variable {s : State} {uid : Nat} {k : BitVec 3} {g : Group} {t : Strand} (hg : s.group? uid = some g) (ht : g.strands[k.toNat]? = some t)
include hg ht

/-- A change of a strand is decided by what it does to that strand. -/
theorem modStrand_congr_of {f h : Strand → Strand} (e : f t = h t) : s.modStrand uid k.toNat f = s.modStrand uid k.toNat h :=
  Laws.modGroup_congr hg (by rw [Laws.modAt_congr _ _ ht e])

variable (hr : g.stage = .resident)
include hr

theorem strandEvent_of {f : Strand → Option State} {s' : State} (e : f t = some s') : strandEvent uid k.toNat f s = .next s' := by
  simp only [strandEvent, hg, ht, hr, if_true, e, Option.getD_some]

theorem strandWake_counters {set : BitVec 8} {drain : Bool} (hs : t.status = .waiting (.counters set drain))
    (ho : s.waitOver uid k.toNat t set drain = true) : exec (.strandWake uid k) s = .next (s.modStrand uid k.toNat Strand.resume) := by
  refine strandEvent_of hg ht hr ?_
  simp only [State.wake, hs, ho, if_true]

theorem strandWake_barrier {b : Nat} {gen : BitVec 16} {phase timed x : Bool} {d : BitVec 6} (hs : t.status = .waiting (.barrier b gen phase d timed (some x))) :
    exec (.strandWake uid k) s = .next (s.modStrand uid k.toNat fun t => (t.landX d (waitResult false x)).resume) := by
  refine strandEvent_of hg ht hr ?_
  simp only [State.wake, hs]
  refine congrArg some (modStrand_congr_of hg ht ?_)
  simp only [Strand.passWait, hs]

theorem idleTimeout_resumes {b : Bool} (hs : t.status = .waiting (.idle b)) :
    exec (.idleTimeout uid k) s = .next (s.modStrand uid k.toNat Strand.resume) := by
  refine strandEvent_of hg ht hr ?_
  simp only [hs]

theorem bwaitTimeout_lands {b : Nat} {gen : BitVec 16} {phase : Bool} {d : BitVec 6} (hs : t.status = .waiting (.barrier b gen phase d true none)) :
    ∃ x, exec (.bwaitTimeout uid k) s = .next (s.tick.modStrand uid k.toNat fun t => (t.landX d (waitResult true x)).resume) := by
  refine ⟨Config.freeBool s.fresh, strandEvent_of hg ht hr ?_⟩
  simp only [hs]

end Wake

/-! ## The statement -/

/-- Settles O42: each event by its lemma; a group that makes room, one that is saved and one that is restored keep their identity through what follows. -/
theorem groupEvents : Obligations.GroupEvents := by
  unfold Obligations.GroupEvents
  refine ⟨fun s k e slots w a c hp hc hf => ⟨fun snap => groupPlace_places hp hc hf, fun uid g g' hg hn hu =>
      ⟨fun pa => groupRestore_badFrame hp hc hf hg hn hu, fun hb => ?_⟩⟩,
    fun s uid g k hg hk => ⟨fun hr => preemption_stepped hg hr hk, fun hr => preemption_yields hg hr hk, fun hr => superstepYield_stops hg hr hk,
      fun f hst hp hf => ⟨fun hrun => ?_, fun hrun => ?_⟩, groupEnd_aborted hg hk, fun ha hs hd => ?_⟩,
    fun s uid k g t hg ht hr => ⟨fun set drain => strandWake_counters hg ht hr, fun b gen phase d timed x => strandWake_barrier hg ht hr,
      fun b => idleTimeout_resumes hg ht hr, fun b gen phase d => bwaitTimeout_lands hg ht hr⟩⟩
  · obtain ⟨s0, he, hs, hm⟩ := groupRestore_restores hp hc hf hg hn hu hb
    obtain ⟨g3, hg3, hseat⟩ := Option.map_eq_some_iff.1 hs
    simp only [seat, Prod.mk.injEq] at hseat
    obtain ⟨-, hstage, hcore, hslots, hrestores, hlate⟩ := hseat
    exact ⟨s0, g3, he, hg3, hstage, hcore, hslots, hrestores, hlate, hm⟩
  · rw [groupSave_frame hg hk hst hp hf, hrun]
    rfl
  · obtain ⟨hsaved, hmem⟩ := saveTo_saves hg k f
    exact ⟨_, _, (groupSave_frame hg hk hst hp hf).trans (congrArg Host.Outcome.next (if_pos hrun)), hsaved, rfl, rfl, rfl, rfl, hmem⟩
  · obtain ⟨s', he, hgone, hend, hmem⟩ := groupEnd_done hg hk ha hs hd
    refine ⟨s', endedOne k, he, hgone, hend, ?_, hmem, fun hlast => ?_⟩
    · unfold endedOne
      split <;> rfl
    · rw [endedOne, if_pos hlast]
      exact ⟨rfl, rfl⟩

end Sys2Proof.Proofs
end

section
/-!
One issue of a strand (R89, R93, R132, R135): from the word at its PC through the rotation to the step.
-/
namespace Sys2Proof.Proofs

open Sys2Proof Sys2Proof.Machine

section Issue
variable {s s0 s1 : State} {p : Seat} {g : Group} {t : Strand} {i : Instr}

/-! ## Fetch, interlocks, rotation -/

/-- A word that decodes is what the strand would issue, a prefix with the word after it (R225). -/
theorem nextIssue_decoded {w : BitVec 32} (hw : s.fetchWord g t t.pc = (.word w, s0)) (hd : decode w = .ok i) :
    s.nextIssue g t = s0.fetchPair g t i := by
  simp only [State.nextIssue, hw, hd]

/-- A seat whose instruction meets the interlocks issues it (R132, R135). -/
theorem tryIssue_eligible (hg : s.group? p.uid = some g) (ht : g.strands[p.k]? = some t) (hn : s.nextIssue g t = (.run i, s1))
    (he : s.eligible p.uid p.k g t (s1.issued t i) = true) : s.tryIssue p = some (.run i, s1) := by
  simp only [State.tryIssue, hg, ht, hn, he, if_true]

/-- The first seat of the rotation that can issue is the one that issues (R89). -/
theorem nextSeat_first {before after : List Seat} {x : Issue} (hr : s.rotation = before ++ p :: after) (hb : ∀ q ∈ before, s.tryIssue q = none)
    (hp : s.tryIssue p = some (x, s1)) : s.nextSeat = some (p, x, s1) := by
  have hnone : (before.findSome? fun q => (s.tryIssue q).map fun y => (q, y.1, y.2)) = none :=
    List.findSome?_eq_none_iff.2 fun q hq => by rw [hb q hq, Option.map_none]
  rw [State.nextSeat, hr, List.findSome?_append, hnone, Option.none_or, List.findSome?_cons, hp, Option.map_some]

/-! ## The step -/

/-- An issue that has its effect: the seat's strand is granted the step, and its buffer is filled after it. -/
theorem runIssue_run {s3 : State} (hx : exec i (s1.grant p.uid p.k p.core p.slot) = .next s3) :
    runIssue p (.run i) s1 = .next (s3.topUp p.uid p.k).calm := by
  simp only [runIssue, hx, afterIssue]

/-- With no input listed and no trap due, a strand that can issue does so where no event may come. -/
theorem step_issue {x : Issue} (ha : s.agenda = []) (ht : s.trapDue = none) (hp : s.tick.nextSeat = some (p, x, s1)) (he : s.nextEvent = none) :
    step s = runIssue p x s1 := by
  simp only [step, ha, State.advance, ht, hp, he]

/-- Where an event may come too, the step is the event or the issue. -/
theorem step_event_or_issue {x : Issue} {e : State} (ha : s.agenda = []) (ht : s.trapDue = none) (hp : s.tick.nextSeat = some (p, x, s1))
    (he : s.nextEvent = some e) : step s = .next e ∨ step s = runIssue p x s1 := by
  have hs : step s = if Config.freeBool s.fresh then .next e else runIssue p x s1 := by simp only [step, ha, State.advance, ht, hp, he]
  rw [hs]
  exact ite_eq_or_eq _ _ _

end Issue

/-- Settles O56: the first seat that can issue runs its decoded instruction; an event, where one may come, is the only other step. -/
theorem stepRunsDecoded : Obligations.StepRunsDecoded := by
  unfold Obligations.StepRunsDecoded
  intro s s0 s1 p before after g t w i ha htrap hr hb hg ht hw hd hpair he s2 s3 hx s4
  have hseat : s.tick.nextSeat = some (p, .run i, s1) :=
    nextSeat_first hr hb (tryIssue_eligible hg ht ((nextIssue_decoded hw hd).trans hpair) he)
  have hrun : runIssue p (.run i) s1 = .next s4 := runIssue_run hx
  exact ⟨fun hn => (step_issue ha htrap hseat hn).trans hrun, fun e hn => hrun ▸ step_event_or_issue ha htrap hseat hn⟩

end Sys2Proof.Proofs
end

section
/-!
Counter waits (R256) and the superstep barriers (R106, R107): when a wait is over, and what each instruction does to the strand that issues it.
-/
namespace Sys2Proof.Proofs

open Sys2Proof Sys2Proof.Machine Sys2Proof.Safety

/-! ## Counter waits (R256) -/

/-- The counters that a wait names, one bit of the mask for each. -/
theorem countersZero_iff (t : Strand) (n : BitVec 8) : t.countersZero n = true ↔
    (n.getLsbD 0 = true → t.kl = 0) ∧ (n.getLsbD 1 = true → t.ks = 0) ∧ (∀ q, q < 4 → n.getLsbD (q + 2) = true → t.ke.getD q 0 = 0) ∧
      (n.getLsbD 6 = true → t.kr = 0) ∧ (n.getLsbD 7 = true → t.kc = 0) := by
  simp only [Strand.countersZero, Bool.and_eq_true, Bool.or_eq_true, Bool.not_eq_true', List.all_eq_true, List.mem_range, beq_iff_eq, and_assoc,
    imp_iff_not_or, Bool.not_eq_true]

/-- No write of the strand at group scope is in flight. -/
theorem no_groupWrite_iff (s : State) (u k : Nat) : (s.ops.any fun o => o.guid == u && o.strand == k && o.groupWrite s) = false ↔
    ∀ o ∈ s.ops, o.guid = u → o.strand = k → o.groupWrite s = false := by
  simp only [List.any_eq_false, Bool.and_eq_true, beq_iff_eq, not_and, Bool.not_eq_true, and_imp]

theorem waitOver_iff (s : State) (u k : Nat) (t : Strand) (n : BitVec 8) (drain : Bool) : s.waitOver u k t n drain = true ↔
    (n.getLsbD 0 = true → t.kl = 0) ∧ (n.getLsbD 1 = true → t.ks = 0) ∧
      (drain = true → ∀ o ∈ s.ops, o.guid = u → o.strand = k → o.groupWrite s = false) ∧
      (∀ q, q < 4 → n.getLsbD (q + 2) = true → t.ke.getD q 0 = 0) ∧ (n.getLsbD 6 = true → t.kr = 0) ∧ (n.getLsbD 7 = true → t.kc = 0) := by
  rw [State.waitOver, Bool.and_eq_true, countersZero_iff, Bool.or_eq_true, Bool.not_eq_true', Bool.not_eq_true', no_groupWrite_iff, ← Bool.not_eq_true, ← imp_iff_not_or]
  constructor
  · rintro ⟨⟨hl, hs, he, hr, hc⟩, hw⟩
    exact ⟨hl, hs, hw, he, hr, hc⟩
  · rintro ⟨hl, hs, hw, he, hr, hc⟩
    exact ⟨⟨hl, hs, he, hr, hc⟩, hw⟩

theorem exec_wait (n : BitVec 8) (s : State) : exec (.wait n) s = runM (waitE n false) s := rfl
theorem exec_drain (n : BitVec 8) (s : State) : exec (.drain n) s = runM (waitE n true) s := rfl

section CounterWaits

variable {i : Instr} {s : State} {u k : Nat} {g : Group} {t : Strand} {n : BitVec 8} {drain : Bool} (ha : Acts s u k g t) (he : exec i s = runM (waitE n drain) s)
include ha he

/-- A wait that is over at its issue closes the open batches it names and goes on. -/
theorem waitE_becomes (hz : s.waitOver u k t n drain = true) : Becomes i s u k t (t.closeNamed g.cqb n) :=
  becomes_of_done ha he (h := fun t => t.closeNamed g.cqb n) (if_pos hz)

/-- Another wait closes them and holds the strand at the instruction. -/
theorem waitE_holds (hz : ¬ s.waitOver u k t n drain = true) :
    exec i s = .next (s.modStrand u k fun _ => { t.closeNamed g.cqb n with status := .waiting (.counters n drain) }) :=
  exec_of_settled ha he (h := fun t => { t.closeNamed g.cqb n with status := .waiting (.counters n drain) })
    ((if_neg hz).trans (congrArg Eff.settled (Laws.modStrand_modStrand ..)))

end CounterWaits

/-! ## The superstep barrier (R106, R107) -/

/-- The superstep barrier that an index names is that of the group's kernel. -/
theorem ssb_eq {s : State} {g : Group} {q : Kernel} {j : Nat} {b : SBar} (hk : s.kernel? g.kuid = some q) (hb : q.ssb[j]? = some b) : s.ssb g j = b := by
  simp only [State.ssb, hk, Option.bind_some, hb]

/-- The word that BGEN.s gives: GEN in bits 15:0, XERR in bit 36 (R106). -/
theorem superstep_fields (b : SBar) :
    BitVec.ofNat 64 (b.gen.toNat + 2 ^ 36 * b.xerr.toNat) = b.gen.setWidth 64 ||| ((BitVec.ofBool b.xerr).setWidth 64 <<< 36) := by
  have hg := b.gen.isLt
  have hx := b.xerr.toNat_lt
  have h0 : (b.gen.setWidth 64).toNat = b.gen.toNat := BitVec.toNat_setWidth_of_le (by decide)
  apply BitVec.eq_of_toNat_eq
  rw [toNat_or_shiftLeft _ (by omega) (by decide), h0, BitVec.toNat_ofBool, BitVec.toNat_ofNat]
  exact Nat.mod_eq_of_lt (by omega)

theorem exec_sstep (d n : BitVec 6) (s : State) : exec (.sstep d n) s =
    runM (fun u k g _ s => .done ((s.pushOp u k g.cid Way.group (.sstep n.toNat) [] [] (s.liveIds u k)).modStrand u k
      fun t => t.setX d ((s.ssb g n.toNat).gen.setWidth 64))) s := rfl
theorem exec_bgenS (d n : BitVec 6) (s : State) : exec (.bgenS d n) s =
    runM (fun u k g _ s => .done (s.modStrand u k
      fun t => t.setX d (BitVec.ofNat 64 ((s.ssb g n.toNat).gen.toNat + 2 ^ 36 * (s.ssb g n.toNat).xerr.toNat)))) s := rfl
theorem exec_bwaitS (d a n : BitVec 6) (s : State) : exec (.bwaitS d a n) s = runM (bwaitSE false d a n) s := rfl
theorem exec_bwaitSP (d a n : BitVec 6) (s : State) : exec (.bwaitSP d a n) s = runM (bwaitSE true d a n) s := rfl

section Supersteps

variable {s : State} {u k : Nat} {g : Group} {t : Strand} {d a n : BitVec 6} {b : SBar} (ha : Acts s u k g t) (hb : s.ssb g n.toNat = b)
include ha hb

/-- SSTEP reads GEN at issue; its arrival stays pending until every operation counted then is over. -/
theorem sstep_issues : Issues (.sstep d n) s u k t
    ((s.pushOp u k g.cid Way.group (.sstep n.toNat) [] [] (s.liveIds u k)).modStrand u k fun t => t.setX d (b.gen.setWidth 64)) := by
  subst hb
  exact issues_of_done ha (exec_sstep ..) rfl

theorem bgenS_becomes : Becomes (.bgenS d n) s u k t (t.setX d (b.gen.setWidth 64 ||| ((BitVec.ofBool b.xerr).setWidth 64 <<< 36))) := by
  subst hb
  rw [← superstep_fields]
  exact becomes_of_done ha (exec_bgenS ..) (h := fun t => t.setX d _) rfl

/-- A wait whose test (R99, notes/assumptions/92.md) passes at once gives XERR in bit 1 of its result; it has no timeout (R101, R106). -/
theorem bwaitSE_passes {i : Instr} {phase : Bool} (he : exec i s = runM (bwaitSE phase d a n) s) (hp : genTest b.gen ((t.x a).setWidth 16) phase = true) :
    Becomes i s u k t (t.setX d (if b.xerr then 2 else 0)) := by
  subst hb
  rw [← waitResult_false]
  exact becomes_of_done ha he (h := fun t => t.setX d (waitResult false (s.ssb g n.toNat).xerr)) (if_pos hp)

/-- Another wait holds the strand at the instruction. -/
theorem bwaitSE_waits {i : Instr} {phase : Bool} (he : exec i s = runM (bwaitSE phase d a n) s) (hp : genTest b.gen ((t.x a).setWidth 16) phase = false) :
    exec i s = .next (s.modStrand u k fun _ => { t.mark d with status := .waiting (.superstep n.toNat ((t.x a).setWidth 16) phase d none) }) := by
  subst hb
  exact exec_of_settled ha he (h := fun t' => { t'.mark d with status := .waiting (.superstep n.toNat ((t.x a).setWidth 16) phase d none) })
    (if_neg (Bool.eq_false_iff.1 hp))

end Supersteps

/-! ## The statement -/

/-- Settles O23: a counter wait by whether it is over, a superstep wait by its test, SSTEP and BGEN.s by their lemmas. -/
theorem waitsAndSupersteps : Obligations.WaitsAndSupersteps := by
  unfold Obligations.WaitsAndSupersteps
  refine ⟨?counters, ?supersteps⟩
  case counters =>
    intro s u k g t n ha zero closed wait
    have hwait {i : Instr} {drain : Bool} (he : exec i s = runM (waitE n drain) s) : wait i drain :=
      ⟨fun hz => waitE_becomes ha he ((waitOver_iff ..).2 hz), fun hz => waitE_holds ha he fun h => hz ((waitOver_iff ..).1 h)⟩
    exact ⟨hwait (exec_wait ..), hwait (exec_drain ..)⟩
  case supersteps =>
    intro s u k g t d a n q b ha hk hb v wait
    have hs : s.ssb g n.toNat = b := ssb_eq hk hb
    have hwait {i : Instr} {phase : Bool} (he : exec i s = runM (bwaitSE phase d a n) s) : wait i phase (genTest b.gen (v.setWidth 16) phase) :=
      ⟨bwaitSE_passes ha hs he, bwaitSE_waits ha hs he⟩
    exact ⟨sstep_issues ha hs, bgenS_becomes ha hs, hwait (exec_bwaitS ..), genTest_phase .. ▸ hwait (exec_bwaitSP ..)⟩

end Sys2Proof.Proofs
end

section
/-!
Traps, the return from their handler, and the end of a strand (R331, R332, R334, R341, R342, R345); then the checks that an instruction which
reads MD makes before its effect (R129, R200, R207, R126).
-/
namespace Sys2Proof.Proofs

open Sys2Proof Sys2Proof.Machine Sys2Proof.Safety

/-! ## A trap of an instruction on the strand alone -/

theorem modAt_id {α : Type} : ∀ (l : List α) (i : Nat), modAt l i id = l
  | [], _ => rfl
  | _ :: _, 0 => rfl
  | a :: as, i + 1 => congrArg (a :: ·) (modAt_id as i)

theorem modFirst_id {α : Type} (p : α → Bool) : ∀ l : List α, modFirst p id l = l
  | [] => rfl
  | a :: as => by
    rw [modFirst, modFirst_id p as]
    exact ite_self _

/-- Putting the strand that acts where it stands changes nothing. -/
theorem modStrand_self {s : State} {u k : Nat} {g : Group} {t : Strand} (ha : Acts s u k g t) : s.modStrand u k (fun _ => t) = s := by
  have e : (fun g : Group => { g with strands := modAt g.strands k id }) = id := funext fun g => by rw [modAt_id]; rfl
  calc s.modStrand u k (fun _ => t) = s.modStrand u k id := Laws.modStrand_congr ha rfl
    _ = s := by rw [State.modStrand, State.modGroup, e, modFirst_id]

theorem traps_of_strand_trap {i : Instr} {s : State} {u k : Nat} {g : Group} {t : Strand} {f : Strand → Eff Strand} {c : Trap}
    (ha : Acts s u k g t) (he : exec i s = runS f s) (hf : f t = .trap t c) : Traps i s u k t c :=
  traps_of_trap (f := liftS f) ha he (by rw [liftS, hf, Eff.map, modStrand_self ha])

/-! ## Trap entry and the fatal trap (R331, R332) -/

theorem strand_of_acts {s : State} {u k : Nat} {g : Group} {t : Strand} (ha : Acts s u k g t) : s.strand? u k = some t := by
  obtain ⟨-, hg, ht⟩ := Laws.cur_strand ha
  rw [State.strand?, hg, Option.bind_some, ht]

/-- A trap is fatal in a handler, and where no vector is set. -/
theorem fatal_iff (t : Strand) : t.fatal = true ↔ t.h = true ∨ ∀ j, 2 ≤ j → j ≤ 56 → t.tvec.getLsbD j = false := by
  have hv : t.tvec.extractLsb' 2 55 = 0#55 ↔ ∀ j, 2 ≤ j → j ≤ 56 → t.tvec.getLsbD j = false := by
    constructor
    · intro h j h2 h56
      have hj := congrArg (fun v => v.getLsbD (j - 2)) h
      simp only [BitVec.getLsbD_extractLsb', BitVec.getLsbD_zero, Nat.add_sub_cancel' h2] at hj
      rwa [decide_eq_true (by omega : j - 2 < 55), Bool.true_and] at hj
    · intro h
      refine BitVec.eq_of_getLsbD_eq fun j hj => ?_
      rw [BitVec.getLsbD_extractLsb', h (2 + j) (by omega) (by omega), Bool.and_false, BitVec.getLsbD_zero]
  rw [Strand.fatal, Bool.or_eq_true, beq_iff_eq, hv]

section Entry

variable {s : State} {u k : Nat} {g : Group} {t : Strand} {c : Trap} {resume : Word} (ha : Acts s u k g t)
include ha

theorem takeTrap_enters (hf : t.fatal = false) : s.takeTrap u k c resume = s.modStrand u k fun _ => t.enter c resume := by
  rw [State.takeTrap, strand_of_acts ha]
  exact (if_neg (Bool.eq_false_iff.1 hf)).trans (Laws.modStrand_congr ha rfl)

theorem takeTrap_fatal (hf : t.fatal = true) : s.takeTrap u k c resume = s.fatalTrap u k c := by
  rw [State.takeTrap, strand_of_acts ha]
  exact if_pos hf

end Entry

theorem memOnly_groups {s s' : State} (h : Laws.MemOnly s s') : s'.groups = s.groups := by
  unfold Laws.MemOnly at h
  rw [h]

/-- A record to the owner leaves every group and every kernel (R439). -/
theorem postOwner_groups (s : State) (r : List Word) : (s.postOwner r).groups = s.groups := by
  rcases Laws.postOwner_cases s r with ⟨-, e⟩ | ⟨-, e⟩ <;> rw [e]
  obtain ⟨s1, q, h, e | e⟩ := Laws.postTo_frame s s.plat.owner.toNat r <;> rw [e]
  exact (memOnly_groups h :)
theorem postOwner_kernels (s : State) (r : List Word) : (s.postOwner r).kernels = s.kernels := by
  rcases Laws.postOwner_cases s r with ⟨-, e⟩ | ⟨-, e⟩ <;> rw [e]
  obtain ⟨s1, q, h, e | e⟩ := Laws.postTo_frame s s.plat.owner.toNat r <;> rw [e]
  exact (memOnly_kernels h :)

theorem strand_of_groups_eq {s s' : State} (h : s'.groups = s.groups) (u k : Nat) : s'.strand? u k = s.strand? u k := by
  rw [State.strand?, State.group?, h, State.strand?, State.group?]
theorem kernel_of_kernels_eq {s s' : State} (h : s'.kernels = s.kernels) (u : Nat) : s'.kernel? u = s.kernel? u := by
  rw [State.kernel?, h, State.kernel?]

/-- How the abort of kernel `v` marks a group (R82). -/
def markAborting (v : Nat) (g : Group) : Group := if g.kuid == v then { g with stage := .aborting } else g

theorem markAborting_uid (v : Nat) (g : Group) : (markAborting v g).uid = g.uid := by
  unfold markAborting
  split <;> rfl
theorem markAborting_strands (v : Nat) (g : Group) : (markAborting v g).strands = g.strands := by
  unfold markAborting
  split <;> rfl

theorem abortKernel_groups (s : State) (v : Nat) (c : Byte) : (s.abortKernel v c).groups = s.groups ∨ (s.abortKernel v c).groups = s.groups.map (markAborting v) := by
  unfold State.abortKernel
  split
  · exact .inl rfl
  · split
    · exact .inl rfl
    · exact .inr rfl

/-- The abort of a kernel leaves the strands of the groups that stay listed. -/
theorem abortKernel_strand (s : State) (v u k : Nat) (c : Byte) : (s.abortKernel v c).strand? u k = s.strand? u k := by
  rcases abortKernel_groups s v c with h | h
  · exact strand_of_groups_eq h u k
  · rw [State.strand?, State.group?, h, find_uid_map (markAborting v) (markAborting_uid v), State.strand?, State.group?]
    cases s.groups.find? fun g => g.uid == u with
    | none => rfl
    | some g => simp only [Option.map_some, Option.bind_some, markAborting_strands]

section Fatal

variable {s : State} {u k : Nat} {g : Group} {t : Strand} (ha : Acts s u k g t) (c : Trap)
include ha

/-- A fatal trap ends the strand, tells the owner and aborts the kernel. -/
theorem fatalTrap_steps : ∃ r, s.fatalTrap u k c = ((s.modStrand u k fun t => { t with status := .ended }).postOwner r).abortKernel g.kuid 0x04 := by
  obtain ⟨-, hg, -⟩ := Laws.cur_strand ha
  exact ⟨_, by rw [State.fatalTrap, hg]⟩

theorem fatalTrap_strand : (s.fatalTrap u k c).strand? u k = some { t with status := .ended } := by
  obtain ⟨r, e⟩ := fatalTrap_steps ha c
  rw [e, abortKernel_strand, strand_of_groups_eq (postOwner_groups ..), Laws.strand_modStrand, strand_of_acts ha, Option.map_some]

theorem fatalTrap_kernel {q : Kernel} (hq : s.kernel? g.kuid = some q) (hd : q.stage ≠ .draining) :
    (s.fatalTrap u k c).kernel? g.kuid = some (abortedKernel q 0x04) := by
  obtain ⟨r, e⟩ := fatalTrap_steps ha c
  rw [e]
  refine kernel_abortKernel ?_ hd _
  exact (kernel_of_kernels_eq (postOwner_kernels ..) _).trans hq

end Fatal

/-! ## TRAP, BRK, TRET and IDLE (R334, R341, R342, R345) -/

theorem exec_trap (code : BitVec 10) (s : State) :
    exec (.trap code) s = runM (fun _ _ _ _ s => .trapNext s (trapOf 0x19 0 (code.setWidth 64))) s := rfl
theorem exec_brk (code : BitVec 9) (s : State) : exec (.brk code) s = runM (fun _ _ _ _ s => .trap s (trapOf 0x1A 0 (code.setWidth 64))) s := rfl
theorem exec_brkDbg (code : BitVec 9) (s : State) : exec (.brkDbg code) s = runM brkDbgE s := rfl
theorem exec_illegalInstruction (detail : BitVec 4) (tval : Word) (s : State) :
    exec (.illegalInstruction detail tval) s = runM (fun _ _ _ _ s => .trap s (trapOf 0x01 detail tval)) s := rfl
theorem exec_tret (s : State) : exec .tret s = runM tretE s := rfl
theorem exec_idle (s : State) :
    exec .idle s = runM (fun u k _ _ s => .settled (s.modStrand u k fun t => { t with status := .waiting (.idle false) })) s := rfl
theorem exec_idleEnd (s : State) :
    exec .idleEnd s = runM (fun u k _ t s => if t.h then .trap s (privTrap 4 0) else .settled (s.endStrand u k)) s := rfl

/-- What TRET leaves of the strand: VS and RI stay where it returns to the trap's origin alone. -/
theorem leave_fields (t : Strand) : t.leave =
    { t with h := false, pc := t.tpc, ibuf := [], vs := if t.tpc = t.torg then t.vs else 0, ri := if t.tpc = t.torg then t.ri else 0 } := by
  unfold Strand.leave
  by_cases h : t.tpc = t.torg
  · simp only [h, ne_eq, not_true_eq_false, if_false, if_true]
  · simp only [h, ne_eq, not_false_eq_true, if_false, if_true]

section Handlers

variable {s : State} {u k : Nat} {g : Group} {t : Strand} (ha : Acts s u k g t)
include ha

theorem trap_traps_next (code : BitVec 10) :
    exec (.trap code) s = .next (s.takeTrap u k (trapOf 0x19 0 (code.setWidth 64)) (nextPc t.pc 4)) :=
  (exec_trap code s).trans (Laws.runM_next ha _)

/-- BRK.dbg halts a resident group for a debugger (R95, R341). -/
theorem brkDbg_halts (code : BitVec 9) (hr : g.stage = .resident) :
    ∃ s', exec (.brkDbg code) s = .next s' ∧ s'.group? u = some (halted g) := by
  obtain ⟨-, hg, -⟩ := Laws.cur_strand ha
  have he := (exec_brkDbg code s).trans (Laws.runM_next ha _)
  rw [brkDbgE, requestSave_halt hg hr] at he
  refine ⟨_, he, ?_⟩
  rw [State.finish, State.group?, postOwner_groups]
  exact group_modGroup_of hg rfl

theorem tret_traps (hh : t.h = false) : Traps .tret s u k t (trapOf 0x03 1 0) := traps_of_trap ha (exec_tret s) (if_pos hh)

/-- TRET in a handler leaves it, and then traps where the address it returns to is bad. -/
theorem tret_leaves (hh : t.h = true) : exec .tret s = .next
    (if badTarget t.tpc then (s.modStrand u k fun _ => t.leave).takeTrap u k (trapOf 0x06 1 t.tpc) t.tpc else s.modStrand u k fun _ => t.leave) := by
  rw [exec_tret, Laws.runM_next ha, tretE, if_neg (by simp [hh]), Laws.modStrand_congr ha (h := fun _ => t.leave) rfl]
  rfl

theorem idle_waits : exec .idle s = .next (s.modStrand u k fun t => { t with status := .waiting (.idle false) }) :=
  (exec_idle s).trans (Laws.runM_next ha _)

theorem idleEnd_traps (hh : t.h = true) : Traps .idleEnd s u k t (trapOf 0x03 4 0) := traps_of_trap ha (exec_idleEnd s) (if_pos hh)

theorem idleEnd_ends (hh : t.h = false) : exec .idleEnd s = .next (s.endStrand u k) := by
  rw [exec_idleEnd, Laws.runM_next ha, hh]
  rfl

end Handlers

/-! ## The end of a strand where no queue holds a record (R107) -/

/-- `s'` has kept the queues, memory, and the strand `t` that has ended. -/
structure KeepsEnded (u k : Nat) (t : Strand) (s s' : State) : Prop where
  queues : s'.queues = s.queues
  mem : s'.mem = s.mem
  strand : s.strand? u k = some t → s'.strand? u k = some t

theorem onSuperstep_of_ended {t : Strand} (h : t.status = .ended) (j : Nat) (bar : SBar) : t.onSuperstep j bar = t := by
  simp only [Strand.onSuperstep, Strand.wakeIdle, h]

theorem tellSuperstep_uid (v j : Nat) (bar : SBar) (g : Group) : (tellSuperstep v j bar g).uid = g.uid := by
  unfold tellSuperstep
  split <;> rfl

/-- What a completion of a superstep barrier tells does not reach a strand that has ended. -/
theorem tellSuperstep_ended {v j k : Nat} {bar : SBar} {g : Group} {t : Strand} (ht : g.strands[k]? = some t) (he : t.status = .ended) :
    (tellSuperstep v j bar g).strands[k]? = some t := by
  unfold tellSuperstep
  split
  · exact (List.getElem?_map ..).trans ((congrArg _ ht).trans (congrArg some (onSuperstep_of_ended he j bar)))
  · exact ht

theorem sstepDone_keepsEnded {u k : Nat} {t : Strand} (he : t.status = .ended) {s : State} (hq : ∀ n, n < 256 → (s.queue n).held = none) (v j : Nat) (bar : SBar) :
    KeepsEnded u k t s (s.sstepDone v j bar) := by
  rw [sstepDone_of_none_held hq]
  refine ⟨rfl, rfl, fun ht => ?_⟩
  obtain ⟨g, hg, ht⟩ := Option.bind_eq_some_iff.1 ht
  exact Option.bind_eq_some_iff.2 ⟨_, (find_uid_map _ (tellSuperstep_uid v j bar) u s.groups).trans (congrArg _ hg), tellSuperstep_ended ht he⟩

theorem sstepLeave_keepsEnded {u k : Nat} {t : Strand} (he : t.status = .ended) {s : State} (hq : ∀ n, n < 256 → (s.queue n).held = none) (v j : Nat) :
    KeepsEnded u k t s (s.sstepLeave v j) := by
  unfold State.sstepLeave
  split
  · exact ⟨rfl, rfl, id⟩
  · dsimp only
    split
    · exact sstepDone_keepsEnded he hq ..
    · exact ⟨rfl, rfl, id⟩

/-- The strand leaves barrier `j`, unless an arrival of it is pending there. -/
def leaveStep (u k v : Nat) (s : State) (j : Nat) : State := if s.pendingStep u k j then s else s.sstepLeave v j

theorem leaveStep_keepsEnded {u k : Nat} {t : Strand} (he : t.status = .ended) {s : State} (hq : ∀ n, n < 256 → (s.queue n).held = none) (v j : Nat) :
    KeepsEnded u k t s (leaveStep u k v s j) := by
  unfold leaveStep
  split
  · exact ⟨rfl, rfl, id⟩
  · exact sstepLeave_keepsEnded he hq v j

theorem leaveSteps_keepEnded {u k : Nat} {t : Strand} (he : t.status = .ended) (v : Nat) :
    ∀ (l : List Nat) (s : State), (∀ n, n < 256 → (s.queue n).held = none) → KeepsEnded u k t s (l.foldl (leaveStep u k v) s)
  | [], _, _ => ⟨rfl, rfl, id⟩
  | j :: l, s, hq => by
    have h1 : KeepsEnded u k t s (leaveStep u k v s j) := leaveStep_keepsEnded he hq v j
    have hq1 (n : Nat) (hn : n < 256) : ((leaveStep u k v s j).queue n).held = none :=
      (congrArg Queue.held (queue_of_queues_eq h1.queues n)).trans (hq n hn)
    have h2 : KeepsEnded u k t _ (l.foldl (leaveStep u k v) _) := leaveSteps_keepEnded he v l (leaveStep u k v s j) hq1
    exact ⟨h2.queues.trans h1.queues, h2.mem.trans h1.mem, fun ht => h2.strand (h1.strand ht)⟩

theorem endStrand_strand {s : State} {u k : Nat} {g : Group} {t : Strand} (ha : Acts s u k g t) (hq : ∀ n, n < 256 → (s.queue n).held = none) :
    (s.endStrand u k).strand? u k = some { t with status := .ended } ∧ (s.endStrand u k).mem = s.mem := by
  obtain ⟨-, hg, -⟩ := Laws.cur_strand ha
  have h := leaveSteps_keepEnded (u := u) (k := k) (t := { t with status := .ended }) rfl g.kuid (List.range 64)
    (s.modStrand u k fun t => { t with status := .ended }) hq
  have e : s.endStrand u k = (List.range 64).foldl (leaveStep u k g.kuid) (s.modStrand u k fun t => { t with status := .ended }) := by
    rw [State.endStrand, hg]
    rfl
  rw [e]
  exact ⟨h.strand (by rw [Laws.strand_modStrand, strand_of_acts ha, Option.map_some]), h.mem⟩

/-! ## The checks of an instruction that reads MD (R129, R200, R207, R126) -/

theorem withType_reserved {t : Strand} (h : mdOk t.md = false) (ok : Nat → Bool) (f : Eff Strand) : withType ok t f = .trap t (modeTrap t 5) := by
  simp only [withType, h, Bool.not_false, if_true]

theorem withType_refused {ok : Nat → Bool} {t : Strand} (h : mdOk t.md = true) (hty : ok t.ty = false) (f : Eff Strand) :
    withType ok t f = .trap t (modeTrap t 2) := by
  simp only [withType, h, hty, Bool.not_true, Bool.not_false, Bool.false_eq_true, if_false, if_true]

theorem withType_typed {ok : Nat → Bool} {t : Strand} (h : Typed ok t) (f : Eff Strand) : withType ok t f = f := by
  simp only [withType, h.1, h.2, Bool.not_true, Bool.false_eq_true, if_false]

theorem withShape_bad {t : Strand} (h : t.shapeBad = true) (f : Eff Strand) : withShape t f = .trap t (shapeTrap t) := if_pos h

theorem withShape_fits {t : Strand} (h : t.shapeBad = false) (f : Eff Strand) : withShape t f = f := if_neg (Bool.eq_false_iff.1 h)

/-- The check of a scalar form under f64 passes (R226). -/
theorem withFType_typed {ok : Nat → Bool} {f : BitVec 1} {t : Strand} (h : Typed ok t) (hf : f = 0 ∨ t.ty ≠ 11) (e : Eff Strand) :
    withFType ok f t e = e := by
  rw [withFType, withType_typed h]
  refine if_neg ?_
  rcases hf with rfl | hf <;> simp [*]

section Checks

variable {i : Instr} {s : State} {u k : Nat} {g : Group} {t : Strand} {ok : Nat → Bool} {d a b : BitVec 6} {f x : BitVec 1}
  {op : Strand → Nat → Nat → Nat → Nat → Lanes → Nat × Lanes} (ha : Acts s u k g t)
include ha

theorem typed3_traps_reserved (he : exec i s = runS (typed3 ok d a b f x op) s) (h : mdOk t.md = false) :
    Traps i s u k t (modeTrap t 5) := traps_of_strand_trap ha he (withType_reserved h ..)

theorem typed3_traps_refused (he : exec i s = runS (typed3 ok d a b f x op) s) (h : mdOk t.md = true) (hty : ok t.ty = false) :
    Traps i s u k t (modeTrap t 2) := traps_of_strand_trap ha he (withType_refused h hty _)

theorem typed3_traps_shape (he : exec i s = runS (typed3 ok d a b 0 x op) s) (h : Typed ok t) (hs : t.shapeBad = true) :
    Traps i s u k t (shapeTrap t) := traps_of_strand_trap ha he ((withType_typed h _).trans (withShape_bad hs _))

theorem float3_traps_reserved (he : exec i s = runS (float3 ok d a b f x op) s) (h : mdOk t.md = false) :
    Traps i s u k t (modeTrap t 5) := traps_of_strand_trap ha he (withType_reserved h ..)

theorem float3_traps_refused (he : exec i s = runS (float3 ok d a b f x op) s) (h : mdOk t.md = true) (hty : ok t.ty = false) :
    Traps i s u k t (modeTrap t 2) := traps_of_strand_trap ha he (withType_refused h hty _)

theorem float3_traps_shape (he : exec i s = runS (float3 ok d a b 0 x op) s) (h : Typed ok t) (hs : t.shapeBad = true) :
    Traps i s u k t (shapeTrap t) :=
  traps_of_strand_trap ha he ((withFType_typed h (.inl rfl) _).trans ((withType_typed h _).trans (withShape_bad hs _)))

end Checks

/-- Integer instructions of one form, and floating ones. -/
def intForms (d a b : BitVec 6) (f x : BitVec 1) : List Instr :=
  [.add d a b f x, .sub d a b f x, .mul d a b f x, .mulh d a b f x, .min d a b f x, .max d a b f x, .mac d a b f x]
def floatInstrs (d a b : BitVec 6) (f x : BitVec 1) : List Instr :=
  [.fadd d a b f x, .fsub d a b f x, .fmul d a b f x, .fdiv d a b f x, .fma d a b f x]

theorem intForms_typed3 (d a b : BitVec 6) (f x : BitVec 1) :
    ∀ i ∈ intForms d a b f x, ∃ op, ∀ s, exec i s = runS (typed3 tyInt d a b f x op) s := by
  simp only [intForms, List.forall_mem_cons]
  exact ⟨⟨_, fun _ => rfl⟩, ⟨_, fun _ => rfl⟩, ⟨_, fun _ => rfl⟩, ⟨_, fun _ => rfl⟩, ⟨_, fun _ => rfl⟩, ⟨_, fun _ => rfl⟩, ⟨_, fun _ => rfl⟩,
    fun _ h => nomatch h⟩

theorem floatInstrs_float3 (d a b : BitVec 6) (f x : BitVec 1) :
    ∀ i ∈ floatInstrs d a b f x, ∃ op, ∀ s, exec i s = runS (float3 tyFP d a b f x op) s := by
  simp only [floatInstrs, List.forall_mem_cons]
  exact ⟨⟨_, fun _ => rfl⟩, ⟨_, fun _ => rfl⟩, ⟨_, fun _ => rfl⟩, ⟨_, fun _ => rfl⟩, ⟨_, fun _ => rfl⟩, fun _ h => nomatch h⟩

/-! ## The statement -/

/-- Settles O33: trap entry and each instruction by its lemma, the checks by those of the two operand forms. -/
theorem trapsAndReturns : Obligations.TrapsAndReturns := by
  unfold Obligations.TrapsAndReturns
  refine ⟨?traps, ?checks⟩
  case traps =>
    intro s u k g t c resume ha
    refine ⟨fatal_iff t, takeTrap_enters ha, fun hf => ?fatal, trap_traps_next ha, fun code => traps_of_trap ha (exec_brk code s) rfl,
      fun code hr => ?dbg, fun detail tval => traps_of_trap ha (exec_illegalInstruction detail tval s) rfl, tret_traps ha, fun hh => ?tret, idle_waits ha,
      idleEnd_traps ha, fun hh => ⟨_, idleEnd_ends ha hh, fun hq => ?ends⟩⟩
    case fatal =>
      rw [takeTrap_fatal ha hf]
      exact ⟨⟨_, fatalTrap_strand ha c, rfl⟩, fun q hq hd => ⟨_, fatalTrap_kernel ha c hq hd, rfl, rfl⟩⟩
    case dbg =>
      obtain ⟨s', he, hg⟩ := brkDbg_halts ha code hr
      exact ⟨s', _, he, hg, rfl, rfl, rfl, rfl⟩
    case tret =>
      have he := tret_leaves ha hh
      rw [leave_fields] at he
      exact ⟨fun hb => he.trans (congrArg _ (if_neg (Bool.eq_false_iff.1 hb))), fun hb => he.trans (congrArg _ (if_pos hb))⟩
    case ends =>
      obtain ⟨ht, hm⟩ := endStrand_strand ha hq
      exact ⟨_, ht, rfl, rfl, hm⟩
  case checks =>
    intro s u k g t d a b f x ha ints floats
    have hint : ∀ i ∈ ints, ∃ op, ∀ s, exec i s = runS (typed3 tyInt d a b f x op) s := intForms_typed3 d a b f x
    have hfloat : ∀ i ∈ floats, ∃ op, ∀ s, exec i s = runS (float3 tyFP d a b f x op) s := floatInstrs_float3 d a b f x
    refine ⟨fun h => List.forall_mem_append.2 ⟨fun i hi => ?_, fun i hi => ?_⟩, fun h hty i hi => ?_, fun h hty i hi => ?_,
      fun hf hs => ⟨fun h i hi => ?_, fun h i hi => ?_⟩⟩
    · obtain ⟨op, he⟩ := hint i hi
      exact typed3_traps_reserved ha (he s) h
    · obtain ⟨op, he⟩ := hfloat i hi
      exact float3_traps_reserved ha (he s) h
    · obtain ⟨op, he⟩ := hint i hi
      exact typed3_traps_refused ha (he s) h hty
    · obtain ⟨op, he⟩ := hfloat i hi
      exact float3_traps_refused ha (he s) h hty
    · obtain ⟨op, he⟩ := hint i hi
      exact typed3_traps_shape ha (hf ▸ he s) h hs
    · obtain ⟨op, he⟩ := hfloat i hi
      exact float3_traps_shape ha (hf ▸ he s) h hs

end Sys2Proof.Proofs
end

section
/-!
Floating signs, minima and maxima, compares and classes (R230, R231, R235, R236), after what the two forms of a floating instruction leave
(R205, R206, R226).
-/
namespace Sys2Proof.Proofs

open Sys2Proof Sys2Proof.Machine Sys2Proof.Safety

/-! ## The two forms of a floating instruction -/

theorem elemB_lt (t : Strand) (r : BitVec 6) (j : Nat) : elemB t r j < 2 ^ t.w := Nat.mod_lt _ (Nat.two_pow_pos _)
theorem scaB_lt (t : Strand) (r : BitVec 6) : scaB t r < 2 ^ t.w := Nat.mod_lt _ (Nat.two_pow_pos _)

/-- Both forms of a floating instruction, from what its operation does to a first operand of w bits. -/
theorem floatForms_of {ok : Nat → Bool} {i : BitVec 1 → Instr} {s : State} {u k : Nat} {g : Group} {t : Strand} {d a b : BitVec 6} {x : BitVec 1}
    {op : Strand → Nat → Nat → Nat → Nat → Lanes → Nat × Lanes} {op' : Nat → Nat → Nat → Nat → Lanes → Nat × Lanes} (ha : Acts s u k g t)
    (he : ∀ f, exec (i f) s = runS (float3 ok d a b f x op) s) (ho : ∀ lane old p q l, p < 2 ^ t.w → op t lane old p q l = op' lane old p q l) :
    FloatForms ok i s u k t d a b x op' := by
  refine ⟨fun h => ?vector, fun h hty => ?scalar⟩
  case vector =>
    have hf := (withFType_typed ⟨h.1, h.2.1⟩ (.inl rfl) _).trans (Laws.typed3_vec (d := d) (a := a) (b := b) (x := x)
      (op := fun t i old a b l => op t (if (0 : BitVec 1) == 1#1 then 0 else laneOf t.w i) old a b l) h)
    exact Laws.vecForm_of (he 0) ha hf h.2.2 (funext fun j => funext fun l => ho _ _ _ _ _ (elemB_lt t a j))
  case scalar =>
    have hf := (withFType_typed (f := 1) h (.inr hty) _).trans (Laws.typed3_sca (d := d) (a := a) (b := b) (x := x)
      (op := fun t i old a b l => op t (if (1 : BitVec 1) == 1#1 then 0 else laneOf t.w i) old a b l) h.1 h.2)
    exact Laws.scalarForm_of (he 1) ha (hf.trans (congrArg (fun f => Eff.done (scalarForm t d f)) (funext fun l => ho _ _ _ _ _ (scaB_lt t a))))

theorem raise_zero (l : Lanes) : l.raise 0 = l := by
  rw [Lanes.raise, show l.flags ||| 0 = l.flags from BitVec.or_zero]

/-! ## FMIN and FMAX (R230) -/

/-- The order of FMIN and FMAX: numeric, with -0 below +0. -/
theorem below_iff (x y : Val) : x.below y = true ↔ x.cmp y = some .lt ∨ ∃ e f, x = .fin true 0 e ∧ y = .fin false 0 f := by
  unfold Val.below
  split
  · next s e t f =>
    have hc : (Val.fin s 0 e).cmp (.fin t 0 f) = some .eq := by simp [Val.cmp, signedAt, liftExp]
    rw [hc]
    simp
  · next h =>
    have hz : ¬ ∃ e f, x = .fin true 0 e ∧ y = .fin false 0 f := fun ⟨e, f, hx, hy⟩ => h _ _ _ _ hx hy
    rw [beq_iff_eq, or_iff_left hz]

/-- FMIN (`big` false) and FMAX on raw bits. -/
def pickLanes (ty : Nat) (big : Bool) (p q : Nat) (l : Lanes) : Nat × Lanes := ((pickOp ty big p q).1, l.raise (pickOp ty big p q).2)

section Pick

variable {ty p q : Nat} {big : Bool} {l : Lanes}

theorem pickLanes_nan (h : (decodeVal ty p).isNan = true ∨ (decodeVal ty q).isNan = true) : pickLanes ty big p q l =
    (canonicalNan ty, if (decodeVal ty p).isSig = true ∨ (decodeVal ty q).isSig = true then { l with flags := l.flags ||| fNV } else l) := by
  simp only [pickLanes, pickOp, Bool.or_eq_true, h, if_true]
  split
  · rfl
  · rw [raise_zero]

/-- Without a NaN the second operand is taken where the order puts it first. -/
theorem pickLanes_number (h : ¬ ((decodeVal ty p).isNan = true ∨ (decodeVal ty q).isNan = true)) : pickLanes ty big p q l =
    (l6Zero ty (if (decodeVal ty (if big then p else q)).below (decodeVal ty (if big then q else p)) then q else p), l) := by
  simp only [pickLanes, pickOp, Bool.or_eq_true, h, if_false, raise_zero]
  cases big <;> rfl

end Pick

theorem l6Zero_eq (ty c : Nat) : l6Zero ty c = if ty = 14 then (if c % 32 = 0 then 0 else c % 64) else c := by
  unfold l6Zero
  by_cases h : ty = 14
  · simp only [h, true_and, if_true]
  · simp only [h, false_and, if_false]

/-! ## FABS and FNEG (R231) -/

/-- The sign of an l6 code cleared (R168). -/
theorem l6_abs (p : Nat) : l6Zero 14 (if natBit p 5 then p - 2 ^ 5 else p) = p % 32 := by
  simp only [natBit, Nat.testBit_eq_decide_div_mod_eq, decide_eq_true_eq, l6Zero_eq, if_true]
  split <;> split <;> omega

/-- The top bit of a code of `n + 1` bits cleared. -/
theorem clear_top {n p : Nat} (hp : p < 2 ^ (n + 1)) : (if natBit p n then p - 2 ^ n else p) = p % 2 ^ n := by
  rw [Nat.pow_succ] at hp
  rw [natBit, Nat.testBit_eq_decide_div_mod_eq]
  by_cases h : p < 2 ^ n
  · rw [Nat.div_eq_of_lt h, Nat.mod_eq_of_lt h]
    rfl
  · have hd : p / 2 ^ n = 1 := Nat.div_eq_of_lt_le (k := 1) (by omega) (by omega)
    rw [hd, Nat.mod_eq_sub_mod (Nat.not_lt.1 h), Nat.mod_eq_of_lt (by omega : p - 2 ^ n < 2 ^ n)]
    rfl

theorem abs_code {t : Strand} {p : Nat} (hp : p < 2 ^ t.w) :
    l6Zero t.ty (if natBit p (signBit t.ty) then p - 2 ^ signBit t.ty else p) = if t.ty = 14 then p % 32 else p % 2 ^ (t.w - 1) := by
  by_cases h : t.ty = 14
  · rw [h]
    exact l6_abs p
  · have hw : t.w - 1 + 1 = t.w := Nat.sub_add_cancel (Laws.width_pos t.ty)
    rw [l6Zero_eq, if_neg h, if_neg h, signBit, if_neg h]
    exact clear_top (hw.symm ▸ hp)

theorem neg_code (t : Strand) (p : Nat) : l6Zero t.ty (p ^^^ 2 ^ signBit t.ty) =
    if t.ty = 14 then l6Zero t.ty (p ^^^ 32) else p ^^^ 2 ^ (t.w - 1) := by
  by_cases h : t.ty = 14
  · rw [if_pos h, signBit, if_pos h]
    rfl
  · rw [if_neg h, l6Zero_eq, if_neg h, signBit, if_neg h]
    rfl

/-! ## The compares (R235) -/

/-- A floating compare of raw bits: an unordered pair has a value of its own, and raises NV for any NaN or for a signalling one. -/
def compareLanes (ty : Nat) (p : Ordering → Bool) (unordered nan : Bool) (m n : Nat) (l : Lanes) : Bool × Lanes :=
  match (decodeVal ty m).cmp (decodeVal ty n) with
  | some o => (p o, l)
  | none => (unordered, if nan = true ∨ (decodeVal ty m).isSig = true ∨ (decodeVal ty n).isSig = true then { l with flags := l.flags ||| fNV } else l)

theorem raiseIf_eq (l : Lanes) (c : Bool) (f : BitVec 6) : l.raiseIf c f = if c = true then { l with flags := l.flags ||| f } else l := rfl

theorem fcmpForm_eq (p : Ordering → Bool) (unordered nan : Bool) (d a b : BitVec 6) (f x : BitVec 1) (t : Strand) :
    fcmpForm p unordered nan d a b f x t = withFType tyFP f t (cmpForm tyFP d a b f x (fun t => compareLanes t.ty p unordered nan) t) := by
  have e : (fun (t : Strand) (a b : Nat) (l : Lanes) => match (decodeVal t.ty a).cmp (decodeVal t.ty b) with
      | some o => (p o, l)
      | none => (unordered, l.raiseIf (nan || (decodeVal t.ty a).isSig || (decodeVal t.ty b).isSig) fNV)) =
      fun t => compareLanes t.ty p unordered nan := by
    funext t a b l
    simp only [raiseIf_eq, Bool.or_eq_true, or_assoc]
    rfl
  rw [← e]
  rfl

section Compares

variable {i : BitVec 1 → Instr} {s : State} {u k : Nat} {g : Group} {t : Strand} {d a b : BitVec 6} {x : BitVec 1} {p : Ordering → Bool}
  {unordered nan : Bool} (ha : Acts s u k g t) (he : ∀ f, exec (i f) s = runS (fcmpForm p unordered nan d a b f x) s)
include ha he

theorem compare_vector (h : Ready tyFP t) :
    MaskForm (i 0) s u k t d fun j => compareLanes t.ty p unordered nan (elemB t a j) (t.opB b x j) :=
  Laws.cmpForm_vec (p := fun t => compareLanes t.ty p unordered nan) (he 0) ha h
    ((fcmpForm_eq ..).trans (withFType_typed ⟨h.1, h.2.1⟩ (.inl rfl) _))

theorem compare_scalar (h : Typed tyFP t) (hty : t.ty ≠ 11) : Becomes (i 1) s u k t
    ((t.setX d (if (compareLanes t.ty p unordered nan (scaB t a) (scaB t b) (lanes0 t)).1 then 1 else 0)).flag
      (compareLanes t.ty p unordered nan (scaB t a) (scaB t b) (lanes0 t)).2.flags) :=
  Laws.becomes_of (he 1) ha ((fcmpForm_eq ..).trans ((withFType_typed h (.inr hty) _).trans
    (Laws.cmpForm_sca (p := fun t => compareLanes t.ty p unordered nan) h)))

end Compares

/-! ## FCLASS (R236) -/

/-- The class code of each kind of value. -/
theorem classCode_cases (ty p : Nat) : match decodeVal ty p with
    | .nan true => classCode ty p = 8
    | .nan false => classCode ty p = 9
    | .inf neg => classCode ty p = if neg then 0 else 7
    | .fin neg 0 _ => classCode ty p = if neg then 3 else 4
    | .fin neg _ _ => ((ty ≠ 14 ∧ p % 2 ^ (tyWidth ty - 1) < 2 ^ mBits ty) → classCode ty p = if neg then 2 else 5) ∧
        (¬ (ty ≠ 14 ∧ p % 2 ^ (tyWidth ty - 1) < 2 ^ mBits ty) → classCode ty p = if neg then 1 else 6) := by
  unfold classCode
  split
  · next h => simp [h]
  · next h => simp [h]
  · next h => simp [h]
  · next h => simp [h]
  · next neg n e hn h =>
    simp only [h, show n ≠ 0 from hn, if_false, ← Bool.decide_and]
    exact ⟨fun hs => by rw [decide_eq_true hs]; rfl, fun hs => by rw [decide_eq_false hs]; rfl⟩

/-! ## The statement -/

/-- Settles O13: FMIN and FMAX by the order of their operands, FABS, FNEG and FCLASS by what they do to a code, the compares by their shared form. -/
theorem floatSignsAndCompares : Obligations.FloatSignsAndCompares := by
  unfold Obligations.FloatSignsAndCompares
  refine ⟨?signs, ?compares⟩
  case signs =>
    intro s u k g t d a b x ha v zero less pick
    have hzero (c : Nat) : l6Zero t.ty c = zero c := l6Zero_eq t.ty c
    have hless (p q : Val) : p.below q = true ↔ less p q := below_iff p q
    have hpick (big : Bool) (p q : Nat) (l : Lanes) :
        pick p q l (pickLanes t.ty big p q l) (¬ less (v (if big then p else q)) (v (if big then q else p))) := by
      by_cases hn : (v p).isNan = true ∨ (v q).isNan = true
      · exact (if_pos hn).mpr (pickLanes_nan hn)
      · refine (if_neg hn).mpr ?_
        rw [pickLanes_number hn, hzero]
        exact ⟨fun h => by rw [if_neg (mt (hless ..).1 h)], fun h => by rw [if_pos ((hless ..).2 (not_not.1 h))]⟩
    refine ⟨⟨pickLanes t.ty false, hpick false, ?_⟩, ⟨pickLanes t.ty true, hpick true, ?_⟩, ?_, ?_⟩
    · exact floatForms_of ha (fun _ => rfl) fun _ _ _ _ _ _ => rfl
    · exact floatForms_of ha (fun _ => rfl) fun _ _ _ _ _ _ => rfl
    · exact floatForms_of ha (fun _ => rfl) fun _ _ p _ l hp => congrArg (·, l) (abs_code hp)
    · exact floatForms_of ha (fun _ => rfl) fun _ _ p _ l _ => congrArg (·, l) (by rw [neg_code, hzero])
  case compares =>
    intro s u k g t d a b x ha v cmp subnormal
    have hcmp {i : BitVec 1 → Instr} {p : Ordering → Bool} {unordered nan : Bool} (he : ∀ f, exec (i f) s = runS (fcmpForm p unordered nan d a b f x) s) :
        cmp i p unordered nan := ⟨compare_vector ha he, compare_scalar ha he⟩
    refine ⟨?_, ?_, ?_, ?_, ?_, classCode t.ty, classCode_cases t.ty, floatForms_of ha (fun _ => rfl) fun _ _ _ _ _ _ => rfl⟩
    · exact hcmp (i := fun f => .fceq d a b f x) fun _ => rfl
    · exact hcmp (i := fun f => .fcne d a b f x) fun _ => rfl
    · exact hcmp (i := fun f => .fclt d a b f x) fun _ => rfl
    · exact hcmp (i := fun f => .fcle d a b f x) fun _ => rfl
    · exact hcmp (i := fun f => .fcun d a b f x) fun _ => rfl

end Sys2Proof.Proofs
end

section
/-!
Conversions between element types and rounding to an integral value (R237, R238, R226, R125).
-/
namespace Sys2Proof.Proofs

open Sys2Proof Sys2Proof.Machine Sys2Proof.Safety

/-! ## CVT (R237) -/

theorem exec_cvt (d a : BitVec 6) (y : BitVec 5) (f : BitVec 1) (s : State) : exec (.cvt d a y f) s = runS (cvtE d a y f) s := rfl

/-- Every type may be converted from. -/
theorem typed_any {t : Strand} (h : mdOk t.md = true) : Typed tyAny t := ⟨h, rfl⟩

theorem target_f64 (y : BitVec 5) : y.toNat = 11 ↔ y = 11 := ⟨fun h => BitVec.eq_of_toNat_eq h, fun h => congrArg BitVec.toNat h⟩

/-- The elements that a conversion writes lie in the register. -/
theorem cvt_loop_fits (n y : Nat) : Nat.min n (tyCap y) * tyWidth y ≤ 8192 :=
  Nat.le_trans (Nat.mul_le_mul_right _ (Nat.min_le_right ..)) (Laws.cap_mul y)

section Convert

variable {s : State} {u k : Nat} {g : Group} {t : Strand} {d a : BitVec 6} {y : BitVec 5} (ha : Acts s u k g t) (hm : mdOk t.md = true)
include ha hm

theorem cvt_scalar (hy : y ≠ 11) (hty : t.ty ≠ 11) : Becomes (.cvt d a y 1) s u k t
    { (t.setX d (extScalar y.toNat (convertOp t y.toNat 0 (scaB t a) (lanes0 t)).1)).flag (convertOp t y.toNat 0 (scaB t a) (lanes0 t)).2.flags with
      gens := (convertOp t y.toNat 0 (scaB t a) (lanes0 t)).2.gens } :=
  Laws.becomes_of (exec_cvt ..) ha ((withFType_typed (typed_any hm) (.inr hty) _).trans (if_neg (mt (target_f64 y).1 hy)))

theorem cvt_vector (hy : y ≠ 11) (hs : t.shapeBad = false) (hc : mdSh t.md = true → t.el ≤ tyCap y.toNat) :
    ∃ r l, Loop (tyWidth y.toNat) t.active (min t.el (tyCap y.toNat)) (fun j => convertOp t y.toNat (laneOf t.w j) (elemB t a j)) (t.vreg d) r (lanes0 t) l ∧
      Becomes (.cvt d a y 0) s u k t { (t.setV d r).flag l.flags with gens := l.gens } := by
  refine ⟨_, _, Laws.elemLoop_loop _ _ _ _ (cvt_loop_fits ..), Laws.becomes_of (exec_cvt ..) ha ?_⟩
  exact (withFType_typed (typed_any hm) (.inl rfl) _).trans ((if_neg (mt (target_f64 y).1 hy)).trans
    ((withShape_fits hs _).trans (if_neg fun h => Nat.not_lt.2 (hc h.1) h.2)))

/-- A scalar form under f64 is refused before its destination is looked at, with the same detail. -/
theorem cvt_scalar_f64 (h : y = 11 ∨ t.ty = 11) : Traps (.cvt d a y 1) s u k t (modeTrap t 3) := by
  refine traps_of_strand_trap ha (exec_cvt ..) ?_
  by_cases hty : t.ty = 11
  · exact (withType_typed (typed_any hm) _).trans (if_pos (by simp [hty]))
  · exact (withFType_typed (typed_any hm) (.inr hty) _).trans (if_pos ((target_f64 y).2 (h.resolve_right hty)))

theorem cvt_vector_f64 (h : y = 11) : Traps (.cvt d a y 0) s u k t (modeTrap t 3) :=
  traps_of_strand_trap ha (exec_cvt ..) ((withFType_typed (typed_any hm) (.inl rfl) _).trans (if_pos ((target_f64 y).2 h)))

theorem cvt_vector_shape (hy : y ≠ 11) (hs : t.shapeBad = false) (hh : mdSh t.md = true) (hc : tyCap y.toNat < t.el) :
    Traps (.cvt d a y 0) s u k t (shapeTrap t) :=
  traps_of_strand_trap ha (exec_cvt ..) ((withFType_typed (typed_any hm) (.inl rfl) _).trans
    ((if_neg (mt (target_f64 y).1 hy)).trans ((withShape_fits hs _).trans (if_pos ⟨hh, hc⟩))))

end Convert

/-! ## RINT (R238) -/

/-- Two flags raised, the first of them under a condition. -/
theorem raiseIf_raise (l : Lanes) (c : Bool) (e f : BitVec 6) : (l.raiseIf c e).raise f = { l with flags := l.flags ||| (if c then e else 0) ||| f } := by
  cases c
  · exact congrArg (fun x => { l with flags := x ||| f }) (BitVec.or_zero).symm
  · rfl

/-! ## The statement -/

/-- Settles O15: the forms and the traps of CVT by their lemmas, RINT as a floating instruction. -/
theorem conversions : Obligations.Conversions := by
  unfold Obligations.Conversions
  intro s u k g t d a y ha hm op
  refine ⟨cvt_scalar ha hm, cvt_vector ha hm, cvt_scalar_f64 ha hm, cvt_vector_f64 ha hm, cvt_vector_shape ha hm,
    floatForms_of ha (fun _ => rfl) fun lane old p q l _ => ?rint⟩
  case rint =>
    dsimp only [rintOp]
    cases decodeVal t.ty p with
    | nan sig => rfl
    | inf neg => rfl
    | fin neg n e => simp only [raiseIf_raise]

end Sys2Proof.Proofs
end

section
/-!
Spills and fills of vector registers (R254, R134): the map that a header holds, the frame of a spill, and what each instruction issues.
-/
namespace Sys2Proof.Proofs

open Sys2Proof Sys2Proof.Machine Sys2Proof.Safety

/-! ## The frame of a spill -/

theorem leBytes_length : ∀ k n : Nat, (leBytes k n).length = k
  | 0, _ => rfl
  | k + 1, n => congrArg (· + 1) (leBytes_length k (n / 256))

/-- The map of VSPILL is one of 48 bits: DM has no more. -/
theorem spillMap_eq (dm : BitVec 48) (x : Word) : dm.toNat &&& x.toNat = (dm &&& x.setWidth 48).toNat := by
  have h := Nat.and_mod_two_pow (a := dm.toNat) (b := x.toNat) (n := 48)
  rw [Nat.mod_eq_of_lt dm.isLt, Nat.mod_eq_of_lt (Nat.lt_of_le_of_lt Nat.and_le_left dm.isLt)] at h
  rw [BitVec.toNat_and, BitVec.toNat_setWidth, h]

/-- The bytes of a spill: the header with the map, then the registers of the map. -/
def spillImage (v : List VReg) (map : Nat) : List Byte := leBytes 64 map ++ (mapRegs map).flatMap fun r => leBytes 1024 (v.getD r 0).toNat
/-- The length of a frame with the registers of a map. -/
def frameLen (map : Nat) : Nat := 64 + 1024 * (mapRegs map).length

theorem spillImage_length (v : List VReg) (map : Nat) : (spillImage v map).length = frameLen map := by
  simp [spillImage, frameLen, leBytes_length, Nat.mul_comm]

/-- The runs of a spill's image, each at its own address. -/
def spillItems (image : List Byte) (va : Nat) (runs : List (Nat × Nat × Nat)) : List StoreItem :=
  runs.map fun e => { loc := .phys e.2.1, va := e.1, data := (image.drop (e.1 - va)).take e.2.2, mask := List.replicate e.2.2 0xFF }
/-- The runs of each register of a map, in a frame at `va`. -/
def fillItems (map va : Nat) (runs : List (Nat × Nat × Nat)) : List LoadItem :=
  (List.range (mapRegs map).length).flatMap fun j => (runsAt runs (va + 64 + 1024 * j) 1024).map fun e =>
    { loc := .phys e.2.1, va := e.1, bytes := e.2.2, shift := 0, width := 8 * e.2.2, out := 8 * e.2.2, sx := false,
      dst := .vec ((mapRegs map).getD j 0) (8 * (e.1 - (va + 64 + 1024 * j))) (8 * e.2.2) }
/-- The addresses of a frame. -/
def frameSpan (cid va map : Nat) : List Range := [{ sp := .virt cid, lo := va, hi := va + frameLen map }]

/-! ## VSPILL and VFILL -/

theorem exec_vspill (d a : BitVec 6) (s : State) : exec (.vspill d a) s = runM (vspillE d a) s := rfl
theorem exec_vfill (a : BitVec 6) (s : State) : exec (.vfill a) s = runM (vfillE a) s := rfl

/-- An issue and the step to the next instruction are one change of the strand. -/
theorem exec_of_issues {i : Instr} {s s1 : State} {u k : Nat} {t : Strand} {f : Strand → Strand} (h : Issues i s u k t (s1.modStrand u k f)) :
    exec i s = .next (s1.modStrand u k fun t' => { f t' with pc := nextPc t.pc 4 }) := h.trans (congrArg _ (Laws.modStrand_modStrand ..))

section Spill

variable {s s1 s2 s3 : State} {u k : Nat} {g : Group} {t : Strand} {d a : BitVec 6} {runs : List (Nat × Nat × Nat)} (ha : Acts s u k g t)
include ha

theorem vspill_issues (h64 : (t.x a).toNat % 64 = 0) {map : Nat} (hm : (t.dm &&& (t.x d).setWidth 48).toNat = map)
    (hp : probeLoop (.core g.core) g.cid .write 16 (t.x a).toNat (frameLen map) s [] = (.ok runs, s1)) :
    Issues (.vspill d a) s u k t ((s1.pushOp u k g.cid Way.spill (.store (spillItems (spillImage t.v map) (t.x a).toNat runs))
      (frameSpan g.cid (t.x a).toNat map) (frameSpan g.cid (t.x a).toNat map) []).modStrand u k Strand.issueStore) := by
  refine issues_of_done ha (exec_vspill d a s) ?_
  have hlt : map < 2 ^ 48 := hm ▸ BitVec.isLt _
  dsimp only [vspillE]
  rw [if_neg (not_not.2 h64), spillMap_eq, hm, ← frameLen, hp]
  dsimp only
  rw [Nat.mod_eq_of_lt hlt, ← spillImage, spillImage_length]
  rfl

theorem vfill_issues {pa : Nat} {bs : List Byte} (h64 : (t.x a).toNat % 64 = 0)
    (hl : s.locate (.core g.core) g.cid (t.x a) .read = (.ok pa, s1)) (hu : s1.uncorrectable pa = false)
    (hr : (s1.cacheSpan (.load g.core 0 6) g.cid 0 pa 6).readPlace g 0 false (.phys pa) 6 = (bs, s2))
    (hp : probeLoop (.core g.core) g.cid .read 16 (t.x a).toNat (frameLen (leNat bs)) (s2.countUnsealed g.cid (.phys pa)) [] = (.ok runs, s3)) :
    Issues (.vfill a) s u k t ((s3.pushOp u k g.cid Way.spill (.load (fillItems (leNat bs) (t.x a).toNat runs) false)
      (frameSpan g.cid (t.x a).toNat (leNat bs)) [] []).modStrand u k fun t => { t with kl := t.kl + 1, dm := t.dm ||| BitVec.ofNat 48 (leNat bs) }) := by
  refine issues_of_done ha (exec_vfill a s) ?_
  dsimp only [vfillE]
  rw [if_neg (not_not.2 h64), hl]
  dsimp only
  rw [hu, hr]
  dsimp only
  rw [if_neg Bool.false_ne_true, ← frameLen, hp, frameSpan, frameLen, ← Nat.add_assoc]
  rfl

/-- A frame lies at a multiple of 64 bytes (R254). -/
theorem spill_traps_misaligned (h64 : (t.x a).toNat % 64 ≠ 0) :
    Traps (.vspill d a) s u k t { cause := 0x07, detail := 0, acc := 3, async := false, tval := t.x a } ∧
    Traps (.vfill a) s u k t { cause := 0x07, detail := 0, acc := 2, async := false, tval := t.x a } :=
  ⟨traps_of_trap ha (exec_vspill d a s) (if_pos h64), traps_of_trap ha (exec_vfill a s) (if_pos h64)⟩

end Spill

/-! ## The statement -/

/-- Settles O20: each instruction by what it issues, and the alignment of both. -/
theorem spills : Obligations.Spills := by
  unfold Obligations.Spills
  intro s s1 s2 u k g t d a pa runs ha va regs size map image span spilled filled
  refine ⟨fun h64 hp => ?spill, fun h64 hl hu hp => ?fill, spill_traps_misaligned ha⟩
  case spill => exact exec_of_issues (vspill_issues ha h64 (map := map) rfl hp)
  case fill => exact exec_of_issues (vfill_issues ha h64 hl hu rfl hp)

end Sys2Proof.Proofs
end

section
/-!
Nest registers (R131, R271 to R273): a field of a nest image, the move of an image, and the writes of one field.
-/
namespace Sys2Proof.Proofs

open Sys2Proof Sys2Proof.Machine Sys2Proof.Safety

/-! ## A field of a nest image (R131) -/

/-- A number with the `len` bits from bit `lo` replaced: the bits above, the new ones and those below. -/
theorem replaced_testBit (n v lo len j : Nat) : (n / 2 ^ (lo + len) * 2 ^ (lo + len) + v % 2 ^ len * 2 ^ lo + n % 2 ^ lo).testBit j =
    if lo ≤ j ∧ j < lo + len then v.testBit (j - lo) else n.testBit j := by
  have hlow : n % 2 ^ lo < 2 ^ lo := Nat.mod_lt _ (Nat.two_pow_pos _)
  have hmid : v % 2 ^ len < 2 ^ len := Nat.mod_lt _ (Nat.two_pow_pos _)
  have e : n / 2 ^ (lo + len) * 2 ^ (lo + len) + v % 2 ^ len * 2 ^ lo + n % 2 ^ lo =
      2 ^ lo * (2 ^ len * (n / 2 ^ (lo + len)) + v % 2 ^ len) + n % 2 ^ lo := by
    rw [Nat.pow_add]
    ring
  rw [e, Nat.testBit_two_pow_mul_add _ hlow]
  by_cases h1 : j < lo
  · rw [if_pos h1, if_neg (by omega), Nat.testBit_mod_two_pow, decide_eq_true h1, Bool.true_and]
  · rw [if_neg h1, Nat.testBit_two_pow_mul_add _ hmid]
    by_cases h2 : j - lo < len
    · rw [if_pos h2, if_pos (by omega), Nat.testBit_mod_two_pow, decide_eq_true h2, Bool.true_and]
    · rw [if_neg h2, if_neg (by omega), Nat.testBit_div_two_pow]
      congr 1
      omega

/-- A bit of an image after a write of a field. -/
theorem nestPut_getLsbD (n : Bits1024) (lo len v : Nat) {j : Nat} (hj : j < 1024) :
    (nestPut n lo len v).getLsbD j = if lo ≤ j ∧ j < lo + len then v.testBit (j - lo) else n.getLsbD j := by
  have hs := Laws.setElem_split n.toNat (n.toNat / 2 ^ lo % 2 ^ len) (v % 2 ^ len) lo len rfl
  rw [nestPut, Nat.shiftRight_eq_div_pow, hs, BitVec.getLsbD_ofNat, decide_eq_true hj, Bool.true_and, replaced_testBit, BitVec.testBit_toNat]

/-! ## The instructions (R271, R272) -/

theorem exec_nld (d a : BitVec 6) (s : State) : exec (.nld d a) s = runM (nldE d a) s := rfl
theorem exec_nst (d a : BitVec 6) (s : State) : exec (.nst d a) s = runM (nstE d a) s := rfl
theorem exec_ncnt (d a : BitVec 6) (l : BitVec 3) (s : State) : exec (.ncnt d a l) s = runS (ncntE d a l) s := rfl
theorem exec_nstr (d a : BitVec 6) (l : BitVec 3) (m : BitVec 2) (s : State) : exec (.nstr d a l m) s = runS (nstrE d a l m) s := rfl

/-- Sector `j` of the image at a physical address `pa`. -/
def nestSector (d : BitVec 6) (va pa j : Nat) : LoadItem :=
  { loc := .phys (pa + 32 * j), va := va + 32 * j, bytes := 32, shift := 0, width := 256, out := 256, sx := false, dst := .nest d.toNat (256 * j) }
/-- The image of a nest register as a store, its reserved bits zero. -/
def nestRun (n : Bits1024) (va pa : Nat) : StoreItem :=
  { loc := .phys pa, va := va, data := leBytes 128 (n &&& nestMask).toNat, mask := List.replicate 128 0xFF }
/-- The addresses of an image. -/
def nestSpan (cid va : Nat) : List Range := [{ sp := .virt cid, lo := va, hi := va + 128 }]

section Nests

variable {s s1 : State} {u k : Nat} {g : Group} {t : Strand} {d a : BitVec 6} {pa : Nat} (ha : Acts s u k g t)
include ha

theorem nld_issues (hl : s.locateEl (.core g.core) g.cid .read 128 (t.x a) = (.ok pa, s1)) :
    Issues (.nld d a) s u k t ((s1.pushOp u k g.cid Way.nest (.load ((List.range 4).map (nestSector d (t.x a).toNat pa)) false)
      (nestSpan g.cid (t.x a).toNat) [] []).modStrand u k fun t => { t with kl := t.kl + 1 }) := by
  refine issues_of_done ha (exec_nld d a s) ?_
  dsimp only [nldE]
  rw [hl]
  rfl

theorem nst_issues (hl : s.locateEl (.core g.core) g.cid .write 128 (t.x a) = (.ok pa, s1)) :
    Issues (.nst d a) s u k t ((s1.pushOp u k g.cid Way.nest (.store [nestRun (t.nest d.toNat) (t.x a).toNat pa])
      (nestSpan g.cid (t.x a).toNat) (nestSpan g.cid (t.x a).toNat) []).modStrand u k Strand.issueStore) := by
  refine issues_of_done ha (exec_nst d a s) ?_
  dsimp only [nstE]
  rw [hl]
  rfl

theorem ncnt_becomes (l : BitVec 3) (h : 1 ≤ (t.x a).toNat ∧ (t.x a).toNat ≤ 2 ^ 24) :
    Becomes (.ncnt d a l) s u k t (t.setN d.toNat (nestSetCnt (t.nest d.toNat) l.toNat ((t.x a).toNat - 1))) :=
  Laws.becomes_of (exec_ncnt ..) ha (if_neg (by omega))

theorem ncnt_traps (l : BitVec 3) (h : ¬ (1 ≤ (t.x a).toNat ∧ (t.x a).toNat ≤ 2 ^ 24)) : Traps (.ncnt d a l) s u k t (trapOf 0x13 0 (t.x a)) :=
  traps_of_strand_trap ha (exec_ncnt ..) (if_pos (by omega))

theorem nstr_becomes (l : BitVec 3) (m : BitVec 2) (h : -(2 ^ 39) ≤ (t.x a).toInt ∧ (t.x a).toInt < 2 ^ 39) :
    Becomes (.nstr d a l m) s u k t (t.setN d.toNat (nestPut (t.nest d.toNat) (160 * l.toNat + 40 * m.toNat - 16) 40 (t.x a).toNat)) :=
  Laws.becomes_of (exec_nstr ..) ha (if_neg (by omega))

theorem nstr_traps (l : BitVec 3) (m : BitVec 2) (h : ¬ (-(2 ^ 39) ≤ (t.x a).toInt ∧ (t.x a).toInt < 2 ^ 39)) :
    Traps (.nstr d a l m) s u k t (trapOf 0x13 0 (t.x a)) := traps_of_strand_trap ha (exec_nstr ..) (if_pos (by omega))

end Nests

/-! ## The statement -/

/-- Settles O26: each instruction by its lemma, a write of a field by its bits. -/
theorem nestRegisters : Obligations.NestRegisters := by
  unfold Obligations.NestRegisters
  refine ⟨?instructions, fun n lo len v j _ hj => nestPut_getLsbD n lo len v hj⟩
  case instructions =>
    intro s s1 u k g t d a l m pa ha va rs sector run
    refine ⟨nld_issues ha, nst_issues ha, ?ncnt, ?nstr⟩
    case ncnt =>
      split
      · next h => exact ncnt_becomes ha l h
      · next h => exact ncnt_traps ha l h
    case nstr =>
      split
      · next h => exact nstr_becomes ha l m h
      · next h => exact nstr_traps ha l m h

end Sys2Proof.Proofs
end

section
/-!
The completion of a load, a store and an atomic (R143 to R147, R155, R255): what each leaves of memory, of its strand and of the operations in flight.
-/
namespace Sys2Proof.Proofs

open Sys2Proof Sys2Proof.Machine Sys2Proof.Safety

/-! ## Little-endian values -/

theorem leNat_lt : ∀ bs : List Byte, leNat bs < 2 ^ (8 * bs.length)
  | [] => Nat.one_pos
  | b :: bs => by
    have hb := b.isLt
    have ih := leNat_lt bs
    rw [List.length_cons, Nat.mul_add, Nat.pow_add, leNat]
    omega

theorem byte_leNat : ∀ (bs : List Byte) {i : Nat}, i < bs.length → BitVec.ofNat 8 (leNat bs / 2 ^ (8 * i)) = bs.getD i 0
  | [], _, h => absurd h (Nat.not_lt_zero _)
  | b :: bs, 0, _ => by simp [leNat, BitVec.ofNat_add, BitVec.ofNat_mul]
  | b :: bs, i + 1, h => by
    have hb := b.isLt
    have ht : (b.toNat + 256 * leNat bs) / 256 = leNat bs := by omega
    rw [leNat, Nat.mul_add, Nat.add_comm (8 * i), Nat.pow_add, ← Nat.div_div_eq_div_mul, show 2 ^ (8 * 1) = 256 from rfl, ht,
      byte_leNat bs (Nat.lt_of_succ_lt_succ h), List.getD_cons_succ]

theorem byte_leBytes : ∀ (k n : Nat) {i : Nat}, i < k → (leBytes k n).getD i 0 = BitVec.ofNat 8 (n / 2 ^ (8 * i))
  | 0, _, _, h => absurd h (Nat.not_lt_zero _)
  | k + 1, n, 0, _ => by simp [leBytes]
  | k + 1, n, i + 1, h => by
    rw [leBytes, List.getD_cons_succ, byte_leBytes k (n / 256) (Nat.lt_of_succ_lt_succ h), Nat.div_div_eq_div_mul, Nat.mul_add, Nat.add_comm (8 * i), Nat.pow_add]

theorem leNat_readBytes_lt (s : State) (key : BitVec 512) (ver : BitVec 32) (pa n : Nat) : leNat (s.readBytes key ver pa n) < 2 ^ (8 * n) := by
  have h := leNat_lt (s.readBytes key ver pa n)
  rwa [readBytes_length] at h

/-- A byte of a value that was read. -/
theorem byte_leNat_readBytes (s : State) (key : BitVec 512) (ver : BitVec 32) {pa n a : Nat} (hlo : pa ≤ a) (hhi : a < pa + n) :
    BitVec.ofNat 8 (leNat (s.readBytes key ver pa n) / 2 ^ (8 * (a - pa))) = s.readByte key ver a := by
  rw [byte_leNat _ (by rw [readBytes_length]; omega), readBytes_getD _ _ _ _ (by omega), Nat.add_sub_cancel' hlo]

theorem ofNat_intWrap (x : Int) : BitVec.ofNat 64 (intWrap 64 x) = BitVec.ofInt 64 x := by
  apply BitVec.eq_of_toNat_eq
  rw [BitVec.toNat_ofNat, BitVec.toNat_ofInt, intWrap]
  exact Nat.mod_eq_of_lt (by omega)

/-! ## A strand at the end of an access (R132, R144) -/

/-- A wake changes the status alone. -/
theorem wakeIdle_eq (t : Strand) : ∃ x, t.wakeIdle = { t with status := x } := by
  unfold Strand.wakeIdle
  split
  · exact ⟨_, rfl⟩
  · exact ⟨_, rfl⟩

theorem fallL_eq (t : Strand) : ∃ x, t.fallL = { t with kl := t.kl - 1, status := x } := wakeIdle_eq { t with kl := t.kl - 1 }
theorem fallS_eq (t : Strand) : ∃ x, t.fallS = { t with ks := t.ks - 1, status := x } := wakeIdle_eq { t with ks := t.ks - 1 }

theorem fallL_fallS_eq (t : Strand) : ∃ x, t.fallL.fallS = { t with kl := t.kl - 1, ks := t.ks - 1, status := x } := by
  obtain ⟨x, hx⟩ := fallL_eq t
  rw [hx]
  exact fallS_eq _

/-- A value that goes to the low word of a register. -/
theorem put_low (t : Strand) {i : LoadItem} {d : Nat} (h : i.dst = .scalar d) (x : Nat) :
    t.put i x = { t with v := t.v.set d ((t.v.getD d 0).extractLsb' 64 8128 ++ BitVec.ofNat 64 x) } := by
  rw [Strand.put, h]

/-- The strand after a change of it, where nothing else has changed its group. -/
theorem strand_after {s s1 : State} (h : s1.groups = s.groups) {u k : Nat} {t : Strand} (ht : s.strand? u k = some t) (f : Strand → Strand) :
    (s1.modStrand u k f).strand? u k = some (f t) := by
  rw [Laws.strand_modStrand, strand_of_groups_eq h, ht, Option.map_some]

/-! ## Bytes at a place of this module (R117, R410) -/

section Places

variable {s s1 : State} (h : CachesOnly s s1)
include h

theorem readBytes_congr (key : BitVec 512) (ver : BitVec 32) (pa n : Nat) : s1.readBytes key ver pa n = s.readBytes key ver pa n := by
  induction n generalizing pa with
  | zero => rfl
  | succ n ih => rw [State.readBytes, State.readBytes, ih, readByte_congr h.links h.mem h.sets]

section Local

variable {pa : Nat} (hl : remoteOf s pa = none)
include hl

theorem readPlace_local (g : Group) (ver : BitVec 32) (n : Nat) :
    s1.readPlace g ver false (.phys pa) n = (s.readBytes (s.keyOf g.cid) ver pa n, s1) := by
  simp only [State.readPlace, remoteOf_congr h.links, hl, h.keys, readBytes_congr h, Option.isSome_none, Bool.false_eq_true, if_false]

theorem writeHome_local (key : BitVec 512) (ver : BitVec 32) (xs : List Byte) : s1.writeHome key ver pa xs = s1.writeBytes key ver pa xs := by
  simp only [State.writeHome, State.remoteIs, remoteOf_congr h.links, hl, Option.isSome_none, Bool.false_eq_true, if_false]

theorem writePlace_local (g : Group) (ver : BitVec 32) (xs : List Byte) :
    s1.writePlace g ver (.phys pa) xs = s1.writeBytes (s.keyOf g.cid) ver pa xs := by
  rw [State.writePlace, writeHome_local h hl, h.keys]

end Local

variable (hwf : s.mem.wf = true) {key : BitVec 512} {ver : BitVec 32} {pa a : Nat} {xs : List Byte}
include hwf

/-- What a write after accesses to the caches leaves at its own bytes. -/
theorem cachedWrite_reads (hlo : pa ≤ a) (hhi : a < pa + xs.length)
    (hname : ∀ x, pa ≤ x → x < pa + xs.length → s.homeOf x / 32 = s.homeOf a / 32 → x / 32 = a / 32) :
    (s1.writeBytes key ver pa xs).readByte key ver a = xs.getD (a - pa) 0 :=
  writeBytes_reads (h.mem ▸ hwf) key ver hlo hhi (by simpa only [homeOf_congr h.links] using hname)

/-- What it leaves at the others. -/
theorem cachedWrite_keeps (hout : ¬ (pa ≤ a ∧ a < pa + xs.length)) (hk : KeepsByte s key ver pa xs.length a) :
    (s1.writeBytes key ver pa xs).readByte key ver a = s.readByte key ver a :=
  (writeBytes_keeps (h.mem ▸ hwf) hout (keepsByte_congr h.links h.mem h.sets hk)).trans (readByte_congr h.links h.mem h.sets key ver a)

end Places

/-- The end of an operation leaves every reading. -/
theorem readByte_modStrand_dropOp (s : State) (u k n : Nat) (f : Strand → Strand) (key : BitVec 512) (ver : BitVec 32) (a : Nat) :
    ((s.modStrand u k f).dropOp n).readByte key ver a = s.readByte key ver a := readByte_congr rfl rfl rfl key ver a

theorem readByte_dropLock (s : State) (n : Nat) (key : BitVec 512) (ver : BitVec 32) (a : Nat) : (s.dropLock n).readByte key ver a = s.readByte key ver a :=
  readByte_congr rfl rfl rfl key ver a

/-! ## An operation that may take effect, and one that is held back (R147, R159) -/

theorem exec_loadComplete (n : Nat) (s : State) : exec (.loadComplete n) s = execLoadComplete n s := rfl
theorem exec_storeComplete (n : Nat) (s : State) : exec (.storeComplete n) s = execStoreComplete n s := rfl
theorem exec_atomicComplete (n : Nat) (s : State) : exec (.atomicComplete n) s = execAtomicComplete n s := rfl

section Completion

variable {s : State} {n : Nat} {o : Op} (ho : s.op? n = some o)
include ho

theorem opStep_held (hr : s.opReady o = false) (f : State → Op → Option State) : opStep n f s = .next s := by
  simp only [opStep, ho, hr, Bool.false_eq_true, if_false]

theorem completions_held (hr : s.opReady o = false) :
    exec (.loadComplete n) s = .next s ∧ exec (.storeComplete n) s = .next s ∧ exec (.atomicComplete n) s = .next s := by
  rw [exec_loadComplete, execLoadComplete, opStep_held ho hr, exec_storeComplete, execStoreComplete, opStep_held ho hr, exec_atomicComplete, execAtomicComplete,
    opStep_held ho hr]
  exact ⟨rfl, rfl, rfl⟩

theorem opStep_ready (hr : s.opReady o = true) (f : State → Op → Option State) : opStep n f s = .next ((f s o).getD s) := by
  simp only [opStep, ho, hr, if_true]

variable (hr : s.opReady o = true) {g : Group} (hg : s.group? o.guid = some g) {pa : Nat} (hl : remoteOf s pa = none)
include hr hg hl

omit ho hr hl in
theorem group_cacheWork : (s.cacheWork o).group? o.guid = some g := by
  rw [State.group?, (cacheWork_cachesOnly s o).groups]
  exact hg

/-! ## A load of one element -/

/-- The load reads its element, counts an unsealed row, and writes the strand's register (R144, R380). -/
theorem loadComplete_performs {item : LoadItem} (hw : o.work = .load [item] false) (hi : item.loc = .phys pa) (hz : item.bytes ≠ 0)
    (hb : s.badPlace (.phys pa) item.bytes = false) :
    exec (.loadComplete n) s = .next (((((s.cacheWork o).countUnsealed g.cid (.phys pa)).modStrand o.guid o.strand fun t =>
      (t.put item (item.value (s.readBytes (s.keyOf g.cid) o.ver pa item.bytes))).fallL).dropOp n).dropLock n) := by
  have hlost := placeLost_of_local hl
  have hbad : badItem s [item] = none := by simp [badItem, hi, hb]
  have hload : (s.cacheWork o).loadItems o false [item] = ((s.cacheWork o).countUnsealed g.cid (.phys pa)).modStrand o.guid o.strand fun t =>
      t.put item (item.value (s.readBytes (s.keyOf g.cid) o.ver pa item.bytes)) := by
    simp only [State.loadItems, group_cacheWork hg, hi, readPlace_local (cacheWork_cachesOnly s o) hl, hz, if_false]
  rw [exec_loadComplete, execLoadComplete, opStep_ready ho hr]
  simp only [hw, hbad, List.takeWhile_cons, List.takeWhile_nil, List.find?_cons, List.find?_nil, hi, hlost, Bool.not_false, if_true, hload,
    Laws.modStrand_modStrand, Option.getD_some]

omit ho hr hg hl in
/-- The element of a load that takes `z` whole bytes. -/
theorem value_whole {z w d va : Nat} {sx : Bool} {bs : List Byte} (hb : leNat bs < 2 ^ (8 * z)) :
    LoadItem.value { loc := .phys pa, va := va, bytes := z, shift := 0, width := 8 * z, out := w, sx := sx, dst := .scalar d } bs =
      if sx then intWrap w (natSigned (8 * z) (leNat bs)) else leNat bs % 2 ^ w := by
  simp only [LoadItem.value, Nat.pow_zero, Nat.div_one, Nat.mod_eq_of_lt hb]

/-! ## A store of one run -/

/-- The store writes its run (R143, R144). -/
theorem storeComplete_performs {run : StoreItem} (hw : o.work = .store [run]) (hi : run.loc = .phys pa) (hm : run.mask.all (fun m => m = 0xFF) = true) :
    exec (.storeComplete n) s = .next (((((s.cacheWork o).writeBytes (s.keyOf g.cid) o.ver pa run.data).modStrand o.guid o.strand Strand.fallS).dropOp n).dropLock n) := by
  have hlost : s.lostPages [run] = [] := by simp [State.lostPages, hi, placeLost_of_local hl]
  have hstore : (s.cacheWork o).storeItems o [run] = (s.cacheWork o).writeBytes (s.keyOf g.cid) o.ver pa run.data := by
    simp only [State.storeItems, group_cacheWork hg, hi, hm, if_true, writePlace_local (cacheWork_cachesOnly s o) hl]
  rw [exec_storeComplete, execStoreComplete, opStep_ready ho hr]
  simp only [hw, hlost, hstore, List.isEmpty_nil, if_true, List.foldl_nil, Option.getD_some]

/-! ## An atomic -/

/-- The state once an atomic of `z` bytes has left its new value, if it has one (R155). -/
def atomicWritten (s : State) (key : BitVec 512) (ver : BitVec 32) (pa z : Nat) : Option Nat → State
  | some x => s.writeBytes key ver pa (leBytes z x)
  | none => s

/-- The atomic reads the old value and leaves the new one; the strand takes the old one (R155, R255). -/
theorem atomicComplete_performs {fn : AtomicFn} {ty : BitVec 5} {z : Nat} {b c : Word} {d : BitVec 6} (hw : o.work = .atomic fn ty (.phys pa) z b c d)
    (hb : s.badPlace (.phys pa) z = false) :
    ∃ i : LoadItem, i.dst = .scalar d.toNat ∧ exec (.atomicComplete n) s = .next ((((atomicWritten (s.cacheWork o) (s.keyOf g.cid) o.ver pa z
        (atomicNew fn ty.toNat (leNat (s.readBytes (s.keyOf g.cid) o.ver pa z)) (b.toNat % 2 ^ (8 * z)) (c.toNat % 2 ^ (8 * z)))).countUnsealed g.cid
      (.phys pa)).modStrand o.guid o.strand fun t => (t.put i (if ty.toNat < 4 then intWrap 64 (natSigned (8 * z) (leNat (s.readBytes (s.keyOf g.cid) o.ver pa z)))
        else leNat (s.readBytes (s.keyOf g.cid) o.ver pa z))).fallL.fallS).dropOp n) := by
  have h := cacheWork_cachesOnly s o
  refine ⟨{ loc := .phys pa, va := o.wr.foldl (fun (_ : Nat) (r : Range) => r.lo) 0, bytes := z, shift := 0, width := 64, out := 64, sx := false, dst := .scalar d.toNat },
    rfl, ?_⟩
  rw [exec_atomicComplete, execAtomicComplete, opStep_ready ho hr]
  simp only [hw, hg, hb, placeLost_of_local hl, Bool.false_eq_true, if_false, readPlace_local h hl, Option.getD_some]
  cases atomicNew fn ty.toNat (leNat (s.readBytes (s.keyOf g.cid) o.ver pa z)) (b.toNat % 2 ^ (8 * z)) (c.toNat % 2 ^ (8 * z)) with
  | some x => simp only [writePlace_local h hl, atomicWritten]
  | none => rfl

end Completion

/-- An operand of an atomic as its type orders it: signed under s types (R255). -/
def atomicNum (ty z x : Nat) : Int := if ty < 4 then natSigned (8 * z) x else x

/-- What an atomic leaves: the new value of its function, or the old one where ACAS finds another (R255). -/
def atomicLeaves (fn : AtomicFn) (ty z old b c : Nat) : Nat :=
  match fn with
  | .add => (old + b) % 2 ^ (8 * z)
  | .min => if atomicNum ty z b < atomicNum ty z old then b else old
  | .max => if atomicNum ty z old < atomicNum ty z b then b else old
  | .and => old &&& b
  | .or => old ||| b
  | .xor => old ^^^ b
  | .swp => b
  | .cas => if old = c then b else old

theorem atomicNew_less (ty z a b : Nat) : atomicNew.less ty (8 * z) a b = true ↔ atomicNum ty z a < atomicNum ty z b := by
  unfold atomicNew.less atomicNum
  split
  · exact decide_eq_true_iff
  · simp

theorem atomicNew_leaves (fn : AtomicFn) {ty z : Nat} (hz : z = 2 ^ (ty % 4)) (old b c : Nat) :
    (atomicNew fn ty old b c).getD old = atomicLeaves fn ty z old b c := by
  subst hz
  cases fn with
  | min => simp only [atomicNew, atomicLeaves, atomicNew_less, atomicNew.tyWidth', Option.getD_some]
  | max => simp only [atomicNew, atomicLeaves, atomicNew_less, atomicNew.tyWidth', Option.getD_some]
  | cas =>
    simp only [atomicNew, atomicLeaves]
    split
    · rfl
    · rfl
  | add => rfl
  | and => rfl
  | or => rfl
  | xor => rfl
  | swp => rfl

/-- The old value as the register takes it: its type extends it (R255). -/
theorem ofNat_atomicOld (ty z x : Nat) : BitVec.ofNat 64 (if ty < 4 then intWrap 64 (natSigned (8 * z) x) else x) = BitVec.ofInt 64 (atomicNum ty z x) := by
  unfold atomicNum
  split
  · exact ofNat_intWrap _
  · exact (BitVec.ofInt_natCast ..).symm

section Written

variable {s s1 : State} (h : CachesOnly s s1) (hwf : s.mem.wf = true) {key : BitVec 512} {ver : BitVec 32} {pa z a : Nat}
include h hwf

/-- The bytes of an atomic hold what it leaves: the new value, or the old one that was read there. -/
theorem atomicWritten_reads (x : Option Nat) (hlo : pa ≤ a) (hhi : a < pa + z)
    (hname : ∀ y, pa ≤ y → y < pa + z → s.homeOf y / 32 = s.homeOf a / 32 → y / 32 = a / 32) :
    (atomicWritten s1 key ver pa z x).readByte key ver a = BitVec.ofNat 8 (x.getD (leNat (s.readBytes key ver pa z)) / 2 ^ (8 * (a - pa))) := by
  cases x with
  | none => exact (readByte_congr h.links h.mem h.sets key ver a).trans (byte_leNat_readBytes s key ver hlo hhi).symm
  | some x =>
    have hlen := leBytes_length z x
    exact (cachedWrite_reads h hwf hlo (by rwa [hlen]) (by rwa [hlen])).trans (byte_leBytes z x (by omega))

theorem atomicWritten_keeps (x : Option Nat) (hout : ¬ (pa ≤ a ∧ a < pa + z)) (hk : KeepsByte s key ver pa z a) :
    (atomicWritten s1 key ver pa z x).readByte key ver a = s.readByte key ver a := by
  cases x with
  | none => exact readByte_congr h.links h.mem h.sets key ver a
  | some x =>
    have hlen := leBytes_length z x
    exact cachedWrite_keeps h hwf (by rwa [hlen]) (by rwa [hlen])

omit hwf in
theorem atomicWritten_groups (x : Option Nat) : (atomicWritten s1 key ver pa z x).groups = s.groups := by
  cases x with
  | none => exact h.groups
  | some x => exact (memOnly_groups (Laws.writeBytes_memOnly ..)).trans h.groups

end Written

/-! ## The statement -/

/-- Settles O22: each completion by its lemma, the bytes by the rules of byte writes, an operation that is held back by `completions_held`. -/
theorem loadStoreCompletion : Obligations.LoadStoreCompletion := by
  unfold Obligations.LoadStoreCompletion
  refine ⟨?loadStore, ?atomic⟩
  case loadStore =>
    intro s n pa z o g t d w sx xs va hwf ho hg ht hl key alone item run raw value
    refine ⟨?load, ?store, completions_held ho⟩
    case load =>
      intro hw hr hz hb
      have h := (cacheWork_cachesOnly s o).trans (countUnsealed_cachesOnly (s.cacheWork o) g.cid (.phys pa))
      refine ⟨_, loadComplete_performs ho hr hg hl hw rfl hz hb, h.mem, op_dropOp .., fun t' ht' => ?_⟩
      obtain ⟨x, hx⟩ := fallL_eq (t.put item (item.value (s.readBytes key o.ver pa z)))
      have e := ht'.symm.trans (strand_after h.groups ht _)
      rw [hx, put_low t rfl, value_whole (leNat_readBytes_lt ..)] at e
      cases e
      exact ⟨rfl, rfl, rfl, rfl, rfl, rfl, rfl⟩
    case store =>
      intro hw hr
      have h := cacheWork_cachesOnly s o
      refine ⟨_, storeComplete_performs ho hr hg hl hw rfl (by simp [run]), op_dropOp .., ?_, ?_, fun t' ht' => ?_⟩
      · intro a hlo hhi hname
        rw [readByte_dropLock, readByte_modStrand_dropOp]
        exact cachedWrite_reads h hwf hlo hhi hname
      · intro a hout hk
        rw [readByte_dropLock, readByte_modStrand_dropOp]
        exact cachedWrite_keeps h hwf hout hk
      · obtain ⟨x, hx⟩ := fallS_eq t
        have e := ht'.symm.trans (strand_after ((memOnly_groups (Laws.writeBytes_memOnly ..)).trans h.groups) ht _)
        rw [hx] at e
        cases e
        exact ⟨rfl, rfl, rfl, rfl, rfl⟩
  case atomic =>
    intro s n pa z o g t fn ty b c d hwf ho hg ht hl hw hr hb hty hz key old bv num new
    have h := cacheWork_cachesOnly s o
    have hnew : (atomicNew fn ty.toNat old bv (c.toNat % 2 ^ (8 * z))).getD old = new := by
      rw [atomicNew_leaves fn hz]
      cases fn <;> rfl
    obtain ⟨i, hi, e⟩ := atomicComplete_performs ho hr hg hl hw hb
    have hu := countUnsealed_cachesOnly (atomicWritten (s.cacheWork o) key o.ver pa z (atomicNew fn ty.toNat old bv (c.toNat % 2 ^ (8 * z)))) g.cid (.phys pa)
    refine ⟨_, e, op_dropOp .., ?_, ?_, fun t' ht' => ?_⟩
    · intro a hlo hhi hname
      rw [readByte_modStrand_dropOp, readByte_congr hu.links hu.mem hu.sets, atomicWritten_reads h hwf _ hlo hhi hname, hnew]
    · intro a hout hk
      rw [readByte_modStrand_dropOp, readByte_congr hu.links hu.mem hu.sets, atomicWritten_keeps h hwf _ hout hk]
    · obtain ⟨x, hx⟩ := fallL_fallS_eq (t.put i (if ty.toNat < 4 then intWrap 64 (natSigned (8 * z) old) else old))
      have e := ht'.symm.trans (strand_after (hu.groups.trans (atomicWritten_groups h _)) ht _)
      rw [hx, put_low t hi, ofNat_atomicOld] at e
      cases e
      exact ⟨rfl, rfl, rfl⟩

end Sys2Proof.Proofs
end

section
/-!
Links and accesses from outside (R407 to R412, R449, R160, R161): the states of a unit, what its failure leaves, an access of another module and a
host's CXL.mem access.
-/
namespace Sys2Proof.Proofs

open Sys2Proof Sys2Proof.Machine Sys2Proof.Safety

/-! ## A change of a unit (R408, R411) -/

section Units

variable {s : State} {u : Nat}

theorem unit_modUnit (hu : u < s.links.units.length) (f : Link → Link) : (s.modUnit u f).unit u = f (s.unit u) := by
  simp [State.unit, State.modUnit, List.getD_eq_getElem?_getD, Laws.modAt_get, hu]

/-- A change of a unit is decided by what it does to that unit. -/
theorem modUnit_congr (hu : u < s.links.units.length) {f h : Link → Link} (e : f (s.unit u) = h (s.unit u)) : s.modUnit u f = s.modUnit u h := by
  have hget : s.links.units[u]? = some (s.unit u) := by simp [State.unit, hu]
  rw [State.modUnit, State.modUnit, Laws.modAt_congr _ _ hget e]

theorem live_of_up {x : LinkSt} (h : x = .up ∨ x = .degraded) : x.live = true := by
  rcases h with rfl | rfl <;> rfl

theorem callRetraining_starts (hx : (s.unit u).state = .up ∨ (s.unit u).state = .degraded) (ha : s.awaitedOn u = false) :
    s.callRetraining u = s.startRetraining u := by
  simp only [State.callRetraining, live_of_up hx, ha, if_true, Bool.false_eq_true, if_false]

theorem callRetraining_defers (hx : (s.unit u).state = .up ∨ (s.unit u).state = .degraded) (ha : s.awaitedOn u = true) :
    s.callRetraining u = s.modUnit u fun l => { l with defer := true } := by
  simp only [State.callRetraining, live_of_up hx, ha, if_true]

end Units

/-! ## Commands of the owner (R408, R437) -/

section Commands

variable {s : State} {port : BitVec 3}

theorem byOwner_other (h : ¬ s.plat.owner.toNat = port.toNat) (s' : State) : s.byOwner port s' = .next s := by rw [State.byOwner, if_neg h]
theorem byOwner_owner (h : s.plat.owner.toNat = port.toNat) (s' : State) : s.byOwner port s' = .next s' := by rw [State.byOwner, if_pos h]

theorem exec_linkEnable (port : BitVec 3) (k : BitVec 4) (s : State) : exec (.linkEnable port k) s = execLinkEnable port k s := rfl
theorem exec_linkDisable (port : BitVec 3) (k : BitVec 4) (s : State) : exec (.linkDisable port k) s = execLinkDisable port k s := rfl
theorem exec_rtr (port : BitVec 3) (k : BitVec 4) (s : State) : exec (.rtr port k) s = execRtr port k s := rfl

theorem linkCommand_other (k : BitVec 4) (h : ¬ s.plat.owner.toNat = port.toNat) :
    ∀ i ∈ [Instr.linkEnable port k, .linkDisable port k, .rtr port k], exec i s = .next s := by
  simp only [List.forall_mem_cons, exec_linkEnable, execLinkEnable, exec_linkDisable, execLinkDisable, exec_rtr, execRtr, byOwner_other h, true_and]
  exact List.forall_mem_nil _

variable {k : BitVec 4} (hk : k.toNat < s.links.units.length) (h : s.plat.owner.toNat = port.toNat)
include h

theorem linkDisable_owner : exec (.linkDisable port k) s = .next (s.modUnit k.toNat fun l => { l with en := false, state := .down, defer := false }) :=
  byOwner_owner h _

theorem rtr_owner : exec (.rtr port k) s = .next (s.callRetraining k.toNat) := byOwner_owner h _

theorem rtr_defers (hx : (s.unit k.toNat).state = .up) (ha : s.awaitedOn k.toNat = true) :
    exec (.rtr port k) s = .next (s.modUnit k.toNat fun l => { l with defer := true }) := by
  rw [rtr_owner h, callRetraining_defers (.inl hx) ha]

include hk

theorem linkEnable_owner (he : (s.unit k.toNat).en = false) (hd : (s.unit k.toNat).state = .down) :
    exec (.linkEnable port k) s = .next (s.modUnit k.toNat fun l => { l with en := true, state := .training, retr := 0 }) := by
  rw [exec_linkEnable, execLinkEnable, byOwner_owner h, modUnit_congr hk]
  simp [he, hd]

theorem rtr_starts (hx : (s.unit k.toNat).state = .up) (ha : s.awaitedOn k.toNat = false) :
    exec (.rtr port k) s = .next (s.modUnit k.toNat fun l => { l with prev := .up, state := .retraining, defer := false }) := by
  rw [rtr_owner h, callRetraining_starts (.inl hx) ha, State.startRetraining, modUnit_congr hk]
  rw [hx]

end Commands

/-! ## Training and retraining (R408, R411) -/

section Training

variable {s : State} {u : BitVec 6} (hu : u.toNat < s.links.units.length)

theorem exec_trainingEnd (u : BitVec 6) (wid : BitVec 2) (peer : BitVec 8) (pk : BitVec 4) (s : State) :
    exec (.trainingEnd u wid peer pk) s = execTrainingEnd u wid peer pk s := rfl
theorem exec_trainingTimeout (u : BitVec 6) (s : State) : exec (.trainingTimeout u) s = execTrainingTimeout u s := rfl
theorem exec_realignmentDue (u : BitVec 6) (s : State) : exec (.realignmentDue u) s = execRealignmentDue u s := rfl
theorem exec_deferralExpiry (u : BitVec 6) (s : State) : exec (.deferralExpiry u) s = execDeferralExpiry u s := rfl
theorem exec_checkFailureLimit (u : BitVec 6) (s : State) : exec (.checkFailureLimit u) s = execCheckFailureLimit u s := rfl
theorem exec_retrainingEnd (u : BitVec 6) (wid : BitVec 2) (s : State) : exec (.retrainingEnd u wid) s = execRetrainingEnd u wid s := rfl
theorem exec_retrainingTimeout (u : BitVec 6) (s : State) : exec (.retrainingTimeout u) s = execRetrainingTimeout u s := rfl
theorem exec_verticalBusFailure (d : BitVec 5) (s : State) : exec (.verticalBusFailure d) s = execVerticalBusFailure d s := rfl

theorem isBus_iff (u : Nat) : isBus u = true ↔ 16 ≤ u ∧ u < 40 := by simp [isBus]
theorem isBus_false_iff (u : Nat) : isBus u = false ↔ u < 16 ∨ 40 ≤ u := by
  rw [← Bool.not_eq_true, isBus_iff]
  omega

section End

variable (hx : (s.unit u.toNat).state = .training) (wid : BitVec 2) (peer : BitVec 8) (pk : BitVec 4)
include hu hx

theorem trainingEnd_bus (hb : 16 ≤ u.toNat ∧ u.toNat < 40) :
    exec (.trainingEnd u wid peer pk) s = .next (s.modUnit u.toNat fun l => { l with state := .up, io := false }) := by
  have ha : isAcondut u.toNat = false := decide_eq_false (by omega)
  rw [exec_trainingEnd, execTrainingEnd, modUnit_congr hu]
  simp [hx, ha, (isBus_iff _).2 hb]

theorem trainingEnd_port (hp : 40 ≤ u.toNat) : exec (.trainingEnd u wid peer pk) s =
    .next (s.modUnit u.toNat fun l => { l with state := if wid = 0 then .up else .degraded, io := l.io || decide (pk ≠ 0) }) := by
  have ha : isAcondut u.toNat = false := decide_eq_false (by omega)
  rw [exec_trainingEnd, execTrainingEnd, modUnit_congr hu]
  simp [hx, ha, (isBus_false_iff _).2 (.inr hp)]

theorem trainingEnd_acondut (ha : u.toNat < 16) : exec (.trainingEnd u wid peer pk) s =
    .next (s.modUnit u.toNat fun l => { l with state := if wid = 0 then .up else .degraded, wid := if wid = 3 then 0 else wid, peer := peer, peerlk := pk }) := by
  rw [exec_trainingEnd, execTrainingEnd, modUnit_congr hu]
  simp [hx, isAcondut, ha, (isBus_false_iff _).2 (.inl ha)]

end End

section Retraining

variable (hx : (s.unit u.toNat).state = .up ∨ (s.unit u.toNat).state = .degraded)
include hx

theorem realignmentDue_starts (ha : s.awaitedOn u.toNat = false) : exec (.realignmentDue u) s = .next (s.startRetraining u.toNat) := by
  rw [exec_realignmentDue, execRealignmentDue, callRetraining_starts hx ha]

theorem deferralExpiry_starts (hd : (s.unit u.toNat).defer = true) : exec (.deferralExpiry u) s = .next (s.startRetraining u.toNat) := by
  rw [exec_deferralExpiry, execDeferralExpiry, live_of_up hx, hd, Bool.and_self, if_pos rfl]

theorem checkFailureLimit_starts : exec (.checkFailureLimit u) s = .next (s.startRetraining u.toNat) := by
  rw [exec_checkFailureLimit, execCheckFailureLimit, live_of_up hx, if_pos rfl]

end Retraining

/-- A count that saturates (R408). -/
theorem satInc_eq (n : BitVec 16) : satInc n = if n = 0xFFFF then 0xFFFF else n + 1 := by
  unfold satInc
  split
  · assumption
  · rfl

theorem flitCheckFailure_counts (k : BitVec 4) (s : State) : exec (.flitCheckFailure k) s =
    .next (s.modUnit k.toNat fun l => { l with crce := if l.crce = 0xFFFF then 0xFFFF else l.crce + 1 }) := by
  simp only [← satInc_eq]
  rfl

section RetrainingEnd

variable (hx : (s.unit u.toNat).state = .retraining) {wid : BitVec 2} (h3 : wid ≠ 3)
include hu hx h3

theorem retrainingEnd_returns (hw : wid.toNat ≤ (s.unit u.toNat).wid.toNat ∨ (16 ≤ u.toNat ∧ u.toNat < 40)) :
    exec (.retrainingEnd u wid) s = .next (s.modUnit u.toNat fun l => { l with state := l.prev, retr := if l.retr = 0xFFFF then 0xFFFF else l.retr + 1 }) := by
  have hn : ¬ ((s.unit u.toNat).wid.toNat < wid.toNat ∧ isBus u.toNat = false) := by
    rw [isBus_false_iff]
    omega
  rw [exec_retrainingEnd, execRetrainingEnd, modUnit_congr hu]
  simp only [hx, h3, hn, ne_eq, not_true_eq_false, or_self, if_false, satInc_eq]

theorem retrainingEnd_degrades (hw : (s.unit u.toNat).wid.toNat < wid.toNat) (hb : u.toNat < 16 ∨ 40 ≤ u.toNat) :
    exec (.retrainingEnd u wid) s = .next (s.modUnit u.toNat fun l => { l with state := .degraded, wid := wid, retr := if l.retr = 0xFFFF then 0xFFFF else l.retr + 1 }) := by
  rw [exec_retrainingEnd, execRetrainingEnd, modUnit_congr hu]
  simp only [hx, h3, hw, (isBus_false_iff _).2 hb, ne_eq, not_true_eq_false, or_self, and_self, if_true, if_false, satInc_eq]

end RetrainingEnd

end Training

/-! ## What a fatal context error leaves of the links (R337, R411) -/

theorem memOnly_links {s s' : State} (h : Laws.MemOnly s s') : s'.links = s.links := by
  unfold Laws.MemOnly at h
  rw [h]

theorem postPage_links (s : State) (r : List Word) : (s.postPage r).links = s.links := by
  obtain ⟨s1, q, h, e⟩ := Laws.postPage_frame s r
  rw [e]
  exact (memOnly_links h :)

theorem tellWaiter_links (s : State) (replay : Bool) (x : Waiter) : (s.tellWaiter replay x).links = s.links := by
  cases x <;> rfl

theorem takePend_links {s s' : State} {r : FaultReq} (h : s.takePend r = some s') : s'.links = s.links := by
  unfold State.takePend at h
  dsimp only at h
  split at h
  · cases h
    exact tellWaiter_links ..
  · split at h
    · cases h
      rfl
    · obtain ⟨i, -, h⟩ := Option.map_eq_some_iff.1 h
      split at h <;> cases h
      · exact postPage_links ..
      · rfl

theorem serveQueue_links (s : State) : s.serveQueue.links = s.links := by
  refine foldl_keeps State.links (fun s r => ?_) _ { s with mmu := { s.mmu with queue := [] } }
  cases h : s.takePend r with
  | none => rfl
  | some s' => exact takePend_links h

theorem abortKernels_links (s : State) (c : Nat) (status : Byte) : (abortKernels s c status).links = s.links :=
  foldl_keeps State.links (f := fun s (k : Kernel) => s.abortKernel k.uid status) (fun s k => by rw [Laws.abortKernel_frame]) _ s

/-- A record to the owner reaches memory, the owner's ring and the events that are kept for one (R439). -/
theorem postOwner_keeps {β : Type} (π : State → β) (hm : ∀ {s s' : State}, Laws.MemOnly s s' → π s' = π s) (hw : ∀ s p f, π (s.modWindow p f) = π s)
    (hp : ∀ (s : State) p, π { s with plat := p } = π s) (s : State) (r : List Word) : π (s.postOwner r) = π s := by
  rcases Laws.postOwner_cases s r with ⟨-, e⟩ | ⟨-, e⟩ <;> rw [e]
  · obtain ⟨s1, q, h, e | e⟩ := Laws.postTo_frame s s.plat.owner.toNat r <;> rw [e]
    exact (hw ..).trans (hm h)
  · exact hp ..

theorem postOwner_links (s : State) (r : List Word) : (s.postOwner r).links = s.links :=
  postOwner_keeps State.links memOnly_links (fun _ _ _ => rfl) (fun _ _ => rfl) s r

theorem contextError_links (s : State) (c reason detail pa : Nat) : (s.contextError c reason detail pa).links = s.links := by
  unfold State.contextError
  split
  · rw [drainContext_abort]
    exact (serveQueue_links _).trans ((abortKernels_links ..).trans (postOwner_links ..))
  · rfl

/-! ## The failure of a unit (R411, R447) -/

/-- A failed unit. -/
def failed (l : Link) : Link := { l with state := .failed, defer := false }

theorem discardWork_links (s : State) : s.discardWork.links = s.links := rfl

theorem busFailed_links (s : State) : s.busFailed.links = s.links := by
  rw [State.busFailed, discardWork_links]
  exact foldl_keeps State.links (fun s c => contextError_links s c 4 0 0) _ s

theorem portLost_links (s : State) (u : Nat) : (s.portLost u).links = s.links := by
  unfold State.portLost
  split <;> rfl

theorem failUnit_units (s : State) (u : Nat) : (s.failUnit u).links.units = (s.modUnit u failed).links.units := by
  rw [State.failUnit]
  split
  · rw [busFailed_links, postOwner_links]
    rfl
  · rw [portLost_links, postOwner_links]
    rfl

theorem failUnit_unit {s : State} {u : Nat} (hu : u < s.links.units.length) : (s.failUnit u).unit u = failed (s.unit u) := by
  rw [← unit_modUnit hu failed, State.unit, failUnit_units, State.unit]

section Fails

variable {s : State} {u : BitVec 6}

theorem trainingTimeout_fails (hx : (s.unit u.toNat).state = .training) : exec (.trainingTimeout u) s = .next (s.failUnit u.toNat) := by
  rw [exec_trainingTimeout, execTrainingTimeout, if_pos hx]

theorem retrainingTimeout_fails (hx : (s.unit u.toNat).state = .retraining) : exec (.retrainingTimeout u) s = .next (s.failUnit u.toNat) := by
  rw [exec_retrainingTimeout, execRetrainingTimeout, if_pos hx]

theorem verticalBusFailure_fails {d : BitVec 5} (hd : d.toNat < 24) (hx : (s.unit (16 + d.toNat)).state ≠ .failed) :
    exec (.verticalBusFailure d) s = .next (s.failUnit (16 + d.toNat)) := by
  rw [exec_verticalBusFailure, execVerticalBusFailure, if_pos ⟨hd, hx⟩]

end Fails

/-- The failure of a vertical bus signals Viral and discards what runs, whatever came before (notes/assumptions/76.md, 108.md). -/
theorem failUnit_bus {u : Nat} (s : State) (hb : 16 ≤ u ∧ u < 40) :
    ∃ s1 : State, s.failUnit u = { s1.discardWork with links := { s1.discardWork.links with viral := true } } := by
  simp only [State.failUnit, (isBus_iff u).2 hb, if_true]
  exact ⟨_, rfl⟩

/-! ## Accesses of a unit to DRAM (R142, R380, R405) -/

theorem remoteOf_dram (s : State) {pa : Nat} (h : pa < 2 ^ 40) : remoteOf s pa = none := by
  simp only [remoteOf, regionOf, if_pos h]

theorem countSpan_cachesOnly (s : State) (cid pa n : Nat) : CachesOnly s (s.countSpan cid pa n) :=
  foldl_rel CachesOnly.refl CachesOnly.trans (fun s _ => countUnsealed_cachesOnly s cid _) _ s

theorem unitWrite_dram (s : State) (w : CacheWay) (c : Nat) (ver : BitVec 32) {pa : Nat} (h : pa < 2 ^ 40) (xs : List Byte) :
    s.unitWrite w c ver pa xs = (s.cacheSpan w c ver pa xs.length).writeBytes (s.keyOf c) ver pa xs :=
  writeHome_local (cacheSpan_cachesOnly ..) (remoteOf_dram s h) ..

theorem unitRead_dram (s : State) (w : CacheWay) (c : Nat) (ver : BitVec 32) {pa : Nat} (h : pa < 2 ^ 40) (n : Nat) :
    ∃ s1, CachesOnly s s1 ∧ s.unitRead w c ver pa n = (s.readBytes (s.keyOf c) ver pa n, s1) := by
  have hc := (cacheSpan_cachesOnly s w c ver pa n).trans (countSpan_cachesOnly (s.cacheSpan w c ver pa n) c pa n)
  refine ⟨_, hc, ?_⟩
  simp only [State.unitRead, remoteOf_dram _ h, Option.isSome_none, Bool.false_eq_true, if_false, hc.keys, readBytes_congr hc]

/-! ## What a byte write depends on (R117, R156) -/

/-- `s'` has the memory of `s`, and what says where its bytes lie. -/
structure SameMemory (s s' : State) : Prop where
  links : s'.links = s.links
  mem : s'.mem = s.mem
  sets : s'.rows.sets = s.rows.sets

theorem CachesOnly.sameMemory {s s' : State} (h : CachesOnly s s') : SameMemory s s' := ⟨h.links, h.mem, h.sets⟩

theorem SameMemory.writeSector {s s' : State} (h : SameMemory s s') (key : BitVec 512) (ver : BitVec 32) (pa : Nat) (xs : List Byte) :
    SameMemory (s.writeSector key ver pa xs) (s'.writeSector key ver pa xs) := by
  have hp : s'.plainRow pa = s.plainRow pa := by rw [State.plainRow, State.setOf, h.sets, State.plainRow, State.setOf]
  refine ⟨by rw [writeSector_links, writeSector_links, h.links], ?_, ?_⟩
  · simp only [State.writeSector, hp, homeOf_congr h.links, h.mem]
    split <;> rfl
  · simp only [State.writeSector, hp, h.sets]
    split
    · rfl
    · exact h.sets

theorem SameMemory.writeBytesF (key : BitVec 512) (ver : BitVec 32) (fuel : Nat) : ∀ {s s' : State} (_ : SameMemory s s') (pa : Nat) (xs : List Byte),
    SameMemory (s.writeBytesF key ver pa xs fuel) (s'.writeBytesF key ver pa xs fuel) := by
  induction fuel with
  | zero => exact fun h _ _ => h
  | succ fuel ih =>
    intro s s' h pa xs
    cases xs with
    | nil => exact h
    | cons x xs => exact ih (h.writeSector ..) _ _

theorem SameMemory.writeBytes {s s' : State} (h : SameMemory s s') (key : BitVec 512) (ver : BitVec 32) (pa : Nat) (xs : List Byte) :
    SameMemory (s.writeBytes key ver pa xs) (s'.writeBytes key ver pa xs) := h.writeBytesF key ver _ pa xs

/-! ## An access that waits in the queue of a bank (R385, R386) -/

theorem askGap_frame (s : State) (who : Asker) (pa : Nat) : s.askGap who pa = { s with fresh := (s.askGap who pa).fresh, rows := (s.askGap who pa).rows } := by
  dsimp only [State.askGap]
  split <;> rfl

theorem live_or_paused {s : State} {u : Nat} (h : (s.unit u).state = .up ∨ (s.unit u).state = .retraining) :
    (s.unit u).state.live = true ∨ s.unitPaused u = true := h.imp (fun h => live_of_up (.inl h)) decide_eq_true

/-! ## An access of another module (R410) -/

theorem exec_remoteAccess (k : BitVec 4) (scid : BitVec 6) (addr : BitVec 40) (ver : BitVec 32) (kind : RemoteKind) (size : BitVec 6) (data : BitVec 256) (s : State) :
    exec (.remoteAccess k scid addr ver kind size data) s = execRemoteAccess k scid addr ver kind size data s := rfl

/-- `s` with an answer that its requester sees (R410, R449). -/
def answered (s : State) (poison : Bool) (bs : List Byte) : State := { s with answer := some { poison := poison, data := bs } }

section Remote

variable {s : State} {k : BitVec 4} {scid : BitVec 6} {addr : BitVec 40} {ver : BitVec 32} {kind : RemoteKind} {size : BitVec 6} {data : BitVec 256}
  (hu : (s.unit k.toNat).state = .up ∨ (s.unit k.toNat).state = .retraining)
include hu

theorem remoteAccess_unbound (hb : s.binding (s.unit k.toNat).peer scid = none) :
    exec (.remoteAccess k scid addr ver kind size data) s = .next (answered s true []) := by
  simp only [exec_remoteAccess, execRemoteAccess, if_pos (live_or_paused hu), hb]
  rfl

variable {c : Nat} (hb : s.binding (s.unit k.toNat).peer scid = some c)
include hb

theorem remoteAccess_foreign (ht : s.frameTag (addr.toNat / 4096 * 4096) ≠ some c) :
    exec (.remoteAccess k scid addr ver kind size data) s = .next (answered s true []) := by
  simp only [exec_remoteAccess, execRemoteAccess, if_pos (live_or_paused hu), hb, ht, false_and, and_false, if_false]
  rfl

/-- An access within the frames of the bound context. -/
def Admitted (s : State) (c pa n : Nat) : Prop :=
  pa + n ≤ 2 ^ 40 ∧ s.goodFrame pa = true ∧ s.goodFrame (pa + n - 1) = true ∧ s.frameTag (pa / 4096 * 4096) = some c ∧
    s.frameTag ((pa + n - 1) / 4096 * 4096) = some c

variable (ha : Admitted s c addr.toNat (remoteSize kind size))
include ha

theorem remoteAccess_waits (hw : s.homeWaits s.fresh addr.toNat (remoteSize kind size) = true ∨ (s.unit k.toNat).state = .retraining) :
    ∃ s1 : State, exec (.remoteAccess k scid addr ver kind size data) s = .next s1 ∧ s1.mem = s.mem ∧ s1.answer = s.answer ∧ s1.heldRemote = s.heldRemote ++
      [{ id := s.fresh, link := k, cid := c, addr := addr, ver := ver, kind := kind, size := size, data := data }] := by
  have hor : (s.homeWaits s.fresh addr.toNat (remoteSize kind size) || s.unitPaused k.toNat) = true := by
    rw [Bool.or_eq_true]
    exact hw.imp_right decide_eq_true
  unfold Admitted at ha
  simp only [exec_remoteAccess, execRemoteAccess, if_pos (live_or_paused hu), hb, if_pos ha, if_pos hor]
  refine ⟨_, rfl, ?_⟩
  rw [askGap_frame]
  exact ⟨rfl, rfl, rfl⟩

theorem remoteAccess_performs (hw : ¬ (s.homeWaits s.fresh addr.toNat (remoteSize kind size) = true ∨ (s.unit k.toNat).state = .retraining)) :
    exec (.remoteAccess k scid addr ver kind size data) s = .next (s.remotePerform c addr.toNat ver kind (remoteSize kind size) data) := by
  have hor : ¬ (s.homeWaits s.fresh addr.toNat (remoteSize kind size) || s.unitPaused k.toNat) = true := by
    rw [Bool.or_eq_true]
    exact fun h => hw (h.imp_right of_decide_eq_true)
  unfold Admitted at ha
  simp only [exec_remoteAccess, execRemoteAccess, if_pos (live_or_paused hu), hb, if_pos ha, if_neg hor]

end Remote

/-! ## What an access that is performed leaves (R410, R449) -/

/-- An answer and memory; groups and what waits stay. -/
structure Performed (s s' : State) (bs : List Byte) (m : Memory) : Prop where
  answer : s'.answer = some { poison := false, data := bs }
  mem : s'.mem = m
  groups : s'.groups = s.groups
  heldRemote : s'.heldRemote = s.heldRemote

section Performed

variable {s s1 : State} (h : CachesOnly s s1) (bs : List Byte) (key : BitVec 512) (ver : BitVec 32) (pa : Nat) (xs : List Byte)
include h

theorem performed_reads : Performed s (answered s1 false bs) bs s.mem := ⟨rfl, h.mem, h.groups, by rw [h.rest]; rfl⟩

theorem performed_writes : Performed s (answered (s1.writeBytes key ver pa xs) false bs) bs (s.writeBytes key ver pa xs).mem := by
  have hm : Laws.MemOnly s1 (s1.writeBytes key ver pa xs) := Laws.writeBytes_memOnly ..
  refine ⟨rfl, (h.sameMemory.writeBytes key ver pa xs).mem, (memOnly_groups hm).trans h.groups, ?_⟩
  unfold Laws.MemOnly at hm
  rw [hm, h.rest]
  rfl

/-- An access that reads and then writes. -/
theorem performed_updates : Performed s ((answered s1 false bs).writeBytes key ver pa xs) bs (s.writeBytes key ver pa xs).mem := by
  have hs : SameMemory s (answered s1 false bs) := ⟨h.links, h.mem, h.sets⟩
  have hm : Laws.MemOnly (answered s1 false bs) ((answered s1 false bs).writeBytes key ver pa xs) := Laws.writeBytes_memOnly ..
  have hp := performed_reads h bs
  refine ⟨?_, (hs.writeBytes key ver pa xs).mem, (memOnly_groups hm).trans hp.groups, ?_⟩ <;> unfold Laws.MemOnly at hm <;> rw [hm]
  · exact hp.answer
  · exact hp.heldRemote

end Performed

section RemotePerform

variable {s : State} {c pa n : Nat} {ver : BitVec 32} {data : BitVec 256}

theorem remotePerform_poisoned {kind : RemoteKind} (hk : kind ≠ .write) (hb : s.badPlace (.phys pa) n = true) :
    s.remotePerform c pa ver kind n data = answered (s.countSpan c pa n) true [] := by
  simp only [State.remotePerform, hk, State.soundAt, hb, Bool.not_true, if_true, if_false]
  rfl

variable (hpa : pa < 2 ^ 40)
include hpa

theorem remotePerform_write : Performed s (s.remotePerform c pa ver .write n data) [] (s.writeBytes (s.keyOf c) ver pa (leBytes n data.toNat)).mem := by
  simp only [State.remotePerform, if_true, unitWrite_dram s _ c ver hpa]
  exact performed_writes (cacheSpan_cachesOnly ..) ..

variable (hb : s.badPlace (.phys pa) n = false)
include hb

theorem remotePerform_read : Performed s (s.remotePerform c pa ver .read n data) (s.readBytes (s.keyOf c) ver pa n) s.mem := by
  obtain ⟨s1, h, e⟩ := unitRead_dram s (CacheWay.other s.fresh) c ver hpa n
  simp only [State.remotePerform, State.soundAt, hb, e, reduceCtorEq, Bool.not_false, Bool.true_eq_false, if_false]
  exact performed_reads h _

theorem remotePerform_atomic {fn ty : BitVec 3} {x : Nat} (hx : atomicNew (remoteFn fn) ty.toNat (leNat (s.readBytes (s.keyOf c) ver pa n))
      (data.toNat % 2 ^ (8 * n)) (data.toNat / 2 ^ 64 % 2 ^ (8 * n)) = some x) :
    Performed s (s.remotePerform c pa ver (.atomic fn ty) n data) (s.readBytes (s.keyOf c) ver pa n) (s.writeBytes (s.keyOf c) ver pa (leBytes n x)).mem := by
  obtain ⟨s1, h, e⟩ := unitRead_dram s (CacheWay.other s.fresh) c ver hpa n
  have hkey : (answered s1 false (s.readBytes (s.keyOf c) ver pa n)).keyOf c = s.keyOf c := h.keys c
  simp only [State.remotePerform, State.soundAt, hb, e, hx, reduceCtorEq, Bool.not_false, Bool.true_eq_false, if_false]
  rw [show ({ s1 with answer := some { poison := false, data := s.readBytes (s.keyOf c) ver pa n } } : State) = answered s1 false (s.readBytes (s.keyOf c) ver pa n) from rfl,
    hkey]
  exact performed_updates h ..

end RemotePerform

/-! ## A host's CXL.mem access (R449, R161) -/

theorem exec_hostCxlMemAccess (port : BitVec 3) (addr : BitVec 46) (wr : Bool) (size : BitVec 6) (data : BitVec 512) (s : State) :
    exec (.hostCxlMemAccess port addr wr size data) s = execHostCxlMemAccess port addr wr size data s := rfl

theorem hostCxlMemAccess_io {s : State} {port : BitVec 3} (hio : (s.unit (40 + port.toNat)).io = true) (addr : BitVec 46) (wr : Bool) (size : BitVec 6) (data : BitVec 512) :
    exec (.hostCxlMemAccess port addr wr size data) s = .next s := by
  rw [exec_hostCxlMemAccess, execHostCxlMemAccess, if_pos (.inr hio)]

section Cxl

variable {s : State} {port : BitVec 3} {addr : BitVec 46} {size : BitVec 6} {data : BitVec 512} (hio : (s.unit (40 + port.toNat)).io = false)
include hio

theorem hostCxlMemAccess_waits (h : ((s.unit (40 + port.toNat)).state = .up ∧ s.cxlRefused (addr.toNat / 2 ^ 40) (addr.toNat % 2 ^ 40) (cxlSize size) = false ∧
      s.homeWaits s.fresh (addr.toNat % 2 ^ 40) (cxlSize size) = true) ∨ (s.unit (40 + port.toNat)).state = .retraining) (wr : Bool) :
    ∃ s1 : State, exec (.hostCxlMemAccess port addr wr size data) s = .next s1 ∧ s1.mem = s.mem ∧ s1.answer = s.answer ∧
      s1.heldCxl = s.heldCxl ++ [{ id := s.fresh, port := port, addr := addr, write := wr, size := size, data := data }] := by
  have hlive : ((s.unit (40 + port.toNat)).state.live || s.unitPaused (40 + port.toNat)) = true := by
    rw [Bool.or_eq_true]
    exact live_or_paused (h.imp_left And.left)
  have hwaits : (s.unitPaused (40 + port.toNat) || (s.homeWaits s.fresh (addr.toNat % 2 ^ 40) (cxlSize size) &&
      !s.cxlRefused (addr.toNat / 2 ^ 40) (addr.toNat % 2 ^ 40) (cxlSize size))) = true := by
    rcases h with ⟨-, hr, hw⟩ | hp
    · rw [hr, hw, Bool.not_false, Bool.and_self, Bool.or_true]
    · rw [State.unitPaused, decide_eq_true hp, Bool.true_or]
  simp only [exec_hostCxlMemAccess, execHostCxlMemAccess, hlive, hio, hwaits, Bool.true_eq_false, Bool.false_eq_true, or_self, if_false, if_true]
  refine ⟨_, rfl, ?_⟩
  rw [askGap_frame]
  exact ⟨rfl, rfl, rfl⟩

variable (hup : (s.unit (40 + port.toNat)).state = .up)
include hup

theorem hostCxlMemAccess_performs (h : s.cxlRefused (addr.toNat / 2 ^ 40) (addr.toNat % 2 ^ 40) (cxlSize size) = true ∨
      s.homeWaits s.fresh (addr.toNat % 2 ^ 40) (cxlSize size) = false) (wr : Bool) : exec (.hostCxlMemAccess port addr wr size data) s =
    .next (s.cxlPerform (addr.toNat / 2 ^ 40) (addr.toNat % 2 ^ 40) (cxlSize size) wr (leBytes (cxlSize size) data.toNat)) := by
  have hlive : (s.unit (40 + port.toNat)).state.live = true := live_of_up (.inl hup)
  have hpaused : s.unitPaused (40 + port.toNat) = false := decide_eq_false (by simp [hup])
  have hwaits : (s.homeWaits s.fresh (addr.toNat % 2 ^ 40) (cxlSize size) && !s.cxlRefused (addr.toNat / 2 ^ 40) (addr.toNat % 2 ^ 40) (cxlSize size)) = false := by
    rcases h with h | h
    · rw [h, Bool.not_true, Bool.and_false]
    · rw [h, Bool.false_and]
  simp only [exec_hostCxlMemAccess, execHostCxlMemAccess, hlive, hio, hpaused, hwaits, Bool.or_false, Bool.true_eq_false, Bool.false_eq_true, or_self, if_false]

end Cxl

section CxlPerform

variable {s : State} {c pa n : Nat}

theorem cxlPerform_refused (h : s.cxlRefused c pa n = true) (wr : Bool) (xs : List Byte) : s.cxlPerform c pa n wr xs = answered s (!wr) [] := by
  simp only [State.cxlPerform, h, if_true]
  rfl

variable (h : s.cxlRefused c pa n = false) (hpa : pa < 2 ^ 40)
include h hpa

theorem cxlPerform_write (xs : List Byte) : Performed s (s.cxlPerform c pa n true xs) [] (s.writeBytes (s.keyOf c) 0 pa xs).mem := by
  simp only [State.cxlPerform, h, Bool.false_eq_true, if_true, if_false, unitWrite_dram s _ c 0 hpa]
  exact performed_writes (cacheSpan_cachesOnly ..) ..

theorem cxlPerform_read (hb : s.badPlace (.phys pa) n = false) (xs : List Byte) :
    Performed s (s.cxlPerform c pa n false xs) (s.readBytes (s.keyOf c) 0 pa n) s.mem := by
  obtain ⟨s1, hc, e⟩ := unitRead_dram s (CacheWay.other s.fresh) c 0 hpa n
  simp only [State.cxlPerform, h, State.soundAt, hb, e, Bool.not_false, Bool.false_eq_true, if_true, if_false]
  exact performed_reads hc _

end CxlPerform

/-! ## The timeout of a held access (R161) -/

theorem exec_heldCxlTimeout (i : Nat) (s : State) : exec (.heldCxlTimeout i) s = execHeldCxlTimeout i s := rfl

section Timeout

variable {s : State} {i : Nat} {h : HeldCxl} (hf : s.heldCxl.find? (fun h => h.id == i) = some h)
include hf

theorem heldCxlTimeout_free (hn : s.holder? (h.addr.toNat % 2 ^ 40) (cxlSize h.size) = none) : exec (.heldCxlTimeout i) s = .next s := by
  simp only [exec_heldCxlTimeout, execHeldCxlTimeout, hf, hn]

/-- The access leaves the queue and is answered; the owner hears of it. -/
theorem heldCxlTimeout_held (hs : (s.holder? (h.addr.toNat % 2 ^ 40) (cxlSize h.size)).isSome = true) : ∃ r, exec (.heldCxlTimeout i) s =
    .next ((answered { s with heldCxl := s.heldCxl.filter fun x => x.id != i } (!h.write) []).postOwner r) := by
  obtain ⟨o, ho⟩ := Option.isSome_iff_exists.1 hs
  simp only [exec_heldCxlTimeout, execHeldCxlTimeout, hf, ho]
  exact ⟨_, rfl⟩

end Timeout

theorem memOnly_heldCxl {s s' : State} (h : Laws.MemOnly s s') : s'.heldCxl = s.heldCxl := by
  unfold Laws.MemOnly at h
  rw [h]
theorem memOnly_answer {s s' : State} (h : Laws.MemOnly s s') : s'.answer = s.answer := by
  unfold Laws.MemOnly at h
  rw [h]

theorem postOwner_heldCxl (s : State) (r : List Word) : (s.postOwner r).heldCxl = s.heldCxl :=
  postOwner_keeps State.heldCxl memOnly_heldCxl (fun _ _ _ => rfl) (fun _ _ => rfl) s r
theorem postOwner_answer (s : State) (r : List Word) : (s.postOwner r).answer = s.answer :=
  postOwner_keeps State.answer memOnly_answer (fun _ _ _ => rfl) (fun _ _ => rfl) s r

/-! ## The statement -/

/-- Settles O48: each state of a unit by its lemma, a failure by `failUnit_unit` and `failUnit_bus`, an access from outside by what it leaves once performed. -/
theorem linkEvents : Obligations.LinkEvents := by
  unfold Obligations.LinkEvents
  refine ⟨?units, ?remote, ?cxl, fun s port addr wr size data hio => hostCxlMemAccess_io hio addr wr size data, ?timeout⟩
  case units =>
    intro s port k u n hu hk hlen l x link unit owner fails
    subst hk
    have hk : k.toNat < s.links.units.length := by omega
    have hu' : u.toNat < s.links.units.length := by omega
    refine ⟨linkCommand_other k, linkEnable_owner hk, linkDisable_owner, rtr_starts hk, rtr_defers, flitCheckFailure_counts k s,
      fun wid peer pk hx h1 h2 => trainingEnd_bus hu' hx wid peer pk ⟨h1, h2⟩, fun wid peer pk hx hp => trainingEnd_port hu' hx wid peer pk hp,
      fun wid peer pk hx ha => trainingEnd_acondut hu' hx wid peer pk ha, fun hx => ?training, realignmentDue_starts, deferralExpiry_starts, checkFailureLimit_starts,
      fun wid hx h3 hw => retrainingEnd_returns hu' hx h3 hw, fun wid hx hw h3 hb => retrainingEnd_degrades hu' hx h3 hw hb, fun hx => ?retraining, fun d hd hx => ?bus⟩
    case training => exact ⟨_, trainingTimeout_fails hx, by rw [failUnit_unit hu']; exact ⟨rfl, rfl⟩⟩
    case retraining => exact ⟨_, retrainingTimeout_fails hx, by rw [failUnit_unit hu']; exact ⟨rfl, rfl⟩⟩
    case bus =>
      obtain ⟨s1, e⟩ := failUnit_bus (u := 16 + d.toNat) s (by omega)
      refine ⟨_, verticalBusFailure_fails hd hx, by rw [failUnit_unit (by omega)]; rfl, ?_⟩
      rw [e]
      exact ⟨rfl, rfl, rfl, rfl, rfl, rfl, rfl⟩
  case remote =>
    intro s k scid addr ver kind size data hu pa n acc refused
    refine ⟨remoteAccess_unbound hu, fun c hb ht => remoteAccess_foreign hu hb ht, fun c hb h1 h2 h3 h4 h5 => ?_⟩
    intro waits done old
    have hpa : pa < 2 ^ 40 := addr.isLt
    have ha : Admitted s c pa n := ⟨h1, h2, h3, h4, h5⟩
    have gives {bs : List Byte} {m : Memory} (hw : ¬ waits) (h : Performed s (s.remotePerform c pa ver kind n data) bs m) : done bs m :=
      ⟨_, remoteAccess_performs hu hb ha hw, h.answer, h.mem, h.groups, h.heldRemote⟩
    refine ⟨fun hw => ?waits, fun hw hk => ?write, fun hw hk hbad => ?read, fun hw hk hbad => ?poisoned, fun fn ty x hw hk hbad hx => ?atomic⟩
    case waits =>
      obtain ⟨s1, e, hm, hans, hheld⟩ := remoteAccess_waits (data := data) hu hb ha hw
      exact ⟨s1, _, e, hheld, rfl, rfl, rfl, rfl, hm, hans⟩
    case write => exact gives hw (hk ▸ remotePerform_write hpa)
    case read => exact gives hw (hk ▸ remotePerform_read hpa hbad)
    case poisoned => exact (remoteAccess_performs hu hb ha hw).trans (congrArg _ (remotePerform_poisoned (by simp [hk]) hbad))
    case atomic => exact gives hw (hk ▸ remotePerform_atomic hpa hbad hx)
  case cxl =>
    intro s port addr size data hio up c pa n acc
    have hpa : pa < 2 ^ 40 := Nat.mod_lt _ (by decide)
    refine ⟨fun hup hr => ⟨?_, ?_⟩, fun h wr => ?waits, fun hup hr hw => ⟨?write, fun hbad => ?read⟩⟩
    · exact (hostCxlMemAccess_performs hio hup (.inl hr) false).trans (congrArg _ (cxlPerform_refused hr false _))
    · exact (hostCxlMemAccess_performs hio hup (.inl hr) true).trans (congrArg _ (cxlPerform_refused hr true _))
    case waits =>
      obtain ⟨s1, e, hm, hans, hheld⟩ := hostCxlMemAccess_waits (data := data) hio h wr
      exact ⟨s1, _, e, hheld, rfl, rfl, rfl, hm, hans⟩
    case write =>
      have h := cxlPerform_write hr hpa (leBytes n data.toNat)
      exact ⟨_, hostCxlMemAccess_performs hio hup (.inr hw) true, h.answer, h.mem⟩
    case read =>
      have h := cxlPerform_read hr hpa hbad (leBytes n data.toNat)
      exact ⟨_, hostCxlMemAccess_performs hio hup (.inr hw) false, h.answer, h.mem⟩
  case timeout =>
    intro s i h hf
    refine ⟨heldCxlTimeout_free hf, fun hs => ?_⟩
    obtain ⟨r, e⟩ := heldCxlTimeout_held hf hs
    refine ⟨_, e, ?_, postOwner_answer ..⟩
    rw [postOwner_heldCxl]
    intro x hx
    exact bne_iff_ne.1 (List.mem_filter.1 hx).2

end Sys2Proof.Proofs
end

section
/-!
The integer types (R164): reading w bits and wrapping an integer to w bits undo each other within the bounds of the type; then what fitting
an exact integer does below, within and above those bounds.
-/
namespace Sys2Proof.Proofs

open Sys2Proof Sys2Proof.Machine Sys2Proof.Safety

/-! ## Wrapping and reading -/

theorem coe_intWrap (w : Nat) (z : Int) : (intWrap w z : Int) = z % 2 ^ w := by
  rw [intWrap, Int.toNat_of_nonneg (Int.emod_nonneg _ (by positivity)), Nat.cast_pow, Nat.cast_ofNat]

theorem intWrap_congr {w : Nat} {y z : Int} (h : y % 2 ^ w = z % 2 ^ w) : intWrap w y = intWrap w z :=
  Int.ofNat_inj.1 ((coe_intWrap w y).trans (h.trans (coe_intWrap w z).symm))

theorem intWrap_mod (w : Nat) (z : Int) : intWrap w z % 2 ^ w = intWrap w z := by
  apply Int.ofNat_inj.1
  rw [Int.natCast_emod, coe_intWrap, Nat.cast_pow, Nat.cast_ofNat, Int.emod_emod]

/-- A signed reading is the balanced remainder. -/
theorem natSigned_eq_bmod (w n : Nat) : natSigned w n = (n : Int).bmod (2 ^ w) := by
  rw [natSigned, Int.bmod_def, ← Int.natCast_emod]
  have h : 2 * (n % 2 ^ w) < 2 ^ w ↔ ((n % 2 ^ w : Nat) : Int) < ((2 ^ w : Nat) + 1) / 2 := by omega
  simp only [h]

/-- The half of the range of an s type. -/
theorem two_pow_width (ty : Nat) : 2 ^ tyWidth ty = 2 * 2 ^ (tyWidth ty - 1) := by
  rw [← Nat.pow_succ', Nat.succ_eq_add_one, Nat.sub_add_cancel (Laws.width_pos ty)]

/-- The bounds of a type and its readings, by its sign. -/
theorem tyMin_signed {ty : Nat} (h : tySigned ty = true) : tyMin ty = -(2 ^ (tyWidth ty - 1) : Nat) := if_pos h
theorem tyMax_signed {ty : Nat} (h : tySigned ty = true) : tyMax ty = (2 ^ (tyWidth ty - 1) : Nat) - 1 := if_pos h
theorem tyRead_signed {ty : Nat} (h : tySigned ty = true) (n : Nat) : tyRead ty n = (n : Int).bmod (2 ^ tyWidth ty) :=
  (if_pos h).trans (natSigned_eq_bmod ..)
theorem tyMin_unsigned {ty : Nat} (h : ¬ tySigned ty = true) : tyMin ty = 0 := if_neg h
theorem tyMax_unsigned {ty : Nat} (h : ¬ tySigned ty = true) : tyMax ty = (2 ^ tyWidth ty : Nat) - 1 := if_neg h
theorem tyRead_unsigned {ty : Nat} (h : ¬ tySigned ty = true) (n : Nat) : tyRead ty n = (n % 2 ^ tyWidth ty : Nat) := if_neg h

theorem tyMin_le_zero (ty : Nat) : tyMin ty ≤ 0 := by
  by_cases h : tySigned ty = true
  · exact (tyMin_signed h).le.trans (neg_nonpos.2 (Nat.cast_nonneg _))
  · exact (tyMin_unsigned h).le

theorem zero_le_tyMax (ty : Nat) : 0 ≤ tyMax ty := by
  have hw := Nat.two_pow_pos (tyWidth ty)
  have hk := Nat.two_pow_pos (tyWidth ty - 1)
  by_cases h : tySigned ty = true
  · rw [tyMax_signed h]
    omega
  · rw [tyMax_unsigned h]
    omega

theorem tyMin_le_tyMax (ty : Nat) : tyMin ty ≤ tyMax ty := (tyMin_le_zero ty).trans (zero_le_tyMax ty)

/-- A reading lies within the bounds of its type. -/
theorem tyRead_bounds (ty n : Nat) : tyMin ty ≤ tyRead ty n ∧ tyRead ty n ≤ tyMax ty := by
  have hk := Nat.two_pow_pos (tyWidth ty - 1)
  by_cases h : tySigned ty = true
  · rw [tyMin_signed h, tyMax_signed h, tyRead_signed h, two_pow_width]
    have hlow := Int.le_bmod (x := n) (m := 2 * 2 ^ (tyWidth ty - 1)) (by omega)
    have hhigh := Int.bmod_lt (x := n) (m := 2 * 2 ^ (tyWidth ty - 1)) (by omega)
    omega
  · have hn := Nat.mod_lt n (Nat.two_pow_pos (tyWidth ty))
    rw [tyMin_unsigned h, tyMax_unsigned h, tyRead_unsigned h]
    omega

/-- Reading looks at the w bits alone. -/
theorem tyRead_mod (ty n : Nat) : tyRead ty (n % 2 ^ tyWidth ty) = tyRead ty n := by
  by_cases h : tySigned ty = true
  · rw [tyRead_signed h, tyRead_signed h, Int.natCast_emod, Int.emod_bmod]
  · rw [tyRead_unsigned h, tyRead_unsigned h, Nat.mod_mod]

theorem tyRead_zero (ty : Nat) : tyRead ty 0 = 0 := by
  by_cases h : tySigned ty = true
  · rw [tyRead_signed h, Nat.cast_zero, Int.zero_bmod]
  · rw [tyRead_unsigned h, Nat.zero_mod, Nat.cast_zero]

theorem intWrap_tyRead (ty n : Nat) : intWrap (tyWidth ty) (tyRead ty n) = n % 2 ^ tyWidth ty := by
  apply Int.ofNat_inj.1
  rw [coe_intWrap, Int.natCast_emod, Nat.cast_pow, Nat.cast_ofNat]
  by_cases h : tySigned ty = true
  · have hb := Int.bmod_emod (x := n) (m := 2 ^ tyWidth ty)
    rw [Nat.cast_pow, Nat.cast_ofNat] at hb
    rw [tyRead_signed h, hb]
  · rw [tyRead_unsigned h, Int.natCast_emod, Nat.cast_pow, Nat.cast_ofNat, Int.emod_emod]

/-- An integer within the bounds survives wrapping. -/
theorem tyRead_intWrap {ty : Nat} {z : Int} (hlow : tyMin ty ≤ z) (hhigh : z ≤ tyMax ty) : tyRead ty (intWrap (tyWidth ty) z) = z := by
  have hz := coe_intWrap (tyWidth ty) z
  by_cases h : tySigned ty = true
  · rw [tyMin_signed h] at hlow
    rw [tyMax_signed h] at hhigh
    have hm := Int.emod_bmod (x := z) (n := 2 ^ tyWidth ty)
    rw [Nat.cast_pow, Nat.cast_ofNat] at hm
    rw [tyRead_signed h, hz, hm]
    have hw := two_pow_width ty
    exact Int.bmod_eq_of_le (by omega) (by omega)
  · rw [tyMin_unsigned h] at hlow
    rw [tyMax_unsigned h, Nat.cast_pow, Nat.cast_ofNat] at hhigh
    rw [tyRead_unsigned h, intWrap_mod, hz]
    exact Int.emod_eq_of_lt hlow (by omega)

/-- A typed scalar result looks at the w bits alone (R125). -/
theorem extScalar_mod (ty n : Nat) : extScalar ty (n % 2 ^ tyWidth ty) = extScalar ty n := by
  simp only [extScalar, natSigned, Nat.mod_mod]

/-! ## Fitting (R164) -/

section Fit

variable {sat : Bool} {ty : Nat} {z : Int}

theorem fitInt_within (hlow : tyMin ty ≤ z) (hhigh : z ≤ tyMax ty) (l : Lanes) : fitInt sat ty z l = (intWrap (tyWidth ty) z, l) := by
  simp [fitInt, Int.not_lt.2 hlow, Int.not_lt.2 hhigh]

theorem fitInt_wraps (ty : Nat) (z : Int) (l : Lanes) : fitInt false ty z l = (intWrap (tyWidth ty) z, l) := rfl

theorem fitInt_below (h : z < tyMin ty) (l : Lanes) : fitInt true ty z l = (intWrap (tyWidth ty) (tyMin ty), l.raise fSAT) := by
  simp [fitInt, h]

theorem fitInt_above (h : tyMax ty < z) (l : Lanes) : fitInt true ty z l = (intWrap (tyWidth ty) (tyMax ty), l.raise fSAT) := by
  have hlow : ¬ z < tyMin ty := Int.not_lt.2 ((tyMin_le_tyMax ty).trans h.le)
  simp [fitInt, h, hlow]

end Fit

/-- Settles O2: the bounds by computation, each clause by the case of `fitInt` that it names. -/
theorem integerFit : Obligations.IntegerFit := by
  unfold Obligations.IntegerFit
  refine ⟨by decide, fun sat ty z l _ => ⟨?within, ?below, ?above, ?wraps⟩⟩
  case within =>
    rintro ⟨hlow, hhigh⟩
    rw [fitInt_within hlow hhigh]
    exact ⟨tyRead_intWrap hlow hhigh, rfl⟩
  case below =>
    rintro ⟨h, rfl⟩
    rw [fitInt_below h]
    exact ⟨tyRead_intWrap le_rfl (tyMin_le_tyMax ty), rfl⟩
  case above =>
    rintro ⟨h, rfl⟩
    rw [fitInt_above h]
    exact ⟨tyRead_intWrap (tyMin_le_tyMax ty) le_rfl, rfl⟩
  case wraps =>
    rintro rfl
    rw [fitInt_wraps]
    exact ⟨coe_intWrap .., rfl⟩

end Sys2Proof.Proofs
end

section
/-!
Integer arithmetic (R208, R206): the exact results of the two forms. Then division (R183, R209): the corner of the quotient, the flags that
a loop of divisions leaves, and the divide trap after the elements are written.
-/
namespace Sys2Proof.Proofs

open Sys2Proof Sys2Proof.Machine Sys2Proof.Safety

/-! ## Exact results (R208) -/

theorem natAbs_eq_ite (z : Int) : (z.natAbs : Int) = if z < 0 then -z else z := by omega

theorem natAbs_sub_eq_ite (y z : Int) : ((y - z).natAbs : Int) = if y < z then z - y else y - z := by omega

/-- The high half of a product. -/
theorem intExact_mulh (t : Strand) (i old a b : Nat) (l : Lanes) : intExact (fun w a b => a * b / (2 ^ w : Nat)) t i old a b l =
    (intWrap t.w (tyRead t.ty a * tyRead t.ty b / 2 ^ t.w), l) := by
  rw [intExact, Nat.cast_pow, Nat.cast_ofNat]

theorem intExact_min (t : Strand) (i old a b : Nat) (l : Lanes) : intExact (fun _ a b => if a ≤ b then a else b) t i old a b l =
    (intWrap t.w (min (tyRead t.ty a) (tyRead t.ty b)), l) := by
  rw [intExact, min_def]

theorem intExact_max (t : Strand) (i old a b : Nat) (l : Lanes) : intExact (fun _ a b => if a ≤ b then b else a) t i old a b l =
    (intWrap t.w (max (tyRead t.ty a) (tyRead t.ty b)), l) := by
  rw [intExact, max_def]

theorem intOp_absd (t : Strand) (i old a b : Nat) (l : Lanes) : intOp (fun _ a b => if a < b then b - a else a - b) t i old a b l =
    fitInt (mdSat t.md) t.ty (tyRead t.ty a - tyRead t.ty b).natAbs l := by
  rw [intOp, natAbs_sub_eq_ite]

theorem intOp_abs (t : Strand) (i old a b : Nat) (l : Lanes) : intOp (fun _ a _ => if a < 0 then -a else a) t i old a b l =
    fitInt (mdSat t.md) t.ty (tyRead t.ty a).natAbs l := by
  rw [intOp, natAbs_eq_ite]

/-- Settles O1: each instruction is one operation on its elements, in the two forms of `typed3`. -/
theorem integerArithmetic : Obligations.IntegerArithmetic := by
  unfold Obligations.IntegerArithmetic
  intro s u k g t d a b x ha
  refine ⟨fun h => ⟨?add, ?sub, ?mul, ?mulh, ?min, ?max, ?mac, ?absd, ?abs, ?neg⟩,
    fun h => ⟨?addS, ?subS, ?mulS, ?mulhS, ?minS, ?maxS, ?macS, ?absdS, ?absS, ?negS⟩⟩
  case add | sub | mul | mac => exact Laws.vec3_of rfl ha h fun _ _ => rfl
  case mulh => exact Laws.vec3_of rfl ha h fun j l => intExact_mulh t j _ _ _ l
  case min => exact Laws.vec3_of rfl ha h fun j l => intExact_min t j _ _ _ l
  case max => exact Laws.vec3_of rfl ha h fun j l => intExact_max t j _ _ _ l
  case absd => exact Laws.vec3_of rfl ha h fun j l => intOp_absd t j _ _ _ l
  case abs => exact Laws.vec2_of rfl ha h fun j l => intOp_abs t j _ _ _ l
  case neg => exact Laws.vec2_of rfl ha h fun _ _ => rfl
  case addS | subS | mulS | macS => exact Laws.sca3_of rfl ha h fun _ => rfl
  case mulhS => exact Laws.sca3_of rfl ha h fun l => intExact_mulh t _ _ _ _ l
  case minS => exact Laws.sca3_of rfl ha h fun l => intExact_min t _ _ _ _ l
  case maxS => exact Laws.sca3_of rfl ha h fun l => intExact_max t _ _ _ _ l
  case absdS => exact Laws.sca3_of rfl ha h fun l => intOp_absd t _ _ _ _ l
  case absS => exact Laws.sca2_of rfl ha h fun l => intOp_abs t _ _ _ _ l
  case negS => exact Laws.sca2_of rfl ha h fun _ => rfl

/-! ## Quotients and remainders (R183) -/

/-- The corner of R183: the most negative value by -1 wraps to itself. -/
theorem intWrap_neg_tyMin {ty : Nat} (h : tySigned ty = true) : intWrap (tyWidth ty) (-tyMin ty) = intWrap (tyWidth ty) (tyMin ty) := by
  have hw : -tyMin ty = tyMin ty + 2 ^ tyWidth ty := by
    have e := two_pow_width ty
    rw [tyMin_signed h]
    zify at e
    rw [e]
    push_cast
    ring
  exact intWrap_congr (by rw [hw, Int.add_emod_right])

theorem divOp_quotient (t : Strand) (i old p q : Nat) (l : Lanes) : divOp Prod.fst t i old p q l =
    if tyRead t.ty q = 0 then (intWrap t.w (if tySigned t.ty then -1 else tyMax t.ty), { l with flags := l.flags ||| fDZ })
    else (intWrap t.w ((tyRead t.ty p).tdiv (tyRead t.ty q)), l) := by
  unfold divOp divRem
  split
  · next h => simp only [h, decide_true]; rfl
  · next h =>
    simp only [h, decide_false]
    split
    · next hc =>
      obtain ⟨hs, hp, hq⟩ := hc
      rw [hp, hq, Int.tdiv_neg, Int.tdiv_one, Strand.w, intWrap_neg_tyMin hs]
      rfl
    · rfl

theorem divOp_remainder (t : Strand) (i old p q : Nat) (l : Lanes) : divOp Prod.snd t i old p q l =
    if tyRead t.ty q = 0 then (intWrap t.w (tyRead t.ty p), { l with flags := l.flags ||| fDZ })
    else (intWrap t.w ((tyRead t.ty p).tmod (tyRead t.ty q)), l) := by
  unfold divOp divRem
  split
  · next h => simp only [h, decide_true]; rfl
  · next h =>
    simp only [h, decide_false]
    split
    · next hc =>
      obtain ⟨-, hp, hq⟩ := hc
      rw [hq, Int.tmod_neg, Int.tmod_one]
      rfl
    · rfl

/-! ## The divide trap (R209) -/

/-- A flag raised twice. -/
theorem raiseIf_raiseIf (l : Lanes) (c e : Bool) (f : BitVec 6) : (l.raiseIf c f).raiseIf e f = l.raiseIf (c || e) f := by
  cases c <;> cases e <;> simp [Lanes.raiseIf, Lanes.raise, BitVec.or_assoc]

/-- A loop whose operation raises one flag under a condition raises it when an active element meets the condition, and does nothing else
to flags and generators. -/
theorem loop_raiseIf {w n : Nat} {act z : Nat → Bool} {op : Nat → Lanes → Nat × Lanes} {old new : VReg} {l0 l1 : Lanes} {f : BitVec 6}
    (h : Loop w act n op old new l0 l1) (hop : ∀ j l, (op j l).2 = l.raiseIf (z j) f) :
    l1 = l0.raiseIf ((List.range n).any fun j => act j && z j) f := by
  obtain ⟨ls, h0, h1, hnext, -⟩ := h
  have hm (m : Nat) (hmn : m ≤ n) : ls m = l0.raiseIf ((List.range m).any fun j => act j && z j) f := by
    induction m with
    | zero => exact h0
    | succ m ih =>
      rw [hnext m hmn, ih (Nat.le_of_succ_le hmn), List.range_succ, List.any_append, List.any_cons, List.any_nil, Bool.or_false,
        ← raiseIf_raiseIf, hop]
      cases act m <;> rfl
  exact h1 ▸ hm n le_rfl

/-- The trap looks at the flags of this instruction alone, and ST keeps those from before it. -/
theorem withDivTrap_of_done {f : Strand → Eff Strand} {t t' : Strand} {e : BitVec 6} (hf : f { t with st := 0 } = .done ({ t' with st := 0 }.flag e))
    (ht : t'.st = t.st) :
    withDivTrap f t = if mdDzt t.md && e.getLsbD 0 then .trapNext (t'.flag e) (trapOf 0x05 0 0) else .done (t'.flag e) := by
  have h0 : 0 ||| e = e := BitVec.zero_or
  rw [withDivTrap, hf]
  dsimp only [Strand.flag]
  rw [h0, BitVec.or_comm e, ht]

/-- An effect on the strand that ends in a trap after it. -/
theorem exec_of_trapNext {i : Instr} {s : State} {u k : Nat} {g : Group} {t t' : Strand} {f : Strand → Eff Strand} {c : Trap}
    (ha : Acts s u k g t) (he : exec i s = runS f s) (hf : f t = .trapNext t' c) :
    exec i s = .next ((s.modStrand u k fun _ => t').takeTrap u k c (nextPc t.pc 4)) := by
  rw [he, runS, Laws.runM_next ha, liftS, hf]
  rfl

/-- A conditional flag leaves the generators. -/
theorem raiseIf_gens (l : Lanes) (c : Bool) (f : BitVec 6) : (l.raiseIf c f).gens = l.gens := by
  cases c <;> rfl

theorem getLsbD_raiseIf_fDZ {l : Lanes} (h : l.flags = 0) (c : Bool) : (l.raiseIf c fDZ).flags.getLsbD 0 = c := by
  cases c <;> simp [Lanes.raiseIf, Lanes.raise, h, fDZ]

section Division

variable {i : BitVec 1 → Instr} {f : Int × Int → Int} {op : Int → Int → Lanes → Nat × Lanes} {s : State} {u k : Nat} {g : Group} {t : Strand}
  {d a b : BitVec 6} {x : BitVec 1}

/-- The vector form with ST cleared: only the flags of this instruction stand there. -/
theorem divOp_vector_cleared (h : Ready tyInt t) : typed3 tyInt d a b 0 x (divOp f) { t with st := 0 } =
    let e := elemLoop t.w t.active (fun j => divOp f t j (elemB t d j) (elemB t a j) (t.opB b x j)) t.el 0 (t.vreg d) (lanes0 t)
    .done ({ { t.setV d e.1 with gens := e.2.gens } with st := 0 }.flag e.2.flags) :=
  (Laws.typed3_vec (t := { t with st := 0 }) h).trans rfl

/-- The scalar form with ST cleared. -/
theorem divOp_scalar_cleared (h : Typed tyInt t) : typed3 tyInt d a b 1 x (divOp f) { t with st := 0 } =
    let e := divOp f t 0 (scaB t d) (scaB t a) (scaB t b) (lanes0 t)
    .done ({ { t.setX d (extScalar t.ty e.1) with gens := e.2.gens } with st := 0 }.flag e.2.flags) :=
  (Laws.typed3_sca (t := { t with st := 0 }) h.1 h.2).trans rfl

/-- Some active divisor is zero. -/
def zeroDivides (t : Strand) (b : BitVec 6) (x : BitVec 1) : Bool := (List.range t.el).any fun j => t.active j && decide (opBI t b x j = 0)

theorem zeroDivides_iff : zeroDivides t b x = true ↔ ∃ j, j < t.el ∧ t.active j = true ∧ opBI t b x j = 0 := by
  simp [zeroDivides]

variable (ho : ∀ j old p q l, divOp f t j old p q l = op (tyRead t.ty p) (tyRead t.ty q) l)
include ho

/-- A division raises DZ for a zero divisor, and does nothing else to flags and generators. -/
theorem division_lanes (p q : Nat) (l : Lanes) : (op (tyRead t.ty p) (tyRead t.ty q) l).2 = l.raiseIf (decide (tyRead t.ty q = 0)) fDZ :=
  congrArg Prod.snd (ho 0 0 p q l).symm

/-- The vector form ends after its element loop, in the trap when an active divisor is zero. -/
theorem divide_vector (h : Ready tyInt t) : ∃ r l, Loop t.w t.active t.el (fun j => op (elemI t a j) (opBI t b x j)) (t.vreg d) r (lanes0 t) l ∧
    l.gens = t.gens ∧ withDivTrap (typed3 tyInt d a b 0 x (divOp f)) t = if mdDzt t.md && zeroDivides t b x
      then .trapNext { (t.setV d r).flag l.flags with gens := l.gens } (trapOf 0x05 0 0)
      else .done { (t.setV d r).flag l.flags with gens := l.gens } := by
  have hop : (fun j => divOp f t j (elemB t d j) (elemB t a j) (t.opB b x j)) = fun j => op (elemI t a j) (opBI t b x j) :=
    funext fun j => funext fun l => ho ..
  have hloop := Laws.elemLoop_loop t.active (fun j => op (elemI t a j) (opBI t b x j)) (t.vreg d) (lanes0 t) (Laws.el_mul h.2.2)
  have hl := loop_raiseIf hloop fun j l => division_lanes ho _ _ l
  refine ⟨_, _, hloop, (congrArg Lanes.gens hl).trans (raiseIf_gens ..), ?_⟩
  have hflag := (congrArg (fun l => l.flags.getLsbD 0) hl).trans (getLsbD_raiseIf_fDZ (l := lanes0 t) rfl (zeroDivides t b x))
  rw [withDivTrap_of_done (divOp_vector_cleared h) rfl, hop]
  exact congrArg (fun c => if mdDzt t.md && c then _ else _) hflag

/-- The scalar form ends after its one result, in the trap when its divisor is zero. -/
theorem divide_scalar (h : Typed tyInt t) : withDivTrap (typed3 tyInt d a b 1 x (divOp f)) t = if mdDzt t.md && decide (scaI t b = 0)
    then .trapNext (scalarForm t d (op (scaI t a) (scaI t b))) (trapOf 0x05 0 0) else .done (scalarForm t d (op (scaI t a) (scaI t b))) := by
  have hop : divOp f t 0 (scaB t d) (scaB t a) (scaB t b) = op (scaI t a) (scaI t b) := funext fun l => ho ..
  have hflag := (congrArg (fun l => l.flags.getLsbD 0) (division_lanes ho (scaB t a) (scaB t b) (lanes0 t))).trans
    (getLsbD_raiseIf_fDZ (l := lanes0 t) rfl (decide (scaI t b = 0)))
  rw [withDivTrap_of_done (divOp_scalar_cleared h) rfl, hop]
  exact congrArg (fun c => if mdDzt t.md && c then _ else _) hflag

variable (ha : Acts s u k g t) (he : ∀ m, exec (i m) s = runS (withDivTrap (typed3 tyInt d a b m x (divOp f))) s)
include ha he

theorem divide_vector_completes (h : Ready tyInt t) (hz : mdDzt t.md = false ∨ ∀ j, t.active j = true → opBI t b x j ≠ 0) :
    VecForm (i 0) s u k t d fun j => op (elemI t a j) (opBI t b x j) := by
  obtain ⟨r, l, hloop, -, e⟩ := divide_vector (d := d) (a := a) (b := b) (x := x) ho h
  refine ⟨r, l, hloop, Laws.becomes_of (he 0) ha (e.trans (if_neg ?_))⟩
  rw [Bool.and_eq_true, zeroDivides_iff]
  rintro ⟨hd, j, -, hj, hq⟩
  exact hz.elim (fun h => Bool.false_ne_true (h.symm.trans hd)) fun h => h j hj hq

theorem divide_vector_traps (h : Ready tyInt t) (hd : mdDzt t.md = true) (hz : ∃ j, j < t.el ∧ t.active j = true ∧ opBI t b x j = 0) :
    ∃ r l, Loop t.w t.active t.el (fun j => op (elemI t a j) (opBI t b x j)) (t.vreg d) r (lanes0 t) l ∧
      exec (i 0) s = .next ((s.modStrand u k fun _ => (t.setV d r).flag l.flags).takeTrap u k (trapOf 0x05 0 0) (nextPc t.pc 4)) := by
  obtain ⟨r, l, hloop, hgens, e⟩ := divide_vector (d := d) (a := a) (b := b) (x := x) ho h
  rw [hgens] at e
  exact ⟨r, l, hloop, exec_of_trapNext ha (he 0) (e.trans (if_pos ((Bool.and_eq_true ..).mpr ⟨hd, zeroDivides_iff.2 hz⟩)))⟩

theorem divide_scalar_completes (h : Typed tyInt t) (hz : mdDzt t.md = false ∨ scaI t b ≠ 0) :
    ScalarForm (i 1) s u k t d (op (scaI t a) (scaI t b)) := by
  refine Laws.scalarForm_of (he 1) ha ((divide_scalar ho h).trans (if_neg ?_))
  rw [Bool.and_eq_true, decide_eq_true_iff]
  rintro ⟨hd, hq⟩
  exact hz.elim (fun h => Bool.false_ne_true (h.symm.trans hd)) fun h => h hq

theorem divide_scalar_traps (h : Typed tyInt t) (hd : mdDzt t.md = true) (hz : scaI t b = 0) :
    exec (i 1) s = .next ((s.modStrand u k fun _ => (t.setX d (extScalar t.ty (op (scaI t a) 0 (lanes0 t)).1)).flag fDZ).takeTrap
      u k (trapOf 0x05 0 0) (nextPc t.pc 4)) := by
  have h0 : (lanes0 t).raise fDZ = { flags := fDZ, gens := t.gens } := congrArg (Lanes.mk · t.gens) BitVec.zero_or
  have hl := (division_lanes ho (scaB t a) (scaB t b) (lanes0 t)).trans ((congrArg ((lanes0 t).raiseIf · fDZ) (decide_eq_true hz)).trans h0)
  have hform : scalarForm t d (op (scaI t a) (scaI t b)) = (t.setX d (extScalar t.ty (op (scaI t a) 0 (lanes0 t)).1)).flag fDZ := by
    have e : scalarForm t d (op (scaI t a) (scaI t b)) =
      { (t.setX d (extScalar t.ty (op (scaI t a) (scaI t b) (lanes0 t)).1)).flag (op (scaI t a) (scaI t b) (lanes0 t)).2.flags with
        gens := (op (scaI t a) (scaI t b) (lanes0 t)).2.gens } := rfl
    rw [← hz, e]
    exact hl ▸ rfl
  rw [← hform]
  exact exec_of_trapNext ha (he 1) ((divide_scalar ho h).trans (if_pos ((Bool.and_eq_true ..).mpr ⟨hd, decide_eq_true hz⟩)))

end Division

/-- Settles O3: DIV and REM by what `withDivTrap` makes of the quotient and of the remainder. -/
theorem integerDivision : Obligations.IntegerDivision := by
  unfold Obligations.IntegerDivision
  intro s u k g t d a b x ha quo rem
  have hq (j old p q : Nat) (l : Lanes) : divOp Prod.fst t j old p q l = quo (tyRead t.ty p) (tyRead t.ty q) l := divOp_quotient ..
  have hr (j old p q : Nat) (l : Lanes) : divOp Prod.snd t j old p q l = rem (tyRead t.ty p) (tyRead t.ty q) l := divOp_remainder ..
  have hdiv (m : BitVec 1) : exec (.div d a b m x) s = runS (withDivTrap (typed3 tyInt d a b m x (divOp Prod.fst))) s := rfl
  have hrem (m : BitVec 1) : exec (.rem d a b m x) s = runS (withDivTrap (typed3 tyInt d a b m x (divOp Prod.snd))) s := rfl
  refine ⟨fun h hz => ⟨?_, ?_⟩, fun h hz => ⟨?_, ?_⟩, fun h hd hz => ⟨?_, ?_⟩, fun h hd hz => ⟨?_, ?_⟩⟩
  · exact divide_vector_completes hq ha hdiv h hz
  · exact divide_vector_completes hr ha hrem h hz
  · exact divide_scalar_completes hq ha hdiv h hz
  · exact divide_scalar_completes hr ha hrem h hz
  · exact divide_scalar_traps hq ha hdiv h hd hz
  · exact divide_scalar_traps hr ha hrem h hd hz
  · exact divide_vector_traps hq ha hdiv h hd hz
  · exact divide_vector_traps hr ha hrem h hd hz

end Sys2Proof.Proofs
end

section
/-!
Reductions (R182, R217, R239): over an associative operation the fixed tree gives the same root as a fold over the active elements in order.
-/
namespace Sys2Proof.Proofs

open Sys2Proof Sys2Proof.Machine Sys2Proof.Safety

/-! ## The fixed tree over an associative operation (R182) -/

section Tree

variable {α β : Type} {f : α → α → α} (hassoc : ∀ x y z, f (f x y) z = f x (f y z))

include hassoc in
theorem merge_assoc (x y z : Option α) : Option.merge f (Option.merge f x y) z = Option.merge f x (Option.merge f y z) := by
  cases x <;> cases y <;> cases z <;> simp [Option.merge, hassoc]

/-- A node of the tree without state. -/
def pureNode (f : α → α → α) (_ : Nat) (x y : α) (u : Unit) : α × Unit := (f x y, u)

include hassoc in
/-- A level merges neighbours, so it keeps what a fold over the positions gives. -/
theorem foldl_treeLevel (z : Option α) (i : Nat) (ns : List (Option α)) (u : Unit) :
    (treeLevel (pureNode f) i ns u).1.foldl (Option.merge f) z = ns.foldl (Option.merge f) z := by
  induction i, ns, u using treeLevel.induct (pureNode f) generalizing z with
  | case1 i a b r u c l1 hc cs l2 hr ih =>
    obtain ⟨rfl, rfl⟩ := Prod.mk.inj hc
    rw [treeLevel]
    simp only [pureNode, List.foldl_cons, ih, merge_assoc hassoc]
    rfl
  | case2 i a r u cs l2 hr ih =>
    rw [treeLevel]
    simp only [List.foldl_cons, ih, Option.merge_none_right]
  | case3 i o r u cs l2 hr ih =>
    rw [treeLevel]
    simp only [List.foldl_cons, ih, Option.merge_none_right]
  | case4 i o u => cases o <;> rfl
  | case5 i u => rfl

/-- A level halves the number of positions. -/
theorem length_treeLevel (g : Nat → α → α → β → α × β) (i : Nat) (ns : List (Option α)) (l : β) :
    (treeLevel g i ns l).1.length = (ns.length + 1) / 2 := by
  induction i, ns, l using treeLevel.induct g with
  | case1 i a b r l c l1 hc cs l2 hr ih =>
    rw [treeLevel]
    simp only [hc, List.length_cons, ih]
    omega
  | case2 i a r l cs l2 hr ih =>
    rw [treeLevel]
    simp only [List.length_cons, ih]
    omega
  | case3 i o r l cs l2 hr ih =>
    rw [treeLevel]
    simp only [List.length_cons, ih]
    omega
  | case4 i o l => simp [treeLevel]
  | case5 i l => simp [treeLevel]

include hassoc in
theorem treeReduce_eq_foldl (n : Nat) (ns : List (Option α)) (h : ns.length ≤ 2 ^ n) :
    (treeReduce (pureNode f) n ns ()).1 = ns.foldl (Option.merge f) none := by
  induction n generalizing ns with
  | zero =>
    match ns, h with
    | [], _ => rfl
    | [o], _ => cases o <;> rfl
  | succ n ih =>
    rw [Nat.pow_succ] at h
    rw [← foldl_treeLevel hassoc none 0 ns ()]
    exact ih _ (by rw [length_treeLevel]; omega)

/-- The fold of the positions whose index is selected, from the first of them on. -/
theorem foldl_merge_some (p : Nat → Bool) (v : Nat → α) (x : α) (is : List Nat) :
    (is.map fun i => if p i then some (v i) else none).foldl (Option.merge f) (some x) = some (((is.filter p).map v).foldl f x) := by
  induction is generalizing x with
  | nil => rfl
  | cons i is ih =>
    rw [List.map_cons, List.foldl_cons, List.filter_cons]
    cases p i
    · exact ih x
    · exact ih (f x (v i))

/-- With a left identity of the leaves in the place of an absent root, the fold of all of them. -/
theorem foldl_merge_getD (p : Nat → Bool) (v : Nat → α) (e : α) (is : List Nat) (he : ∀ i, f e (v i) = v i) :
    ((is.map fun i => if p i then some (v i) else none).foldl (Option.merge f) none).getD e = ((is.filter p).map v).foldl f e := by
  induction is with
  | nil => rfl
  | cons i is ih =>
    rw [List.map_cons, List.foldl_cons, List.filter_cons]
    cases p i
    · exact ih
    · have h := foldl_merge_some (f := f) p v (v i) is
      simp only [if_true, List.map_cons, List.foldl_cons, he]
      exact congrArg (Option.getD · e) h

end Tree

/-! ## Integer reductions (R217) -/

/-- The active elements of vN as integers, and as raw bits. -/
def activeInts (t : Strand) (a : BitVec 6) : List Int := ((List.range t.el).filter t.active).map (elemI t a)
def activeBits (t : Strand) (a : BitVec 6) : List Nat := ((List.range t.el).filter t.active).map (elemB t a)

/-- The register holds at most 1,024 elements (R124). -/
theorem el_le_1024 {t : Strand} (h : t.shapeBad = false) : t.el ≤ 2 ^ 10 := by
  have hw : 8 ≤ tyWidth t.ty := by
    unfold tyWidth
    split <;> decide
  exact (Laws.el_le_cap h).trans (Nat.div_le_div_left hw (by decide))

theorem leaves_ints (t : Strand) (a : BitVec 6) : ((t.leaves a).map fun o => o.map fun n => tyRead t.ty n) =
    (List.range t.el).map fun i => if t.active i then some (elemI t a i) else none := by
  rw [Strand.leaves, List.map_map]
  refine List.map_congr_left fun i _ => ?_
  dsimp only [Function.comp]
  split <;> rfl

/-- An integer reduction folds the active elements from its identity, and fits the result. -/
theorem redForm_done {t : Strand} {d a : BitVec 6} {f : Strand → Int → Int → Int} {ident : Nat → Int} (h : Ready tyInt t)
    (hassoc : ∀ x y z, f t (f t x y) z = f t x (f t y z)) (he : ∀ n, f t (ident t.ty) (tyRead t.ty n) = tyRead t.ty n) :
    redForm d a f ident t = .done ((t.setX d (extScalar t.ty (fitInt (mdSat t.md) t.ty ((activeInts t a).foldl (f t) (ident t.ty)) (lanes0 t)).1)).flag
      (fitInt (mdSat t.md) t.ty ((activeInts t a).foldl (f t) (ident t.ty)) (lanes0 t)).2.flags) := by
  have hroot : (treeReduce (pureNode (f t)) 10 ((t.leaves a).map fun o => o.map fun n => tyRead t.ty n) ()).1.getD (ident t.ty) =
      (activeInts t a).foldl (f t) (ident t.ty) := by
    rw [leaves_ints, treeReduce_eq_foldl hassoc 10 _ (by rw [List.length_map, List.length_range]; exact el_le_1024 h.2.2)]
    exact foldl_merge_getD _ _ _ _ fun i => he _
  rw [← hroot]
  exact (withType_typed ⟨h.1, h.2.1⟩ _).trans (withShape_fits h.2.2 _)

theorem flag_zero (t : Strand) : t.flag 0 = t := by
  have h : t.st ||| 0 = t.st := BitVec.or_zero
  rw [Strand.flag, h]

/-- A reduction whose fold lies within the bounds raises no flag. -/
theorem redForm_within {t : Strand} {d a : BitVec 6} {f : Strand → Int → Int → Int} {ident : Nat → Int} (h : Ready tyInt t)
    (hassoc : ∀ x y z, f t (f t x y) z = f t x (f t y z)) (he : ∀ n, f t (ident t.ty) (tyRead t.ty n) = tyRead t.ty n)
    (hb : tyMin t.ty ≤ (activeInts t a).foldl (f t) (ident t.ty) ∧ (activeInts t a).foldl (f t) (ident t.ty) ≤ tyMax t.ty) :
    redForm d a f ident t = .done (t.setX d (extScalar t.ty (intWrap t.w ((activeInts t a).foldl (f t) (ident t.ty))))) := by
  rw [redForm_done h hassoc he, fitInt_within hb.1 hb.2]
  exact congrArg Eff.done (flag_zero _)

/-- A fold of a choice among readings stays within the bounds. -/
theorem foldl_bounds {t : Strand} {a : BitVec 6} {f : Int → Int → Int} {e : Int} (hf : ∀ x y, f x y = x ∨ f x y = y)
    (he : tyMin t.ty ≤ e ∧ e ≤ tyMax t.ty) :
    tyMin t.ty ≤ (activeInts t a).foldl f e ∧ (activeInts t a).foldl f e ≤ tyMax t.ty := by
  refine List.foldlRecOn (motive := fun z => tyMin t.ty ≤ z ∧ z ≤ tyMax t.ty) _ _ he fun z hz y hy => ?_
  obtain ⟨j, -, rfl⟩ := List.mem_map.1 hy
  rcases hf z (elemI t a j) with h | h
  · exact h.symm ▸ hz
  · exact h.symm ▸ tyRead_bounds ..

/-! ### Bitwise reductions -/

section Bits

variable {g : Nat → Nat → Nat} (hmod : ∀ w x y, g x y % 2 ^ w = g (x % 2 ^ w) (y % 2 ^ w))

include hmod in
/-- The bitwise combination of two readings is the reading of the combination. -/
theorem bitComb_tyRead (t : Strand) (m n : Nat) : bitComb g t (tyRead t.ty m) (tyRead t.ty n) = tyRead t.ty (g m n) := by
  rw [bitComb, Strand.w, intWrap_tyRead, intWrap_tyRead, ← hmod, tyRead_mod]

include hmod in
theorem bitComb_assoc (hassoc : ∀ x y z, g (g x y) z = g x (g y z)) (t : Strand) (x y z : Int) :
    bitComb g t (bitComb g t x y) z = bitComb g t x (bitComb g t y z) := by
  have hleft (m : Nat) : bitComb g t (tyRead t.ty m) z = tyRead t.ty (g m (intWrap t.w z)) := by
    rw [bitComb, Strand.w, intWrap_tyRead, ← intWrap_mod, ← hmod, tyRead_mod, intWrap_mod]
  have hright (n : Nat) : bitComb g t x (tyRead t.ty n) = tyRead t.ty (g (intWrap t.w x) n) := by
    rw [bitComb, Strand.w, intWrap_tyRead, ← intWrap_mod, ← hmod, tyRead_mod, intWrap_mod]
  exact (hleft _).trans ((congrArg _ (hassoc ..)).trans (hright _).symm)

include hmod in
/-- A bitwise reduction folds the raw bits of the active elements. -/
theorem redForm_bits {t : Strand} {d a : BitVec 6} {ident : Nat → Int} {e : Nat} (h : Ready tyInt t) (hassoc : ∀ x y z, g (g x y) z = g x (g y z))
    (hident : ident t.ty = tyRead t.ty e) (he : ∀ n, tyRead t.ty (g e n) = tyRead t.ty n) :
    redForm d a (bitComb g) ident t = .done (t.setX d (extScalar t.ty ((activeBits t a).foldl g e))) := by
  have hfold : (activeInts t a).foldl (bitComb g t) (ident t.ty) = tyRead t.ty ((activeBits t a).foldl g e) := by
    have hints : activeInts t a = (activeBits t a).map (tyRead t.ty) := (List.map_map ..).symm
    rw [hints, List.foldl_map, hident]
    exact List.foldl_hom (tyRead t.ty) fun m n => bitComb_tyRead hmod t m n
  rw [redForm_within h (bitComb_assoc hmod hassoc t) (fun n => by rw [hident, bitComb_tyRead hmod, he]) (hfold ▸ tyRead_bounds ..), hfold,
    Strand.w, intWrap_tyRead, extScalar_mod]

end Bits

/-! ## Floating reductions (R239) -/

/-- A combining node of FRSUM: the sum of two values rounded to f32 or f64, with the draw of its lane. -/
def roundedSum (t : Strand) (i : Nat) (x y : Val) (l : Lanes) : Val × Lanes :=
  let (u, l1) := l.drawIf (mdRound t.md) (i % 32)
  let s := x.add (mdRound t.md) y
  let (c, f) := roundTo (mdSat t.md) (mdRound t.md) (sumType t.ty) s.1 u
  (decodeVal (sumType t.ty) c, (l1.raise s.2).raise f)

/-- What FRMIN (`big` false) and FRMAX make of the root: the identity where no element is active, else the value normalised. -/
def pickRoot (ty : Nat) (big : Bool) : Option Nat → Nat × BitVec 6
  | none => (redIdent ty big, 0)
  | some c => pickOp ty big c c

section Float

variable {t : Strand} {d a : BitVec 6} (h : Ready tyFP t)
include h

theorem frsumE_done {sum : Option Val × Lanes} {out : Nat × BitVec 6}
    (hs : treeReduce (roundedSum t) 10 ((t.leaves a).map fun o => o.map (decodeVal t.ty)) (lanes0 t) = sum)
    (ho : roundTo (mdSat t.md) 0 (sumType t.ty) (sum.1.getD .zero) 0 = out) :
    frsumE d a t = .done { (t.setX d (BitVec.ofNat 64 out.1)).flag (sum.2.flags ||| out.2) with gens := sum.2.gens } := by
  rw [frsumE, withType_typed ⟨h.1, h.2.1⟩, withShape_fits h.2.2]
  dsimp only
  generalize hT : treeReduce _ 10 _ _ = T
  obtain rfl : T = sum := hT.symm.trans hs
  generalize hR : roundTo (mdSat t.md) 0 _ _ 0 = R
  obtain rfl : R = out := hR.symm.trans ho
  rfl

theorem fpickE_done {big : Bool} {pick : Option Nat × Lanes} (hp : treeReduce (fun _ => pickLanes t.ty big) 10 (t.leaves a) (lanes0 t) = pick) :
    fpickE big d a t =
      .done ((t.setX d (extScalar t.ty (pickRoot t.ty big pick.1).1)).flag (pick.2.flags ||| (pickRoot t.ty big pick.1).2)) := by
  rw [fpickE, withType_typed ⟨h.1, h.2.1⟩, withShape_fits h.2.2]
  dsimp only
  generalize hT : treeReduce _ 10 _ _ = T
  obtain rfl : T = pick := hT.symm.trans hp
  obtain ⟨root, l⟩ := T
  cases root <;> rfl

end Float

/-! ## The statement -/

/-- Settles O8: each integer reduction folds from its identity; the floating ones are the fixed tree itself. -/
theorem reductions : Obligations.Reductions := by
  unfold Obligations.Reductions
  refine ⟨?integer, ?floating⟩
  case integer =>
    intro s u k g t d a ha h ints bits sum
    have hmin : (fun x y : Int => if x ≤ y then x else y) = min := funext fun x => funext fun y => (min_def x y).symm
    have hmax : (fun x y : Int => if x ≤ y then y else x) = max := funext fun x => funext fun y => (max_def x y).symm
    refine ⟨?sum, ?min, ?max, ?and, ?or, ?xor⟩
    case sum =>
      have e := redForm_done (d := d) (a := a) (f := fun _ x y => x + y) (ident := fun _ => 0) h add_assoc fun _ => zero_add _
      refine Laws.becomes_of (f := rsumE d a) rfl ha (e.trans ?_)
      rw [← List.sum_eq_foldl]
      rfl
    case min =>
      have e := redForm_within (d := d) (a := a) (f := fun _ => min) (ident := tyMax) h min_assoc (fun n => min_eq_right (tyRead_bounds t.ty n).2)
        (foldl_bounds min_choice ⟨tyMin_le_tyMax t.ty, le_rfl⟩)
      exact Laws.becomes_of (f := rminE d a) rfl ha ((congrArg (fun f => redForm d a (fun _ => f) tyMax t) hmin).trans e)
    case max =>
      have e := redForm_within (d := d) (a := a) (f := fun _ => max) (ident := tyMin) h max_assoc (fun n => max_eq_right (tyRead_bounds t.ty n).1)
        (foldl_bounds max_choice ⟨le_rfl, tyMin_le_tyMax t.ty⟩)
      exact Laws.becomes_of (f := rmaxE d a) rfl ha ((congrArg (fun f => redForm d a (fun _ => f) tyMin t) hmax).trans e)
    case and =>
      refine Laws.becomes_of (f := randE d a) rfl ha (redForm_bits (fun _ _ _ => Nat.and_mod_two_pow) h Nat.and_assoc rfl fun n => ?_)
      rw [Nat.and_comm, Nat.and_two_pow_sub_one_eq_mod]
      exact tyRead_mod ..
    case or =>
      refine Laws.becomes_of (f := rorE d a) rfl ha (redForm_bits (fun _ _ _ => Nat.or_mod_two_pow) h Nat.or_assoc (tyRead_zero _).symm fun n => ?_)
      rw [Nat.zero_or]
    case xor =>
      refine Laws.becomes_of (f := rxorE d a) rfl ha (redForm_bits (fun _ _ _ => Nat.xor_mod_two_pow) h Nat.xor_assoc (tyRead_zero _).symm fun n => ?_)
      rw [Nat.zero_xor]
  case floating =>
    intro s u k g t d a ha h ft rm leaves sumNode sum out pick result
    have hs : treeReduce (roundedSum t) 10 ((t.leaves a).map fun o => o.map (decodeVal t.ty)) (lanes0 t) = sum := rfl
    have ho : roundTo (mdSat t.md) 0 (sumType t.ty) (sum.1.getD .zero) 0 = out := rfl
    have hp (big : Bool) : treeReduce (fun _ => pickLanes t.ty big) 10 (t.leaves a) (lanes0 t) = pick big := rfl
    have hr (big : Bool) : pickRoot t.ty big (pick big).1 = result big := by
      dsimp only [result]
      cases (pick big).1 <;> rfl
    have hpick (big : Bool) := fpickE_done (d := d) h (hp big)
    simp only [hr] at hpick
    exact ⟨Laws.becomes_of (f := frsumE d a) rfl ha (frsumE_done h hs ho), Laws.becomes_of (f := frminE d a) rfl ha (hpick false),
      Laws.becomes_of (f := frmaxE d a) rfl ha (hpick true)⟩

end Sys2Proof.Proofs
end

section
/-!
Logic operations, shifts, rotates and counts (R210) and the immediate forms (R211, R212): what each operation gives on numbers of w bits, once for
the elements, the typed scalars and the 64-bit words.
-/
namespace Sys2Proof.Proofs

open Sys2Proof Sys2Proof.Machine Sys2Proof.Safety

/-! ## Operations on w bits (R210) -/

theorem opB_lt (t : Strand) (b : BitVec 6) (x : BitVec 1) (j : Nat) : t.opB b x j < 2 ^ t.w := by
  unfold Strand.opB
  split
  · exact scaB_lt t b
  · exact elemB_lt t b j

/-- The complement of a number of w bits. -/
theorem complement_lt (w n : Nat) : 2 ^ w - 1 - n < 2 ^ w := by
  have hw := Nat.two_pow_pos w
  omega

theorem shlN_mod (w p c : Nat) : shlN w p c % 2 ^ w = if w ≤ c then 0 else (p <<< c) % 2 ^ w := by
  rw [shlN, Nat.shiftLeft_eq]
  split
  · exact Nat.zero_mod _
  · exact Nat.mod_mod ..

theorem shrN_mod {w p : Nat} (hp : p < 2 ^ w) (c : Nat) : shrN w p c % 2 ^ w = if w ≤ c then 0 else p >>> c := by
  rw [shrN, Nat.mod_eq_of_lt hp, Nat.shiftRight_eq_div_pow]
  split
  · exact Nat.zero_mod _
  · exact Nat.mod_eq_of_lt (Nat.lt_of_le_of_lt (Nat.div_le_self ..) hp)

/-- A count of w or more copies the sign bit. -/
theorem shraN_eq (w p c : Nat) : shraN w p c = intWrap w (natSigned w p >>> min c w) := by
  rw [shraN, Int.shiftRight_eq_div_pow, min_comm, min_def]

theorem shraN_mod (w p c : Nat) : shraN w p c % 2 ^ w = intWrap w (natSigned w p >>> min c w) := by
  rw [shraN_eq, intWrap_mod]

/-- The two halves of a rotation share no bit. -/
theorem rolN_eq {w p : Nat} (hw : 0 < w) (hp : p < 2 ^ w) (c : Nat) : rolN w p c = (p <<< (c % w) ||| p >>> (w - c % w)) % 2 ^ w := by
  have hlow : p >>> (w - c % w) < 2 ^ (c % w) := by
    rw [Nat.shiftRight_eq_div_pow, Nat.div_lt_iff_lt_mul (Nat.two_pow_pos _), ← Nat.pow_add, Nat.add_sub_cancel' (Nat.mod_lt c hw).le]
    exact hp
  rw [rolN, Nat.mod_eq_of_lt hp, ← Nat.shiftLeft_add_eq_or_of_lt hlow, Nat.shiftLeft_eq, Nat.shiftRight_eq_div_pow]

theorem rolN_mod {w p : Nat} (hw : 0 < w) (hp : p < 2 ^ w) (c : Nat) : rolN w p c % 2 ^ w = (p <<< (c % w) ||| p >>> (w - c % w)) % 2 ^ w := by
  rw [rolN_eq hw hp, Nat.mod_mod]

/-- The count of 1 bits is the number of indices that hold one. -/
theorem popN_eq (w p : Nat) : popN w p = ((List.range w).filter fun n => p.testBit n).length := by
  induction w generalizing p with
  | zero => rfl
  | succ w ih =>
    have hshift : (fun n => p.testBit n) ∘ Nat.succ = fun n => (p / 2).testBit n := funext fun n => Nat.testBit_succ p n
    rw [popN, ih, List.range_succ_eq_map, List.filter_cons, List.filter_map, hshift, Nat.testBit_zero]
    rcases Nat.mod_two_eq_zero_or_one p with h | h <;> simp [h, Nat.add_comm]

theorem popN_lt (w p : Nat) : popN w p < 2 ^ w := by
  rw [popN_eq]
  exact ((List.length_filter_le ..).trans List.length_range.le).trans_lt w.lt_two_pow_self

theorem clzN_lt (w p : Nat) : clzN w p < 2 ^ w := by
  have hle : clzN w p ≤ w := by
    unfold clzN
    split <;> omega
  exact hle.trans_lt w.lt_two_pow_self

/-! ## The two forms -/

/-- A bit operation without flags: the vector form gives `op` on the elements, the scalar form on the typed scalars. -/
theorem bitForms_of {i : BitVec 1 → Instr} {s : State} {u k : Nat} {g : Group} {t : Strand} {d a b : BitVec 6} {x : BitVec 1}
    {f : Nat → Nat → Nat → Nat} (op : Nat → Nat → Nat) (ha : Acts s u k g t) (he : ∀ m, exec (i m) s = runS (typed3 tyBits d a b m x (bitOp f)) s)
    (ho : ∀ p q, p < 2 ^ t.w → q < 2 ^ t.w → f t.w p q % 2 ^ t.w = op p q) :
    (Ready tyBits t → VecForm (i 0) s u k t d fun j l => (op (elemB t a j) (t.opB b x j), l)) ∧
      (Typed tyBits t → ScalarForm (i 1) s u k t d fun l => (op (scaB t a) (scaB t b), l)) :=
  ⟨fun h => Laws.vec3_of (he 0) ha h fun j l => congrArg (·, l) (ho _ _ (elemB_lt t a j) (opB_lt t b x j)),
    fun h => Laws.sca3_of (he 1) ha h fun l => congrArg (·, l) (ho _ _ (scaB_lt t a) (scaB_lt t b))⟩

/-- The same with one operand. -/
theorem bitForms_of_one {i : BitVec 1 → Instr} {s : State} {u k : Nat} {g : Group} {t : Strand} {d a : BitVec 6} {f : Nat → Nat → Nat} (op : Nat → Nat)
    (ha : Acts s u k g t) (he : ∀ m, exec (i m) s = runS (typed2 tyBits d a m fun t i a l => bitOp (fun w a _ => f w a) t i 0 a 0 l) s)
    (ho : ∀ p, f t.w p % 2 ^ t.w = op p) :
    (Ready tyBits t → VecForm (i 0) s u k t d fun j l => (op (elemB t a j), l)) ∧ (Typed tyBits t → ScalarForm (i 1) s u k t d fun l => (op (scaB t a), l)) :=
  ⟨fun h => Laws.vec2_of (he 0) ha h fun _ l => congrArg (·, l) (ho _), fun h => Laws.sca2_of (he 1) ha h fun l => congrArg (·, l) (ho _)⟩

/-- Settles O4: each instruction is one operation on numbers of w bits, in the two forms. -/
theorem logicAndShifts : Obligations.LogicAndShifts := by
  unfold Obligations.LogicAndShifts
  intro s u k g t d a b x ha w shl shr shra rol pop clz
  have land := bitForms_of (i := fun m => .and d a b m x) (fun p q => p &&& q) ha (fun _ => rfl) fun _ _ _ hq => Nat.mod_eq_of_lt (Nat.and_lt_two_pow _ hq)
  have lor := bitForms_of (i := fun m => .or d a b m x) (fun p q => p ||| q) ha (fun _ => rfl) fun _ _ hp hq => Nat.mod_eq_of_lt (Nat.or_lt_two_pow hp hq)
  have lxor := bitForms_of (i := fun m => .xor d a b m x) (fun p q => p ^^^ q) ha (fun _ => rfl) fun _ _ hp hq => Nat.mod_eq_of_lt (Nat.xor_lt_two_pow hp hq)
  have landn := bitForms_of (i := fun m => .andn d a b m x) (fun p q => p &&& (2 ^ w - 1 - q)) ha (fun _ => rfl) fun _ _ _ _ =>
    Nat.mod_eq_of_lt (Nat.and_lt_two_pow _ (complement_lt ..))
  have shiftLeft := bitForms_of (i := fun m => .shl d a b m x) _ ha (fun _ => rfl) fun p q _ _ => shlN_mod w p q
  have shiftRight := bitForms_of (i := fun m => .shr d a b m x) _ ha (fun _ => rfl) fun _ q hp _ => shrN_mod hp q
  have shiftSigned := bitForms_of (i := fun m => .shra d a b m x) _ ha (fun _ => rfl) fun p q _ _ => shraN_mod w p q
  have rotate := bitForms_of (i := fun m => .rol d a b m x) _ ha (fun _ => rfl) fun _ q hp _ => rolN_mod (Laws.width_pos t.ty) hp q
  have complement := bitForms_of_one (i := fun m => .not d a m) _ ha (fun _ => rfl) fun p => Nat.mod_eq_of_lt (complement_lt w p)
  have count := bitForms_of_one (i := fun m => .popc d a m) _ ha (fun _ => rfl) fun p => (Nat.mod_eq_of_lt (popN_lt w p)).trans (popN_eq w p)
  have zeros := bitForms_of_one (i := fun m => .clz d a m) _ ha (fun _ => rfl) fun p => Nat.mod_eq_of_lt (clzN_lt w p)
  exact ⟨fun h => ⟨land.1 h, lor.1 h, lxor.1 h, landn.1 h, shiftLeft.1 h, shiftRight.1 h, shiftSigned.1 h, rotate.1 h, complement.1 h, count.1 h, zeros.1 h⟩,
    fun h => ⟨land.2 h, lor.2 h, lxor.2 h, landn.2 h, shiftLeft.2 h, shiftRight.2 h, shiftSigned.2 h, rotate.2 h, complement.2 h, count.2 h, zeros.2 h⟩⟩

/-! ## Immediate operands (R211) -/

theorem width_le_64 (ty : Nat) : tyWidth ty ≤ 64 := by
  unfold tyWidth
  split <;> decide

theorem intWrap_intWrap {v w : Nat} (h : v ≤ w) (z : Int) : intWrap w z % 2 ^ v = intWrap v z := by
  apply Int.ofNat_inj.1
  rw [Int.natCast_emod, coe_intWrap, coe_intWrap, Nat.cast_pow, Nat.cast_ofNat]
  exact Int.emod_emod_of_dvd z (pow_dvd_pow 2 h)

/-- The sign-extended immediate cut to w bits. -/
theorem immW_mod {w : Nat} (h : w ≤ 64) (i : BitVec 13) : (immW i).toNat % 2 ^ w = intWrap w i.toInt :=
  (congrArg (· % 2 ^ w) (BitVec.toNat_ofInt i.toInt (n := 64))).trans (intWrap_intWrap h i.toInt)

theorem intWrap_lt (w : Nat) (z : Int) : intWrap w z < 2 ^ w := intWrap_mod w z ▸ Nat.mod_lt _ (Nat.two_pow_pos w)

/-- The vector form of an immediate instruction, from what it does to an element of w bits. -/
theorem immediate_vector {i : Instr} {s : State} {u k : Nat} {g : Group} {t : Strand} {ok : Nat → Bool} {d a : BitVec 6}
    {vec : Strand → Nat → Lanes → Nat × Lanes} {sca : Word → Word} {op : Nat → Lanes → Nat × Lanes} (ha : Acts s u k g t) (he : exec i s = runS (immForm ok d a 0 vec sca) s) (h : Ready ok t)
    (ho : ∀ p l, p < 2 ^ t.w → vec t p l = op p l) : VecForm i s u k t d fun j => op (elemB t a j) :=
  Laws.vecForm_of he ha ((withType_typed ⟨h.1, h.2.1⟩ _).trans (withShape_fits h.2.2 _)) h.2.2
    (funext fun j => funext fun l => ho _ l (elemB_lt t a j))

/-- A logic operation with the immediate. -/
theorem immBits_eq {f : Nat → Nat → Nat} {t : Strand} {p : Nat} (i : BitVec 13) (l : Lanes) (hf : f p (intWrap t.w i.toInt) < 2 ^ t.w) :
    immBits (fun _ a b => f a b) i t p l = (f p (intWrap t.w i.toInt), l) := by
  rw [immBits, immW_mod (w := t.w) (width_le_64 t.ty), Nat.mod_eq_of_lt hf]

/-! ## 64-bit shifts (R211) -/

theorem ofNat_shlN (x : Word) (c : BitVec 6) : BitVec.ofNat 64 (shlN 64 x.toNat c.toNat) = x <<< c.toNat := by
  apply BitVec.eq_of_toNat_eq
  rw [BitVec.toNat_ofNat, shlN_mod, if_neg (Nat.not_le.2 c.isLt), BitVec.toNat_shiftLeft]

theorem ofNat_shrN (x : Word) (c : BitVec 6) : BitVec.ofNat 64 (shrN 64 x.toNat c.toNat) = x >>> c.toNat := by
  apply BitVec.eq_of_toNat_eq
  rw [BitVec.toNat_ofNat, shrN_mod x.isLt, if_neg (Nat.not_le.2 c.isLt), BitVec.toNat_ushiftRight]

theorem ofNat_shraN (x : Word) (c : BitVec 6) : BitVec.ofNat 64 (shraN 64 x.toNat c.toNat) = x.sshiftRight c.toNat := by
  apply BitVec.eq_of_toNat_eq
  rw [BitVec.toNat_ofNat, shraN_mod, natSigned_eq_bmod, ← BitVec.toInt_eq_toNat_bmod, min_eq_left c.isLt.le]
  exact (BitVec.toNat_ofInt _).symm

theorem ofNat_rolN (x : Word) (c : BitVec 6) : BitVec.ofNat 64 (rolN 64 x.toNat c.toNat) = x.rotateLeft c.toNat := by
  apply BitVec.eq_of_toNat_eq
  rw [BitVec.toNat_ofNat, rolN_mod (by decide) x.isLt, BitVec.toNat_rotateLeft, Nat.or_mod_two_pow,
    Nat.mod_eq_of_lt (Nat.lt_of_le_of_lt (Nat.shiftRight_le ..) x.isLt)]

/-- Settles O5: the 64-bit forms by the operations on words, the vector forms by those on w bits. -/
theorem immediates : Obligations.Immediates := by
  unfold Obligations.Immediates
  intro s u k g t d a i c z ha w
  refine ⟨⟨?addiS, ?andiS, ?oriS, ?xoriS, ?shliS, ?shriS, ?shraiS, ?roliS, ?lui, ?adpc⟩, fun h => ?addi,
    fun h => ⟨?andi, ?ori, ?xori, ?shli, ?shri, ?shrai, ?roli⟩⟩
  case addiS => exact Laws.becomes_of (f := addiE d a 1 i) rfl ha rfl
  case andiS => exact Laws.becomes_of (f := andiE d a 1 i) rfl ha rfl
  case oriS => exact Laws.becomes_of (f := oriE d a 1 i) rfl ha rfl
  case xoriS => exact Laws.becomes_of (f := xoriE d a 1 i) rfl ha rfl
  case shliS => exact Laws.becomes_of (f := shliE d a 1 c) rfl ha (congrArg (fun y => Eff.done (t.setX d y)) (ofNat_shlN (t.x a) c))
  case shriS => exact Laws.becomes_of (f := shriE d a 1 c) rfl ha (congrArg (fun y => Eff.done (t.setX d y)) (ofNat_shrN (t.x a) c))
  case shraiS => exact Laws.becomes_of (f := shraiE d a 1 c) rfl ha (congrArg (fun y => Eff.done (t.setX d y)) (ofNat_shraN (t.x a) c))
  case roliS => exact Laws.becomes_of (f := roliE d a 1 c) rfl ha (congrArg (fun y => Eff.done (t.setX d y)) (ofNat_rolN (t.x a) c))
  case lui => exact Laws.becomes_of (f := luiE d z) rfl ha rfl
  case adpc => exact Laws.becomes_of (f := adpcE d z) rfl ha rfl
  case addi => exact immediate_vector (op := fun p l => fitInt (mdSat t.md) t.ty (tyRead t.ty p + i.toInt) l) ha rfl h fun _ _ _ => rfl
  case andi =>
    exact immediate_vector (op := fun p l => (p &&& intWrap w i.toInt, l)) ha rfl h fun _ l _ => immBits_eq i l (Nat.and_lt_two_pow _ (intWrap_lt ..))
  case ori =>
    exact immediate_vector (op := fun p l => (p ||| intWrap w i.toInt, l)) ha rfl h fun _ l hp => immBits_eq i l (Nat.or_lt_two_pow hp (intWrap_lt ..))
  case xori =>
    exact immediate_vector (op := fun p l => (p ^^^ intWrap w i.toInt, l)) ha rfl h fun _ l hp => immBits_eq i l (Nat.xor_lt_two_pow hp (intWrap_lt ..))
  case shli =>
    exact immediate_vector (op := fun p l => (if w ≤ c.toNat then 0 else (p <<< c.toNat) % 2 ^ w, l)) ha rfl h fun p l _ => congrArg (·, l) (shlN_mod w p _)
  case shri =>
    exact immediate_vector (op := fun p l => (if w ≤ c.toNat then 0 else p >>> c.toNat, l)) ha rfl h fun _ l hp => congrArg (·, l) (shrN_mod hp _)
  case shrai =>
    exact immediate_vector (op := fun p l => (intWrap w (natSigned w p >>> min c.toNat w), l)) ha rfl h fun p l _ => congrArg (·, l) (shraN_mod w p _)
  case roli =>
    exact immediate_vector (op := fun p l => ((p <<< (c.toNat % w) ||| p >>> (w - c.toNat % w)) % 2 ^ w, l)) ha rfl h fun _ l hp =>
      congrArg (·, l) (rolN_mod (Laws.width_pos t.ty) hp _)

end Sys2Proof.Proofs
end

section
/-!
Compares (R213), operations on masks (R214) and permutes (R215): what the loops leave in a register whose operation raises no flag, and the masks
of the low bits.
-/
namespace Sys2Proof.Proofs

open Sys2Proof Sys2Proof.Machine Sys2Proof.Safety

/-! ## Compares (R213) -/

/-- A compare that leaves the lanes alone raises no flag, and each bit is its predicate. -/
theorem maskForm_of_pure {i : Instr} {s : State} {u k : Nat} {t : Strand} {d : BitVec 6} {p : Nat → Bool}
    (h : MaskForm i s u k t d fun j l => (p j, l)) :
    ∃ r : Bits1024, (∀ j, j < 1024 → r.getLsbD j = if j < t.el ∧ t.guard j = true then p j else (t.mask d).getLsbD j) ∧
      Becomes i s u k t (t.setM d r) := by
  obtain ⟨r, ls, h0, hnext, hbits, hb⟩ := h
  have hls (n : Nat) (hn : n ≤ t.el) : ls n = lanes0 t := by
    induction n with
    | zero => exact h0
    | succ n ih => rw [hnext n hn, ite_self, ih (Nat.le_of_succ_le hn)]
  refine ⟨r, fun j hj => ?bits, ?becomes⟩
  case bits =>
    have hactive : (j < t.el ∧ t.active j = true) ↔ (j < t.el ∧ t.guard j = true) := by
      simp only [Strand.active, Bool.and_eq_true, decide_eq_true_eq, and_self_left]
    rw [hbits j hj]
    exact if_congr hactive rfl rfl
  case becomes =>
    rw [hls t.el le_rfl] at hb
    exact flag_zero (t.setM d r) ▸ hb

/-- Both forms of an integer compare. -/
theorem compareForms_of {i : BitVec 1 → Instr} {s : State} {u k : Nat} {g : Group} {t : Strand} {d a b : BitVec 6} {x : BitVec 1} {p : Int → Int → Bool}
    (ha : Acts s u k g t) (he : ∀ m, exec (i m) s = runS (cmpForm tyInt d a b m x (intPred p)) s) :
    (Ready tyInt t → ∃ r : Bits1024,
        (∀ j, j < 1024 → r.getLsbD j = if j < t.el ∧ t.guard j = true then p (elemI t a j) (opBI t b x j) else (t.mask d).getLsbD j) ∧
        Becomes (i 0) s u k t (t.setM d r)) ∧
      (Typed tyInt t → Becomes (i 1) s u k t (t.setX d (if p (scaI t a) (scaI t b) then 1 else 0))) :=
  ⟨fun h => maskForm_of_pure (Laws.cmpForm_vec (p := intPred p) (he 0) ha h rfl),
    fun h => Laws.becomes_of (he 1) ha ((Laws.cmpForm_sca (p := intPred p) h).trans (congrArg Eff.done (flag_zero _)))⟩

/-- Settles O6: the six predicates in the two forms of a compare. -/
theorem integerCompares : Obligations.IntegerCompares := by
  unfold Obligations.IntegerCompares
  intro s u k g t d a b x ha mask
  have hmask {i : BitVec 1 → Instr} {p : Int → Int → Bool} (he : ∀ m, exec (i m) s = runS (cmpForm tyInt d a b m x (intPred p)) s) : mask i p :=
    compareForms_of ha he
  have hne : (fun p q : Int => decide (p ≠ q)) = fun p q => p != q := funext fun _ => funext fun _ => decide_not
  refine ⟨?_, ?_, ?_, ?_, ?_, ?_⟩
  · exact hmask (i := fun f => .ceq d a b f x) fun _ => rfl
  · exact hne ▸ hmask (i := fun f => .cne d a b f x) fun _ => rfl
  · exact hmask (i := fun f => .clt d a b f x) fun _ => rfl
  · exact hmask (i := fun f => .cle d a b f x) fun _ => rfl
  · exact hmask (i := fun f => .cgt d a b f x) fun _ => rfl
  · exact hmask (i := fun f => .cge d a b f x) fun _ => rfl

/-! ## Masks (R214) -/

theorem withMd_ok {t : Strand} (h : mdOk t.md = true) (f : Eff Strand) : withMd t f = f := if_neg (by rw [h]; decide)

theorem elM_le_1024 (t : Strand) : t.elM ≤ 1024 := by
  have hw : 8 ≤ tyWidth t.ty := by
    unfold tyWidth
    split <;> decide
  exact (Nat.min_le_right ..).trans (Nat.div_le_div_left hw (by decide))

theorem getLsbD_lowMask {n : Nat} (h : n ≤ 1024) (j : Nat) : (lowMask n).getLsbD j = decide (j < n) := by
  rw [lowMask, BitVec.getLsbD_ofNat, Nat.testBit_two_pow_sub_one, ← Bool.decide_and]
  exact decide_eq_decide.2 (and_iff_right_of_imp fun hj => hj.trans_le h)

/-- The lowest index with a bit set, or the bound. -/
theorem firstBit_spec (m : Bits1024) (n : Nat) : firstBit m n ≤ n ∧ (∀ j, j < firstBit m n → m.getLsbD j = false) ∧
    (firstBit m n = n ∨ m.getLsbD (firstBit m n) = true) := by
  unfold firstBit
  cases h : (List.range n).find? fun i => m.getLsbD i with
  | none =>
    have hnone := List.find?_eq_none.1 h
    exact ⟨le_rfl, fun j hj => Bool.eq_false_iff.2 (hnone j (List.mem_range.2 hj)), .inl rfl⟩
  | some i =>
    obtain ⟨hbit, hi, hlow⟩ := List.find?_range_eq_some.1 h
    exact ⟨(List.mem_range.1 hi).le, fun j hj => Bool.not_eq_true' _ ▸ hlow j hj, .inr hbit⟩

/-! ## Permutes (R215) -/

/-- A permuting form, from what it gives for each element. -/
theorem permutes_of {i : Instr} {s : State} {u k : Nat} {g : Group} {t : Strand} {ok : Nat → Bool} {d : BitVec 6} {f : Strand → Nat → Option Nat}
    {f' : Nat → Option Nat} (ha : Acts s u k g t) (he : exec i s = runS (permForm ok d f) s) (h : Ready ok t) (hf : ∀ j, f t j = f' j) :
    PermForm i s u k t d f' := by
  obtain rfl : f t = f' := funext hf
  exact Laws.permForm_of he ha h rfl

/-- Only the low w bits of what a permuting form gives count. -/
theorem permForm_of_mod {i : Instr} {s : State} {u k : Nat} {t : Strand} {d : BitVec 6} {f : Nat → Option Nat}
    (h : PermForm i s u k t d fun j => (f j).map (· % 2 ^ t.w)) : PermForm i s u k t d f := by
  obtain ⟨r, hr, hb⟩ := h
  refine ⟨r, fun j hj => (hr j hj).trans ?_, hb⟩
  dsimp only
  cases f j with
  | none => rfl
  | some n => simp only [Option.map_some, Nat.mod_mod]

/-- Settles O7: the mask operations by their masks of EL, the permutes by the shared form. -/
theorem maskAndPermutes : Obligations.MaskAndPermutes := by
  unfold Obligations.MaskAndPermutes
  refine ⟨?masks, ?permutes⟩
  case masks =>
    intro s u k g t d a b ha el
    refine ⟨⟨?and, ?or, ?xor, ?andn, ?not, ?clear, ?toX, ?fromX⟩, fun hm => ⟨⟨lowMask t.elM, getLsbD_lowMask (elM_le_1024 t), ?set⟩, ?count, ?first⟩⟩
    case and => exact Laws.becomes_of (f := mandE d a b) rfl ha rfl
    case or => exact Laws.becomes_of (f := morE d a b) rfl ha rfl
    case xor => exact Laws.becomes_of (f := mxorE d a b) rfl ha rfl
    case andn => exact Laws.becomes_of (f := mandnE d a b) rfl ha rfl
    case not => exact Laws.becomes_of (f := mnotE d a) rfl ha rfl
    case clear => exact Laws.becomes_of (f := mclrE d) rfl ha rfl
    case toX => exact Laws.becomes_of (f := mtoxE d a) rfl ha rfl
    case fromX => exact Laws.becomes_of (f := xtomE d a) rfl ha rfl
    case set => exact Laws.becomes_of (f := msetE d) rfl ha (withMd_ok hm _)
    case count =>
      have e : popN t.elM (t.mask a).toNat = ((List.range el).filter fun j => (t.mask a).getLsbD j).length := popN_eq ..
      exact e ▸ Laws.becomes_of (f := mpopcE d a) rfl ha (withMd_ok hm _)
    case first =>
      obtain ⟨hle, hlow, hat⟩ := firstBit_spec (t.mask a) t.elM
      exact ⟨_, hle, hlow, hat, Laws.becomes_of (f := mfirstE d a) rfl ha (withMd_ok hm _)⟩
  case permutes =>
    intro s u k g t d a b ha A B picked rank
    refine ⟨fun h => ⟨?sel, ?slup, ?sldn, ?vperm, ?compr, ?expnd, ?bcast, ?zip, ?unzip⟩, fun h => ?iota⟩
    case sel | sldn | vperm | compr | expnd | bcast | unzip => exact permutes_of ha rfl h fun _ => rfl
    case slup => exact permutes_of ha rfl h fun j => if_congr (by rw [Bool.and_eq_true, decide_eq_true_eq]) rfl rfl
    case zip =>
      refine permutes_of ha rfl h fun j => if_congr Iff.rfl (congrArg some ?_) rfl
      by_cases hj : j % 2 = 0
      · rw [if_pos hj, if_pos hj]
        rfl
      · rw [if_neg hj, if_neg hj, show (j - 1) / 2 = j / 2 by omega]
        rfl
    case iota => exact permForm_of_mod (permutes_of ha rfl h fun j => by split <;> rfl)

end Sys2Proof.Proofs
end

section
/-!
Vector length, shape and mode (R218, R219).
-/
namespace Sys2Proof.Proofs

open Sys2Proof Sys2Proof.Machine Sys2Proof.Safety

/-! ## Words made of fields -/

/-- A field that lies above another is added by OR. -/
theorem ofNat_add_shift {w n : Nat} (x y : Nat) (h : x < 2 ^ n) : BitVec.ofNat w (x + 2 ^ n * y) = BitVec.ofNat w x ||| (BitVec.ofNat w y <<< n) := by
  apply BitVec.eq_of_toNat_eq
  rw [BitVec.toNat_or, BitVec.toNat_shiftLeft, BitVec.toNat_ofNat, BitVec.toNat_ofNat, BitVec.toNat_ofNat, Nat.shiftLeft_eq, Nat.mod_mul_mod,
    ← Nat.shiftLeft_eq, ← Nat.or_mod_two_pow, Nat.or_comm, ← Nat.shiftLeft_add_eq_or_of_lt h, Nat.shiftLeft_eq, Nat.add_comm, Nat.mul_comm]

/-- MD below and ST above (R218). -/
theorem modeWord_eq (md : BitVec 20) (st : BitVec 6) : BitVec.ofNat 64 (md.toNat + 2 ^ 32 * st.toNat) = md.setWidth 64 ||| (st.setWidth 64 <<< 32) := by
  rw [ofNat_add_shift _ _ (md.isLt.trans (by decide : 2 ^ 20 < 2 ^ 32)), BitVec.ofNat_toNat, BitVec.ofNat_toNat]

/-- Column, row and the valid bit of DCOL in the layout of VS. -/
theorem dcolWord_eq {n : Nat} {r c : BitVec 11} (hc : c ≠ 0) (hn : n < r.toNat * c.toNat) :
    BitVec.ofNat 64 (n % c.toNat + 2 ^ 16 * (n / c.toNat) + 2 ^ 31) =
      BitVec.ofNat 64 (n % c.toNat) ||| (BitVec.ofNat 64 (n / c.toNat) <<< 16) ||| (1#64 <<< 31) := by
  have hpos : 0 < c.toNat := Nat.pos_of_ne_zero fun h => hc (BitVec.eq_of_toNat_eq h)
  have hcol : n % c.toNat < 2 ^ 11 := (Nat.mod_lt n hpos).trans c.isLt
  have hrow : n / c.toNat < 2 ^ 11 := ((Nat.div_lt_iff_lt_mul hpos).2 hn).trans r.isLt
  rw [← ofNat_add_shift _ _ (hcol.trans (by decide)), ← ofNat_add_shift (n := 31) _ 1 (by omega), Nat.mul_one]

/-- The rows of a selection that the dirty map holds. -/
theorem popN_and (m : BitVec 48) (x : Word) :
    popN 48 (m.toNat &&& x.toNat) = ((List.range 48).filter fun r => m.getLsbD r && x.getLsbD r).length := by
  rw [popN_eq]
  simp only [Nat.testBit_and, BitVec.testBit_toNat]

/-! ## SHAPE (R218) -/

section Shape

variable {s : State} {u k : Nat} {g : Group} {t : Strand} {d a b : BitVec 6} (ha : Acts s u k g t)
include ha

theorem shape_completes (h : (t.x a).toNat ≤ 1024 ∧ (t.x b).toNat ≤ 1024) : Becomes (.shape d a b) s u k t
    ({ t with vrows := (t.x a).setWidth 11, vcols := (t.x b).setWidth 11, vl := BitVec.ofNat 11 (min ((t.x a).toNat * (t.x b).toNat) 1024) }.setX d
      (t.x a * t.x b)) := by
  have hne : ¬ (1024 < (t.x a).toNat ∨ 1024 < (t.x b).toNat) := by omega
  exact Laws.becomes_of (f := shapeE d a b) rfl ha (if_neg hne)

theorem shape_traps (h : ¬ ((t.x a).toNat ≤ 1024 ∧ (t.x b).toNat ≤ 1024)) : Traps (.shape d a b) s u k t (trapOf 0x04 0 (t.x a * t.x b)) :=
  traps_of_strand_trap (f := shapeE d a b) ha rfl (if_pos (by omega))

end Shape

/-! ## SETMODE (R219) -/

theorem newMode_ok {md : BitVec 20} (h : mdOk md = true) (clear : BitVec 6) (t : Strand) :
    newMode md clear t = .done { t with md := md, st := t.st &&& ~~~clear } := if_neg (by rw [h]; decide)

theorem newMode_reserved {md : BitVec 20} (h : ¬ mdOk md = true) (clear : BitVec 6) (t : Strand) :
    newMode md clear t = .trap t (trapOf 0x02 1 (md.setWidth 64)) := if_pos (by rw [Bool.eq_false_iff.2 h]; rfl)

/-- Settles O9: each register's new value, and the checks of SHAPE and SETMODE. -/
theorem vectorControl : Obligations.VectorControl := by
  unfold Obligations.VectorControl
  intro s u k g t d a b i ha strip
  refine ⟨fun hm => ⟨?vstrip, ?vnext, ?getmode⟩, ?shape, ?vlq, ?dcol, ?setmode, ?setmodeImm⟩
  case vstrip => exact Laws.becomes_of (f := vstripE d a) rfl ha (withMd_ok hm _)
  case vnext => exact Laws.becomes_of (f := vnextE d) rfl ha (withMd_ok hm _)
  case getmode => exact modeWord_eq t.md t.st ▸ Laws.becomes_of (f := getmodeE d) rfl ha (withMd_ok hm _)
  case shape =>
    by_cases h : (t.x a).toNat ≤ 1024 ∧ (t.x b).toNat ≤ 1024
    · exact (if_pos h).mpr (shape_completes ha h)
    · exact (if_neg h).mpr ⟨_, rfl, shape_traps ha h⟩
  case vlq => exact popN_and t.dm (t.x a) ▸ Laws.becomes_of (f := vlqE d a) rfl ha rfl
  case dcol =>
    refine Laws.becomes_of (f := dcolE d a) rfl ha (congrArg (fun y => Eff.done (t.setX d y)) ?_)
    have hc : t.vcols.toNat ≠ 0 ↔ t.vcols ≠ 0 := not_congr ⟨fun h => BitVec.eq_of_toNat_eq h, fun h => congrArg BitVec.toNat h⟩
    simp only [hc]
    split
    · next h => exact dcolWord_eq h.1 h.2
    · rfl
  case setmode =>
    split
    · next h => exact Laws.becomes_of (f := setmodeE a) rfl ha (newMode_ok h _ t)
    · next h => exact ⟨_, rfl, rfl, traps_of_strand_trap (f := setmodeE a) ha rfl (newMode_reserved h _ t)⟩
  case setmodeImm =>
    split
    · next h =>
      exact Laws.becomes_of (f := setmodeImmE i) rfl ha
        ((newMode_ok h 0 t).trans (congrArg (fun e => Eff.done { t with md := i, st := e }) BitVec.and_allOnes))
    · next h => exact ⟨_, rfl, rfl, traps_of_strand_trap (f := setmodeImmE i) ha rfl (newMode_reserved h 0 t)⟩

end Sys2Proof.Proofs
end

section
/-!
Branches, jumps and LOOP (R220, R221, R223): an instruction that goes on elsewhere, and the targets that PC can hold.
-/
namespace Sys2Proof.Proofs

open Sys2Proof Sys2Proof.Machine Sys2Proof.Safety

/-! ## Targets -/

theorem jumpsTo_of {i : Instr} {s : State} {u k : Nat} {g : Group} {t t' : Strand} {f : Strand → Eff Strand} {pc target : Word}
    (ha : Acts s u k g t) (he : exec i s = runS f s) (hf : f t = .jump t' target) (ht : target &&& pcMask = pc &&& pcMask) : JumpsTo i s u k t' pc := by
  rw [JumpsTo, he, Laws.runS_jump ha hf, ht]

/-- A relative target is cut to the bits of PC once. -/
theorem relPc_and_pcMask {n : Nat} (pc : Word) (o : BitVec n) : relPc pc o &&& pcMask = (pc + 4 * o.signExtend 64) &&& pcMask := by
  have h4 : o.signExtend 64 <<< 2 = 4 * o.signExtend 64 := by
    rw [BitVec.shiftLeft_eq_mul_twoPow, BitVec.mul_comm]
    rfl
  rw [relPc, BitVec.and_assoc, BitVec.and_self, h4]

/-- Every address that PC can hold is a target (R221). -/
theorem badTarget_eq_false_iff (v : Word) : badTarget v = false ↔ v.toNat % 4 = 0 ∧ v.toNat < 2 ^ 57 := by
  have hlow : v.extractLsb' 0 2 = 0#2 ↔ v.toNat % 4 = 0 := by
    rw [← BitVec.toNat_inj, BitVec.extractLsb'_toNat, Nat.shiftRight_zero]
    rfl
  have hhigh : v.extractLsb' 57 7 = 0#7 ↔ v.toNat < 2 ^ 57 := by
    have hv := v.isLt
    rw [← BitVec.toNat_inj, BitVec.extractLsb'_toNat, Nat.shiftRight_eq_div_pow, BitVec.toNat_zero]
    omega
  simp only [badTarget, Bool.or_eq_false_iff, bne_eq_false_iff_eq, hlow, hhigh]

/-! ## Branches (R220) -/

section Branches

variable {i : Instr} {s : State} {u k : Nat} {g : Group} {t : Strand} {f : Strand → Eff Strand} {c : Strand → Bool} {o : BitVec 10} {taken : Prop}

/-- A branch, from the condition it tests. -/
theorem branch_of (ha : Acts s u k g t) (he : exec i s = runS f s) (hf : f t = brE c o t) (hc : c t = true ↔ taken) :
    (taken → JumpsTo i s u k t (t.pc + 4 * o.signExtend 64)) ∧ (¬ taken → Becomes i s u k t t) :=
  ⟨fun h => jumpsTo_of ha he (hf.trans (if_pos (hc.2 h))) (relPc_and_pcMask t.pc o),
    fun h => Laws.becomes_of he ha (hf.trans (if_neg (mt hc.1 h)))⟩

end Branches

/-- Some bit below EL of the mask is 1. -/
theorem anyMask_iff (t : Strand) (a : BitVec 6) : t.anyMask a = true ↔ ∃ j, j < t.elM ∧ (t.mask a).getLsbD j = true := by
  have hbit (j : Nat) : (t.mask a &&& lowMask t.elM).getLsbD j = true ↔ j < t.elM ∧ (t.mask a).getLsbD j = true := by
    rw [BitVec.getLsbD_and, getLsbD_lowMask (elM_le_1024 t), Bool.and_eq_true, decide_eq_true_eq, and_comm]
  rw [Strand.anyMask, bne_iff_ne, ← not_iff_not, not_not, not_exists]
  constructor
  · intro h j hj
    rw [← hbit, h] at hj
    exact Bool.false_ne_true (BitVec.getLsbD_zero.symm.trans hj)
  · intro h
    refine BitVec.eq_of_getLsbD_eq fun j _ => ?_
    exact (Bool.eq_false_iff.2 (mt (hbit j).1 (h j))).trans BitVec.getLsbD_zero.symm

/-! ## Jumps to a register (R221) -/

theorem jumpReg_jumps {v : Word} (h : v.toNat % 4 = 0 ∧ v.toNat < 2 ^ 57) (link : Strand → Strand) (t : Strand) : jumpReg v link t = .jump (link t) v :=
  if_neg (Bool.eq_false_iff.1 ((badTarget_eq_false_iff v).2 h))

theorem jumpReg_traps {v : Word} (h : ¬ (v.toNat % 4 = 0 ∧ v.toNat < 2 ^ 57)) (link : Strand → Strand) (t : Strand) :
    jumpReg v link t = .trap t (trapOf 0x06 0 v) := if_pos (by rwa [← badTarget_eq_false_iff, Bool.not_eq_false] at h)

/-- Settles O10: each branch by its condition, the jumps by their target. -/
theorem controlFlow : Obligations.ControlFlow := by
  unfold Obligations.ControlFlow
  intro s u k g t d a b o f l ha branch el some1 n
  refine ⟨?beq, ?bne, ?blt, ?bge, ?bltu, ?bgeu, fun hm => ⟨?bmany, ?bmnone⟩, ?j, ?jal, ?register, ?loop⟩
  case beq => exact branch_of (f := beqE a b o) ha rfl rfl beq_iff_eq
  case bne => exact branch_of (f := bneE a b o) ha rfl rfl bne_iff_ne
  case blt => exact branch_of (f := bltE a b o) ha rfl rfl BitVec.slt_iff_toInt_lt
  case bge => exact branch_of (f := bgeE a b o) ha rfl rfl (by rw [Bool.not_eq_true', ← Bool.not_eq_true, BitVec.slt_iff_toInt_lt, not_lt])
  case bltu => exact branch_of (f := bltuE a b o) ha rfl rfl BitVec.ult_iff_lt
  case bgeu => exact branch_of (f := bgeuE a b o) ha rfl rfl (by rw [Bool.not_eq_true', ← Bool.not_eq_true, BitVec.ult_iff_lt, BitVec.lt_def, not_lt])
  case bmany => exact branch_of (f := bmanyE a o) ha rfl (withMd_ok hm _) (anyMask_iff t a)
  case bmnone => exact branch_of (f := bmnoneE a o) ha rfl (withMd_ok hm _) (by rw [Bool.not_eq_true', ← Bool.not_eq_true]; exact not_congr (anyMask_iff t a))
  case j => exact jumpsTo_of (f := jE f) ha rfl rfl (relPc_and_pcMask t.pc f)
  case jal => exact jumpsTo_of (f := jalE f) ha rfl rfl (relPc_and_pcMask t.pc f)
  case register =>
    split
    · next h => exact ⟨jumpsTo_of (f := jrE a) ha rfl (jumpReg_jumps h id t) rfl, jumpsTo_of (f := jalrE d a) ha rfl (jumpReg_jumps h _ t) rfl⟩
    · next h => exact ⟨traps_of_strand_trap (f := jrE a) ha rfl (jumpReg_traps h id t), traps_of_strand_trap (f := jalrE d a) ha rfl (jumpReg_traps h _ t)⟩
  case loop =>
    split
    · next h => exact Laws.becomes_of (f := loopE l a o) rfl ha (if_pos h)
    · next h => exact jumpsTo_of (f := loopE l a o) ha rfl (if_neg h) (relPc_and_pcMask t.pc o)

end Sys2Proof.Proofs
end
